-- ==== Sys2Proof/Word.lean ====
section
/-! DEFINITION. The machine's word types and the register-number types (R2, R3, R52). -/

namespace Sys2Proof

/-- A 64-bit scalar or state register value (R3). -/
abbrev Word := BitVec 64

/-- One byte of memory, of the scratchpad, of a tile or of a vector register (R2). -/
abbrev Byte := BitVec 8

/-- One instruction word (R52). -/
abbrev IWord := BitVec 32

/-- The number of a scalar register, `x0` to `x31` (R3). -/
abbrev XReg := Fin 32

/-- The number of a vector register, `v0` to `v31` (R3). -/
abbrev VReg := Fin 32

/-- The number of a predicate register, `p0` to `p7` (R3). -/
abbrev PReg := Fin 8

/-- The number of a tile register, `t0` to `t255` (R3). -/
abbrev TReg := Fin 256

/-- The number of an accumulator tile, `t0` to `t63`, as the 6-bit `td` field reaches it (R3). -/
abbrev AReg := Fin 64

/-- A class slot of `CLASSMAP`, named by a 2-bit `cls` field (R59). -/
abbrev Slot := Fin 4

end Sys2Proof
end

