-- ==== Sys2Proof/Syntax.lean ====
section
/-! DEFINITION. The instruction syntax: one constructor of `Instr` per row of the opcode table. The first part of the
table is the instruction words (R53 to R79); the second part is the device's own steps (host commands, messages that
arrive from the fabric, engine and governor events), whose operands are what the outside world or obsidian supplies. -/

namespace Sys2Proof

/-! ### Field codes -/

/-- Element type of the V format (R55). -/
inductive ET where
  | f32 | bf16 | f16 | lns6 | s32 | s16 | s8 | n32
  deriving DecidableEq, Repr

/-- Element width of the VM format (R57). -/
inductive EW where
  | b8 | b16 | b32 | b64 | blk
  deriving DecidableEq, Repr

/-- Matrix format code (R56). -/
inductive Fmt where
  | f32 | bf16 | f16 | lns6 | s8 | n8
  deriving DecidableEq, Repr

/-- Load width and extension (R67). -/
inductive LdW where
  | n8 | n16 | n32 | n64 | s8 | s16 | s32
  deriving DecidableEq, Repr

/-- Integer comparison of `vcmp` (R73). -/
inductive ICond where
  | eq | ne | lt | ge
  deriving DecidableEq, Repr

/-- Floating-point comparison of `vfcmp` (R73). -/
inductive FCond where
  | eq | lt | le | un
  deriving DecidableEq, Repr

/-- Integer reduction of `vred` (R73). -/
inductive IRed where
  | add | min | max | and | or | xor
  deriving DecidableEq, Repr

/-- Floating-point reduction of `vfred` (R73). -/
inductive FRed where
  | sum | min | max
  deriving DecidableEq, Repr

/-- Member mode of a phaser (R77, R98). -/
inductive PhMode where
  | signalOnly | waitOnly | signalWait
  deriving DecidableEq, Repr

/-- Read-modify-write operation (R71, R74). -/
inductive AmoOp where
  | add | and | or | xor | min | max | minN | maxN | swap
  deriving DecidableEq, Repr

/-! ### Operands of the device's steps -/

/-- A hart by its logical place: cluster, core, hart within the core, or access hart of the cluster (R83, R87). -/
structure HartName where
  cluster : Nat
  core : Nat
  hart : Nat
  ah : Bool
  deriving DecidableEq, Repr

/-- A hart of any package, as messages name it: fabric identifier and `HARTID`[15:0]. -/
structure Party where
  fid : Nat
  hartid : BitVec 16
  deriving DecidableEq, Repr

/-- A token of one issuing hart (R236). `serial` is the model's own name of the put it was issued for, so that a token issued
again names another store (R189). -/
structure TokName where
  party : Party
  token : BitVec 16
  serial : Nat
  deriving DecidableEq, Repr

/-- The head of a host command record (R245). `badReserved` says that a byte R379 calls reserved is nonzero. -/
structure Cmd where
  seq : BitVec 32
  tenant : Nat
  job : BitVec 16
  badReserved : Bool
  deriving DecidableEq, Repr

/-- A launch descriptor (R46), `badReserved` standing for a nonzero reserved field. -/
structure LaunchDesc where
  name : BitVec 32
  leaseIndex : BitVec 16
  count : BitVec 32
  entry : Word
  args : Word
  argstride : BitVec 32
  priority : Nat
  lanes : Nat
  preempt : Nat
  classmap : BitVec 16
  badReserved : Bool
  deriving DecidableEq, Repr

/-- A lease range (R47). -/
structure LeaseRange where
  start : Nat
  len : Nat
  rw : Bool
  deriving DecidableEq, Repr

/-- A group member (R48); `fid` is `none` for `self`. -/
structure Member where
  fid : Option Nat
  cluster : Nat
  core : Nat
  hart : Nat
  deriving DecidableEq, Repr

/-- A group record (R48). -/
structure GroupRec where
  index : Nat
  members : List Member
  deriving DecidableEq, Repr

/-- A window record (R49). -/
structure WindowRec where
  id : Nat
  tile : Bool
  base : Nat
  len : Nat
  deriving DecidableEq, Repr

/-- An alloc section of a linked image (R38, R43): `bytes` is its file contents, zero-filled up to `len`; `rodata` says
that it is `.rodata`, `exec` that its exec flag is set. -/
structure Section where
  addr : Nat
  len : Nat
  rodata : Bool
  exec : Bool
  bytes : List Byte
  deriving DecidableEq, Repr

/-- The operands of `LAUNCH`: its context identifier, where its image lies, and the payload's parts (R89, R379). -/
structure LaunchReq where
  ctxId : BitVec 32
  imageFid : Nat
  imageAddr : Nat
  imageLen : Nat
  desc : LaunchDesc
  mbox : Vector Word 8
  leaseName : BitVec 32
  lease : List LeaseRange
  groups : List GroupRec
  windows : List WindowRec
  deriving DecidableEq, Repr

/-- A launch record with the sections and `__kvec` of the image that obsidian read for it (R43, R44, R89, R379). -/
structure LaunchRecord where
  ctxId : BitVec 32
  desc : LaunchDesc
  mbox : Vector Word 8
  leaseName : BitVec 32
  lease : List LeaseRange
  groups : List GroupRec
  windows : List WindowRec
  sections : List Section
  kvec : Word
  deriving DecidableEq, Repr

/-- What obsidian chooses for an accepted launch (R105, R379). -/
structure LaunchIds where
  launch : Nat
  lease : BitVec 32
  deriving DecidableEq, Repr

/-- The operands of `MAP`, `UNMAP` and `REMAP` (R379). `level` is the page size as the level of R167. -/
structure MapCmd where
  ctxId : BitVec 32
  level : Nat
  va : Nat
  pte : Word
  deriving DecidableEq, Repr

/-- What obsidian chooses for a bind record (R200, R251): the priority and the reserved bits it writes, the backing area and
its frames, the checkpoint area and the engine-queue limits. -/
structure BindChoice where
  part : Fin 4
  priority : Nat
  reserved : Nat
  backing : Nat
  frame : Nat
  eqMin : Nat
  eqCap : Nat
  ckpt : Word
  deriving DecidableEq, Repr

/-- A window put on the fabric (R235, R237). `waits` are the carried tokens that had not landed when it was sent. -/
structure PutMsg where
  src : TokName
  peer : Nat
  tenant : Nat
  job : BitVec 16
  win : Nat
  off : Nat
  data : List Byte
  carried : List TokName
  waits : List TokName
  deriving DecidableEq, Repr

/-- What an incoming remote request asks of a window (R240 to R242). -/
inductive ReqKind where
  | get (n : Nat)
  | ldred (n : Nat)
  | atomic (op : AmoOp) (w64 : Bool) (operand : Word)
  deriving DecidableEq, Repr

/-- A remote request on the fabric. -/
structure RemoteReq where
  src : Party
  peer : Nat
  tenant : Nat
  job : BitVec 16
  win : Nat
  off : Nat
  kind : ReqKind
  deriving DecidableEq, Repr

/-- The answer of a target or of the fabric to a remote operation: its bytes, or an error code of R232. -/
inductive Reply where
  | bytes (bs : List Byte)
  | error (code : Nat)
  deriving DecidableEq, Repr

/-- A tile send on the fabric (R244). -/
structure TileMsg where
  src : Party
  peer : Nat
  tenant : Nat
  job : BitVec 16
  win : Nat
  index : Nat
  target : HartName
  data : List Byte
  deriving DecidableEq, Repr

/-- A claim proposal on the flint plane (R257). `task` is the model's own name of the task that claims, by which an objection is
told from one to a claim of the hart's next task with the same sequence (R255, R258). -/
structure Proposal where
  src : Party
  task : Nat
  tenant : Nat
  job : BitVec 16
  addr : Word
  value : Word
  window : Nat
  seq : BitVec 16
  prio : Nat
  group : Nat
  cls : Fin 16
  deriving DecidableEq, Repr

/-- An access of another observer, or of the UALink fabric, at its ordering point (R181, R185, R228). -/
inductive AccessKind where
  | read (n : Nat)
  | write (bs : List Byte)
  | atomic (op : AmoOp) (w64 : Bool) (operand : Word)
  deriving DecidableEq, Repr

/-- The outcome of power-up self-test: the defect map, which names every unit that fails (R19, R20). Clusters, management
cores, stacks, stations, engines, die boundaries and ports are named by number; an L2 slice and a victim-cache way by its
physical die and its number there. -/
structure SelfTest where
  badClusters : List Nat
  badMgmt : List Nat
  badStacks : List Nat
  badStations : List Nat
  badSlices : List (Nat × Nat)
  badWays : List (Nat × Nat)
  badBoundaries : List Nat
  badPorts : List (Fin 18)
  badEngines : List Nat
  deriving DecidableEq, Repr

/-- The configuration image that obsidian loads at power-up (R17): its bytes, the keys it lists as trusted to sign images of a
tenant (R285), and the keys registered for a tenant's launches (R51). A key is its digest. -/
structure ConfigImage where
  bytes : List Byte
  trusted : List (Nat × List Byte)
  registered : List (Nat × List Byte)
  deriving DecidableEq, Repr

/-- What obsidian chooses and finds for a restore (R279, R284): the map, whether the source refuses a transfer, whether a fabric
identifier the tenant needs is not free, and the checkpoint areas it gives the contexts, in the order of the image. -/
structure RestoreChoice where
  map : List Nat
  refused : Bool
  fidTaken : Bool
  areas : List Word
  deriving DecidableEq, Repr

/-- What obsidian chooses for a command that arrives as bytes, where its opcode needs a choice: the identifiers of a `LAUNCH`,
the first way of a `CARVE`, the outcome of a transfer of a seal, and the choice of a `RESTORE`. -/
structure CmdChoice where
  ids : LaunchIds
  way0 : Nat
  refused : Bool
  restore : RestoreChoice
  deriving DecidableEq, Repr

/-- Where a seal writes its image: the endpoint, and whether it refuses a transfer (R278, R279). -/
structure SealDest where
  fid : Nat
  refused : Bool
  deriving DecidableEq, Repr

/-- The opcode of a command record, and the mode a `QUIESCE` names (R245, R276). -/
structure CmdOpcode where
  opcode : BitVec 16
  mode : BitVec 8
  deriving DecidableEq, Repr

/-- What an engine performs of the oldest entry of a queue: all of it, or its next granules (R156, R222). -/
structure CopyTurn where
  queue : Fin 8
  granules : Option Nat
  deriving DecidableEq, Repr

/-- A peer, and the tick at which a port last reached it (R230). -/
structure LastReached where
  fid : Nat
  tick : Word
  deriving DecidableEq, Repr

/-- What reaches a governor's periodic decision: the heat tokens of the second pass, and a floor the host sets (R272). -/
structure HeatShare where
  granted : Nat
  floor : Option Nat
  deriving DecidableEq, Repr

/-- Cycles of the clock, in a supply droop or not (R274). -/
structure DroopSpan where
  cycles : Nat
  drooping : Bool
  deriving DecidableEq, Repr

/-- The instructions and steps of the opcode table, in the table's order but for those with no operand. -/
inductive Instr where
  -- scalar register operations, R68 and R292
  | add (d a b : XReg)
  | sub (d a b : XReg)
  | and (d a b : XReg)
  | or (d a b : XReg)
  | xor (d a b : XReg)
  | sll (d a b : XReg)
  | srl (d a b : XReg)
  | sra (d a b : XReg)
  | slt (d a b : XReg) (n : Bool)
  | min (d a b : XReg) (n : Bool)
  | max (d a b : XReg) (n : Bool)
  | mul (d a b : XReg)
  | mulh (d a b : XReg) (n : Bool)
  | div (d a b : XReg) (n : Bool)
  | rem (d a b : XReg) (n : Bool)
  | clz (d a : XReg)
  | popc (d a : XReg)
  | sel (d a b c : XReg)
  -- scalar immediate operations, R293, R336, R347, R307, R319, R295
  | addi (d a : XReg) (imm : BitVec 16)
  | andi (d a : XReg) (imm : BitVec 16)
  | ori (d a : XReg) (imm : BitVec 16)
  | xori (d a : XReg) (imm : BitVec 16)
  | slti (d a : XReg) (imm : BitVec 16)
  | slli (d a : XReg) (sh : Fin 64)
  | srli (d a : XReg) (sh : Fin 64)
  | srai (d a : XReg) (sh : Fin 64)
  | ext (d a : XReg) (s : Bool) (len1 pos : Fin 64)
  | ins (d a : XReg) (len1 pos : Fin 64)
  | lui (d : XReg) (imm : BitVec 21)
  | auipc (d : XReg) (imm : BitVec 21)
  -- control flow, R296, R312, R313, R316
  | beq (a b : XReg) (off : BitVec 13)
  | bne (a b : XReg) (off : BitVec 13)
  | blt (a b : XReg) (off : BitVec 13)
  | bge (a b : XReg) (off : BitVec 13)
  | bltN (a b : XReg) (off : BitVec 13)
  | bgeN (a b : XReg) (off : BitVec 13)
  | jal (d : XReg) (off : BitVec 21)
  | jalr (d a : XReg) (imm : BitVec 16)
  | loop (a : XReg) (len : Fin 65536)
  | loopi (count : Fin 1024) (len : Fin 65536)
  -- scalar memory, R314, R348, R315, R349, R298, R294
  | ld (w : LdW) (d a : XReg) (imm : BitVec 16)
  | st (w : Fin 4) (d a : XReg) (imm : BitVec 16)
  | lda (d a : XReg) (c : Slot) (w : Fin 4)
  | stl (a b : XReg) (c : Slot) (w : Fin 4)
  | cas (d a b : XReg) (c : Slot) (w64 : Bool)
  | amoAdd (d a b : XReg) (c : Slot) (w64 : Bool)
  | amoAnd (d a b : XReg) (c : Slot) (w64 : Bool)
  | amoOr (d a b : XReg) (c : Slot) (w64 : Bool)
  | amoXor (d a b : XReg) (c : Slot) (w64 : Bool)
  | amoMin (d a b : XReg) (c : Slot) (w64 : Bool)
  | amoMax (d a b : XReg) (c : Slot) (w64 : Bool)
  | amoMinN (d a b : XReg) (c : Slot) (w64 : Bool)
  | amoMaxN (d a b : XReg) (c : Slot) (w64 : Bool)
  | amoSwap (d a b : XReg) (c : Slot) (w64 : Bool)
  -- state registers and system, R305, R215, R306, R208, R297, R321, R299
  | csrr (d : XReg) (r : BitVec 12)
  | csrw (d a : XReg) (r : BitVec 12)
  | csrs (d a : XReg) (r : BitVec 12)
  | csrc (d a : XReg) (r : BitVec 12)
  | mapsw (a : XReg)
  | pfx (fields : BitVec 26)
  -- vector length, R374
  | vsetvl (d a : XReg) (w : Fin 4)
  | vsetvli (d : XReg) (w : Fin 4) (len : BitVec 13)
  -- vector integer, R354, R357, R373, R372
  | vadd (d a b : VReg) (p : PReg) (e : ET) (n : Bool)
  | vsub (d a b : VReg) (p : PReg) (e : ET) (n : Bool)
  | vmul (d a b : VReg) (p : PReg) (e : ET) (n : Bool)
  | vmulh (d a b : VReg) (p : PReg) (e : ET) (n : Bool)
  | vand (d a b : VReg) (p : PReg) (e : ET) (n : Bool)
  | vor (d a b : VReg) (p : PReg) (e : ET) (n : Bool)
  | vxor (d a b : VReg) (p : PReg) (e : ET) (n : Bool)
  | vsll (d a b : VReg) (p : PReg) (e : ET) (n : Bool)
  | vsrl (d a b : VReg) (p : PReg) (e : ET) (n : Bool)
  | vsra (d a b : VReg) (p : PReg) (e : ET) (n : Bool)
  | vmin (d a b : VReg) (p : PReg) (e : ET) (n : Bool)
  | vmax (d a b : VReg) (p : PReg) (e : ET) (n : Bool)
  | vcmp (c : ICond) (pd : PReg) (a b : VReg) (p : PReg) (e : ET) (n : Bool)
  | vsel (d a b : VReg) (p : PReg) (e : ET) (n : Bool)
  | vred (d a : VReg) (r : IRed) (p : PReg) (e : ET) (n : Bool)
  -- vector floating point, R360 to R363, R376, R359
  | vfadd (d a b : VReg) (p : PReg) (e : ET)
  | vfsub (d a b : VReg) (p : PReg) (e : ET)
  | vfmul (d a b : VReg) (p : PReg) (e : ET)
  | vfma (d a b : VReg) (p : PReg) (e : ET)
  | vfnma (d a b : VReg) (p : PReg) (e : ET)
  | vfdiv (d a b : VReg) (p : PReg) (e : ET)
  | vfsqrt (d a : VReg) (p : PReg) (e : ET)
  | vfmin (d a b : VReg) (p : PReg) (e : ET)
  | vfmax (d a b : VReg) (p : PReg) (e : ET)
  | vfcmp (c : FCond) (pd : PReg) (a b : VReg) (p : PReg) (e : ET)
  | vfclass (d a : VReg) (p : PReg) (e : ET)
  | vfred (d a : VReg) (r : FRed) (p : PReg) (e : ET)
  | vtbl (d a : VReg) (t : Fin 4) (p : PReg) (e : ET)
  | vcvt (d a : VReg) (p : PReg) (src : ET) (sat : Bool) (dst : ET)
  | vfcvt (d a : VReg) (p : PReg) (src : ET) (dst : ET)
  -- LNS6, R138, R139
  | vlnspack (d a : VReg) (p : PReg)
  | vlnsunpack (d a : VReg) (p : PReg)
  | vlnsmul (d a b : VReg) (p : PReg)
  | vlnsadd (d a b : VReg) (p : PReg)
  | vscale (d a b : VReg) (p : PReg)
  -- permutation, R371, R375, R358, R356, R370, R364
  | vperm (d a b : VReg) (p : PReg) (e : ET)
  | vslideup (d a : VReg) (b : XReg) (p : PReg) (e : ET)
  | vslidedn (d a : VReg) (b : XReg) (p : PReg) (e : ET)
  | vcompress (d a : VReg) (p : PReg) (e : ET)
  | vexpand (d a : VReg) (p : PReg) (e : ET)
  | vbcast (d : VReg) (a : XReg) (p : PReg) (e : ET)
  | vmv (d a : VReg) (p : PReg) (e : ET)
  | vidx (d : VReg) (p : PReg) (e : ET)
  -- predicates, R338
  | pand (d a b : PReg)
  | por (d a b : PReg)
  | pxor (d a b : PReg)
  | pnot (d a : PReg)
  | pcnt (d : XReg) (a : PReg)
  | pfirst (d : XReg) (a : PReg)
  -- vector memory, R366, R367, R153, R344, R355
  | vld (d : VReg) (a : XReg) (p : PReg) (w : EW) (c : Slot)
  | vlds (d : VReg) (a b : XReg) (p : PReg) (w : EW) (c : Slot)
  | vldx (d : VReg) (a : XReg) (b : VReg) (p : PReg) (w : EW) (c : Slot)
  | vldff (d : VReg) (a : XReg) (p : PReg) (w : EW) (c : Slot)
  | vldsp (d : VReg) (a b : XReg) (p : PReg) (w : EW) (c : Slot)
  | qld (d : VReg) (q : Fin 16) (p : PReg) (w : EW)
  | vst (d : VReg) (a : XReg) (p : PReg) (w : EW) (c : Slot)
  | vsts (d : VReg) (a b : XReg) (p : PReg) (w : EW) (c : Slot)
  | vstx (d : VReg) (a : XReg) (b : VReg) (p : PReg) (w : EW) (c : Slot)
  | vstsp (d : VReg) (a b : XReg) (p : PReg) (w : EW) (c : Slot)
  | vamoAdd (d : VReg) (a : XReg) (b : VReg) (p : PReg) (w64 : Bool) (c : Slot)
  | vamoMin (d : VReg) (a : XReg) (b : VReg) (p : PReg) (w64 : Bool) (c : Slot)
  | vamoMax (d : VReg) (a : XReg) (b : VReg) (p : PReg) (w64 : Bool) (c : Slot)
  | vamoAnd (d : VReg) (a : XReg) (b : VReg) (p : PReg) (w64 : Bool) (c : Slot)
  | vamoOr (d : VReg) (a : XReg) (b : VReg) (p : PReg) (w64 : Bool) (c : Slot)
  | vamoXor (d : VReg) (a : XReg) (b : VReg) (p : PReg) (w64 : Bool) (c : Slot)
  | vamoSwap (d : VReg) (a : XReg) (b : VReg) (p : PReg) (w64 : Bool) (c : Slot)
  -- strips and fences, R218, R184, R187, R310, R163
  | sbegin (a : XReg)
  | fence (ack : Bool) (scope : Fin 16) (cmask : BitVec 16)
  | fenceq (qmask : BitVec 8)
  -- matrix, R328, R330, R335, R326, R327, R334, R325, R324, R332, R322, R331
  | mma (f : Fmt) (td : AReg) (ta tb : TReg) (lu : BitVec 2)
  | mmasp (f : Fmt) (td : AReg) (ta : TReg) (b c : XReg)
  | mmats (f : Fmt) (td : AReg) (ta : TReg) (b c : XReg)
  | mzero (t : TReg)
  | mld (t : TReg) (a b : XReg) (c : Slot) (h : Bool)
  | mst (t : TReg) (a b : XReg) (c : Slot) (h : Bool)
  | mldsp (t : TReg) (a b : XReg) (c : Slot) (h : Bool)
  | mstsp (t : TReg) (a b : XReg) (c : Slot) (h : Bool)
  | mv2t (t : TReg) (a : VReg) (b : XReg)
  | mt2v (t : TReg) (a : VReg) (b : XReg)
  | mfree (t : TReg)
  | mpref (t : TReg)
  | mepi (t : TReg) (a b : XReg) (c : Slot)
  | msend (t : TReg) (a b : XReg) (c : Slot)
  | mmov (ta tb : TReg) (lu : Bool)
  | mtrans (ta tb : TReg) (f : Fin 4) (lu : Bool)
  -- copy engine, R155, R302, R303, R304, R194, R145
  | cpy (q : Fin 8) (a b c : XReg)
  | cpy2d (q : Fin 8) (a b c : XReg)
  | cpyg (q : Fin 8) (a b c : XReg)
  | cpyts (q : Fin 8) (a b c : XReg)
  | qfill (q : Fin 8) (a b c : XReg)
  | tblld (q : Fin 4) (a : XReg)
  -- phasers, R98, R340
  | phnew (a c : XReg)
  | phdel (a c : XReg)
  | phreg (m : PhMode) (a c : XReg)
  | phdrop (a c : XReg)
  | phsig (a c : XReg)
  | phwait (a c : XReg)
  | phsw (a c : XReg)
  -- tasks, R311, R93, R351
  | gmem (a b c : XReg)
  | post (a : XReg)
  -- remote operations, R234
  | rput (s : Slot) (a b c : XReg)
  | rget (s : Slot) (a b c : XReg)
  | ramo (s : Slot) (a b c : XReg)
  | rldred (s : Slot) (a b c : XReg)
  | rwait (a b c : XReg)
  | tkstat (a c : XReg)
  -- claims and deadlines, R256, R266
  | claim (a b c : XReg)
  | object (a b c : XReg)
  | clwait (c : XReg)
  | dln (a b : XReg)
  | dlnend (c : XReg)
  | hint (bits : BitVec 26)
  -- the device's own steps
  | illegal (w : IWord)
  | copyEntryPerforms (turn : CopyTurn)
  | tileFillDone (t : TReg)
  | tileSpillStart (t : TReg)
  | tileSpillDone (t : TReg)
  | slotReclaim (t : TReg)
  | bind (choice : BindChoice)
  | launch (c : Cmd) (r : LaunchReq) (ids : LaunchIds)
  | mboxw (c : Cmd) (launchId : Nat) (index : Nat) (value : Word)
  | map (c : Cmd) (m : MapCmd)
  | unmap (c : Cmd) (m : MapCmd)
  | remap (c : Cmd) (m : MapCmd) (how : Nat)
  | pageans (c : Cmd) (ctxId req : BitVec 32) (ok : Bool) (maps : List MapCmd)
  | carve (c : Cmd) (die way0 nway : Nat)
  | uncarve (c : Cmd) (handle : Word)
  | pool (c : Cmd) (cluster : Nat) (q : Fin 16) (qmin qcap : Nat)
  | quiesceStop (c : Cmd)
  | quiesceTokenSettle (tenant : Nat)
  | quiesceSeal (c : Cmd) (incremental : Bool) (base : Nat) (addr : Word) (dest : SealDest)
  | quiesceResume (c : Cmd)
  | quiesceDiscard (c : Cmd)
  | restore (c : Cmd) (addr : Word) (fid : Nat) (final : Bool) (r : RestoreChoice)
  | sync (c : Cmd)
  | replay (c : Cmd) (start : BitVec 32)
  | commandUnknown (c : Cmd) (op : CmdOpcode)
  | powerUp (test : SelfTest) (config : ConfigImage) (signature : List Byte)
  | portFail (p : Fin 18)
  | laneShed (p : Fin 18) (lanes : Fin 4)
  | peerAbsent (last : LastReached)
  | putReceived (m : PutMsg)
  | putRefused (m : PutMsg)
  | tokenAccepted (t : TokName)
  | tokenLanded (t : TokName)
  | landedNotice (t : TokName)
  | tokenExpires (t : TokName)
  | expiryNotice (t : TokName)
  | remoteRequestServed (r : RemoteReq)
  | rgetComplete (ticket : Nat) (r : Reply)
  | ramoComplete (r : Reply)
  | rldredComplete (rs : List Reply)
  | msendReceived (m : TileMsg)
  | ualinkRequest (src : Party) (addr : Nat) (k : AccessKind)
  | proposalReceived (p : Proposal)
  | memberWindowCloses (addr : Word) (group : Nat)
  | objectionReceived (src : Party) (p : Proposal) (abort : Bool)
  | commitNoticeReceived (p : Proposal)
  | endNoticeReceived (p : Proposal)
  | claimStorePerformed (acknowledged written : Bool)
  | governorDecision (share : HeatShare)
  | throttleAdjust (raise : Bool)
  | supplyDroop (span : DroopSpan)
  | retentionExit (lost : Bool) (restored : List HartName)
  | migrate (va : Nat) (pfn : Nat)
  | promotion (asid va level pfn : Nat)
  | accessPerforms (va : Word) (k : Nat)
  | queuedInstructionRetires (pc : Word) (ahead : Nat)
  | putFailed (t : TokName) (code : Nat)
  | msendCompletes (win ticket code : Nat)
  | attestationRequest (c : Cmd) (nonce : Word)
  -- the rows that have no operand, last: a compiled constructor with operands has an 8-bit tag
  | nop
  | ecall
  | kVersion
  | kYield
  | kRequestUnknown
  | eret
  | brk
  | ckpt
  | scommit
  | sabort
  | fencesvSv
  | fencesvVs
  | spfence
  | mattach
  | mdetach
  | texit
  | dlnRisk
  | transferReplay
  | checkpointStream
  | preemptionRequest
  | preemptionComplete
  | mapCommandCompletes
  | flintBoundHeld
  | claimWaitEnds
  | operatingPointSettles
  deriving DecidableEq, Repr

end Sys2Proof
end

