-- ==== Sys2Proof/WellFormed.lean ====
section
/-! DEFINITION. Which instruction terms stand for a word of the spec: the checks of R52 to R79 that the types of
`Instr` do not already make. -/

namespace Sys2Proof

/-- The integer element types (R55). -/
def ET.isInt : ET → Bool
  | .s32 | .s16 | .s8 | .n32 => true
  | .f32 | .bf16 | .f16 | .lns6 => false

/-- The floating-point element types (R55). -/
def ET.isFloat : ET → Bool
  | .f32 | .bf16 | .f16 => true
  | .lns6 | .s32 | .s16 | .s8 | .n32 => false

/-- The element width in bits; for LNS6, the 16-byte block (R55, R80). -/
def ET.width : ET → Nat
  | .f32 | .s32 | .n32 => 32
  | .bf16 | .f16 | .s16 => 16
  | .s8 => 8
  | .lns6 => 128

/-- The state register addresses of R103's map. -/
def csrListed (r : BitVec 12) : Bool :=
  let a := r.toNat
  a ≤ 0x001 || (0x010 ≤ a && a ≤ 0x013) || (0x020 ≤ a && a ≤ 0x022) || (0x030 ≤ a && a ≤ 0x036)
    || (0x040 ≤ a && a ≤ 0x044) || a == 0x050 || a == 0x051 || (0x060 ≤ a && a ≤ 0x062)
    || (0x070 ≤ a && a ≤ 0x077) || (0x100 ≤ a && a ≤ 0x11F)

/-- The operand types of a VINT word: et 4 to 7, and `.n` only with et 5 or 6 (R73). -/
def vintOk (e : ET) (n : Bool) : Bool := e.isInt && (!n || e == .s16 || e == .s8)

/-- The operands of a VCVT word, of either spelling (R73, R359). -/
def cvtOk (d a : VReg) (src dst : ET) : Bool :=
  src != .lns6 && dst != .lns6 && src != dst && (src.width == dst.width || d != a)

/-- The instruction has a word, and it is this constructor that the word decodes to (R66, R69, R70, R72, R73, R75, R76).
A step of the device has no word; its operands are checked where it acts. -/
def Instr.wf : Instr → Bool
  | .addi d a imm => !(d == 0 && a == 0 && imm == 0)
  | .ext _ _ _ len1 pos | .ins _ _ len1 pos => pos.val + len1.val + 1 ≤ 64
  | .loop _ len | .loopi _ len => len != 0
  | .csrr _ r | .csrw _ _ r | .csrs _ _ r | .csrc _ _ r => csrListed r
  | .vadd _ _ _ _ e n | .vsub _ _ _ _ e n | .vmul _ _ _ _ e n | .vmulh _ _ _ _ e n | .vand _ _ _ _ e n
  | .vor _ _ _ _ e n | .vxor _ _ _ _ e n | .vsll _ _ _ _ e n | .vsrl _ _ _ _ e n | .vsra _ _ _ _ e n
  | .vmin _ _ _ _ e n | .vmax _ _ _ _ e n | .vcmp _ _ _ _ _ e n | .vsel _ _ _ _ e n | .vred _ _ _ _ e n => vintOk e n
  | .vfadd _ _ _ _ e | .vfsub _ _ _ _ e | .vfmul _ _ _ _ e | .vfma _ _ _ _ e | .vfnma _ _ _ _ e
  | .vfdiv _ _ _ _ e | .vfsqrt _ _ _ e | .vfmin _ _ _ _ e | .vfmax _ _ _ _ e | .vfcmp _ _ _ _ _ e
  | .vfclass _ _ _ e | .vfred _ _ _ _ e => e.isFloat
  | .vtbl _ _ _ _ e => e == .f32 || e == .bf16
  | .vcvt d a _ src _ dst => cvtOk d a src dst && src.isInt && dst.isInt
  | .vfcvt d a _ src dst => cvtOk d a src dst && !(src.isInt && dst.isInt)
  | .vidx _ _ e => e != .lns6
  | .fence _ scope cmask => cmask != 0 && scope.val ≤ 8
  | .fenceq qmask => qmask != 0
  | .mtrans _ _ f _ => f != 3
  | .laneShed _ lanes => lanes == 1 || lanes == 2
  | _ => true

end Sys2Proof
end

