-- ==== Sys2Proof/Decode.lean ====
section
/-! DEFINITION. Decoding an instruction word (R52 to R79), and the encoder written from the same tables. -/

namespace Sys2Proof

/-! ### Fields -/

/-- `fld w lo n` is bits [lo + n − 1 : lo] of `w` (R2, R80). -/
def fld (w lo n : Nat) : Nat := w / 2 ^ lo % 2 ^ n

/-- A scalar or vector register field (R53). -/
def fReg (w lo : Nat) : Fin 32 := Fin.ofNat 32 (w / 2 ^ lo)

/-- A predicate register field (R53). -/
def fPred (w lo : Nat) : Fin 8 := Fin.ofNat 8 (w / 2 ^ lo)

/-- A tile register field (R53). -/
def fTile (w lo : Nat) : Fin 256 := Fin.ofNat 256 (w / 2 ^ lo)

/-- A 6-bit count or accumulator field (R53, R69). -/
def fSix (w lo : Nat) : Fin 64 := Fin.ofNat 64 (w / 2 ^ lo)

/-- A 2-bit field (R53). -/
def fTwo (w lo : Nat) : Fin 4 := Fin.ofNat 4 (w / 2 ^ lo)

/-- A 1-bit field (R53). -/
def fBit (w lo : Nat) : Bool := w / 2 ^ lo % 2 == 1

/-- The name of an element type code (R55). -/
def etOf (c : Nat) : ET :=
  match c % 8 with
  | 0 => .f32 | 1 => .bf16 | 2 => .f16 | 3 => .lns6 | 4 => .s32 | 5 => .s16 | 6 => .s8 | _ => .n32

/-- The code of an element type (R55). -/
def ET.code : ET → Nat
  | .f32 => 0 | .bf16 => 1 | .f16 => 2 | .lns6 => 3 | .s32 => 4 | .s16 => 5 | .s8 => 6 | .n32 => 7

/-- The name of a width code, codes 5 to 7 reserved (R57). -/
def ewOf (c : Nat) : Option EW :=
  match c with
  | 0 => some .b8 | 1 => some .b16 | 2 => some .b32 | 3 => some .b64 | 4 => some .blk | _ => none

/-- The code of a width (R57). -/
def EW.code : EW → Nat
  | .b8 => 0 | .b16 => 1 | .b32 => 2 | .b64 => 3 | .blk => 4

/-- The name of a matrix format code, codes 6 and 7 reserved (R56). -/
def fmtOf (c : Nat) : Option Fmt :=
  match c with
  | 0 => some .f32 | 1 => some .bf16 | 2 => some .f16 | 3 => some .lns6 | 4 => some .s8 | 5 => some .n8 | _ => none

/-- The code of a matrix format (R56). -/
def Fmt.code : Fmt → Nat
  | .f32 => 0 | .bf16 => 1 | .f16 => 2 | .lns6 => 3 | .s8 => 4 | .n8 => 5

/-- The name of a load width code, code 7 reserved (R67). -/
def ldwOf (c : Nat) : Option LdW :=
  match c with
  | 0 => some .n8 | 1 => some .n16 | 2 => some .n32 | 3 => some .n64 | 4 => some .s8 | 5 => some .s16 | 6 => some .s32
  | _ => none

/-- The code of a load width (R67). -/
def LdW.code : LdW → Nat
  | .n8 => 0 | .n16 => 1 | .n32 => 2 | .n64 => 3 | .s8 => 4 | .s16 => 5 | .s32 => 6

/-- The condition codes of `vcmp` (R73). -/
def icondOf (c : Nat) : ICond :=
  match c % 4 with
  | 0 => .eq | 1 => .ne | 2 => .lt | _ => .ge

/-- The code of a `vcmp` condition (R73). -/
def ICond.code : ICond → Nat
  | .eq => 0 | .ne => 1 | .lt => 2 | .ge => 3

/-- The condition codes of `vfcmp` (R73). -/
def fcondOf (c : Nat) : FCond :=
  match c % 4 with
  | 0 => .eq | 1 => .lt | 2 => .le | _ => .un

/-- The code of a `vfcmp` condition (R73). -/
def FCond.code : FCond → Nat
  | .eq => 0 | .lt => 1 | .le => 2 | .un => 3

/-- The reduction codes of `vred`, 6 and 7 reserved (R372). -/
def iredOf (c : Nat) : Option IRed :=
  match c with
  | 0 => some .add | 1 => some .min | 2 => some .max | 3 => some .and | 4 => some .or | 5 => some .xor | _ => none

/-- The code of a `vred` reduction (R372). -/
def IRed.code : IRed → Nat
  | .add => 0 | .min => 1 | .max => 2 | .and => 3 | .or => 4 | .xor => 5

/-- The reduction codes of `vfred`, 3 reserved (R363). -/
def fredOf (c : Nat) : Option FRed :=
  match c with
  | 0 => some .sum | 1 => some .min | 2 => some .max | _ => none

/-- The code of a `vfred` reduction (R363). -/
def FRed.code : FRed → Nat
  | .sum => 0 | .min => 1 | .max => 2

/-- The mode codes of `phreg`, 3 to 7 reserved (R77). -/
def phModeOf (c : Nat) : Option PhMode :=
  match c with
  | 0 => some .signalOnly | 1 => some .waitOnly | 2 => some .signalWait | _ => none

/-- The code of a phaser mode (R77). -/
def PhMode.code : PhMode → Nat
  | .signalOnly => 0 | .waitOnly => 1 | .signalWait => 2

/-! ### The decoder -/

/-- Why a word is not an instruction (R78). -/
inductive DecodeError where
  /-- Fewer than four bytes were given. -/
  | short
  /-- A major of 0x00, 0x17, 0x2E, 0x2F, 0x3D or 0x3F. -/
  | reservedMajor
  /-- A reserved value of an fn, op, mode, cond, w, fmt, q or subfield table. -/
  | reservedCode
  /-- A field the tables name as zero, or as unused, holds a nonzero value. -/
  | nonzeroField
  /-- Field values that are legal one by one and reserved together. -/
  | reservedOperands
  deriving DecidableEq, Repr

/-- The result of decoding: an instruction, or the name of the refusal. -/
abbrev Decoded := Except DecodeError Instr

/-- Accept `i` when the fields named zero are zero. -/
def zeros (fields : Nat) (i : Instr) : Decoded := if fields = 0 then .ok i else .error .nonzeroField

/-- Accept an instruction made from a code that may be reserved. -/
def coded {α : Type} (o : Option α) (k : α → Decoded) : Decoded :=
  match o with
  | some a => k a
  | none => .error .reservedCode

/-- ALU, major 0x01 (R68). -/
def decodeAlu (w : Nat) : Decoded :=
  let d := fReg w 21; let a := fReg w 16; let b := fReg w 11
  let n := fBit w 5; let hi := fld w 6 5; let hin := fld w 5 6; let xb := fld w 11 5
  match fld w 0 5 with
  | 0 => zeros hin (.add d a b)
  | 1 => zeros hin (.sub d a b)
  | 2 => zeros hin (.and d a b)
  | 3 => zeros hin (.or d a b)
  | 4 => zeros hin (.xor d a b)
  | 5 => zeros hin (.sll d a b)
  | 6 => zeros hin (.srl d a b)
  | 7 => zeros hin (.sra d a b)
  | 8 => zeros hi (.slt d a b n)
  | 9 => zeros hi (.min d a b n)
  | 10 => zeros hi (.max d a b n)
  | 11 => zeros hin (.mul d a b)
  | 12 => zeros hi (.mulh d a b n)
  | 13 => zeros hi (.div d a b n)
  | 14 => zeros hi (.rem d a b n)
  | 15 => zeros (hin + xb) (.clz d a)
  | 16 => zeros (hin + xb) (.popc d a)
  | 17 => zeros (fld w 5 1) (.sel d a b (fReg w 6))
  | _ => .error .reservedCode

/-- SHIFTI, major 0x07 (R69). -/
def decodeShift (w : Nat) : Decoded :=
  let d := fReg w 21; let a := fReg w 16; let s := fSix w 0
  match fld w 6 2 with
  | 0 => zeros (fld w 8 8) (.slli d a s)
  | 1 => zeros (fld w 8 8) (.srli d a s)
  | 2 => zeros (fld w 8 8) (.srai d a s)
  | _ => .error .reservedCode

/-- EXTINS, major 0x08 (R69). -/
def decodeExtIns (w : Nat) : Decoded :=
  let d := fReg w 21; let a := fReg w 16; let l := fSix w 6; let p := fSix w 0
  match fld w 13 1 with
  | 0 => zeros (fld w 14 2) (.ext d a (fBit w 12) l p)
  | _ => zeros (fld w 14 2 + fld w 12 1) (.ins d a l p)

/-- BRANCH, major 0x0B (R70). -/
def decodeBranch (w : Nat) : Decoded :=
  let a := fReg w 21; let b := fReg w 16; let o := BitVec.ofNat 13 w
  match fld w 13 3 with
  | 0 => .ok (.beq a b o)
  | 1 => .ok (.bne a b o)
  | 2 => .ok (.blt a b o)
  | 3 => .ok (.bge a b o)
  | 4 => .ok (.bltN a b o)
  | 5 => .ok (.bgeN a b o)
  | _ => .error .reservedCode

/-- SATOM, major 0x1C (R71). -/
def decodeSatom (w : Nat) : Decoded :=
  let d := fReg w 21; let a := fReg w 16; let b := fReg w 11; let c := fTwo w 7
  let z := fld w 9 2; let w64 := fBit w 0
  let wide (i : Instr) : Decoded := if fld w 1 1 = 1 then zeros z i else .error .reservedCode
  match fld w 2 5 with
  | 0 => zeros (z + fld w 11 5) (.lda d a c (fTwo w 0))
  | 1 => zeros (z + fld w 21 5) (.stl a b c (fTwo w 0))
  | 2 => wide (.cas d a b c w64)
  | 8 => wide (.amoAdd d a b c w64)
  | 9 => wide (.amoAnd d a b c w64)
  | 10 => wide (.amoOr d a b c w64)
  | 11 => wide (.amoXor d a b c w64)
  | 12 => wide (.amoMin d a b c w64)
  | 13 => wide (.amoMax d a b c w64)
  | 14 => wide (.amoMinN d a b c w64)
  | 15 => wide (.amoMaxN d a b c w64)
  | 16 => wide (.amoSwap d a b c w64)
  | _ => .error .reservedCode

/-- CSR, major 0x1D (R72). -/
def decodeCsr (w : Nat) : Decoded :=
  let d := fReg w 21; let a := fReg w 16; let r := BitVec.ofNat 12 w; let z := fld w 14 2
  match fld w 12 2 with
  | 0 => zeros (z + fld w 16 5) (.csrr d r)
  | 1 => zeros z (.csrw d a r)
  | 2 => zeros z (.csrs d a r)
  | _ => zeros z (.csrc d a r)

/-- SYS, major 0x1E (R72). -/
def decodeSys (w : Nat) : Decoded :=
  let xd := fld w 21 5; let xa := fld w 16 5; let xb := fld w 11 5
  match fld w 0 11 with
  | 0 => zeros (xd + xa + xb) .ecall
  | 1 => zeros (xd + xa + xb) .eret
  | 2 => zeros (xd + xa + xb) .brk
  | 3 => zeros (xd + xb) (.mapsw (fReg w 16))
  | 4 => zeros (xd + xa + xb) .ckpt
  | _ => .error .reservedCode

/-- VINT, major 0x22 (R73). -/
def decodeVint (w : Nat) : Decoded :=
  let d := fReg w 21; let a := fReg w 16; let b := fReg w 11; let p := fPred w 8
  let e := etOf (fld w 5 3); let n := fBit w 4
  match fld w 0 4 with
  | 0 => .ok (.vadd d a b p e n)
  | 1 => .ok (.vsub d a b p e n)
  | 2 => .ok (.vmul d a b p e n)
  | 3 => .ok (.vmulh d a b p e n)
  | 4 => .ok (.vand d a b p e n)
  | 5 => .ok (.vor d a b p e n)
  | 6 => .ok (.vxor d a b p e n)
  | 7 => .ok (.vsll d a b p e n)
  | 8 => .ok (.vsrl d a b p e n)
  | 9 => .ok (.vsra d a b p e n)
  | 10 => .ok (.vmin d a b p e n)
  | 11 => .ok (.vmax d a b p e n)
  | 12 => .ok (.vcmp (icondOf (fld w 24 2)) (fPred w 21) a b p e n)
  | 13 => .ok (.vsel d a b p e n)
  | 14 => coded (iredOf (fld w 11 3)) fun r => zeros (fld w 14 2) (.vred d a r p e n)
  | _ => .error .reservedCode

/-- VFP, major 0x23 (R73). -/
def decodeVfp (w : Nat) : Decoded :=
  let d := fReg w 21; let a := fReg w 16; let b := fReg w 11; let p := fPred w 8
  let e := etOf (fld w 5 3)
  match fld w 0 5 with
  | 0 => .ok (.vfadd d a b p e)
  | 1 => .ok (.vfsub d a b p e)
  | 2 => .ok (.vfmul d a b p e)
  | 3 => .ok (.vfma d a b p e)
  | 4 => .ok (.vfnma d a b p e)
  | 5 => .ok (.vfdiv d a b p e)
  | 6 => zeros (fld w 11 5) (.vfsqrt d a p e)
  | 7 => .ok (.vfmin d a b p e)
  | 8 => .ok (.vfmax d a b p e)
  | 9 => .ok (.vfcmp (fcondOf (fld w 24 2)) (fPred w 21) a b p e)
  | 10 => zeros (fld w 11 5) (.vfclass d a p e)
  | 11 => coded (fredOf (fld w 11 2)) fun r => zeros (fld w 13 3) (.vfred d a r p e)
  | 12 => zeros (fld w 13 3) (.vtbl d a (fTwo w 11) p e)
  | _ => .error .reservedCode

/-- VCVT, major 0x24: the spelling `vfcvt` when either type is floating point (R73). `sat` is legal only between
integer types. -/
def decodeVcvt (w : Nat) : Decoded :=
  let d := fReg w 21; let a := fReg w 16; let p := fPred w 8
  let src := etOf (fld w 5 3); let dst := etOf (fld w 0 3); let sat := fBit w 3
  if src.isInt && dst.isInt then zeros (fld w 11 5 + fld w 4 1) (.vcvt d a p src sat dst)
  else if sat then .error .reservedOperands
  else zeros (fld w 11 5 + fld w 4 1) (.vfcvt d a p src dst)

/-- VLNS, major 0x25 (R73, R138). -/
def decodeVlns (w : Nat) : Decoded :=
  let d := fReg w 21; let a := fReg w 16; let b := fReg w 11; let p := fPred w 8
  if fld w 5 3 ≠ 3 then .error .reservedCode else
  match fld w 0 5 with
  | 0 => zeros (fld w 11 5) (.vlnspack d a p)
  | 1 => zeros (fld w 11 5) (.vlnsunpack d a p)
  | 2 => .ok (.vlnsmul d a b p)
  | 3 => .ok (.vlnsadd d a b p)
  | 4 => .ok (.vscale d a b p)
  | _ => .error .reservedCode

/-- VPERM, major 0x26 (R73). -/
def decodeVperm (w : Nat) : Decoded :=
  let d := fReg w 21; let a := fReg w 16; let b := fReg w 11; let p := fPred w 8
  let e := etOf (fld w 5 3); let zb := fld w 11 5
  match fld w 0 5 with
  | 0 => .ok (.vperm d a b p e)
  | 1 => .ok (.vslideup d a b p e)
  | 2 => .ok (.vslidedn d a b p e)
  | 3 => zeros zb (.vcompress d a p e)
  | 4 => zeros zb (.vexpand d a p e)
  | 5 => zeros zb (.vbcast d a p e)
  | 6 => zeros zb (.vmv d a p e)
  | 7 => zeros (zb + fld w 16 5) (.vidx d p e)
  | _ => .error .reservedCode

/-- VPRED, major 0x27 (R73, R338). -/
def decodeVpred (w : Nat) : Decoded :=
  let d := fPred w 21; let a := fPred w 16; let b := fPred w 11; let x := fReg w 21
  let z := fld w 5 6 + fld w 19 2; let zd := fld w 24 2; let zb := fld w 14 2; let nb := fld w 11 5
  match fld w 0 5 with
  | 0 => zeros (z + zd + zb) (.pand d a b)
  | 1 => zeros (z + zd + zb) (.por d a b)
  | 2 => zeros (z + zd + zb) (.pxor d a b)
  | 3 => zeros (z + zd + nb) (.pnot d a)
  | 4 => zeros (z + nb) (.pcnt x a)
  | 5 => zeros (z + nb) (.pfirst x a)
  | _ => .error .reservedCode

/-- VLOAD, major 0x28 (R74). -/
def decodeVload (w : Nat) : Decoded :=
  let d := fReg w 21; let a := fReg w 16; let b := fReg w 11; let p := fPred w 8; let c := fTwo w 3
  let zb := fld w 11 5
  coded (ewOf (fld w 5 3)) fun ew =>
  match fld w 0 3 with
  | 0 => zeros zb (.vld d a p ew c)
  | 1 => .ok (.vlds d a b p ew c)
  | 2 => .ok (.vldx d a b p ew c)
  | 3 => zeros zb (.vldff d a p ew c)
  | 4 => .ok (.vldsp d a b p ew c)
  | 5 => zeros (zb + fld w 20 1 + fld w 3 2) (.qld d (Fin.ofNat 16 (w / 2 ^ 16)) p ew)
  | _ => .error .reservedCode

/-- VSTORE, major 0x29 (R74). -/
def decodeVstore (w : Nat) : Decoded :=
  let d := fReg w 21; let a := fReg w 16; let b := fReg w 11; let p := fPred w 8; let c := fTwo w 3
  coded (ewOf (fld w 5 3)) fun ew =>
  match fld w 0 3 with
  | 0 => zeros (fld w 11 5) (.vst d a p ew c)
  | 1 => .ok (.vsts d a b p ew c)
  | 2 => .ok (.vstx d a b p ew c)
  | 3 => .ok (.vstsp d a b p ew c)
  | _ => .error .reservedCode

/-- VAMO, major 0x2A (R74). -/
def decodeVamo (w : Nat) : Decoded :=
  let d := fReg w 21; let a := fReg w 16; let b := fReg w 11; let p := fPred w 8; let c := fTwo w 3
  let w64 := fBit w 5
  if fld w 6 2 ≠ 1 then .error .reservedCode else
  match fld w 0 3 with
  | 0 => .ok (.vamoAdd d a b p w64 c)
  | 1 => .ok (.vamoMin d a b p w64 c)
  | 2 => .ok (.vamoMax d a b p w64 c)
  | 3 => .ok (.vamoAnd d a b p w64 c)
  | 4 => .ok (.vamoOr d a b p w64 c)
  | 5 => .ok (.vamoXor d a b p w64 c)
  | 6 => .ok (.vamoSwap d a b p w64 c)
  | _ => .error .reservedCode

/-- STRIP, major 0x2B (R75). -/
def decodeStrip (w : Nat) : Decoded :=
  let xd := fld w 21 5; let xa := fld w 16 5; let xb := fld w 11 5
  match fld w 0 11 with
  | 0 => zeros (xd + xb) (.sbegin (fReg w 16))
  | 1 => zeros (xd + xa + xb) .scommit
  | 2 => zeros (xd + xa + xb) .sabort
  | _ => .error .reservedCode

/-- FENCEX, major 0x2D (R75). -/
def decodeFencex (w : Nat) : Decoded :=
  let z := fld w 11 15
  match fld w 0 3 with
  | 0 => zeros (z + fld w 4 7) (if fBit w 3 then .fencesvVs else .fencesvSv)
  | 1 => zeros z (.fenceq (BitVec.ofNat 8 (w / 2 ^ 3)))
  | 2 => zeros (z + fld w 3 8) .spfence
  | _ => .error .reservedCode

/-- MTILE, major 0x36 (R76). -/
def decodeMtile (w : Nat) : Decoded :=
  let t := fTile w 18; let a := fReg w 13; let b := fReg w 8; let c := fTwo w 1; let h := fBit w 0
  let za := fld w 13 5; let zb := fld w 8 5; let zc := fld w 1 2; let zh := fld w 0 1; let zt := fld w 18 8
  match fld w 3 5 with
  | 0 => zeros (za + zb + zc + zh) (.mzero t)
  | 1 => .ok (.mld t a b c h)
  | 2 => .ok (.mst t a b c h)
  | 3 => .ok (.mldsp t a b c h)
  | 4 => .ok (.mstsp t a b c h)
  | 5 => zeros (zc + zh) (.mv2t t a b)
  | 6 => zeros (zc + zh) (.mt2v t a b)
  | 7 => zeros (za + zb + zc + zh) (.mfree t)
  | 8 => zeros (za + zb + zc + zh) (.mpref t)
  | 9 => zeros zh (.mepi t a b c)
  | 10 => zeros zh (.msend t a b c)
  | 11 => zeros (zt + za + zb + zc + zh) .mattach
  | 12 => zeros (zt + za + zb + zc + zh) .mdetach
  | _ => .error .reservedCode

/-- MXFORM, major 0x37 (R76). -/
def decodeMxform (w : Nat) : Decoded :=
  let a := fTile w 12; let b := fTile w 4; let lu := fBit w 1
  match fld w 20 6 with
  | 0 => zeros (fld w 2 2 + fld w 0 1) (.mmov a b lu)
  | 1 => zeros (fld w 0 1) (.mtrans a b (fTwo w 2) lu)
  | _ => .error .reservedCode

/-- COPY, major 0x38 (R77). -/
def decodeCopy (w : Nat) : Decoded :=
  let q := fPred w 23; let a := fReg w 18; let b := fReg w 13; let c := fReg w 8
  match fld w 0 8 with
  | 0 => .ok (.cpy q a b c)
  | 1 => .ok (.cpy2d q a b c)
  | 2 => .ok (.cpyg q a b c)
  | 3 => .ok (.cpyts q a b c)
  | 4 => .ok (.qfill q a b c)
  | 5 => if fld w 25 1 = 1 then .error .reservedCode else zeros (fld w 13 5 + fld w 8 5) (.tblld (fTwo w 23) a)
  | _ => .error .reservedCode

/-- PHASER, major 0x39 (R77, R340). -/
def decodePhaser (w : Nat) : Decoded :=
  let a := fReg w 18; let c := fReg w 8; let z := fld w 23 3 + fld w 13 5
  match fld w 0 8 with
  | 0 => zeros z (.phnew a c)
  | 1 => zeros z (.phdel a c)
  | 2 => coded (phModeOf (fld w 23 3)) fun m => zeros (fld w 13 5) (.phreg m a c)
  | 3 => zeros z (.phdrop a c)
  | 4 => zeros z (.phsig a c)
  | 5 => zeros z (.phwait a c)
  | 6 => zeros z (.phsw a c)
  | _ => .error .reservedCode

/-- TASK, major 0x3A (R77). -/
def decodeTask (w : Nat) : Decoded :=
  let a := fReg w 18; let b := fReg w 13; let c := fReg w 8; let q := fld w 23 3
  match fld w 0 8 with
  | 0 => zeros q (.gmem a b c)
  | 1 => zeros (q + fld w 8 10) (.post a)
  | 2 => zeros (q + fld w 8 15) .texit
  | _ => .error .reservedCode

/-- REMOTE, major 0x3B (R77, R234). -/
def decodeRemote (w : Nat) : Decoded :=
  let s := fTwo w 23; let a := fReg w 18; let b := fReg w 13; let c := fReg w 8
  let z := fld w 25 1; let q := fld w 23 3
  match fld w 0 8 with
  | 0 => zeros z (.rput s a b c)
  | 1 => zeros z (.rget s a b c)
  | 2 => zeros z (.ramo s a b c)
  | 3 => zeros z (.rldred s a b c)
  | 4 => zeros q (.rwait a b c)
  | 5 => zeros (q + fld w 13 5) (.tkstat a c)
  | _ => .error .reservedCode

/-- CLAIMGOV, major 0x3C (R77, R256, R266). -/
def decodeClaimGov (w : Nat) : Decoded :=
  let a := fReg w 18; let b := fReg w 13; let c := fReg w 8; let q := fld w 23 3
  match fld w 0 8 with
  | 0 => zeros q (.claim a b c)
  | 1 => zeros q (.object a b c)
  | 2 => zeros (q + fld w 13 10) (.clwait c)
  | 8 => zeros (q + fld w 8 5) (.dln a b)
  | 9 => zeros (q + fld w 13 10) (.dlnend c)
  | _ => .error .reservedCode

/-- Decoding by major opcode (R65), before the checks of `Instr.wf`. -/
def decodeFields (w : Nat) : Decoded :=
  let d := fReg w 21; let a := fReg w 16; let imm := BitVec.ofNat 16 w
  match fld w 26 6 with
  | 0x01 => decodeAlu w
  | 0x02 => if d = 0 ∧ a = 0 ∧ imm = 0 then .ok .nop else .ok (.addi d a imm)
  | 0x03 => .ok (.andi d a imm)
  | 0x04 => .ok (.ori d a imm)
  | 0x05 => .ok (.xori d a imm)
  | 0x06 => .ok (.slti d a imm)
  | 0x07 => decodeShift w
  | 0x08 => decodeExtIns w
  | 0x09 => .ok (.lui d (BitVec.ofNat 21 w))
  | 0x0A => .ok (.auipc d (BitVec.ofNat 21 w))
  | 0x0B => decodeBranch w
  | 0x0C => .ok (.jal d (BitVec.ofNat 21 w))
  | 0x0D => .ok (.jalr d a imm)
  | 0x0E => zeros (fld w 21 5) (.loop a (Fin.ofNat 65536 w))
  | 0x0F => .ok (.loopi (Fin.ofNat 1024 (w / 2 ^ 16)) (Fin.ofNat 65536 w))
  | 0x10 => .ok (.ld .n8 d a imm)
  | 0x11 => .ok (.ld .n16 d a imm)
  | 0x12 => .ok (.ld .n32 d a imm)
  | 0x13 => .ok (.ld .n64 d a imm)
  | 0x14 => .ok (.ld .s8 d a imm)
  | 0x15 => .ok (.ld .s16 d a imm)
  | 0x16 => .ok (.ld .s32 d a imm)
  | 0x18 => .ok (.st 0 d a imm)
  | 0x19 => .ok (.st 1 d a imm)
  | 0x1A => .ok (.st 2 d a imm)
  | 0x1B => .ok (.st 3 d a imm)
  | 0x1C => decodeSatom w
  | 0x1D => decodeCsr w
  | 0x1E => decodeSys w
  | 0x1F => .ok (.pfx (BitVec.ofNat 26 w))
  | 0x20 => if fld w 2 1 = 1 then .error .reservedCode
            else zeros (fld w 3 8 + fld w 11 5) (.vsetvl d a (fTwo w 0))
  | 0x21 => if fld w 15 1 = 1 then .error .reservedCode
            else zeros (fld w 16 5) (.vsetvli d (fTwo w 13) (BitVec.ofNat 13 w))
  | 0x22 => decodeVint w
  | 0x23 => decodeVfp w
  | 0x24 => decodeVcvt w
  | 0x25 => decodeVlns w
  | 0x26 => decodeVperm w
  | 0x27 => decodeVpred w
  | 0x28 => decodeVload w
  | 0x29 => decodeVstore w
  | 0x2A => decodeVamo w
  | 0x2B => decodeStrip w
  | 0x2C => zeros (fld w 21 5) (.fence (fBit w 20) (Fin.ofNat 16 (w / 2 ^ 16)) (BitVec.ofNat 16 w))
  | 0x2D => decodeFencex w
  | 0x30 => coded (fmtOf (fld w 2 2)) fun f => .ok (.mma f (fSix w 20) (fTile w 12) (fTile w 4) (BitVec.ofNat 2 w))
  | 0x31 => coded (fmtOf (4 + fld w 2 2)) fun f => .ok (.mma f (fSix w 20) (fTile w 12) (fTile w 4) (BitVec.ofNat 2 w))
  | 0x32 => coded (fmtOf (fld w 0 2)) fun f => .ok (.mmasp f (fSix w 20) (fTile w 12) (fReg w 7) (fReg w 2))
  | 0x33 => coded (fmtOf (4 + fld w 0 2)) fun f => .ok (.mmasp f (fSix w 20) (fTile w 12) (fReg w 7) (fReg w 2))
  | 0x34 => coded (fmtOf (fld w 0 2)) fun f => .ok (.mmats f (fSix w 20) (fTile w 12) (fReg w 7) (fReg w 2))
  | 0x35 => coded (fmtOf (4 + fld w 0 2)) fun f => .ok (.mmats f (fSix w 20) (fTile w 12) (fReg w 7) (fReg w 2))
  | 0x36 => decodeMtile w
  | 0x37 => decodeMxform w
  | 0x38 => decodeCopy w
  | 0x39 => decodePhaser w
  | 0x3A => decodeTask w
  | 0x3B => decodeRemote w
  | 0x3C => decodeClaimGov w
  | 0x3E => .ok (.hint (BitVec.ofNat 26 w))
  | _ => .error .reservedMajor

/-- Decoding one instruction word: an instruction, or the refusal's name (R65 to R78). -/
def decodeWord (w : IWord) : Decoded :=
  match decodeFields w.toNat with
  | .ok i => if i.wf then .ok i else .error .reservedOperands
  | .error e => .error e

/-- The little-endian word of four bytes (R2, R52). -/
def wordOfBytes (b0 b1 b2 b3 : Byte) : IWord := b3 ++ b2 ++ b1 ++ b0

/-- Decoding a list of bytes: the first four are the word; the rest is handed back. -/
def decode : List Byte → Except DecodeError (Instr × List Byte)
  | b0 :: b1 :: b2 :: b3 :: rest =>
    match decodeWord (wordOfBytes b0 b1 b2 b3) with
    | .ok i => .ok (i, rest)
    | .error e => .error e
  | _ => .error .short

/-- The instruction this decoder reads from the opcode table's numbering of a row's bits. Every word of this hardware is 32
bits (R52), so `nbits` may only be shorter; the bits above are zero. -/
def decodeTableWord (nbits w : Nat) : Option Instr :=
  match decodeWord (BitVec.ofNat 32 (w % 2 ^ nbits)) with
  | .ok i => some i
  | .error _ => none

/-! ### The encoder -/

/-- The code of a boolean field. -/
def bitCode (b : Bool) : Nat := if b then 1 else 0

/-- R format (R53). -/
def encR (major d a b fn : Nat) : Nat := major * 2 ^ 26 + d * 2 ^ 21 + a * 2 ^ 16 + b * 2 ^ 11 + fn

/-- I format (R53). -/
def encI (major d a imm : Nat) : Nat := major * 2 ^ 26 + d * 2 ^ 21 + a * 2 ^ 16 + imm

/-- U and J formats (R53). -/
def encU (major d imm : Nat) : Nat := major * 2 ^ 26 + d * 2 ^ 21 + imm

/-- B format (R53). -/
def encB (a b cond off : Nat) : Nat := 0x0B * 2 ^ 26 + a * 2 ^ 21 + b * 2 ^ 16 + cond * 2 ^ 13 + off

/-- V format (R53). -/
def encV (major d a b pm et fn : Nat) : Nat :=
  major * 2 ^ 26 + d * 2 ^ 21 + a * 2 ^ 16 + b * 2 ^ 11 + pm * 2 ^ 8 + et * 2 ^ 5 + fn

/-- VM format (R53). -/
def encVM (major d a b pm w cls mode : Nat) : Nat :=
  major * 2 ^ 26 + d * 2 ^ 21 + a * 2 ^ 16 + b * 2 ^ 11 + pm * 2 ^ 8 + w * 2 ^ 5 + cls * 2 ^ 3 + mode

/-- M format (R53). -/
def encM (major d a b fmt lu : Nat) : Nat :=
  major * 2 ^ 26 + d * 2 ^ 20 + a * 2 ^ 12 + b * 2 ^ 4 + fmt * 2 ^ 2 + lu

/-- MS format (R53). -/
def encMS (major d a b c fmt : Nat) : Nat :=
  major * 2 ^ 26 + d * 2 ^ 20 + a * 2 ^ 12 + b * 2 ^ 7 + c * 2 ^ 2 + fmt

/-- MM format (R53). -/
def encMM (t a b op cls h : Nat) : Nat :=
  0x36 * 2 ^ 26 + t * 2 ^ 18 + a * 2 ^ 13 + b * 2 ^ 8 + op * 2 ^ 3 + cls * 2 + h

/-- Q format (R53). -/
def encQ (major q a b c op : Nat) : Nat :=
  major * 2 ^ 26 + q * 2 ^ 23 + a * 2 ^ 18 + b * 2 ^ 13 + c * 2 ^ 8 + op

/-- SATOM's fn field (R71). -/
def satomFn (c : Slot) (op w : Nat) : Nat := c.val * 2 ^ 7 + op * 2 ^ 2 + w

/-- The width code of `amo`, `cas` and `vamo`: 2 or 3 (R71, R74). -/
def wideCode (w64 : Bool) : Nat := 2 + bitCode w64

/-- A VINT word (R73). -/
def encVint (fn d a b : Nat) (p : PReg) (e : ET) (n : Bool) : Nat :=
  encV 0x22 d a b p.val e.code (bitCode n * 2 ^ 4 + fn)

/-- The encoding of an instruction as a number (R53, R65 to R77); a step of the device has no word. -/
def encodeNat : Instr → Option Nat
  | .add d a b => some (encR 0x01 d a b 0)
  | .sub d a b => some (encR 0x01 d a b 1)
  | .and d a b => some (encR 0x01 d a b 2)
  | .or d a b => some (encR 0x01 d a b 3)
  | .xor d a b => some (encR 0x01 d a b 4)
  | .sll d a b => some (encR 0x01 d a b 5)
  | .srl d a b => some (encR 0x01 d a b 6)
  | .sra d a b => some (encR 0x01 d a b 7)
  | .slt d a b n => some (encR 0x01 d a b (bitCode n * 2 ^ 5 + 8))
  | .min d a b n => some (encR 0x01 d a b (bitCode n * 2 ^ 5 + 9))
  | .max d a b n => some (encR 0x01 d a b (bitCode n * 2 ^ 5 + 10))
  | .mul d a b => some (encR 0x01 d a b 11)
  | .mulh d a b n => some (encR 0x01 d a b (bitCode n * 2 ^ 5 + 12))
  | .div d a b n => some (encR 0x01 d a b (bitCode n * 2 ^ 5 + 13))
  | .rem d a b n => some (encR 0x01 d a b (bitCode n * 2 ^ 5 + 14))
  | .clz d a => some (encR 0x01 d a 0 15)
  | .popc d a => some (encR 0x01 d a 0 16)
  | .sel d a b c => some (encR 0x01 d a b (c * 2 ^ 6 + 17))
  | .addi d a imm => some (encI 0x02 d a imm.toNat)
  | .nop => some 0x08000000
  | .andi d a imm => some (encI 0x03 d a imm.toNat)
  | .ori d a imm => some (encI 0x04 d a imm.toNat)
  | .xori d a imm => some (encI 0x05 d a imm.toNat)
  | .slti d a imm => some (encI 0x06 d a imm.toNat)
  | .slli d a s => some (encI 0x07 d a s)
  | .srli d a s => some (encI 0x07 d a (1 * 2 ^ 6 + s))
  | .srai d a s => some (encI 0x07 d a (2 * 2 ^ 6 + s))
  | .ext d a s l p => some (encI 0x08 d a (bitCode s * 2 ^ 12 + l * 2 ^ 6 + p))
  | .ins d a l p => some (encI 0x08 d a (2 ^ 13 + l * 2 ^ 6 + p))
  | .lui d imm => some (encU 0x09 d imm.toNat)
  | .auipc d imm => some (encU 0x0A d imm.toNat)
  | .beq a b o => some (encB a b 0 o.toNat)
  | .bne a b o => some (encB a b 1 o.toNat)
  | .blt a b o => some (encB a b 2 o.toNat)
  | .bge a b o => some (encB a b 3 o.toNat)
  | .bltN a b o => some (encB a b 4 o.toNat)
  | .bgeN a b o => some (encB a b 5 o.toNat)
  | .jal d o => some (encU 0x0C d o.toNat)
  | .jalr d a imm => some (encI 0x0D d a imm.toNat)
  | .loop a len => some (encI 0x0E 0 a len)
  | .loopi c len => some (0x0F * 2 ^ 26 + c * 2 ^ 16 + len)
  | .ld w d a imm => some (encI (0x10 + w.code) d a imm.toNat)
  | .st w d a imm => some (encI (0x18 + w) d a imm.toNat)
  | .lda d a c w => some (encR 0x1C d a 0 (satomFn c 0 w))
  | .stl a b c w => some (encR 0x1C 0 a b (satomFn c 1 w))
  | .cas d a b c w => some (encR 0x1C d a b (satomFn c 2 (wideCode w)))
  | .amoAdd d a b c w => some (encR 0x1C d a b (satomFn c 8 (wideCode w)))
  | .amoAnd d a b c w => some (encR 0x1C d a b (satomFn c 9 (wideCode w)))
  | .amoOr d a b c w => some (encR 0x1C d a b (satomFn c 10 (wideCode w)))
  | .amoXor d a b c w => some (encR 0x1C d a b (satomFn c 11 (wideCode w)))
  | .amoMin d a b c w => some (encR 0x1C d a b (satomFn c 12 (wideCode w)))
  | .amoMax d a b c w => some (encR 0x1C d a b (satomFn c 13 (wideCode w)))
  | .amoMinN d a b c w => some (encR 0x1C d a b (satomFn c 14 (wideCode w)))
  | .amoMaxN d a b c w => some (encR 0x1C d a b (satomFn c 15 (wideCode w)))
  | .amoSwap d a b c w => some (encR 0x1C d a b (satomFn c 16 (wideCode w)))
  | .csrr d r => some (encI 0x1D d 0 r.toNat)
  | .csrw d a r => some (encI 0x1D d a (1 * 2 ^ 12 + r.toNat))
  | .csrs d a r => some (encI 0x1D d a (2 * 2 ^ 12 + r.toNat))
  | .csrc d a r => some (encI 0x1D d a (3 * 2 ^ 12 + r.toNat))
  | .ecall => some 0x78000000
  | .eret => some 0x78000001
  | .brk => some 0x78000002
  | .mapsw a => some (encR 0x1E 0 a 0 3)
  | .ckpt => some 0x78000004
  | .pfx f => some (0x1F * 2 ^ 26 + f.toNat)
  | .vsetvl d a w => some (encR 0x20 d a 0 w)
  | .vsetvli d w l => some (encI 0x21 d 0 (w * 2 ^ 13 + l.toNat))
  | .vadd d a b p e n => some (encVint 0 d a b p e n)
  | .vsub d a b p e n => some (encVint 1 d a b p e n)
  | .vmul d a b p e n => some (encVint 2 d a b p e n)
  | .vmulh d a b p e n => some (encVint 3 d a b p e n)
  | .vand d a b p e n => some (encVint 4 d a b p e n)
  | .vor d a b p e n => some (encVint 5 d a b p e n)
  | .vxor d a b p e n => some (encVint 6 d a b p e n)
  | .vsll d a b p e n => some (encVint 7 d a b p e n)
  | .vsrl d a b p e n => some (encVint 8 d a b p e n)
  | .vsra d a b p e n => some (encVint 9 d a b p e n)
  | .vmin d a b p e n => some (encVint 10 d a b p e n)
  | .vmax d a b p e n => some (encVint 11 d a b p e n)
  | .vcmp c pd a b p e n => some (encVint 12 (c.code * 2 ^ 3 + pd) a b p e n)
  | .vsel d a b p e n => some (encVint 13 d a b p e n)
  | .vred d a r p e n => some (encVint 14 d a r.code p e n)
  | .vfadd d a b p e => some (encV 0x23 d a b p e.code 0)
  | .vfsub d a b p e => some (encV 0x23 d a b p e.code 1)
  | .vfmul d a b p e => some (encV 0x23 d a b p e.code 2)
  | .vfma d a b p e => some (encV 0x23 d a b p e.code 3)
  | .vfnma d a b p e => some (encV 0x23 d a b p e.code 4)
  | .vfdiv d a b p e => some (encV 0x23 d a b p e.code 5)
  | .vfsqrt d a p e => some (encV 0x23 d a 0 p e.code 6)
  | .vfmin d a b p e => some (encV 0x23 d a b p e.code 7)
  | .vfmax d a b p e => some (encV 0x23 d a b p e.code 8)
  | .vfcmp c pd a b p e => some (encV 0x23 (c.code * 2 ^ 3 + pd) a b p e.code 9)
  | .vfclass d a p e => some (encV 0x23 d a 0 p e.code 10)
  | .vfred d a r p e => some (encV 0x23 d a r.code p e.code 11)
  | .vtbl d a t p e => some (encV 0x23 d a t p e.code 12)
  | .vcvt d a p src sat dst => some (encV 0x24 d a 0 p src.code (bitCode sat * 2 ^ 3 + dst.code))
  | .vfcvt d a p src dst => some (encV 0x24 d a 0 p src.code dst.code)
  | .vlnspack d a p => some (encV 0x25 d a 0 p 3 0)
  | .vlnsunpack d a p => some (encV 0x25 d a 0 p 3 1)
  | .vlnsmul d a b p => some (encV 0x25 d a b p 3 2)
  | .vlnsadd d a b p => some (encV 0x25 d a b p 3 3)
  | .vscale d a b p => some (encV 0x25 d a b p 3 4)
  | .vperm d a b p e => some (encV 0x26 d a b p e.code 0)
  | .vslideup d a b p e => some (encV 0x26 d a b p e.code 1)
  | .vslidedn d a b p e => some (encV 0x26 d a b p e.code 2)
  | .vcompress d a p e => some (encV 0x26 d a 0 p e.code 3)
  | .vexpand d a p e => some (encV 0x26 d a 0 p e.code 4)
  | .vbcast d a p e => some (encV 0x26 d a 0 p e.code 5)
  | .vmv d a p e => some (encV 0x26 d a 0 p e.code 6)
  | .vidx d p e => some (encV 0x26 d 0 0 p e.code 7)
  | .pand d a b => some (encV 0x27 d a b 0 0 0)
  | .por d a b => some (encV 0x27 d a b 0 0 1)
  | .pxor d a b => some (encV 0x27 d a b 0 0 2)
  | .pnot d a => some (encV 0x27 d a 0 0 0 3)
  | .pcnt d a => some (encV 0x27 d a 0 0 0 4)
  | .pfirst d a => some (encV 0x27 d a 0 0 0 5)
  | .vld d a p w c => some (encVM 0x28 d a 0 p w.code c 0)
  | .vlds d a b p w c => some (encVM 0x28 d a b p w.code c 1)
  | .vldx d a b p w c => some (encVM 0x28 d a b p w.code c 2)
  | .vldff d a p w c => some (encVM 0x28 d a 0 p w.code c 3)
  | .vldsp d a b p w c => some (encVM 0x28 d a b p w.code c 4)
  | .qld d q p w => some (encVM 0x28 d q 0 p w.code 0 5)
  | .vst d a p w c => some (encVM 0x29 d a 0 p w.code c 0)
  | .vsts d a b p w c => some (encVM 0x29 d a b p w.code c 1)
  | .vstx d a b p w c => some (encVM 0x29 d a b p w.code c 2)
  | .vstsp d a b p w c => some (encVM 0x29 d a b p w.code c 3)
  | .vamoAdd d a b p w c => some (encVM 0x2A d a b p (wideCode w) c 0)
  | .vamoMin d a b p w c => some (encVM 0x2A d a b p (wideCode w) c 1)
  | .vamoMax d a b p w c => some (encVM 0x2A d a b p (wideCode w) c 2)
  | .vamoAnd d a b p w c => some (encVM 0x2A d a b p (wideCode w) c 3)
  | .vamoOr d a b p w c => some (encVM 0x2A d a b p (wideCode w) c 4)
  | .vamoXor d a b p w c => some (encVM 0x2A d a b p (wideCode w) c 5)
  | .vamoSwap d a b p w c => some (encVM 0x2A d a b p (wideCode w) c 6)
  | .sbegin a => some (encR 0x2B 0 a 0 0)
  | .scommit => some 0xAC000001
  | .sabort => some 0xAC000002
  | .fence ack scope m => some (0x2C * 2 ^ 26 + bitCode ack * 2 ^ 20 + scope * 2 ^ 16 + m.toNat)
  | .fencesvSv => some 0xB4000000
  | .fencesvVs => some 0xB4000008
  | .fenceq m => some (0x2D * 2 ^ 26 + m.toNat * 2 ^ 3 + 1)
  | .spfence => some 0xB4000002
  | .mma f td ta tb lu => some (encM (0x30 + f.code / 4) td ta tb (f.code % 4) lu.toNat)
  | .mmasp f td ta b c => some (encMS (0x32 + f.code / 4) td ta b c (f.code % 4))
  | .mmats f td ta b c => some (encMS (0x34 + f.code / 4) td ta b c (f.code % 4))
  | .mzero t => some (encMM t 0 0 0 0 0)
  | .mld t a b c h => some (encMM t a b 1 c (bitCode h))
  | .mst t a b c h => some (encMM t a b 2 c (bitCode h))
  | .mldsp t a b c h => some (encMM t a b 3 c (bitCode h))
  | .mstsp t a b c h => some (encMM t a b 4 c (bitCode h))
  | .mv2t t a b => some (encMM t a b 5 0 0)
  | .mt2v t a b => some (encMM t a b 6 0 0)
  | .mfree t => some (encMM t 0 0 7 0 0)
  | .mpref t => some (encMM t 0 0 8 0 0)
  | .mepi t a b c => some (encMM t a b 9 c 0)
  | .msend t a b c => some (encMM t a b 10 c 0)
  | .mattach => some (encMM 0 0 0 11 0 0)
  | .mdetach => some (encMM 0 0 0 12 0 0)
  | .mmov ta tb lu => some (encM 0x37 0 ta tb 0 (bitCode lu * 2))
  | .mtrans ta tb f lu => some (encM 0x37 1 ta tb f (bitCode lu * 2))
  | .cpy q a b c => some (encQ 0x38 q a b c 0)
  | .cpy2d q a b c => some (encQ 0x38 q a b c 1)
  | .cpyg q a b c => some (encQ 0x38 q a b c 2)
  | .cpyts q a b c => some (encQ 0x38 q a b c 3)
  | .qfill q a b c => some (encQ 0x38 q a b c 4)
  | .tblld q a => some (encQ 0x38 q a 0 0 5)
  | .phnew a c => some (encQ 0x39 0 a 0 c 0)
  | .phdel a c => some (encQ 0x39 0 a 0 c 1)
  | .phreg m a c => some (encQ 0x39 m.code a 0 c 2)
  | .phdrop a c => some (encQ 0x39 0 a 0 c 3)
  | .phsig a c => some (encQ 0x39 0 a 0 c 4)
  | .phwait a c => some (encQ 0x39 0 a 0 c 5)
  | .phsw a c => some (encQ 0x39 0 a 0 c 6)
  | .gmem a b c => some (encQ 0x3A 0 a b c 0)
  | .post a => some (encQ 0x3A 0 a 0 0 1)
  | .texit => some 0xE8000002
  | .rput s a b c => some (encQ 0x3B s a b c 0)
  | .rget s a b c => some (encQ 0x3B s a b c 1)
  | .ramo s a b c => some (encQ 0x3B s a b c 2)
  | .rldred s a b c => some (encQ 0x3B s a b c 3)
  | .rwait a b c => some (encQ 0x3B 0 a b c 4)
  | .tkstat a c => some (encQ 0x3B 0 a 0 c 5)
  | .claim a b c => some (encQ 0x3C 0 a b c 0)
  | .object a b c => some (encQ 0x3C 0 a b c 1)
  | .clwait c => some (encQ 0x3C 0 0 0 c 2)
  | .dln a b => some (encQ 0x3C 0 a b 0 8)
  | .dlnend c => some (encQ 0x3C 0 0 0 c 9)
  | .hint h => some (0x3E * 2 ^ 26 + h.toNat)
  | .kVersion | .kYield | .kRequestUnknown
  | .illegal _ | .dlnRisk | .copyEntryPerforms _ | .tileFillDone _ | .tileSpillStart _ | .tileSpillDone _
  | .slotReclaim _ | .transferReplay | .checkpointStream | .preemptionRequest | .preemptionComplete | .bind _
  | .launch _ _ _ | .mboxw _ _ _ _ | .map _ _ | .unmap _ _ | .remap _ _ _ | .mapCommandCompletes
  | .pageans _ _ _ _ _ | .carve _ _ _ _ | .uncarve _ _ | .pool _ _ _ _ _ | .quiesceStop _ | .quiesceTokenSettle _
  | .quiesceSeal _ _ _ _ _ | .quiesceResume _ | .quiesceDiscard _ | .restore _ _ _ _ _ | .sync _ | .replay _ _
  | .commandUnknown _ _ | .powerUp _ _ _ | .portFail _ | .laneShed _ _ | .flintBoundHeld | .peerAbsent _
  | .putReceived _ | .putRefused _ | .tokenAccepted _ | .tokenLanded _ | .landedNotice _ | .tokenExpires _
  | .expiryNotice _ | .remoteRequestServed _ | .rgetComplete _ _ | .ramoComplete _ | .rldredComplete _
  | .msendReceived _ | .ualinkRequest _ _ _ | .proposalReceived _ | .memberWindowCloses _ _
  | .objectionReceived _ _ _ | .commitNoticeReceived _ | .endNoticeReceived _ | .claimWaitEnds
  | .claimStorePerformed _ _ | .governorDecision _ | .operatingPointSettles | .throttleAdjust _ | .supplyDroop _
  | .retentionExit _ _ | .migrate _ _ | .promotion _ _ _ _ | .accessPerforms _ _ | .queuedInstructionRetires _ _
  | .putFailed _ _ | .msendCompletes _ _ _ | .attestationRequest _ _ => none

/-- The word of an instruction (R53, R65 to R77), `none` for a step of the device. -/
def encode (i : Instr) : Option IWord := (encodeNat i).map (BitVec.ofNat 32)

/-- The word that a raise of `ILLEGAL` on an instruction puts in `TVAL` (R78). -/
def Instr.word (i : Instr) : IWord :=
  match i with
  | .illegal w => w
  | _ => (encode i).getD 0

end Sys2Proof
end

