-- ==== Sys2Proof/Machine/State.lean ====
section
/-! DEFINITION. The machine's state: one package with its harts, clusters, memory, fabric and host interfaces, as plain
data. One hart and its cluster stand in front (`State.hart`, `State.cluster`): an instruction acts on them. -/

namespace Sys2Proof.Machine

/-! ### Outcomes -/

/-- Why a step can stop with a fault. -/
inductive Fault where
  /-- Raised by `step` for a turn that names a hart the package does not have (R11, R12). Safe: the machine stops where
  the hardware has no such hart. -/
  | noSuchHart
  deriving DecidableEq, Repr

/-- Why a step can be refused. -/
inductive Refusal where
  /-- Raised by `exec` for an instruction without a meaning in this model. Safe: nothing is claimed of such a step. -/
  | notModelled (mnemonic : String)
  deriving DecidableEq, Repr

/-! ### Bytes -/

/-- Bytes by address, in canonical form: addresses strictly rising, no zero byte listed. An unlisted byte reads 0x00
(log entry 1). Memory, the scratchpad, registers, tiles, tables and carve-outs are held so. -/
abbrev Bytes := List Host.Cell

/-! ### One hart -/

/-- The two levels a hart runs at; level M is obsidian (R206). -/
inductive Level where
  | t | k
  deriving DecidableEq, Repr

/-- The map state of one tile, with its value where a slot holds it (R109). -/
inductive Tile where
  | absent
  | clean (b : Bytes)
  | dirty (b : Bytes)
  | undefined
  deriving DecidableEq, Repr

/-- A map context a hart holds, tagged by `MAPBASE` (R111). -/
structure TileCtx where
  base : Word
  tiles : Vector Tile 256
  deriving DecidableEq, Repr

/-- An entry of a loop stack: start, last word, trips left (R316). -/
structure Loop where
  s : Word
  e : Word
  count : Word
  deriving DecidableEq, Repr

/-- A store held back by the open strip (R219); `bypass` marks one of a handler that went past the strip instead (R221), which
later loads of the hart read from memory. -/
structure StripStore where
  va : Word
  bytes : List Byte
  cls : Fin 16
  bypass : Bool
  deriving DecidableEq, Repr

/-- A vertical transfer of the map: a fill or a spill of a tile of the context `base` (R225). -/
structure Transfer where
  base : Word
  tile : TReg
  spill : Bool
  cancelled : Bool
  deriving DecidableEq, Repr

/-- One side of a copied run of bytes. A scratchpad run is read through R152 with row index `rho` at its first row, from
access byte `at` on; a tensor-store run starts at byte `at` of the carve-out `handle`. -/
inductive Side where
  | mem (va : Word)
  | sp (o0 rot rho off : Nat)
  | ts (handle : Word) (off : Nat)
  deriving DecidableEq, Repr

/-- A run of bytes a copy moves. -/
structure Move where
  src : Side
  dst : Side
  len : Nat
  deriving DecidableEq, Repr

/-- What a copy writes of one 16-byte granule of its destination: the granule's first byte, and its bytes by their place in the
granule, ascending (R156). -/
structure Granule where
  base : Side
  bytes : List (Nat × Byte)
  deriving DecidableEq, Repr

/-- What an engine-queue entry does: a copy, the rest of a copy whose source was read, or the fill of a delivery-queue slot
(R155, R156, R194). -/
inductive CopyWork where
  | copy (moves : List Move)
  | writing (rest : List Granule)
  | fill (src : Side) (queue : Fin 16) (slot : Nat)
  deriving DecidableEq, Repr

/-- What a copy's word gave it: its operation of R77, its two addresses (x[xa], x[xb]), its length in bytes, and its record, or
the control word in its place (R222, R301). -/
structure CopyCmd where
  op : Nat
  a : Word
  b : Word
  len : Nat
  record : List Byte
  deriving DecidableEq, Repr

/-- An entry of an engine queue, by the model's own number in the order of acceptance, with the 16-byte granules it has written
(R154, R156, R222). -/
structure CopyEntry where
  id : Nat
  queue : Fin 8
  cls : Fin 16
  cmd : CopyCmd
  work : CopyWork
  granules : Nat
  deriving DecidableEq, Repr

/-- What the scalar stream has issued and not performed: a store (R86, R181, R183), or a fence that holds later accesses of its
classes until earlier ones have performed, and may then drop the cache-remote lines (R169, R184, R308). Each has its pc, and how
many of the queued instructions are older than it. -/
inductive Late where
  | store (va : Word) (bytes : List Byte) (cls : Fin 16) (pc : Word) (young : Nat)
  | fence (cmask : BitVec 16) (drops : Bool) (pc : Word) (young : Nat)
  deriving DecidableEq, Repr

/-- An instruction in the vector queue, with its pc and loop stack, its scalar operands and the registers it takes at issue (R86,
R213). `done` are the elements of a vector access that have performed already, `taken` the bytes it has read at issue (the
descriptor and biases of a `mepi`, R324) or before any element was written (the indices of a `vldx`, R366), and `sure` says that
nothing an older queued instruction writes can make it fault. -/
structure Queued where
  i : Instr
  pc : Word
  loops : List Loop
  x : Vector Word 32
  vl : Word
  classmap : Word
  seed : Word
  stripbase : Word
  rmode : Word
  lent : Option (BitVec 26)
  done : List Nat
  taken : List Byte
  sure : Bool
  deriving DecidableEq, Repr

/-- The state of a token slot (R236, R239). -/
inductive TokSt where
  | free | pending | accepted | expired
  deriving DecidableEq, Repr

/-- A slot of the token table (R236): generation, state, issue order, the mark that its `TOKEXP` is undelivered (R277), and the
model's own name of the put that holds it. -/
structure TokSlot where
  gen : Nat
  st : TokSt
  order : Nat
  undelivered : Bool
  put : Nat
  deriving DecidableEq, Repr

/-- A remote operation whose answer the hart waits for (R241, R242). `ldred` holds the destination, the count, the type
and operation codes, the class and the members' packages. -/
inductive Await where
  | ramo (c : XReg) (dc : Option XReg) (w64 : Bool) (launch win ticket peer : Nat)
  | ldred (c : XReg) (dst : Word) (n et op : Nat) (cls : Fin 16) (peers : List Nat)
  deriving DecidableEq, Repr

/-- A range of 64 KiB pages the task's lease grants; `num` is its number, `none` for the backing area of R108. -/
structure Grant where
  num : Option Nat
  first : Nat
  pages : Nat
  write : Bool
  deriving DecidableEq, Repr

/-- The addresses of an exec or `.rodata` section of the image (R38, R291). -/
structure SecRange where
  addr : Nat
  len : Nat
  exec : Bool
  deriving DecidableEq, Repr

/-- What the bind record and the launch give the bound task (R200, R89). `serial` is the model's own name of the task. -/
structure Task where
  serial : Nat
  ctxId : BitVec 32
  leaseId : BitVec 32
  launch : Nat
  tenant : Nat
  job : BitVec 16
  asid : Nat
  index : Nat
  args : Word
  classmap : BitVec 16
  priority : Nat
  preempt : Nat
  groups : Word
  grants : List Grant
  sections : List SecRange
  mapbase : Word
  eqMin : Nat
  eqCap : Nat
  ckpt : Word
  boundAt : Word
  deriving DecidableEq, Repr

/-- An open step (R266). -/
structure Step where
  deadline : BitVec 32
  estimate : BitVec 32
  deriving DecidableEq, Repr

/-- A hart: its place, its binding, and its whole context. `checked` says that the `claim` at its pc has passed its checks and
waits (R257); `loaded` are the first bytes of the load at its pc, which spans two granules (R156, R178); `unitsDone` are the units
of the instruction at its pc that performed before one that waits at a busy page (R171); `began` is the number below which a copy
was accepted before the scratchpad load that stopped at `VSTART` began (R157); `phWoke` is the counter at which a phaser deleted
since then had woken the hart's wait (R99, R100); `retired` are the work units the hart retired since the latest decision of its
governor (R270). -/
structure Hart where
  name : HartName
  part : Fin 4
  bound : Bool
  stopping : Bool
  task : Task
  level : Level
  pc : Word
  x : Vector Word 32
  p : Vector Bytes 8
  v : Vector Bytes 32
  vl : Word
  vstart : Word
  classmap : Word
  seed : Word
  stripbase : Word
  rmode : Word
  status : Word
  pfxstate : Word
  cause : Word
  epc : Word
  tval : Word
  tvec : Word
  stripfault : Word
  tkexp : Word
  clwin : Word
  clstat : Word
  lent : Option (BitVec 26)
  loopT : List Loop
  loopK : List Loop
  strip : List StripStore
  mapbase : Word
  ctxs : List TileCtx
  ur : Bool
  transfers : List Transfer
  attached : Bool
  copies : List CopyEntry
  vqueue : List Queued
  late : List Late
  tokens : Vector TokSlot 64
  tokPtr : Fin 64
  tokOrder : Nat
  await : Option Await
  checked : Bool
  loaded : List Byte
  unitsDone : List Nat
  began : Option Nat
  phWoke : Option (BitVec 32)
  expiries : List (BitVec 16)
  step : Option Step
  retired : Nat
  dlnPre : Bool
  dlnRisk : Bool
  dlnMiss : Bool
  dlnDone : Nat
  dlnSlack : BitVec 32
  deriving DecidableEq, Repr

/-! ### One cluster -/

/-- A slot of a delivery queue: the model's own number, the task that reserved it, and its bytes once they are in. -/
structure DSlot where
  id : Nat
  owner : Nat
  bytes : Option (List Byte)
  deriving DecidableEq, Repr

/-- The governor of a cluster (R270, R272 to R274): the point in force, the point chosen and not yet settled, the heat
tokens held, the throttle level, whether the droop switch is on and the clock stretched, whether the switch was on in each of
the latest 1,024 cycles, newest first, and the ticks of the latest decision of any kind and of the latest periodic one. -/
structure Governor where
  point : Fin 16
  target : Option (Fin 16)
  heat : Nat
  throttle : Fin 4
  switch : Bool
  stretched : Bool
  history : List Bool
  since : Word
  last : Word
  deriving DecidableEq, Repr

/-- An entry of the operand cache: a 16-byte granule of an operand handle, 0 for the scratchpad, as it was fetched, with the
generation it was fetched in (R163). -/
structure OpLine where
  handle : Word
  granule : Nat
  generation : Nat
  bytes : List Byte
  deriving DecidableEq, Repr

/-- A `qld` that waits at a delivery queue: its hart, and the entries it pops (R88, R344). -/
structure Popper where
  name : HartName
  need : Nat
  deriving DecidableEq, Repr

/-- A producer that stalls at a pool: its hart, and the queue it stalls for (R204). -/
structure Staller where
  name : HartName
  queue : Nat
  deriving DecidableEq, Repr

/-- A cluster: its scratchpad, tables (none where no `tblld` installed one, R376), delivery queues with the pops that wait at them
and their limits, the queue of each pool served last and the stalled producers (four core pools, the access-hart pool, the
delivery pool), the operand cache and its generation, the reference counter, the tenant it is given to, the lane partition of each
core, and its governor. -/
structure Cluster where
  num : Nat
  sp : Bytes
  tables : Vector (Option Bytes) 4
  queues : Vector (List DSlot) 16
  poppers : Vector (List Popper) 16
  qmin : Vector Nat 16
  qcap : Vector Nat 16
  poolErr : Bool
  served : Vector Nat 6
  stallers : Vector (List Staller) 6
  operands : List OpLine
  generation : Nat
  refTick : Word
  tenant : Option Nat
  parts : Vector (Fin 4) 4
  gov : Governor
  deriving DecidableEq, Repr

/-! ### The package -/

/-- A leaf of an address space (R167, R168, R377): `asid` 0 is the shared half, whose `tenants` the leaf admits; a private leaf
names the tenant that mapped it. `accesses` is the counter of R171. -/
structure Leaf where
  asid : Nat
  level : Nat
  va : Nat
  pte : Word
  tenants : List Nat
  accesses : Nat
  deriving DecidableEq, Repr

/-- A remote operation that OUT of its window has not passed: its ticket, and whether it is complete (R232). -/
structure WinOp where
  ticket : Nat
  done : Bool
  deriving DecidableEq, Repr

/-- A window of a live launch with its counters (R231, R232). -/
structure Window where
  id : Nat
  tile : Bool
  base : Nat
  len : Nat
  ops : List WinOp
  out : BitVec 32
  inn : BitVec 32
  err : Nat
  deriving DecidableEq, Repr

/-- A page request that the host has not answered (R175). -/
structure PageReq where
  seq : BitVec 32
  va : Nat
  write : Bool
  deriving DecidableEq, Repr

/-- A live launch (R89 to R91): its record, what obsidian gave it, the command that started it while its answer is owed,
its open page requests, its windows and mailboxes, and its task counts. -/
structure Launch where
  id : Nat
  lease : BitVec 32
  tenant : Nat
  job : BitVec 16
  asid : Nat
  record : LaunchRecord
  owed : Option (BitVec 32)
  requests : List PageReq
  windows : List Window
  mbox : Vector Word 8
  live : Nat
  exited : Nat
  terminated : Nat
  deriving DecidableEq, Repr

/-- A record of a task-queue partition (R92, R198). `id` is the model's own name of it; `next` tasks of it are bound; `places`
names harts for R263. -/
structure TaskRec where
  id : Nat
  launch : Nat
  cluster : Nat
  entry : Word
  args : Word
  key : Word
  argstride : BitVec 32
  count : Nat
  next : Nat
  priority : Nat
  lanes : Nat
  preempt : Nat
  classmap : BitVec 16
  ranges : List Grant
  places : List HartName
  spilled : Bool
  deriving DecidableEq, Repr

/-- A member of a phaser, named by its hart (R98, R340), with its wait: `woke` is the counter at which its operation took
effect, `signalled` marks a `phsw` whose signal is recorded while it waits (R341), `stall` a signal that the engine holds
until the counter reaches sig: of a `phsig` (false) or a `phsw` (true). -/
structure Member where
  owner : HartName
  hartid : BitVec 16
  mode : PhMode
  sig : BitVec 32
  wt : BitVec 32
  waiting : Bool
  signalled : Bool
  stall : Option Bool
  woke : Option (BitVec 32)
  deriving DecidableEq, Repr

/-- A live phaser (R97 to R99). -/
structure Phaser where
  handle : BitVec 32
  launch : Nat
  counter : BitVec 32
  members : List Member
  deriving DecidableEq, Repr

/-- A carve-out of tensor store (R161): its handle, its tenant and its bytes. -/
structure Carve where
  handle : Word
  tenant : Nat
  bytes : Bytes
  deriving DecidableEq, Repr

/-- A put of this package whose token has not landed, or whose outcome is not known (R235 to R238): its issuing task, its launch
and window, its ticket, what is sent, the tick its token expires at on the counter of `cluster`, the carried tokens whose
acceptance it waits for (by their puts' tickets), whether it left, was accepted, has failed, whether its token has expired, and
its watchers. -/
structure PutRec where
  tok : TokName
  owner : Nat
  launch : Nat
  win : Nat
  ticket : Nat
  peer : Nat
  msg : PutMsg
  due : Word
  cluster : Nat
  needs : List Nat
  sent : Bool
  accepted : Bool
  failed : Bool
  expired : Bool
  watchers : List Nat
  deriving DecidableEq, Repr

/-- An `rget` whose answer is out (R240): its task, where its bytes go, and whether it has failed already, for an absent peer. -/
structure GetRec where
  owner : Nat
  ticket : Nat
  launch : Nat
  win : Nat
  asid : Nat
  tenant : Nat
  peer : Nat
  dst : Word
  len : Nat
  failed : Bool
  deriving DecidableEq, Repr

/-- An `msend` whose answer is out (R244), and whether it has failed already, for an absent peer. -/
structure SendRec where
  ticket : Nat
  launch : Nat
  win : Nat
  peer : Nat
  failed : Bool
  deriving DecidableEq, Repr

/-- A put in a hold queue of this package, the tokens it waits on in `msg.waits` (R237). -/
structure Held where
  station : Nat
  msg : PutMsg
  deriving DecidableEq, Repr

/-- A claim in progress in the package's claim engine (R257, R260), of a hart and the task that issued it: the highest-ranked
conflicting claim that ranks above it, the sender of a commit notice, the first objector, and whether its store is on its
way. -/
structure OpenClaim where
  owner : HartName
  serial : Nat
  asid : Nat
  tenant : Nat
  cluster : Nat
  prop : Proposal
  endsAt : Word
  rival : Option Proposal
  winner : Option Party
  objector : Option Party
  aborted : Bool
  storing : Bool
  deriving DecidableEq, Repr

/-- A record of a member hart (R258). -/
structure ClaimRec where
  owner : HartName
  hartid : BitVec 16
  cluster : Nat
  prop : Proposal
  closesAt : Word
  isOpen : Bool
  deriving DecidableEq, Repr

/-- A termination record (R214). -/
structure TermRec where
  ctxId : BitVec 32
  leaseId : BitVec 32
  index : Nat
  cause : Nat
  stripLost : Bool
  pfxv : Bool
  hartid : BitVec 16
  pc : Word
  tval : Word
  item : Word
  backing : Word
  stripfault : Word
  refTick : Word
  deriving DecidableEq, Repr

/-- The body of a completion record (R245, R379). -/
inductive Posted where
  | status (code : Nat) (a b : Nat) (handle : Word)
  | synced (command completion : BitVec 32)
  | launchDone (launch : Nat) (ctxId : BitVec 32) (exited terminated : Nat)
  | termination (launch : Nat) (r : TermRec)
  | pageRequest (ctxId : BitVec 32) (seq : BitVec 32) (va : Nat) (write : Bool) (launch : Nat)
  | migrated (ctxId : BitVec 32) (va : Nat) (pte : Word)
  | defects (test : SelfTest)
  | configRefused (test : SelfTest)
  | attestation (nonce : Word) (obsidian config defects : List Byte) (test : SelfTest) (signature : List Byte)
  deriving DecidableEq, Repr

/-- A completion record: its sequence, the command it answers (0 if none), its body (R245, R246). -/
structure Completion where
  seq : BitVec 32
  cmd : BitVec 32
  body : Posted
  deriving DecidableEq, Repr

/-- A message the package has put on the fabric. -/
inductive Msg where
  | put (m : PutMsg)
  | putAccepted (t : TokName)
  | putRefused (m : PutMsg)
  | putVisible (t : TokName)
  | putError (t : TokName) (code : Nat)
  | landed (t : TokName) (dst : Nat)
  | expired (t : TokName) (dst : Nat)
  | request (ticket : Nat) (r : RemoteReq)
  | reply (dst : Party) (r : Reply)
  | tile (ticket : Nat) (m : TileMsg)
  | tileDone (dst : Party) (win code : Nat)
  | proposal (p : Proposal) (dst : Party)
  | objection (p : Proposal) (src : Party) (abort : Bool)
  | commit (p : Proposal) (dst : Party)
  | ended (p : Proposal) (dst : Party)
  | ualinkReply (dst : Party) (data : List Byte)
  | ualinkRead (fid addr len : Nat)
  | ualinkWrite (fid addr : Nat) (data : List Byte)
  deriving DecidableEq, Repr

/-- A mapping command that has taken effect and not been answered (R174). -/
structure MapPending where
  cmd : BitVec 32
  deriving DecidableEq, Repr

/-- Whether a tenant is running, stopped or sealed (R276). -/
inductive QState where
  | running | stopped | sealed
  deriving DecidableEq, Repr

/-- The quiesce state of a tenant: the tick its stop began at and the hart whose cluster counts it, the stop command whose
completion is still owed, how many images were sealed, and the sequence of the last image a restore applied. -/
structure Tenant where
  id : Nat
  q : QState
  stoppedAt : Word
  stopper : HartName
  owed : Option (BitVec 32)
  images : Nat
  lastImage : Nat
  deriving DecidableEq, Repr

/-- A page record of a device state image (R282): the context identifier of its space (0 in the shared half), a 64 KiB leaf, its
bytes, and whether it was unmapped since the base. -/
structure PageImage where
  ctx : BitVec 32
  leaf : Leaf
  data : Bytes
  unmapped : Bool
  deriving DecidableEq, Repr

/-- The content of a device state image, by its header and sections (R280, R281). Its bytes lie in memory at its destination; what a
section has no place for stands here alone (log entry 30). `areas` are the checkpoint areas of the contexts. -/
structure Image where
  seq : Nat
  base : Nat
  incremental : Bool
  tenant : Nat
  capture : Nat
  map : List Nat
  used : List Nat
  launches : List Launch
  queue : List TaskRec
  contexts : List Hart
  areas : List Bytes
  clusters : List Cluster
  phasers : List Phaser
  carves : List Carve
  pages : List PageImage
  spaces : List (BitVec 32 × Nat)
  deriving DecidableEq, Repr

/-- Every page of a tenant at a seal, with the image's sequence, and the pages written, mapped or unmapped since, each by the
context identifier of its space (0 in the shared half) and its number: what a later incremental image is told from (R282). -/
structure Baseline where
  tenant : Nat
  seq : Nat
  pages : List PageImage
  touched : List (BitVec 32 × Nat)
  deriving DecidableEq, Repr

/-- A cache-remote line: 128 bytes of a mode-2 page as they were when the line was filled, tagged by address space and address
(R158, R169). -/
structure RemLine where
  asid : Nat
  va : Nat
  bytes : List Byte
  deriving DecidableEq, Repr

/-- How the hart in front spends its turn: its instruction whole, its instruction up to its (n + 1)-th stop point inside, an
issue that leaves what it may for later, or a queued instruction without the elements that have performed, with the bytes it took
before (R86, R183, R222). -/
inductive How where
  | whole
  | part (n : Nat)
  | late
  | without (done : List Nat) (taken : List Byte)
  deriving DecidableEq, Repr

/-- A turn of the agenda: a hart issues (whole, up to a stop point inside, or leaving its effect for later), some elements of the
oldest queued vector access of a hart perform ahead of the rest, a step of the device happens at a hart (for a package step, any
hart), a 64-byte command record and its payload arrive, the reference counter of a cluster advances, a cache-remote line or an
operand-cache granule of a cluster is filled or dropped, a soft error breaks a page table (R167), a port reaches a peer (R230),
another endpoint's memory changes, or another package has sealed an image there. -/
inductive Turn where
  | hart (h : HartName)
  | part (h : HartName) (n : Nat)
  | late (h : HartName)
  | elems (h : HartName) (es : List Nat)
  | event (h : HartName) (i : Instr)
  | command (h : HartName) (bytes : List Byte) (payload : List (List Byte)) (choice : CmdChoice)
  | tick (cluster n : Nat)
  | line (asid va : Nat) (fill : Bool)
  | operand (cluster : Nat) (handle : Word) (granule : Nat) (fill : Bool)
  | softError (asid va : Nat)
  | reached (fid : Nat)
  | outside (fid addr : Nat) (bytes : List Byte)
  | sealed (fid addr : Nat) (image : Image) (signature : List Byte)
  deriving DecidableEq, Repr

/-- The package. -/
structure State where
  /-- The hart in front, and its cluster. -/
  hart : Hart
  cluster : Cluster
  /-- The other harts and clusters that are not as at reset. -/
  others : List Hart
  clusters : List Cluster
  /-- Memory by frame: byte a of the frames of package f is at f × 2^40 + a. -/
  mem : Bytes
  leaves : List Leaf
  lines : List RemLine
  spaces : List (BitVec 32 × Nat)
  launches : List Launch
  /-- Launches that have ended, whose windows go on counting (R232, R351). -/
  ended : List Launch
  queue : List TaskRec
  parked : List Hart
  ckpts : List (Word × Nat × Hart)
  phasers : List Phaser
  phGens : List (Nat × Nat)
  carves : List Carve
  carveGen : Nat
  records : List ClaimRec
  claims : List OpenClaim
  puts : List PutRec
  gets : List GetRec
  sends : List SendRec
  held : List Held
  landed : List TokName
  expired : List TokName
  egress : List Msg
  mapPending : List MapPending
  pageSeq : BitVec 32
  cmdSeq : BitVec 32
  compSeq : BitVec 32
  completions : List Completion
  tenants : List Tenant
  images : List Image
  baselines : List Baseline
  fid : Nat
  /-- The fabric identifiers that name no endpoint, and those that no port has reached for 1 ms (R15, R230). -/
  vacant : List Nat
  absent : List Nat
  ports : Vector Nat 18
  withheldPorts : List Nat
  flintHeld : Bool
  usable : Bool
  configured : Bool
  /-- The configuration image in force: its bytes, and the keys it lists (R17, R51, R285). -/
  config : List Byte
  trusted : List (Nat × List Byte)
  registered : List (Nat × List Byte)
  selfTest : SelfTest
  /-- The physical cluster of each logical cluster; 255 where there is none (R21, R281). -/
  logical : List Nat
  /-- The physical die whose synchronisation engine each logical die has (R101). -/
  engines : List (Nat × Nat)
  slotErr : Bool
  heatFloor : List (Nat × Nat)
  /-- The model's own counters: of free values taken, and of names given. -/
  freeCount : Nat
  nextName : Nat
  /-- The model's own schedule: how the hart in front spends its turn, and what happens next, in order. -/
  how : How
  agenda : List Turn
  deriving DecidableEq, Repr

/-! ### Reset -/

/-- A task of no launch: what an unbound hart holds. -/
def Task.none : Task :=
  { serial := 0, ctxId := 0, leaseId := 0, launch := 0, tenant := 0, job := 0, asid := 0, index := 0, args := 0, classmap := 0, priority := 0,
    preempt := 0, groups := 0, grants := [], sections := [], mapbase := 0, eqMin := 0, eqCap := 1, ckpt := 0,
    boundAt := 0 }

/-- A token slot that was never used (R236). -/
def TokSlot.empty : TokSlot := { gen := 0, st := .free, order := 0, undelivered := false, put := 0 }

/-- A map context with every tile in one state. -/
def TileCtx.all (base : Word) (t : Tile) : TileCtx := { base := base, tiles := Vector.replicate 256 t }

/-- A hart with no task: every register at the reset value its bit table gives (R85, R104, R122, R125, R127, R210, R211,
R238, R254, R255, R59), and 0 where none is given (log entry 2). -/
def Hart.reset (n : HartName) : Hart :=
  { name := n, part := 0, bound := false, stopping := false, task := Task.none, level := .t, pc := 0,
    x := Vector.replicate 32 0, p := Vector.replicate 8 [], v := Vector.replicate 32 [],
    vl := 0x8000, vstart := 0, classmap := 0xF210, seed := 0, stripbase := 0, rmode := 0, status := 0x400,
    pfxstate := 0, cause := 0, epc := 0, tval := 0, tvec := 0, stripfault := 0, tkexp := 0x186A0, clwin := 0x800,
    clstat := 0, lent := none, loopT := [], loopK := [], strip := [], mapbase := 0,
    ctxs := [TileCtx.all 0 .undefined], ur := false, transfers := [], attached := false, copies := [], vqueue := [],
    late := [],
    tokens := Vector.replicate 64 TokSlot.empty, tokPtr := 0, tokOrder := 0, await := none, checked := false
    loaded := [], unitsDone := [], began := none,
    phWoke := none,
    expiries := [],
    step := none, retired := 0, dlnPre := false, dlnRisk := false, dlnMiss := false, dlnDone := 0, dlnSlack := 0 }

/-- A cluster after power-up (R125, R145, R205, R268, R270): scratchpad, tables and counter zero, queues empty with
minimum 4 and cap 64, the governor at point 9, the pick when no step is open (log entry 2). -/
def Cluster.reset (n : Nat) : Cluster :=
  { num := n, sp := [], tables := Vector.replicate 4 none, queues := Vector.replicate 16 [],
    poppers := Vector.replicate 16 [], qmin := Vector.replicate 16 4, qcap := Vector.replicate 16 64, poolErr := false,
    served := Vector.replicate 6 0, stallers := Vector.replicate 6 [], operands := [], generation := 0, refTick := 0,
    tenant := none, parts := Vector.replicate 4 0,
    gov :=
      { point := 9, target := none, heat := 48, throttle := 0, switch := false, stretched := false, history := [], since := 0
        last := 0 } }

/-- A self-test that finds every unit good. -/
def SelfTest.good : SelfTest :=
  { badClusters := [], badMgmt := [], badStacks := [], badStations := [], badSlices := [], badWays := [], badBoundaries := [],
    badPorts := [], badEngines := [] }

/-- The package after power-up with every unit good: no hart bound, no launch, no mapping (log entry 2). -/
def State.reset : State :=
  { hart := Hart.reset ⟨0, 0, 0, false⟩, cluster := Cluster.reset 0, others := [], clusters := [], mem := [],
    leaves := [], lines := [], spaces := [], launches := [], ended := [], queue := [], parked := [], ckpts := [],
    phasers := [], phGens := [],
    carves := [], carveGen := 0, records := [], claims := [], puts := [], gets := [], sends := [], held := [],
    landed := [], expired := [], egress := [], mapPending := [], pageSeq := 0, cmdSeq := 0, compSeq := 0,
    completions := [], tenants := [], images := [], baselines := [], fid := 0, vacant := [], absent := [],
    ports := Vector.replicate 18 4, withheldPorts := [], flintHeld := true, usable := true, configured := true, config := [],
    trusted := [], registered := [], selfTest := SelfTest.good, logical := List.range 192,
    engines := (List.range 4).map fun d => (d, d), slotErr := false, heatFloor := [], freeCount := 0, nextName := 1,
    how := .whole, agenda := [] }

end Sys2Proof.Machine
end

