-- ==== Sys2Proof/Machine/Store.lean ====
section
/-! DEFINITION. Bytes by address: reading, writing, and the canonical form. Byte order is decided here (R2). -/

namespace Sys2Proof.Machine

/-- The canonical form of a byte store: addresses strictly rising, no zero byte listed. -/
def Bytes.wf (b : Bytes) : Bool :=
  match b with
  | [] => true
  | (a, x) :: r => x != 0 && r.all (fun c => a < c.1) && Bytes.wf r

/-- The byte at an address; an unlisted byte reads 0x00 (log entry 1). -/
def Bytes.get (b : Bytes) (a : Nat) : Byte :=
  match b with
  | [] => 0
  | (k, x) :: r => if k = a then x else Bytes.get r a

/-- The `n` bytes from `a` up. -/
def Bytes.getN (b : Bytes) (a n : Nat) : List Byte :=
  let near := b.filter fun c => decide (a ≤ c.1 ∧ c.1 < a + n)
  (List.range n).map fun i => Bytes.get near (a + i)

/-- The cells of a run of bytes from `a` up, without its zero bytes. -/
def cells (a : Nat) (xs : List Byte) : Bytes :=
  match xs with
  | [] => []
  | x :: r => if x = 0 then cells (a + 1) r else (a, x) :: cells (a + 1) r

/-- Write a run of bytes from `a` up. -/
def Bytes.put (b : Bytes) (a : Nat) (xs : List Byte) : Bytes :=
  b.filter (fun c => decide (c.1 < a)) ++ cells a xs ++ b.filter (fun c => decide (a + xs.length ≤ c.1))

/-- The little-endian value of a list of bytes (R2). -/
def leVal (xs : List Byte) : Nat :=
  match xs with
  | [] => 0
  | x :: r => x.toNat + 256 * leVal r

/-- The `n` low bytes of a value, little-endian (R2). -/
def leBytes (n v : Nat) : List Byte :=
  match n with
  | 0 => []
  | n + 1 => BitVec.ofNat 8 v :: leBytes n (v / 256)

/-- The little-endian value of `n` bytes at `a`. -/
def Bytes.val (b : Bytes) (a n : Nat) : Nat := leVal (b.getN a n)

/-- `zext`, `sext`, `wrap` and `bits` of R80, on values. -/
def zext (v : Int) (n : Nat) : Nat := (v % (2 ^ n : Nat)).toNat

/-- The value of the low `n` bits, read as a signed number (R80). -/
def sext (v : Int) (n : Nat) : Int :=
  let z := zext v n
  if 2 ^ n ≤ 2 * z then (z : Int) - (2 ^ n : Nat) else z

/-- Bits [hi:lo] of a value (R80). -/
def bits (v hi lo : Nat) : Nat := v / 2 ^ lo % 2 ^ (hi - lo + 1)

/-- The number of bit `i` of a value, as a Bool. -/
def bitOf (v i : Nat) : Bool := v / 2 ^ i % 2 == 1

/-- Signed and unsigned saturation (R80). -/
def satS (v : Int) (n : Nat) : Int := min (max v (-(2 ^ (n - 1) : Nat))) ((2 ^ (n - 1) : Nat) - 1)

/-- Unsigned saturation (R80). -/
def satN (v : Int) (n : Nat) : Int := min (max v 0) ((2 ^ n : Nat) - 1)

/-- Replace the bits [lo + n − 1 : lo] of a word by the low bits of a value. -/
def setBits (w : Word) (lo n v : Nat) : Word :=
  let m := BitVec.ofNat 64 ((2 ^ n - 1) * 2 ^ lo)
  (w &&& ~~~m) ||| BitVec.ofNat 64 (v % 2 ^ n * 2 ^ lo)

end Sys2Proof.Machine
end

