-- ==== Sys2Proof/Machine/Ops.lean ====
section
/-! DEFINITION. The named operations the meanings share: registers, lent fields, translation, leases, memory, fall-through
and jumps, taking an exception and returning from one, termination, and the ends of tasks and launches. -/

namespace Sys2Proof.Machine

/-- The outcome type of every meaning. -/
abbrev Out := Host.Outcome State Fault Refusal

/-- A part of an instruction: it goes on with a value, or the instruction ends in the state given (a trap, a termination,
a wait). -/
abbrev Part (α : Type) := Except State α

/-- The outcome of an instruction from its parts. -/
def finish (r : Part State) : Out :=
  match r with
  | .ok t => .next t
  | .error t => .next t

/-- End the instruction in state `t` when the condition holds. -/
def stopIf (c : Bool) (t : State) : Part Unit := if c then .error t else .ok ()

/-! ### Names -/

/-- `HARTID`[15:0] of a hart in a core of partition code `part` (R105). -/
def hartId (n : HartName) (part : Nat) : BitVec 16 :=
  BitVec.ofNat 16
    (if n.ah then 2 ^ 13 + n.cluster * 32 + n.hart % 8
     else part % 4 * 2 ^ 14 + n.cluster % 256 * 32 + n.core % 4 * 8 + n.hart % 8)

/-- The hart a `HARTID`[15:0] names (R105). -/
def hartOfId (i : BitVec 16) : HartName :=
  { cluster := bits i.toNat 12 5, core := bits i.toNat 4 3, hart := bits i.toNat 2 0, ah := bitOf i.toNat 13 }

/-- The package has a hart of this name (R11, R12, R21). -/
def hartExists (n : HartName) : Bool :=
  n.cluster < 192 && (if n.ah then n.core == 0 && n.hart < 2 else n.core < 4 && n.hart < 8)

/-- `HARTID`[15:0] of a hart. -/
def Hart.id (h : Hart) : BitVec 16 := hartId h.name h.part.val

/-- The lanes of a hart (R83). -/
def Hart.lanes (h : Hart) : Nat := 32 / 2 ^ h.part.val

/-- A hart and package as messages name it. -/
def State.party (s : State) : Party := { fid := s.fid, hartid := s.hart.id }

/-! ### Registers -/

/-- Read a scalar register; `x0` reads zero (R3). -/
def Hart.getX (h : Hart) (r : XReg) : Word := if r = 0 then 0 else h.x.get r

/-- Write a scalar register; a write to `x0` is discarded (R3). -/
def Hart.setX (h : Hart) (r : XReg) (w : Word) : Hart := if r = 0 then h else { h with x := h.x.set r.val w }

/-- Change the hart in front. -/
def State.onHart (s : State) (f : Hart → Hart) : State := { s with hart := f s.hart }

/-- Change the cluster in front. -/
def State.onCluster (s : State) (f : Cluster → Cluster) : State := { s with cluster := f s.cluster }

/-- Read a scalar register of the hart in front. -/
def State.getX (s : State) (r : XReg) : Word := s.hart.getX r

/-- Write a scalar register of the hart in front. -/
def State.setX (s : State) (r : XReg) (w : Word) : State := s.onHart fun h => h.setX r w

/-- A bit of `STATUS` (R210): 15 PFXV, 14 SFV, 13 SACT, 12 PPL, 11 PIE, 10 IE, 9 RIE, 8 RIP. -/
def Hart.st (h : Hart) (i : Nat) : Bool := h.status.getLsbD i

/-- Set a bit of `STATUS`. -/
def Hart.setSt (h : Hart) (i : Nat) (b : Bool) : Hart := { h with status := setBits h.status i 1 b.toNat }

/-- OR flags into `STATUS`[4:0] (R126). -/
def Hart.orFlags (h : Hart) (f : BitVec 5) : Hart := { h with status := h.status ||| f.setWidth 64 }

/-- A strip is open at level T (R219, R220). -/
def Hart.inStrip (h : Hart) : Bool := h.level = .t && h.st 13

/-! ### The lent fields of a prefix, `lent` of R80 -/

/-- The lent bits [25:0]; zero when no prefix is in effect. -/
def Hart.lentBits (h : Hart) : Nat := match h.lent with | some b => b.toNat | none => 0

/-- `lent.pm`. -/
def Hart.lentPm (h : Hart) : PReg := Fin.ofNat 8 (bits h.lentBits 25 23)

/-- `lent.pn`. -/
def Hart.lentPn (h : Hart) : Bool := bitOf h.lentBits 22

/-- `lent.dc` as a scalar register. -/
def Hart.lentDc (h : Hart) : Fin 32 := Fin.ofNat 32 (bits h.lentBits 21 17)

/-- `lent.dk`. -/
def Hart.lentDk (h : Hart) : Nat := bits h.lentBits 16 15

/-- Bit [0] of the ext field: `comp` or `ord` (R339). -/
def Hart.lentE0 (h : Hart) : Bool := bitOf h.lentBits 0

/-- The second token register of `rput`, when one is lent (R63). -/
def Hart.lentXt (h : Hart) : Option XReg :=
  if bitOf h.lentBits 5 then some (Fin.ofNat 32 (bits h.lentBits 4 0)) else none

/-- `eff_class` (R80). -/
def Hart.effClass (h : Hart) (slot : Slot) : Fin 16 :=
  if bitOf h.lentBits 10 then Fin.ofNat 16 (bits h.lentBits 14 11)
  else Fin.ofNat 16 (h.classmap.toNat / 2 ^ (4 * slot.val))

/-- `eff_rmode` (R80): the code of R58. -/
def Hart.effRmode (h : Hart) : Nat :=
  if bits h.lentBits 9 7 ≠ 0 then bits h.lentBits 9 7 - 1 else bits h.rmode.toNat 2 0

/-- Write a scalar result to x[d], and to x[dc] under `dk` = 1 (R63). -/
def State.setXL (s : State) (d : XReg) (w : Word) : State :=
  let t := s.setX d w
  if s.hart.lentDk = 1 then t.setX s.hart.lentDc w else t

/-! ### Translation (R164 to R169) -/

/-- The fields of a leaf entry (R168). -/
def pteValid (e : Word) : Bool := e.getLsbD 63
/-- LEAF. -/
def pteLeaf (e : Word) : Bool := e.getLsbD 62
/-- PEER. -/
def ptePeer (e : Word) : Nat := bits e.toNat 61 52
/-- MODE. -/
def pteMode (e : Word) : Nat := bits e.toNat 51 50
/-- SKEW. -/
def pteSkew (e : Word) : Nat := bits e.toNat 49 48
/-- PROMO. -/
def ptePromo (e : Word) : Bool := e.getLsbD 47
/-- THR. -/
def pteThr (e : Word) : Nat := bits e.toNat 43 40
/-- PFN, as the frame number. -/
def ptePfn (e : Word) : Nat := bits e.toNat 39 16

/-- The bytes a leaf of a level maps (R167). -/
def levelSize (level : Nat) : Nat := if level = 1 then 2 ^ 30 else if level = 2 then 2 ^ 21 else 2 ^ 16

/-- The address space of an access: ASID 0 in the shared half (R164). -/
def spaceOf (asid va : Nat) : Nat := if bitOf va 56 then 0 else asid

/-- The leaf maps this address of this space. -/
def Leaf.maps (l : Leaf) (asid va : Nat) : Bool := l.asid == asid && l.va ≤ va && va < l.va + levelSize l.level

/-- A message has come from a package, which is then not absent (R230). -/
def State.hear (s : State) (fid : Nat) : State := { s with absent := s.absent.filter fun f => f != fid }

/-- The leaf that maps an address of a context (R167). -/
def State.leafAt (s : State) (asid va : Nat) : Option Leaf := s.leaves.find? fun l => l.maps (spaceOf asid va) va

/-- The package whose frames a leaf names (R165, R169). -/
def State.leafFid (s : State) (l : Leaf) : Nat := if pteMode l.pte = 0 then s.fid else ptePeer l.pte

/-- The key in `State.mem` of byte `va` under a leaf. -/
def State.frameKey (s : State) (l : Leaf) (va : Nat) : Nat :=
  s.leafFid l * 2 ^ 40 + (ptePfn l.pte * 2 ^ 16 + (va - l.va))

/-- A peer is absent: its identifier names no endpoint, or no port has reached it for 1 ms (R230). -/
def State.isAbsent (s : State) (fid : Nat) : Bool := s.vacant.contains fid || s.absent.contains fid

/-- Late translation: the key of a virtual address; none where no leaf maps it (R167) or its peer is absent (R230). -/
def State.translate (s : State) (asid va : Nat) : Option Nat :=
  match s.leafAt asid va with
  | none => none
  | some l => if pteMode l.pte ≠ 0 && s.isAbsent (ptePeer l.pte) then none else some (s.frameKey l va)

/-- Two ranges of numbers meet. -/
def meets (a n b m : Nat) : Bool := a < b + m && b < a + n

/-- The 64 KiB pages that `n` bytes at `va` touch. -/
def pagesOf (va n : Nat) : List Nat :=
  if n = 0 then [] else (List.range ((va + n - 1) / 65536 + 1 - va / 65536)).map (va / 65536 + ·)

/-- The first byte of the access in page `p`. -/
def pieceLo (va p : Nat) : Nat := max va (p * 65536)

/-- The bytes of the access in page `p`. -/
def pieceLen (va n p : Nat) : Nat := min (va + n) ((p + 1) * 65536) - pieceLo va p

/-- The runs of keys that `n` bytes at `va` occupy, page by page; or the first address that does not translate. -/
def State.runs (s : State) (asid va n : Nat) : Except Nat (List (Nat × Nat)) :=
  (pagesOf va n).mapM fun p =>
    match s.translate asid (pieceLo va p) with
    | some k => .ok (k, pieceLen va n p)
    | none => .error (pieceLo va p)

/-- Read runs of bytes. -/
def Bytes.getRuns (m : Bytes) (rs : List (Nat × Nat)) : List Byte := rs.flatMap fun r => m.getN r.1 r.2

/-- Write a list of bytes over runs. -/
def Bytes.putRuns (m : Bytes) (rs : List (Nat × Nat)) (xs : List Byte) : Bytes :=
  match rs with
  | [] => m
  | r :: rs => Bytes.putRuns (m.put r.1 (xs.take r.2)) rs (xs.drop r.2)

/-- An access of `n` bytes at `va` reaches a leaf, each of its bytes in its own half of the address space (R164). -/
def Leaf.reached (l : Leaf) (asid va n : Nat) : Bool :=
  l.asid == spaceOf asid (max va l.va) && decide (n ≠ 0 ∧ l.va < va + n ∧ va < l.va + levelSize l.level)

/-- The context identifier of a space; 0 for the shared half. -/
def State.ctxOf (s : State) (asid : Nat) : BitVec 32 := ((s.spaces.find? fun p => p.2 == asid).map (·.1)).getD 0

/-- Pages are written, mapped or unmapped after a seal (R282). -/
def Baseline.touch (b : Baseline) (ps : List (BitVec 32 × Nat)) : Baseline :=
  { b with touched := ps.foldl (fun xs p => if xs.contains p then xs else xs ++ [p]) b.touched }

/-- The pages of `n` bytes at `va` are written, mapped or unmapped, which every later incremental image has to tell (R282). -/
def State.touch (s : State) (asid va n : Nat) : State :=
  { s with
    baselines := s.baselines.map fun b =>
      b.touch ((pagesOf va n).map fun p => (s.ctxOf (spaceOf asid (p * 65536)), p)) }

/-- Count an access to the mode-3 pages among `n` bytes at `va` (R171). -/
def State.count (s : State) (asid va n : Nat) : State :=
  { s with
    leaves := s.leaves.map fun l =>
      if pteMode l.pte = 3 && l.reached asid va n then { l with accesses := l.accesses + 1 } else l }

/-- The counter of a mode-3 page has reached its threshold: the entry is marked busy, and requests for the page wait until it has
migrated (R171). -/
def Leaf.busy (l : Leaf) : Bool := pteMode l.pte == 3 && decide (2 ^ (pteThr l.pte + 8) ≤ l.accesses)

/-- An access of `n` bytes at `va` meets a page that is marked busy (R171). -/
def State.atBusy (s : State) (asid va n : Nat) : Bool := s.leaves.any fun l => l.busy && l.reached asid va n

/-! ### Reads and writes at their translation (R158, R169, R181) -/

/-- The bytes of a cache-remote line laid over what memory holds. -/
def RemLine.over (l : RemLine) (asid va : Nat) (bs : List Byte) : List Byte :=
  bs.zipIdx.map fun (x, i) =>
    if l.asid = spaceOf asid (va + i) ∧ l.va ≤ va + i ∧ va + i < l.va + l.bytes.length then l.bytes.getD (va + i - l.va) x
    else x

/-- What this package reads at its translation: its cache-remote lines, else memory (R169, R181). -/
def State.readAt (s : State) (asid va n : Nat) : Except Nat (List Byte) :=
  (s.runs asid va n).map fun rs => s.lines.foldl (fun bs l => l.over asid va bs) (s.mem.getRuns rs)

/-- Written bytes laid over a cache-remote line (R169). -/
def RemLine.written (l : RemLine) (asid va : Nat) (bs : List Byte) : RemLine :=
  { l with
    bytes := l.bytes.zipIdx.map fun (x, i) =>
      if l.asid = spaceOf asid (l.va + i) ∧ va ≤ l.va + i ∧ l.va + i < va + bs.length then bs.getD (l.va + i - va) x else x }

/-- Write bytes at their translation: through to the frame, and into the cache-remote lines that hold them. -/
def State.writeAt (s : State) (asid va : Nat) (bs : List Byte) : Except Nat State :=
  (s.runs asid va bs.length).map fun rs =>
    let t : State := { s with mem := s.mem.putRuns rs bs, lines := s.lines.map fun l => l.written asid va bs }
    (t.touch asid va bs.length).count asid va bs.length

/-! ### Leases (R175 to R177) -/

/-- A grant covers the 64 KiB page of an address. -/
def Grant.covers (g : Grant) (va : Nat) : Bool := g.first ≤ va / 65536 && va / 65536 < g.first + g.pages

/-- A page that holds bytes of the section (R38). -/
def SecRange.pageOf (r : SecRange) (va : Nat) : Bool :=
  r.len ≠ 0 && r.addr / 65536 ≤ va / 65536 && va / 65536 ≤ (r.addr + r.len - 1) / 65536

/-- The section holds this byte. -/
def SecRange.holds (r : SecRange) (va : Nat) : Bool := r.addr ≤ va && va < r.addr + r.len

/-- The task may read this byte (R38, R164, R177). -/
def Task.mayRead (k : Task) (va : Nat) : Bool :=
  va < 2 ^ 57 && (k.grants.any (·.covers va) || k.sections.any (·.pageOf va))

/-- The task may write this byte (R158, R164, R177). -/
def Task.mayWrite (k : Task) (va : Nat) : Bool :=
  va < 2 ^ 57 && k.grants.any (fun g => g.write && g.covers va) && !k.sections.any (fun r => r.exec && r.holds va)

/-- The address lies in an exec section (R291). -/
def Task.mayFetch (k : Task) (va : Nat) : Bool := k.sections.any fun r => r.exec && r.holds va

/-- The lowest of `n` bytes at `va` that fails a check. -/
def firstBad (ok : Nat → Bool) (va n : Nat) : Option Nat := ((List.range n).map (va + ·)).find? fun a => !ok a

/-! ### Completions and windows -/

/-- Post a completion record (R245, R246). -/
def State.post (s : State) (cmd : BitVec 32) (b : Posted) : State :=
  { s with compSeq := s.compSeq + 1, completions := s.completions ++ [{ seq := s.compSeq + 1, cmd := cmd, body := b }] }

/-- Put a message on the fabric. -/
def State.send (s : State) (m : Msg) : State := { s with egress := s.egress ++ [m] }

/-- The live launch of an identifier. -/
def State.launch? (s : State) (id : Nat) : Option Launch := s.launches.find? fun l => l.id == id

/-- Change a launch. -/
def State.onLaunch (s : State) (id : Nat) (f : Launch → Launch) : State :=
  { s with launches := s.launches.map fun l => if l.id = id then f l else l }

/-- A window of a live launch. DESIGN CHOICE (log entry 40): of two window records with one identifier the first is found. -/
def State.window? (s : State) (launch win : Nat) : Option Window :=
  match s.launch? launch with
  | some l => l.windows.find? fun w => w.id == win
  | none => none

/-- Change the windows of an identifier. -/
def Launch.onWindow (l : Launch) (win : Nat) (f : Window → Window) : Launch :=
  { l with windows := l.windows.map fun w => if w.id = win then f w else w }

/-- Change a window of a launch, live or ended: its counters go on when its tasks have ended (R232, R351). DESIGN CHOICE (log
entry 40): two windows with one identifier change together. -/
def State.onWindow (s : State) (launch win : Nat) (f : Window → Window) : State :=
  { s.onLaunch launch (fun l => l.onWindow win f) with
    ended := s.ended.map fun l => if l.id = launch then l.onWindow win f else l }

/-- Record an error in a window; the first one stays (R232). -/
def Window.fail (w : Window) (code : Nat) : Window := if w.err = 0 then { w with err := code } else w

/-- Move OUT past the completed operations at the front (R232). -/
def Window.settle (w : Window) : Window :=
  let d := (w.ops.takeWhile (·.done)).length
  { w with ops := w.ops.drop d, out := w.out + BitVec.ofNat 32 d }

/-- An operation of the window completes, with an error code or 0 (R232). -/
def Window.complete (w : Window) (ticket code : Nat) : Window :=
  let w1 := { w with ops := w.ops.map fun (o : WinOp) => if o.ticket = ticket then { o with done := true } else o }
  (if code = 0 then w1 else w1.fail code).settle

/-- A name no operation, task, slot or record had before, and the state with it taken. -/
def State.takeName (s : State) : Nat × State := (s.nextName, { s with nextName := s.nextName + 1 })

/-! ### Groups (R48, R96) and live launches (R231) -/

/-- The members of a group of a launch. DESIGN CHOICE (log entry 40): of two group records with one index the first is used,
and `State.overGrouped` counts each of them. -/
def Launch.group (l : Launch) (g : Nat) : List Sys2Proof.Member :=
  match l.record.groups.find? fun r => r.index == g with
  | some r => r.members
  | none => []

/-- The fabric identifier a member record names; `self` reads this package's. -/
def State.memberFid (s : State) (m : Sys2Proof.Member) : Nat := m.fid.getD s.fid

/-- The hart a member record names; core 4 names an access hart (R48). -/
def memberHart (m : Sys2Proof.Member) : HartName :=
  { cluster := m.cluster, core := if m.core = 4 then 0 else m.core, hart := m.hart, ah := m.core == 4 }

/-- The live launch of a tenant and job tag; one that still waits for residency is not live. -/
def State.liveLaunch (s : State) (tenant : Nat) (job : BitVec 16) : Option Launch :=
  s.launches.find? fun l => l.owed.isNone && l.tenant == tenant && l.job == job

/-- The members of a claim's group but the claimant, as message destinations. A destination's partition code is unknown to
the sender and reads 0. -/
def State.claimMembers (s : State) (p : Proposal) : List Party :=
  match s.liveLaunch p.tenant p.job with
  | some l =>
    (l.group p.group).filterMap fun m =>
      if s.memberFid m = p.src.fid && memberHart m = hartOfId p.src.hartid then none
      else some { fid := s.memberFid m, hartid := hartId (memberHart m) 0 }
  | none => []

/-! ### Phasers as the ends of tasks use them (R99) -/

/-- A member may signal. -/
def Member.signals (m : Member) : Bool := m.mode != .waitOnly

/-- A member may wait. -/
def Member.waits (m : Member) : Bool := m.mode != .signalOnly

/-- `a` exceeds `b`, their difference modulo 2^32 taken as signed (R98). -/
def phAfter (a b : BitVec 32) : Bool := a != b && !(a - b).msb

/-- A member at an advance to `c`: a wait that `c` ends is woken, and a stalled signal is recorded, with the wait of a
`phsw` behind it (R98, R99, R101's trace). -/
def Member.atAdvance (c : BitVec 32) (m : Member) : Member :=
  match m.stall with
  | none => if m.waiting && phAfter c m.wt then { m with waiting := false, woke := some c } else m
  | some false => { m with stall := none, sig := m.sig + 1, woke := some c }
  | some true =>
    let w := phAfter c m.wt
    { m with
      stall := none, sig := m.sig + 1, signalled := true, waiting := !w, woke := if w then some c else none }

/-- One advance of the counter, when every signal-capable member has signalled (R99). -/
def Phaser.advanceOnce (p : Phaser) : Phaser :=
  if p.members.any (·.signals) && p.members.all (fun m => !m.signals || phAfter m.sig p.counter) then
    let c := p.counter + 1
    { p with counter := c, members := p.members.map (Member.atAdvance c) }
  else p

/-- Every advance that is due: the stalled signals a first one records may complete one more phase (R99). A stalled `phsig`
reports the counter after that one (R98). -/
def Phaser.advance (p : Phaser) : Phaser :=
  let q := p.advanceOnce.advanceOnce
  let stalled := fun m : Member => p.members.any fun k => k.owner == m.owner && k.stall == some false
  { q with members := q.members.map fun m => if stalled m && m.stall.isNone then { m with woke := some q.counter } else m }

/-- Remove a member, which may complete the phase (`phdrop`, R98). -/
def Phaser.drop (p : Phaser) (owner : HartName) : Phaser :=
  Phaser.advance { p with members := p.members.filter fun m => m.owner != owner }

/-- Remove a hart from every phaser of which it is a member (R214, R351). -/
def State.dropMember (s : State) (owner : HartName) : State :=
  { s with phasers := s.phasers.map fun p => if p.members.any (fun m => m.owner == owner) then p.drop owner else p }

/-! ### Contexts wherever they stand -/

/-- Change the context of a task, bound or pre-empted. -/
def State.onTask (s : State) (serial : Nat) (f : Hart → Hart) : State :=
  let g := fun h : Hart => if h.bound && h.task.serial == serial then f h else h
  { s with hart := g s.hart, others := s.others.map g, parked := s.parked.map g }

/-- Change the bound hart of a name. -/
def State.onBound (s : State) (n : HartName) (f : Hart → Hart) : State :=
  let g := fun h : Hart => if h.bound && h.name == n then f h else h
  { s with hart := g s.hart, others := s.others.map g }

/-- Put a hart back among the others. -/
def putHart (hs : List Hart) (h : Hart) : List Hart := h :: hs.filter fun k => k.name != h.name

/-- Put a cluster back among the others. -/
def putCluster (cs : List Cluster) (c : Cluster) : List Cluster := c :: cs.filter fun k => k.num != c.num

/-- The hart of a name, wherever it stands. -/
def State.hartAt (s : State) (n : HartName) : Hart :=
  if s.hart.name = n then s.hart else (s.others.find? fun h => h.name == n).getD (Hart.reset n)

/-- The cluster of a number. -/
def State.clusterAt (s : State) (n : Nat) : Cluster :=
  if s.cluster.num = n then s.cluster else (s.clusters.find? fun c => c.num == n).getD (Cluster.reset n)

/-- Bring a hart and its cluster to the front. -/
def State.focus (s : State) (n : HartName) : State :=
  let s1 :=
    if s.hart.name = n then s
    else { s with hart := s.hartAt n, others := (putHart s.others s.hart).filter fun h => h.name != n }
  if s.cluster.num = n.cluster then s1
  else
    { s1 with
      cluster := s.clusterAt n.cluster
      clusters := (putCluster s.clusters s.cluster).filter fun c => c.num != n.cluster }

/-- Do something at each of some harts, each brought to the front, then bring back the one that was in front. -/
def State.atHarts (s : State) (ns : List HartName) (f : State → State) : State :=
  (ns.foldl (fun t n => f (t.focus n)) s).focus s.hart.name

/-- The harts of the cluster in front, that in front first. -/
def State.clusterHarts (s : State) : List Hart :=
  s.hart :: s.others.filter fun h => h.name.cluster == s.hart.name.cluster

/-! ### The end of a task and of a launch (R91, R176, R351) -/

/-- Delete the phasers a launch created; callers still waiting find them gone (R91, R99). -/
def State.deletePhasers (s : State) (launch : Nat) : State :=
  { s with phasers := s.phasers.filter fun p => p.launch != launch }

/-- When the last task of a launch has ended, delete its phasers, post its completion record and end its lease (R91, R176).
Its windows go on counting what was sent from them (R232). -/
def State.launchEnds (s : State) (id : Nat) : State :=
  match s.launch? id with
  | some l =>
    if l.live = 0 then
      ({ s.deletePhasers id with
        launches := s.launches.filter (fun k => k.id != id), ended := s.ended ++ [l] }).post 0
        (.launchDone id l.record.ctxId l.exited l.terminated)
    else s
  | none => s

/-- The hart of a name with no task, in its core's partition. -/
def Hart.vacated (h : Hart) : Hart := { Hart.reset h.name with part := h.part, retired := h.retired }

/-- The hart of a name whose task has ended: its token table stays, since the slots of puts that have not landed are busy
(R236); nothing is delivered for them any more (R238). -/
def Hart.unbound (h : Hart) : Hart :=
  { h.vacated with tokens := h.tokens.map fun k => { k with undelivered := false }, tokOrder := h.tokOrder }

/-- Give the open claim of a task the end ABORTED in `CLSTAT`, and forget it (R261). -/
def State.abortClaims (s : State) (serial : Nat) : State :=
  { s.onTask serial (fun h => if bits h.clstat.toNat 2 0 = 1 then { h with clstat := setBits h.clstat 0 3 5 } else h) with
    claims := s.claims.filter fun c => c.serial != serial }

/-- The slots a task's `qfill`s still have to fill leave their queues (R194). -/
def Cluster.withdraw (c : Cluster) (owner : Nat) : Cluster :=
  { c with queues := c.queues.map fun q => q.filter fun d => !(d.owner == owner && d.bytes.isNone) }

/-- End notices of a task's open claim, to every member (R257). -/
def State.endNotices (s : State) (serial : Nat) : State :=
  { s with
    egress := s.egress ++ (s.claims.filter fun c => c.serial == serial).flatMap fun c =>
      (s.claimMembers c.prop).map fun d => Msg.ended c.prop d }

/-- A hart no longer waits at a delivery queue or a pool (R204, R344). -/
def Cluster.unqueue (c : Cluster) (n : HartName) : Cluster :=
  { c with
    poppers := c.poppers.map fun q => q.filter fun p => p.name != n
    stallers := c.stallers.map fun q => q.filter fun p => p.name != n }

/-- The stop of a tenant is over: no hart of it is bound and no token of it is out. Its completion is posted (R277). -/
def State.stopOver (s : State) (tenant : Nat) : State :=
  match s.tenants.find? fun t => t.id == tenant with
  | some t =>
    match t.owed with
    | some c =>
      if (s.hart :: s.others).all (fun h => !h.bound || h.task.tenant != tenant)
          && s.puts.all (fun p => p.msg.tenant != tenant || p.expired) then
        let clear := fun t : Tenant => if t.id = tenant then { t with owed := none } else t
        { s with tenants := s.tenants.map clear }.post c (.status 0 0 0 0)
      else s
    | none => s
  | none => s

/-- The package drops its cache-remote lines (R169). -/
def State.dropLines (s : State) : State := { s with lines := [] }

/-- The cache-remote lines that no page of mode 2 holds any more go: other modes cache nothing of a peer (R169). -/
def State.keepLines (s : State) : State :=
  { s with lines := s.lines.filter fun x => s.leaves.any fun l => pteMode l.pte = 2 && l.maps x.asid x.va }

/-- A write of `n` bytes went past the open strip (R221). -/
def Hart.wentPast (h : Hart) (va n : Nat) : Hart :=
  if h.strip = [] then h
  else
    { h with
      strip := h.strip ++ [{ va := BitVec.ofNat 64 va, bytes := List.replicate n 0, cls := 0, bypass := true }] }

/-- A store enters the open strip (R219, R346). -/
def Hart.buffered (h : Hart) (va : Nat) (bs : List Byte) (c : Fin 16) : Hart :=
  { h with strip := h.strip ++ [{ va := BitVec.ofNat 64 va, bytes := bs, cls := c, bypass := false }] }

/-- What the hart in front left for later performs: a store at its translation, or into the strip it was issued in, past one that a
handler meets; a fence's wait is over (R86, R184, R221, R346). -/
def State.performLate (s : State) (l : Late) : Except Nat State :=
  match l with
  | .store va bs c _ _ =>
    if s.hart.inStrip then .ok (s.onHart fun h => h.buffered va.toNat bs c)
    else (s.writeAt s.hart.task.asid va.toNat bs).map fun t => t.onHart fun h => h.wentPast va.toNat bs.length
  | .fence _ drops _ _ => .ok (if drops then s.dropLines else s)

/-- All that the hart in front has left for later performs as its task ends, oldest first; what no longer translates is lost
(R86). -/
def State.flushLate (s : State) : State :=
  let t := s.hart.late.foldl (fun t l => match t.performLate l with | .ok u => u | .error _ => t) s
  t.onHart fun h => { h with late := [] }

/-- The task leaves its hart: its phaser memberships and open claim go, its checkpoint is forgotten, the launch counts it,
the hart is unbound, and a stop of its tenant may be over (R91, R199, R214, R277, R351). -/
def State.leave (s : State) (terminated : Bool) : State :=
  let k := s.hart.task
  let s1 := (((s.flushLate.dropMember s.hart.name).endNotices k.serial).abortClaims k.serial).onCluster
    fun c => c.unqueue s.hart.name
  let s2 := { s1 with ckpts := s1.ckpts.filter fun c => c.2.2.task.serial != k.serial }
  let s3 := s2.onLaunch k.launch fun l =>
    { l with live := l.live - 1, exited := l.exited + (!terminated).toNat, terminated := l.terminated + terminated.toNat }
  ((s3.onHart Hart.unbound).launchEnds k.launch).stopOver k.tenant

/-! ### Taking an exception (R207), and termination (R214) -/

/-- Discard the open strip (R221). -/
def Hart.discardStrip (h : Hart) : Hart :=
  { ((h.setSt 13 false).setSt 14 true) with strip := [], stripfault := h.stripbase }

/-- End the task alone: its termination record, then the four steps of R214. The record names the hart's pc. -/
def State.terminate (s : State) (cause : Nat) (tval item backing : Word) : State :=
  let h := s.hart
  let r : TermRec :=
    { ctxId := h.task.ctxId, leaseId := h.task.leaseId, index := h.task.index, cause := cause, stripLost := h.st 13,
      pfxv := h.st 15, hartid := h.id, pc := h.pc, tval := tval, item := item, backing := backing,
      stripfault := if h.st 13 then h.stripbase else 0, refTick := s.cluster.refTick }
  let s1 := s.onCluster fun c => c.withdraw h.task.serial
  (s1.post 0 (.termination h.task.launch r)).leave true

/-- Enter level K (R207). `pfx` is what `PFXSTATE` receives and `pfxv` what PFXV becomes (R64). -/
def Hart.enterK (h : Hart) (cause tval : Word) (pfx : BitVec 26) (pfxv : Bool) : Hart :=
  let h1 := (((h.setSt 15 pfxv).setSt 12 (h.level == .k)).setSt 11 (h.st 10)).setSt 10 false
  { h1 with
    loaded := [], unitsDone := []
    epc := h.pc &&& ~~~(3 : Word), cause := cause, tval := tval, pfxstate := pfx.setWidth 64, level := .k, pc := h.tvec, lent := none,
    loopK := [] }

/-- What R64 writes when a trap splits a pair or its successor faults: the lent bits and PFXV. -/
def Hart.lentSave (h : Hart) : BitVec 26 × Bool := match h.lent with | some b => (b, true) | none => (0, false)

/-- Take an exception of the instruction in front, with the prefix state given (R207). -/
def State.raiseWith (s : State) (cause : Nat) (tval : Word) (pfx : BitVec 26) (pfxv : Bool) : State :=
  if s.hart.tvec = 0 then s.terminate cause tval 0 0
  else
    s.onHart fun h => (if h.inStrip then h.discardStrip else h).enterK (BitVec.ofNat 64 cause) tval pfx pfxv

/-- `raise(cause, tval)` of R82: take an exception (R64, R207). -/
def State.raise (s : State) (cause : Nat) (tval : Word) : State :=
  s.raiseWith cause tval s.hart.lentSave.1 s.hart.lentSave.2

/-- Raise `ILLEGAL` on an instruction, with its word in `TVAL` (R78). -/
def State.illegal (s : State) (i : Instr) : State := s.raise 0x01 (i.word.setWidth 64)

/-- Take an interrupt; the strip stays open and RIP is cleared (R207, R210, R221). -/
def State.interrupt (s : State) (cause : Nat) : State :=
  s.onHart fun h =>
    (h.setSt 8 false).enterK (BitVec.ofNat 64 (2 ^ 63 + cause)) 0 h.lentSave.1 h.lentSave.2

/-- Deliver the asynchronous fault `TOKEXP` of a token; the strip stays open (R207, R221, R238). -/
def State.asyncFault (s : State) (cause : Nat) (tval : Word) : State :=
  if s.hart.tvec = 0 then s.terminate cause tval 0 0
  else s.onHart fun h => h.enterK (BitVec.ofNat 64 cause) tval h.lentSave.1 h.lentSave.2

/-- End the task with cause `LEASE` at the first failing virtual address (R177). -/
def State.leaseFault (s : State) (va : Nat) : State := s.terminate 0x20 (BitVec.ofNat 64 va) 0 0

/-- End the task with cause `LEASE` at a failing element of a vector access (R178). -/
def State.leaseFaultAt (s : State) (va i : Nat) : State := s.terminate 0x20 (BitVec.ofNat 64 va) (BitVec.ofNat 64 i) 0

/-- End the task with cause `XLATE` (R167, R230). -/
def State.xlateFault (s : State) (va : Nat) : State := s.terminate 0x21 (BitVec.ofNat 64 va) 0 0

/-- What an access that does not translate makes of a part: the end of the task with `XLATE`. -/
def State.orXlate {α : Type} (s : State) (r : Except Nat α) : Part α :=
  match r with
  | .ok x => .ok x
  | .error a => .error (s.xlateFault a)

/-! ### What the scalar stream leaves for later (R86, R181, R183, R184, R308) -/

/-- The pc of what was left for later. -/
def Late.pc (l : Late) : Word := match l with | .store _ _ _ pc _ => pc | .fence _ _ pc _ => pc

/-- How many of the queued instructions are older. -/
def Late.young (l : Late) : Nat := match l with | .store _ _ _ _ n => n | .fence _ _ _ n => n

/-- The oldest queued instruction has retired. -/
def Late.aged (l : Late) : Late :=
  match l with | .store va bs c pc n => .store va bs c pc (n - 1) | .fence m d pc n => .fence m d pc (n - 1)

/-- An earlier entry is ordered before a later one: two stores of one class, of class 15, or with bytes in common (R181, R183); a
store and a fence whose mask has its class, either way (R184). Of two fences neither waits for the other, but for what both
wait for. -/
def Late.ordered (a b : Late) : Bool :=
  match a, b with
  | .store va xs c _ _, .store vb ys d _ _ =>
    c == d || c == 15 || d == 15
      || (decide (va.toNat < vb.toNat + ys.length) && decide (vb.toNat < va.toNat + xs.length))
  | .store _ _ c _ _, .fence m _ _ _ | .fence m _ _ _, .store _ _ c _ _ => m.getLsbD c.val
  | .fence .., .fence .. => false

/-- A load of a class does not go past the entry: a store of that class or of class 15, any store where the load's is 15 (R183), a
fence that holds the class (R184). -/
def Late.holds (l : Late) (c : Fin 16) : Bool :=
  match l with
  | .store _ _ d _ _ => c == d || c == 15 || d == 15
  | .fence m _ _ _ => m.getLsbD c.val

/-- It is a fence that waits for nothing of what is left before it. -/
def Late.isOver (l : Late) (kept : List Late) : Bool :=
  match l with
  | .fence .. => !kept.any fun k => k.ordered l
  | .store .. => false

/-- A fence that is over drops the cache-remote lines. -/
def Late.drops (l : Late) : Bool := match l with | .fence _ d _ _ => d | .store .. => false

/-- The fences for which nothing earlier is left that is ordered before them are over; `kept` is what stays before `ls`. -/
def State.releaseFrom (s : State) (kept ls : List Late) : State :=
  match ls with
  | [] => s.onHart fun h => { h with late := kept }
  | l :: r =>
    if l.isOver kept then (if l.drops then s.dropLines else s).releaseFrom kept r else s.releaseFrom (kept ++ [l]) r

/-- The fences of the hart in front whose wait is over go (R184). -/
def State.releaseFences (s : State) : State := s.releaseFrom [] s.hart.late

/-- What was left for later waits at a page that is marked busy (R171). -/
def State.lateBusy (s : State) (l : Late) : Bool :=
  match l with
  | .store va bs _ _ _ => !s.hart.inStrip && s.atBusy s.hart.task.asid va.toNat bs.length
  | .fence .. => false

/-- A store left for later does not translate: its instruction ends the task, and of what is left only `older` performs (R82,
R167). -/
def State.lateFault (s : State) (older : List Late) (l : Late) (va : Nat) : State :=
  (s.onHart fun h => { h with pc := l.pc, late := older }).xlateFault va

/-- A list of what was left for later performs, oldest first, up to one that waits at a busy page (R171); a store that does not
translate ends the task (R167). -/
def State.drainFrom (s : State) (ls : List Late) : Part State :=
  match ls with
  | [] => .ok (s.onHart fun h => { h with late := [] })
  | l :: r =>
    if s.lateBusy l then .error (s.onHart fun h => { h with late := l :: r })
    else
      let t := s.onHart fun h => { h with late := r }
      match t.performLate l with
      | .ok u => u.drainFrom r
      | .error a => .error (t.lateFault [] l a)

/-- All that the hart in front has left for later performs (R86, R167). -/
def State.drainLate (s : State) : Part State := s.drainFrom s.hart.late

/-! ### Going on (R291, R316 to R318) -/

/-- The loop stack of the hart's level (R318). -/
def Hart.loops (h : Hart) : List Loop := if h.level = .t then h.loopT else h.loopK

/-- Replace the loop stack of the hart's level. -/
def Hart.setLoops (h : Hart) (l : List Loop) : Hart :=
  if h.level = .t then { h with loopT := l } else { h with loopK := l }

/-- The end check at word `pc` (R317): the stack after it, and where a repeated body continues. -/
def loopEnd (pc : Word) (st : List Loop) : List Loop × Option Word :=
  match st with
  | [] => ([], none)
  | l :: r =>
    if l.e = pc then
      if 1 < l.count.toNat then ({ l with count := l.count - 1 } :: r, some l.s) else loopEnd pc r
    else (l :: r, none)

/-- The body of a loop holds an address (R318). -/
def Loop.holds (l : Loop) (t : Word) : Bool := l.s.toNat ≤ t.toNat && t.toNat ≤ l.e.toNat

/-- What a jump to `t` leaves of the stack: an entry whose body does not hold `t` goes, with every inner one (R318). -/
def unwind (t : Word) (st : List Loop) : List Loop :=
  match st with
  | [] => []
  | l :: r => if (unwind t r).length = r.length && l.holds t then l :: r else unwind t r

/-- A hart as a queued instruction sees it: at its address, with what it took at issue (R213). -/
def Hart.asIssued (h : Hart) (q : Queued) : Hart :=
  { h.setLoops q.loops with
    loaded := [], unitsDone := [], pc := q.pc, x := q.x, vl := q.vl, vstart := 0, classmap := q.classmap, seed := q.seed
    stripbase := q.stripbase, rmode := q.rmode, lent := q.lent }

/-- What the oldest queued instruction is younger than, of what the scalar stream left for later. -/
def Hart.older (h : Hart) : List Late := h.late.filter fun l => l.young == 0

/-- A stop point falls on the oldest queued instruction, which waits: the hart is back there, and what is younger is squashed
(R213, log entry 10). -/
def State.squash (s : State) : State :=
  match s.hart.vqueue with
  | [] => s
  | q :: _ => s.onHart fun h => { h.asIssued q with vqueue := [], late := h.older, unitsDone := q.done }

/-- End the task where no instruction of the scalar stream raised the cause: at its stop point, the oldest instruction that has not
retired (R213, R214). -/
def State.terminateAtStop (s : State) (cause : Nat) (tval item backing : Word) : State := s.squash.terminate cause tval item backing

/-- Continue at `t`, the loop stack being `st`; outside the exec sections the task ends (R291). -/
def State.continueAt (s : State) (t : Word) (st : List Loop) : State :=
  if s.hart.task.mayFetch t.toNat then s.onHart fun h => { h.setLoops st with pc := t, lent := none }
  else s.leaseFault t.toNat

/-- The instruction completes and falls through (R317). -/
def State.retire (s : State) : State :=
  let r := loopEnd s.hart.pc s.hart.loops
  s.continueAt (r.2.getD (s.hart.pc + 4)) r.1

/-- The instruction jumps or takes its branch to `t` (R318). -/
def State.jump (s : State) (t : Word) : State := s.continueAt t (unwind t s.hart.loops)

/-! ### Memory accesses of an instruction (R82, R177 to R182) -/

/-- Check `n` bytes for read under the lease. -/
def State.checkRead (s : State) (va n : Nat) : Part Unit :=
  match firstBad s.hart.task.mayRead va n with
  | some a => .error (s.leaseFault a)
  | none => .ok ()

/-- Check `n` bytes for write under the lease. -/
def State.checkWrite (s : State) (va n : Nat) : Part Unit :=
  match firstBad s.hart.task.mayWrite va n with
  | some a => .error (s.leaseFault a)
  | none => .ok ()

/-- The byte at `a` of a store at `va`, or `x`. -/
def laidOver (va : Nat) (bytes : List Byte) (a : Nat) (x : Byte) : Byte :=
  if va ≤ a ∧ a < va + bytes.length then bytes.getD (a - va) x else x

/-- The hart's own buffered bytes laid over what memory holds, `bs` (R182, R218): its latest store to each byte, which stands in
memory where it went past the strip. -/
def overlay (st : List StripStore) (va : Nat) (bs : List Byte) : List Byte :=
  bs.zipIdx.map fun (x, i) =>
    st.foldl (fun y b => if b.bypass then laidOver b.va.toNat (b.bytes.map fun _ => x) (va + i) y
      else laidOver b.va.toNat b.bytes (va + i) y) x

/-- The byte at `a` after what was left for later, or `x`. -/
def Late.over (l : Late) (a : Nat) (x : Byte) : Byte :=
  match l with
  | .store va bs _ _ _ => laidOver va.toNat bs a x
  | .fence .. => x

/-- The scalar stores of the hart that have not performed, laid over what it reads in its scalar stream (R86, R182). -/
def overlayLate (st : List Late) (va : Nat) (bs : List Byte) : List Byte :=
  bs.zipIdx.map fun (x, i) => st.foldl (fun y b => b.over (va + i) y) x

/-- Read `n` bytes that the lease admits. -/
def State.readMem (s : State) (va n : Nat) : Part (List Byte) :=
  s.orXlate ((s.readAt s.hart.task.asid va n).map fun bs => overlay s.hart.strip va bs)

/-- Write bytes that the lease admits. -/
def State.writeMem (s : State) (va : Nat) (bs : List Byte) : Part State :=
  s.orXlate ((s.writeAt s.hart.task.asid va bs).map fun t => t.onHart fun h => h.wentPast va bs.length)

/-- `load(a, n, c)` of R82: the bytes read, and the state with the access counted. -/
def State.load (s : State) (va n : Nat) : Part (List Byte × State) :=
  match s.checkRead va n with
  | .error t => .error t
  | .ok _ =>
    match s.readMem va n with
    | .ok bs => .ok (overlayLate s.hart.late va bs, s.count s.hart.task.asid va n)
    | .error t => .error t

/-- The 16-byte granules of a list of buffered stores (R219). -/
def granules (st : List StripStore) : List Nat :=
  ((st.filter fun b => !b.bypass).flatMap fun b =>
    (List.range ((b.va.toNat + b.bytes.length + 15) / 16 - b.va.toNat / 16)).map (b.va.toNat / 16 + ·)).dedup

/-- Buffer a store in the open strip, or raise `STRIPOVF` (R219). -/
def State.buffer (s : State) (va : Nat) (bs : List Byte) (c : Fin 16) : Part State :=
  let t := s.onHart fun h => h.buffered va bs c
  if (granules t.hart.strip).length ≤ s.hart.lanes * 512 then .ok t else .error (s.raise 0x11 (BitVec.ofNat 64 va))

/-- Store bytes that the lease admits: into the open strip at level T, else into memory (R219). -/
def State.putStore (s : State) (va : Nat) (bs : List Byte) (c : Fin 16) : Part State :=
  if s.hart.inStrip then s.buffer va bs c else s.writeMem va bs

/-- `store(a, n, d, c)` of R82. -/
def State.store (s : State) (va : Nat) (bs : List Byte) (c : Fin 16) : Part State :=
  match s.checkWrite va bs.length with
  | .error t => .error t
  | .ok _ => s.putStore va bs c

/-- Raise `STRIPILL` at level T inside a strip (R220). -/
def State.noStrip (s : State) : Part Unit := stopIf s.hart.inStrip (s.raise 0x10 0)

/-! ### Which harts run what (R72, R78) -/

/-- Trap `ILLEGAL` on an access hart. -/
def State.computeOnly (s : State) (i : Instr) : Part Unit := stopIf s.hart.name.ah (s.illegal i)

/-- Trap `ILLEGAL` at level T. -/
def State.levelK (s : State) (i : Instr) : Part Unit := stopIf (s.hart.level = .t) (s.illegal i)

/-! ### The return from an exception (R64, R208, R318) -/

/-- What `eret` to level T leaves of the stack: an entry whose [S, E + 4] does not hold `EPC` goes, and every inner one. -/
def unwindEret (t : Word) (st : List Loop) : List Loop :=
  match st with
  | [] => []
  | l :: r =>
    if (unwindEret t r).length = r.length && l.s.toNat ≤ t.toNat && t.toNat ≤ l.e.toNat + 4 then l :: r
    else unwindEret t r

/-- Level, IE and the loop stack after `eret`, and where it continues: an `EPC` of E + 4 runs the end check of E. -/
def Hart.leaveK (h : Hart) : Hart × Word × List Loop :=
  let lvl := if h.st 12 then Level.k else Level.t
  let h1 := { h.setSt 10 (h.st 11) with level := lvl }
  if lvl = .k then (h1, h.epc, h.loopK)
  else
    let st := unwindEret h.epc h.loopT
    match st with
    | l :: _ =>
      if h.epc = l.e + 4 then
        let r := loopEnd l.e st
        (h1, r.2.getD h.epc, r.1)
      else (h1, h.epc, st)
    | [] => (h1, h.epc, [])

end Sys2Proof.Machine
end

