-- ==== Sys2Proof/Machine/Operands.lean ====
section
/-! DEFINITION. Operand forms: immediates and shift counts, scalar values, vector elements and predicates, vector lengths,
the scratchpad's rows and control words, and tiles under the map. -/

namespace Sys2Proof.Machine

/-! ### Scalars -/

/-- A 16-bit immediate, sign-extended to 64 bits (R54). -/
def imm16 (i : BitVec 16) : Word := i.signExtend 64

/-- A 21-bit immediate times 2^16, sign-extended from 37 bits (R295, R319). -/
def imm21 (i : BitVec 21) : Word := (i.signExtend 64) <<< 16

/-- A word offset of a branch or jump, in bytes (R54, R296, R312). -/
def wordOff {n : Nat} (off : BitVec n) : Word := (off.signExtend 64) <<< 2

/-- The bytes of a width code 0 to 3 (R67). -/
def widthBytes (w : Fin 4) : Nat := 2 ^ w.val

/-- The bytes a load moves (R67, R314). -/
def ldBytes (w : LdW) : Nat :=
  match w with
  | .n8 | .s8 => 1
  | .n16 | .s16 => 2
  | .n32 | .s32 => 4
  | .n64 => 8

/-- What a load writes: sign-extended for an `s` width, else zero-extended (R67, R314). -/
def ldExtend (w : LdW) (v : Nat) : Word :=
  match w with
  | .s8 => (BitVec.ofNat 8 v).signExtend 64
  | .s16 => (BitVec.ofNat 16 v).signExtend 64
  | .s32 => (BitVec.ofNat 32 v).signExtend 64
  | _ => BitVec.ofNat 64 v

/-- The address xa + imm of a scalar access (R314, R348). -/
def State.addr (s : State) (a : XReg) (imm : BitVec 16) : Word := s.getX a + imm16 imm

/-! ### Vector length -/

/-- The bits of a width code (R57). -/
def codeBits (w : Nat) : Nat := 8 * 2 ^ w

/-- `vlmax` (R80). -/
def Hart.vlmax (h : Hart) (w : Nat) : Nat := h.lanes * 2048 / w

/-- `VL`.LEN. -/
def Hart.len (h : Hart) : Nat := bits h.vl.toNat 13 0

/-- `VL`.W. -/
def Hart.vw (h : Hart) : Nat := bits h.vl.toNat 15 14

/-- The element count and width code a copy or remote word takes: on an access hart LEN 128, W 0 (R193). -/
def Hart.copyLen (h : Hart) : Nat := if h.name.ah then 128 else h.len

/-- The width of the elements of a copy in bytes (R155, R193). -/
def Hart.copyWidth (h : Hart) : Nat := if h.name.ah then 1 else 2 ^ h.vw

/-- The bytes of a copy: `VL`.LEN × 2^`VL`.W (R155, R193). -/
def Hart.copyBytes (h : Hart) : Nat := h.copyLen * h.copyWidth

/-- A word with LEN and W in the layout of `VL` (R104). -/
def vlWord (w len : Nat) : Word := BitVec.ofNat 64 (w % 4 * 2 ^ 14 + len % 2 ^ 14)

/-- `VSTART` as a number (R104). -/
def Hart.start (h : Hart) : Nat := bits h.vstart.toNat 13 0

/-! ### Vector registers and predicates (R80) -/

/-- The bytes of a vector register. -/
def Hart.getV (h : Hart) (r : VReg) : Bytes := h.v.get r

/-- Replace the bytes of a vector register. -/
def Hart.setV (h : Hart) (r : VReg) (b : Bytes) : Hart := { h with v := h.v.set r.val b }

/-- Element `i` of width `w` bits of a vector register's bytes (`elem`, R80). -/
def elem (b : Bytes) (i w : Nat) : Nat := b.val (i * (w / 8)) (w / 8)

/-- Write element `i` of width `w` bits. -/
def setElem (b : Bytes) (i w v : Nat) : Bytes := b.put (i * (w / 8)) (leBytes (w / 8) v)

/-- Bit `i` of a predicate register; `p0` reads all ones (R3). -/
def Hart.pbit (h : Hart) (r : PReg) (i : Nat) : Bool := r = 0 || ((h.p.get r).get (i / 8)).getLsbD (i % 8)

/-- Write bit `i` of a predicate register; a write to `p0` is discarded (R3). -/
def Hart.setP (h : Hart) (r : PReg) (i : Nat) (b : Bool) : Hart :=
  if r = 0 then h
  else
    let bs := h.p.get r
    let old := bs.get (i / 8)
    let m : Byte := BitVec.ofNat 8 (2 ^ (i % 8))
    { h with p := h.p.set r.val (bs.put (i / 8) [if b then old ||| m else old &&& ~~~m]) }

/-- `pred(pm, i)` (R80). -/
def Hart.pred (h : Hart) (pm : PReg) (i : Nat) : Bool :=
  if h.lentPm ≠ 0 || h.lentPn then xor (h.pbit h.lentPm i) h.lentPn else h.pbit pm i

/-- The active indices below `n`, from `start`, in ascending order. -/
def Hart.active (h : Hart) (pm : PReg) (start n : Nat) : List Nat :=
  (List.range n).filter fun i => decide (start ≤ i) && h.pred pm i

/-- Write the results of elements of width `w` into a vector register. -/
def putElems (b : Bytes) (w : Nat) (rs : List (Nat × Nat)) : Bytes :=
  rs.foldl (fun b r => setElem b r.1 w r.2) b

/-- Write units of `n` bytes into a vector register. -/
def putUnits (b : Bytes) (n : Nat) (rs : List (Nat × List Byte)) : Bytes :=
  rs.foldl (fun b r => b.put (r.1 * n) r.2) b

/-- Write element results to vd, and to v[dc] under `dk` = 2 (R63). -/
def Hart.writeElems (h : Hart) (d : VReg) (w : Nat) (rs : List (Nat × Nat)) : Hart :=
  let h1 := h.setV d (putElems (h.getV d) w rs)
  if h.lentDk = 2 then h1.setV h.lentDc (putElems (h1.getV h.lentDc) w rs) else h1

/-- Write unit results to vd, and to v[dc] under `dk` = 2 (R63). -/
def Hart.writeUnits (h : Hart) (d : VReg) (n : Nat) (rs : List (Nat × List Byte)) : Hart :=
  let h1 := h.setV d (putUnits (h.getV d) n rs)
  if h.lentDk = 2 then h1.setV h.lentDc (putUnits (h1.getV h.lentDc) n rs) else h1

/-- A vector instruction completes: `VSTART` := 0 and fall through. -/
def State.vretire (s : State) : State := (s.onHart fun h => { h with vstart := 0 }).retire

/-! ### Stop points inside a vector instruction (R153, R217, R222) -/

/-- The elements of width `w` bits of an element group: those at one depth across the hart's lanes (R222). -/
def Hart.groupOf (h : Hart) (w : Nat) : Nat := max 1 (h.lanes * 32 / w)

/-- Where an instruction of `n` elements that begins at `start` ends in this turn: at `n`, or where the turn has it stop, at
a multiple of `unit`. -/
def State.cut (s : State) (unit start n : Nat) : Nat :=
  match s.how with
  | .part k => min n ((start / unit + k + 1) * unit)
  | _ => n

/-- A write of the destination, or of its copy under `dk` = 2, is a write of register `a`. -/
def Hart.overwrites (h : Hart) (d a : VReg) : Bool := d == a || (h.lentDk = 2 && h.lentDc == a)

/-- A vector instruction of `n` elements has done those below `stop`: it completes, or stops there with `VSTART` naming the
first element not done, to go on at its next turn. -/
def State.vend (s : State) (stop n : Nat) : State :=
  if stop < n then s.onHart fun h => { h with vstart := BitVec.ofNat 64 stop } else s.vretire

/-! ### Units of vector memory (R365) -/

/-- The bytes of a unit (R57, R365). -/
def ewBytes : EW → Nat
  | .b8 => 1 | .b16 => 2 | .b32 => 4 | .b64 => 8 | .blk => 16

/-- The unit count of `VL` for a width: elements, or blocks of twenty (R365). -/
def Hart.units (h : Hart) (w : EW) : Nat :=
  min (if w = .blk then (h.len + 19) / 20 else h.len) (h.vlmax (8 * ewBytes w))

/-! ### The scratchpad (R150 to R152) -/

/-- The size of a scratchpad (R150). -/
def spSize : Nat := 2 ^ 21

/-- DIR of a scratchpad control word (R151). -/
def cwDir (cw : Nat) : Nat := bits cw 1 0
/-- ROT. -/
def cwRot (cw : Nat) : Nat := bits cw 3 2
/-- RPITCH, in bytes. -/
def cwRpitch (cw : Nat) : Nat := 16 * bits cw 21 4
/-- TPITCH, in bytes. -/
def cwTpitch (cw : Nat) : Nat := 128 * bits cw 35 22

/-- The chunk a row's chunk `c` lies in under ROT, for row index `rho` (R152). -/
def rotChunk (rot c rho : Nat) : Nat :=
  if rot = 1 then c ^^^ (rho % 8) else if rot = 2 then (c + rho) % 8 else c

/-- The offset of byte `q` of a row that starts at `row` (R152). -/
def rowByte (rot row rho q : Nat) : Nat := row + 16 * rotChunk rot (q / 16) rho + q % 16

/-- The offset of byte `b` of a contiguous access at `o0` whose first row has index `rho` (R152). -/
def spByte (rot o0 rho b : Nat) : Nat := rowByte rot (o0 + 128 * (b / 128)) (rho + b / 128) (b % 128)

/-- The requirement of R152 on the base offset: `unit` is what ROT 0 asks it to be a multiple of. -/
def rotOk (rot o0 unit : Nat) : Bool :=
  if rot = 0 then o0 % unit == 0 else if rot = 3 then false else o0 % 128 == 0

/-- The requirement of R152 on a pitched access. -/
def pitchOk (cw o0 : Nat) : Bool :=
  if cwRot cw = 0 then o0 % 16 == 0
  else if cwRot cw = 3 then false else o0 % 128 == 0 && bits cw 21 4 % 8 == 0

/-- The first offset at or above the scratchpad's end among some offsets (R150). -/
def firstOver (offs : List Nat) : Option Nat := offs.find? fun o => spSize ≤ o

/-- Raise `SPRANGE` at an offset (R150). -/
def State.spRange (s : State) (offs : List Nat) : Part Unit :=
  match firstOver offs with
  | some o => .error (s.raise 0x0A (BitVec.ofNat 64 o))
  | none => .ok ()

/-- Raise `SPCTL` with a control word when a check fails (R151). -/
def State.spCtl (s : State) (bad : Bool) (cw : Word) : Part Unit := stopIf bad (s.raise 0x0B cw)

/-- A byte of the scratchpad of the cluster in front. -/
def State.spGet (s : State) (o : Nat) : Byte := s.cluster.sp.get o

/-- Write bytes at offsets of the scratchpad. -/
def State.spPut (s : State) (ws : List (Nat × Byte)) : State :=
  s.onCluster fun c => { c with sp := ws.foldl (fun b w => b.put w.1 [w.2]) c.sp }

/-! ### Tiles (R107 to R119) -/

/-- The bytes of a tile and of a tile row. -/
def tileSize : Nat := 4096

/-- The backing address of a tile of a context (R107). -/
def backing (base : Word) (t : Nat) : Nat := base.toNat + tileSize * t

/-- The context in front: the last installed (R111). -/
def Hart.ctx (h : Hart) : TileCtx := h.ctxs.getLastD (TileCtx.all h.mapbase .absent)

/-- The state of a tile of the current context. -/
def Hart.tile (h : Hart) (t : TReg) : Tile := h.ctx.tiles.get t

/-- Set the state of a tile of the current context. -/
def Hart.setTile (h : Hart) (t : TReg) (x : Tile) : Hart :=
  { h with ctxs := h.ctxs.dropLast ++ [{ h.ctx with tiles := h.ctx.tiles.set t.val x }] }

/-- End the task with a lease fault of a tile (R119). -/
def State.tileFault (s : State) (t : TReg) : State :=
  let a := BitVec.ofNat 64 (backing s.hart.mapbase t.val)
  s.terminate 0x20 a (BitVec.ofNat 64 t.val) a

/-- The bytes of the 64 KiB page a tile's backing stands in may be read, or written (R119). -/
def State.tileMay (s : State) (t : TReg) (write : Bool) : Bool :=
  let a := backing s.hart.mapbase t.val
  if write then s.hart.task.mayWrite a else s.hart.task.mayRead a

/-- End the task with `XLATE` at a tile's backing (R119, R214). -/
def State.tileXlate (s : State) (t : TReg) (va : Nat) : State :=
  s.terminate 0x21 (BitVec.ofNat 64 va) (BitVec.ofNat 64 t.val) (BitVec.ofNat 64 (backing s.hart.mapbase t.val))

/-! ### The slots of a cluster's tile store (R11, R109) -/

/-- A tile of a held context. -/
def Hart.tileIn (h : Hart) (base : Word) (t : TReg) : Option Tile :=
  (h.ctxs.find? fun c => c.base == base).map fun c => c.tiles.get t

/-- Set a tile of a held context. -/
def Hart.setTileIn (h : Hart) (base : Word) (t : TReg) (x : Tile) : Hart :=
  { h with ctxs := h.ctxs.map fun c => if c.base = base then { c with tiles := c.tiles.set t.val x } else c }

/-- A slot holds the tile. -/
def Tile.held (t : Tile) : Bool := match t with | .clean _ | .dirty _ => true | .absent | .undefined => false

/-- The tile is Clean. -/
def Tile.isClean (t : Tile) : Bool := match t with | .clean _ => true | _ => false

/-- The slots a hart's contexts hold. -/
def Hart.slots (h : Hart) : Nat := (h.ctxs.map fun c => (c.tiles.toList.filter Tile.held).length).sum

/-- The contexts whose tiles are in the tile store of the cluster in front. -/
def State.storeHarts (s : State) : List Hart :=
  s.clusterHarts ++ s.parked.filter fun h => h.name.cluster == s.hart.name.cluster

/-- The slots reserved for each bound compute hart (R114). -/
def slotShare : Nat := 16

/-- The slots a hart's contexts hold beyond those reserved for it: all of them where it has left its hart. -/
def Hart.sharedSlots (h : Hart) (parked : Bool) : Nat := if parked then h.slots else h.slots - slotShare

/-- The slots of the cluster's 4,096 that no bound compute hart has reserved, and how many of them are held (R11, R114). -/
def State.sharedSlots (s : State) : Nat × Nat :=
  let here := s.clusterHarts.filter fun h => h.bound && !h.name.ah
  let away := s.parked.filter fun h => h.name.cluster == s.hart.name.cluster
  (4096 - slotShare * here.length, (here.map (·.sharedSlots false)).sum + (away.map (·.sharedSlots true)).sum)

/-- A context of the cluster may take a slot: one reserved for it, where it is bound, or a shared one that is free (R11, R114). -/
def State.slotFree (s : State) (h : Hart) (bound : Bool) : Bool :=
  decide ((s.storeHarts.map Hart.slots).sum < 4096)
    && ((bound && decide (h.slots < slotShare)) || decide (s.sharedSlots.2 < s.sharedSlots.1))

/-- The first tile of a context that satisfies a test. -/
def Hart.findTile (h : Hart) (p : Word → TReg → Tile → Bool) : Option (Word × TReg) :=
  h.ctxs.findSome? fun c =>
    (c.tiles.toList.zipIdx.find? fun x => p c.base (Fin.ofNat 256 x.2) x.1).map fun x => (c.base, Fin.ofNat 256 x.2)

/-- A Clean tile and its backing hold the same bytes. -/
def State.sameBacking (s : State) (h : Hart) (base : Word) (t : TReg) (b : Bytes) : Bool :=
  match s.readAt h.task.asid (backing base t.val) tileSize with
  | .ok bs => bs == b.getN 0 tileSize
  | .error _ => false

/-- A tile may leave its slot: a Dirty one is spilled, a Clean one is dropped where its backing still holds its bytes, else
spilled too, so that a plain store to the backing does not change it; where its task may not write there it stays (R109,
R112). -/
def State.mayLeaveSlot (s : State) (h : Hart) (base : Word) (t : TReg) (x : Tile) : Bool :=
  match x with
  | .dirty _ => true
  | .clean b => s.sameBacking h base t b || h.task.mayWrite (backing base t.val)
  | _ => false

/-- A task ends wherever it stands: on its hart, or, where it is pre-empted, as if it stood there. -/
def State.endTask (s : State) (h : Hart) (cause : Nat) (tval item backing : Word) : State :=
  s.atHarts [h.name] fun t =>
    if t.hart.bound && t.hart.task.serial == h.task.serial then t.terminateAtStop cause tval item backing
    else
      let u := { t with
        hart := h, parked := t.parked.filter fun k => k.task.serial != h.task.serial }.terminate cause tval item backing
      { u with hart := t.hart }

/-- The task of a serial, bound or pre-empted, ends with `XLATE` at an address, if it still is. -/
def State.endOwner (s : State) (serial a : Nat) : State :=
  match (s.hart :: s.others ++ s.parked).find? fun h => h.bound && h.task.serial == serial with
  | some h => s.endTask h 0x21 (BitVec.ofNat 64 a) 0 0
  | none => s

/-- The bytes of a tile of a context go to its backing; where that does not translate the context's task ends with `XLATE`
(R167). -/
def State.spillTile (s : State) (h : Hart) (base : Word) (t : Nat) (b : Bytes) : State :=
  match s.writeAt h.task.asid (backing base t) (b.getN 0 tileSize) with
  | .ok u => u
  | .error a => s.endTask h 0x21 (BitVec.ofNat 64 a) (BitVec.ofNat 64 t) (BitVec.ofNat 64 (backing base t))

/-- A tile leaves its slot, spilled where it has to be. -/
def State.freeSlot (s : State) (h : Hart) (base : Word) (t : TReg) : State :=
  let drop := fun u : State => u.onTask h.task.serial fun h => h.setTileIn base t .absent
  match h.tileIn base t with
  | some (.dirty b) => drop (s.spillTile h base t.val b)
  | some (.clean b) => drop (if s.sameBacking h base t b then s else s.spillTile h base t.val b)
  | _ => s

/-- The tile that gives up its slot. DESIGN CHOICE (log entry 41): of the contexts that hold shared slots, the first Clean tile that
may leave, else the first Dirty one; where none of them may leave, one of the hart in front itself, which so goes on within its own
reserve (R114). -/
def State.victim (s : State) : Option (Hart × Word × TReg) :=
  let away := fun h : Hart => !s.clusterHarts.any fun k => k.name == h.name && k.task.serial == h.task.serial
  let hs := (s.storeHarts.filter fun h => h.sharedSlots (away h) != 0) ++ [s.hart]
  let first := fun p : Hart → Word → TReg → Tile → Bool =>
    hs.findSome? fun h => (h.findTile (p h)).map fun x => (h, x.1, x.2)
  match first fun h b t x => x.isClean && s.mayLeaveSlot h b t x with
  | some v => some v
  | none => first fun h b t x => s.mayLeaveSlot h b t x

/-- A slot for the hart in front, in at most `n` evictions. -/
def State.makeSlotIn (s : State) (n : Nat) : Part State :=
  if s.slotFree s.hart true then .ok s
  else
    match n, s.victim with
    | n + 1, some v =>
      let t := s.freeSlot v.1 v.2.1 v.2.2
      if t.hart.bound && t.hart.task.serial == s.hart.task.serial then t.makeSlotIn n else .error t
    | _, _ => .error s

/-- A slot for a tile of the hart in front, unless it has one: where it may take none, another tile leaves its slot. A spill that
does not translate ends the task it belongs to, which may be this one; the instruction waits where no tile may leave. -/
def State.makeSlot (s : State) (has : Bool) : Part State := if has then .ok s else s.makeSlotIn 4096

/-- The value of a tile for a reader, and the state after: an Absent tile fills from backing and becomes Clean, an
Undefined one reads zero bytes and sets UR (R109, R110, R119). -/
def State.readTile (s : State) (t : TReg) : Part (Bytes × State) :=
  match s.hart.tile t with
  | .clean b | .dirty b => .ok (b, s)
  | .undefined => .ok ([], s.onHart fun h => { h with ur := true })
  | .absent =>
    if s.tileMay t false then
      let a := backing s.hart.mapbase t.val
      match s.readAt s.hart.task.asid a tileSize with
      | .ok bs =>
        let b := Bytes.put [] 0 bs
        (s.makeSlot false).map fun u => (b, (u.onHart fun h => h.setTile t (.clean b)).count s.hart.task.asid a tileSize)
      | .error e => .error (s.tileXlate t e)
    else .error (s.tileFault t)

/-- The write check of a tile (R119). -/
def State.tileWriteOk (s : State) (t : TReg) : Part Unit := stopIf (!s.tileMay t true) (s.tileFault t)

/-- A whole-tile write: Dirty in a fresh slot (R109). -/
def State.writeTile (s : State) (t : TReg) (b : Bytes) : Part State :=
  (s.makeSlot (s.hart.tile t).held).map fun u => u.onHart fun h => h.setTile t (.dirty b)

/-- Mark a tile Undefined (R115). -/
def State.killTile (s : State) (t : TReg) : State := s.onHart fun h => h.setTile t .undefined

/-- Row `r` of a tile's bytes. -/
def tileRow (b : Bytes) (r : Nat) : List Byte := b.getN (128 * r) 128

end Sys2Proof.Machine
end

