-- ==== Sys2Proof/Machine/Fabric.lean ====
section
/-! DEFINITION. What remote operations share: remote words, the order of operations of a window, and the token table (R232,
R233, R236, R239). -/

namespace Sys2Proof.Machine

/-! ### Remote words (R233) -/

/-- OFFSET of a remote address word. -/
def rawOff (w : Word) : Nat := w.toNat / 2 ^ 24
/-- WIN. -/
def rawWin (w : Word) : Nat := bits w.toNat 23 10
/-- PEER. -/
def rawPeer (w : Word) : Nat := bits w.toNat 9 0

/-! ### The operations of a window (R232) -/

/-- An operation enters the order of a window: its ticket, and the state. -/
def State.openOp (s : State) (launch win : Nat) : Nat × State :=
  let r := s.takeName
  (r.1, r.2.onWindow launch win fun w => { w with ops := w.ops ++ [{ ticket := r.1, done := false }] })

/-- An operation of a window completes, with an error code or 0. -/
def State.closeOp (s : State) (launch win ticket code : Nat) : State :=
  s.onWindow launch win fun w => w.complete ticket code

/-- An operation that fails at the issuer: nothing is sent, OUT counts it, ERR keeps its code. -/
def State.failOp (s : State) (launch win code : Nat) : State :=
  let r := s.openOp launch win
  r.2.closeOp launch win r.1 code

/-- The window of the hart's launch that an address word names. -/
def State.ownWindow (s : State) (w : Word) : Option Window := s.window? s.hart.task.launch (rawWin w)

/-! ### Tokens (R236, R239) -/

/-- A token of a slot and a generation. -/
def tokenOf (slot gen : Nat) : BitVec 16 := BitVec.ofNat 16 (gen * 64 + slot)

/-- The slot a token names. -/
def tokSlotOf (t : BitVec 16) : Fin 64 := Fin.ofNat 64 t.toNat

/-- The token names a busy slot of its generation. -/
def Hart.tokBusy (h : Hart) (t : BitVec 16) : Bool :=
  let sl := h.tokens.get (tokSlotOf t)
  sl.st != .free && sl.gen == t.toNat / 64

/-- The slot `allocate_token` takes: the first free one at or after the pointer, else that of the expired token issued
first, else none. -/
def Hart.pickSlot (h : Hart) : Option (Fin 64) :=
  let order := (List.range 64).map fun k => Fin.ofNat 64 (h.tokPtr.val + k)
  match order.find? fun k => (h.tokens.get k).st == .free with
  | some k => some k
  | none =>
    (order.filter fun k => (h.tokens.get k).st == .expired).foldl
      (fun best k =>
        match best with
        | none => some k
        | some b => if (h.tokens.get k).order < (h.tokens.get b).order then some k else best)
      none

/-- `allocate_token` at a slot for a put: the token, and the hart with the slot pending. -/
def Hart.takeSlot (h : Hart) (k : Fin 64) (put : Nat) : BitVec 16 × Hart :=
  let old := h.tokens.get k
  let gen := old.gen % 1023 + 1
  let sl : TokSlot := { gen := gen, st := .pending, order := h.tokOrder, undelivered := false, put := put }
  (tokenOf k.val gen,
    { h with tokens := h.tokens.set k.val sl, tokPtr := Fin.ofNat 64 (k.val + 1), tokOrder := h.tokOrder + 1 })

/-- Change the slot a token names, where it is busy. -/
def Hart.onToken (h : Hart) (t : BitVec 16) (f : TokSlot → TokSlot) : Hart :=
  if h.tokBusy t then { h with tokens := h.tokens.set (tokSlotOf t).val (f (h.tokens.get (tokSlotOf t))) } else h

/-- The code of `tkstat` (R239). -/
def Hart.tokenCode (h : Hart) (t : BitVec 16) : Nat :=
  if h.tokBusy t then
    match (h.tokens.get (tokSlotOf t)).st with
    | .free => 0 | .pending => 1 | .accepted => 2 | .expired => 3
  else 0

/-- The name on the fabric of the put that holds a busy token's slot, whichever task of the hart issued it. -/
def State.tokName (s : State) (t : BitVec 16) : TokName :=
  let n := (s.hart.tokens.get (tokSlotOf t)).put
  match s.puts.find? fun p => p.ticket == n with
  | some p => p.tok
  | none => { party := s.party, token := t, serial := n }

/-! ### Sending a put (R237) -/

/-- The put of a token has not landed. -/
def State.putOut (s : State) (t : TokName) : Bool := s.puts.any fun p => p.tok == t

/-- A put whose carried tokens are all accepted leaves: it waits at its target for those not landed, whose puts record the
target as a watcher. To an absent peer nothing is sent, and the put fails (R230): it never leaves. -/
def State.sendPut (s : State) (p : PutRec) : State :=
  let waits := p.msg.carried.filter s.putOut
  let m := { p.msg with waits := waits }
  if s.isAbsent p.peer then
    let mark := fun q : PutRec => if q.ticket = p.ticket then { q with failed := true } else q
    { s with puts := s.puts.map mark }.closeOp p.launch p.win p.ticket 2
  else
    let mark := fun q : PutRec =>
      let q1 := if waits.contains q.tok && !q.watchers.contains p.peer then { q with watchers := q.watchers ++ [p.peer] } else q
      if q1.ticket = p.ticket then { q1 with sent := true, msg := m } else q1
    { s with puts := s.puts.map mark }.send (.put m)

end Sys2Proof.Machine
end

