-- ==== Sys2Proof/Machine/LoadStore.lean ====
section
/-! DEFINITION. Scalar loads and stores, acquire and release, compare-and-swap and the scalar atomics (R294, R298, R314,
R315, R348, R349). -/

namespace Sys2Proof.Machine

/-- The result of a load: the bytes go to x[xd], extended; the copy under `dk` = 1 is of x[xd], so 0 with `x0`. -/
def State.loaded (s : State) (w : LdW) (d : XReg) (bs : List Byte) : State :=
  (s.setXL d (if d = 0 then 0 else ldExtend w (leVal bs))).retire

/-- The bytes of a load up to the end of its first granule, where a turn has it read those alone and it goes on past it: what
races with it may come between its granules (R156, R178, R181). -/
def State.firstPart (s : State) (va n : Nat) : Option Nat :=
  match s.how with
  | .part _ => if 16 - va % 16 < n then some (16 - va % 16) else none
  | _ => none

/-- `ld` (R314): every byte is checked before any is read. -/
def execLd (w : LdW) (d a : XReg) (imm : BitVec 16) (s : State) : Out := finish do
  let va := (s.addr a imm).toNat
  let n := ldBytes w
  if s.hart.loaded = [] then
    match s.firstPart va n with
    | some k =>
      s.checkRead va n
      let r ← s.load va k
      return r.2.onHart fun h => { h with loaded := r.1 }
    | none =>
      let r ← s.load va n
      return r.2.loaded w d r.1
  else
    let k := s.hart.loaded.length
    let r ← s.load (va + k) (n - k)
    return (r.2.onHart fun h => { h with loaded := [] }).loaded w d (s.hart.loaded ++ r.1)

/-- A store that issues and performs later (R86, R183): its bytes wait, after the earlier ones. -/
def State.storeLate (s : State) (va : Nat) (bs : List Byte) (c : Fin 16) : State :=
  s.onHart fun h => { h with late := h.late ++ [.store (BitVec.ofNat 64 va) bs c h.pc h.vqueue.length] }

/-- `st` (R348): the low bytes of x[xd], buffered inside a strip at level T. A turn may leave them to perform, or to enter the
strip, later: until then the vector queue does not see them (R86, R182). -/
def execSt (w : Fin 4) (d a : XReg) (imm : BitVec 16) (s : State) : Out := finish do
  let va := (s.addr a imm).toNat
  let bs := leBytes (widthBytes w) (s.getX d).toNat
  let c := s.hart.effClass 0
  if s.how = .late then
    s.checkWrite va bs.length
    let _ ← if s.hart.inStrip then s.drainLate.bind fun t => t.buffer va bs c else .ok s
    return (s.storeLate va bs c).retire
  let t ← s.store va bs c
  return t.retire

/-- The checks of the SATOM words before the lease: `STRIPILL`, then `VAMOALIGN` with the address (R294, R315, R349). -/
def State.satomChecks (s : State) (va n : Nat) : Part Unit := do
  s.noStrip
  stopIf (va % n ≠ 0) (s.raise 0x12 (BitVec.ofNat 64 va))

/-- `lda` (R315): an acquire load. In a hart that runs in order every later access begins after it. -/
def execLda (d a : XReg) (_c : Slot) (w : Fin 4) (s : State) : Out := finish do
  let va := (s.getX a).toNat
  s.satomChecks va (widthBytes w)
  let r ← s.load va (widthBytes w)
  return (r.2.setXL d (BitVec.ofNat 64 (leVal r.1))).retire

/-- `stl` (R349): a release store. In a hart that runs in order every earlier access has performed. -/
def execStl (a b : XReg) (c : Slot) (w : Fin 4) (s : State) : Out := finish do
  let va := (s.getX a).toNat
  s.satomChecks va (widthBytes w)
  let t ← s.store va (leBytes (widthBytes w) (s.getX b).toNat) (s.hart.effClass c)
  return t.retire

/-! ### Atomics at the home slice (R188) -/

/-- The bytes of an atomic (R71). -/
def atomBytes (w64 : Bool) : Nat := if w64 then 8 else 4

/-- The new value of a read-modify-write of `n` bits (R294). -/
def amoNew (op : AmoOp) (n old b : Nat) : Nat :=
  match op with
  | .add => (old + b) % 2 ^ n
  | .and => old &&& b
  | .or => old ||| b
  | .xor => old ^^^ b
  | .min => if sext old n ≤ sext b n then old else b
  | .max => if sext old n ≤ sext b n then b else old
  | .minN => min old b
  | .maxN => max old b
  | .swap => b

/-- The package drops the cache-remote lines that hold one of `n` bytes at an address (R294). -/
def State.dropLineAt (s : State) (asid va n : Nat) : State :=
  { s with lines := s.lines.filter fun l => !(l.asid == spaceOf asid va && meets l.va l.bytes.length va n) }

/-- One access at the home slice: read `n` bytes, and write what `f` makes of them, if anything. The package's cached copy of the
line goes first (R294, R298). -/
def State.atHome (s : State) (va n : Nat) (f : Nat → Option Nat) : Part (Nat × State) :=
  match s.runs s.hart.task.asid va n with
  | .error a => .error (s.xlateFault a)
  | .ok rs =>
    let old := leVal (s.mem.getRuns rs)
    let u := s.dropLineAt s.hart.task.asid va n
    match f old with
    | none => .ok (old, u.count s.hart.task.asid va n)
    | some v => (u.writeMem va (leBytes n v)).map fun t => (old, t)

/-- The shared shape of `amo` and `cas`: checks, one access, the old value to x[xd] (R294, R298). -/
def State.satom (s : State) (d a : XReg) (n : Nat) (f : Nat → Option Nat) : Out := finish do
  let va := (s.getX a).toNat
  s.satomChecks va n
  s.checkWrite va n
  let r ← s.atHome va n f
  return (r.2.setXL d (BitVec.ofNat 64 r.1)).retire

/-- `cas` (R298): x[xd] is expected and receives the old value. -/
def execCas (d a b : XReg) (_c : Slot) (w64 : Bool) (s : State) : Out :=
  let n := atomBytes w64
  let expected := (s.getX d).toNat % 2 ^ (8 * n)
  s.satom d a n fun old => if old = expected then some ((s.getX b).toNat % 2 ^ (8 * n)) else none

/-- `amo` with one operation (R294). -/
def State.amo (s : State) (op : AmoOp) (d a b : XReg) (w64 : Bool) : Out :=
  let n := atomBytes w64
  s.satom d a n fun old => some (amoNew op (8 * n) old ((s.getX b).toNat % 2 ^ (8 * n)))

def execAmoAdd (d a b : XReg) (_c : Slot) (w64 : Bool) (s : State) : Out := s.amo .add d a b w64
def execAmoAnd (d a b : XReg) (_c : Slot) (w64 : Bool) (s : State) : Out := s.amo .and d a b w64
def execAmoOr (d a b : XReg) (_c : Slot) (w64 : Bool) (s : State) : Out := s.amo .or d a b w64
def execAmoXor (d a b : XReg) (_c : Slot) (w64 : Bool) (s : State) : Out := s.amo .xor d a b w64
def execAmoMin (d a b : XReg) (_c : Slot) (w64 : Bool) (s : State) : Out := s.amo .min d a b w64
def execAmoMax (d a b : XReg) (_c : Slot) (w64 : Bool) (s : State) : Out := s.amo .max d a b w64
def execAmoMinN (d a b : XReg) (_c : Slot) (w64 : Bool) (s : State) : Out := s.amo .minN d a b w64
def execAmoMaxN (d a b : XReg) (_c : Slot) (w64 : Bool) (s : State) : Out := s.amo .maxN d a b w64
def execAmoSwap (d a b : XReg) (_c : Slot) (w64 : Bool) (s : State) : Out := s.amo .swap d a b w64

end Sys2Proof.Machine
end

