-- ==== Sys2Proof/Config.lean ====
section
/-! DEFINITION. What one implementation fixes and the spec leaves open: free values without a body.
Nothing in Lean can evaluate them, so a claim about them holds for every value. -/

namespace Sys2Proof.Config

/-- FREE VALUE (log entry 3). Which of the free indexes of a die's engine `phnew` takes (R97, R197: "GEN and INDEX are
chosen by the engine"). The argument is the model's own counter `State.freeCount`. -/
opaque phaserChoice : Nat → Nat

/-- FREE VALUE (log entry 3). The generation an index takes when its first phaser is created (R97 gives only the next
ones). The argument is the index in the package, 4,096 × die + index. -/
opaque firstGeneration : Nat → Nat

/-- FREE VALUE (log entry 4). The logical cluster whose L2 slice is the home of a 128-byte line, before it is reduced
modulo the clusters in use (R158: "chosen by obsidian's configuration"; R198). The argument is the line number. -/
opaque homeCluster : Nat → Nat

/-- FREE VALUE (log entry 4). The translation station of an ASID and a 64 KiB page, before it is reduced modulo the 24
stations (R166: "chosen by a hash, fixed by obsidian's configuration"). -/
opaque stationHash : Nat → Nat → Nat

/-- FREE VALUE (log entry 9). The status of a command whose refusal the spec states without a code: a launch on a package
that accepts none (R17, R19), a pool command that is ignored (R205), the release of no carve-out (R161). It is reduced to
1 to 65,533. The argument is the model's own counter `State.freeCount`. -/
opaque openStatus : Nat → Nat

/-- FREE VALUE (log entry 7). What `TVAL` receives where the spec names no value for a cause: `ECALL`, `TSHANDLE`, `COPY_RANGE`,
`KBRK`, `RETLOST` (R162, R214, R215, R275, R297, R304). The argument is the model's own counter `State.freeCount`. -/
opaque openTval : Nat → Word

/-- FREE VALUE (log entry 12). The 64-byte command record of an unperformed copy in a checkpoint area, whose fields the spec
does not lay out (R222, R226, R301). The arguments are its engine queue, its granule count, its operation with the two addresses and
the length, and its 32-byte record. -/
opaque copyRecord : Nat → Nat → List Nat → List (BitVec 8) → List (BitVec 8)

/-- FREE VALUE (log entry 12). The bytes of a strip share in a checkpoint area, whose layout the spec does not give (R226). The
argument is the buffered stores, oldest first. -/
opaque stripShare : List (Nat × List (BitVec 8)) → List (BitVec 8)

/-- FREE VALUE (log entry 5). Byte `n` of a signature over a digest under the key of a digest: the spec names the scheme ML-DSA-87
and does not give it (R51, R281). The arguments are the key's digest, the signed digest and `n`. -/
opaque mlDsaByte : List (BitVec 8) → List (BitVec 8) → Nat → BitVec 8

/-- A signature over a digest under the key of a digest: 4,627 bytes (R51). -/
def mlDsaSign (key digest : List (BitVec 8)) : List (BitVec 8) := (List.range 4627).map (mlDsaByte key digest)

/-- FREE VALUE (log entry 5). Whether another signature verifies over a digest under the key of a digest. -/
opaque mlDsaOther : List (BitVec 8) → List (BitVec 8) → List (BitVec 8) → Bool

/-- A signature verifies over a digest under the key of a digest (R51, R285). -/
def mlDsaVerify (key digest signature : List (BitVec 8)) : Bool := signature == mlDsaSign key digest || mlDsaOther key digest signature

/-- FREE VALUE (log entry 5). Byte `n` of the SHA3-512 digest of this package's public identity key. -/
opaque identityByte : Nat → BitVec 8

/-- The SHA3-512 digest of this package's public identity key (R281). -/
def identityKey : List (BitVec 8) := (List.range 64).map identityByte

/-- The identity-key signature over a digest (R281, R287). -/
def identitySign (digest : List (BitVec 8)) : List (BitVec 8) := mlDsaSign identityKey digest

/-- FREE VALUE (log entry 5). The SHA3-512 digest of the key that signs configuration images (R17). -/
opaque configKey : List (BitVec 8)

/-- FREE VALUE (log entry 5). The bytes of a power-up defect map, whose layout the spec does not give (R20, R287). The argument is
the numbers of the units it names. -/
opaque defectMap : List Nat → List (BitVec 8)

/-- FREE VALUE (log entry 5). The digest of the obsidian image, as an attestation reports it (R287). -/
opaque obsidianDigest : List (BitVec 8)

/-- FREE VALUE (log entry 36). The physical address of the page table of a level that an address space has at a virtual
address (R167, R168): bits [39:8], chosen by obsidian. -/
opaque tableAddress : Nat → Nat → Nat → Nat

end Sys2Proof.Config
end

