-- ==== Sys2Proof/Machine/Csr.lean ====
section
/-! DEFINITION. The state registers: the address map, what a read returns and what a write stores (R4, R5, R103 to R106,
R122, R125, R127, R205, R210, R211, R238, R254, R255, R267, R268, R305), and the matrix unit's grant (R121). -/

namespace Sys2Proof.Machine

/-! ### The matrix unit's rows (R121) -/

/-- The attached harts of a core. -/
def attachedIn (hs : List Hart) (core : Nat) : Nat :=
  (hs.filter fun h => h.attached && h.name.core == core && !h.name.ah).length

/-- The core that takes the next unit: the highest ratio of attached harts to units held, ties to the lower core. -/
def neediest (a u : List Nat) : Option Nat :=
  (List.range 4).foldl
    (fun best c =>
      if a.getD c 0 = 0 then best
      else
        match best with
        | none => some c
        | some b => if a.getD b 0 * u.getD c 0 < a.getD c 0 * u.getD b 0 then some c else best)
    none

/-- Hand out `n` further units of 8 rows. -/
def giveUnits (n : Nat) (a u : List Nat) : List Nat :=
  match n with
  | 0 => u
  | n + 1 =>
    match neediest a u with
    | none => u
    | some c => giveUnits n a (u.set c (u.getD c 0 + 1))

/-- The rows of each core (R121). -/
def grantRows (hs : List Hart) : List Nat :=
  let a := (List.range 4).map (attachedIn hs)
  let u := a.map fun n => if n = 0 then 0 else 1
  (giveUnits (4 - u.sum) a u).map (8 * ·)

/-! ### Reads -/

/-- `DLNSTAT` of a hart at a count of its cluster's `REFTICK` (R267). -/
def Hart.dlnstat (h : Hart) (tick : Word) : Word :=
  let slack := match h.step with | some st => st.deadline - tick.setWidth 32 | none => h.dlnSlack
  BitVec.ofNat 64
    (h.step.isSome.toNat * 2 ^ 63 + h.dlnPre.toNat * 2 ^ 62 + h.dlnRisk.toNat * 2 ^ 61 + h.dlnMiss.toNat * 2 ^ 60
      + h.dlnDone % 2 ^ 28 * 2 ^ 32 + slack.toNat)

/-- `GRANT` (R122). -/
def State.grant (s : State) : Word :=
  let rows := if s.hart.name.ah then 0 else (grantRows s.clusterHarts).getD s.hart.name.core 0
  BitVec.ofNat 64 (s.hart.attached.toNat * 2 ^ 8 + rows)

/-- The Clean and Dirty tiles of the current context (R125). -/
def Hart.resident (h : Hart) : Nat :=
  (h.ctx.tiles.toList.filter fun t => match t with | .clean _ | .dirty _ => true | _ => false).length

/-- `MAPCTL` (R125). -/
def Hart.mapctl (h : Hart) : Word := BitVec.ofNat 64 (h.resident * 2 ^ 8 + h.ctxs.length * 2 ^ 2 + h.ur.toNat)

/-- `CLUSTERID` (R105). -/
def Hart.clusterId (h : Hart) : Word := BitVec.ofNat 64 (h.name.cluster / 48 * 2 ^ 8 + h.name.cluster)

/-- The value of a state register (R103). -/
def State.csr (s : State) (a : Nat) : Word :=
  let h := s.hart
  if a = 0x000 then h.vl
  else if a = 0x001 then h.vstart
  else if a = 0x010 then s.grant
  else if a = 0x011 then h.mapbase
  else if a = 0x012 then h.mapctl
  else if a = 0x013 then h.classmap
  else if a = 0x020 then h.seed
  else if a = 0x021 then h.stripbase
  else if a = 0x022 then h.rmode
  else if a = 0x030 then h.status
  else if a = 0x031 then h.pfxstate
  else if a = 0x032 then h.cause
  else if a = 0x033 then h.epc
  else if a = 0x034 then h.tval
  else if a = 0x035 then h.tvec
  else if a = 0x036 then h.stripfault
  else if a = 0x040 then h.id.setWidth 64
  else if a = 0x041 then h.clusterId
  else if a = 0x042 then BitVec.ofNat 64 s.fid
  else if a = 0x043 then h.task.groups
  else if a = 0x044 then h.task.leaseId.setWidth 64
  else if a = 0x050 then s.cluster.refTick
  else if a = 0x051 then h.dlnstat s.cluster.refTick
  else if a = 0x060 then h.tkexp
  else if a = 0x061 then h.clwin
  else if a = 0x062 then h.clstat
  else if 0x070 ≤ a ∧ a ≤ 0x077 then
    match s.launch? h.task.launch with
    | some l => l.mbox.get (Fin.ofNat 8 a)
    | none => 0
  else if 0x100 ≤ a ∧ a ≤ 0x10F then BitVec.ofNat 64 (s.cluster.qmin.get (Fin.ofNat 16 a))
  else if 0x110 ≤ a ∧ a ≤ 0x11F then BitVec.ofNat 64 (s.cluster.qcap.get (Fin.ofNat 16 a))
  else 0

/-- The registers with a dash at level T (R103). -/
def csrKOnly (a : Nat) : Bool := (0x031 ≤ a && a ≤ 0x035) || (0x100 ≤ a && a ≤ 0x11F)

/-- The registers an access hart has (R103). -/
def csrOnAH (a : Nat) : Bool :=
  a == 0x013 || (0x030 ≤ a && a ≤ 0x036) || (0x040 ≤ a && a ≤ 0x044) || a == 0x050 || (0x070 ≤ a && a ≤ 0x077)

/-- The register is listed for the hart and its level (R103, R305). -/
def Hart.csrOk (h : Hart) (r : BitVec 12) : Bool :=
  csrListed r && !(h.level == .t && csrKOnly r.toNat) && (!h.name.ah || csrOnAH r.toNat)

/-- The registers whose writes act at level T, and at level K (R103). -/
def csrWritable (l : Level) (a : Nat) : Bool :=
  let t := a == 0x013 || a == 0x020 || a == 0x021 || a == 0x022 || a == 0x030 || a == 0x060 || a == 0x061
  match l with
  | .t => t
  | .k => t || a == 0x000 || a == 0x001 || a == 0x012 || (0x031 ≤ a && a ≤ 0x036)

/-! ### Writes -/

/-- A write of `VL`: LEN clamps to vlmax(W) (R104). -/
def Hart.writeVl (h : Hart) (v : Word) : Word :=
  let w := bits v.toNat 15 14
  vlWord w (min (bits v.toNat 13 0) (h.vlmax (codeBits w)))

/-- A write of `VSTART`: above vlmax(`VL`.W) − 1 stores 0 (R104). -/
def Hart.writeVstart (h : Hart) (v : Word) : Word :=
  let n := bits v.toNat 13 0
  if h.vlmax (codeBits h.vw) ≤ n then 0 else BitVec.ofNat 64 n

/-- The bits of `STATUS` a write replaces at each level, without the W1C bit (R210). -/
def statusMask (l : Level) : Word :=
  match l with
  | .t => 0x021F
  | .k => 0x9E1F

/-- A write of `STATUS`: at level T only RIE and the flags; SFV is write-one-to-clear at level K (R210). -/
def Hart.writeStatus (h : Hart) (v w1c : Word) : Word :=
  let m := statusMask h.level
  let r := (h.status &&& ~~~m) ||| (v &&& m)
  if h.level == .k && w1c.getLsbD 14 then setBits r 14 1 0 else r

/-- Write a state register at the hart's level; `w1c` is what a write-one-to-clear field receives (R5, R305). -/
def Hart.writeCsr (h : Hart) (a : Nat) (v w1c : Word) : Hart :=
  if !csrWritable h.level a then h
  else if a = 0x000 then { h with vl := h.writeVl v }
  else if a = 0x001 then { h with vstart := h.writeVstart v }
  else if a = 0x012 then { h with ur := h.ur && !w1c.getLsbD 0 }
  else if a = 0x013 then { h with classmap := v &&& 0xFFFF }
  else if a = 0x020 then { h with seed := v &&& 0xFFFFFFFF }
  else if a = 0x021 then { h with stripbase := v }
  else if a = 0x022 then { h with rmode := if bits v.toNat 2 0 ≤ 4 then BitVec.ofNat 64 (bits v.toNat 2 0) else h.rmode }
  else if a = 0x030 then { h with status := h.writeStatus v w1c }
  else if a = 0x031 then { h with pfxstate := v &&& 0x3FFFFFF }
  else if a = 0x032 then { h with cause := v &&& 0x80000000000000FF }
  else if a = 0x033 then { h with epc := v &&& ~~~(3 : Word) }
  else if a = 0x034 then { h with tval := v }
  else if a = 0x035 then { h with tvec := v &&& ~~~(3 : Word) }
  else if a = 0x036 then { h with stripfault := v }
  else if a = 0x060 then { h with tkexp := if bits v.toNat 31 0 = 0 then 1 else v &&& 0xFFFFFFFF }
  else if a = 0x061 then { h with clwin := BitVec.ofNat 64 (max (bits v.toNat 15 0) 1024) }
  else h

/-! ### The four instructions (R305) -/

/-- A read, and a write of `v` with the W1C bits `w1c` where `write` says so. -/
def State.csrOp (s : State) (i : Instr) (d : XReg) (r : BitVec 12) (write : Option (Word × Word)) : Out := finish do
  stopIf (!s.hart.csrOk r) (s.illegal i)
  let old := s.csr r.toNat
  let t :=
    match write with
    | some (v, w) => s.onHart fun h => h.writeCsr r.toNat v w
    | none => s
  return (t.setX d old).retire

def execCsrr (d : XReg) (r : BitVec 12) (s : State) : Out := s.csrOp (.csrr d r) d r none
def execCsrw (d a : XReg) (r : BitVec 12) (s : State) : Out :=
  s.csrOp (.csrw d a r) d r (some (s.getX a, s.getX a))
def execCsrs (d a : XReg) (r : BitVec 12) (s : State) : Out :=
  s.csrOp (.csrs d a r) d r (some (s.csr r.toNat ||| s.getX a, s.getX a))
def execCsrc (d a : XReg) (r : BitVec 12) (s : State) : Out :=
  s.csrOp (.csrc d a r) d r (some (s.csr r.toNat &&& ~~~(s.getX a), 0))

/-- `vsetvl` and `vsetvli` (R374). -/
def State.setVl (s : State) (i : Instr) (d : XReg) (w : Fin 4) (req : Nat) : Out := finish do
  s.computeOnly i
  let n := min req (s.hart.vlmax (codeBits w.val))
  let t := s.onHart fun h => { h with vl := vlWord w.val n, vstart := 0 }
  return (t.setX d (BitVec.ofNat 64 n)).retire

def execVsetvl (d a : XReg) (w : Fin 4) (s : State) : Out := s.setVl (.vsetvl d a w) d w (s.getX a).toNat
def execVsetvli (d : XReg) (w : Fin 4) (len : BitVec 13) (s : State) : Out :=
  s.setVl (.vsetvli d w len) d w len.toNat

end Sys2Proof.Machine
end

