-- ==== Sys2Proof/Machine/Checkpoint.lean ====
section
/-! DEFINITION. The checkpoint area of a hart, byte by byte, and the checkpoint that is written into it (R222, R226, R318). -/

namespace Sys2Proof.Machine

/-! ### The parts of an area (R226) -/

/-- Bytes under keys that begin at `k`. -/
def Bytes.shift (b : Bytes) (k : Nat) : Bytes := b.map fun c => (k + c.1, c.2)

/-- The cells of a store below `n`. -/
def Bytes.below (b : Bytes) (n : Nat) : Bytes := b.filter fun c => decide (c.1 < n)

/-- The bytes of a store below `n`, in canonical form. -/
def Bytes.canon (b : Bytes) (n : Nat) : Bytes := if b.wf then b.below n else cells 0 (b.getN 0 n)

/-- Replace the `n` bytes from `k` up by those of another store below `n`. -/
def Bytes.place (m : Bytes) (k n : Nat) (b : Bytes) : Bytes :=
  m.filter (fun c => decide (c.1 < k)) ++ (b.canon n).shift k ++ m.filter fun c => decide (k + n ≤ c.1)

/-- The `n` bytes from `k` up, under keys from 0. -/
def Bytes.slice (m : Bytes) (k n : Nat) : Bytes :=
  (m.filter fun c => decide (k ≤ c.1 ∧ c.1 < k + n)).map fun c => (c.1 - k, c.2)

/-- A 64-bit little-endian word. -/
def word8 (w : Word) : List Byte := leBytes 8 w.toNat

/-- The lanes an area is laid out for: 0 on an access hart. -/
def Hart.areaLanes (h : Hart) : Nat := if h.name.ah then 0 else h.lanes

/-- The bytes of an area. -/
def Hart.areaSize (h : Hart) : Nat := if h.name.ah then 0xA400 else 0xC000 + h.lanes * 16384

/-- The header: level K is 1 (log entry 12). -/
def Hart.areaHead (h : Hart) (seq : Nat) : List Byte :=
  leBytes 4 1 ++ leBytes 4 h.areaLanes ++ leBytes 8 seq ++ word8 h.pc ++ leBytes 1 (h.level == .k).toNat
    ++ leBytes 1 (h.strip != []).toNat ++ leBytes 2 h.copies.length

/-- The sixteen state registers; an access hart's slots for those it lacks hold 0. -/
def Hart.areaRegs (h : Hart) (grant : Word) : List Byte :=
  let own := fun w : Word => if h.name.ah then 0 else w
  [own h.vl, own h.vstart, h.classmap, own h.seed, own h.stripbase, own h.rmode, h.status, h.pfxstate, h.cause, h.epc,
    h.tval, h.tvec, h.stripfault, own h.mapctl, own h.mapbase, own grant].flatMap word8

/-- The 256-bit mask of a context's Undefined tiles (R111), tile `t` at bit t mod 8 of byte t / 8 (log entry 12). -/
def TileCtx.mask (c : TileCtx) : List Byte :=
  leBytes 32 ((c.tiles.toList.zipIdx.map fun x => if x.1 = .undefined then 2 ^ x.2 else 0).sum)

/-- The held map contexts in install order; none on an access hart. -/
def Hart.areaMaps (h : Hart) : List Byte :=
  if h.name.ah then [] else (h.ctxs.take 4).flatMap fun c => word8 c.base ++ c.mask

/-- The loop stack: three entries, outermost first, and the depth (R318). The list of the model has the innermost first. -/
def loopBytes (st : List Loop) : List Byte :=
  let es := (st.reverse.take 3).flatMap fun l => word8 l.s ++ word8 l.e ++ word8 l.count
  es ++ List.replicate (72 - es.length) 0 ++ leBytes 1 st.length

/-- The 64-byte record of an unperformed copy (R222, R301): it holds the queue, the granule count, the operation, the two
addresses, the length and the 32-byte record, in places the spec does not give, so its bytes are a free value of them (log
entry 12). -/
def CopyEntry.record (e : CopyEntry) : List Byte :=
  let c := e.cmd
  let bs := (Config.copyRecord e.queue.val e.granules [c.op, c.a.toNat, c.b.toNat, c.len] c.record).take 64
  bs ++ List.replicate (64 - bs.length) 0

/-- The bytes of a strip share, whose layout the spec does not give (R226, log entry 12). -/
def Hart.shareBytes (h : Hart) : List Byte :=
  if h.strip = [] then []
  else Config.stripShare ((h.strip.filter fun b => !b.bypass).map fun b => (b.va.toNat, b.bytes))

/-- The registers of a file at a pitch. -/
def fileAt (rs : List Bytes) (off pitch n : Nat) : Bytes :=
  rs.zipIdx.flatMap fun r => (r.1.canon n).shift (off + pitch * r.2)

/-- The predicate registers, of which `p0` reads all ones (R3). -/
def Hart.areaPreds (h : Hart) : List Bytes := cells 0 (List.replicate (h.lanes * 32) 0xFF) :: h.p.toList.drop 1

/-- What an area holds of a hart's context, under keys from 0 (R226). -/
def Hart.area (h : Hart) (seq : Nat) (grant : Word) : Bytes :=
  cells 0 (h.areaHead seq) ++ cells 0x40 (h.x.toList.flatMap word8) ++ cells 0x140 (h.areaRegs grant)
    ++ cells 0x200 h.areaMaps ++ cells 0x2A0 (loopBytes h.loopT)
    ++ (if h.name.ah then [] else fileAt h.areaPreds 0x400 1024 (h.lanes * 32))
    ++ cells 0x2400 ((h.copies.take 512).flatMap CopyEntry.record)
    ++ (if h.name.ah then []
        else fileAt h.v.toList 0xC000 (h.lanes * 256) (h.lanes * 256)
          ++ cells (0xC000 + h.lanes * 8192) (h.shareBytes.take (h.lanes * 8192)))

/-! ### Writing it -/

/-- Where an area lies in memory: at its physical address in this package (R200). -/
def State.areaKey (s : State) (a : Word) : Nat := s.fid * 2 ^ 40 + a.toNat % 2 ^ 40

/-- The latest checkpoint of an area: its sequence and the context it was written from. -/
def State.ckptAt (s : State) (a : Word) : Option (Word × Nat × Hart) := s.ckpts.find? fun c => c.1 == a

/-- What the checkpoint area of the hart in front would hold of its context now, under the sequence it has. -/
def State.areaNow (s : State) : Bytes := s.hart.area (s.mem.val (s.areaKey s.hart.task.ckpt + 8) 8) s.grant

/-- A 128-byte granule of the area holds its new bytes. -/
def State.granuleWritten (s : State) (g : Nat) : Bool :=
  s.mem.getN (s.areaKey s.hart.task.ckpt + 128 * g) 128 == s.areaNow.getN (128 * g) 128

/-- The first granule still unwritten, if there is one (R226; DESIGN CHOICE, log entry 12: they stream in ascending order). -/
def State.unwritten (s : State) : Option Nat := (List.range (s.hart.areaSize / 128)).find? fun g => !s.granuleWritten g

/-- A granule of the context of the hart in front streams into its checkpoint area, whose sequence stays (R226). -/
def State.streamed (s : State) : State :=
  match s.unwritten with
  | some g => { s with mem := s.mem.place (s.areaKey s.hart.task.ckpt + 128 * g) 128 (s.areaNow.slice (128 * g) 128) }
  | none => s

/-- Write the context of the hart in front, or what is saved of it, into its checkpoint area and increment the sequence (R226). -/
def State.checkpoint (s : State) (h : Hart) : State :=
  let a := h.task.ckpt
  let n := s.mem.val (s.areaKey a + 8) 8 + 1
  { s with
    ckpts := (a, n, h) :: s.ckpts.filter fun c => c.1 != a
    mem := s.mem.place (s.areaKey a) h.areaSize (h.area n s.grant) }

end Sys2Proof.Machine
end

