-- ==== Sys2Proof/Machine/Fetch.lean ====
section
/-! DEFINITION. What a hart does next: idle, a pending asynchronous fault or interrupt, or its next instruction, and the
fetch of that instruction's word. -/

namespace Sys2Proof.Machine

/-- A phaser wait of the hart in front has been woken and its instruction has not completed yet (R99). -/
def State.woken (s : State) : Bool :=
  s.hart.phWoke.isSome || s.phasers.any fun p => p.members.any fun m => m.owner == s.hart.name && m.woke.isSome

/-- Abandon a wait of the hart in front: the signal of a waiting `phsw` is withdrawn (R100, R341), and a waiting `qld` and a
stalled producer leave their queues, to enter them again. -/
def State.abandon (s : State) : State :=
  let o := s.hart.name
  { s with
    hart := { s.hart with checked := false }
    cluster := s.cluster.unqueue o
    phasers := s.phasers.map fun p =>
      { p with
        members := p.members.map fun m =>
          if m.owner = o && m.waiting then
            { m with waiting := false, signalled := false, sig := if m.signalled then m.sig - 1 else m.sig }
          else if m.owner = o then { m with stall := none }
          else m } }

/-- Stop the issue of the hart in front and its engines; a wait is abandoned, transfers are cancelled (R222, R224). -/
def State.stopHart (s : State) : State :=
  s.abandon.onHart fun h =>
    { h with stopping := true, transfers := h.transfers.map fun x => { x with cancelled := true } }

/-- What a hart's turn is spent on. -/
inductive Attend where
  | idle
  | fault (token : BitVec 16)
  | interrupt
  | instruction
  deriving DecidableEq, Repr

/-- An `rget` of the hart in front has not brought back its bytes: no stop point takes effect before it has (R345). -/
def State.getOut (s : State) : Bool := s.gets.any fun g => g.owner == s.hart.task.serial && !g.failed

/-- An unbound hart, and one that waits for a remote answer (R345), issue nothing. A woken wait completes first (R341, R378), and
so does an instruction some of whose accesses wait at a busy page (R171); then a pending `TOKEXP` is delivered (R238), then a
`DLNRISK` that IE, RIE and `TVEC` admit (R207); either waits for the bytes of an `rget` (R345) and comes before a pre-emption that
meets it; a hart whose issue is stopped is idle (R224). -/
def State.attend (s : State) : Attend :=
  let h := s.hart
  if !h.bound || h.await.isSome then .idle
  else if s.woken || s.hart.unitsDone != [] then .instruction
  else
    match h.expiries with
    | t :: _ => if s.getOut then .idle else .fault t
    | [] =>
      if h.st 8 && h.st 10 && h.st 9 && h.tvec != 0 then if s.getOut then .idle else .interrupt
      else if h.stopping then .idle
      else .instruction

/-- Deliver the `TOKEXP` of a token: a waiting instruction is abandoned first (R238, R341). -/
def State.deliver (s : State) (t : BitVec 16) : State :=
  (s.abandon.onHart fun h => { h with expiries := h.expiries.drop 1 }).asyncFault 0x18 (t.setWidth 64)

/-- The word at the pc, and the state with its access counted. The pc outside the exec sections ends the task (R291). -/
def State.fetch (s : State) : Part (IWord × State) :=
  let pc := s.hart.pc.toNat
  if !s.hart.task.mayFetch pc then .error (s.leaseFault pc)
  else
    (s.orXlate (s.readAt s.hart.task.asid pc 4)).map fun bs =>
      (BitVec.ofNat 32 (leVal bs), s.count s.hart.task.asid pc 4)

/-- The word of the instruction at an address, without its decode; none where it cannot be fetched. -/
def State.peek (s : State) (a : Word) : Option IWord :=
  if s.hart.task.mayFetch a.toNat then
    match s.readAt s.hart.task.asid a.toNat 4 with
    | .ok bs => some (BitVec.ofNat 32 (leVal bs))
    | .error _ => none
  else none

/-- The turn named by a hart's place and the state it acts on: the hart brought to the front. -/
def State.turnAt (s : State) (n : HartName) : Option State := if hartExists n then some (s.focus n) else none

/-- The reference counter of a cluster advances (R268). -/
def State.tick (s : State) (n k : Nat) : State :=
  let f := fun c : Cluster => { c with refTick := c.refTick + BitVec.ofNat 64 k }
  if s.cluster.num = n then s.onCluster f else { s with clusters := putCluster s.clusters (f (s.clusterAt n)) }

end Sys2Proof.Machine
end

