-- ==== Sys2Proof/Machine/Prefix.lean ====
section
/-! DEFINITION. The prefix pair (R61 to R64, R339): what each successor accepts, and `pfx` itself. -/

namespace Sys2Proof.Machine

/-- What the ext field [5:0] of a prefix means to a successor (R62). -/
inductive Ext where
  | none | comp (ok : Bool) | ord | token
  deriving DecidableEq, Repr

/-- The prefix fields a successor accepts (R62): its own predicate field where it takes `pm` and `pn`; the `dk` value it
takes with the registers the copy may not name; `cls`; `rnd`; `nt`; and the ext field. -/
structure Accepts where
  pm : Option PReg
  dk : Nat
  dcOk : Fin 32 → Bool
  cls : Bool
  rnd : Bool
  nt : Bool
  ext : Ext

/-- A successor that accepts only the zero prefix. -/
def Accepts.zero : Accepts :=
  { pm := none, dk := 0, dcOk := fun _ => true, cls := false, rnd := false, nt := false, ext := .none }

/-- VINT and VPERM: predicate and vector copy. -/
def Accepts.vec (p : PReg) : Accepts := { Accepts.zero with pm := some p, dk := 2 }

/-- VFP and VCVT and VLNS: predicate, vector copy and rounding. -/
def Accepts.vfp (p : PReg) : Accepts := { Accepts.vec p with rnd := true }

/-- A compare, whose copy is a predicate register (R357). -/
def cmpDc (c : Fin 32) : Bool := c.val < 8

/-- Accesses with a class and the non-temporal hint. -/
def Accepts.acc : Accepts := { Accepts.zero with cls := true, nt := true }

/-- Scalar loads and atomics. -/
def Accepts.scl : Accepts := { Accepts.acc with dk := 1 }

/-- Vector loads. -/
def Accepts.vld (p : PReg) : Accepts := { Accepts.acc with pm := some p, dk := 2 }

/-- Vector stores. -/
def Accepts.vst (p : PReg) : Accepts := { Accepts.acc with pm := some p }

/-- The matrix multiplies: `comp` is refused with td = 63 and with the integer formats (R63, R144). -/
def compOk (f : Fmt) (td : AReg) : Bool := td ≠ 63 && f != .s8 && f != .n8

/-- MTILE words take a class. -/
def Accepts.cl : Accepts := { Accepts.zero with cls := true }

/-- The destination copy of a conversion that changes the width may not be its source (R359). -/
def cvtDc (src dst : ET) (a : VReg) (c : Fin 32) : Bool := src.width == dst.width || c != a

/-- What an instruction accepts of a prefix; none where it is not prefixable (R62, R65). DEDUCED (log entry 58): `mv2t` and `mt2v`
are not, as R334 says, though R62's MTILE row and R320 accept a lent class on them: R320 gives way to an instruction's own entry.
-/
def accepts (i : Instr) : Option Accepts :=
  match i with
  | .ld .. => some .scl
  | .st .. => some .acc
  | .lda .. | .cas .. | .amoAdd .. | .amoAnd .. | .amoOr .. | .amoXor .. | .amoMin .. | .amoMax .. | .amoMinN ..
  | .amoMaxN .. | .amoSwap .. => some .scl
  | .stl .. => some .acc
  | .vadd _ _ _ p _ _ | .vsub _ _ _ p _ _ | .vmul _ _ _ p _ _ | .vmulh _ _ _ p _ _ | .vand _ _ _ p _ _
  | .vor _ _ _ p _ _ | .vxor _ _ _ p _ _ | .vsll _ _ _ p _ _ | .vsrl _ _ _ p _ _ | .vsra _ _ _ p _ _
  | .vmin _ _ _ p _ _ | .vmax _ _ _ p _ _ | .vsel _ _ _ p _ _ | .vred _ _ _ p _ _ => some (.vec p)
  | .vcmp _ _ _ _ p _ _ => some { Accepts.vec p with dcOk := cmpDc }
  | .vfadd _ _ _ p _ | .vfsub _ _ _ p _ | .vfmul _ _ _ p _ | .vfma _ _ _ p _ | .vfnma _ _ _ p _ | .vfdiv _ _ _ p _
  | .vfsqrt _ _ p _ | .vfmin _ _ _ p _ | .vfmax _ _ _ p _ | .vfclass _ _ p _ | .vfred _ _ _ p _
  | .vtbl _ _ _ p _ => some (.vfp p)
  | .vfcmp _ _ _ _ p _ => some { Accepts.vfp p with dcOk := cmpDc }
  | .vcvt _ a p src _ dst => some { Accepts.vfp p with dcOk := cvtDc src dst a }
  | .vfcvt _ a p src dst => some { Accepts.vfp p with dcOk := cvtDc src dst a }
  | .vlnspack _ _ p | .vlnsunpack _ _ p | .vlnsmul _ _ _ p | .vlnsadd _ _ _ p | .vscale _ _ _ p => some (.vfp p)
  | .vperm _ _ _ p _ | .vslideup _ _ _ p _ | .vslidedn _ _ _ p _ | .vcompress _ _ p _ | .vexpand _ _ p _
  | .vbcast _ _ p _ | .vmv _ _ p _ | .vidx _ p _ => some (.vec p)
  | .vld _ _ p _ _ | .vlds _ _ _ p _ _ | .vldx _ _ _ p _ _ | .vldff _ _ p _ _ | .vldsp _ _ _ p _ _
  | .qld _ _ p _ => some (.vld p)
  | .vst _ _ p _ _ | .vsts _ _ _ p _ _ | .vstx _ _ _ p _ _ | .vstsp _ _ _ p _ _ => some (.vst p)
  | .vamoAdd _ _ _ p _ _ | .vamoMin _ _ _ p _ _ | .vamoMax _ _ _ p _ _ | .vamoAnd _ _ _ p _ _
  | .vamoOr _ _ _ p _ _ | .vamoXor _ _ _ p _ _ | .vamoSwap _ _ _ p _ _ =>
    some { Accepts.vld p with ext := .ord }
  | .mma f td _ _ _ => some { Accepts.zero with ext := .comp (compOk f td) }
  | .mmasp f td _ _ _ | .mmats f td _ _ _ => some { Accepts.acc with ext := .comp (compOk f td) }
  | .mld .. | .mst .. | .mldsp .. | .mstsp .. => some .acc
  | .mepi .. => some { Accepts.cl with rnd := true }
  | .mzero .. | .mfree .. | .mpref .. | .msend .. | .mattach | .mdetach => some .cl
  | .mmov .. | .mtrans .. => some .zero
  | .cpy .. | .cpy2d .. | .cpyg .. | .cpyts .. | .qfill .. => some .acc
  | .rput .. => some { Accepts.cl with ext := .token }
  | .rget .. | .ramo .. => some { Accepts.cl with dk := 1 }
  | .rldred .. | .rwait .. | .tkstat .. => some .cl
  | _ => none

/-- The ext field [5:0] of a prefix is acceptable (R62, R63). -/
def Ext.ok (e : Ext) (b : Nat) : Bool :=
  let x := bits b 5 0
  match e with
  | .none => x == 0
  | .comp o => x == 0 || (x == 1 && o)
  | .ord => x ≤ 1
  | .token => bitOf b 5 || x == 0

/-- The successor accepts the prefix bits `b` (R62, R63). -/
def Accepts.ok (a : Accepts) (b : Nat) : Bool :=
  let pm := bits b 25 23
  let dc := bits b 21 17
  let dk := bits b 16 15
  let rnd := bits b 9 7
  ((pm == 0 && !bitOf b 22) || a.pm == some 0)
    && (if dk == 0 then dc == 0 else dk == a.dk && a.dcOk (Fin.ofNat 32 dc))
    && (if bitOf b 10 then a.cls else bits b 14 11 == 0)
    && (rnd == 0 || (a.rnd && rnd ≤ 5))
    && (!bitOf b 6 || a.nt)
    && a.ext.ok b

/-- A word may follow a prefix with the bits `b` on this hart (R61, R78). -/
def acceptsWord (ah : Bool) (w : IWord) (b : Nat) : Bool :=
  match decodeWord w with
  | .error _ => false
  | .ok i =>
    (match accepts i with | some a => a.ok b | none => false)
      && (!ah || (match i with | .cpy .. | .cpy2d .. | .cpyg .. | .cpyts .. | .qfill .. => true | _ => false))

/-- `pfx` (R61, R339): it lends its bits to the successor, or traps with the successor's word in `TVAL`, its own bits in
`PFXSTATE` and PFXV 0. -/
def execPfx (fields : BitVec 26) (s : State) : Out :=
  let next := s.hart.pc + 4
  if !s.hart.task.mayFetch next.toNat then .next (s.leaseFault next.toNat)
  else
    match s.peek next with
    | none => .next (s.xlateFault next.toNat)
    | some w =>
      if acceptsWord s.hart.name.ah w fields.toNat && !s.hart.loops.any (fun l => l.e == s.hart.pc) then
        .next (s.onHart fun h => { h with pc := next, lent := some fields })
      else .next (s.raiseWith 0x01 (w.setWidth 64) fields false)

/-- Continue at `t` after `eret`: with PFXV = 1 the word there runs with the fields of `PFXSTATE` lent, or traps at its own
address with them in `PFXSTATE` and PFXV 0 (R64). -/
def State.resumeAt (s : State) (t : Word) (st : List Loop) : State :=
  let b := s.hart.pfxstate.setWidth 26
  let s1 := (s.onHart fun h => h.setSt 15 false).continueAt t st
  if s.hart.st 15 && s.hart.task.mayFetch t.toNat then
    match s1.peek t with
    | none => s1.xlateFault t.toNat
    | some w =>
      if acceptsWord s.hart.name.ah w b.toNat then s1.onHart fun h => { h with lent := some b }
      else s1.raiseWith 0x01 (w.setWidth 64) b false
  else s1

end Sys2Proof.Machine
end

