-- ==== Sys2Proof/Machine/System.lean ====
section
/-! DEFINITION. The system instructions: `ecall`, the level-K requests, `eret`, `brk`, `mapsw`, `ckpt`, hint words and the
trap of a word that is no instruction (R78, R79, R124, R208, R215, R227, R297, R299, R306, R321). -/

namespace Sys2Proof.Machine

/-- A value of `TVAL` the spec does not state (log entry 7), and the state with it taken. -/
def State.takeTval (s : State) : Word × State := (Config.openTval s.freeCount, { s with freeCount := s.freeCount + 1 })

/-! ### Copies that a waiting hart drains -/

/-- The key a byte of a side has: memory addresses keep their virtual address. -/
def Side.byteAt (d : Side) (k : Nat) : Nat :=
  match d with
  | .mem va => va.toNat + k
  | .sp o0 rot rho off => spByte rot o0 rho (off + k)
  | .ts _ off => off + k

/-- Read a run of a copy's source; none where its page does not translate, with the first such address. -/
def State.readSide (s : State) (asid : Nat) (d : Side) (n : Nat) : Except Nat (List Byte) :=
  match d with
  | .mem va => s.readAt asid va.toNat n
  | .sp .. => .ok ((List.range n).map fun k => s.cluster.sp.get (d.byteAt k))
  | .ts hd off => .ok (((s.carves.find? fun c => c.handle == hd).map fun c => c.bytes.getN off n).getD [])

/-- The 16-byte granules of `n` bytes at `va` that a leaf maps. -/
def Leaf.granules (l : Leaf) (asid va n : Nat) : Nat :=
  if l.reached asid va n then (min (va + n) (l.va + levelSize l.level) + 15) / 16 - max va l.va / 16 else 0

/-- The accesses after which a mode-3 page is marked busy (R171). -/
def Leaf.threshold (l : Leaf) : Nat := 2 ^ (pteThr l.pte + 8)

/-- Count the reads of a copy's source run, each granule one access, up to a busy page (R171, log entry 39). -/
def State.countSide (s : State) (asid : Nat) (d : Side) (n : Nat) : State :=
  match d with
  | .mem va =>
    { s with
      leaves := s.leaves.map fun l =>
        if pteMode l.pte = 3 then
          { l with accesses := max l.accesses (min (l.accesses + l.granules asid va.toNat n) l.threshold) }
        else l }
  | _ => s

/-- None of those reads meets a busy page. -/
def State.sideFits (s : State) (asid : Nat) (d : Side) (n : Nat) : Bool :=
  match d with
  | .mem va =>
    s.leaves.all fun l =>
      pteMode l.pte != 3 || l.granules asid va.toNat n == 0 || decide (l.accesses + l.granules asid va.toNat n ≤ l.threshold)
  | _ => true

/-- Count the reads of some source runs; whether none meets a busy page. -/
def State.countSides (s : State) (asid : Nat) (ds : List (Side × Nat)) : State × Bool :=
  ds.foldl (fun r d => if r.2 then (r.1.countSide asid d.1 d.2, r.1.sideFits asid d.1 d.2) else r) (s, true)

/-- Write a run of a copy's destination. -/
def State.writeSide (s : State) (asid : Nat) (d : Side) (bs : List Byte) : Except Nat State :=
  match d with
  | .mem va => s.writeAt asid va.toNat bs
  | .sp .. => .ok (s.spPut (bs.zipIdx.map fun (b, k) => (d.byteAt k, b)))
  | .ts hd off =>
    .ok { s with carves := s.carves.map fun c => if c.handle = hd then { c with bytes := c.bytes.put off bs } else c }

/-- A plain position `a` of the kind of a side. -/
def Side.at (d : Side) (a : Nat) : Side :=
  match d with
  | .mem _ => .mem (BitVec.ofNat 64 a)
  | .sp .. => .sp a 0 0 0
  | .ts hd _ => .ts hd a

/-- Set the byte at a place of a granule. -/
def setPlace (k : Nat) (b : Byte) (bs : List (Nat × Byte)) : List (Nat × Byte) :=
  match bs with
  | [] => [(k, b)]
  | x :: r => if x.1 < k then x :: setPlace k b r else if x.1 = k then (k, b) :: r else (k, b) :: x :: r

/-- A written byte enters the granules of its run, which ascend. -/
def addByte (d : Side) (a : Nat) (b : Byte) (gs : List Granule) : List Granule :=
  let base := a / 16 * 16
  match gs with
  | [] => [{ base := d.at base, bytes := [(a % 16, b)] }]
  | g :: r =>
    if g.base.byteAt 0 < base then g :: addByte d a b r
    else if g.base.byteAt 0 = base then { g with bytes := setPlace (a % 16) b g.bytes } :: r
    else { base := d.at base, bytes := [(a % 16, b)] } :: g :: r

/-- The 16-byte granules of a written run, ascending (R156, R157). -/
def granulesOf (d : Side) (bs : List Byte) : List Granule :=
  bs.zipIdx.foldl (fun gs x => addByte d (d.byteAt x.2) x.1 gs) []

/-- The granules of a later run join those of the earlier ones: one that both write is written once, with the later bytes on top
(R156, R302). -/
def joinGranule (gs : List Granule) (g : Granule) : List Granule :=
  match gs with
  | [] => [g]
  | k :: r =>
    if k.base = g.base then { k with bytes := g.bytes.foldl (fun bs x => setPlace x.1 x.2 bs) k.bytes } :: r
    else k :: joinGranule r g

/-- A granule enters a list in ascending place, behind those of its place. -/
def insertGranule (gs : List Granule) (g : Granule) : List Granule :=
  match gs with
  | [] => [g]
  | k :: r => if g.base.byteAt 0 < k.base.byteAt 0 then g :: k :: r else k :: insertGranule r g

/-- The source of a copy is read whole (R156): what is to be written, granule by granule, in ascending destination (R157). -/
def State.readMoves (s : State) (asid : Nat) (ms : List Move) : Except Nat (List Granule) :=
  (ms.mapM fun m => (s.readSide asid m.src m.len).map (granulesOf m.dst)).map fun gs =>
    (gs.flatten.foldl joinGranule []).foldl insertGranule []

/-- The runs of bytes of a granule. -/
def placeRuns (bs : List (Nat × Byte)) : List (Nat × List Byte) :=
  match bs with
  | [] => []
  | x :: r =>
    match placeRuns r with
    | (k, ys) :: q => if k = x.1 + 1 then (x.1, x.2 :: ys) :: q else (x.1, [x.2]) :: (k, ys) :: q
    | [] => [(x.1, [x.2])]

/-- Write a granule (R156). -/
def State.writeGranule (s : State) (asid : Nat) (g : Granule) : Except Nat State :=
  (placeRuns g.bytes).foldlM (fun s r => s.writeSide asid (g.base.at (g.base.byteAt 0 + r.1)) r.2) s

/-- A granule of memory meets a busy page (R171). -/
def State.granuleBusy (s : State) (asid : Nat) (g : Granule) : Bool :=
  match g.base with
  | .mem va => s.atBusy asid va.toNat 16
  | _ => false

/-- Write some granules, in order: the state, and those left behind one that waits at a busy page. -/
def State.writeGranules (s : State) (asid : Nat) (gs : List Granule) : Except Nat (State × List Granule) :=
  match gs with
  | [] => .ok (s, [])
  | g :: r =>
    if s.granuleBusy asid g then .ok (s, g :: r)
    else
      match s.writeGranule asid g with
      | .ok t => t.writeGranules asid r
      | .error a => .error a

/-- The first `n` of some granules of an entry are written, or all of them: the state, and the entry if any are left. -/
def State.advance (s : State) (asid : Nat) (e : CopyEntry) (gs : List Granule) (n : Option Nat) :
    Except Nat (State × Option CopyEntry) :=
  let k := n.getD gs.length
  (s.writeGranules asid (gs.take k)).map fun r =>
    let left := r.2 ++ gs.drop k
    (r.1, if left = [] then none else some { e with work := .writing left, granules := e.granules + (gs.length - left.length) })

/-- An entry of a hart whose address space is `asid` performs, whole or its next `n` granules, as far as no access meets a busy page
(R156, R171, R222); a `qfill` puts its bytes in its slot (R194). What does not translate ends the task (R167). -/
def State.perform (s : State) (asid : Nat) (e : CopyEntry) (n : Option Nat) : Except Nat (State × Option CopyEntry) :=
  match e.work with
  | .copy ms =>
    let c := s.countSides asid (ms.map fun m => (m.src, m.len))
    if !c.2 then .ok (c.1, some e)
    else
      match s.readMoves asid ms with
      | .ok gs => c.1.advance asid e gs n
      | .error a => .error a
  | .writing gs => s.advance asid e gs n
  | .fill src q slot =>
    let c := s.countSides asid [(src, 128)]
    if !c.2 then .ok (c.1, some e)
    else
      (s.readSide asid src 128).map fun bs =>
        let fill := fun d : DSlot => if d.id = slot then { d with bytes := some bs } else d
        (c.1.onCluster fun c => { c with queues := c.queues.set q.val ((c.queues.get q).map fill) }, none)

/-- Replace the first entry that satisfies a test, or drop it. -/
def replaceEntry (pick : CopyEntry → Bool) (left : Option CopyEntry) (es : List CopyEntry) : List CopyEntry :=
  match es with
  | [] => []
  | e :: r => if pick e then left.toList ++ r else e :: replaceEntry pick left r

/-- The oldest entry of the engine queues a mask names performs, whole or its next `n` granules (R154). -/
def State.performOne (s : State) (pick : Fin 8 → Bool) (n : Option Nat) : Part State :=
  match s.hart.copies.find? fun e => pick e.queue with
  | some e =>
    match s.perform s.hart.task.asid e n with
    | .ok r => .ok (r.1.onHart fun h => { h with copies := replaceEntry (fun e => pick e.queue) r.2 h.copies })
    | .error a => .error (s.terminateAtStop 0x21 (BitVec.ofNat 64 a) 0 0)
  | none => .ok s

/-- Perform up to `n` entries of the queues a mask names, oldest first; where one waits at a busy page, so does what waits for it
(R171). -/
def State.drain (s : State) (pick : Fin 8 → Bool) (n : Nat) : Part State :=
  match n with
  | 0 => .ok s
  | n + 1 =>
    match s.performOne pick none with
    | .ok t =>
      if t.hart.copies.length < s.hart.copies.length then t.drain pick n
      else if t.hart.copies.any fun e => pick e.queue then .error t else .ok t
    | .error t => .error t

/-- Every entry of the queues a mask names performs, which the hart waits for (R95, R310). -/
def State.drainAll (s : State) (pick : Fin 8 → Bool) : Part State := s.drain pick s.hart.copies.length

/-- The state a part leaves, whether it goes on or not. -/
def leftBy (r : Part State) : State := match r with | .ok t => t | .error t => t

/-- The engine queues of the cluster's other harts perform, but for those a pre-emption stops (R157, R222). -/
def State.drainOthers (s : State) : State :=
  let near := s.others.filter fun h => h.bound && !h.stopping && h.copies != [] && h.name.cluster == s.hart.name.cluster
  s.atHarts (near.map (·.name)) fun t => leftBy (t.drainAll fun _ => true)

/-- Every engine queue of the cluster that is not stopped performs. -/
def State.drainCluster (s : State) : Part State := (s.drainAll fun _ => true).map State.drainOthers

/-! ### The level-K requests (R306) -/

/-- A waiting task of the hart's cluster has at least its priority (R306). -/
def State.someoneWaits (s : State) : Bool :=
  let k := s.hart.task
  (s.queue.any fun r => r.cluster == s.hart.name.cluster && r.next < r.count && k.priority ≤ r.priority)
    || (s.parked.any fun h => h.name.cluster == s.hart.name.cluster && k.priority ≤ h.task.priority)

/-- Request 0 is answered 1. -/
def State.requestVersion (s : State) : State := (s.setX 10 1).retire

/-- Request 1 is answered 0; where someone waits, obsidian asks the hart to stop (R222, R224). -/
def State.requestYield (s : State) : State :=
  let t := (s.setX 10 0).retire
  if s.someoneWaits && t.hart.bound then t.stopHart else t

/-- Any other request is answered with all ones. -/
def State.requestUnknown (s : State) : State := (s.setX 10 (BitVec.allOnes 64)).retire

/-- `ecall` at level K: the request in `x10`. -/
def State.request (s : State) : State :=
  if s.getX 10 = 0 then s.requestVersion else if s.getX 10 = 1 then s.requestYield else s.requestUnknown

/-- The task ends as `texit` ends one once its waits are over (R95, R192, R351): engine queues perform, and a claim still
open keeps the hart waiting. -/
def State.taskEnd (s : State) : State :=
  match s.drainAll fun _ => true with
  | .ok t => if bits t.hart.clstat.toNat 2 0 = 1 then t else t.leave false
  | .error t => t

/-- `ecall` (R192, R215, R306). -/
def execEcall (s : State) : Out :=
  if s.hart.level = .k then .next s.request
  else if s.hart.name.ah then .next s.taskEnd
  else .next (s.takeTval.2.raise 0x02 s.takeTval.1)

/-- The request `K_VERSION` of an `ecall` at level K (R306). -/
def execKVersion (s : State) : Out := .next s.requestVersion

/-- The request `K_YIELD` of an `ecall` at level K (R306). -/
def execKYield (s : State) : Out := .next s.requestYield

/-- Any other request of an `ecall` at level K (R306). -/
def execKRequestUnknown (s : State) : Out := .next s.requestUnknown

/-- `eret`, at level K only (R64, R208, R318). -/
def execEret (s : State) : Out := finish do
  s.levelK .eret
  let r := s.hart.leaveK
  return (s.onHart fun _ => r.1).resumeAt r.2.1 r.2.2

/-- `brk`: `BRK` at level T, the end of the task with `KBRK` at level K (R297). -/
def execBrk (s : State) : Out :=
  if s.hart.level = .t then .next (s.raise 0x03 0)
  else .next (s.takeTval.2.terminate 0x23 s.takeTval.1 0 0)

/-! ### Context switch (R111, R113, R124, R321) -/

/-- What leaves the tile store when a context is evicted: a Dirty tile's bytes, zero bytes for an Undefined tile whose
backing page the lease grants read-write (R111), and a Clean tile's bytes where a plain store has changed such a page (R112). -/
def State.evictBytes (s : State) (base : Word) (t : Nat) (x : Tile) : Option (List Byte) :=
  let may := s.hart.task.mayWrite (backing base t)
  match x with
  | .dirty b => some (b.getN 0 tileSize)
  | .undefined => if may then some (List.replicate tileSize 0) else none
  | .clean b => if may && !s.sameBacking s.hart base (Fin.ofNat 256 t) b then some (b.getN 0 tileSize) else none
  | .absent => none

/-- Write the evicted tiles of a context to their backing. -/
def State.evict (s : State) (c : TileCtx) : Part State :=
  c.tiles.toList.zipIdx.foldlM
    (fun s x =>
      match s.evictBytes c.base x.2 x.1 with
      | some bs =>
        match s.writeAt s.hart.task.asid (backing c.base x.2) bs with
        | .ok t => .ok t
        | .error a => .error (s.terminate 0x21 (BitVec.ofNat 64 a) (BitVec.ofNat 64 x.2) (BitVec.ofNat 64 (backing c.base x.2)))
      | none => .ok s)
    s

/-- Install a context as current: one that is held moves to the end of the install order; another takes a free entry of
four, or that of the context installed least recently (R111). -/
def State.install (s : State) (a : Word) : Part State :=
  let cs := s.hart.ctxs
  match cs.find? fun c => c.base == a with
  | some c =>
    .ok (s.onHart fun h => { h with mapbase := a, ctxs := cs.filter (fun c => c.base != a) ++ [c] })
  | none =>
    if cs.length < 4 then
      .ok (s.onHart fun h => { h with mapbase := a, ctxs := cs ++ [TileCtx.all a .absent] })
    else
      match cs with
      | [] => .ok s
      | c :: r => do
        let t ← s.evict c
        return t.onHart fun h =>
          { h with
            mapbase := a, ctxs := r ++ [TileCtx.all a .absent]
            transfers := h.transfers.filter fun x => x.base != c.base }

/-- The context is current on another hart of the cluster (R113). -/
def State.mapBusy (s : State) (a : Word) : Bool :=
  s.others.any fun h => h.bound && h.name.cluster == s.hart.name.cluster && h.mapbase == a && !h.name.ah

/-- `mapsw` (R124, R321). -/
def execMapsw (a : XReg) (s : State) : Out := finish do
  s.levelK (.mapsw a)
  s.computeOnly (.mapsw a)
  let v := s.getX a
  if v = s.hart.mapbase then return s.retire
  stopIf (bits v.toNat 19 0 ≠ 0 || bits v.toNat 63 57 ≠ 0) (s.raise 0x06 v)
  stopIf (s.mapBusy v) (s.raise 0x07 v)
  let t ← s.install v
  return t.retire

/-! ### Checkpoints (R227) -/

/-- `ckpt`, at level K on a compute hart (R227, R299). The checkpoint resumes after it. -/
def execCkpt (s : State) : Out := finish do
  s.levelK .ckpt
  s.computeOnly .ckpt
  let t := s.retire
  return if t.hart.bound then t.checkpoint t.hart else t

/-- A hint word has no effect (R79). -/
def execHint (_bits : BitVec 26) (s : State) : Out := .next s.retire

/-- A word that is no instruction traps before it has any effect (R78). -/
def execIllegal (w : IWord) (s : State) : Out := .next (s.raise 0x01 (w.setWidth 64))

end Sys2Proof.Machine
end

