-- ==== Sys2Proof/Machine/Flags.lean ====
section
/-! DEFINITION. The flags of floating-point and LNS6 arithmetic (R126), as the low bits of `STATUS`. -/

namespace Sys2Proof.Machine

/-- A set of flags: [4] NV, [3] DZ, [2] OF, [1] UF, [0] NX (R126). -/
abbrev Flags := BitVec 5

/-- No flag. -/
def noFlags : Flags := 0
/-- Invalid operation. -/
def flagNV : Flags := 16
/-- Division of a finite nonzero value by zero. -/
def flagDZ : Flags := 8
/-- Overflow. -/
def flagOF : Flags := 4
/-- Underflow. -/
def flagUF : Flags := 2
/-- Inexact. -/
def flagNX : Flags := 1

/-- A flag set under a condition. -/
def flagIf (c : Bool) (f : Flags) : Flags := if c then f else 0

/-- The union of the flags of many results. -/
def orAll (fs : List Flags) : Flags := fs.foldl (· ||| ·) 0

end Sys2Proof.Machine
end

