-- ==== Sys2Proof/Machine/Float.lean ====
section
/-! DEFINITION. The IEEE formats and their arithmetic: exact values, one rounding, the special cases and the flags (R58,
R80, R81, R128 to R131, R146, R360 to R363). -/

namespace Sys2Proof.Machine

/-! ### Formats and values -/

/-- A binary format: exponent and fraction bits (R128). -/
structure FloatFmt where
  eb : Nat
  fb : Nat
  deriving DecidableEq, Repr

/-- FP32. -/
def fmt32 : FloatFmt := { eb := 8, fb := 23 }
/-- BF16. -/
def fmtB : FloatFmt := { eb := 8, fb := 7 }
/-- FP16. -/
def fmt16 : FloatFmt := { eb := 5, fb := 10 }

/-- The bias of a format. -/
def FloatFmt.bias (f : FloatFmt) : Nat := 2 ^ (f.eb - 1) - 1
/-- The width of a format in bits. -/
def FloatFmt.width (f : FloatFmt) : Nat := 1 + f.eb + f.fb
/-- The bit pattern of infinity without its sign. -/
def FloatFmt.infBits (f : FloatFmt) : Nat := (2 ^ f.eb - 1) * 2 ^ f.fb
/-- The canonical quiet NaN (R128). -/
def FloatFmt.nan (f : FloatFmt) : Nat := f.infBits + 2 ^ (f.fb - 1)
/-- A pattern with a sign. -/
def FloatFmt.signed (f : FloatFmt) (neg : Bool) (b : Nat) : Nat := if neg then b + 2 ^ (f.eb + f.fb) else b
/-- The largest finite pattern without its sign. -/
def FloatFmt.maxBits (f : FloatFmt) : Nat := f.infBits - 1

/-- An exact dyadic number n × 2^e. -/
structure Dyadic where
  n : Int
  e : Int
  deriving DecidableEq, Repr

/-- A floating-point datum. A finite one keeps the sign of its zero in `neg`. -/
inductive FVal where
  | nan (signalling : Bool)
  | inf (neg : Bool)
  | fin (neg : Bool) (d : Dyadic)
  deriving DecidableEq, Repr

/-- The value of a bit pattern (R128). -/
def FloatFmt.value (f : FloatFmt) (b : Nat) : FVal :=
  let neg := bitOf b (f.eb + f.fb)
  let ex := b / 2 ^ f.fb % 2 ^ f.eb
  let fr := b % 2 ^ f.fb
  let sg : Int := if neg then -1 else 1
  if ex = 2 ^ f.eb - 1 then if fr = 0 then .inf neg else .nan (!bitOf fr (f.fb - 1))
  else if ex = 0 then .fin neg { n := sg * fr, e := 1 - (f.bias : Int) - f.fb }
  else .fin neg { n := sg * (fr + 2 ^ f.fb : Nat), e := (ex : Int) - f.bias - f.fb }

/-- A signalling NaN. -/
def FVal.isSNaN : FVal → Bool
  | .nan true => true
  | _ => false

/-- A NaN. -/
def FVal.isNaN : FVal → Bool
  | .nan _ => true
  | _ => false

/-- An exact zero. -/
def FVal.isZero : FVal → Bool
  | .fin _ d => d.n == 0
  | _ => false

/-- An infinity. -/
def FVal.isInf : FVal → Bool
  | .inf _ => true
  | _ => false

/-- The sign of a datum. -/
def FVal.neg : FVal → Bool
  | .nan _ => false
  | .inf n => n
  | .fin n _ => n

/-- The same datum with the other sign. -/
def FVal.negate : FVal → FVal
  | .nan s => .nan s
  | .inf n => .inf !n
  | .fin n d => .fin (!n) { d with n := -d.n }

/-- Exact sum. -/
def Dyadic.add (a b : Dyadic) : Dyadic :=
  let e := min a.e b.e
  { n := a.n * 2 ^ (a.e - e).toNat + b.n * 2 ^ (b.e - e).toNat, e := e }

/-- Exact product. -/
def Dyadic.mul (a b : Dyadic) : Dyadic := { n := a.n * b.n, e := a.e + b.e }

/-- The order of two exact values: `a` is less than `b`. -/
def Dyadic.lt (a b : Dyadic) : Bool := (a.add { b with n := -b.n }).n < 0

/-- The floor of an exact value. -/
def Dyadic.floor (a : Dyadic) : Int := if 0 ≤ a.e then a.n * 2 ^ a.e.toNat else a.n / 2 ^ (-a.e).toNat

/-! ### Stochastic words (R80) -/

/-- `mix32`. -/
def mix32 (z : BitVec 32) : BitVec 32 :=
  let z1 := (z ^^^ (z >>> 16)) * 0x7FEB352D
  let z2 := (z1 ^^^ (z1 >>> 15)) * 0x846CA68B
  z2 ^^^ (z2 >>> 16)

/-- `sr_word(i)` of a hart's `SEED` and `STRIPBASE`. -/
def srWord (seed base : Word) (i : Nat) : Nat :=
  (mix32 (seed.setWidth 32 ^^^ mix32 (base.setWidth 32 + BitVec.ofNat 32 i))).toNat

/-! ### Rounding (R58, R81, R128, R129) -/

/-- Round away from the truncated magnitude: `rem` of `2^sh` is left over, `odd` says the truncation is odd (R58, R81). -/
def roundUp (mode : Nat) (neg odd : Bool) (rem sh sr : Nat) : Bool :=
  if mode = 0 then 2 ^ sh < 2 * rem || (2 * rem == 2 ^ sh && odd)
  else if mode = 1 then false
  else if mode = 2 then rem ≠ 0 && !neg
  else if mode = 3 then rem ≠ 0 && neg
  else 2 ^ 32 ≤ rem * 2 ^ 32 / 2 ^ sh + sr

/-- The magnitude m × 2^e in units of 2^q, rounded; and whether that was inexact. -/
def roundUnits (mode : Nat) (neg : Bool) (m : Nat) (e q : Int) (sr : Nat) : Nat × Bool :=
  if q ≤ e then (m * 2 ^ (e - q).toNat, false)
  else
    let sh := (q - e).toNat
    let i := m / 2 ^ sh
    let rem := m % 2 ^ sh
    ((if roundUp mode neg (i % 2 == 1) rem sh sr then i + 1 else i), rem != 0)

/-- What a result beyond the largest finite value becomes (R129). -/
def FloatFmt.overflow (f : FloatFmt) (mode : Nat) (neg : Bool) : Nat :=
  let toMax := mode = 1 || (mode = 2 && neg) || (mode = 3 && !neg)
  f.signed neg (if toMax then f.maxBits else f.infBits)

/-- `round_fmt` of a nonzero magnitude m × 2^e, with its flags (R81, R128, R129). A bit below 2^-34 of the last place may
stand for any nonzero rest. -/
def FloatFmt.roundMag (f : FloatFmt) (mode : Nat) (neg : Bool) (m : Nat) (e : Int) (sr : Nat) : Nat × Flags :=
  let top : Int := e + Nat.log2 m
  let emin : Int := 1 - f.bias
  let q := max (top - f.fb) (emin - f.fb)
  let r := roundUnits mode neg m e q sr
  let b := r.1 + (q + f.fb + f.bias - 1).toNat * 2 ^ f.fb
  if f.infBits ≤ b then (f.overflow mode neg, flagOF ||| flagNX)
  else
    let free := roundUnits mode neg m e (top - f.fb) sr
    let tiny := top < emin && (top + 1 < emin || free.1 < 2 ^ (f.fb + 1))
    (f.signed neg b, flagIf r.2 flagNX ||| flagIf (r.2 && tiny) flagUF)

/-- `round_fmt` of an exact value; `zneg` is the sign an exact zero takes. -/
def FloatFmt.round (f : FloatFmt) (mode : Nat) (d : Dyadic) (zneg : Bool) (sr : Nat) : Nat × Flags :=
  if d.n = 0 then (f.signed zneg 0, noFlags) else f.roundMag mode (d.n < 0) d.n.natAbs d.e sr

/-- The canonical NaN, with NV under a condition. -/
def FloatFmt.nanRes (f : FloatFmt) (nv : Bool) : Nat × Flags := (f.nan, flagIf nv flagNV)

/-! ### Operations (R129, R360) -/

/-- A sum of two data. -/
def FloatFmt.add (f : FloatFmt) (mode : Nat) (a b : FVal) (sr : Nat) : Nat × Flags :=
  match a, b with
  | .nan x, .nan y => f.nanRes (x || y)
  | .nan x, _ | _, .nan x => f.nanRes x
  | .inf x, .inf y => if x = y then (f.signed x f.infBits, noFlags) else f.nanRes true
  | .inf x, _ | _, .inf x => (f.signed x f.infBits, noFlags)
  | .fin x d, .fin y g =>
    let zneg := if d.n = 0 && g.n = 0 && x == y then x else mode = 3
    f.round mode (d.add g) zneg sr

/-- An exact product of two data, or the reason it is none. -/
def FVal.mul (a b : FVal) : FVal :=
  match a, b with
  | .nan x, .nan y => .nan (x || y)
  | .nan x, _ | _, .nan x => .nan x
  | .inf x, .inf y => .inf (xor x y)
  | .inf x, .fin y d | .fin y d, .inf x => if d.n = 0 then .nan true else .inf (xor x y)
  | .fin x d, .fin y g => .fin (xor x y) (d.mul g)

/-- A product. 0 × ∞ is invalid (R129). -/
def FloatFmt.mul (f : FloatFmt) (mode : Nat) (a b : FVal) (sr : Nat) : Nat × Flags :=
  match a.mul b with
  | .nan s => f.nanRes s
  | .inf x => (f.signed x f.infBits, noFlags)
  | .fin x d => f.round mode d x sr

/-- a × b + d, rounded once; 0 × ∞ is invalid whatever d holds (R129, R360). -/
def FloatFmt.fma (f : FloatFmt) (mode : Nat) (a b d : FVal) (sr : Nat) : Nat × Flags :=
  match a.mul b with
  | .nan s => f.nanRes (s || d.isSNaN)
  | p => f.add mode p d sr

/-- A quotient. -/
def FloatFmt.div (f : FloatFmt) (mode : Nat) (a b : FVal) (sr : Nat) : Nat × Flags :=
  match a, b with
  | .nan x, .nan y => f.nanRes (x || y)
  | .nan x, _ | _, .nan x => f.nanRes x
  | .inf _, .inf _ => f.nanRes true
  | .inf x, .fin y _ => (f.signed (xor x y) f.infBits, noFlags)
  | .fin x _, .inf y => (f.signed (xor x y) 0, noFlags)
  | .fin x d, .fin y g =>
    if g.n = 0 then if d.n = 0 then f.nanRes true else (f.signed (xor x y) f.infBits, flagDZ)
    else if d.n = 0 then (f.signed (xor x y) 0, noFlags)
    else
      let k := 80 + Nat.log2 g.n.natAbs
      let n := d.n.natAbs * 2 ^ k
      let m := 2 * (n / g.n.natAbs) + (n % g.n.natAbs != 0).toNat
      f.roundMag mode (xor x y) m (d.e - g.e - k - 1) sr

/-- The integer square root of `n`, by its bits below 2^k, `r` being found so far. -/
def isqrt (k n r : Nat) : Nat :=
  match k with
  | 0 => r
  | k + 1 => isqrt k n (if (r + 2 ^ k) * (r + 2 ^ k) ≤ n then r + 2 ^ k else r)

/-- A square root (R129, R360). -/
def FloatFmt.sqrt (f : FloatFmt) (mode : Nat) (a : FVal) (sr : Nat) : Nat × Flags :=
  match a with
  | .nan s => f.nanRes s
  | .inf x => if x then f.nanRes true else (f.infBits, noFlags)
  | .fin x d =>
    if d.n = 0 then (f.signed x 0, noFlags)
    else if x then f.nanRes true
    else
      let odd := (d.e % 2).toNat
      let n := d.n.natAbs * 2 ^ (odd + 160)
      let r := isqrt 120 n 0
      let m := 2 * r + (r * r != n).toNat
      f.roundMag mode false m ((d.e - odd) / 2 - 80 - 1) sr

/-- The bit pattern of a datum in its own format, a NaN made canonical. -/
def FloatFmt.same (f : FloatFmt) (b : Nat) : Nat := if (f.value b).isNaN then f.nan else b

/-- `a` is less than `b`, −0 below +0 (R130). -/
def FVal.below (a b : FVal) : Bool :=
  match a, b with
  | .nan _, _ | _, .nan _ => false
  | .inf x, .inf y => x && !y
  | .inf x, .fin _ _ => x
  | .fin _ _, .inf y => !y
  | .fin x d, .fin y g => if d.n = 0 && g.n = 0 then x && !y else d.lt g

/-- `vfmin` and `vfmax` on patterns (R130). -/
def FloatFmt.minMax (f : FloatFmt) (wantMax : Bool) (a b : Nat) : Nat × Flags :=
  let x := f.value a
  let y := f.value b
  let nv := flagIf (x.isSNaN || y.isSNaN) flagNV
  if x.isNaN then (f.same b, nv)
  else if y.isNaN then (a, nv)
  else ((if xor wantMax (x.below y) then a else if xor wantMax (y.below x) then b else a), nv)

/-- `vfcmp`: the bit and the NV flag (R130, R362). -/
def FloatFmt.compare (f : FloatFmt) (c : FCond) (a b : Nat) : Bool × Flags :=
  let x := f.value a
  let y := f.value b
  let anyNaN := x.isNaN || y.isNaN
  let anyS := x.isSNaN || y.isSNaN
  let eq := !x.below y && !y.below x || (x.isZero && y.isZero)
  match c with
  | .eq => (!anyNaN && eq, flagIf anyS flagNV)
  | .lt => (!anyNaN && !eq && x.below y, flagIf anyNaN flagNV)
  | .le => (!anyNaN && (eq || x.below y), flagIf anyNaN flagNV)
  | .un => (anyNaN, flagIf anyS flagNV)

/-- `vfclass` (R361). -/
def FloatFmt.classify (f : FloatFmt) (b : Nat) : Nat :=
  let sub := b / 2 ^ f.fb % 2 ^ f.eb = 0
  match f.value b with
  | .nan true => 2 ^ 8
  | .nan false => 2 ^ 9
  | .inf true => 2 ^ 0
  | .inf false => 2 ^ 7
  | .fin true d => if d.n = 0 then 2 ^ 3 else if sub then 2 ^ 2 else 2 ^ 1
  | .fin false d => if d.n = 0 then 2 ^ 4 else if sub then 2 ^ 5 else 2 ^ 6

/-! ### Conversions (R131, R359) -/

/-- Round a datum to a format. -/
def FloatFmt.convert (f : FloatFmt) (mode : Nat) (a : FVal) (sr : Nat) : Nat × Flags :=
  match a with
  | .nan s => f.nanRes s
  | .inf x => (f.signed x f.infBits, noFlags)
  | .fin x d => f.round mode d x sr

/-- A datum to an integer of the range [lo, hi]: rounded, saturated; a NaN gives 0 (R131). -/
def FVal.toInteger (a : FVal) (mode : Nat) (lo hi : Int) (sr : Nat) : Int × Flags :=
  match a with
  | .nan _ => (0, flagNV)
  | .inf x => (if x then lo else hi, flagNV)
  | .fin _ d =>
    let r := roundUnits mode (d.n < 0) d.n.natAbs d.e 0 sr
    let v : Int := if d.n < 0 then -(r.1 : Int) else r.1
    if v < lo then (lo, flagNV) else if hi < v then (hi, flagNV) else (v, flagIf r.2 flagNX)

/-- An exact integer as a datum. -/
def FVal.ofInt (n : Int) : FVal := .fin (n < 0) { n := n, e := 0 }

/-! ### Sums (R141, R142, R363) -/

/-- An exact sum of data, as the sum of a K-step or a reduction is formed: whether an addend was a NaN, whether one was
invalid, whether +∞ and −∞ occurred, the exact value of the finite ones, and whether all were zeros of one sign. -/
structure Total where
  nan : Bool
  nv : Bool
  pos : Bool
  neg : Bool
  d : Dyadic
  allNeg : Bool
  allPos : Bool
  deriving DecidableEq, Repr

/-- The empty sum. -/
def Total.zero : Total :=
  { nan := false, nv := false, pos := false, neg := false, d := { n := 0, e := 0 }, allNeg := true, allPos := true }

/-- One more addend. -/
def Total.add (t : Total) (a : FVal) : Total :=
  match a with
  | .nan s => { t with nan := true, nv := t.nv || s }
  | .inf x => { t with pos := t.pos || !x, neg := t.neg || x }
  | .fin x g =>
    { t with
      d := if g.n = 0 then t.d else t.d.add g
      allNeg := t.allNeg && g.n == 0 && x
      allPos := t.allPos && g.n == 0 && !x }

/-- The sum is a NaN. -/
def Total.isNaN (t : Total) : Bool := t.nan || (t.pos && t.neg)

/-- The sum raises NV. -/
def Total.invalid (t : Total) : Bool := t.nv || (t.pos && t.neg)

/-- The sum is exactly zero, with no NaN or infinity among its addends (R141). -/
def Total.isZero (t : Total) : Bool := !t.nan && !t.pos && !t.neg && t.d.n == 0

/-- The sum as a datum; an exact zero has the sign `zneg`. -/
def Total.value (t : Total) (zneg : Bool) : FVal :=
  if t.isNaN then .nan false
  else if t.pos then .inf false
  else if t.neg then .inf true
  else .fin (if t.d.n = 0 then zneg else t.d.n < 0) t.d

/-- Round a sum (R129, R363). -/
def FloatFmt.total (f : FloatFmt) (mode : Nat) (t : Total) (sr : Nat) : Nat × Flags :=
  if t.isNaN then f.nanRes t.invalid
  else if t.pos || t.neg then (f.signed t.neg f.infBits, flagIf t.nv flagNV)
  else f.round mode t.d (if t.allNeg then true else if t.allPos then false else mode = 3) sr

/-! ### Table interpolation (R146) -/

/-- `vtbl` of one datum with a table's record bytes: the value y, before the last rounding. -/
def tableValue (tb : Bytes) (x : FVal) : FVal :=
  let v := fun a : Nat => fmt32.value (tb.val a 4)
  let entry := fun n : Nat => v (16 + 4 * n)
  let t := fmt32.value (fmt32.mul 0 (fmt32.value (fmt32.add 0 x (v 0).negate 0).1) (v 4) 0).1
  match t with
  | .nan _ => .nan false
  | .inf true => entry 0
  | .inf false => entry 255
  | .fin _ d =>
    if d.n < 0 then entry 0
    else if 255 ≤ d.floor then entry 255
    else
      let n := d.floor.toNat
      let f := (Dyadic.mul (d.add { n := -n, e := 0 }) { n := 65536, e := 0 }).floor
      let diff := fmt32.value (fmt32.add 0 (entry (n + 1)) (entry n).negate 0).1
      let p := diff.mul (.fin false { n := f, e := -16 })
      fmt32.value (fmt32.add 0 (entry n) p 0).1

end Sys2Proof.Machine
end

