-- ==== Sys2Proof/Machine/Lns.lean ====
section
/-! DEFINITION. LNS6: elements, blocks, packing and unpacking, the log-domain operations (R34, R132 to R139). -/

namespace Sys2Proof.Machine

/-- An LNS6 element result: zero, NaR, or a sign with a quarter-log (R132, R136). -/
inductive Lns where
  | zero
  | nar
  | log (neg : Bool) (q : Int)
  deriving DecidableEq, Repr

/-- The table M of R132. -/
def lnsM (i : Nat) : Nat :=
  match i % 4 with
  | 0 => 0x800000 | 1 => 0x9837F0 | 2 => 0xB504F3 | _ => 0xD744FD

/-- Two's-complement value of a scale byte. -/
def scaleOf (b : Nat) : Int := if 128 ≤ b % 256 then (b % 256 : Nat) - 256 else (b % 256 : Nat)

/-- The 6-bit code of element `k` of a block whose 16 bytes have the value `v` (R34, R133). -/
def lnsCode (v k : Nat) : Nat := v / 2 ^ (8 + 6 * k) % 64

/-- The element of a code in a block of scale byte `sb` (R132, R133). -/
def lnsElem (sb code : Nat) : Lns :=
  let l := code % 32
  if sb % 256 = 0x80 then .nar
  else if l = 16 then if 32 ≤ code then .nar else .zero
  else .log (32 ≤ code) (4 * scaleOf sb + (if 16 < l then (l : Int) - 32 else l))

/-- Element `k` of a block. -/
def lnsAt (v k : Nat) : Lns := lnsElem (v % 256) (lnsCode v k)

/-- The exact value of an element (R132); NaR is a quiet NaN. -/
def Lns.value : Lns → FVal
  | .zero => .fin false { n := 0, e := 0 }
  | .nar => .nan false
  | .log neg q =>
    let m : Int := lnsM (q % 4).toNat
    .fin neg { n := if neg then -m else m, e := q / 4 - 23 }

/-- The exact product of two elements in the matrix unit: the quarter-logs add, M is looked up once (R140). -/
def Lns.product (a b : Lns) : FVal :=
  match a, b with
  | .nar, _ | _, .nar => .nan false
  | .zero, _ | _, .zero => .fin false { n := 0, e := 0 }
  | .log x p, .log y q => (Lns.log (xor x y) (p + q)).value

/-- The RNE boundary rows of R135, as the index above 4e. -/
def lnsNearest (m : Nat) : Nat :=
  if m < 0x8B95C2 then 0 else if m < 0xA5FED7 then 1 else if m < 0xC5672B then 2 else if m < 0xEAC0C7 then 3 else 4

/-- A datum rounded to a quarter-log (R135). -/
def toLns (a : FVal) (mode sr : Nat) : Lns × Flags :=
  match a with
  | .nan s => (.nar, flagIf s flagNV)
  | .inf _ => (.nar, flagNV)
  | .fin neg d =>
    if d.n = 0 then (.zero, noFlags)
    else
      let n := d.n.natAbs
      let top := Nat.log2 n
      let m := if top ≤ 23 then n * 2 ^ (23 - top) else n / 2 ^ (top - 23)
      let e : Int := d.e + top
      let j := if m < 0x9837F0 then 0 else if m < 0xB504F3 then 1 else if m < 0xD744FD then 2 else 3
      let lo := lnsM j
      let hi := if j = 3 then 2 ^ 24 else lnsM (j + 1)
      let down := 4 * e + j
      if m = lo then (.log neg down, noFlags)
      else
        let q :=
          if mode = 0 then 4 * e + lnsNearest m
          else if mode = 1 then down
          else if mode = 2 then if neg then down else down + 1
          else if mode = 3 then if neg then down + 1 else down
          else if 2 ^ 32 * (hi - lo) ≤ 2 ^ 32 * (m - lo) + sr * (hi - lo) then down + 1 else down
        (.log neg q, flagNX)

/-- The largest quarter-log among element results. -/
def maxLog (rs : List Lns) : Option Int :=
  rs.foldl
    (fun best r =>
      match r with
      | .log _ q => (match best with | none => some q | some b => some (max b q))
      | _ => best)
    none

/-- The code of an element result at scale E, and its flags (R136). -/
def lnsPackElem (e : Int) (r : Lns) : Nat × Flags :=
  match r with
  | .zero => (0x10, noFlags)
  | .nar => (0x30, noFlags)
  | .log neg q =>
    let l := q - 4 * e
    if l < -15 then (0x10, flagUF ||| flagNX) else (32 * neg.toNat + zext l 5, noFlags)

/-- The value of a list of codes, element 0 lowest (R34). -/
def packCodes (cs : List Nat) : Nat :=
  match cs with
  | [] => 0
  | c :: r => c % 64 + 64 * packCodes r

/-- A block repacked from twenty element results: the value of its 16 bytes, and its flags (R136). -/
def repack (rs : List Lns) : Nat × Flags :=
  let e0 := match maxLog rs with | none => 0 | some q => -((15 - q) / 4)
  if 127 < e0 then (0x80, flagOF ||| flagNX)
  else
    let e := max e0 (-127)
    let ps := rs.map (lnsPackElem e)
    (zext e 8 + 256 * packCodes (ps.map (·.1)), orAll (ps.map (·.2)))

/-- The value of a block of scale 0 whose twenty elements are zero (R371). -/
def zeroBlock : Nat := 256 * packCodes (List.replicate 20 0x10)

/-- The Gaussian-log tables of R137. -/
def gPlus (d : Nat) : Int := [4, 4, 3, 3, 2, 2, 2, 2, 1, 1, 1, 1, 1, 1, 0, 0].getD d 0

/-- G− of R137, for d from 1; G−(0) is zero. -/
def gMinus (d : Nat) : Int := [0, -11, -7, -5, -4, -3, -3, -2, -2, -1, -1, -1, -1, -1, -1, 0].getD d 0

/-- `vlnsmul` of two elements (R139). -/
def Lns.mul (a b : Lns) : Lns :=
  match a, b with
  | .nar, _ | _, .nar => .nar
  | .zero, _ | _, .zero => .zero
  | .log x p, .log y q => .log (xor x y) (p + q)

/-- `vlnsadd` of two elements (R137). -/
def Lns.add (a b : Lns) : Lns :=
  match a, b with
  | .nar, _ | _, .nar => .nar
  | .zero, y => y
  | x, .zero => x
  | .log x p, .log y q =>
    let big := if q ≤ p then (x, p) else (y, q)
    let d := min (big.2 - min p q).toNat 31
    if x = y then .log x (big.2 + gPlus d) else if d = 0 then .zero else .log big.1 (big.2 + gMinus d)

/-- `vscale` of an element by the scale byte of a block (R139). -/
def Lns.scale (a : Lns) (sb : Nat) : Lns :=
  if sb % 256 = 0x80 then .nar
  else
    match a with
    | .log x q => .log x (q + 4 * scaleOf sb)
    | r => r

end Sys2Proof.Machine
end

