-- ==== Sys2Proof/Machine/Vector.lean ====
section
/-! DEFINITION. The V-format words: vector integer and floating-point operations, conversions, LNS6 and permutation, and the
predicate operations (R134, R138, R139, R146, R338, R353 to R364, R369 to R373, R375, R376). -/

namespace Sys2Proof.Machine

/-! ### Shapes (R353) -/

/-- The element count for a width (R353). -/
def Hart.count (h : Hart) (w : Nat) : Nat := min h.len (h.vlmax w)

/-- `sr_word` of the hart (R80). -/
def Hart.sr (h : Hart) (i : Nat) : Nat := srWord h.seed h.stripbase i

/-- The element-by-element template: results for the active elements from `VSTART`, to vd and its copy, with their flags. `w` is
the width written, `wm` the widest read or written, whose element groups it may stop at (R353). -/
def State.elementsOf (s : State) (i : Instr) (d : VReg) (p : PReg) (w wm n : Nat) (f : Nat → Nat × Flags) : Out :=
  finish do
    s.computeOnly i
    let stop := s.cut (s.hart.groupOf wm) s.hart.start n
    let rs := (s.hart.active p s.hart.start stop).map fun k => (k, f k)
    let t := s.onHart fun h =>
      (h.writeElems d w (rs.map fun r => (r.1, r.2.1))).orFlags (orAll (rs.map fun r => r.2.2))
    return t.vend stop n

/-- The template where no element read is wider than those written. -/
def State.elementwise (s : State) (i : Instr) (d : VReg) (p : PReg) (w n : Nat) (f : Nat → Nat × Flags) : Out :=
  s.elementsOf i d p w w n f

/-- A compare of elements of width `w`: results go to bits of p[pd], and of p[dc] under `dk` = 2 (R357). -/
def State.compareInto (s : State) (i : Instr) (pd p : PReg) (w : Nat) (f : Nat → Bool × Flags) : Out := finish do
  s.computeOnly i
  let n := s.hart.count w
  let stop := s.cut (s.hart.groupOf w) s.hart.start n
  let rs := (s.hart.active p s.hart.start stop).map fun k => (k, f k)
  let write := fun (h : Hart) (q : PReg) => rs.foldl (fun h r => h.setP q r.1 r.2.1) h
  let t := s.onHart fun h =>
    let h1 := write h pd
    let h2 := if h.lentDk = 2 then write h1 (Fin.ofNat 8 h.lentDc.val) else h1
    h2.orFlags (orAll (rs.map fun r => r.2.2))
  return t.vend stop n

/-- A whole instruction that writes some units of vd and its copy (R353). -/
def State.wholeUnits (s : State) (i : Instr) (d : VReg) (bytes : Nat) (rs : List (Nat × List Byte)) : Out := finish do
  s.computeOnly i
  return (s.onHart fun h => h.writeUnits d bytes rs).vretire

/-- Element 0 of vd goes to the copy register under `dk` = 2. -/
def Hart.copyFirst (h : Hart) (d : VReg) (w : Nat) : Hart :=
  if h.lentDk = 2 then h.setV h.lentDc (setElem (h.getV h.lentDc) 0 w (elem (h.getV d) 0 w)) else h

/-- A reduction: element 0 of vd and of its copy; where no element is active vd keeps its own (R363, R372). -/
def State.reduceInto (s : State) (i : Instr) (d : VReg) (w : Nat) (r : Option (Nat × Flags)) : Out := finish do
  s.computeOnly i
  match r with
  | none => return (s.onHart fun h => h.copyFirst d w).vretire
  | some (v, f) => return (s.onHart fun h => (h.writeElems d w [(0, v)]).orFlags f).vretire

/-- An element of a vector register of the hart in front. -/
def State.ve (s : State) (r : VReg) (i w : Nat) : Nat := elem (s.hart.getV r) i w

/-! ### Integers (R354, R357, R372, R373) -/

/-- The elements are read signed (R354). -/
def readsSigned (e : ET) (n : Bool) : Bool := e != .n32 && !n

/-- An element's value under its signedness (R354). -/
def vintRead (sg : Bool) (w v : Nat) : Int := if sg then sext v w else v

/-- The element operations of R354. -/
inductive VIntOp where
  | add | sub | mul | mulh | and | or | xor | sll | srl | sra | min | max
  deriving DecidableEq, Repr

/-- The element result of an operation on elements `a` and `b` of width `w` (R354). -/
def vintOp (op : VIntOp) (sg : Bool) (w a b : Nat) : Nat :=
  let x := vintRead sg w a
  let y := vintRead sg w b
  let sh := b % w
  match op with
  | .add => zext (x + y) w
  | .sub => zext (x - y) w
  | .mul => zext (x * y) w
  | .mulh => zext (x * y / (2 ^ w : Nat)) w
  | .and => a &&& b
  | .or => a ||| b
  | .xor => a ^^^ b
  | .sll => a * 2 ^ sh % 2 ^ w
  | .srl => a / 2 ^ sh
  | .sra => zext (sext a w / (2 ^ sh : Nat)) w
  | .min => if x ≤ y then a else b
  | .max => if x ≤ y then b else a

/-- A vector integer operation (R353, R354). -/
def State.vint (s : State) (i : Instr) (op : VIntOp) (d a b : VReg) (p : PReg) (e : ET) (n : Bool) : Out :=
  let w := e.width
  s.elementwise i d p w (s.hart.count w) fun k =>
    (vintOp op (readsSigned e n) w (s.ve a k w) (s.ve b k w), noFlags)

def execVadd (d a b : VReg) (p : PReg) (e : ET) (n : Bool) (s : State) : Out := s.vint (.vadd d a b p e n) .add d a b p e n
def execVsub (d a b : VReg) (p : PReg) (e : ET) (n : Bool) (s : State) : Out := s.vint (.vsub d a b p e n) .sub d a b p e n
def execVmul (d a b : VReg) (p : PReg) (e : ET) (n : Bool) (s : State) : Out := s.vint (.vmul d a b p e n) .mul d a b p e n
def execVmulh (d a b : VReg) (p : PReg) (e : ET) (n : Bool) (s : State) : Out :=
  s.vint (.vmulh d a b p e n) .mulh d a b p e n
def execVand (d a b : VReg) (p : PReg) (e : ET) (n : Bool) (s : State) : Out := s.vint (.vand d a b p e n) .and d a b p e n
def execVor (d a b : VReg) (p : PReg) (e : ET) (n : Bool) (s : State) : Out := s.vint (.vor d a b p e n) .or d a b p e n
def execVxor (d a b : VReg) (p : PReg) (e : ET) (n : Bool) (s : State) : Out := s.vint (.vxor d a b p e n) .xor d a b p e n
def execVsll (d a b : VReg) (p : PReg) (e : ET) (n : Bool) (s : State) : Out := s.vint (.vsll d a b p e n) .sll d a b p e n
def execVsrl (d a b : VReg) (p : PReg) (e : ET) (n : Bool) (s : State) : Out := s.vint (.vsrl d a b p e n) .srl d a b p e n
def execVsra (d a b : VReg) (p : PReg) (e : ET) (n : Bool) (s : State) : Out := s.vint (.vsra d a b p e n) .sra d a b p e n
def execVmin (d a b : VReg) (p : PReg) (e : ET) (n : Bool) (s : State) : Out := s.vint (.vmin d a b p e n) .min d a b p e n
def execVmax (d a b : VReg) (p : PReg) (e : ET) (n : Bool) (s : State) : Out := s.vint (.vmax d a b p e n) .max d a b p e n

/-- An integer comparison (R357). -/
def vintCmp (c : ICond) (sg : Bool) (w a b : Nat) : Bool :=
  let x := vintRead sg w a
  let y := vintRead sg w b
  match c with
  | .eq => x == y
  | .ne => x != y
  | .lt => x < y
  | .ge => y ≤ x

def execVcmp (c : ICond) (pd : PReg) (a b : VReg) (p : PReg) (e : ET) (n : Bool) (s : State) : Out :=
  let w := e.width
  s.compareInto (.vcmp c pd a b p e n) pd p w fun k =>
    (vintCmp c (readsSigned e n) w (s.ve a k w) (s.ve b k w), noFlags)

/-- `vsel` writes every element from `VSTART` on (R373). -/
def execVsel (d a b : VReg) (p : PReg) (e : ET) (n : Bool) (s : State) : Out := finish do
  s.computeOnly (.vsel d a b p e n)
  let w := e.width
  let n := s.hart.count w
  let stop := s.cut (s.hart.groupOf w) s.hart.start n
  let ks := (List.range stop).filter fun k => decide (s.hart.start ≤ k)
  let rs := ks.map fun k => (k, if s.hart.pred p k then s.ve a k w else s.ve b k w)
  return (s.onHart fun h => h.writeElems d w rs).vend stop n

/-- One step of an integer reduction (R372). -/
def iredStep (r : IRed) (sg : Bool) (w x a : Nat) : Nat :=
  match r with
  | .add => vintOp .add sg w x a
  | .min => vintOp .min sg w x a
  | .max => vintOp .max sg w x a
  | .and => x &&& a
  | .or => x ||| a
  | .xor => x ^^^ a

def execVred (d a : VReg) (r : IRed) (p : PReg) (e : ET) (n : Bool) (s : State) : Out :=
  let w := e.width
  let ks := s.hart.active p 0 (s.hart.count w)
  s.reduceInto (.vred d a r p e n) d w
    (if ks.isEmpty then none
     else some (ks.foldl (fun x k => iredStep r (readsSigned e n) w x (s.ve a k w)) (s.ve d 0 w), noFlags))

/-! ### Floating point (R360 to R363, R376) -/

/-- The format of a floating-point element type (R55). -/
def fmtOfEt (e : ET) : FloatFmt :=
  match e with
  | .bf16 => fmtB
  | .f16 => fmt16
  | _ => fmt32

/-- A floating-point operation by elements: `f` has the format, the rounding code and `sr_word`. -/
def State.vfp (s : State) (i : Instr) (d : VReg) (p : PReg) (e : ET) (f : FloatFmt → Nat → Nat → Nat → Nat × Flags) : Out :=
  s.elementwise i d p e.width (s.hart.count e.width) fun k => f (fmtOfEt e) s.hart.effRmode (s.hart.sr k) k

/-- The datum of an element. -/
def State.fv (s : State) (f : FloatFmt) (r : VReg) (k : Nat) : FVal := f.value (s.ve r k f.width)

def execVfadd (d a b : VReg) (p : PReg) (e : ET) (s : State) : Out :=
  s.vfp (.vfadd d a b p e) d p e fun f m sr k => f.add m (s.fv f a k) (s.fv f b k) sr
def execVfsub (d a b : VReg) (p : PReg) (e : ET) (s : State) : Out :=
  s.vfp (.vfsub d a b p e) d p e fun f m sr k => f.add m (s.fv f a k) (s.fv f b k).negate sr
def execVfmul (d a b : VReg) (p : PReg) (e : ET) (s : State) : Out :=
  s.vfp (.vfmul d a b p e) d p e fun f m sr k => f.mul m (s.fv f a k) (s.fv f b k) sr
def execVfma (d a b : VReg) (p : PReg) (e : ET) (s : State) : Out :=
  s.vfp (.vfma d a b p e) d p e fun f m sr k => f.fma m (s.fv f a k) (s.fv f b k) (s.fv f d k) sr
def execVfnma (d a b : VReg) (p : PReg) (e : ET) (s : State) : Out :=
  s.vfp (.vfnma d a b p e) d p e fun f m sr k => f.fma m (s.fv f a k).negate (s.fv f b k) (s.fv f d k) sr
def execVfdiv (d a b : VReg) (p : PReg) (e : ET) (s : State) : Out :=
  s.vfp (.vfdiv d a b p e) d p e fun f m sr k => f.div m (s.fv f a k) (s.fv f b k) sr
def execVfsqrt (d a : VReg) (p : PReg) (e : ET) (s : State) : Out :=
  s.vfp (.vfsqrt d a p e) d p e fun f m sr k => f.sqrt m (s.fv f a k) sr
def execVfmin (d a b : VReg) (p : PReg) (e : ET) (s : State) : Out :=
  s.vfp (.vfmin d a b p e) d p e fun f _ _ k => f.minMax false (s.ve a k f.width) (s.ve b k f.width)
def execVfmax (d a b : VReg) (p : PReg) (e : ET) (s : State) : Out :=
  s.vfp (.vfmax d a b p e) d p e fun f _ _ k => f.minMax true (s.ve a k f.width) (s.ve b k f.width)

def execVfcmp (c : FCond) (pd : PReg) (a b : VReg) (p : PReg) (e : ET) (s : State) : Out :=
  let f := fmtOfEt e
  s.compareInto (.vfcmp c pd a b p e) pd p e.width fun k =>
    f.compare c (s.ve a k f.width) (s.ve b k f.width)

def execVfclass (d a : VReg) (p : PReg) (e : ET) (s : State) : Out :=
  s.vfp (.vfclass d a p e) d p e fun f _ _ k => (f.classify (s.ve a k f.width), noFlags)

/-- The value of a floating-point reduction over the active elements `ks` (R363). -/
def State.fred (s : State) (d a : VReg) (r : FRed) (f : FloatFmt) (ks : List Nat) : Nat × Flags :=
  let x := s.ve d 0 f.width
  match r with
  | .sum =>
    f.total s.hart.effRmode (ks.foldl (fun t k => t.add (s.fv f a k)) (Total.zero.add (f.value x))) (s.hart.sr 0)
  | .min => ks.foldl (fun q k => let z := f.minMax false q.1 (s.ve a k f.width); (z.1, q.2 ||| z.2)) (x, noFlags)
  | .max => ks.foldl (fun q k => let z := f.minMax true q.1 (s.ve a k f.width); (z.1, q.2 ||| z.2)) (x, noFlags)

def execVfred (d a : VReg) (r : FRed) (p : PReg) (e : ET) (s : State) : Out :=
  let ks := s.hart.active p 0 (s.hart.count e.width)
  s.reduceInto (.vfred d a r p e) d e.width (if ks.isEmpty then none else some (s.fred d a r (fmtOfEt e) ks))

/-- The value of `vtbl` before its last rounding: a table that no `tblld` installed gives +0 for every datum that is not a NaN
(R376). -/
def tableResult (tb : Option Bytes) (x : FVal) : FVal :=
  match tb with
  | some b => tableValue b x
  | none => match x with | .nan _ => .nan false | _ => .fin false { n := 0, e := 0 }

/-- `vtbl` (R146, R376): it does not stop inside, and begins at `VSTART`. -/
def execVtbl (d a : VReg) (t : Fin 4) (p : PReg) (e : ET) (s : State) : Out := finish do
  s.computeOnly (.vtbl d a t p e)
  let f := fmtOfEt e
  let rs := (s.hart.active p s.hart.start (s.hart.count e.width)).map fun k =>
    let x := s.fv f a k
    let r := f.convert s.hart.effRmode (tableResult (s.cluster.tables.get t) x) (s.hart.sr k)
    (k, r.1, r.2 ||| flagIf x.isSNaN flagNV)
  return (s.onHart fun h =>
    (h.writeElems d e.width (rs.map fun r => (r.1, r.2.1))).orFlags (orAll (rs.map fun r => r.2.2))).vretire

/-! ### Conversions (R131, R359) -/

/-- The range of an integer element type (R131). -/
def intRange (e : ET) : Int × Int :=
  match e with
  | .s16 => (-32768, 32767)
  | .s8 => (-128, 127)
  | .n32 => (0, 4294967295)
  | _ => (-2147483648, 2147483647)

/-- A conversion of one element (R131). DESIGN CHOICE (log entry 43): an integer beyond the largest FP16 value rounds as R129
rounds any value, to infinity or the largest with OF and NX, where the table of R131 names NX alone. -/
def convertElem (src dst : ET) (sat : Bool) (mode sr v : Nat) : Nat × Flags :=
  let lo := (intRange dst).1
  let hi := (intRange dst).2
  if src.isInt then
    let x := vintRead (readsSigned src false) src.width v
    if dst.isInt then (zext (if sat then min (max x lo) hi else x) dst.width, noFlags)
    else (fmtOfEt dst).convert mode (FVal.ofInt x) sr
  else
    let x := (fmtOfEt src).value v
    if dst.isInt then let r := x.toInteger mode lo hi sr; (zext r.1 dst.width, r.2)
    else (fmtOfEt dst).convert mode x sr

/-- A conversion: the element count is that of the wider type; each width has its own positions (R353, R359). -/
def State.vconvert (s : State) (i : Instr) (d a : VReg) (p : PReg) (src : ET) (sat : Bool) (dst : ET) : Out :=
  let wm := max src.width dst.width
  s.elementsOf i d p dst.width wm (s.hart.count wm) fun k =>
    convertElem src dst sat s.hart.effRmode (s.hart.sr k) (s.ve a k src.width)

def execVcvt (d a : VReg) (p : PReg) (src : ET) (sat : Bool) (dst : ET) (s : State) : Out :=
  s.vconvert (.vcvt d a p src sat dst) d a p src sat dst
def execVfcvt (d a : VReg) (p : PReg) (src dst : ET) (s : State) : Out :=
  s.vconvert (.vfcvt d a p src dst) d a p src false dst

/-! ### LNS6 (R138, R139, R369) -/

/-- The checks of the LNS6 words before their loops. -/
def State.lnsChecks (s : State) (i : Instr) : Part Unit := do
  s.computeOnly i
  stopIf (s.hart.vlmax 32 < s.hart.len) (s.raise 0x08 (BitVec.ofNat 64 s.hart.len))

/-- The value of block `b` of a vector register. -/
def State.vblock (s : State) (r : VReg) (b : Nat) : Nat := s.ve r b 128

/-- Element `i` of an LNS6 vector (R133). -/
def State.lnsAt (s : State) (r : VReg) (i : Nat) : Lns := Machine.lnsAt (s.vblock r (i / 20)) (i % 20)

/-- The block loop of R138 over element results with flags. -/
def State.lnsBlocks (s : State) (i : Instr) (d : VReg) (p : PReg) (f : Nat → Lns × Flags) : Out := finish do
  s.lnsChecks i
  let len := s.hart.len
  let stop := s.cut 20 s.hart.start ((len + 19) / 20 * 20)
  let ks := s.hart.active p (s.hart.start / 20) (stop / 20)
  let rs := ks.map fun k =>
    let es := (List.range 20).map fun q => if 20 * k + q < len then f (20 * k + q) else (Lns.zero, noFlags)
    let b := repack (es.map (·.1))
    (k, b.1, b.2 ||| orAll (es.map (·.2)))
  let t := s.onHart fun h =>
    (h.writeElems d 128 (rs.map fun r => (r.1, r.2.1))).orFlags (orAll (rs.map fun r => r.2.2))
  return t.vend stop len

def execVlnspack (d a : VReg) (p : PReg) (s : State) : Out :=
  s.lnsBlocks (.vlnspack d a p) d p fun k => toLns (s.fv fmt32 a k) s.hart.effRmode (s.hart.sr k)

/-- `vlnsunpack` acts element by element; a `VSTART` is taken down to a multiple of 20 (R138). Its results are wider than its
operands: one that overwrites its source does not stop inside, since its operands are read as they stood before (log entry 10). -/
def execVlnsunpack (d a : VReg) (p : PReg) (s : State) : Out := finish do
  s.lnsChecks (.vlnsunpack d a p)
  let stop := if s.hart.overwrites d a then s.hart.len else s.cut 20 s.hart.start s.hart.len
  let rs := (s.hart.active p (s.hart.start / 20 * 20) stop).map fun k =>
    (k, fmt32.convert s.hart.effRmode (s.lnsAt a k).value (s.hart.sr k))
  let t := s.onHart fun h =>
    (h.writeElems d 32 (rs.map fun r => (r.1, r.2.1))).orFlags (orAll (rs.map fun r => r.2.2))
  return t.vend stop s.hart.len

def execVlnsmul (d a b : VReg) (p : PReg) (s : State) : Out :=
  s.lnsBlocks (.vlnsmul d a b p) d p fun k => ((s.lnsAt a k).mul (s.lnsAt b k), noFlags)
def execVlnsadd (d a b : VReg) (p : PReg) (s : State) : Out :=
  s.lnsBlocks (.vlnsadd d a b p) d p fun k => ((s.lnsAt a k).add (s.lnsAt b k), noFlags)
def execVscale (d a b : VReg) (p : PReg) (s : State) : Out :=
  s.lnsBlocks (.vscale d a b p) d p fun k => ((s.lnsAt a k).scale (s.vblock b (k / 20)), noFlags)

/-! ### Permutation (R134, R356, R358, R364, R370, R371, R375) -/

/-- The bytes of a unit of a VPERM word: an element, or a block with et 3 (R134). -/
def permBytes (e : ET) : Nat := e.width / 8

/-- The unit count of a VPERM word (R353). -/
def Hart.permCount (h : Hart) (e : ET) : Nat :=
  if e = .lns6 then min ((h.len + 19) / 20) (h.vlmax 128) else h.count e.width

/-- What a VPERM word writes where it has no source unit (R371). -/
def permZero (e : ET) : List Byte := if e = .lns6 then leBytes 16 zeroBlock else List.replicate (permBytes e) 0

/-- Unit `k` of a vector register for a VPERM word. -/
def State.unit (s : State) (r : VReg) (e : ET) (k : Nat) : List Byte :=
  (s.hart.getV r).getN (k * permBytes e) (permBytes e)

def execVperm (d a b : VReg) (p : PReg) (e : ET) (s : State) : Out :=
  let n := s.hart.permCount e
  let idx := fun k => s.ve b k (if e = .lns6 then 32 else e.width)
  s.wholeUnits (.vperm d a b p e) d (permBytes e)
    ((s.hart.active p 0 n).map fun k => (k, if idx k < n then s.unit a e (idx k) else permZero e))

def execVslideup (d a : VReg) (b : XReg) (p : PReg) (e : ET) (s : State) : Out :=
  let n := s.hart.permCount e
  let sh := (s.getX b).toNat
  s.wholeUnits (.vslideup d a b p e) d (permBytes e)
    ((s.hart.active p sh n).map fun k => (k, s.unit a e (k - sh)))

def execVslidedn (d a : VReg) (b : XReg) (p : PReg) (e : ET) (s : State) : Out :=
  let n := s.hart.permCount e
  let sh := (s.getX b).toNat
  s.wholeUnits (.vslidedn d a b p e) d (permBytes e)
    ((s.hart.active p 0 n).map fun k => (k, if k + sh < n then s.unit a e (k + sh) else permZero e))

def execVcompress (d a : VReg) (p : PReg) (e : ET) (s : State) : Out :=
  s.wholeUnits (.vcompress d a p e) d (permBytes e)
    ((s.hart.active p 0 (s.hart.permCount e)).zipIdx.map fun (k, j) => (j, s.unit a e k))

def execVexpand (d a : VReg) (p : PReg) (e : ET) (s : State) : Out :=
  s.wholeUnits (.vexpand d a p e) d (permBytes e)
    ((s.hart.active p 0 (s.hart.permCount e)).zipIdx.map fun (k, j) => (k, s.unit a e j))

/-- What `vbcast` writes: the low bits of x[xa], or with et 3 a block of one scale and one code (R356). -/
def bcastValue (e : ET) (x : Word) : Nat :=
  if e = .lns6 then bits x.toNat 7 0 + 256 * packCodes (List.replicate 20 (bits x.toNat 13 8)) else x.toNat % 2 ^ e.width

def execVbcast (d : VReg) (a : XReg) (p : PReg) (e : ET) (s : State) : Out :=
  s.elementwise (.vbcast d a p e) d p e.width (s.hart.permCount e) fun _ => (bcastValue e (s.getX a), noFlags)

def execVmv (d a : VReg) (p : PReg) (e : ET) (s : State) : Out :=
  s.elementwise (.vmv d a p e) d p e.width (s.hart.permCount e) fun k => (s.ve a k e.width, noFlags)

/-- `vidx`: the index, wrapped or rounded (R364). -/
def execVidx (d : VReg) (p : PReg) (e : ET) (s : State) : Out :=
  s.elementwise (.vidx d p e) d p e.width (s.hart.count e.width) fun k =>
    if e.isFloat then (fmtOfEt e).convert s.hart.effRmode (FVal.ofInt k) (s.hart.sr k) else (k % 2 ^ e.width, noFlags)

/-! ### Predicates (R338) -/

/-- A predicate result for every element below `VL`.LEN. -/
def State.predInto (s : State) (i : Instr) (d : PReg) (f : Nat → Bool) : Out := finish do
  s.computeOnly i
  return (s.onHart fun h => (List.range h.len).foldl (fun g k => g.setP d k (f k)) h).vretire

def execPand (d a b : PReg) (s : State) : Out := s.predInto (.pand d a b) d fun k => s.hart.pbit a k && s.hart.pbit b k
def execPor (d a b : PReg) (s : State) : Out := s.predInto (.por d a b) d fun k => s.hart.pbit a k || s.hart.pbit b k
def execPxor (d a b : PReg) (s : State) : Out := s.predInto (.pxor d a b) d fun k => xor (s.hart.pbit a k) (s.hart.pbit b k)
def execPnot (d a : PReg) (s : State) : Out := s.predInto (.pnot d a) d fun k => !s.hart.pbit a k

/-- The elements below `VL`.LEN whose bit is 1. -/
def Hart.setBitsOf (h : Hart) (a : PReg) : List Nat := (List.range h.len).filter fun k => h.pbit a k

def execPcnt (d : XReg) (a : PReg) (s : State) : Out := finish do
  s.computeOnly (.pcnt d a)
  return (s.setX d (BitVec.ofNat 64 (s.hart.setBitsOf a).length)).vretire

def execPfirst (d : XReg) (a : PReg) (s : State) : Out := finish do
  s.computeOnly (.pfirst d a)
  return (s.setX d (match s.hart.setBitsOf a with | k :: _ => BitVec.ofNat 64 k | [] => BitVec.allOnes 64)).vretire

end Sys2Proof.Machine
end

