-- ==== Sys2Proof/Machine/VectorMem.lean ====
section
/-! DEFINITION. Vector memory, delivery-queue pops, vector atomics, strips and fences (R153, R184, R187, R195, R216 to R221,
R308 to R310, R344, R346, R355, R365 to R368). -/

namespace Sys2Proof.Machine

/-! ### Unit-wise accesses (R178, R365, R366) -/

/-- Check every unit, each a pair of its index and address, before any performs; the lowest failing one ends the task
(R178). -/
def State.checkUnits (s : State) (ok : Nat → Bool) (us : List (Nat × Nat)) (n : Nat) : Part Unit :=
  match us.findSome? fun u => (firstBad ok u.2 n).map fun a => (a, u.1) with
  | some r => .error (s.leaseFaultAt r.1 r.2)
  | none => .ok ()

/-- Read every unit, each one access; one that meets a busy page waits there, and the instruction with it (R171). -/
def State.readUnits (s : State) (us : List (Nat × Nat)) (n : Nat) : Part (List (Nat × List Byte) × State) :=
  match us with
  | [] => .ok ([], s)
  | u :: r => do
    stopIf (s.atBusy s.hart.task.asid u.2 n) s
    let bs ← s.readMem u.2 n
    let x ← (s.count s.hart.task.asid u.2 n).readUnits r n
    return ((u.1, bs) :: x.1, x.2)

/-- Store units, each with its index, address and bytes, in order; where one meets a busy page the instruction waits, with those
before it performed (R171). -/
def State.storeUnits (s : State) (us : List (Nat × Nat × List Byte)) (c : Fin 16) (done : List Nat) : Part State :=
  match us with
  | [] => .ok s
  | u :: r => do
    stopIf (!s.hart.inStrip && s.atBusy s.hart.task.asid u.2.1 u.2.2.length)
      (s.onHart fun h => { h with unitsDone := h.unitsDone ++ done })
    let t ← s.putStore u.2.1 u.2.2 c
    t.storeUnits r c (done ++ [u.1])

/-- An element takes part in a vector access this time: it has not performed ahead of the rest (R86, R183). -/
def How.takes (w : How) (i : Nat) : Bool := match w with | .without done _ => !done.contains i | _ => true

/-- A unit takes part this time: it has not performed yet. -/
def State.takes (s : State) (i : Nat) : Bool := s.how.takes i && !s.hart.unitsDone.contains i

/-- The active units of a vector access, with the address of each (R366). -/
def State.allUnits (s : State) (p : PReg) (w : EW) (addr : Nat → Word) : List (Nat × Nat) :=
  (s.hart.active p s.hart.start (s.hart.units w)).map fun i => (i, (addr i).toNat)

/-- Those that take part. -/
def State.unitAddrs (s : State) (p : PReg) (w : EW) (addr : Nat → Word) : List (Nat × Nat) :=
  (s.allUnits p w addr).filter fun u => s.takes u.1

/-- Nothing of the instruction has performed before it waited any more: it is over, or stops. -/
def State.unitsOver (s : State) : State := s.onHart fun h => { h with unitsDone := [] }

/-- Where a vector access ends in this turn: at an element group, or at its unit count (R222). -/
def State.unitStop (s : State) (w : EW) : Nat := s.cut (s.hart.groupOf (8 * ewBytes w)) s.hart.start (s.hart.units w)

/-- A vector load of active units below `stop`, every active one checked before any performs (R178, R365, R366). -/
def State.vload (s : State) (i : Instr) (d : VReg) (p : PReg) (w : EW) (stop : Nat) (addr : Nat → Word) : Out := finish do
  s.computeOnly i
  let all := s.unitAddrs p w addr
  s.checkUnits s.hart.task.mayRead all (ewBytes w)
  let us := all.filter fun u => decide (u.1 < stop)
  let r ← s.readUnits us (ewBytes w)
  return (r.2.onHart fun h => h.writeUnits d (ewBytes w) r.1).vend stop (s.hart.units w)

/-- A vector store of active units, in ascending index; buffered inside a strip (R219, R366). -/
def State.vstore (s : State) (i : Instr) (d : VReg) (p : PReg) (w : EW) (c : Slot) (addr : Nat → Word) : Out := finish do
  s.computeOnly i
  let all := s.unitAddrs p w addr
  s.checkUnits s.hart.task.mayWrite all (ewBytes w)
  let us := all.filter fun u => decide (u.1 < s.unitStop w)
  let n := ewBytes w
  let t ← s.storeUnits (us.map fun u => (u.1, u.2, (s.hart.getV d).getN (u.1 * n) n)) (s.hart.effClass c) []
  return t.unitsOver.vend (s.unitStop w) (s.hart.units w)

/-- The unit-stride address (R366). -/
def State.unitStride (s : State) (a : XReg) (w : EW) (i : Nat) : Word := s.getX a + BitVec.ofNat 64 (i * ewBytes w)

/-- The strided address: any stride, 0 and negative included (R366). -/
def State.strided (s : State) (a b : XReg) (i : Nat) : Word := s.getX a + BitVec.ofNat 64 i * s.getX b

/-- The width of an index of `vldx` and `vstx` (R366). -/
def indexBits (w : EW) : Nat := if w = .blk then 32 else 8 * ewBytes w

/-- The bytes of an index register: those taken before any unit was written, or the register's (R366). -/
def State.indexBytes (s : State) (b : VReg) : Bytes :=
  match s.how with
  | .without _ (x :: r) => Bytes.put [] 0 (x :: r)
  | _ => s.hart.getV b

/-- The indexed address: unsigned byte offsets (R366). -/
def State.indexed (s : State) (a : XReg) (b : VReg) (w : EW) (i : Nat) : Word :=
  s.getX a + BitVec.ofNat 64 (elem (s.indexBytes b) i (indexBits w))

def execVld (d : VReg) (a : XReg) (p : PReg) (w : EW) (c : Slot) (s : State) : Out :=
  s.vload (.vld d a p w c) d p w (s.unitStop w) (s.unitStride a w)
def execVlds (d : VReg) (a b : XReg) (p : PReg) (w : EW) (c : Slot) (s : State) : Out :=
  s.vload (.vlds d a b p w c) d p w (s.unitStop w) (s.strided a b)
/-- `vldx`: blocks that overwrite their own indices do not stop inside, since every index is read first (R366, log entry 10). -/
def execVldx (d : VReg) (a : XReg) (b : VReg) (p : PReg) (w : EW) (c : Slot) (s : State) : Out :=
  let stop := if w = .blk && s.hart.overwrites d b then s.hart.units w else s.unitStop w
  s.vload (.vldx d a b p w c) d p w stop (s.indexed a b w)
def execVst (d : VReg) (a : XReg) (p : PReg) (w : EW) (c : Slot) (s : State) : Out :=
  s.vstore (.vst d a p w c) d p w c (s.unitStride a w)
def execVsts (d : VReg) (a b : XReg) (p : PReg) (w : EW) (c : Slot) (s : State) : Out :=
  s.vstore (.vsts d a b p w c) d p w c (s.strided a b)
def execVstx (d : VReg) (a : XReg) (b : VReg) (p : PReg) (w : EW) (c : Slot) (s : State) : Out :=
  s.vstore (.vstx d a b p w c) d p w c (s.indexed a b w)

/-- `vldff` (R216, R367): a failure at the first active unit ends the task; a later one shortens `VL` before any unit performs, so
that a stop inside goes on under the shortened `VL`. -/
def execVldff (d : VReg) (a : XReg) (p : PReg) (w : EW) (c : Slot) (s : State) : Out := finish do
  s.computeOnly (.vldff d a p w c)
  let n := ewBytes w
  let us := s.allUnits p w (s.unitStride a w)
  s.checkUnits s.hart.task.mayRead (us.take 1) n
  let good := us.takeWhile fun u => (firstBad s.hart.task.mayRead u.2 n).isNone
  let shortened := fun h : Hart =>
    match us.drop good.length with
    | [] => h
    | u :: _ => { h with vl := vlWord h.vw (if w = .blk then 20 * u.1 else u.1) }
  let t := s.onHart shortened
  let r ← t.readUnits (good.filter fun u => s.takes u.1 && decide (u.1 < t.unitStop w)) n
  return (r.2.onHart fun h => h.writeUnits d n r.1).vend (t.unitStop w) (t.hart.units w)

/-! ### The scratchpad (R153, R157, R368) -/

/-- The checks of `vldsp` and `vstsp`: `SPCTL`, then `SPRANGE` (R153, R368). -/
def State.vspChecks (s : State) (o0 : Nat) (cw : Word) (w : EW) : Part Unit := do
  let rot := cwRot cw.toNat
  s.spCtl (cw &&& ~~~(0xC : Word) ≠ 0 || !rotOk rot o0 (ewBytes w)) cw
  stopIf (spSize < o0 + s.hart.units w * ewBytes w) (s.raise 0x0A (BitVec.ofNat 64 (max o0 spSize)))

/-- The bytes of a scratchpad unit, by their offsets (R152, R153). -/
def spUnit (rot o0 : Nat) (w : EW) (i : Nat) : List Nat :=
  (List.range (ewBytes w)).map fun k => spByte rot o0 0 (i * ewBytes w + k)

/-- A copy entry writes a scratchpad byte among those of a list. -/
def CopyEntry.writesSp (offs : List Nat) (e : CopyEntry) : Bool :=
  match e.work with
  | .copy ms =>
    ms.any fun m => match m.dst with | .sp .. => (List.range m.len).any fun k => offs.contains (m.dst.byteAt k) | _ => false
  | .writing gs =>
    gs.any fun g => match g.base with | .sp .. => g.bytes.any fun x => offs.contains (g.base.byteAt x.1) | _ => false
  | .fill .. => false

/-- The copies of the cluster's tasks, those of pre-empted ones among them, that were accepted before the number `began` and
write one of the bytes. -/
def State.copyPending (s : State) (began : Nat) (offs : List Nat) : Bool :=
  (s.clusterHarts ++ s.parked.filter fun h => h.name.cluster == s.cluster.num).any fun h =>
    h.copies.any fun e => decide (e.id < began) && e.writesSp offs

/-- A chained load waits for the copies that write the bytes it reads and were accepted before the load began, at the number
`began`: they perform, but for those of a hart whose pre-emption stopped them, on which the load waits (R157). -/
def State.chain (s : State) (began : Nat) (offs : List Nat) : Part State :=
  if s.copyPending began offs then
    match s.drainCluster with
    | .ok t => if t.copyPending began offs then .error t else .ok t
    | .error t => .error t
  else .ok s

def execVldsp (d : VReg) (a b : XReg) (p : PReg) (w : EW) (c : Slot) (s : State) : Out := finish do
  s.computeOnly (.vldsp d a b p w c)
  let o0 := (s.getX a).toNat
  let cw := s.getX b
  s.vspChecks o0 cw w
  let rot := cwRot cw.toNat
  let stop := s.unitStop w
  let began := if s.hart.start = 0 then s.nextName else s.hart.began.getD s.nextName
  let t ← s.chain began ((s.hart.active p s.hart.start stop).flatMap (spUnit rot o0 w))
  let rs := (t.hart.active p t.hart.start stop).map fun i => (i, (spUnit rot o0 w i).map t.spGet)
  let part := if stop < s.hart.units w then some began else none
  return (t.onHart fun h => { h.writeUnits d (ewBytes w) rs with began := part }).vend stop (s.hart.units w)

def execVstsp (d : VReg) (a b : XReg) (p : PReg) (w : EW) (c : Slot) (s : State) : Out := finish do
  s.computeOnly (.vstsp d a b p w c)
  s.noStrip
  let o0 := (s.getX a).toNat
  let cw := s.getX b
  s.vspChecks o0 cw w
  let n := ewBytes w
  let stop := s.unitStop w
  let ws := (s.hart.active p s.hart.start stop).flatMap fun i =>
    (spUnit (cwRot cw.toNat) o0 w i).zip ((s.hart.getV d).getN (i * n) n)
  return (s.spPut ws).vend stop (s.hart.units w)

/-! ### Delivery queues (R195, R344) -/

/-- The first `n` slots of a queue exist and hold their bytes. -/
def slotsReady (q : List DSlot) (n : Nat) : Bool := n ≤ q.length && (q.take n).all fun d => d.bytes.isSome

/-- No other hart reached the queue before this one. -/
def State.firstPopper (s : State) (q : Fin 16) : Bool :=
  match s.cluster.poppers.get q with
  | p :: _ => p.name == s.hart.name
  | [] => true

/-- The hart in front waits at a delivery queue, behind those that reached it before (R88, R344). -/
def State.reachQueue (s : State) (q : Fin 16) (n : Nat) : State :=
  s.onCluster fun c =>
    let ps := c.poppers.get q
    if ps.any fun p => p.name == s.hart.name then c
    else { c with poppers := c.poppers.set q.val (ps ++ [{ name := s.hart.name, need := n }]) }

/-- `qld` (R344): the engine queues of the cluster perform where the pop has to wait for bytes; an entry not there yet, and a
`qld` that reached the queue before, keep the hart waiting. -/
def execQld (d : VReg) (q : Fin 16) (p : PReg) (w : EW) (s : State) : Out := finish do
  s.computeOnly (.qld d q p w)
  let u := s.hart.units w
  let sz := ewBytes w
  let n := (u * sz + 127) / 128
  if n = 0 then return s.vretire
  stopIf (s.cluster.qcap.get q < n) (s.raise 0x0C (BitVec.ofNat 64 n))
  let t ← if slotsReady (s.cluster.queues.get q) n then .ok s else s.drainCluster
  let slots := t.cluster.queues.get q
  stopIf (!slotsReady slots n || !t.firstPopper q) (t.reachQueue q n)
  let data := (slots.take n).flatMap fun e => e.bytes.getD []
  let rs := (t.hart.active p 0 u).map fun i => (i, (data.drop (i * sz)).take sz)
  let t1 := t.onCluster fun c => { c.unqueue s.hart.name with queues := c.queues.set q.val (slots.drop n) }
  return (t1.onHart fun h => h.writeUnits d sz rs).vretire

/-! ### Vector atomics (R217, R355) -/

/-- Why the elements of a `vamo` ended before the last: an ordered one is misaligned, or one waits at a busy page. -/
inductive VamoEnd where
  | misaligned (i : Nat)
  | busy
  deriving DecidableEq, Repr

/-- The elements of a `vamo` in ascending order, each one access at its home slice: the old values so far, and where they end
(R171, R217). Elements without an order may go ahead of the rest in turns of their own (`State.turnElems`). -/
def State.vamoRun (s : State) (op : AmoOp) (n : Nat) (ord : Bool) (us : List (Nat × Nat × Nat)) (done : List (Nat × Nat)) :
    Part (List (Nat × Nat) × Option VamoEnd × State) :=
  match us with
  | [] => .ok (done, none, s)
  | (i, va, b) :: r =>
    if ord && va % n ≠ 0 then .ok (done, some (.misaligned i), s)
    else if s.atBusy s.hart.task.asid va n then .ok (done, some .busy, s)
    else
      match s.atHome va n fun old => some (amoNew op (8 * n) old b) with
      | .error t => .error t
      | .ok x => x.2.vamoRun op n ord r (done ++ [(i, x.1)])

/-- `vamo` with one operation (R355). -/
def State.vamo (s : State) (i : Instr) (op : AmoOp) (d : VReg) (a : XReg) (b : VReg) (p : PReg) (w64 : Bool) : Out := finish do
  s.computeOnly i
  s.noStrip
  let n := atomBytes w64
  let w := 8 * n
  let ks := (s.hart.active p s.hart.start (s.hart.count w)).filter s.takes
  let us := ks.map fun k => (k, (s.getX a + BitVec.ofNat 64 (s.ve b k w)).toNat)
  let ord := s.hart.lentE0
  match us.find? fun u => !ord && u.2 % n ≠ 0 with
  | some u => .error (s.raise 0x12 (BitVec.ofNat 64 u.1))
  | none =>
    s.checkUnits s.hart.task.mayWrite us n
    let stop := s.cut (if ord then 1 else s.hart.groupOf w) s.hart.start (s.hart.count w)
    let now := us.filter fun u => decide (u.1 < stop)
    let r ← s.vamoRun op n ord (now.map fun u => (u.1, u.2, s.ve d u.1 w)) []
    let t := r.2.2.onHart fun h => h.writeElems d w r.1
    match r.2.1 with
    | some (.misaligned k) => return (t.onHart fun h => { h with vstart := BitVec.ofNat 64 k }).raise 0x12 (BitVec.ofNat 64 k)
    | some .busy => return t.onHart fun h => { h with unitsDone := h.unitsDone ++ r.1.map (·.1) }
    | none => return t.unitsOver.vend stop (s.hart.count w)

def execVamoAdd (d : VReg) (a : XReg) (b : VReg) (p : PReg) (w64 : Bool) (c : Slot) (s : State) : Out :=
  s.vamo (.vamoAdd d a b p w64 c) .add d a b p w64
def execVamoMin (d : VReg) (a : XReg) (b : VReg) (p : PReg) (w64 : Bool) (c : Slot) (s : State) : Out :=
  s.vamo (.vamoMin d a b p w64 c) .min d a b p w64
def execVamoMax (d : VReg) (a : XReg) (b : VReg) (p : PReg) (w64 : Bool) (c : Slot) (s : State) : Out :=
  s.vamo (.vamoMax d a b p w64 c) .max d a b p w64
def execVamoAnd (d : VReg) (a : XReg) (b : VReg) (p : PReg) (w64 : Bool) (c : Slot) (s : State) : Out :=
  s.vamo (.vamoAnd d a b p w64 c) .and d a b p w64
def execVamoOr (d : VReg) (a : XReg) (b : VReg) (p : PReg) (w64 : Bool) (c : Slot) (s : State) : Out :=
  s.vamo (.vamoOr d a b p w64 c) .or d a b p w64
def execVamoXor (d : VReg) (a : XReg) (b : VReg) (p : PReg) (w64 : Bool) (c : Slot) (s : State) : Out :=
  s.vamo (.vamoXor d a b p w64 c) .xor d a b p w64
def execVamoSwap (d : VReg) (a : XReg) (b : VReg) (p : PReg) (w64 : Bool) (c : Slot) (s : State) : Out :=
  s.vamo (.vamoSwap d a b p w64 c) .swap d a b p w64

/-! ### Strips (R218 to R221, R346) -/

/-- `sbegin` opens a strip (R218). -/
def execSbegin (a : XReg) (s : State) : Out := finish do
  s.computeOnly (.sbegin a)
  stopIf (s.hart.level == .k || s.hart.st 13) (s.raise 0x10 0)
  return (s.onHart fun h => { h.setSt 13 true with stripbase := s.getX a, strip := [] }).retire

/-- Buffered stores perform in order; one that meets a busy page waits there, and the commit with it (R171). -/
def State.commitFrom (s : State) (bs : List StripStore) : Part State :=
  match bs with
  | [] => .ok s
  | b :: r =>
    if b.bypass then s.commitFrom r
    else if s.atBusy s.hart.task.asid b.va.toNat b.bytes.length then .error (s.onHart fun h => { h with strip := b :: r })
    else
      match s.writeAt s.hart.task.asid b.va.toNat b.bytes with
      | .ok t => t.commitFrom r
      | .error a => .error (s.xlateFault a)

/-- `scommit` performs the buffered stores in program order (R218). -/
def execScommit (s : State) : Out := finish do
  s.computeOnly .scommit
  stopIf (s.hart.level == .k || !s.hart.st 13) (s.raise 0x10 0)
  let t ← s.commitFrom s.hart.strip
  return (t.onHart fun h => { h.setSt 13 false with strip := [] }).retire

/-- `sabort` drops them (R218). -/
def execSabort (s : State) : Out := finish do
  s.computeOnly .sabort
  stopIf (s.hart.level == .k || !s.hart.st 13) (s.raise 0x10 0)
  return (s.onHart fun h => { h.setSt 13 false with strip := [] }).retire

/-! ### Fences (R163, R184, R187, R308 to R310) -/

/-- An instruction of the hart in front as it enters the vector queue, with what it takes at issue (R86, R213). -/
def Hart.issued (h : Hart) (i : Instr) (taken : List Byte) (sure : Bool) : Queued :=
  { i := i, pc := h.pc, loops := h.loops, x := h.x, vl := h.vl, classmap := h.classmap, seed := h.seed, stripbase := h.stripbase
    rmode := h.rmode, lent := h.lent, done := [], taken := taken, sure := sure }

/-- The instruction enters the vector queue of the hart in front. -/
def State.pushQueue (s : State) (i : Instr) (taken : List Byte) (sure : Bool) : State :=
  s.onHart fun h => { h with vqueue := h.vqueue ++ [h.issued i taken sure] }

/-- A fence at scope F or S with level V drops the package's cache-remote lines (R169, R184). -/
def fenceDrops (ack : Bool) (scope : Fin 16) : Bool := ack && 7 ≤ scope.val

/-- `fence`: in the scalar stream it holds later accesses of its classes until the earlier ones have performed, and where
vector instructions are queued it enters their queue, which is in order; neither stream waits for the other (R184, R308). With no
queued instruction its half in that queue is over at once, and drops its lines. A whole turn waits at the fence until its
scalar half is over (`State.waits`), and a stop then falls on it (R309). -/
def execFence (ack : Bool) (scope : Fin 16) (cmask : BitVec 16) (s : State) : Out := finish do
  s.noStrip
  stopIf (32 ≤ s.hart.vqueue.length) s
  let drops := fenceDrops ack scope
  let t :=
    if s.hart.vqueue.isEmpty then if drops then s.dropLines else s else s.pushQueue (.fence ack scope cmask) [] true
  return (t.onHart fun h => { h with late := h.late ++ [.fence cmask drops h.pc s.hart.vqueue.length] }).releaseFences.retire

/-- `fencesv.sv` (R187). -/
def execFencesvSv (s : State) : Out := finish do
  s.computeOnly .fencesvSv
  return s.retire

/-- `fencesv.vs` (R187). -/
def execFencesvVs (s : State) : Out := finish do
  s.computeOnly .fencesvVs
  return s.retire

/-- `fenceq`: the entries of the queues it names perform first (R310). -/
def execFenceq (qmask : BitVec 8) (s : State) : Out := finish do
  s.noStrip
  let t ← s.drainAll fun q => qmask.getLsbD q.val
  return t.retire

/-- `spfence` advances the operand-cache generation; what an older one holds is unusable (R163). -/
def execSpfence (s : State) : Out := finish do
  s.computeOnly .spfence
  s.noStrip
  return (s.onCluster fun c => { c with generation := c.generation + 1, operands := [] }).retire

end Sys2Proof.Machine
end

