-- ==== Sys2Proof/Machine/Matrix.lean ====
section
/-! DEFINITION. The matrix words: the K walk of `mma`, `mmasp` and `mmats`, the epilogue, attachment, and the tile moves
(R115 to R120, R140 to R144, R162, R244, R320 to R335). -/

namespace Sys2Proof.Machine

/-! ### Operand elements (R116, R133, R140) -/

/-- Elements of an operand row. -/
def fmtCap : Fmt → Nat
  | .f32 => 32 | .bf16 | .f16 => 64 | .s8 | .n8 => 128 | .lns6 => 160

/-- Elements of a K-step. -/
def fmtDepth : Fmt → Nat
  | .f32 => 8 | .bf16 | .f16 => 32 | .s8 | .n8 => 64 | .lns6 => 160

/-- The format sums integers (R143). -/
def fmtIsInt (f : Fmt) : Bool := f == .s8 || f == .n8

/-- An operand element: a number of an IEEE or integer format, or an LNS6 element. -/
inductive Operand where
  | num (v : FVal)
  | lns (l : Lns)
  deriving DecidableEq, Repr

/-- The `n` bytes at an offset, as a little-endian value. -/
def field (bs : List Byte) (off n : Nat) : Nat := leVal ((bs.drop off).take n)

/-- Element `k` of an operand row. -/
def operandAt (f : Fmt) (row : List Byte) (k : Nat) : Operand :=
  match f with
  | .f32 => .num (fmt32.value (field row (4 * k) 4))
  | .bf16 => .num (fmtB.value (field row (2 * k) 2))
  | .f16 => .num (fmt16.value (field row (2 * k) 2))
  | .s8 => .num (FVal.ofInt (sext (field row k 1) 8))
  | .n8 => .num (FVal.ofInt (field row k 1))
  | .lns6 => .lns (lnsAt (field row (16 * (k / 20)) 16) (k % 20))

/-- The exact product of two elements of one format (R140). -/
def Operand.times (a b : Operand) : FVal :=
  match a, b with
  | .num x, .num y => x.mul y
  | .lns x, .lns y => x.product y
  | _, _ => .nan false

/-- The exact sum S of a K-step (R141, R142). -/
def stepSum (as bs : List Operand) : Total := (as.zip bs).foldl (fun t p => t.add (p.1.times p.2)) Total.zero

/-! ### One K-step of one element (R141 to R144) -/

/-- The second accumulator after a step of R144 whose first one went from the datum `x` to the pattern `t`. -/
def compensate (x : FVal) (sum : Total) (t c : Nat) : Nat :=
  let e :=
    match x, sum.value false, fmt32.value t with
    | .fin _ a, .fin _ b, .fin _ g => (fmt32.round 0 ((a.add b).add { g with n := -g.n }) false 0).1
    | _, _, _ => 0
  (fmt32.add 0 (fmt32.value c) (fmt32.value e) 0).1

/-- The accumulators `v` and `c` after a step of sum S, with the flags. -/
def accumulate (f : Fmt) (comp : Bool) (v c : Nat) (sum : Total) : Nat × Nat × Flags :=
  if fmtIsInt f then (zext (sext v 32 + sum.d.floor) 32, c, noFlags)
  else if sum.isZero then (v, c, noFlags)
  else
    let r := fmt32.add 0 (fmt32.value v) (sum.value false) 0
    (r.1, if comp then compensate (fmt32.value v) sum r.1 c else c, r.2 ||| flagIf sum.invalid flagNV)

/-! ### The K walk (R117, R328) -/

/-- Row `i` of walked tile `n`. -/
def walkRow (tiles : List (List (List Byte))) (n i : Nat) : List Byte := (tiles.getD n []).getD i []

/-- The elements `ks` of row `i` of an operand. -/
def walkElems (f : Fmt) (tiles : List (List (List Byte))) (ks : List Nat) (i : Nat) : List Operand :=
  ks.map fun k => operandAt f (walkRow tiles (k / fmtCap f) i) (k % fmtCap f)

/-- The indices k of K-step `st`. -/
def stepIndices (f : Fmt) (len st : Nat) : List Nat :=
  (List.range (min (fmtDepth f * (st + 1)) len - fmtDepth f * st)).map (fmtDepth f * st + ·)

/-- One K-step of the whole accumulator, element [i][j] at position 32 i + j. -/
def kStep (f : Fmt) (comp : Bool) (as bs : List (List Operand)) (acc : List (Nat × Nat × Flags)) :
    List (Nat × Nat × Flags) :=
  acc.zipIdx.map fun (p, x) =>
    let r := accumulate f comp p.1 p.2.1 (stepSum (as.getD (x / 32) []) (bs.getD (x % 32) []))
    (r.1, r.2.1, p.2.2 ||| r.2.2)

/-- The K-steps a list names, in order. -/
def kWalk (f : Fmt) (comp : Bool) (len : Nat) (a b : List (List (List Byte))) (steps : List Nat)
    (acc : List (Nat × Nat × Flags)) : List (Nat × Nat × Flags) :=
  steps.foldl
    (fun acc st =>
      let ks := stepIndices f len st
      kStep f comp ((List.range 32).map (walkElems f a ks)) ((List.range 32).map (walkElems f b ks)) acc)
    acc

/-- The K-steps of a length, from `VSTART` (R328). -/
def kSteps (f : Fmt) (len start : Nat) : List Nat :=
  (List.range ((len + fmtDepth f - 1) / fmtDepth f)).filter fun st => start / fmtDepth f ≤ st

/-- `n` values of four bytes. -/
def words32 (n : Nat) (bs : List Byte) : List Nat :=
  match n with
  | 0 => []
  | n + 1 => leVal (bs.take 4) :: words32 n (bs.drop 4)

/-- The 1,024 elements of an accumulator tile. -/
def tileWords (b : Bytes) : List Nat := words32 1024 (b.getN 0 tileSize)

/-- The bytes of an accumulator tile. -/
def ofWords (ws : List Nat) : Bytes := Bytes.put [] 0 (ws.flatMap (leBytes 4))

/-- The rows of a tile. -/
def tileRows (b : Bytes) : List (List Byte) := (List.range 32).map (tileRow b)

/-! ### Tiles an instruction names, in order (R119) -/

/-- Tile `t` + `k`. -/
def tileAfter (t : TReg) (k : Nat) : TReg := Fin.ofNat 256 (t.val + k)

/-- The tiles of a walk of `n`. -/
def walkTiles (t : TReg) (n : Nat) : List TReg := (List.range n).map (tileAfter t)

/-- The read check of a tile: only an Absent one needs its backing, leased and translated. -/
def State.tileReadOk (s : State) (t : TReg) : Part Unit :=
  if s.hart.tile t ≠ .absent then .ok ()
  else if !s.tileMay t false then .error (s.tileFault t)
  else
    match s.runs s.hart.task.asid (backing s.hart.mapbase t.val) tileSize with
    | .ok _ => .ok ()
    | .error a => .error (s.tileXlate t a)

/-- The checks of a tile that is written and read first. -/
def State.tileSumOk (s : State) (t : TReg) : Part Unit := do
  s.tileWriteOk t
  s.tileReadOk t

/-- What a part that waits for a slot leaves: the state before it; one that ended the task stands. -/
def State.orWait (s : State) (r : Part State) : Part State :=
  match r with
  | .ok t => .ok t
  | .error t => .error (if t.hart.bound && t.hart.task.serial == s.hart.task.serial then s else t)

/-- Read tiles in order. -/
def State.readTiles (s : State) (ts : List TReg) : Part (List Bytes × State) :=
  match ts with
  | [] => .ok ([], s)
  | t :: r => do
    let x ← s.readTile t
    let y ← x.2.readTiles r
    return (x.1 :: y.1, y.2)

/-- Mark the tiles Undefined, but for those also written (R115). -/
def State.killTiles (s : State) (ts written : List TReg) : State :=
  ts.foldl (fun s t => if written.contains t then s else s.killTile t) s

/-- Count retired K-steps, which are work units of the open step alone: in it, and for the governor (R266, R267, R270). -/
def Hart.addUnits (h : Hart) (n : Nat) : Hart :=
  match h.step with
  | some _ => { h with dlnDone := min (h.dlnDone + n) (2 ^ 28 - 1), retired := h.retired + n }
  | none => h

/-- Raise `NOATTACH` (R120). -/
def State.needAttach (s : State) : Part Unit := stopIf (!s.hart.attached) (s.raise 0x05 0)

/-- The K-steps an instruction does in this turn: all, or the first ones where the turn has it stop. One whose accumulator or the
tile after it lies in a walked range does not stop (R223, R329). -/
def State.stepsNow (s : State) (steps : List Nat) (walked : List TReg) (d : TReg) : List Nat :=
  match s.how with
  | .part k => if walked.contains d || walked.contains (tileAfter d 1) then steps else steps.take (k + 1)
  | _ => steps

/-- The shared body of the `mma` class. `tb` is the tile read as B, none where `bRows` gives the rows of B for the number of
walked tiles, after its own checks (R328 to R330). One that stops leaves `VSTART` at the first k not summed, and last use
comes at retirement (R223). -/
def State.matmul (s : State) (i : Instr) (f : Fmt) (td : AReg) (ta : TReg) (tb : Option TReg) (lu : BitVec 2)
    (bRows : Nat → Part (List (List (List Byte)))) : Out := finish do
  s.computeOnly i
  s.needAttach
  let len := s.hart.len
  if len = 0 then return s.vretire
  let n := (len + fmtCap f - 1) / fmtCap f
  let past := fun t : TReg => decide (255 < t.val + n - 1)
  stopIf (past ta || (tb.map past).getD false) (s.raise 0x04 (BitVec.ofNat 64 len))
  let given ← bRows n
  let comp := s.hart.lentE0
  let as := walkTiles ta n
  let bs := (tb.map fun t => walkTiles t n).getD []
  let d : TReg := Fin.ofNat 256 td.val
  let ds := if comp then [d, tileAfter d 1] else [d]
  (as ++ bs).forM s.tileReadOk
  ds.forM s.tileSumOk
  let ra ← s.readTiles as
  let rb ← ra.2.readTiles bs
  let rd ← rb.2.readTiles ds
  let a := ra.1.map tileRows
  let b := if tb.isSome then rb.1.map tileRows else given
  let v0 := tileWords (rd.1.getD 0 [])
  let c0 := tileWords (rd.1.getD 1 [])
  let steps := kSteps f len s.hart.start
  let now := s.stepsNow steps (as ++ bs) d
  let acc := kWalk f comp len a b now ((v0.zip c0).map fun p => (p.1, p.2, noFlags))
  let t1 ← s.orWait (rd.2.writeTile d (ofWords (acc.map (·.1))))
  let t2 ← if comp then s.orWait (t1.writeTile (tileAfter d 1) (ofWords (acc.map (·.2.1)))) else .ok t1
  let t3 := t2.onHart fun h => (h.orFlags (orAll (acc.map (·.2.2)))).addUnits now.length
  match steps.drop now.length with
  | st :: _ => return t3.onHart fun h => { h with vstart := BitVec.ofNat 64 (fmtDepth f * st) }
  | [] =>
    let dead := (if lu.getLsbD 1 then as else []) ++ (if lu.getLsbD 0 then bs else [])
    return (t3.killTiles dead ds).vretire

/-- `mma` (R328, R329). -/
def execMma (f : Fmt) (td : AReg) (ta tb : TReg) (lu : BitVec 2) (s : State) : Out :=
  s.matmul (.mma f td ta tb lu) f td ta (some tb) lu fun _ => .ok []

/-! ### Rows of the scratchpad and of the tensor store (R152, R162) -/

/-- The first offset of row `j` of walked tile `n` of a pitched access (R152). -/
def pitchedRow (cw o0 n j : Nat) : Nat := o0 + cwTpitch cw * n + cwRpitch cw * j

/-- The lowest offset at or above the scratchpad's end among rows of 128 bytes (R150). -/
def rowsOver (starts : List Nat) : Option Nat :=
  ((starts.filter fun o => spSize < o + 128).map fun o => max o spSize).min?

/-- The checks of a pitched access of `n` walked tiles: `SPCTL`, then `SPRANGE` (R150 to R152). -/
def State.pitchedChecks (s : State) (o0 : Nat) (cw : Word) (n : Nat) : Part Unit := do
  let w := cw.toNat
  s.spCtl (bits w 63 36 ≠ 0 || cwDir w ≠ 0 || !pitchOk w o0) cw
  match rowsOver ((List.range n).flatMap fun m => (List.range 32).map (pitchedRow w o0 m)) with
  | some o => .error (s.raise 0x0A (BitVec.ofNat 64 o))
  | none => .ok ()

/-- The offsets of the bytes of row `j` of walked tile `n`. -/
def pitchedBytes (cw o0 n j : Nat) : List Nat :=
  (List.range 128).map (rowByte (cwRot cw) (pitchedRow cw o0 n j) j)

/-- A byte of an operand as a fetch sees it: the operand cache may serve its granule as it was fetched in the current
generation (R163). -/
def State.opByte (s : State) (handle : Word) (o : Nat) (b : Byte) : Byte :=
  let hit := fun l : OpLine => l.handle == handle && l.granule == o / 16 && l.generation == s.cluster.generation
  match s.cluster.operands.find? hit with
  | some l => l.bytes.getD (o % 16) b
  | none => b

/-- A scratchpad byte as an operand fetch sees it. -/
def State.opSp (s : State) (o : Nat) : Byte := s.opByte 0 o (s.spGet o)

/-- `mmasp` (R330). -/
def execMmasp (f : Fmt) (td : AReg) (ta : TReg) (b c : XReg) (s : State) : Out :=
  s.matmul (.mmasp f td ta b c) f td ta none 0 fun n => do
    let o0 := (s.getX b).toNat
    let cw := s.getX c
    s.pitchedChecks o0 cw n
    return (List.range n).map fun m => (List.range 32).map fun j => (pitchedBytes cw.toNat o0 m j).map s.opSp

/-- The carve-out of a handle that is current and of the hart's tenant (R162). -/
def State.carve? (s : State) (handle : Word) : Option Carve :=
  s.carves.find? fun c => c.handle == handle && c.tenant == s.hart.task.tenant

/-- The rows of a carve-out (R161). -/
def Carve.rows (c : Carve) : Nat := bits c.handle.toNat 18 14 * 524288

/-- Raise a cause whose `TVAL` the spec does not name (log entry 7). -/
def State.raiseOpen (s : State) (cause : Nat) : State := s.takeTval.2.raise cause s.takeTval.1

/-- `mmats` (R162, R330). -/
def execMmats (f : Fmt) (td : AReg) (ta : TReg) (b c : XReg) (s : State) : Out :=
  s.matmul (.mmats f td ta b c) f td ta none 0 fun n => do
    match s.carve? (s.getX b) with
    | none => .error (s.raiseOpen 0x0D)
    | some k =>
      let w := (s.getX c).toNat
      s.spCtl (bits w 63 48 ≠ 0) (s.getX c)
      let row := fun m j => bits w 23 0 + bits w 47 24 * m + j
      stopIf (k.rows ≤ row (n - 1) 31) (s.raiseOpen 0x0E)
      let rowBytes := fun r : Nat => (k.bytes.getN (128 * r) 128).zipIdx.map fun (b, x) => s.opByte k.handle (128 * r + x) b
      return (List.range n).map fun m => (List.range 32).map fun j => rowBytes (row m j)

/-! ### Attachment and tile states (R115, R120, R322, R325, R335) -/

/-- `mattach` (R120). -/
def execMattach (s : State) : Out := finish do
  s.computeOnly .mattach
  return (s.onHart fun h => { h with attached := true }).retire

/-- `mdetach` (R120). -/
def execMdetach (s : State) : Out := finish do
  s.computeOnly .mdetach
  return (s.onHart fun h => { h with attached := false }).retire

/-- `mzero` (R335). -/
def execMzero (t : TReg) (s : State) : Out := finish do
  s.computeOnly (.mzero t)
  s.tileWriteOk t
  let s1 ← s.writeTile t []
  return s1.retire

/-- `mfree` (R115). -/
def execMfree (t : TReg) (s : State) : Out := finish do
  s.computeOnly (.mfree t)
  return (s.killTile t).retire

/-- `mpref`: a fill of an Absent tile starts, unless the lease would refuse it (R115). -/
def execMpref (t : TReg) (s : State) : Out := finish do
  s.computeOnly (.mpref t)
  let x : Transfer := { base := s.hart.mapbase, tile := t, spill := false, cancelled := false }
  let start := s.hart.tile t == .absent && s.tileMay t false && !s.hart.transfers.contains x
  return (if start then s.onHart fun h => { h with transfers := h.transfers ++ [x] } else s).retire

/-! ### Tiles and memory (R326) -/

/-- Check `n` bytes at each address; the lowest failing byte ends the task. -/
def State.checkRows (s : State) (ok : Nat → Bool) (as : List Nat) (n : Nat) : Part Unit :=
  match (as.filterMap fun a => firstBad ok a n).min? with
  | some a => .error (s.leaseFault a)
  | none => .ok ()

/-- The addresses of `n` rows from `base` at a pitch. -/
def rowAddrs (base pitch : Word) (n : Nat) : List Nat :=
  (List.range n).map fun r => (base + BitVec.ofNat 64 r * pitch).toNat

/-- Store rows in ascending order, but for those that performed before one had to wait (R171). -/
def State.storeRows (s : State) (as : List Nat) (rows : List (List Byte)) (c : Fin 16) : Part State :=
  let us := ((as.zip rows).zipIdx.map fun x => (x.2, x.1)).filter fun u => s.takes u.1
  (s.storeUnits us c []).map State.unitsOver

/-- `mld` (R326). -/
def execMld (t : TReg) (a b : XReg) (c : Slot) (h : Bool) (s : State) : Out := finish do
  s.computeOnly (.mld t a b c h)
  let as := rowAddrs (s.getX a) (s.getX b) 32
  s.checkRows s.hart.task.mayRead as 128
  s.tileWriteOk t
  let r ← s.readUnits ((as.zipIdx).map fun x => (x.2, x.1)) 128
  let s2 ← s.orWait (r.2.writeTile t (Bytes.put [] 0 (r.1.flatMap (·.2))))
  return s2.retire

/-- `mst` (R326); buffered inside a strip (R219). -/
def execMst (t : TReg) (a b : XReg) (c : Slot) (h : Bool) (s : State) : Out := finish do
  s.computeOnly (.mst t a b c h)
  let as := rowAddrs (s.getX a) (s.getX b) 32
  s.checkRows s.hart.task.mayWrite as 128
  let r ← s.readTile t
  let s1 ← r.2.storeRows as (tileRows r.1) (s.hart.effClass c)
  return s1.retire

/-! ### Tiles and the scratchpad (R327) -/

/-- `mldsp` (R157, R327). -/
def execMldsp (t : TReg) (a b : XReg) (c : Slot) (h : Bool) (s : State) : Out := finish do
  s.computeOnly (.mldsp t a b c h)
  let o0 := (s.getX a).toNat
  let cw := s.getX b
  s.pitchedChecks o0 cw 1
  s.tileWriteOk t
  let offs := (List.range 32).flatMap (pitchedBytes cw.toNat o0 0)
  let s1 ← s.chain s.nextName offs
  let s2 ← s1.writeTile t (Bytes.put [] 0 (offs.map s1.spGet))
  return s2.retire

/-- `mstsp` (R327). -/
def execMstsp (t : TReg) (a b : XReg) (c : Slot) (h : Bool) (s : State) : Out := finish do
  s.computeOnly (.mstsp t a b c h)
  s.noStrip
  let o0 := (s.getX a).toNat
  let cw := s.getX b
  s.pitchedChecks o0 cw 1
  let r ← s.readTile t
  let ws := (List.range 32).flatMap fun j => (pitchedBytes cw.toNat o0 0 j).zip (tileRow r.1 j)
  return (r.2.spPut ws).retire

/-! ### Tiles and vector registers (R333, R334) -/

/-- The row select word's check. -/
def rowSelOk (w lanes : Nat) : Bool :=
  bits w 63 21 = 0 && bits w 15 14 = 0 && bits w 7 5 = 0 && bits w 4 0 + bits w 20 16 + 1 ≤ 32
    && bits w 13 8 + bits w 20 16 + 1 ≤ 2 * lanes

/-- `mt2v` (R334). -/
def execMt2v (t : TReg) (a : VReg) (b : XReg) (s : State) : Out := finish do
  s.computeOnly (.mt2v t a b)
  let w := (s.getX b).toNat
  stopIf (!rowSelOk w s.hart.lanes) (s.raise 0x04 (s.getX b))
  let r ← s.readTile t
  let bs := r.1.getN (128 * bits w 4 0) (128 * (bits w 20 16 + 1))
  return (r.2.onHart fun h => h.setV a ((h.getV a).put (128 * bits w 13 8) bs)).retire

/-- `mv2t` (R334): a write of all 32 rows needs no value of the tile. -/
def execMv2t (t : TReg) (a : VReg) (b : XReg) (s : State) : Out := finish do
  s.computeOnly (.mv2t t a b)
  let w := (s.getX b).toNat
  stopIf (!rowSelOk w s.hart.lanes) (s.raise 0x04 (s.getX b))
  s.tileWriteOk t
  let bs := (s.hart.getV a).getN (128 * bits w 13 8) (128 * (bits w 20 16 + 1))
  let old ← if bits w 20 16 = 31 then .ok ([], s) else s.readTile t
  let s1 ← s.orWait (old.2.writeTile t (Bytes.put old.1 (128 * bits w 4 0) bs))
  return s1.retire

/-! ### Tile moves (R331) -/

/-- The blockwise transpose of a tile's bytes for elements of `sz` bytes. -/
def transpose (sz : Nat) (b : Bytes) : Bytes :=
  let e := 128 / sz
  let all := b.getN 0 tileSize
  Bytes.put [] 0
    ((List.range 32).flatMap fun i =>
      (List.range e).flatMap fun x => (all.drop ((x % 32 * e + x / 32 * 32 + i) * sz)).take sz)

/-- `mmov` and `mtrans`: `f` of the source's bytes go to tb; an Undefined source makes tb Undefined. -/
def State.moveTile (s : State) (i : Instr) (ta tb : TReg) (lu : Bool) (f : Bytes → Bytes) : Out := finish do
  s.computeOnly i
  s.tileReadOk ta
  s.tileWriteOk tb
  let r ← s.readTile ta
  let s1 ← if s.hart.tile ta = .undefined then .ok (r.2.killTile tb) else s.orWait (r.2.writeTile tb (f r.1))
  return (if lu then s1.killTiles [ta] [tb] else s1).retire

def execMmov (ta tb : TReg) (lu : Bool) (s : State) : Out := s.moveTile (.mmov ta tb lu) ta tb lu id

def execMtrans (ta tb : TReg) (f : Fin 4) (lu : Bool) (s : State) : Out :=
  s.moveTile (.mtrans ta tb f lu) ta tb lu (transpose (4 / 2 ^ f.val))

/-! ### The epilogue (R323, R324) -/

/-- The bytes of an output row of `mepi` by OFMT. -/
def epiRowBytes (ofmt : Nat) : Nat := if ofmt = 0 then 128 else if ofmt = 3 then 32 else 64

/-- The descriptor is well-formed: BIAS, OFMT, the ACT and IN byte, ROWS, and the reserved field. -/
def epiOk (d : List Byte) : Bool :=
  field d 12 1 ≤ 3 && field d 13 1 < 4 && 1 ≤ field d 14 2 && field d 14 2 ≤ 32 && field d 24 8 = 0
    && field d 0 8 % 4 = 0

/-- One element of the epilogue before its last rounding: a FP32 pattern and its flags. -/
def epiValue (d : List Byte) (bias a : Nat) : Nat × Flags :=
  let x := if bitOf (field d 13 1) 1 then FVal.ofInt (sext a 32) else fmt32.value a
  let p := fmt32.mul 0 x (fmt32.value (field d 8 4)) 0
  let q := fmt32.add 0 (fmt32.value p.1) (fmt32.value bias) 0
  let v := if bitOf (field d 13 1) 0 then fmt32.minMax true q.1 0 else (q.1, noFlags)
  (v.1, p.2 ||| q.2 ||| v.2)

/-- The bytes of an output row from its 32 FP32 values, with the flags of its last roundings. -/
def epiRow (ofmt mode : Nat) (sr : Nat → Nat) (r : Nat) (vs : List Nat) : List Byte × Flags :=
  let ks := vs.zipIdx
  if ofmt = 3 then
    let qs := ks.map fun p => toLns (fmt32.value p.1) mode (sr (32 * r + p.2))
    let b0 := repack ((qs.take 20).map (·.1))
    let b1 := repack ((qs.drop 20).map (·.1) ++ List.replicate 8 .zero)
    (leBytes 16 b0.1 ++ leBytes 16 b1.1, orAll (qs.map (·.2)) ||| b0.2 ||| b1.2)
  else
    let fm := if ofmt = 0 then fmt32 else if ofmt = 1 then fmtB else fmt16
    let os := ks.map fun p => fm.convert mode (fmt32.value p.1) (sr (32 * r + p.2))
    (os.flatMap fun o => leBytes (fm.width / 8) o.1, orAll (os.map (·.2)))

/-- The descriptor of a `mepi` and its 32 biases: those it took at issue, or read now (R324). -/
def State.epiData (s : State) (da : Word) : Part (List Byte × State) :=
  match s.how with
  | .without _ (x :: r) => .ok (x :: r, s)
  | _ => do
    s.spCtl (bits da.toNat 4 0 ≠ 0) da
    let d ← s.load da.toNat 32
    s.spCtl (!epiOk d.1) da
    let b ← if field d.1 0 8 = 0 then .ok (List.replicate 128 0, d.2) else d.2.load (field d.1 0 8) 128
    return (d.1 ++ b.1, b.2)

/-- `mepi` (R324). -/
def execMepi (t : TReg) (a b : XReg) (c : Slot) (s : State) : Out := finish do
  s.computeOnly (.mepi t a b c)
  s.noStrip
  s.needAttach
  let r2 ← s.epiData (s.getX a)
  let d := r2.1.take 32
  let rows := field d 14 2
  let ofmt := field d 12 1
  let as := rowAddrs (s.getX b) (BitVec.ofNat 64 (field d 16 8)) rows
  s.checkRows s.hart.task.mayWrite as (epiRowBytes ofmt)
  let x ← r2.2.readTile t
  let ws := tileWords x.1
  let vals := (List.range rows).map fun r =>
    (List.range 32).map fun j => epiValue d (field r2.1 (32 + 4 * j) 4) (ws.getD (32 * r + j) 0)
  let outs := vals.zipIdx.map fun p => epiRow ofmt s.hart.effRmode s.hart.sr p.2 (p.1.map (·.1))
  let fl := orAll (vals.map fun r => orAll (r.map (·.2))) ||| orAll (outs.map (·.2))
  let s1 ← x.2.storeRows as (outs.map (·.1)) (s.hart.effClass c)
  return (s1.onHart fun h => h.orFlags fl).retire

/-! ### Tile sends (R244, R332) -/

/-- The hart a remote tile word names (R233). -/
def tileTarget (w : Nat) : HartName :=
  { cluster := bits w 15 8, core := bits w 17 16, hart := bits w 20 18, ah := false }

/-- `msend` (R244, R332). -/
def execMsend (t : TReg) (a b : XReg) (c : Slot) (s : State) : Out := finish do
  s.computeOnly (.msend t a b c)
  s.noStrip
  let r ← s.readTile t
  let s1 := r.2
  let w := s.getX a
  let tw := (s.getX b).toNat
  let l := s.hart.task.launch
  match s1.ownWindow w with
  | none => return s1.retire
  | some _ =>
    if rawOff w ≠ 0 || bits tw 63 21 ≠ 0 then return (s1.failOp l (rawWin w) 7).retire
    if s.isAbsent (rawPeer w) then return (s1.failOp l (rawWin w) 2).retire
    let o := s1.openOp l (rawWin w)
    let m : TileMsg :=
      { src := s.party, peer := rawPeer w, tenant := s.hart.task.tenant, job := s.hart.task.job, win := rawWin w,
        index := bits tw 7 0, target := tileTarget tw, data := r.1.getN 0 tileSize }
    let rec1 : SendRec := { ticket := o.1, launch := l, win := rawWin w, peer := rawPeer w, failed := false }
    return ({ o.2 with sends := o.2.sends ++ [rec1] }.send (.tile o.1 m)).retire

end Sys2Proof.Machine
end

