-- ==== Sys2Proof/Machine/Copy.lean ====
section
/-! DEFINITION. The copy engine's words: acceptance under the pools, `cpy` and its forms, `qfill` and `tblld` (R145, R151,
R152, R154, R155, R193, R194, R203, R204, R301 to R304, R343, R350). -/

namespace Sys2Proof.Machine

/-! ### Pools (R203, R204) -/

/-- The bound harts whose queues draw from the pool of a hart of the cluster in front. -/
def State.poolHarts (s : State) (h : Hart) : List Hart :=
  s.clusterHarts.filter fun k => k.bound && k.name.ah == h.name.ah && (k.name.ah || k.name.core == h.name.core)

/-- The entries of one engine queue. -/
def Hart.queued (h : Hart) (q : Fin 8) : Nat := (h.copies.filter fun e => e.queue == q).length

/-- The entries a hart's queues hold, its vector queue's among them. -/
def Hart.entries (h : Hart) : Nat := h.copies.length + h.vqueue.length

/-- What a hart's queues still have reserved: the vector queue's minimum is 32. -/
def Hart.reserved (h : Hart) : Nat :=
  (if h.name.ah then 0 else 32 - h.vqueue.length)
    + ((List.range 8).map fun q => h.task.eqMin - h.queued (Fin.ofNat 8 q)).sum

/-- The size of the pool the hart's engine queues draw from. -/
def Hart.poolSize (h : Hart) : Nat := if h.name.ah then 256 else 512

/-- A hart of the cluster may take an entry for an engine queue (R204). -/
def State.mayTake (s : State) (h : Hart) (q : Fin 8) : Bool :=
  let hs := s.poolHarts h
  let free := h.poolSize - (hs.map Hart.entries).sum
  h.queued q < h.task.eqCap && (h.queued q < h.task.eqMin || (hs.map Hart.reserved).sum < free)

/-- A delivery queue may take an entry (R204). -/
def Cluster.roomFor (c : Cluster) (q : Fin 16) : Bool :=
  let n := (c.queues.get q).length
  let free := 512 - (c.queues.toList.map List.length).sum
  let reserve := ((List.range 16).map fun k => c.qmin.get (Fin.ofNat 16 k) - (c.queues.get (Fin.ofNat 16 k)).length).sum
  n < c.qcap.get q && (n < c.qmin.get q || reserve < free)

/-! ### Turns at a pool (R204) -/

/-- The queues of a pool, whose numbers go round in this many. -/
def poolQueues (pool : Nat) : Nat := if pool = 5 then 16 else 72

/-- The pool of a hart's engine queues: its core's, or that of the access harts. -/
def Hart.pool (h : Hart) : Fin 6 := if h.name.ah then 4 else Fin.ofNat 6 (h.name.core % 4)

/-- The number of an engine queue in its pool: a hart has its eight and its vector queue. DESIGN CHOICE (log entry 61): the
rotation goes by hart, and in one hart by its engine queues 0 to 7, then its vector queue. -/
def Hart.queueNum (h : Hart) (q : Fin 8) : Nat := h.name.hart % 8 * 9 + q.val

/-- How far a queue stands behind the one served last. -/
def behind (pool : Nat) (served k : Nat) : Nat := (k + poolQueues pool - (served + 1) % poolQueues pool) % poolQueues pool

/-- A producer that may take an entry has its turn at a pool: it is below its minimum, or none of the others that stall there
and could take one stands before it in the rotation. -/
def Cluster.turnAt (c : Cluster) (pool : Fin 6) (n : HartName) (k : Nat) (low : Bool) (could : Staller → Bool) : Bool :=
  let last := c.served.get pool
  low || (c.stallers.get pool).all fun x =>
    x.name == n || !could x || behind pool.val last k ≤ behind pool.val last x.queue

/-- A producer has taken an entry: its queue was served last, and it stalls no more. -/
def Cluster.serve (c : Cluster) (pool : Fin 6) (n : HartName) (k : Nat) : Cluster :=
  { c with
    served := c.served.set pool.val k, stallers := c.stallers.set pool.val ((c.stallers.get pool).filter fun x => x.name != n) }

/-- A producer stalls. -/
def Cluster.stall (c : Cluster) (pool : Fin 6) (n : HartName) (k : Nat) : Cluster :=
  { c with
    stallers := c.stallers.set pool.val
      ((c.stallers.get pool).filter (fun x => x.name != n) ++ [{ name := n, queue := k }]) }

/-- The hart in front takes an entry for an engine queue if it may and has its turn. -/
def State.hasRoom (s : State) (q : Fin 8) : Bool :=
  let h := s.hart
  s.mayTake h q
    && s.cluster.turnAt h.pool h.name (h.queueNum q) (h.queued q < h.task.eqMin)
      fun x => s.mayTake (s.hartAt x.name) (Fin.ofNat 8 (x.queue % 9))

/-- Room for an entry of an engine queue: where there is none the engines of the cluster perform; the hart stalls while there
is still none. -/
def State.makeRoom (s : State) (q : Fin 8) : Part State :=
  let serve := fun t : State => t.onCluster fun c => c.serve t.hart.pool t.hart.name (t.hart.queueNum q)
  if s.hasRoom q then .ok (serve s)
  else
    match s.drainCluster with
    | .error t => .error t
    | .ok t =>
      if t.hasRoom q then .ok (serve t)
      else .error (t.onCluster fun c => c.stall t.hart.pool t.hart.name (t.hart.queueNum q))

/-- The delivery queue takes an entry of the hart in front now (R87, R204). -/
def State.hasSlot (s : State) (q : Fin 16) : Bool :=
  s.cluster.roomFor q
    && s.cluster.turnAt 5 s.hart.name q.val ((s.cluster.queues.get q).length < s.cluster.qmin.get q)
      fun x => s.cluster.roomFor (Fin.ofNat 16 x.queue)

/-- An entry enters an engine queue: it is accepted (R154). -/
def State.enqueue (s : State) (q : Fin 8) (cmd : CopyCmd) (w : CopyWork) : State :=
  s.takeName.2.onHart fun h =>
    { h with
      copies := h.copies ++ [{ id := s.takeName.1, queue := q, cls := h.effClass 0, cmd := cmd, work := w, granules := 0 }] }

/-- A copy of some moves completes: at once where it moves nothing, else accepted in its queue. -/
def State.acceptCopy (s : State) (q : Fin 8) (cmd : CopyCmd) (ms : List Move) : Part State :=
  if ms.all fun m => m.len == 0 then .ok s.retire
  else (s.makeRoom q).map fun t => (t.enqueue q cmd (.copy ms)).retire

/-- What the saved record of a copy holds: the operation, both address operands, the length, and the record (R301). -/
def State.copyCmd (s : State) (op : Nat) (a b : XReg) (len : Nat) (record : List Byte) : CopyCmd :=
  { op := op, a := s.getX a, b := s.getX b, len := len, record := record }

/-! ### Checks (R150 to R152, R301) -/

/-- A side of a copy, at an address or a scratchpad offset. -/
def sideOf (sp : Bool) (a : Word) (rot rho : Nat) : Side := if sp then .sp a.toNat rot rho 0 else .mem a

/-- The destination of a DIR code is the scratchpad; the source is. -/
def dirDst (d : Nat) : Bool := d == 1 || d == 3
/-- The source. -/
def dirSrc (d : Nat) : Bool := d == 2 || d == 3

/-- The control word of a copy uses DIR and ROT alone (R151). -/
def copyCwBad (cw : Nat) : Bool := bits cw 63 4 ≠ 0 || cwRot cw = 3

/-- A run of `n` bytes at a scratchpad offset passes the end: the first offending offset (R150). -/
def runOver (o n : Nat) : Option Nat := if n ≠ 0 && spSize < o + n then some (max o spSize) else none

/-- Raise `SPRANGE` for the first run that passes the end. -/
def State.checkRuns (s : State) (os : List Word) (n : Nat) : Part Unit :=
  match os.findSome? fun o => runOver o.toNat n with
  | some o => .error (s.raise 0x0A (BitVec.ofNat 64 o))
  | none => .ok ()

/-- End the task at the first byte of some runs that fails a check (R177). -/
def State.checkSpans (s : State) (ok : Nat → Bool) (as : List Word) (n : Nat) : Part Unit :=
  match as.findSome? fun a => firstBad ok a.toNat n with
  | some a => .error (s.leaseFault a)
  | none => .ok ()

/-- The range and lease checks of a copy whose destination and source runs of `n` bytes start at `ds` and `ss` (R155). -/
def State.copyChecks (s : State) (dir : Nat) (ds ss : List Word) (n : Nat) : Part Unit := do
  if dirDst dir then s.checkRuns ds n
  if dirSrc dir then s.checkRuns ss n
  if !dirSrc dir then s.checkSpans s.hart.task.mayRead ss n
  if !dirDst dir then s.checkSpans s.hart.task.mayWrite ds n

/-- A record of 32 bytes, read at issue in class 15: alignment, then the lease (R301). -/
def State.copyRecord (s : State) (a : Word) : Part (List Byte × State) := do
  s.spCtl (bits a.toNat 4 0 ≠ 0) a
  s.load a.toNat 32

/-! ### The copies (R155, R302 to R304) -/

/-- `cpy` (R155). -/
def execCpy (q : Fin 8) (a b c : XReg) (s : State) : Out := finish do
  s.noStrip
  let cw := (s.getX c).toNat
  let rot := cwRot cw
  let dir := cwDir cw
  let d := s.getX a
  let r := s.getX b
  let unit := s.hart.copyWidth
  s.spCtl (copyCwBad cw || (dirDst dir && !rotOk rot d.toNat unit) || (dirSrc dir && !rotOk rot r.toNat unit)) (s.getX c)
  let n := s.hart.copyBytes
  s.copyChecks dir [d] [r] n
  s.acceptCopy q (s.copyCmd 0 a b n (leBytes 8 cw)) [{ src := sideOf (dirSrc dir) r rot 0, dst := sideOf (dirDst dir) d rot 0, len := n }]

/-- The starts of `n` rows at a pitch. -/
def rowStarts (base pitch : Word) (n : Nat) : List Word := (List.range n).map fun r => base + BitVec.ofNat 64 r * pitch

/-- `cpy2d` (R302). -/
def execCpy2d (q : Fin 8) (a b c : XReg) (s : State) : Out := finish do
  s.noStrip
  let ra := s.getX c
  let x ← s.copyRecord ra
  let rec1 := x.1
  let cw := field rec1 0 8
  let rows := field rec1 8 4
  s.spCtl (field rec1 12 4 ≠ 0 || 1048576 < rows) ra
  let rot := cwRot cw
  let dir := cwDir cw
  let ds := rowStarts (s.getX a) (BitVec.ofNat 64 (field rec1 16 8)) rows
  let ss := rowStarts (s.getX b) (BitVec.ofNat 64 (field rec1 24 8)) rows
  let unit := s.hart.copyWidth
  s.spCtl
    (copyCwBad cw || (dirDst dir && ds.any fun o => !rotOk rot o.toNat unit)
      || (dirSrc dir && ss.any fun o => !rotOk rot o.toNat unit))
    (BitVec.ofNat 64 cw)
  let n := s.hart.copyBytes
  s.copyChecks dir ds ss n
  x.2.acceptCopy q (s.copyCmd 1 a b n rec1) ((ds.zip ss).map fun p =>
    { src := sideOf (dirSrc dir) p.2 rot 0, dst := sideOf (dirDst dir) p.1 rot 0, len := n })

/-- The first element of a gather that a check refuses: its source address, or else its destination's (R303). -/
def badElem (src dst : Word → Bool) (es : List (Word × Word)) : Option Word :=
  es.findSome? fun e => if src e.1 then some e.1 else if dst e.2 then some e.2 else none

/-- `cpyg` (R303). -/
def execCpyg (q : Fin 8) (a b c : XReg) (s : State) : Out := finish do
  s.noStrip
  let ra := s.getX c
  let x ← s.copyRecord ra
  let rec1 := x.1
  let cw := field rec1 0 8
  let idx := field rec1 8 8
  s.spCtl (idx % 4 ≠ 0 || field rec1 16 8 ≠ 0 || field rec1 24 8 ≠ 0) ra
  let rot := cwRot cw
  let dir := cwDir cw
  let w := s.hart.copyWidth
  let d := s.getX a
  s.spCtl
    (copyCwBad cw || (dir = 2 && rot ≠ 0) || (dirDst dir && !rotOk rot d.toNat w)) (BitVec.ofNat 64 cw)
  let n := s.hart.copyLen
  if n = 0 then return x.2.retire
  let past := fun o : Word => (runOver o.toNat w).isSome
  let lost := dirDst dir && (firstBad s.hart.task.mayRead idx (4 * n)).isSome
  match (rowStarts d (BitVec.ofNat 64 w) n).find? fun o => lost && past o with
  | some o => .error (s.raise 0x0A o)
  | none =>
  let y ← x.2.load idx (4 * n)
  let es := (List.range n).map fun i =>
    (s.getX b + BitVec.ofNat 64 (field y.1 (4 * i) 4), d + BitVec.ofNat 64 (i * w))
  match badElem (fun o => dirSrc dir && past o) (fun o => dirDst dir && past o) es with
  | some o => .error (s.raise 0x0A o)
  | none =>
    let bad := fun (ok : Nat → Bool) (o : Word) => (firstBad ok o.toNat w).isSome
    match badElem (fun o => !dirSrc dir && bad s.hart.task.mayRead o)
        (fun o => !dirDst dir && bad s.hart.task.mayWrite o) es with
    | some o => .error (s.leaseFault o.toNat)
    | none =>
      y.2.acceptCopy q (s.copyCmd 2 a b (n * w) rec1) (es.zipIdx.map fun (e, i) =>
        { src := sideOf (dirSrc dir) e.1 0 0
          dst := if dirDst dir then .sp d.toNat rot 0 (i * w) else .mem e.2
          len := w })

/-- The contents of a region record are well-formed for `n` bytes and the other side's base (R304). -/
def regionOk (r : List Byte) (n base unit : Nat) : Bool :=
  let rot := field r 6 1
  let side := field r 5 1
  n % 128 = 0 && field r 4 1 ≤ 1 && side ≤ 1 && rot ≤ 2 && (side = 1 || rot = 0) && field r 7 1 = 0
    && field r 8 8 % 16 = 0 && field r 16 8 = 0 && field r 24 8 = 0
    && (side = 0 || (rotOk rot base unit && (rot = 0 || field r 8 8 % 128 = 0)))

/-- `cpyts` (R304). The check of its length needs no record, and so stands before the record is read (R290). -/
def execCpyts (q : Fin 8) (a b c : XReg) (s : State) : Out := finish do
  s.noStrip
  let ra := s.getX c
  s.spCtl (s.hart.copyBytes % 128 ≠ 0) ra
  let h := s.getX b
  let hidden := bits ra.toNat 4 0 = 0 && (firstBad s.hart.task.mayRead ra.toNat 32).isSome
  stopIf (hidden && (s.carve? h).isNone) (s.raiseOpen 0x0D)
  let x ← s.copyRecord ra
  let r := x.1
  let n := s.hart.copyBytes
  let base := s.getX a
  s.spCtl (!regionOk r n base.toNat s.hart.copyWidth) ra
  match s.carve? h with
  | none => .error (s.raiseOpen 0x0D)
  | some k =>
    let rows := n / 128
    let row := field r 0 4
    stopIf (rows ≠ 0 && k.rows < row + rows) (s.raiseOpen 0x0E)
    let out := field r 4 1 == 1
    let sp := field r 5 1 == 1
    let os := rowStarts base (BitVec.ofNat 64 (field r 8 8)) rows
    if sp then s.checkRuns os 128
    if !sp then s.checkSpans (if out then s.hart.task.mayWrite else s.hart.task.mayRead) os 128
    x.2.acceptCopy q (s.copyCmd 3 a b n r) (os.zipIdx.map fun (o, j) =>
      let other := sideOf sp o (field r 6 1) j
      let ts := Side.ts h (128 * (row + j))
      { src := if out then ts else other, dst := if out then other else ts, len := 128 })

/-! ### Delivery queues and tables (R145, R194, R343, R350) -/

/-- `qfill` (R343): its slot is reserved and its entry enters the engine queue; while the queue has no room it waits. -/
def execQfill (q : Fin 8) (a b c : XReg) (s : State) : Out := finish do
  s.noStrip
  let cw := (s.getX c).toNat
  let sp := cwDir cw == 3
  let src := s.getX b
  s.spCtl (cwDir cw = 1 || cwDir cw = 2 || copyCwBad cw || (sp && !rotOk (cwRot cw) src.toNat 16)) (s.getX c)
  stopIf (15 < (s.getX a).toNat) (s.raise 0x0C (s.getX a))
  if sp then s.checkRuns [src] 128
  if !sp then s.checkSpans s.hart.task.mayRead [src] 128
  let dq : Fin 16 := Fin.ofNat 16 (s.getX a).toNat
  stopIf (!s.hasSlot dq) (s.onCluster fun c => c.stall 5 s.hart.name dq.val)
  let t ← s.makeRoom q
  let o := t.takeName
  let slot : DSlot := { id := o.1, owner := t.hart.task.serial, bytes := none }
  let t1 := o.2.onCluster fun k =>
    { k.serve 5 t.hart.name dq.val with queues := k.queues.set dq.val (k.queues.get dq ++ [slot]) }
  return (t1.enqueue q (s.copyCmd 4 a b 128 (leBytes 8 cw)) (.fill (sideOf sp src (cwRot cw) 0) dq o.1)).retire

/-- `tblld` (R145, R350). -/
def execTblld (q : Fin 4) (a : XReg) (s : State) : Out := finish do
  s.noStrip
  let va := s.getX a
  stopIf (bits va.toNat 6 0 ≠ 0) (s.raise 0x09 va)
  let r ← s.load va.toNat 1040
  let rec1 := r.1.take 8 ++ List.replicate 8 0 ++ r.1.drop 16
  return (r.2.onCluster fun k => { k with tables := k.tables.set q.val (some (Bytes.put [] 0 rec1)) }).retire

end Sys2Proof.Machine
end

