-- ==== Sys2Proof/Machine/Mapping.lean ====
section
/-! DEFINITION. Host commands in general, the mapping commands, migration and promotion (R164, R165, R168, R170 to R174,
R176, R245, R246, R377, R379). -/

namespace Sys2Proof.Machine

/-! ### Commands (R245, R246) -/

/-- A command is accepted when its sequence is the last accepted plus 1; any other is dropped. -/
def State.command (s : State) (c : Cmd) (f : State → State) : Out :=
  .next (if c.seq = s.cmdSeq + 1 then f { s with cmdSeq := c.seq } else s)

/-- Answer a command with a status. -/
def State.answer (s : State) (c : Cmd) (code : Nat) : State := s.post c.seq (.status code 0 0 0)

/-- Accept a command that R379 lays out: a nonzero reserved byte is answered with 0xFFFE. -/
def State.laidOut (s : State) (c : Cmd) (f : State → State) : Out :=
  s.command c fun s => if c.badReserved then s.answer c 0xFFFE else f s

/-! ### What an entry must be (R168, R170) -/

/-- The 64 KiB frames a leaf of a level covers. -/
def levelFrames (level : Nat) : Nat := levelSize level / 2 ^ 16

/-- Frames of this package's HBM4, 768 GB of 64 KiB (R170). -/
def localFrames : Nat := 768 * 10 ^ 9 / 2 ^ 16

/-- A frame of a frame group: frames 0 to 30 of a 32-frame block (R170). -/
def inFrameGroup (pfn : Nat) : Bool := pfn % 32 ≤ 30

/-- The leaf entry and its address are in order (R164, R168, R170, R379). DESIGN CHOICE (log entry 46): an entry without V, a
pointer at a level above 3, an address that is not aligned to its page size, and one at or above 2^57 are refused with
`MAP_FIELD` too. -/
def fieldsOk (level va : Nat) (e : Word) : Bool :=
  1 ≤ level && level ≤ 3 && va < 2 ^ 57 && va % levelSize level = 0 && pteValid e && pteLeaf e
    && bits e.toNat 46 44 = 0 && bits e.toNat 15 0 = 0 && ptePfn e % levelFrames level = 0
    && (pteMode e ≠ 0 || ptePeer e = 0) && (pteMode e = 3 || pteThr e = 0)
    && (pteSkew e ≠ 3 || (level = 3 && pteMode e = 0 && inFrameGroup (ptePfn e)))
    && (pteMode e ≠ 0 || ptePfn e + levelFrames level ≤ localFrames)

/-- A leaf maps a byte of a range of a space. -/
def Leaf.touches (l : Leaf) (asid va n : Nat) : Bool := l.asid == asid && meets l.va (levelSize l.level) va n

/-- Bytes of the checkpoint areas, which no task reaches, lie in `n` bytes of this package's HBM4 from `a` up (R226). -/
def State.areasMeet (s : State) (a n : Nat) : Bool :=
  (s.hart :: s.others ++ s.parked).any fun h => h.bound && meets (h.task.ckpt.toNat % 2 ^ 40) h.areaSize a n

/-- The entry is in order, and its frame is none of obsidian's: DESIGN CHOICE (log entry 46), one whose local frame holds bytes of
a checkpoint area is refused with `MAP_FIELD`. -/
def State.entryOk (s : State) (m : MapCmd) : Bool :=
  fieldsOk m.level m.va m.pte
    && (pteMode m.pte ≠ 0 || !s.areasMeet (ptePfn m.pte * 2 ^ 16) (levelSize m.level))

/-- A leaf maps one of `n` frames of a package from `pfn` up (R165). -/
def State.leafHasFrame (s : State) (l : Leaf) (fid pfn n : Nat) : Bool :=
  s.leafFid l == fid && meets (ptePfn l.pte) (levelFrames l.level) pfn n

/-- The package an entry's frame is of. -/
def State.entryFid (s : State) (e : Word) : Nat := if pteMode e = 0 then s.fid else ptePeer e

/-- Some leaf but one at `va` of `asid` maps a frame the entry names: a synonym (R165). -/
def State.synonym (s : State) (asid va level : Nat) (e : Word) : Bool :=
  s.leaves.any fun l =>
    !(l.asid == asid && l.va == va) && s.leafHasFrame l (s.entryFid e) (ptePfn e) (levelFrames level)

/-! ### Address spaces (R164, R379) -/

/-- The ASID of a context identifier, if it has one. -/
def State.asidOf (s : State) (ctx : BitVec 32) : Option Nat := (s.spaces.find? fun p => p.1 == ctx).map (·.2)

/-- The lowest ASID from 1 to 65,535 that no space has (R164). -/
def State.freeAsid (s : State) : Option Nat :=
  ((List.range (min (s.spaces.length + 1) 65535)).map (· + 1)).find? fun a => s.spaces.all fun p => p.2 != a

/-- The ASID a command's page lies under, giving a context identifier that has none a new one; none where no ASID is left
(R164). -/
def State.spaceFor (s : State) (ctx : BitVec 32) (va : Nat) : Option (Nat × State) :=
  if bitOf va 56 then some (0, s)
  else
    match s.asidOf ctx with
    | some a => some (a, s)
    | none => s.freeAsid.map fun a => (a, { s with spaces := s.spaces ++ [(ctx, a)] })

/-! ### Page tables (R167, R168)

The leaf entries are what `State.leaves` holds. The pointer entries follow from them, but for the places of the tables. -/

/-- The bytes an entry of a level covers. -/
def entrySpan (level : Nat) : Nat := if level = 0 then 2 ^ 39 else levelSize level

/-- A pointer entry: V, and bits [39:8] of the next table's address. -/
def pointerEntry (table : Nat) : Word := BitVec.ofNat 64 (2 ^ 63 + table / 2 ^ 8 % 2 ^ 32 * 2 ^ 8)

/-- The entry of a level that a walk for an address meets: its leaf, a pointer to the table of deeper leaves, or an invalid one.
The place of a table is obsidian's choice (log entry 36). -/
def State.entryAt (s : State) (asid va level : Nat) : Word :=
  let a := spaceOf asid va
  match s.leaves.find? fun l => l.level == level && l.maps a va with
  | some l => l.pte
  | none =>
    if s.leaves.any fun l => level < l.level && l.asid == a && l.va / entrySpan level == va / entrySpan level then
      pointerEntry (Config.tableAddress (level + 1) a (va / entrySpan level))
    else 0

/-- The walk of a station over some levels: the leaf entry it finds, if any (R167). -/
def State.walkFrom (s : State) (asid va : Nat) (levels : List Nat) : Option Word :=
  match levels with
  | [] => none
  | k :: r =>
    let e := s.entryAt asid va k
    if !pteValid e then none else if pteLeaf e then some e else s.walkFrom asid va r

/-- The walk of a station, from level 0 to level 3. -/
def State.walk (s : State) (asid va : Nat) : Option Word := s.walkFrom asid va [0, 1, 2, 3]

/-! ### Leases that stand in the way (R108, R176) -/

/-- A page range meets a lease range, rounded outward to 64 KiB (R47). -/
def rangeMeets (r : LeaseRange) (va n : Nat) : Bool :=
  r.len ≠ 0 && Machine.meets (r.start / 65536 * 65536) ((r.start + r.len - 1) / 65536 * 65536 + 65536 - r.start / 65536 * 65536)
    va n

/-- A page range meets the pages of an alloc section. -/
def sectionMeets (r : Section) (va n : Nat) : Bool :=
  r.len ≠ 0 && Machine.meets (r.addr / 65536 * 65536) ((r.addr + r.len - 1) / 65536 * 65536 + 65536 - r.addr / 65536 * 65536)
    va n

/-- A live launch's lease, image or backing areas reach a page range (R108, R175, R176). -/
def State.leased (s : State) (asid tenant va n : Nat) : Bool :=
  (s.launches.any fun l =>
    l.owed.isNone && (if bitOf va 56 then l.tenant == tenant else l.asid == asid)
      && (l.record.lease.any (rangeMeets · va n) || l.record.sections.any (sectionMeets · va n)))
    || ((s.hart :: s.others ++ s.parked).any fun h =>
      h.bound && h.task.asid == asid
        && h.task.grants.any fun g => g.num.isNone && meets (g.first * 65536) (g.pages * 65536) va n)

/-! ### The three commands (R173, R174, R377) -/

/-- Install an entry: the status, and the state. A new address space for which no ASID is left is refused with `MAP_FIELD`
(DESIGN CHOICE, log entry 46), and so is the context identifier 0 outside the shared half (DEDUCED, log entry 26). -/
def State.mapOne (s : State) (tenant : Nat) (m : MapCmd) : Nat × State :=
  match s.spaceFor m.ctxId m.va with
  | none => (3, s)
  | some r =>
    if !s.entryOk m || (r.1 ≠ 0 && m.ctxId = 0) then (3, s)
    else
      let n := levelSize m.level
      match s.leaves.find? fun l => l.touches r.1 m.va n with
      | some l =>
        if r.1 = 0 && l.va = m.va && l.level = m.level && l.pte = m.pte && !l.tenants.contains tenant then
          let add := fun k : Leaf => if k.asid = 0 && k.va = m.va then { k with tenants := k.tenants ++ [tenant] } else k
          (0, { s with leaves := s.leaves.map add })
        else (4, s)
      | none =>
        if s.synonym r.1 m.va m.level m.pte then (1, s)
        else
          let l : Leaf :=
            { asid := r.1, level := m.level, va := m.va, pte := m.pte, tenants := [tenant]
              accesses := 0 }
          (0, { r.2 with leaves := s.leaves ++ [l] }.touch r.1 m.va n)

/-- The leaf of exactly the named size that UNMAP and REMAP name (R377). -/
def State.exactLeaf (s : State) (m : MapCmd) : Option Leaf :=
  match if bitOf m.va 56 then some 0 else s.asidOf m.ctxId with
  | some a => s.leaves.find? fun l => l.asid == a && l.va == m.va && l.level == m.level
  | none => none

/-- Drop the cache-remote lines of a leaf (R169, R173). -/
def State.dropLinesOf (s : State) (l : Leaf) : State := { s with lines := s.lines.filter fun x => !l.maps x.asid x.va }

/-- An UNMAP or REMAP has taken effect; its `MAP_OK` is owed (R174). -/
def State.oweMapOk (s : State) (c : Cmd) : State := { s with mapPending := s.mapPending ++ [{ cmd := c.seq }] }

/-- `MAP` (R173, R377). -/
def execMap (c : Cmd) (m : MapCmd) (s : State) : Out :=
  s.laidOut c fun s =>
    let r := s.mapOne c.tenant m
    r.2.answer c r.1

/-- `UNMAP` (R173, R174, R176, R377): a shared-half leaf goes only when its last tenant withdraws. -/
def execUnmap (c : Cmd) (m : MapCmd) (s : State) : Out :=
  s.laidOut c fun s =>
    match s.exactLeaf m with
    | none => s.answer c 5
    | some l =>
      if l.asid = 0 && !l.tenants.contains c.tenant then s.answer c 5
      else if s.leased l.asid c.tenant l.va (levelSize l.level) then s.answer c 2
      else
        let left := l.tenants.filter (· != c.tenant)
        let ls :=
          if l.asid = 0 && left ≠ [] then s.leaves.map fun k => if k = l then { k with tenants := left } else k
          else s.leaves.filter fun k => k != l
        (({ s with leaves := ls }.touch l.asid l.va (levelSize l.level)).dropLinesOf l).oweMapOk c

/-- `REMAP` (R173, R174, R176, R377): `how` is 0 for KEEP and 1 for PURGE. Stores write through, so `PURGE` finds every byte in
the old frame already, and drops the cached lines; `KEEP` keeps those of a page whose new mode caches (R169). DESIGN CHOICE:
another `how` is refused with `MAP_FIELD` (log entry 51), and the access counter of R171 starts again at 0 (log entry 48). -/
def execRemap (c : Cmd) (m : MapCmd) (how : Nat) (s : State) : Out :=
  s.laidOut c fun s =>
    if !s.entryOk m || 1 < how then s.answer c 3
    else
      match s.exactLeaf m with
      | none => s.answer c 5
      | some l =>
        if s.leased l.asid c.tenant l.va (levelSize l.level) then s.answer c 2
        else if l.asid = 0 && l.tenants.any (· != c.tenant) then s.answer c 6
        else if s.synonym l.asid l.va l.level m.pte then s.answer c 1
        else
          let t := { s with leaves := s.leaves.map fun k => if k = l then { k with pte := m.pte, accesses := 0 } else k }
          (if how = 1 then t.dropLinesOf l else t.keepLines).oweMapOk c

/-- The oldest UNMAP or REMAP that has taken effect completes: no request is under the old entry any more (R174). -/
def execMapCommandCompletes (s : State) : Out :=
  match s.mapPending with
  | p :: r => .next ({ s with mapPending := r }.post p.cmd (.status 0 0 0 0))
  | [] => .next s

/-! ### Migration and promotion (R171, R172) -/

/-- Copy `n` bytes of memory from key `a` to key `b`. -/
def Bytes.copy (m : Bytes) (a b n : Nat) : Bytes :=
  let moved := (m.filter fun c => decide (a ≤ c.1 ∧ c.1 < a + n)).map fun c => (c.1 - a + b, c.2)
  m.filter (fun c => decide (c.1 < b)) ++ moved ++ m.filter (fun c => decide (b + n ≤ c.1))

/-- `n` local frames from `pfn` up are in HBM4, mapped by no leaf, and hold no checkpoint area. -/
def State.framesFree (s : State) (pfn n : Nat) : Bool :=
  pfn + n ≤ localFrames && (s.leaves.all fun l => !s.leafHasFrame l s.fid pfn n)
    && !s.areasMeet (pfn * 2 ^ 16) (n * 2 ^ 16)

/-- A local leaf entry with the SKEW and PROMO fields of another (R171). -/
def localEntry (pfn skew : Nat) (promo : Bool) : Word :=
  BitVec.ofNat 64 (2 ^ 63 + 2 ^ 62 + skew * 2 ^ 48 + promo.toNat * 2 ^ 47 + pfn * 2 ^ 16)

/-- A turn from `s` to `t` would have accessed a page that is marked busy in `s` (R171). -/
def State.metBusy (s t : State) : Bool :=
  s.leaves.any fun l => l.busy && t.leaves.any fun k => k.asid == l.asid && k.va == l.va && decide (l.accesses < k.accesses)

/-- The page marked busy that an address names: that of the hart in front, else that of any address space (R171). -/
def State.busyAt (s : State) (va : Nat) : Option Leaf :=
  let bs := s.leaves.filter fun l => l.busy && l.maps l.asid va
  match bs.find? fun l => l.asid == spaceOf s.hart.task.asid va with
  | some l => some l
  | none => bs.head?

/-- A page that is marked busy migrates to a free local frame, and the host is told (R171). DESIGN CHOICE (log entry 47): a page
whose peer is absent does not migrate, and one for which no aligned local frame is free stays busy until there is one. -/
def execMigrate (va pfn : Nat) (s : State) : Out :=
  match s.busyAt va with
  | none => .next s
  | some l =>
    let n := levelFrames l.level
    if s.isAbsent (ptePeer l.pte) || pfn % n ≠ 0 || !s.framesFree pfn n || (pteSkew l.pte = 3) then .next s
    else
      let e := localEntry pfn (pteSkew l.pte) (ptePromo l.pte)
      let t :=
        { s with
          mem := s.mem.copy (s.frameKey l l.va) (s.fid * 2 ^ 40 + pfn * 2 ^ 16) (levelSize l.level)
          leaves := s.leaves.map fun k => if k = l then { k with pte := e, accesses := 0 } else k }
      .next (t.post 0 (.migrated (s.ctxOf l.asid) l.va e))

/-- The leaves that fill a range of a space with leaves of one level, lowest first; none if one is missing. -/
def State.fill (s : State) (asid va level count : Nat) : Option (List Leaf) :=
  (List.range count).mapM fun k =>
    s.leaves.find? fun l => l.asid == asid && l.level == level && l.va == va + k * levelSize level

/-- A leaf may promote with a first one: local, the hint set, one SKEW other than 3 (R172). DESIGN CHOICE (log entry 49): leaves
of the shared half promote where their lists of admitted tenants are equal, and the new leaf has that list. -/
def Leaf.promotes (l first : Leaf) : Bool :=
  pteMode l.pte = 0 && ptePromo l.pte && pteSkew l.pte = pteSkew first.pte && pteSkew l.pte ≠ 3
    && l.tenants == first.tenants

/-- The promotion engine replaces the leaves that fill a 2 MiB or 1 GiB range by one leaf at a free frame (R172). -/
def execPromotion (asid va level pfn : Nat) (s : State) : Out :=
  let count := if level = 1 then 512 else 32
  if (level ≠ 1 && level ≠ 2) || va % levelSize level ≠ 0 || pfn % levelFrames level ≠ 0
      || !s.framesFree pfn (levelFrames level) then .next s
  else
    match s.fill asid va (level + 1) count with
    | some (f :: fs) =>
      if !(f :: fs).all (fun l => l.promotes f) then .next s
      else
        let l : Leaf :=
          { asid := asid, level := level, va := va, pte := localEntry pfn (pteSkew f.pte) true, tenants := f.tenants
            accesses := 0 }
        let key := fun k : Leaf => s.fid * 2 ^ 40 + pfn * 2 ^ 16 + (k.va - va)
        let mem := (f :: fs).foldl (fun m k => Bytes.copy m (s.frameKey k k.va) (key k) (levelSize k.level)) s.mem
        .next { s with
          mem := mem, leaves := s.leaves.filter (fun k => !(f :: fs).contains k) ++ [l] }
    | _ => .next s

end Sys2Proof.Machine
end

