-- ==== Sys2Proof/Machine/Sha3.lean ====
section
/-! DEFINITION. The SHA3-512 digest that images, their sections and reports carry (R51, R281, R287). The spec names the
function and does not define it: it is that of FIPS 202 (log entry 38). -/

namespace Sys2Proof.Machine

/-- The rotation of each lane in the step ρ, lane x + 5 y. -/
def keccakRot : List Nat :=
  [0, 1, 62, 28, 27, 36, 44, 6, 55, 20, 3, 10, 43, 25, 39, 41, 45, 15, 21, 8, 18, 2, 61, 56, 14]

/-- The constants of the 24 rounds. -/
def keccakConst : List Word :=
  [0x0000000000000001, 0x0000000000008082, 0x800000000000808A, 0x8000000080008000, 0x000000000000808B,
    0x0000000080000001, 0x8000000080008081, 0x8000000000008009, 0x000000000000008A, 0x0000000000000088,
    0x0000000080008009, 0x000000008000000A] ++
  [0x000000008000808B, 0x800000000000008B, 0x8000000000008089, 0x8000000000008003, 0x8000000000008002,
    0x8000000000000080, 0x000000000000800A, 0x800000008000000A, 0x8000000080008081, 0x8000000000008080,
    0x0000000080000001, 0x8000000080008008]

/-- Lane `k` of a Keccak state. -/
def lane (a : List Word) (k : Nat) : Word := a.getD k 0

/-- One round: θ, ρ with π, χ and ι. -/
def keccakRound (a : List Word) (rc : Word) : List Word :=
  let c := (List.range 5).map fun x => lane a x ^^^ lane a (x + 5) ^^^ lane a (x + 10) ^^^ lane a (x + 15) ^^^ lane a (x + 20)
  let d := (List.range 5).map fun x => lane c ((x + 4) % 5) ^^^ (lane c ((x + 1) % 5)).rotateLeft 1
  let t := (List.range 25).map fun k => (lane a k ^^^ lane d (k % 5)).rotateLeft (keccakRot.getD k 0)
  let b := (List.range 25).map fun k => lane t ((k % 5 + 3 * (k / 5)) % 5 + 5 * (k % 5))
  let e := (List.range 25).map fun k =>
    lane b k ^^^ (~~~(lane b ((k % 5 + 1) % 5 + k / 5 * 5)) &&& lane b ((k % 5 + 2) % 5 + k / 5 * 5))
  match e with
  | x :: r => (x ^^^ rc) :: r
  | [] => []

/-- The permutation Keccak-f[1600]. -/
def keccakF (a : List Word) : List Word := keccakConst.foldl keccakRound a

/-- The bytes of a block of the rate of SHA3-512. -/
def sha3Rate : Nat := 72

/-- A block of the rate as the lanes it is XORed into. -/
def keccakBlock (bs : List Byte) : List Word :=
  (List.range 25).map fun k => if k < 9 then BitVec.ofNat 64 (leVal ((bs.drop (8 * k)).take 8)) else 0

/-- Absorb `n` blocks. -/
def keccakAbsorb (n : Nat) (a : List Word) (bs : List Byte) : List Word :=
  match n with
  | 0 => a
  | n + 1 =>
    let x := (a.zip (keccakBlock (bs.take sha3Rate))).map fun p => p.1 ^^^ p.2
    keccakAbsorb n (keccakF x) (bs.drop sha3Rate)

/-- The padding of a message to whole blocks. -/
def sha3Pad (n : Nat) : List Byte :=
  let z := sha3Rate - n % sha3Rate
  if z = 1 then [0x86] else 0x06 :: (List.replicate (z - 2) 0 ++ [0x80])

/-- SHA3-512 of a list of bytes: 64 bytes. -/
def sha3 (bs : List Byte) : List Byte :=
  let m := bs ++ sha3Pad bs.length
  ((keccakAbsorb (m.length / sha3Rate) (List.replicate 25 0) m).take 8).flatMap fun w => leBytes 8 w.toNat

end Sys2Proof.Machine
end

