-- ==== Sys2Proof/Machine/Sof.lean ====
section
/-! DEFINITION. Image files as obsidian reads them: the header, the section table, the symbol `__kvec` and the signature (R42 to
R44, R51, R209). -/

namespace Sys2Proof.Machine

/-! ### The header (R42) -/

/-- The header is that of an image file: magic, version, sizes, target, and zero where R42 says so. DESIGN CHOICE (log
entry 57): an object that is not linked (flag bit 0 clear) is launched like an image, where it is signed. -/
def sofHeaderOk (img : List Byte) : Bool :=
  64 ≤ img.length && field img 0 4 = 0x00464F53 && field img 4 2 = 1 && field img 6 2 < 4 && field img 8 2 = 64
    && field img 10 2 = 64 && field img 32 8 = 0 && field img 48 4 = 0x00314748 && field img 52 12 = 0

/-- Bit 1 of the header's flags: the image is signed. -/
def sofSigned (img : List Byte) : Bool := bitOf (field img 6 2) 1

/-! ### The section table (R43) -/

/-- An entry of the section table. -/
structure SofSection where
  name : Nat
  type : Nat
  flags : Nat
  addr : Nat
  off : Nat
  size : Nat
  deriving DecidableEq, Repr

/-- Entry `k` of the section table. DESIGN CHOICE (log entry 60): bytes past the end of the file read 0. -/
def sofSection (img : List Byte) (k : Nat) : SofSection :=
  let e := img.drop (field img 16 8 + 64 * k)
  { name := field e 0 4, type := field e 4 4, flags := field e 8 8, addr := field e 16 8, off := field e 24 8
    size := field e 32 8 }

/-- The section table. -/
def sofSections (img : List Byte) : List SofSection := (List.range (field img 12 4)).map (sofSection img)

/-- Every section type is in the table of R43; obsidian refuses any other file. -/
def sofTypesOk (img : List Byte) : Bool := (sofSections img).all fun x => x.type ≤ 11

/-- The contents of a section in the file: none for NOBITS. -/
def SofSection.contents (x : SofSection) (img : List Byte) : List Byte :=
  if x.type = 2 then [] else (img.drop x.off).take x.size

/-- The NUL-terminated name at an offset of the string table. -/
def sofName (img : List Byte) (off : Nat) : List Byte :=
  (((sofSection img (field img 24 4)).contents img).drop off).takeWhile (· != 0)

/-- The bytes of a name in ASCII. -/
def ascii (s : String) : List Byte := s.toList.map fun c => BitVec.ofNat 8 c.toNat

/-- The alloc sections of an image, with what obsidian loads (R38, R43). -/
def sofAlloc (img : List Byte) : List Section :=
  ((sofSections img).filter fun x => x.type != 0 && bitOf x.flags 0).map fun x =>
    { addr := x.addr, len := x.size, rodata := sofName img x.name == ascii ".rodata", exec := bitOf x.flags 2
      bytes := x.contents img }

/-! ### Symbols (R44) -/

/-- The entries of the symbol table, 32 bytes each. -/
def sofSymbols (img : List Byte) : List (List Byte) :=
  let t := sofSection img (field img 28 4)
  if t.type = 3 then (List.range (t.size / 32)).map fun k => ((t.contents img).drop (32 * k)).take 32 else []

/-- The value of the defined global symbol `__kvec`; 0 where there is none (R44, R209). DESIGN CHOICE (log entry 60): reserved
bytes of a symbol entry are not looked at. -/
def sofKvec (img : List Byte) : Word :=
  match (sofSymbols img).find? fun e =>
    bits (field e 4 1) 7 4 = 1 && field e 6 2 ≠ 0 && sofName img (field e 0 4) == ascii "__kvec" with
  | some e => BitVec.ofNat 64 (field e 8 8)
  | none => 0

/-! ### The signature (R51) -/

/-- The bytes of a signature part: two digests of 64 bytes and the signature of 4,627. -/
def sofSigSize : Nat := 64 + 64 + 4627

/-- The signature section: the last one, at its offset of the header, with no byte behind it. -/
def sofSig (img : List Byte) : Option (List Byte) :=
  let off := field img 40 8
  if sofSigned img && off ≠ 0 && off + sofSigSize = img.length then some (img.drop off) else none

/-- A signature part signs some bytes under a key the test admits: its digest is theirs, and the signature over it verifies (R51,
R281). -/
def signedBy (sig bs : List Byte) (admits : List Byte → Bool) : Bool :=
  let key := sig.take 64
  let digest := (sig.drop 64).take 64
  admits key && digest == sha3 bs && Config.mlDsaVerify key digest ((sig.drop 128).take 4627)

/-- Obsidian accepts an image for a tenant: its signature is under a key registered for the tenant (R51). -/
def sofAccepted (registered : List (Nat × List Byte)) (tenant : Nat) (img : List Byte) : Bool :=
  match sofSig img with
  | some sig => signedBy sig (img.take (field img 40 8)) fun key => registered.contains (tenant, key)
  | none => false

end Sys2Proof.Machine
end

