-- ==== Sys2Proof/Machine/TaskOps.lean ====
section
/-! DEFINITION. The task instructions `gmem`, `post` and `texit` (R92 to R95, R191, R198, R311, R342, R351). -/

namespace Sys2Proof.Machine

/-! ### Groups (R48, R96, R311) -/

/-- The members of a group of the hart's launch. -/
def State.groupMembers (s : State) (g : Nat) : List Sys2Proof.Member :=
  match s.launch? s.hart.task.launch with
  | some l => l.group g
  | none => []

/-- Bits [31:0] of the word of `gmem` for a member (R311). -/
def State.memberWord (s : State) (m : Sys2Proof.Member) : Nat :=
  let h := memberHart m
  let fid := s.memberFid m
  2 ^ 31 + h.ah.toNat * 2 ^ 24 + (fid == s.fid && h == s.hart.name).toNat * 2 ^ 23 + h.hart % 8 * 2 ^ 20
    + h.core % 4 * 2 ^ 18 + h.cluster % 256 * 2 ^ 10 + fid % 1024

/-- `gmem` (R311). -/
def execGmem (a b c : XReg) (s : State) : Out := finish do
  s.computeOnly (.gmem a b c)
  s.noStrip
  let ms := s.groupMembers (bits (s.getX a).toNat 7 0)
  let low := match ms[(s.getX b).toNat]? with | some m => s.memberWord m | none => 0
  return (s.setX c (BitVec.ofNat 64 (ms.length * 2 ^ 32 + low))).retire

/-! ### Continuation records (R92, R93, R342) -/

/-- Bit k of a mask for each range a task holds (R93). -/
def Task.rangeMask (k : Task) (write : Bool) : Nat :=
  (k.grants.filterMap fun g => if write && !g.write then .none else g.num).foldl (fun m n => m ||| 2 ^ n) 0

/-- `own_ranges AND NOT mask` is what a mask asks beyond a set: none of it. -/
def maskWithin (m own : Nat) : Bool := m &&& own == m

/-- A lane count a record may ask for (R89, R93). -/
def lanesOk (n : Nat) : Bool := n == 4 || n == 8 || n == 16 || n == 32

/-- The contents of a record are acceptable for a task (R93). -/
def Task.mayPost (k : Task) (r : List Byte) : Bool :=
  let lm := field r 24 8
  let wm := field r 32 8
  field r 51 1 = 0 && field r 54 10 = 0 && field r 40 4 ≤ 2 ^ 24 && field r 48 1 ≤ k.priority
    && lanesOk (field r 49 1) && field r 50 1 ≤ 3 && maskWithin lm (k.rangeMask false)
    && maskWithin wm (lm &&& k.rangeMask true)

/-- The ranges a child is granted: those the lease mask names, for writing where the write mask names them (R93). -/
def Task.grantsFor (k : Task) (lm wm : Nat) : List Grant :=
  k.grants.filterMap fun g =>
    match g.num with
    | some n => if bitOf lm n then some { g with write := bitOf wm n } else .none
    | .none => .none

/-- The logical clusters in use: those the map places (R21). -/
def State.usedClusters (s : State) : List Nat :=
  (s.logical.zipIdx.filter fun x => x.1 != 255).map (·.2)

/-- The L2 slice of a physical cluster was withheld at self-test (R20). -/
def State.sliceBad (s : State) (p : Nat) : Bool := s.selfTest.badSlices.contains (p / 48, p % 48)

/-- The logical cluster whose L2 slice is the home of a line (R158, log entry 4). The homes of a withheld slice go to the other
slices of its die (R20). DESIGN CHOICE (log entry 57): where that die has no other good slice of a cluster in use, the homes stay
with the withheld slice's own cluster. -/
def State.homeOf (s : State) (line : Nat) : Nat :=
  let place := fun k : Nat => s.logical.getD k 255
  let us := s.usedClusters
  let k := us.getD (Config.homeCluster line % us.length) 0
  if s.sliceBad (place k) then
    let near := us.filter fun j => place j / 48 == place k / 48 && !s.sliceBad (place j)
    near.getD (Config.homeCluster line / us.length % near.length) k
  else k

/-- The partition a key address selects (R191, R198). The home of a line is the configuration's choice (log entry 4). -/
def State.partitionOf (s : State) (key : Nat) : Nat :=
  if key = 0 then s.hart.name.cluster else s.homeOf (key / 128)

/-- Mark the first record that satisfies a test as spilled. -/
def spillFirst (p : TaskRec → Bool) (q : List TaskRec) : List TaskRec :=
  match q with
  | [] => []
  | r :: t => if p r then { r with spilled := true } :: t else r :: spillFirst p t

/-- The records of a partition on chip. -/
def onChip (q : List TaskRec) (cluster : Nat) : List TaskRec := q.filter fun r => r.cluster == cluster && !r.spilled

/-- A record enters its partition. One that holds 256 records spills its oldest of the lowest priority present (R198). -/
def State.enqueueTask (s : State) (r : TaskRec) : State :=
  let here := onChip s.queue r.cluster
  let q :=
    if here.length < 256 then s.queue
    else
      match (here.map (·.priority)).min? with
      | some p => spillFirst (fun t => t.cluster == r.cluster && !t.spilled && t.priority == p) s.queue
      | none => s.queue
  { s with queue := q ++ [r] }

/-- Records of a partition come back on chip while it has room (R198). DESIGN CHOICE (log entry 57): the one that entered first
comes first, whatever its priority. -/
def unspill (room cluster : Nat) (q : List TaskRec) : List TaskRec :=
  match q with
  | [] => []
  | t :: r =>
    if t.cluster == cluster && t.spilled && room != 0 then { t with spilled := false } :: unspill (room - 1) cluster r
    else t :: unspill room cluster r

/-- A partition refills from its overflow area as room returns (R198). -/
def refill (q : List TaskRec) (cluster : Nat) : List TaskRec := unspill (256 - (onChip q cluster).length) cluster q

/-- Every partition refills. -/
def refillAll (q : List TaskRec) : List TaskRec := ((q.map (·.cluster)).dedup).foldl refill q

/-- `post` (R342). Like `texit`, it traps wherever a strip is open, at level K too (R95, log entry 22). -/
def execPost (a : XReg) (s : State) : Out := finish do
  s.computeOnly (.post a)
  stopIf (s.hart.st 13) (s.raise 0x10 0)
  let va := s.getX a
  stopIf (bits va.toNat 5 0 ≠ 0) (s.raise 0x0F va)
  let x ← s.load va.toNat 64
  let r := x.1
  let k := s.hart.task
  stopIf (!k.mayPost r) (s.raise 0x0F va)
  let n := field r 40 4
  if n = 0 then return x.2.retire
  let o := x.2.takeName
  let t : TaskRec :=
    { id := o.1, launch := k.launch, cluster := s.partitionOf (field r 16 8), entry := BitVec.ofNat 64 (field r 0 8),
      args := BitVec.ofNat 64 (field r 8 8), key := BitVec.ofNat 64 (field r 16 8), argstride := BitVec.ofNat 32 (field r 44 4),
      count := n, next := 0,
      priority := field r 48 1, lanes := field r 49 1, preempt := field r 50 1,
      classmap := BitVec.ofNat 16 (field r 52 2), ranges := k.grantsFor (field r 24 8) (field r 32 8), places := [],
      spilled := false }
  let s1 := o.2.enqueueTask t
  return (s1.onLaunch k.launch fun l => { l with live := l.live + n }).retire

/-- `texit` (R95, R351). -/
def execTexit (s : State) : Out := finish do
  s.computeOnly .texit
  stopIf (s.hart.st 13) (s.raise 0x10 0)
  return s.taskEnd

end Sys2Proof.Machine
end

