-- ==== Sys2Proof/Machine/Launching.lean ====
section
/-! DEFINITION. `LAUNCH` with the image obsidian reads for it, page requests and their answers, and mailbox writes (R38, R42 to R44,
R46 to R49, R51, R89 to R91, R96, R106, R175, R198, R231, R250, R263, R264, R379). -/

namespace Sys2Proof.Machine

/-- A refusal whose status the spec does not state (log entry 9). -/
def State.refuse (s : State) (cmd : BitVec 32) : State :=
  { s with freeCount := s.freeCount + 1 }.post cmd (.status (Config.openStatus s.freeCount % 65533 + 1) 0 0 0)

/-- The tenant is stopped or sealed (R276). -/
def State.quiet (s : State) (tenant : Nat) : Bool := s.tenants.any fun t => t.id == tenant && t.q != .running

/-! ### The checks of a launch (R89) -/

/-- A window is inside a read-write lease range as rounded, or within the tile registers (R231). -/
def windowOk (lease : List LeaseRange) (w : WindowRec) : Bool :=
  if w.tile then w.base + w.len ≤ 256
  else
    lease.any fun r =>
      r.rw && r.len ≠ 0 && r.start / 65536 * 65536 ≤ w.base
        && w.base + w.len ≤ (r.start + r.len - 1) / 65536 * 65536 + 65536

/-- A check that makes `LAUNCH_FIELD` fails (R89, R231). DESIGN CHOICE (log entry 57): a lease record of no range is accepted, as an
empty lease. -/
def State.fieldBad (s : State) (c : Cmd) (r : LaunchRecord) : Bool :=
  let d := r.desc
  47 < d.priority || !lanesOk d.lanes || 3 < d.preempt || 64 < r.lease.length || d.badReserved || 2 ^ 25 ≤ d.count.toNat
    || r.ctxId == 0 || !r.windows.all (windowOk r.lease)
    || s.launches.any fun l => l.tenant == c.tenant && l.job == c.job

/-- A member record names a hart that can be (R48). -/
def memberOk (m : Sys2Proof.Member) : Bool :=
  (match m.fid with | some f => f ≤ 1023 | none => true) && m.cluster ≤ 191
    && (if m.core = 4 then m.hart ≤ 1 else m.core ≤ 3 && m.hart ≤ 7)

/-- A member stands in more than four groups of the table (R48). -/
def State.overGrouped (s : State) (gs : List GroupRec) (m : Sys2Proof.Member) : Bool :=
  4 < (gs.filter fun g => g.members.any fun k => s.memberFid k == s.memberFid m && memberHart k == memberHart m).length

/-- Harts in ascending (cluster, core, hart); an access hart's core is 4. -/
def HartKey (n : HartName) : Nat := (n.cluster * 5 + if n.ah then 4 else n.core) * 8 + n.hart

/-- Insert in ascending order of a key. -/
def insertBy {α : Type} (key : α → Nat) (x : α) (xs : List α) : List α :=
  match xs with
  | [] => [x]
  | y :: r => if key x ≤ key y then x :: y :: r else y :: insertBy key x r

/-- Sort in ascending order of a key. -/
def sortBy {α : Type} (key : α → Nat) (xs : List α) : List α := xs.foldr (insertBy key) []

/-- The harts of this package that the group table names, of the kind the entry address asks for (R263). -/
def State.namedHarts (s : State) (gs : List GroupRec) (ah : Bool) : List HartName :=
  let ms := (gs.flatMap (·.members)).filter fun m => s.memberFid m == s.fid && (m.core == 4) == ah
  sortBy HartKey (ms.map memberHart).dedup

/-- The group table names a hart of this package, of whichever kind (R263). -/
def State.namesLocal (s : State) (gs : List GroupRec) : Bool :=
  gs.any fun g => g.members.any fun m => s.memberFid m == s.fid

/-- A check that makes `LAUNCH_GROUPS` fails (R48, R89, R263). A table that names local harts places every task on the counted
ones, so a count above theirs is refused. DESIGN CHOICE (log entry 63): a hart on a logical cluster that the map does not place
passes, and its task waits. -/
def State.groupsBad (s : State) (r : LaunchRecord) : Bool :=
  let gs := r.groups
  let ah := r.desc.entry.getLsbD 0
  let named := s.namedHarts gs ah
  gs.any (fun g => 255 < g.index || g.members = [] || 256 < g.members.length || g.members.any fun m => !memberOk m)
    || (gs.flatMap (·.members)).any (s.overGrouped gs)
    || (s.namesLocal gs
      && (named.length < r.desc.count.toNat || (!ah && named.any fun n => 32 / r.desc.lanes ≤ n.hart)))

/-- The first status of R89 that applies, `LAUNCH_RESIDENCY` apart; 0 where none does. `signed` is the check of R51. -/
def State.launchStatus (s : State) (c : Cmd) (signed : Bool) (r : LaunchRecord) : Nat :=
  if s.quiet c.tenant then 6
  else if !signed then 4
  else if s.fieldBad c r then 5
  else if 2 ^ 24 < r.desc.count.toNat then 1
  else if s.groupsBad r then 3
  else 0

/-! ### Residency (R38, R175) -/

/-- The grant of a lease range: its number and its 64 KiB pages, rounded outward (R47, R93). -/
def grantOf (k : Nat) (r : LeaseRange) : Grant :=
  { num := some k, first := r.start / 65536, pages := (pagesOf r.start r.len).length, write := r.rw }

/-- The grants of a lease record. -/
def leaseGrants (rs : List LeaseRange) : List Grant := rs.zipIdx.map fun (r, k) => grantOf k r

/-- The 64 KiB pages a launch needs, ascending. -/
def neededPages (r : LaunchRecord) : List Nat :=
  sortBy id ((r.lease.flatMap fun x => pagesOf x.start x.len) ++ r.sections.flatMap fun x => pagesOf x.addr x.len).dedup

/-- The page needs write access: a read-write range covers it. -/
def needsWrite (r : LaunchRecord) (p : Nat) : Bool :=
  r.lease.any fun x => x.rw && (pagesOf x.start x.len).contains p

/-- A page is resident for a tenant: a leaf maps it that admits the tenant. A private leaf admits the tenant that mapped it alone:
an address space of one tenant shows another nothing (R165, R175, R287). -/
def State.resident (s : State) (asid tenant p : Nat) : Bool :=
  match s.leafAt asid (p * 65536) with
  | some l => l.tenants.contains tenant
  | none => false

/-- Ask the host for a page of a launch (R175, R379). -/
def State.requestPage (s : State) (l : Launch) (p : Nat) : State :=
  let w := needsWrite l.record p
  let q : PageReq := { seq := s.pageSeq + 1, va := p * 65536, write := w }
  ({ s with pageSeq := s.pageSeq + 1 }.post 0 (.pageRequest l.record.ctxId q.seq q.va w l.id)).onLaunch l.id fun l =>
    { l with requests := l.requests ++ [q] }

/-! ### The start of a launch (R89 to R91, R198, R250, R263, R264) -/

/-- Write a run of section bytes where its pages are of mode 0 (R264). -/
def State.loadBytes (s : State) (asid va : Nat) (bs : List Byte) : State :=
  (pagesOf va bs.length).foldl
    (fun s p =>
      match s.leafAt asid (p * 65536) with
      | some l =>
        if pteMode l.pte = 0 then
          let lo := pieceLo va p
          { s with mem := s.mem.put (s.frameKey l lo) ((bs.drop (lo - va)).take (pieceLen va bs.length p)) }.touch asid lo 1
        else s
      | none => s)
    s

/-- Write a section, zero-filled to its length (R38). DESIGN CHOICE (log entry 60): so is one whose bytes run past the end of the
file. -/
def State.loadSection (s : State) (asid : Nat) (x : Section) : State :=
  s.loadBytes asid x.addr (x.bytes.take x.len ++ List.replicate (x.len - x.bytes.length) 0)

/-- A record of the launch's initial tasks `i` to `n - 1`, in a partition, perhaps placed (R198, R263). -/
def Launch.initial (l : Launch) (id cluster i n : Nat) (places : List HartName) : TaskRec :=
  let d := l.record.desc
  { id := id, launch := l.id, cluster := cluster, entry := d.entry, args := d.args, key := 0, argstride := d.argstride, count := n, next := i
    priority := d.priority, lanes := d.lanes, preempt := d.preempt, classmap := d.classmap
    ranges := leaseGrants l.record.lease, places := places, spilled := false }

/-- The initial tasks enter their partitions. -/
def State.enqueueInitial (s : State) (l : Launch) : State :=
  let n := l.record.desc.count.toNat
  let named := s.namedHarts l.record.groups (l.record.desc.entry.getLsbD 0)
  let enter := fun (s : State) (r : Nat → TaskRec) => s.takeName.2.enqueueTask (r s.takeName.1)
  if n = 0 then s
  else if named = [] then enter s fun id => l.initial id 0 0 n []
  else (named.take n).zipIdx.foldl (fun s x => enter s fun id => l.initial id x.1.cluster x.2 (x.2 + 1) [x.1]) s

/-- The windows of a launch, with both counters 0 (R232, R250). -/
def windowsOf (ws : List WindowRec) : List Window :=
  ws.map fun w => { id := w.id, tile := w.tile, base := w.base, len := w.len, ops := [], out := 0, inn := 0, err := 0 }

/-- The pages a launch needs before it starts: none where it starts no task (R38, R90). -/
def Launch.pages (l : Launch) : List Nat := if l.record.desc.count = 0 then [] else neededPages l.record

/-- The image is loaded, the windows are registered, status 0 is posted, and the tasks are enqueued; a launch of count 0 completes
at once (R38, R90, R91). An ended launch that had the identifier is forgotten. -/
def State.startLaunch (s : State) (l : Launch) (cmd : BitVec 32) : State :=
  let s1 := if l.record.desc.count = 0 then s else l.record.sections.foldl (fun s x => s.loadSection l.asid x) s
  let s2 := { s1 with ended := s1.ended.filter fun k => k.id != l.id }.onLaunch l.id fun k =>
    { k with asid := l.asid, owed := none, windows := windowsOf k.record.windows, live := k.record.desc.count.toNat }
  let s3 := s2.post cmd (.status 0 l.id 0 0)
  (s3.enqueueInitial l).launchEnds l.id

/-- The launch does not start: nothing of it stays (R89). -/
def State.dropLaunch (s : State) (l : Launch) : State := { s with launches := s.launches.filter fun k => k.id != l.id }

/-- A launch whose answer is owed: ask for every missing page not asked for yet, or start it in its address space, which it may be
the first to have (R164, R175). A launch for which no ASID is left is refused (log entry 9). -/
def State.seek (s : State) (id : Nat) : State :=
  match s.launch? id with
  | some l =>
    match l.owed with
    | some cmd =>
      let missing := l.pages.filter fun p => !s.resident ((s.asidOf l.record.ctxId).getD 0) l.tenant p
      if missing = [] then
        match s.spaceFor l.record.ctxId 0 with
        | some a => a.2.startLaunch { l with asid := a.1 } cmd
        | none => (s.dropLaunch l).refuse cmd
      else
        (missing.filter fun p => !l.requests.any fun q => q.va == p * 65536).foldl (fun s p => s.requestPage l p) s
    | none => s
  | none => s

/-- A completion that names a launch (R379). -/
def Posted.names (b : Posted) (id : Nat) : Bool :=
  match b with
  | .status code a _ _ => code = 0 && a = id
  | .launchDone i _ _ _ => i = id
  | .termination i _ => i = id
  | .pageRequest _ _ _ _ i => i = id
  | _ => false

/-- The completions that can still be replayed (R246). -/
def State.replayable (s : State) : List Completion := s.completions.filter fun c => (s.compSeq - c.seq).toNat < 4096

/-- Identifiers obsidian may choose: nonzero, and of no live launch or lease, nor named by a completion that can still be
replayed (R105, R379). -/
def State.idsFree (s : State) (ids : LaunchIds) : Bool :=
  ids.launch ≠ 0 && ids.launch < 2 ^ 32 && ids.lease ≠ 0
    && s.launches.all (fun l => l.id != ids.launch && l.lease != ids.lease)
    && s.replayable.all fun c => !c.body.names ids.launch

/-- The record of a launch: its operands, and what its image gives (R38, R44, R89). -/
def launchRecord (r : LaunchReq) (img : List Byte) : LaunchRecord :=
  { ctxId := r.ctxId, desc := r.desc, mbox := r.mbox, leaseName := r.leaseName, lease := r.lease, groups := r.groups, windows := r.windows
    sections := sofAlloc img, kvec := sofKvec img }

/-- The launch an accepted command makes, its answer owed. It has an address space once it starts. -/
def launchOf (c : Cmd) (r : LaunchRecord) (ids : LaunchIds) : Launch :=
  { id := ids.launch, lease := ids.lease, tenant := c.tenant, job := c.job, asid := 0, record := r, owed := some c.seq
    requests := [], windows := [], mbox := r.mbox, live := 0, exited := 0, terminated := 0 }

/-! ### Bytes at an endpoint (R228, R379) -/

/-- The key in `State.mem` of an address of an endpoint's UALink space. -/
def outsideKey (fid addr : Nat) : Nat := (addr / 2 ^ 40 * 1024 + fid) * 2 ^ 40 + addr % 2 ^ 40

/-- The runs of keys of `n` bytes at an endpoint. -/
def outsideRuns (fid addr n : Nat) : List (Nat × Nat) :=
  if n = 0 then []
  else
    (List.range ((addr + n - 1) / 2 ^ 40 + 1 - addr / 2 ^ 40)).map fun j =>
      let lo := max addr ((addr / 2 ^ 40 + j) * 2 ^ 40)
      (outsideKey fid lo, min (addr + n) ((addr / 2 ^ 40 + j + 1) * 2 ^ 40) - lo)

/-- The bytes at an endpoint. -/
def State.outsideN (s : State) (fid addr n : Nat) : List Byte := s.mem.getRuns (outsideRuns fid addr n)

/-- Bytes are written at an endpoint: this package's own, or by UALink writes. -/
def State.writeOutside (s : State) (fid addr : Nat) (bs : List Byte) : State :=
  let t := { s with mem := s.mem.putRuns (outsideRuns fid addr bs.length) bs }
  if fid = s.fid then t else t.send (.ualinkWrite fid addr bs)

/-- The bytes at an endpoint, and the state with the UALink read on the fabric where the endpoint is another package; none where
it is absent. -/
def State.readOutside (s : State) (fid addr len : Nat) : Option (List Byte × State) :=
  if fid ≠ s.fid && s.isAbsent fid then none
  else some (s.outsideN fid addr len, if fid = s.fid then s else s.send (.ualinkRead fid addr len))

/-- `LAUNCH` with the image at hand (R51, R89). A file that R42 or R43 refuses is refused with a status the spec does not name
(log entry 9). -/
def State.launchWith (s : State) (c : Cmd) (r : LaunchReq) (ids : LaunchIds) (img : List Byte) : State :=
  let signed := sofAccepted s.registered c.tenant img
  let p := launchRecord r img
  if signed && !(sofHeaderOk img && sofTypesOk img) then s.refuse c.seq
  else
    let st := s.launchStatus c signed p
    if st ≠ 0 then s.answer c st else { s with launches := s.launches ++ [launchOf c p ids] }.seek ids.launch

/-- `LAUNCH` (R89, R379). Identifiers that obsidian could not choose leave the command unserved; a package that accepts no launch
(R17, R19) refuses it, and so does one whose image cannot be reached (log entry 9). -/
def execLaunch (c : Cmd) (r : LaunchReq) (ids : LaunchIds) (s : State) : Out :=
  if !s.idsFree ids then .next s
  else
    s.laidOut c fun s =>
      if !s.usable || !s.configured then s.refuse c.seq
      else if s.quiet c.tenant then s.answer c 6
      else
        match s.readOutside r.imageFid r.imageAddr r.imageLen with
        | some x => x.2.launchWith c r ids x.1
        | none => s.refuse c.seq

/-! ### Answers to page requests (R175, R379) -/

/-- Install the mappings of an answer as `MAP` would: the first status that is not 0, or 0, and the state. -/
def State.mapAll (s : State) (tenant : Nat) (ms : List MapCmd) : Nat × State :=
  ms.foldl
    (fun x m =>
      let r := x.2.mapOne tenant m
      (if x.1 = 0 then r.1 else x.1, r.2))
    (0, s)

/-- The launch fails for want of a page (R89, R175). -/
def State.failLaunch (s : State) (l : Launch) : State := (s.dropLaunch l).post (l.owed.getD 0) (.status 2 0 0 0)

/-- `PAGEANS` (R175, R379). An answer to no outstanding request changes nothing. -/
def execPageans (c : Cmd) (ctxId req : BitVec 32) (ok : Bool) (maps : List MapCmd) (s : State) : Out :=
  s.laidOut c fun s =>
    let asks := fun l : Launch =>
      l.owed.isSome && l.tenant == c.tenant && l.record.ctxId == ctxId && l.requests.any fun q => q.seq == req
    match s.launches.find? asks with
    | none => s.answer c 0
    | some l =>
      if !ok then (s.answer c 0).failLaunch l
      else
        let r := s.mapAll c.tenant maps
        let s1 := r.2.onLaunch l.id fun l => { l with requests := l.requests.filter fun q => q.seq != req }
        (s1.answer c r.1).seek l.id

/-! ### Mailboxes (R106, R379) -/

/-- `MBOXW`. -/
def execMboxw (c : Cmd) (launchId index : Nat) (value : Word) (s : State) : Out :=
  s.laidOut c fun s =>
    match s.launch? launchId with
    | some l =>
      if l.tenant ≠ c.tenant || l.owed.isSome then s.answer c 1
      else if h : index < 8 then (s.onLaunch l.id fun l => { l with mbox := l.mbox.set index value }).answer c 0
      else s.answer c 2
    | none => s.answer c 1

end Sys2Proof.Machine
end

