-- ==== Sys2Proof/Machine/Binding.lean ====
section
/-! DEFINITION. Binding: the task obsidian takes, the bind record it writes, and the entry or the resumption of the hart in
front (R40, R83, R85, R105, R108, R150, R191, R192, R198 to R201, R203, R205, R209, R236, R251, R255, R263, R269, R284). -/

namespace Sys2Proof.Machine

/-- A waiting task: a context that left its hart, or the next task of a record. -/
inductive Waiting where
  | again (h : Hart)
  | fresh (r : TaskRec)
  deriving DecidableEq, Repr

/-- The partition code of a lane count (R105). -/
def partCode (lanes : Nat) : Nat := if lanes = 32 then 0 else if lanes = 16 then 1 else if lanes = 8 then 2 else 3

/-- The priority of a waiting task. -/
def Waiting.priority (w : Waiting) : Nat := match w with | .again h => h.task.priority | .fresh r => r.priority

/-- The tenant of a waiting task. -/
def State.waitingTenant (s : State) (w : Waiting) : Option Nat :=
  match w with
  | .again h => some h.task.tenant
  | .fresh r => (s.launch? r.launch).map (·.tenant)

/-- A record's task is of the kind of the hart, and the hart number exists at its lane count (R83, R192, R263). -/
def TaskRec.fits (r : TaskRec) (n : HartName) : Bool :=
  r.cluster == n.cluster && r.next < r.count && r.entry.getLsbD 0 == n.ah && (n.ah || n.hart < 32 / r.lanes)
    && (r.places = [] || r.places.contains n)

/-- The partition code a waiting task needs; 0 on an access hart. -/
def Waiting.code (w : Waiting) (n : HartName) : Nat :=
  match w with
  | .again h => h.part.val
  | .fresh r => if n.ah then 0 else partCode r.lanes

/-- The bound harts of the core of the hart in front. -/
def State.coreHarts (s : State) : List Hart :=
  s.clusterHarts.filter fun h => h.bound && !h.name.ah && h.name.core == s.hart.name.core

/-- The core has the partition a task needs, or no bound hart, so that obsidian may change it (R83, R201). -/
def State.partOk (s : State) (code : Nat) : Bool :=
  s.hart.name.ah || s.coreHarts = [] || (s.cluster.parts.toList.getD s.hart.name.core 0).val = code

/-- The cluster holds a bound or pre-empted hart. -/
def State.clusterBusy (s : State) : Bool :=
  (s.clusterHarts.any (·.bound)) || s.parked.any fun h => h.name.cluster == s.hart.name.cluster

/-- The tenant runs, and the cluster is given to it or can be. -/
def State.tenantOk (s : State) (t : Option Nat) : Bool :=
  match t with
  | some t => !s.quiet t && (s.cluster.tenant == some t || !s.clusterBusy)
  | none => false

/-- The tasks that may be bound on the hart in front: contexts that left it, ahead of records in the order of their partition
(R201). -/
def State.waiting (s : State) : List Waiting :=
  let n := s.hart.name
  let all := (s.parked.filter fun h => h.name == n).map Waiting.again ++ (s.queue.filter (·.fits n)).map Waiting.fresh
  all.filter fun w => s.tenantOk (s.waitingTenant w) && s.partOk (w.code n)

/-- The first waiting task of the highest priority (R201). -/
def firstBest (ws : List Waiting) : Option Waiting :=
  ws.foldl
    (fun b w =>
      match b with
      | none => some w
      | some x => if x.priority < w.priority then some w else some x)
    none

/-- The harts of the cluster in front, by name: four cores of eight and two access harts (R11, R12). -/
def State.clusterNames (s : State) : List HartName :=
  let c := s.hart.name.cluster
  ((List.range 4).flatMap fun k => (List.range 8).map fun i => ⟨c, k, i, false⟩)
    ++ (List.range 2).map fun i => ⟨c, 0, i, true⟩

/-- A hart of the cluster is free for a waiting task: unbound, and one the task can be bound on. -/
def State.freeFor (s : State) (w : Waiting) : Bool :=
  s.clusterNames.any fun n => !(s.hartAt n).bound && (s.focus n).waiting.contains w

/-- The tasks that wait in the cluster in front: contexts that left its harts, ahead of the records of its partition. -/
def State.clusterWaiting (s : State) : List Waiting :=
  let c := s.hart.name.cluster
  (s.parked.filter fun h => h.name.cluster == c).map Waiting.again
    ++ (s.queue.filter fun r => r.cluster == c && r.next < r.count).map Waiting.fresh

/-- The task of the cluster in front that obsidian takes next: of those a hart is free for, the first of the highest priority
(R201). -/
def State.nextTask (s : State) : Option Waiting := firstBest (s.clusterWaiting.filter s.freeFor)

/-! ### The bind record (R200, R203, R251) -/

/-- The dispatch hardware ignores the record: reserved bits, priority, partition code, EQMIN or EQCAP (R200). -/
def choiceIgnored (c : BindChoice) (code : Nat) : Bool :=
  c.reserved ≠ 0 || 47 < c.priority || c.part.val ≠ code || 8 < c.eqMin || c.eqCap < max c.eqMin 1 || 64 < c.eqCap

/-- Once a hart has entered, the entries its pool's queues hold and those they have reserved are within the pool (R203, R204). A
bind that would break this waits (log entry 52). -/
def State.poolHolds (s : State) (h : Hart) : Bool :=
  (((s.poolHarts h).filter fun k => k.name != h.name) ++ [h]).map (fun k => k.entries + k.reserved) |>.sum |> (· ≤ h.poolSize)

/-- `n` bytes of HBM4 from `a` up are no mapped frame's and no checkpoint area's (R200, R226). -/
def State.areaFree (s : State) (a : Word) (n : Nat) : Bool :=
  a.toNat + n ≤ localFrames * 2 ^ 16 && !s.areasMeet a.toNat n
    && s.leaves.all fun l => s.leafFid l != s.fid || !meets (ptePfn l.pte * 2 ^ 16) (levelSize l.level) a.toNat n

/-- A launch runs, or is to run, in the address space of another: it is of its context identifier (R379). -/
def Launch.sharesSpace (l k : Launch) : Bool := l.record.ctxId == k.record.ctxId

/-- The backing area is 1 MiB-aligned, in the private half, and meets no lease range and no section of any launch of the address
space, started or not, and no other context's area (R251). -/
def State.backingOk (s : State) (l : Launch) (b : Nat) : Bool :=
  b % 2 ^ 20 = 0 && b + 2 ^ 20 ≤ 2 ^ 56
    && (l :: s.launches.filter l.sharesSpace).all (fun k =>
      !k.record.lease.any (rangeMeets · b (2 ^ 20)) && !k.record.sections.any (sectionMeets · b (2 ^ 20)))
    && (s.others ++ s.parked).all fun h =>
      !h.bound || h.task.asid != l.asid || !h.task.grants.any fun g => meets (g.first * 65536) (g.pages * 65536) b (2 ^ 20)

/-- The pages of a backing area are resident for the tenant, or not mapped at all while 16 frames are free to map them with. -/
def State.backingPages (s : State) (asid tenant b frame : Nat) : Bool :=
  ((List.range 16).all fun k => s.resident asid tenant (b / 65536 + k))
    || ((!s.leaves.any fun l => l.touches asid b (2 ^ 20)) && s.framesFree frame 16)

/-- The bytes of HBM4 from `a` up become 0. -/
def State.zeroFrames (s : State) (a n : Nat) : State := { s with mem := s.mem.place (s.fid * 2 ^ 40 + a) n [] }

/-- Map a backing area that is not mapped, at local frames from `frame` up, whose bytes become 0: no tenant reads what another left
there (R287; log entry 23). -/
def State.mapBacking (s : State) (asid tenant b frame : Nat) : State :=
  if (s.leafAt asid b).isSome then s
  else
    let s := s.zeroFrames (frame * 2 ^ 16) (2 ^ 20)
    let leaf := fun k => ({ asid := asid, level := 3, va := b + k * 65536, pte := localEntry (frame + k) 0 false,
                            tenants := [tenant], accesses := 0 } : Leaf)
    { s with leaves := s.leaves ++ (List.range 16).map leaf }.touch asid b (2 ^ 20)

/-- The cluster given to a tenant or to none: scratchpad and tables are zeroed, the operand cache is emptied, and the delivery
pool's registers are reset (R145, R150, R163, R205). -/
def Cluster.cleared (c : Cluster) (t : Option Nat) : Cluster :=
  { c with
    tenant := t, sp := [], tables := Vector.replicate 4 none, queues := Vector.replicate 16 [], operands := []
    poppers := Vector.replicate 16 [], stallers := Vector.replicate 6 []
    qmin := Vector.replicate 16 4, qcap := Vector.replicate 16 64, poolErr := false }

/-- Give the cluster to a tenant that does not have it. -/
def Cluster.giveTo (c : Cluster) (t : Nat) : Cluster := if c.tenant = some t then c else c.cleared (some t)

/-- The core's partition becomes the one needed. -/
def Cluster.repart (c : Cluster) (n : HartName) (p : Fin 4) : Cluster :=
  if h : n.core < 4 ∧ !n.ah then { c with parts := c.parts.set n.core p h.1 } else c

/-! ### Entry (R40, R85, R105, R209) -/

/-- `GROUPS` of a hart: the groups that name it, ascending, four at most (R105). -/
def State.groupsWord (s : State) (l : Launch) (n : HartName) : Word :=
  let here := l.record.groups.filter fun g => g.members.any fun m => s.memberFid m == s.fid && memberHart m == n
  let gs := (sortBy id (here.map (·.index)).dedup).take 4
  BitVec.ofNat 64 ((gs.zipIdx.map fun (g, k) => (256 + g % 256) * 2 ^ (9 * k)).sum)

/-- Exec and `.rodata` sections, which every task reads (R38). -/
def readSections (r : LaunchRecord) : List SecRange :=
  (r.sections.filter fun x => x.exec || x.rodata).map fun x => { addr := x.addr, len := x.len, exec := x.exec }

/-- The args of a record's next task (R40, R90). -/
def taskArgs (r : TaskRec) : Word := r.args + BitVec.ofNat 64 r.next * r.argstride.setWidth 64

/-- The task of a bind record. -/
def State.newTask (s : State) (l : Launch) (r : TaskRec) (c : BindChoice) : Task :=
  let n := s.hart.name
  let own := { num := none, first := c.backing / 65536, pages := 16, write := true : Grant }
  { serial := s.nextName, ctxId := l.record.ctxId, leaseId := l.lease, launch := l.id, tenant := l.tenant, job := l.job
    asid := l.asid, index := r.next, args := taskArgs r, classmap := r.classmap, priority := r.priority, preempt := r.preempt
    groups := s.groupsWord l n
    grants := if n.ah then r.ranges else own :: r.ranges, sections := readSections l.record
    mapbase := if n.ah then 0 else BitVec.ofNat 64 c.backing, eqMin := c.eqMin, eqCap := c.eqCap, ckpt := c.ckpt
    boundAt := s.cluster.refTick }

/-- A token slot at a bind: a free one starts again at generation 0 (R236). -/
def TokSlot.atBind (k : TokSlot) : TokSlot := if k.st = .free then TokSlot.empty else k

/-- The hart at task entry (R40, R85, R192, R209). Slots whose puts have not landed stay busy from before, in the hart `o` (R236).
-/
def entryHart (o : Hart) (p : Fin 4) (k : Task) (l : Launch) (r : TaskRec) : Hart :=
  let n := o.name
  let h := Hart.reset n
  { h with
    part := p, bound := true, task := k, pc := if n.ah then r.entry &&& ~~~1 else r.entry
    x := (h.x.set 1 (taskArgs r)).set 2 (BitVec.ofNat 64 r.next), classmap := r.classmap.setWidth 64
    tvec := l.record.kvec &&& ~~~(3 : Word), tokens := o.tokens.map TokSlot.atBind, tokOrder := o.tokOrder, retired := o.retired
    mapbase := k.mapbase, ctxs := if n.ah then [] else [TileCtx.all k.mapbase .undefined] }

/-- One task of a record is bound; the record goes with its last, and its partition refills (R198). -/
def takeTask (q : List TaskRec) (r : TaskRec) : List TaskRec :=
  refill
    (if r.next + 1 < r.count then q.map fun t => if t.id = r.id then { t with next := t.next + 1 } else t
     else q.filter fun t => t.id != r.id)
    r.cluster

/-- A record's next task enters on the hart in front (R40, R85). -/
def State.enterFresh (s : State) (l : Launch) (r : TaskRec) (c : BindChoice) : State :=
  let n := s.hart.name
  let s1 := if n.ah then s else s.mapBacking l.asid l.tenant c.backing c.frame
  let s2 := s1.onCluster fun k => (k.giveTo l.tenant).repart n c.part
  { s2 with
    hart := entryHart s.hart c.part (s.newTask l r c) l r, queue := takeTask s.queue r, nextName := s.nextName + 1 }

/-! ### Resumption (R200, R269, R278, R284) -/

/-- The tokens marked undelivered, in ascending slot order. -/
def Hart.undelivered (h : Hart) : List (BitVec 16) :=
  (h.tokens.toList.zipIdx.filter fun x => x.1.undelivered).map fun x => tokenOf x.2 x.1.gen

/-- A context as it resumes: no step, `DLNSTAT` with PRE alone, its undelivered `TOKEXP`s pending, its token table as at a bind. -/
def Hart.resumed (h : Hart) : Hart :=
  { h with
    stopping := false, step := none, dlnPre := true, dlnRisk := false, dlnMiss := false, dlnDone := 0, dlnSlack := 0
    expiries := h.expiries ++ h.undelivered, tokens := h.tokens.map fun k => { k with undelivered := false }.atBind
    tokPtr := 0 }

/-- A context as a bind record with its engine-queue limits resumes it on the hart in front. -/
def State.again (s : State) (h : Hart) (eqMin eqCap : Nat) : Hart :=
  let k := { h.task with eqMin := eqMin, eqCap := eqCap, boundAt := s.cluster.refTick }
  { { h with task := k }.resumed with retired := s.hart.retired }

/-- A context resumes on the hart in front. -/
def State.enterAgain (s : State) (h : Hart) (eqMin eqCap : Nat) : State :=
  let s1 := s.onCluster fun c => (c.giveTo h.task.tenant).repart h.name h.part
  { s1 with hart := s.again h eqMin eqCap, parked := s.parked.filter fun p => p.task.serial != h.task.serial }

/-- The choice obsidian makes for a fresh task is one it could make. -/
def State.freshOk (s : State) (l : Launch) (r : TaskRec) (c : BindChoice) : Bool :=
  let h := entryHart s.hart c.part (s.newTask l r c) l r
  s.poolHolds h && s.areaFree c.ckpt h.areaSize
    && (s.hart.name.ah
      || (s.backingOk l c.backing && s.backingPages l.asid l.tenant c.backing c.frame
        && !meets (c.frame * 2 ^ 16) (2 ^ 20) c.ckpt.toNat h.areaSize))

/-- Obsidian binds the cluster's next task on the hart in front, if the task can go there. A record the dispatch hardware ignores
sets the slot table's error bit; a choice obsidian could not make leaves the state unchanged (R199 to R201). -/
def execBind (c : BindChoice) (s : State) : Out :=
  if s.hart.bound || !s.usable || !s.usedClusters.contains s.hart.name.cluster then .next s
  else
    match s.nextTask with
    | none => .next s
    | some w =>
      if !s.waiting.contains w then .next s
      else if choiceIgnored c (w.code s.hart.name) then .next { s with slotErr := true }
      else
        match w with
        | .again h => if s.poolHolds (s.again h c.eqMin c.eqCap) then .next (s.enterAgain h c.eqMin c.eqCap) else .next s
        | .fresh r =>
          match s.launch? r.launch with
          | some l => if s.freshOk l r c then .next (s.enterFresh l r c) else .next s
          | none => .next s

end Sys2Proof.Machine
end

