-- ==== Sys2Proof/Machine/Claim.lean ====
section
/-! DEFINITION. Claims: `claim`, `object`, `clwait`, and what the claim engine shares (R253 to R262, R300, R337). -/

namespace Sys2Proof.Machine

/-! ### `CLSTAT` (R255) -/

/-- The state field of `CLSTAT`. -/
def Hart.claimState (h : Hart) : Nat := bits h.clstat.toNat 2 0

/-- `CLSTAT` of a claim: its state, sequence and BY party. -/
def clstatWord (state seq : Nat) (by1 : Option Party) : Word :=
  let p := match by1 with | some p => p.hartid.toNat * 2 ^ 42 + p.fid % 1024 * 2 ^ 32 | none => 0
  BitVec.ofNat 64 (p + seq % 65536 * 2 ^ 16 + state)

/-- The sequence the next claim takes: the last one plus 1, skipping 0 (R255). -/
def Hart.nextClaim (h : Hart) : Nat :=
  let n := bits h.clstat.toNat 31 16
  if n = 65535 then 1 else n + 1

/-! ### Groups and records -/

/-- A group index is a valid entry of `GROUPS` (R105). -/
def groupValid (groups : Word) (g : Nat) : Bool :=
  [0, 9, 18, 27].any fun k => bitOf groups.toNat (k + 8) && bits groups.toNat (k + 7) k == g

/-- A moment of a reference counter has not been reached. -/
def notYet (t now : Word) : Bool := t != now && !(t - now).msb

/-- A record is open: its local window has not ended (R258). -/
def State.recOpen (s : State) (r : ClaimRec) : Bool := r.isOpen && notYet r.closesAt (s.clusterAt r.cluster).refTick

/-- A proposal is of a group of the launch with a tenant and job tag: groups of one index of two launches are two groups (R96,
log entry 25). -/
def ofGroup (p : Proposal) (tenant : Nat) (job : BitVec 16) (g : Nat) : Bool :=
  p.group == g && p.tenant == tenant && p.job == job

/-- The open records of the hart in front on an address. -/
def State.openRecords (s : State) (a : Word) : List ClaimRec :=
  s.records.filter fun r => r.owner == s.hart.name && s.recOpen r && r.prop.addr == a

/-- A claim ranks above another: higher PRIO, then lower fabric identifier and `HARTID` (R260). -/
def ranksAbove (x y : Proposal) : Bool :=
  if x.prio ≠ y.prio then y.prio < x.prio
  else if x.src.fid ≠ y.src.fid then x.src.fid < y.src.fid
  else x.src.hartid.toNat < y.src.hartid.toNat

/-- The better of two rivals of a claim, one perhaps missing; only one that ranks above the claim counts. -/
def betterRival (mine : Proposal) (best : Option Proposal) (y : Proposal) : Option Proposal :=
  if !ranksAbove y mine then best
  else
    match best with
    | some b => if ranksAbove y b then some y else some b
    | none => some y

/-- The claimant's wait Wc for a window W (R259). -/
def claimWait (w : Nat) : Nat := w + (4 * w + 9999) / 10000 + 303

/-- Raise `CLAIMBAD` with the address (R257, R258). -/
def State.claimBad (s : State) (bad : Bool) (a : Word) : Part Unit := stopIf bad (s.raise 0x13 a)

/-! ### The instructions (R256 to R258, R261) -/

/-- A claim of the hart in front has not ended: it has one open at a time, whichever of its tasks issued it (R257). -/
def State.claiming (s : State) : Bool := s.hart.claimState == 1 || s.claims.any fun k => k.owner == s.hart.name

/-- `claim` (R257, R300). One that waits for the hart's previous claim has passed its checks and does not make them again. -/
def execClaim (a b c : XReg) (s : State) : Out := finish do
  s.computeOnly (.claim a b c)
  s.noStrip
  let va := s.getX a
  let cw := (s.getX c).toNat
  let g := bits cw 7 0
  if !s.hart.checked then
    s.claimBad
      (bits cw 63 16 ≠ 0 || bits va.toNat 2 0 ≠ 0 || !groupValid s.hart.task.groups g
        || (s.openRecords va).any fun r => !ofGroup r.prop s.hart.task.tenant s.hart.task.job g)
      va
    s.checkWrite va.toNat 8
  stopIf s.claiming (s.onHart fun h => { h with checked := true })
  let seq := s.hart.nextClaim
  let start := fun st : Nat =>
    (s.onHart fun h => { h with clstat := clstatWord st seq none, checked := false }).setX c (BitVec.ofNat 64 seq)
  if !s.flintHeld then return (start 5).retire
  let p : Proposal :=
    { src := s.party, task := s.hart.task.serial, tenant := s.hart.task.tenant, job := s.hart.task.job, addr := va, value := s.getX b,
      window := s.hart.clwin.toNat, seq := BitVec.ofNat 16 seq, prio := bits cw 15 8, group := g, cls := s.hart.effClass 0 }
  let k : OpenClaim :=
    { owner := s.hart.name, serial := s.hart.task.serial, asid := s.hart.task.asid, tenant := s.hart.task.tenant,
      cluster := s.hart.name.cluster, prop := p,
      endsAt := s.cluster.refTick + BitVec.ofNat 64 (claimWait s.hart.clwin.toNat),
      rival := ((s.openRecords va).filter fun r => ofGroup r.prop p.tenant p.job g).foldl (fun m r => betterRival p m r.prop) none,
      winner := none, objector := none, aborted := false, storing := false }
  let t := start 1
  return ({ t with
    claims := t.claims ++ [k], egress := t.egress ++ (s.claimMembers p).map fun d => Msg.proposal p d }).retire

/-- `object` (R258, R337). -/
def execObject (a b c : XReg) (s : State) : Out := finish do
  s.computeOnly (.object a b c)
  s.noStrip
  let va := s.getX a
  let g := bits (s.getX b).toNat 7 0
  s.claimBad (bits (s.getX b).toNat 63 8 ≠ 0 || bits va.toNat 2 0 ≠ 0) va
  let mine := s.records.filter fun r => r.owner == s.hart.name && r.prop.addr == va && ofGroup r.prop s.hart.task.tenant s.hart.task.job g
  let opens := mine.filter s.recOpen
  stopIf (opens = [] && mine ≠ []) (s.raise 0x14 va)
  let t := { s with egress := s.egress ++ opens.map fun (r : ClaimRec) => Msg.objection r.prop s.party (!s.flintHeld) }
  return (t.setX c (BitVec.ofNat 64 opens.length)).retire

/-- `clwait` (R261): the hart stays at the instruction while its claim is open. -/
def execClwait (c : XReg) (s : State) : Out := finish do
  s.computeOnly (.clwait c)
  s.noStrip
  stopIf (s.hart.claimState == 1) s
  return (s.setX c s.hart.clstat).retire

end Sys2Proof.Machine
end

