-- ==== Sys2Proof/Machine/Tokens.lean ====
section
/-! DEFINITION. Puts and their tokens on the fabric: arrival, holding, acceptance, landing, failure and expiry (R189, R231,
R232, R235 to R238, R248). A message that names nothing of this package leaves the state unchanged. -/

namespace Sys2Proof.Machine

/-! ### At the target (R231, R232, R237) -/

/-- The tenant is sealed: its ingress is closed (R278). -/
def State.sealed (s : State) (tenant : Nat) : Bool := s.tenants.any fun t => t.id == tenant && t.q == .sealed

/-- The live launch and window a message reaches (R231). -/
def State.reached (s : State) (tenant : Nat) (job : BitVec 16) (win : Nat) : Option (Launch × Window) :=
  match s.liveLaunch tenant job with
  | some l => (l.windows.find? fun w => w.id == win).map fun w => (l, w)
  | none => none

/-- The target's checks of a memory operation, in order: the launch and window, or the error code (R232). -/
def State.targetChecks (s : State) (tenant : Nat) (job : BitVec 16) (win off n : Nat) : Except Nat (Launch × Window) :=
  if s.sealed tenant then .error 2
  else
    match s.reached tenant job win with
    | none => .error 3
    | some (l, w) => if w.tile then .error 5 else if w.len < off + n then .error 4 else .ok (l, w)

/-- The put of a token's name. -/
def State.putOf (s : State) (t : TokName) : Option PutRec := s.puts.find? fun p => p.tok == t

/-- A put, get, atomic or read of a window meets an address no leaf maps: the task that issued it ends with `XLATE` where it is
one of this package (R167). That of another package is out of this one's reach (log entry 59). -/
def State.walkFault (s : State) (owner : Option Nat) (asid va : Nat) : State :=
  match owner with
  | some k => if (s.leafAt asid va).isNone then s.endOwner k va else s
  | none => s

/-- A put of a window becomes visible: its bytes are written, IN counts it, and its issuer learns of it. Bytes behind an
absent peer fail the put (R230, R235), and so do bytes no leaf maps (R167; DESIGN CHOICE, log entry 59). -/
def State.putVisible (s : State) (m : PutMsg) (l : Launch) (w : Window) : State :=
  match s.writeAt l.asid (w.base + m.off) m.data with
  | .ok t => (t.onWindow l.id w.id fun (w : Window) => { w with inn := w.inn + 1 }).send (.putVisible m.src)
  | .error a => (s.send (.putError m.src 2)).walkFault ((s.putOf m.src).map (·.owner)) l.asid a

/-- A put performs, where its window still is (R237). -/
def State.performPut (s : State) (m : PutMsg) : State :=
  match s.targetChecks m.tenant m.job m.win m.off m.data.length with
  | .ok (l, w) => s.putVisible m l w
  | .error c => s.send (.putError m.src c)

/-- A held or arriving put is discarded: its window's ERR records it, and its issuer learns of it (R238). -/
def State.discardPut (s : State) (m : PutMsg) : State :=
  let t := match s.reached m.tenant m.job m.win with
    | some (l, w) => if w.tile then s else s.onWindow l.id w.id fun w => w.fail 1
    | none => s
  t.send (.putError m.src 1)

/-- The translation station whose hold queue a put enters, fixed by obsidian's configuration (R166, log entry 4). -/
def stationOf (asid va : Nat) : Nat := Config.stationHash asid (va / 2 ^ 16) % 24

/-- A put arrives (R237): refused by the target's checks, discarded for an expiry that came before it, held, sent back by
a full hold queue, or performed. DESIGN CHOICE (log entry 62): a refusal is recorded at the issuer alone, as the table of R232 has
it. -/
def execPutReceived (m : PutMsg) (s0 : State) : Out :=
  if m.peer ≠ s0.fid then .next s0
  else
    let s := s0.hear m.src.party.fid
    match s.targetChecks m.tenant m.job m.win m.off m.data.length with
    | .error c => .next (s.send (.putError m.src c))
    | .ok (l, w) =>
      if (m.src :: m.carried).any s.expired.contains then .next (s.discardPut m)
      else
        let waits := m.waits.filter fun t => !s.landed.contains t
        if waits = [] then .next ((s.send (.putAccepted m.src)).putVisible m l w)
        else
          let q := stationOf (spaceOf l.asid (w.base + m.off)) (w.base + m.off)
          if 512 ≤ (s.held.filter fun h => h.station == q).length then .next (s.send (.putRefused m))
          else
            let h : Held := { station := q, msg := { m with waits := waits } }
            .next ({ s with held := s.held ++ [h] }.send (.putAccepted m.src))

/-- A landed notice arrives: held puts that wait on nothing else perform, oldest first (R237). -/
def execLandedNotice (t : TokName) (s0 : State) : Out :=
  let s := s0.hear t.party.fid
  let hs := s.held.map fun h => { h with msg := { h.msg with waits := h.msg.waits.filter fun x => x != t } }
  let ready := hs.filter fun h => h.msg.waits.isEmpty
  let s1 := { s with landed := if s.landed.contains t then s.landed else s.landed ++ [t],
                     held := hs.filter fun h => !h.msg.waits.isEmpty }
  .next (ready.foldl (fun s h => s.performPut h.msg) s1)

/-- A held put that an expiry reaches: the token's own, or one that carries it (R238). -/
def Held.hit (h : Held) (t : TokName) : Bool := h.msg.src == t || h.msg.carried.contains t

/-- An expiry notice arrives: what has not begun to become visible is discarded whole (R238). -/
def execExpiryNotice (t : TokName) (s0 : State) : Out :=
  let s := s0.hear t.party.fid
  let s1 := { s with expired := if s.expired.contains t then s.expired else s.expired ++ [t],
                     held := s.held.filter fun h => !h.hit t }
  .next ((s.held.filter fun h => h.hit t).foldl (fun s h => s.discardPut h.msg) s1)

/-! ### At the issuer (R236 to R238) -/

/-- Change one put. -/
def State.onPut (s : State) (ticket : Nat) (f : PutRec → PutRec) : State :=
  { s with puts := s.puts.map fun p => if p.ticket = ticket then f p else p }

/-- Forget one put. -/
def State.dropPut (s : State) (ticket : Nat) : State := { s with puts := s.puts.filter fun p => p.ticket != ticket }

/-- The task of a serial still is, bound or pre-empted. -/
def State.alive (s : State) (serial : Nat) : Bool :=
  (s.hart :: s.others ++ s.parked).any fun h => h.bound && h.task.serial == serial

/-- Change the token slot that a put holds, in whichever table it stands: a table keeps its busy slots past the end of a task
(R236). -/
def State.onSlot (s : State) (p : PutRec) (f : TokSlot → TokSlot) : State :=
  let g := fun h : Hart => if (h.tokens.get (tokSlotOf p.tok.token)).put = p.ticket then h.onToken p.tok.token f else h
  { s with hart := g s.hart, others := s.others.map g, parked := s.parked.map g }

/-- A put no longer waits for the acceptance of another. -/
def PutRec.meet (p : PutRec) (ticket : Nat) : PutRec := { p with needs := p.needs.filter (· != ticket) }

/-- The put can leave. -/
def PutRec.ready (p : PutRec) : Bool := p.needs.isEmpty && !p.sent && !p.failed && !p.expired

/-- The acceptance of a put's token: the puts that waited for it may leave (R237). -/
def State.acceptPut (s : State) (p : PutRec) : State :=
  let s1 := (s.onPut p.ticket fun p => { p with accepted := true }).onSlot p
    fun k => if k.st = .pending then { k with st := .accepted } else k
  let s2 := { s1 with puts := s1.puts.map fun (q : PutRec) => q.meet p.ticket }
  (s2.puts.filter PutRec.ready).foldl (fun s q => s.sendPut q) s2

/-- The issuer learns that a put was accepted (R237). -/
def execTokenAccepted (t : TokName) (s0 : State) : Out :=
  match s0.putOf t with
  | some p =>
    let s := s0.hear p.peer
    if p.sent && !p.failed && !p.accepted then .next (s.acceptPut p) else .next s
  | none => .next s0

/-- The last answer to a put that had failed or expired before is in: nothing of it is out any more, and one that has expired is
forgotten. -/
def State.settlePut (s : State) (p : PutRec) : State :=
  if p.expired then s.dropPut p.ticket else s.onPut p.ticket fun p => { p with sent := false }

/-- A put has failed: it is never accepted, and its token is pending until it expires (R239). -/
def State.failPut (s : State) (p : PutRec) : State :=
  (s.onPut p.ticket fun p => { p with failed := true }).onSlot p
    fun k => if k.st = .accepted then { k with st := .pending } else k

/-- A put that its target's full hold queue refused is sent again (R237). -/
def execPutRefused (m : PutMsg) (s0 : State) : Out :=
  match s0.putOf m.src with
  | some p =>
    let s := s0.hear p.peer
    if p.sent && !p.failed && !p.accepted then .next (s.send (.put p.msg)) else .next s
  | none => .next s0

/-- A put became visible. Its token lands: OUT counts the put, the watchers are told, the slot is free. A token that has
expired stays so, and only OUT counts (R237, R238). -/
def execTokenLanded (t : TokName) (s0 : State) : Out :=
  match s0.putOf t with
  | some p =>
    let s := s0.hear p.peer
    if !p.sent then .next s
    else if p.failed then .next (s.settlePut p)
    else
      let s1 := if p.accepted then s else s.acceptPut p
      let s2 := (s1.closeOp p.launch p.win p.ticket 0).dropPut p.ticket
      if p.expired then .next s2
      else
        let ws := match s1.puts.find? fun q => q.ticket == p.ticket with | some q => q.watchers | none => []
        let s3 := s2.onSlot p fun k => { k with st := .free }
        .next ({ s3 with egress := s3.egress ++ ws.map fun d => Msg.landed p.tok d }.stopOver p.msg.tenant)
  | none => .next s0

/-! ### Expiry (R238, R248) -/

/-- The puts that carry one of the tokens and have not expired; a failed put is one of them. -/
def State.carriersOf (s : State) (ts : List TokName) : List PutRec :=
  s.puts.filter fun p => !p.expired && p.msg.carried.any ts.contains

/-- A put's token expires: its slot says so, and its target and each watcher are told. A put whose answer is out stays until that is
in; one that never left ends failed and counts in OUT (R238, R248). -/
def State.expirePut (s : State) (p : PutRec) : State :=
  let s1 := s.onSlot p fun k => { k with st := .expired }
  let s2 := { s1 with egress := s1.egress ++ (p.peer :: p.watchers.filter (· != p.peer)).map fun d => Msg.expired p.tok d }
  if p.sent then s2.onPut p.ticket fun p => { p with expired := true }
  else (if p.failed then s2 else s2.closeOp p.launch p.win p.ticket 0).dropPut p.ticket

/-- A token expires with those of the puts that carry it, transitively, in at most `n` further rounds (R238). -/
def State.expireFrom (s : State) (ps : List PutRec) (n : Nat) : State :=
  match n with
  | 0 => s
  | n + 1 =>
    let s1 := ps.foldl (fun s p => s.expirePut p) s
    let next := s1.carriersOf (ps.map (·.tok))
    if next = [] then s1 else s1.expireFrom next n

/-- A token expires, and every token that depends on it. -/
def State.expireToken (s : State) (p : PutRec) : State := s.expireFrom [p] (s.puts.length + 1)

/-- A token has not landed within `TKEXP` ticks of its issue: it expires, and its hart has one `TOKEXP` pending (R238). -/
def execTokenExpires (t : TokName) (s : State) : Out :=
  match s.putOf t with
  | some p =>
    if p.expired || notYet p.due (s.clusterAt p.cluster).refTick then .next s
    else .next (((s.expireToken p).onTask p.owner fun h => { h with expiries := h.expiries ++ [t.token] }).stopOver
      p.msg.tenant)
  | none => .next s

/-- A put that left has failed at its target or was discarded there, with the code of R232. OUT counts it and ERR records
the code. A failed put never lands, and its token stays as it is until it expires; that of a discarded put expires at once
(R232, R235, R238). -/
def execPutFailed (t : TokName) (code : Nat) (s0 : State) : Out :=
  match s0.putOf t with
  | some p =>
    let s := s0.hear p.peer
    if !p.sent then .next s
    else if p.failed then .next (s.settlePut p)
    else
      let s1 := s.closeOp p.launch p.win p.ticket code
      if p.expired then .next (s1.dropPut p.ticket)
      else
        let s2 := (s1.failPut p).settlePut p
        if code = 1 then .next ((s2.expireToken { p with failed := true, sent := false }).stopOver p.msg.tenant) else .next s2
  | none => .next s0

/-- The tenant's tokens settle 100,000 ticks into its stop: each that has not landed expires; that of a task that still is, is
undelivered, and nothing is delivered for one that has ended (R238, R277). -/
def execQuiesceTokenSettle (tenant : Nat) (s : State) : Out :=
  match s.tenants.find? fun t => t.id == tenant with
  | some t =>
    if t.q = .running || t.owed.isNone
        || notYet (t.stoppedAt + 100000) (s.clusterAt t.stopper.cluster).refTick then .next s
    else
      let ps := s.puts.filter fun p => p.msg.tenant == tenant && !p.expired
      let s1 := (ps.filter fun p => s.alive p.owner).foldl (fun s p => s.onSlot p fun k => { k with undelivered := true }) s
      .next ((ps.foldl (fun s p => s.expirePut p) s1).stopOver tenant)
  | none => .next s

end Sys2Proof.Machine
end

