-- ==== Sys2Proof/Machine/ClaimEngine.lean ====
section
/-! DEFINITION. The claim engine, the ports and the flint plane's bound: records, objections, notices, the ends of claims,
and what a failed or shedding port does (R229, R253, R257 to R262, R278). -/

namespace Sys2Proof.Machine

/-! ### Records of the hart in front (R257, R258) -/

/-- The records of the hart in front. -/
def State.myRecords (s : State) : List ClaimRec := s.records.filter fun r => r.owner == s.hart.name

/-- How hardware objects to a proposal: not, as `object` does, or with an abort objection (R258). -/
inductive Objecting where
  | none | plain | abort
  deriving DecidableEq, Repr

/-- The objection of hardware to a proposal at the hart in front. -/
def State.hardwareObjects (s : State) (p : Proposal) : Objecting :=
  if !s.flintHeld then .abort
  else if (s.openRecords p.addr).any fun r => !ofGroup r.prop p.tenant p.job p.group then .plain
  else if 16 ≤ (s.myRecords.filter s.recOpen).length then .plain
  else .none

/-- Remove the first record that satisfies a test: the oldest. -/
def dropFirst (f : ClaimRec → Bool) (rs : List ClaimRec) : List ClaimRec := rs.eraseP f

/-- A record opens; where 16 stand, the oldest closed one goes (R258). -/
def State.openRecord (s : State) (p : Proposal) : State :=
  let r : ClaimRec :=
    { owner := s.hart.name, hartid := s.hart.id, cluster := s.hart.name.cluster, prop := p,
      closesAt := s.cluster.refTick + BitVec.ofNat 64 p.window, isOpen := true }
  let old := fun q : ClaimRec => q.owner == s.hart.name && !s.recOpen q
  { s with records := (if 16 ≤ s.myRecords.length then dropFirst old s.records else s.records) ++ [r] }

/-- A claim of the hart in front is in its wait (R260). A claim is known by the hart that issued it. -/
def State.inWait (s : State) (k : OpenClaim) : Bool :=
  k.owner == s.hart.name && !k.storing && notYet k.endsAt s.cluster.refTick

/-- Change the claims of the hart in front that are in their wait and satisfy a test. -/
def State.onWaiting (s : State) (f : OpenClaim → Bool) (g : OpenClaim → OpenClaim) : State :=
  { s with claims := s.claims.map fun k => if s.inWait k && f k then g k else k }

/-- Two claims conflict: one address, one group of one launch (R260). -/
def conflicts (k : OpenClaim) (p : Proposal) : Bool :=
  k.prop.addr == p.addr && ofGroup k.prop p.tenant p.job p.group

/-- A proposal reaches the hart in front: a compute hart bound to a task of a live launch with its tenant and job (R257). -/
def State.hears (s : State) (p : Proposal) : Bool :=
  s.hart.bound && !s.hart.name.ah && s.hart.task.tenant == p.tenant && s.hart.task.job == p.job

/-- A proposal arrives for the hart in front: a record opens or hardware objects, and a claim of that hart in its wait may
have met its better (R257, R258, R260). A sealed tenant answers with an abort objection (R278). -/
def execProposalReceived (p : Proposal) (s0 : State) : Out :=
  let s := s0.hear p.src.fid
  if s.sealed p.tenant then .next (s.send (.objection p s.party true))
  else if !s.hears p then .next s
  else
    let s1 := s.onWaiting (fun k => conflicts k p) fun k => { k with rival := betterRival k.prop k.rival p }
    match s.hardwareObjects p with
    | .none => .next (s1.openRecord p)
    | .plain => .next (s1.send (.objection p s.party false))
    | .abort => .next (s1.send (.objection p s.party true))

/-- The local window of records of the hart in front ends (R258). -/
def execMemberWindowCloses (addr : Word) (group : Nat) (s : State) : Out :=
  let due := fun r : ClaimRec =>
    r.owner == s.hart.name && r.prop.addr == addr && r.prop.group == group
      && !notYet r.closesAt s.cluster.refTick
  .next { s with records := s.records.map fun r => if due r then { r with isOpen := false } else r }

/-! ### Messages to a claimant (R257, R260) -/

/-- An objection to a proposal reaches the claimant in front; one to a claim that has ended is discarded (R258, R260). -/
def execObjectionReceived (src : Party) (p : Proposal) (abort : Bool) (s : State) : Out :=
  .next ((s.hear src.fid).onWaiting (fun k => k.prop == p) fun k =>
    if abort then { k with aborted := true }
    else if k.objector.isNone then { k with objector := some src } else k)

/-- A commit notice reaches the member in front: a claim of it on that address and group loses (R260). -/
def execCommitNoticeReceived (p : Proposal) (s : State) : Out :=
  .next ((s.hear p.src.fid).onWaiting (fun k => conflicts k p) fun k =>
    if k.winner.isNone then { k with winner := some p.src } else k)

/-- An end notice has no effect (R257), but that the package hears of its sender (R230). -/
def execEndNoticeReceived (p : Proposal) (s : State) : Out := .next (s.hear p.src.fid)

/-! ### The end of a claim (R255, R257, R260) -/

/-- A claim ends in a state of `CLSTAT`, with a commit notice or an end notice to every member. -/
def State.endClaim (s : State) (k : OpenClaim) (st : Nat) (by1 : Option Party) : State :=
  let ms := s.claimMembers k.prop
  let notes := ms.map fun d => if st = 2 then Msg.commit k.prop d else Msg.ended k.prop d
  { s.onTask k.serial (fun h => { h with clstat := clstatWord st k.prop.seq.toNat by1 }) with
    claims := s.claims.filter fun c => c.owner != k.owner, egress := s.egress ++ notes }

/-- The page of the claim's word names an absent peer (R230, R257). -/
def State.claimPeerAbsent (s : State) (k : OpenClaim) : Bool :=
  match s.leafAt k.asid k.prop.addr.toNat with
  | some l => pteMode l.pte != 0 && s.isAbsent (ptePeer l.pte)
  | none => false

/-- The end of the wait: the first row of R260 that applies. A claim that none ends sends its store. -/
def State.claimEnds (s : State) (k : OpenClaim) : State :=
  if !s.flintHeld || k.aborted then s.endClaim k 5 none
  else
    match k.winner, k.rival with
    | some w, _ => s.endClaim k 4 (some w)
    | none, some r => s.endClaim k 4 (some r.src)
    | none, none =>
      match k.objector with
      | some o => s.endClaim k 3 (some o)
      | none =>
        if s.claimPeerAbsent k then s.endClaim k 5 none
        else { s with claims := s.claims.map fun c => if c.owner = k.owner then { c with storing := true } else c }

/-- The wait of a claim of the hart in front ends (R259, R260). -/
def execClaimWaitEnds (s : State) : Out :=
  let due := fun k : OpenClaim =>
    k.owner == s.hart.name && !k.storing && !notYet k.endsAt s.cluster.refTick
  match s.claims.find? due with
  | some k => .next (s.claimEnds k)
  | none => .next s

/-- The store of a claim is written, at its frame. -/
def State.claimWrite (s : State) (k : OpenClaim) : State :=
  match s.leafAt k.asid k.prop.addr.toNat with
  | none => s
  | some l =>
    let bs := leBytes 8 k.prop.value.toNat
    let t : State :=
      { s with
        mem := s.mem.put (s.frameKey l k.prop.addr.toNat) bs
        lines := s.lines.map fun r => r.written k.asid k.prop.addr.toNat bs }
    (t.touch k.asid k.prop.addr.toNat 8).count k.asid k.prop.addr.toNat 8

/-- A committed claim's store performs, and the claim ends COMMITTED. One whose peer became absent before the store was
acknowledged ends ABORTED, with the word old or new (R190, R257); the task of one whose word no leaf maps ends with `XLATE`, and its
claim ABORTED (R167, R261). -/
def execClaimStorePerformed (acknowledged written : Bool) (s : State) : Out :=
  match s.claims.find? fun k => k.owner == s.hart.name && k.storing with
  | some k =>
    if (s.leafAt k.asid k.prop.addr.toNat).isNone then .next (s.endOwner k.serial k.prop.addr.toNat)
    else if s.claimPeerAbsent k then .next ((if written then s.claimWrite k else s).endClaim k 5 none)
    else if acknowledged then .next ((s.claimWrite k).endClaim k 2 none)
    else .next s
  | none => .next s

/-! ### Ports and the flint plane's bound (R229, R253, R262) -/

/-- The package declares its bound lost: its open claims end ABORTED, and its open records receive abort objections. -/
def State.boundLost (s : State) : State :=
  if s.flintHeld then
    let s1 := s.claims.foldl (fun s k => s.endClaim k 5 none) s
    let objs := (s.records.filter s.recOpen).map fun (r : ClaimRec) =>
      Msg.objection r.prop { fid := s.fid, hartid := r.hartid } true
    { s1 with flintHeld := false, egress := s1.egress ++ objs }
  else s

/-- A port fails and leaves striping (R229, R253). -/
def execPortFail (p : Fin 18) (s : State) : Out :=
  let t := s.boundLost
  .next { t with ports := t.ports.set p.val 0 }

/-- A port sheds lanes, to 2 or 1, after the bound is declared lost (R229). -/
def execLaneShed (p : Fin 18) (lanes : Fin 4) (s : State) : Out :=
  if (lanes = 1 || lanes = 2) && lanes.val < s.ports.get p then
    let t := s.boundLost
    .next { t with ports := t.ports.set p.val lanes.val }
  else .next s

/-- The bound is declared held when every port in service runs at x4 (R253). DESIGN CHOICE (log entry 63): the spec gives a shed or
failed port no way back to x4, so that only a power-up gives a port its lanes again. -/
def execFlintBoundHeld (s : State) : Out :=
  let full := (List.finRange 18).all fun p => s.withheldPorts.contains p.val || s.ports.get p == 4
  .next (if full then { s with flintHeld := true } else s)

end Sys2Proof.Machine
end

