-- ==== Sys2Proof/Machine/Engines.lean ====
section
/-! DEFINITION. What the engines of the hart in front do by themselves: the deadline interrupt, copies, the vertical
transfers of the map, spills, and the stores that perform late (R86, R109, R111, R154 to R157, R181, R183, R207, R213, R222,
R225, R277). A step that cannot happen leaves the state unchanged. -/

namespace Sys2Proof.Machine

/-- A pending `DLNRISK` is taken when IE, RIE and `TVEC` admit it; a wait is abandoned (R207, R213, R341). -/
def execDlnRisk (s : State) : Out :=
  match s.attend with
  | .interrupt => .next (s.abandon.interrupt 0x30)
  | _ => .next s

/-- The oldest entry of an engine queue performs, whole or its next granules, unless a pre-emption has stopped the hart's engines
(R156, R222). -/
def execCopyEntryPerforms (turn : CopyTurn) (s : State) : Out :=
  if s.hart.bound && !s.hart.stopping then finish (s.performOne (fun k => k == turn.queue) turn.granules) else .next s

/-! ### Vertical transfers (R109, R119, R225) -/

/-- The first transfer of a kind that is on its way for a tile. -/
def Hart.transfer? (h : Hart) (t : TReg) (spill : Bool) : Option Transfer :=
  h.transfers.find? fun x => x.tile == t && x.spill == spill && !x.cancelled

/-- A transfer leaves the list. -/
def Hart.dropTransfer (h : Hart) (x : Transfer) : Hart := { h with transfers := h.transfers.erase x }

/-- A fill of a tile completes: an Absent tile becomes Clean with the backing bytes. One that does not translate is dropped,
and a later reader meets the fault (R119). -/
def execTileFillDone (t : TReg) (s : State) : Out :=
  match s.hart.transfer? t false with
  | none => .next s
  | some x =>
    let s1 := s.onHart fun h => h.dropTransfer x
    match s.hart.tileIn x.base t, s.readAt s.hart.task.asid (backing x.base t.val) tileSize with
    | some .absent, .ok bs =>
      match s1.makeSlot false with
      | .ok u =>
        .next ((u.onHart fun h => h.setTileIn x.base t (.clean (Bytes.put [] 0 bs))).count
          s.hart.task.asid (backing x.base t.val) tileSize)
      | .error _ => .next s
    | _, _ => .next s1

/-- A spill of a Dirty tile starts, in the held context installed first that has the tile Dirty (R109, R111). DESIGN CHOICE (log
entry 63): a held context that is not current spills in the background like the current one, as R109 and R124 allow at any time,
though the end state of R252 has none of it. -/
def execTileSpillStart (t : TReg) (s : State) : Out :=
  let dirty := fun c : TileCtx => match c.tiles.get t with | .dirty _ => true | _ => false
  match s.hart.ctxs.find? dirty with
  | none => .next s
  | some c =>
    let x : Transfer := { base := c.base, tile := t, spill := true, cancelled := false }
    if s.hart.transfers.contains x || s.hart.stopping then .next s
    else .next (s.onHart fun h => { h with transfers := h.transfers ++ [x] })

/-- A spill completes: the tile's bytes are at its backing address, and it is Clean (R109). One that does not translate ends
the task (R167). -/
def execTileSpillDone (t : TReg) (s : State) : Out :=
  match s.hart.transfer? t true with
  | none => .next s
  | some x =>
    let s1 := s.onHart fun h => h.dropTransfer x
    let a := backing x.base t.val
    match s.hart.tileIn x.base t with
    | some (.dirty b) =>
      match s1.writeAt s.hart.task.asid a (b.getN 0 tileSize) with
      | .ok u => .next (u.onHart fun h => h.setTileIn x.base t (.clean b))
      | .error e => .next (s1.terminateAtStop 0x21 (BitVec.ofNat 64 e) (BitVec.ofNat 64 t.val) (BitVec.ofNat 64 a))
    | _ => .next s1

/-- The map reclaims a Clean slot, in the held context installed first that has the tile Clean: one whose backing a plain store has
changed is spilled first, or stays (R109, R112). -/
def execSlotReclaim (t : TReg) (s : State) : Out :=
  let clean := fun c : TileCtx => match c.tiles.get t with | .clean _ => true | _ => false
  match s.hart.ctxs.find? clean with
  | none => .next s
  | some c => .next (if s.mayLeaveSlot s.hart c.base t (c.tiles.get t) then s.freeSlot s.hart c.base t else s)

/-- Issue the first cancelled transfer again. -/
def replayFirst (xs : List Transfer) : List Transfer :=
  match xs with
  | [] => []
  | x :: r => if x.cancelled then { x with cancelled := false } :: r else x :: replayFirst r

/-- A cancelled transfer is issued again (R225). -/
def execTransferReplay (s : State) : Out :=
  if s.hart.bound && !s.hart.stopping then .next (s.onHart fun h => { h with transfers := replayFirst h.transfers })
  else .next s

/-! ### Spills of contexts that left their harts (R167, R244, R277) -/

/-- Every Dirty tile of a context is spilled, while its task still is. -/
def State.spillCtxs (s : State) (h : Hart) : State :=
  h.ctxs.foldl
    (fun s c => c.tiles.toList.zipIdx.foldl
      (fun s x =>
        match x.1 with
        | .dirty b => if s.parked.any fun k => k.task.serial == h.task.serial then s.spillTile h c.base x.2 b else s
        | _ => s)
      s)
    s

/-- A Dirty tile that was spilled is Clean. -/
def Tile.spilled (t : Tile) : Tile := match t with | .dirty b => .clean b | x => x

/-- A context whose Dirty tiles were spilled. -/
def Hart.spilled (h : Hart) : Hart :=
  { h with ctxs := h.ctxs.map fun (c : TileCtx) => { c with tiles := c.tiles.map Tile.spilled } }

/-! ### What an instruction leaves for later (R86, R118, R166, R181, R183) -/

/-- The bytes of an access, and whether it writes. -/
def accessSpan : AccessKind → Nat × Bool
  | .read n => (n, false)
  | .write bs => (bs.length, true)
  | .atomic _ w64 _ => (atomBytes w64, true)

/-- A late store at an address. -/
def Late.isAt (l : Late) (va : Word) : Bool := match l with | .store a _ _ _ _ => a == va | .fence .. => false

/-- Where the `k`-th of the late stores at an address stands among all that was left for later. -/
def lateIndex (va : Word) : Nat → List Late → Option Nat
  | _, [] => none
  | 0, l :: r => if l.isAt va then some 0 else (lateIndex va 0 r).map (· + 1)
  | k + 1, l :: r => (lateIndex va (if l.isAt va then k else k + 1) r).map (· + 1)

/-- A store of the hart in front that has issued and not performed, the `k`-th at its address, reaches its ordering point, unless
something earlier is ordered before it or an older queued instruction may still fault (R86); a fence that waited for it alone is
over (R166, R181, R183, R184). One that does not translate ends the task (R167). -/
def execAccessPerforms (va : Word) (k : Nat) (s : State) : Out := finish do
  let n := (lateIndex va k s.hart.late).getD s.hart.late.length
  match s.hart.late[n]? with
  | none => return s
  | some l =>
    if ((s.hart.late.take n).any fun k => k.ordered l) || (s.hart.vqueue.take l.young).any fun q => !q.sure then return s
    let s1 := s.onHart fun h => { h with late := h.late.eraseIdx n }
    match s1.performLate l with
    | .ok t => return t.releaseFences
    | .error a => .error (s1.lateFault (s.hart.late.take n) l a)

end Sys2Proof.Machine
end

