-- ==== Sys2Proof/Machine/HostPort.lean ====
section
/-! DEFINITION. The other host commands, power-up and attestation: `CARVE`, `UNCARVE`, `POOL`, `SYNC`, `REPLAY`, unknown
opcodes (R17, R19 to R21, R161, R205, R245, R246, R287). -/

namespace Sys2Proof.Machine

/-! ### Tensor store (R161) -/

/-- The ways of a logical die that carve-outs hold. -/
def Carve.ways (c : Carve) : List Nat := (List.range (bits c.handle.toNat 18 14)).map (bits c.handle.toNat 23 19 + ·)

/-- The ways of a die that are converted. -/
def State.carvedWays (s : State) (die : Nat) : List Nat :=
  (s.carves.filter fun c => bits c.handle.toNat 25 24 == die).flatMap Carve.ways

/-- The ways of a die that self-test withheld (R20). -/
def State.badWaysOf (s : State) (die : Nat) : List Nat :=
  (s.selfTest.badWays.filter fun w => w.1 == die).map (·.2)

/-- A run of ways can be converted: good, not converted, and at least 4 remain victim cache (R20, R161). -/
def State.runOk (s : State) (die way0 nway : Nat) : Bool :=
  way0 + nway ≤ 20
    && ((List.range nway).all fun k =>
      !(s.carvedWays die).contains (way0 + k) && !(s.badWaysOf die).contains (way0 + k))
    && (s.carvedWays die).length + (s.badWaysOf die).dedup.length + nway + 4 ≤ 20

/-- Some run of this length can be converted. DESIGN CHOICE (log entry 50): in a logical die that has no cluster in use there is
none, though its ways may be good. -/
def State.someRun (s : State) (die nway : Nat) : Bool :=
  1 ≤ nway && nway ≤ 16 && (s.usedClusters.any fun n => n / 48 == die) && (List.range 20).any fun w => s.runOk die w nway

/-- The handle of a carve-out. -/
def carveHandle (gen die way0 nway : Nat) : Word :=
  BitVec.ofNat 64 (gen * 2 ^ 26 + die * 2 ^ 24 + way0 * 2 ^ 19 + nway * 2 ^ 14)

/-- `CARVE`. The first way is obsidian's choice; one it could not make leaves the command unserved. -/
def execCarve (c : Cmd) (die way0 nway : Nat) (s : State) : Out :=
  if s.someRun die nway && !s.runOk die way0 nway then .next s
  else
    s.command c fun s =>
      if !s.someRun die nway then s.answer c 1
      else
        let g := s.carveGen % 65535 + 1
        let v : Carve := { handle := carveHandle g die way0 nway, tenant := c.tenant, bytes := [] }
        { s with carveGen := g, carves := s.carves ++ [v] }.post c.seq (.status 0 0 0 v.handle)

/-- A run of a copy lies in a carve-out. -/
def Side.names (d : Side) (hd : Word) : Bool := match d with | .ts h _ => h == hd | _ => false

/-- A hart has accepted a copy of a carve-out that has not performed. -/
def Hart.usesCarve (h : Hart) (hd : Word) : Bool :=
  h.copies.any fun e =>
    match e.work with
    | .copy ms => ms.any fun m => m.src.names hd || m.dst.names hd
    | .writing rest => rest.any fun r => r.base.names hd
    | .fill d _ _ => d.names hd

/-- `UNCARVE`: it waits while an accepted access has not performed. What a command that names no carve-out of its tenant is
answered with is open (log entry 9). -/
def execUncarve (c : Cmd) (handle : Word) (s : State) : Out :=
  if (s.hart :: s.others ++ s.parked).any (·.usesCarve handle) then .next s
  else
    s.command c fun s =>
      if s.carves.any fun v => v.handle == handle && v.tenant == c.tenant then
        { s with carves := s.carves.filter fun v => v.handle != handle }.answer c 0
      else s.refuse c.seq

/-! ### Pool limits (R205) -/

/-- Change the cluster of a number, wherever it stands. -/
def State.onClusterAt (s : State) (n : Nat) (f : Cluster → Cluster) : State :=
  if s.cluster.num = n then s.onCluster f else { s with clusters := putCluster s.clusters (f (s.clusterAt n)) }

/-- The reserve of the delivery pool (R204). -/
def poolReserve (qmin : Vector Nat 16) (qs : Vector (List DSlot) 16) : Nat :=
  ((List.finRange 16).map fun q => qmin.get q - (qs.get q).length).sum

/-- The unused entries of the delivery pool. -/
def Cluster.freeEntries (c : Cluster) : Nat := 512 - ((List.finRange 16).map fun q => (c.queues.get q).length).sum

/-- The limits are ignored (R205). -/
def Cluster.limitsBad (c : Cluster) (q : Fin 16) (qmin qcap : Nat) : Bool :=
  let ms := c.qmin.set q.val qmin
  qcap < qmin || 64 < qcap || qcap = 0 || 512 < ms.toList.sum
    || (c.freeEntries < poolReserve ms c.queues && poolReserve c.qmin c.queues < poolReserve ms c.queues)

/-- `POOL`: it waits while a hart of the cluster is bound. Obsidian clears the error bit, by writing 1, before it writes. Limits
that are ignored set it, and the host learns of it in a status whose value is open, as of a cluster given to another tenant (log
entry 9). DESIGN CHOICE (log entry 53): a cluster that no tenant has is given to the commanding one. DESIGN CHOICE (log entry 57):
minimum and cap are one write, so that neither is written where one is ignored. -/
def execPool (c : Cmd) (cluster : Nat) (q : Fin 16) (qmin qcap : Nat) (s : State) : Out :=
  if (s.hart :: s.others).any fun h => h.bound && h.name.cluster == cluster then .next s
  else
    s.command c fun s =>
      let k := (s.clusterAt cluster).giveTo c.tenant
      if 192 ≤ cluster || (match (s.clusterAt cluster).tenant with | some t => t != c.tenant | none => false) then s.refuse c.seq
      else if k.limitsBad q qmin qcap then (s.onClusterAt cluster fun _ => { k with poolErr := true }).refuse c.seq
      else
        (s.onClusterAt cluster fun _ =>
          { k with qmin := k.qmin.set q.val qmin, qcap := k.qcap.set q.val qcap, poolErr := false }).answer c 0

/-! ### The command window (R245, R246) -/

/-- `SYNC`: accepted with any sequence, and not counted. -/
def execSync (c : Cmd) (s : State) : Out :=
  .next (s.post c.seq (.synced s.cmdSeq s.compSeq))

/-- `REPLAY`: the completions from a sequence onward are posted again where all are among the last 4,096. Sequences count modulo
2^32, so the latest record of each is meant. -/
def execReplay (c : Cmd) (start : BitVec 32) (s : State) : Out :=
  s.command c fun s =>
    let n := (s.compSeq + 1 - start).toNat
    let old := (List.range (min n 4097)).mapM fun k =>
      s.completions.reverse.find? fun (x : Completion) => x.seq == start + BitVec.ofNat 32 k
    match old with
    | some xs => if 4096 < n then s.answer c 1 else { s with completions := s.completions ++ xs }.answer c 0
    | none => s.answer c 1

/-- A command whose opcode is none of R245's is answered with 0xFFFF; a `QUIESCE` whose mode is none of R276's with `Q_ORDER`.
Other commands are not of this step. -/
def execCommandUnknown (c : Cmd) (op : CmdOpcode) (s : State) : Out :=
  if op.opcode.toNat = 10 ∧ ¬(1 ≤ op.mode.toNat ∧ op.mode.toNat ≤ 4) then s.command c fun s => s.answer c 1
  else if 1 ≤ op.opcode.toNat ∧ op.opcode.toNat ≤ 13 then .next s
  else s.command c fun s => s.answer c 0xFFFF

/-! ### Attestation (R287) -/

/-- The numbers of a list of units, their count first. -/
def unitNums (xs : List Nat) : List Nat := xs.length :: xs

/-- The numbers of every unit a defect map names, kind by kind. -/
def defectNums (t : SelfTest) : List Nat :=
  let pairs := fun xs : List (Nat × Nat) => unitNums (xs.flatMap fun x => [x.1, x.2])
  unitNums t.badClusters ++ unitNums t.badMgmt ++ unitNums t.badStacks ++ unitNums t.badStations ++ pairs t.badSlices
    ++ pairs t.badWays ++ unitNums t.badBoundaries ++ unitNums (t.badPorts.map (·.val)) ++ unitNums t.badEngines

/-- An attestation report: the nonce, the digests of the obsidian image, the configuration image and the defect map, and the
signature of the identity key over the digest of these (log entry 5). -/
def execAttestationRequest (c : Cmd) (nonce : Word) (s : State) : Out :=
  s.command c fun s =>
    let config := sha3 s.config
    let defects := sha3 (Config.defectMap (defectNums s.selfTest))
    let sig := Config.identitySign (sha3 (leBytes 8 nonce.toNat ++ Config.obsidianDigest ++ config ++ defects))
    s.post c.seq (.attestation nonce Config.obsidianDigest config defects s.selfTest sig)

/-! ### Power-up (R17, R19 to R21, R253) -/

/-- No die has more than four of these failing units (R20). -/
def fewPerDie (xs : List (Nat × Nat)) : Bool :=
  (List.range 4).all fun d => (xs.dedup.filter fun x => x.1 == d).length ≤ 4

/-- The package is usable (R19, R20). -/
def packageUsable (t : SelfTest) : Bool :=
  t.badMgmt = [] && t.badStacks = [] && t.badStations = [] && t.badEngines = [] && fewPerDie t.badSlices
    && fewPerDie t.badWays && t.badBoundaries.dedup.length ≤ 1 && (List.finRange 18).any fun p => !t.badPorts.contains p

/-- The power-up map: the good physical clusters, ascending (R21). -/
def powerUpMap (t : SelfTest) : List Nat := (List.range 192).filter fun p => !t.badClusters.contains p

/-- The engine of a logical die, given the dies assigned before: that of the physical die of its lowest cluster, or else the lowest
that has none (R101). -/
def engineFor (m : List Nat) (done : List (Nat × Nat)) (die : Nat) : List (Nat × Nat) :=
  match ((List.range 48).map fun k => m.getD (48 * die + k) 255).find? fun p => p != 255 with
  | none => done
  | some p =>
    let taken := done.map (·.2)
    done ++ [(die, if taken.contains (p / 48) then ((List.range 4).find? fun d => !taken.contains d).getD 0 else p / 48)]

/-- The physical die whose synchronisation engine each logical die in use has (R101). -/
def enginesOf (m : List Nat) : List (Nat × Nat) := (List.range 4).foldl (engineFor m) []

/-- The configuration image is accepted: its signature over its digest verifies (R17). -/
def configAccepted (g : ConfigImage) (signature : List Byte) : Bool :=
  Config.mlDsaVerify Config.configKey (sha3 g.bytes) signature

/-- The package after power-up. DESIGN CHOICE (log entry 57): the keys registered for launch images (R51), like the trusted device
keys (R285), are those the configuration image lists. What lies outside the package stays, and the frames of its HBM4 hold nothing
listed (log entries 1, 2). -/
def State.powered (s : State) (t : SelfTest) (g : ConfigImage) (ok : Bool) : State :=
  { State.reset with
    mem := s.mem.filter fun c => c.1 / 2 ^ 40 != s.fid, fid := s.fid, images := s.images, vacant := s.vacant
    absent := s.absent, heatFloor := s.heatFloor, freeCount := s.freeCount, nextName := s.nextName, agenda := s.agenda
    selfTest := t, usable := packageUsable t, configured := ok, config := if ok then g.bytes else []
    trusted := if ok then g.trusted else [], registered := if ok then g.registered else []
    logical := powerUpMap t, engines := enginesOf (powerUpMap t), withheldPorts := t.badPorts.map (·.val)
    ports := Vector.ofFn fun p => if t.badPorts.contains p then 0 else 4 }

/-- Power-up: self-test, the signed configuration image, the map and the engines. A package that can accept no launch reports
why: its defect map, or that it refused the image (R17, R19, R20). -/
def execPowerUp (test : SelfTest) (config : ConfigImage) (signature : List Byte) (s : State) : Out :=
  let t := s.powered test config (configAccepted config signature)
  let t1 := if t.usable then t else t.post 0 (.defects test)
  .next (if t.configured then t1 else t1.post 0 (.configRefused test))

end Sys2Proof.Machine
end

