-- ==== Sys2Proof/Machine/PhaserOps.lean ====
section
/-! DEFINITION. The phaser instructions (R97 to R101, R196, R340, R341). A caller that waits stays at its instruction, which
executes again: its member records whether it waits, whether its signal is recorded, and the counter at its waking. -/

namespace Sys2Proof.Machine

/-- The status word of R98. -/
def phStatus (code : Nat) (counter : BitVec 32) : Word := BitVec.ofNat 64 (counter.toNat * 2 ^ 32 + code)

/-- The live phaser a register's handle names: of its generation, created by the caller's launch (R97, R340). -/
def State.phaser? (s : State) (w : Word) : Option Phaser :=
  s.phasers.find? fun p => p.handle == w.setWidth 32 && p.launch == s.hart.task.launch

/-- Replace a phaser. -/
def State.putPhaser (s : State) (p : Phaser) : State :=
  { s with phasers := s.phasers.map fun q => if q.handle = p.handle then p else q }

/-- The caller's membership. -/
def Phaser.member? (p : Phaser) (owner : HartName) : Option Member := p.members.find? fun m => m.owner == owner

/-- Change the caller's membership. -/
def Phaser.onMember (p : Phaser) (owner : HartName) (f : Member → Member) : Phaser :=
  { p with members := p.members.map fun m => if m.owner = owner then f m else m }

/-- A phaser instruction ends with a status word. -/
def State.phDone (s : State) (c : XReg) (code : Nat) (counter : BitVec 32) : State :=
  (s.setX c (phStatus code counter)).retire

/-! ### Creation and deletion (R97) -/

/-- The free indexes of a logical die's engine. -/
def State.freeIndexes (s : State) (die : Nat) : List Nat :=
  (List.range 4096).filter fun k =>
    !s.phasers.any fun p => bits p.handle.toNat 13 12 == die && bits p.handle.toNat 11 0 == k

/-- The generation the next phaser of an index takes (R97). -/
def State.nextGeneration (s : State) (key : Nat) : Nat :=
  match s.phGens.find? fun g => g.1 == key with
  | some g => g.2 % (2 ^ 18 - 1) + 1
  | none => Config.firstGeneration key % (2 ^ 18 - 1) + 1

/-- `phnew`: the index and the first generation are the engine's choice (log entry 3). -/
def execPhnew (a c : XReg) (s : State) : Out := finish do
  s.noStrip
  let die := s.hart.name.cluster / 48 % 4
  let free := s.freeIndexes die
  if free = [] then return s.phDone c 2 0
  let k := free.getD (Config.phaserChoice s.freeCount % free.length) 0
  let key := 4096 * die + k
  let g := s.nextGeneration key
  let hd := BitVec.ofNat 32 (g * 2 ^ 14 + key)
  let p : Phaser := { handle := hd, launch := s.hart.task.launch, counter := (s.getX a).setWidth 32, members := [] }
  let s1 :=
    { s with
      freeCount := s.freeCount + 1, phasers := s.phasers ++ [p]
      phGens := (key, g) :: s.phGens.filter fun x => x.1 != key }
  return s1.phDone c 0 hd

/-- Callers an advance has already woken keep their wake when the phaser goes (R100). -/
def State.keepWakes (s : State) (p : Phaser) : State :=
  p.members.foldl
    (fun s m => match m.woke with | some k => s.onBound m.owner fun h => { h with phWoke := some k } | none => s) s

/-- `phdel`: callers that wait find the phaser gone (R99). -/
def execPhdel (a c : XReg) (s : State) : Out := finish do
  s.noStrip
  match s.phaser? (s.getX a) with
  | none => return s.phDone c 1 0
  | some p => return ({ s with phasers := s.phasers.filter fun q => q.handle != p.handle }.keepWakes p).phDone c 0 0

/-! ### Membership (R98) -/

/-- `phreg`. DESIGN CHOICE (log entry 42): a member of a phaser of 256 members is answered `PH_MEMBER`, not `PH_FULL`. -/
def execPhreg (m : PhMode) (a c : XReg) (s : State) : Out := finish do
  s.noStrip
  match s.phaser? (s.getX a) with
  | none => return s.phDone c 1 0
  | some p =>
    let o := s.hart.name
    if (p.member? o).isSome then return s.phDone c 5 p.counter
    if 256 ≤ p.members.length then return s.phDone c 2 p.counter
    let new : Member :=
      { owner := o, hartid := s.hart.id, mode := m, sig := p.counter, wt := p.counter, waiting := false,
        signalled := false, stall := none, woke := none }
    return (s.putPhaser { p with members := p.members ++ [new] }).phDone c 0 p.counter

/-- `phdrop`. -/
def execPhdrop (a c : XReg) (s : State) : Out := finish do
  s.noStrip
  match s.phaser? (s.getX a) with
  | none => return s.phDone c 1 0
  | some p =>
    let o := s.hart.name
    if (p.member? o).isNone then return s.phDone c 3 p.counter
    let q := p.drop o
    return (s.putPhaser q).phDone c 0 q.counter

/-! ### Signals and waits (R98 to R100, R341) -/

/-- The phaser and membership of a signal or wait; any other outcome ends the instruction with its status, and
so does a wake by a phaser deleted since. -/
def State.phCaller (s : State) (a c : XReg) (ok : Member → Bool) : Part (Phaser × Member) :=
  match s.hart.phWoke, s.phaser? (s.getX a) with
  | some k, _ => .error ((s.onHart fun h => { h with phWoke := none }).phDone c 0 k)
  | none, none => .error (s.phDone c 1 0)
  | none, some p =>
    match p.member? s.hart.name with
    | none => .error (s.phDone c 3 p.counter)
    | some m => if ok m then .ok (p, m) else .error (s.phDone c 4 p.counter)

/-- A wait completes at the counter `k`: wt advances (R98). -/
def State.phWoken (s : State) (p : Phaser) (c : XReg) (k : BitVec 32) : State :=
  (s.putPhaser (p.onMember s.hart.name fun m =>
    { m with wt := m.wt + 1, waiting := false, signalled := false, woke := none })).phDone c 0 k

/-- The caller waits until the counter exceeds wt: it completes at once, or stays at its instruction. -/
def State.phAwait (s : State) (p : Phaser) (c : XReg) : State :=
  match p.member? s.hart.name with
  | none => s
  | some m =>
    match m.woke with
    | some k => s.phWoken p c k
    | none =>
      if phAfter p.counter m.wt then s.phWoken p c p.counter
      else s.putPhaser (p.onMember m.owner fun m => { m with waiting := true })

/-- A signal for the current phase is recorded already: this one stalls until the counter reaches sig, `sw` telling a
`phsw` (R98). -/
def State.phStall (s : State) (p : Phaser) (m : Member) (sw : Bool) : Part Unit :=
  if phAfter m.sig p.counter then
    .error (s.putPhaser (p.onMember m.owner fun (m : Member) => { m with stall := some sw }))
  else .ok ()

/-- `phsig`; it reports the counter after the operation, with the advance its signal completes (R98, R340). -/
def execPhsig (a c : XReg) (s : State) : Out := finish do
  s.noStrip
  let r ← s.phCaller a c Member.signals
  match r.2.woke with
  | some k => return (s.putPhaser (r.1.onMember r.2.owner fun (m : Member) => { m with woke := none })).phDone c 0 k
  | none =>
    s.phStall r.1 r.2 false
    let q := (r.1.onMember r.2.owner fun m => { m with sig := m.sig + 1 }).advance
    return (s.putPhaser q).phDone c 0 q.counter

/-- `phwait`. -/
def execPhwait (a c : XReg) (s : State) : Out := finish do
  s.noStrip
  let r ← s.phCaller a c Member.waits
  return s.phAwait r.1 c

/-- `phsw`: the signal, then the wait. -/
def execPhsw (a c : XReg) (s : State) : Out := finish do
  s.noStrip
  let r ← s.phCaller a c fun m => m.signals && m.waits
  if r.2.signalled then return s.phAwait r.1 c
  s.phStall r.1 r.2 true
  let q := r.1.onMember r.2.owner fun m => { m with sig := m.sig + 1, signalled := true, waiting := true }
  return s.phAwait q.advance c

end Sys2Proof.Machine
end

