-- ==== Sys2Proof/Machine/Power.lean ====
section
/-! DEFINITION. Steps and the governor: `dln`, `dlnend`, decisions, heat tokens, throttle and droop (R266 to R275). -/

namespace Sys2Proof.Machine

/-! ### Operating points (R270) -/

/-- The frequency of a point in units of 10 MHz. -/
def pointFreq (p : Nat) : Nat := [50, 60, 70, 80, 90, 100, 110, 120, 130, 140, 145, 150, 160, 165, 170, 180].getD p 0

/-- The heat tokens of a point. -/
def pointTokens (p : Nat) : Nat := [7, 10, 12, 16, 20, 24, 29, 35, 41, 48, 52, 57, 65, 70, 76, 86].getD p 0

/-- The permitted points of a cluster that holds some tokens, lowest first. -/
def permitted (heat : Nat) : List Nat := (List.range 16).filter fun p => pointTokens p ≤ heat

/-- The work an open step has left (R270). -/
def Hart.workLeft (h : Hart) : Nat := match h.step with | some st => st.estimate.toNat - h.dlnDone | none => 0

/-- An open step's predicted finish at point `p` lies at or before its deadline. The interval since the last decision had
`span` ticks at the frequency `cur`; a hart that retired no unit in it is taken to retire one each cycle (R270). -/
def Hart.meets (h : Hart) (now : Word) (span cur p : Nat) : Bool :=
  match h.step with
  | none => true
  | some st =>
    let slack := (st.deadline - now.setWidth 32).toInt
    let rem := h.workLeft
    if rem = 0 then true
    else if h.retired = 0 then (rem * 10 : Nat) ≤ slack * pointFreq p
    else ((rem * span * cur : Nat) : Int) ≤ slack * (h.retired * pointFreq p : Nat)

/-- The governor's pick (R270). DESIGN CHOICE (log entry 24): where no point is permitted, below 7 tokens, it is point 0, the one
that needs fewest. -/
def pickPoint (hs : List Hart) (heat : Nat) (now : Word) (span cur : Nat) : Nat :=
  let ps := permitted heat
  if hs.all fun h => h.step.isNone then ((ps.filter (· ≤ 9)).getLast?).getD 0
  else
    match ps.find? fun p => hs.all fun h => h.meets now span cur p with
    | some p => p
    | none => (ps.getLast?).getD 0

/-- The hart's open step predicts a miss at the highest permitted point, or its deadline has passed with work left (R271). -/
def Hart.atRisk (h : Hart) (heat : Nat) (now : Word) (span cur : Nat) : Bool :=
  match h.step with
  | none => false
  | some st =>
    h.workLeft ≠ 0
      && ((st.deadline - now.setWidth 32).msb || !h.meets now span cur (((permitted heat).getLast?).getD 0))

/-- What a decision does to a hart: `DLNRISK` once per step, and a new measuring interval (R270, R271). -/
def Hart.decided (h : Hart) (risk : Bool) : Hart :=
  { (if risk && !h.dlnRisk then { h.setSt 8 true with dlnRisk := true } else h) with retired := 0 }

/-! ### Heat tokens (R272) -/

/-- The package's budget of heat tokens. -/
def heatBudget : Nat := 12800

/-- Heat tokens the other clusters hold; one that is as at power-up holds what `Cluster.reset` says. -/
def State.heatElsewhere (s : State) : Nat :=
  ((List.range 192).map fun n => if n = s.hart.name.cluster then 0 else (s.clusterAt n).gov.heat).sum

/-- The floor of heat tokens of a tenant, which the host sets (R272). -/
def State.floorOf (s : State) (t : Option Nat) : Nat :=
  match t with
  | some t => ((s.heatFloor.find? fun f => f.1 == t).map (·.2)).getD 0
  | none => 0

/-- The tokens of the point the cluster in front would choose if it held as many as any point needs: what it requests. -/
def State.heatWanted (s : State) : Nat :=
  let g := s.cluster.gov
  let now := s.cluster.refTick
  pointTokens (pickPoint s.clusterHarts 86 now (now - g.since).toNat (pointFreq g.point.val))

/-- What the arbiter's first pass gives the cluster in front: where it is given to a tenant, 7 tokens, then what it requests up
to the tenant's floor. -/
def State.heatSure (s : State) : Nat :=
  if s.cluster.tenant.isNone then 0 else max 7 (min (s.floorOf s.cluster.tenant) s.heatWanted)

/-- What a cluster keeps of its tokens when others need them: where it is given to a tenant, 7, and, unless another lacks its own 7,
its tenant's floor (R272). -/
def State.heatKept (s : State) (floors : Bool) (c : Cluster) : Nat :=
  if c.tenant.isNone then 0 else if floors then max 7 (s.floorOf c.tenant) else 7

/-- The highest point some tokens permit. -/
def highestPermitted (heat : Nat) : Fin 16 := Fin.ofNat 16 (((permitted heat).getLast?).getD 0)

/-- A governor that gives back some tokens: the point in force or on its way that the rest does not permit gives way to the highest
one it does (R272). -/
def Governor.give (g : Governor) (n : Nat) : Governor :=
  let heat := g.heat - n
  let bad := fun p : Fin 16 => decide (heat < pointTokens p.val)
  let q := highestPermitted heat
  let target :=
    if (g.target.map bad).getD (bad g.point) then if q = g.point then none else some q else g.target
  { g with heat := heat, target := target }

/-- Clusters give back tokens beyond what they keep, in ascending order, until `need` have come (R272; DESIGN CHOICE, log entry
24). -/
def State.takeBack (s : State) (floors : Bool) (need : Nat) (ns : List Nat) : State :=
  match ns with
  | [] => s
  | n :: r =>
    if need = 0 then s
    else
      let c := s.clusterAt n
      let k := if n = s.hart.name.cluster then 0 else min need (c.gov.heat - s.heatKept floors c)
      (if k = 0 then s else { s with clusters := putCluster s.clusters { c with gov := c.gov.give k } }).takeBack floors (need - k) r

/-- Before the first pass serves the cluster in front, others give back what it lacks: tokens of the second pass, and, for its first
7, those of floors too, since every bound cluster has its 7 before any floor counts (R272). -/
def State.heatFreed (s : State) : State :=
  let t := s.takeBack true (s.heatSure + s.heatElsewhere - heatBudget) (List.range 192)
  if s.cluster.tenant.isNone then t else t.takeBack false (7 + t.heatElsewhere - heatBudget) (List.range 192)

/-- The tokens the arbiter grants the cluster in front at a decision, the second pass giving it `granted`; the package's budget is
never passed (R272). -/
def State.heatGranted (s : State) (granted : Nat) : Nat :=
  min (max s.heatSure (min granted s.heatWanted)) (heatBudget - s.heatElsewhere)

/-! ### Decisions (R270, R271) -/

/-- A decision of the governor of the cluster in front, the second pass giving it `granted` (R270 to R272). The point it picks
is one its tokens permit, so that a grant below the need of the point in force moves the cluster down; tokens that point does not
need go back. -/
def State.govern (s0 : State) (granted : Nat) : State :=
  let s := s0.heatFreed
  let g := s.cluster.gov
  let heat := s.heatGranted granted
  let now := s.cluster.refTick
  let span := (now - g.since).toNat
  let cur := pointFreq g.point.val
  let p : Fin 16 := Fin.ofNat 16 (pickPoint s.clusterHarts heat now span cur)
  let upd := fun h : Hart => if h.name.cluster = s.hart.name.cluster then h.decided (h.atRisk heat now span cur) else h
  let t := { s with hart := upd s.hart, others := s.others.map upd }
  t.onCluster fun c =>
    { c with gov := { g with target := if p = g.point then none else some p, heat := min heat (pointTokens p.val), since := now } }

/-! ### Steps (R266, R269) -/

/-- Close an open step: SLACK, MISS, and no `DLNRISK` pending (R266). -/
def Hart.closeStep (h : Hart) (now : Word) : Hart :=
  match h.step with
  | some st =>
    let slack := st.deadline - now.setWidth 32
    { h.setSt 8 false with step := none, dlnSlack := slack, dlnMiss := slack.msb }
  | none => h

/-- `dln` (R266). Its decision requests every token of the chosen point that the budget leaves (R270, R272; log entry 24). -/
def execDln (a b : XReg) (s : State) : Out := finish do
  s.computeOnly (.dln a b)
  let now := s.cluster.refTick
  let st : Step :=
    { deadline := now.setWidth 32 + (s.getX a).setWidth 32, estimate := (s.getX b).setWidth 32 }
  let t := s.onHart fun h =>
    { (h.closeStep now).setSt 8 false with
      step := some st, dlnPre := false, dlnRisk := false, dlnMiss := false, dlnDone := 0 }
  return (t.govern heatBudget).retire

/-- `dlnend` (R266). -/
def execDlnend (c : XReg) (s : State) : Out := finish do
  s.computeOnly (.dlnend c)
  let t := s.onHart fun h => h.closeStep s.cluster.refTick
  return (t.setX c (t.hart.dlnstat s.cluster.refTick)).retire

/-! ### What the governor and the supply do (R270 to R274) -/

/-- The host sets a tenant's floor of heat tokens, through obsidian (R272). -/
def State.setFloor (s : State) (floor : Option Nat) : State :=
  match floor, s.cluster.tenant with
  | some f, some t => { s with heatFloor := (t, f) :: s.heatFloor.filter fun x => x.1 != t }
  | _, _ => s

/-- A periodic decision, 4,096 ticks after the last, at which the second pass gives the cluster its share of tokens; the host may
have set its tenant's floor before (R270, R272). -/
def execGovernorDecision (share : HeatShare) (s : State) : Out :=
  let s := s.setFloor share.floor
  if 4096 ≤ (s.cluster.refTick - s.cluster.gov.last).toNat then
    .next ((s.govern share.granted).onCluster fun c => { c with gov := { c.gov with last := c.refTick } })
  else .next s

/-- The chosen point takes effect (R270). -/
def execOperatingPointSettles (s : State) : Out :=
  match s.cluster.gov.target with
  | some p => .next (s.onCluster fun c => { c with gov := { c.gov with point := p, target := none } })
  | none => .next s

/-- The throttle level rises or falls (R273). DESIGN CHOICE (log entry 24): by one level at a step. -/
def execThrottleAdjust (up : Bool) (s : State) : Out :=
  .next (s.onCluster fun c =>
    let t := c.gov.throttle.val
    { c with gov := { c.gov with throttle := Fin.ofNat 4 (if up then min (t + 1) 3 else t - 1) } })

/-- One cycle of a supply droop: the switch is on unless it was on in 30 of the 1,023 cycles before, or the clock is stretched
already; then the clock is stretched until the droop ends (R274). -/
def Governor.droopCycle (g : Governor) : Governor :=
  let on := !g.stretched && (g.history.filter id).length < 30
  { g with switch := on, stretched := !on, history := (on :: g.history).take 1023 }

/-- Cycles without a droop: the switch is off and no cycle is stretched (R274). -/
def Governor.quietCycles (g : Governor) (n : Nat) : Governor :=
  { g with
    switch := false, stretched := false, history := (List.replicate (min n 1023) false ++ g.history).take 1023 }

/-- Some cycles of a supply droop, or without one (R274). -/
def execSupplyDroop (span : DroopSpan) (s : State) : Out :=
  .next (s.onCluster fun c =>
    { c with
      gov := if span.drooping then (List.range span.cycles).foldl (fun g _ => g.droopCycle) c.gov else c.gov.quietCycles span.cycles })

end Sys2Proof.Machine
end

