-- ==== Sys2Proof/Machine/Layout.lean ====
section
/-! DEFINITION. Bytes of the host interface: command records and their payloads, completion records, bind records and device state
images (R46 to R49, R92, R200, R214, R226, R236, R245, R280 to R282, R285, R379). Bytes the spec does not lay out are said where they
stand (log entries 30 and 55). -/

namespace Sys2Proof.Machine

/-- Some zero bytes. -/
def zeros (n : Nat) : List Byte := List.replicate n 0

/-- A list of bytes made `n` long. -/
def fitTo (n : Nat) (bs : List Byte) : List Byte := bs.take n ++ zeros (n - bs.length)

/-- The bytes from `lo` to `hi - 1` are all 0. -/
def zeroAt (bs : List Byte) (lo hi : Nat) : Bool := field bs lo (hi - lo) == 0

/-! ### The parts of a launch (R46 to R49) -/

/-- A launch descriptor. -/
def descBytes (d : LaunchDesc) : List Byte :=
  leBytes 4 d.name.toNat ++ leBytes 4 d.count.toNat ++ leBytes 8 d.entry.toNat ++ leBytes 8 d.args.toNat ++ leBytes 4 d.argstride.toNat
    ++ leBytes 1 d.priority ++ leBytes 1 d.lanes ++ leBytes 1 d.preempt ++ zeros 1
    ++ leBytes 2 d.leaseIndex.toNat ++ leBytes 2 d.classmap.toNat ++ zeros 28

/-- The descriptor of some bytes, with a mark from the other parts of the payload. -/
def descOf (b : List Byte) (bad : Bool) : LaunchDesc :=
  { name := BitVec.ofNat 32 (field b 0 4), leaseIndex := BitVec.ofNat 16 (field b 32 2)
    count := BitVec.ofNat 32 (field b 4 4), entry := BitVec.ofNat 64 (field b 8 8), args := BitVec.ofNat 64 (field b 16 8)
    argstride := BitVec.ofNat 32 (field b 24 4), priority := field b 28 1, lanes := field b 29 1, preempt := field b 30 1
    classmap := BitVec.ofNat 16 (field b 34 2), badReserved := bad || !zeroAt b 31 32 || !zeroAt b 36 64 }

/-- A descriptor has a lease (R46). -/
def leased (d : LaunchDesc) : Bool := d.leaseIndex != 0xFFFF

/-- A lease record. -/
def leaseBytes (name : BitVec 32) (rs : List LeaseRange) : List Byte :=
  leBytes 4 name.toNat ++ leBytes 2 rs.length ++ zeros 10
    ++ rs.flatMap fun r => leBytes 8 r.start ++ leBytes 8 r.len ++ leBytes 1 (if r.rw then 3 else 1) ++ zeros 7

/-- The ranges of a lease record. -/
def leaseOf (b : List Byte) : List LeaseRange :=
  (List.range (field b 4 2)).map fun k =>
    { start := field b (16 + 24 * k) 8, len := field b (24 + 24 * k) 8, rw := field b (32 + 24 * k) 1 == 3 }

/-- A reserved byte of a lease record is nonzero, or a mode is none of R47's. DESIGN CHOICE (log entry 57): a mode that is neither
1 nor 3 is answered with `LAUNCH_FIELD` like a reserved byte. -/
def leaseBad (b : List Byte) : Bool :=
  !zeroAt b 6 16 || (List.range (field b 4 2)).any fun k =>
    !zeroAt b (33 + 24 * k) (40 + 24 * k) || (field b (32 + 24 * k) 1 != 1 && field b (32 + 24 * k) 1 != 3)

/-- A group section. -/
def groupBytes (gs : List GroupRec) : List Byte :=
  leBytes 2 gs.length ++ zeros 6
    ++ gs.flatMap fun g =>
      leBytes 1 g.index ++ zeros 1 ++ leBytes 2 g.members.length ++ zeros 4
        ++ g.members.flatMap fun m =>
          leBytes 2 (m.fid.getD 0xFFFF) ++ leBytes 1 m.cluster ++ leBytes 1 m.core ++ leBytes 1 m.hart ++ zeros 3

/-- A member of a group. -/
def memberOf (b : List Byte) : Sys2Proof.Member :=
  { fid := if field b 0 2 = 0xFFFF then none else some (field b 0 2), cluster := field b 2 1, core := field b 3 1
    hart := field b 4 1 }

/-- `n` group records, whether a reserved byte of them is nonzero, and their length. -/
def groupsOf (b : List Byte) (n : Nat) : List GroupRec × Bool × Nat :=
  match n with
  | 0 => ([], false, 0)
  | n + 1 =>
    let k := field b 2 2
    let ms := (List.range k).map fun j => (b.drop (8 + 8 * j)).take 8
    let r := groupsOf (b.drop (8 + 8 * k)) n
    ({ index := field b 0 1, members := ms.map memberOf } :: r.1,
      !zeroAt b 1 2 || !zeroAt b 4 8 || (ms.any fun m => !zeroAt m 5 8) || r.2.1, 8 + 8 * k + r.2.2)

/-- A window record. -/
def windowBytes (w : WindowRec) : List Byte :=
  leBytes 2 w.id ++ leBytes 1 w.tile.toNat ++ zeros 5 ++ leBytes 8 w.base ++ leBytes 8 w.len ++ zeros 8

/-- The window of a record. DESIGN CHOICE (log entry 57): an identifier above 16,383 is kept as it is, though no address word can
name it. -/
def windowRecOf (b : List Byte) : WindowRec :=
  { id := field b 0 2, tile := field b 2 1 == 1, base := field b 8 8, len := field b 16 8 }

/-- A reserved byte of a window record is nonzero, or its kind is none of R49's. DESIGN CHOICE (log entry 57): a kind above 1 is
answered with `LAUNCH_FIELD` like a reserved byte. -/
def windowBad (b : List Byte) : Bool := 1 < field b 2 1 || !zeroAt b 3 8 || !zeroAt b 24 32

/-! ### Command records (R245, R276, R283, R379) -/

/-- The head of a command, where `bad` says that a reserved byte of its operands is nonzero. -/
def cmdOf (b : List Byte) (bad : Bool) : Cmd :=
  { seq := BitVec.ofNat 32 (field b 0 4), tenant := field b 8 4, job := BitVec.ofNat 16 (field b 12 2)
    badReserved := bad || !zeroAt b 14 16 }

/-- The operands of a mapping command. -/
def mapOf (b : List Byte) : MapCmd :=
  { ctxId := BitVec.ofNat 32 (field b 16 4), level := field b 20 1, va := field b 24 8, pte := BitVec.ofNat 64 (field b 32 8) }

/-- A reserved byte of a mapping command is nonzero; byte 21 is `REMAP`'s, and `UNMAP` has no entry. -/
def mapBad (b : List Byte) (remap unmap : Bool) : Bool :=
  (!remap && !zeroAt b 21 22) || !zeroAt b 22 24 || (unmap && !zeroAt b 32 40) || !zeroAt b 40 64

/-- The bytes of a part rounded up to whole records. -/
def recordsLen (n : Nat) : Nat := (n + 63) / 64 * 64

/-- The bytes of the lease record of a payload: none where the descriptor names no lease. -/
def launchLeaseLen (payload : List Byte) : Nat :=
  if leased (descOf (payload.take 64) false) then 16 + 24 * field (payload.drop 128) 4 2 else 0

/-- The group section of a payload and what follows, and the bytes of the section. -/
def launchGroups (payload : List Byte) : List Byte × Nat :=
  let p2 := payload.drop (128 + recordsLen (launchLeaseLen payload))
  (p2, 8 + (groupsOf (p2.drop 8) (field p2 0 2)).2.2)

/-- A byte between two parts of a launch record, which the tables do not name, is not 0 (R379). -/
def launchPadBad (payload : List Byte) : Bool :=
  let nl := launchLeaseLen payload
  let g := launchGroups payload
  !zeroAt (payload.drop 128) nl (recordsLen nl) || !zeroAt g.1 g.2 (recordsLen g.2)

/-- The operands of `LAUNCH`: the record and its payload, part by part (R379). The window records end with the payload; a record
of zeros there is padding (log entry 55). -/
def launchReqOf (b : List Byte) (payload : List Byte) : LaunchReq :=
  let d := payload.take 64
  let mb := (payload.drop 64).take 64
  let p1 := payload.drop 128
  let hasLease := leased (descOf d false)
  let p2 := (launchGroups payload).1
  let gs := groupsOf (p2.drop 8) (field p2 0 2)
  let p3 := p2.drop (recordsLen (launchGroups payload).2)
  let ws := ((List.range (p3.length / 32)).map fun k => (p3.drop (32 * k)).take 32).filter fun w => !zeroAt w 0 32
  { ctxId := BitVec.ofNat 32 (field b 16 4), imageFid := field b 20 2, imageAddr := field b 24 8, imageLen := field b 32 8
    desc := descOf d ((hasLease && leaseBad p1) || !zeroAt p2 2 8 || gs.2.1 || ws.any windowBad)
    mbox := Vector.ofFn fun k => BitVec.ofNat 64 (field mb (8 * k.val) 8)
    leaseName := if hasLease then BitVec.ofNat 32 (field p1 0 4) else 0, lease := if hasLease then leaseOf p1 else []
    groups := gs.1, windows := ws.map windowRecOf }

/-- The instruction a command record and its payload records ask for, with what obsidian chooses; none where the payload is not as
long as the record states. The operands of `CARVE`, `UNCARVE`, `POOL` and `REPLAY` stand where log entry 55 says. -/
def commandOf (b : List Byte) (payload : List (List Byte)) (ch : CmdChoice) : Option Instr :=
  let c := cmdOf b
  if b.length ≠ 64 || payload.length ≠ field b 6 2 || payload.any (·.length != 64) then none
  else
    some (match field b 4 2 with
    | 1 => .launch (c (!zeroAt b 22 24 || !zeroAt b 40 64 || launchPadBad payload.flatten)) (launchReqOf b payload.flatten) ch.ids
    | 2 => .mboxw (c (!zeroAt b 21 24 || !zeroAt b 32 64)) (field b 16 4) (field b 20 1) (BitVec.ofNat 64 (field b 24 8))
    | 3 => .map (c (mapBad b false false)) (mapOf b)
    | 4 => .unmap (c (mapBad b false true)) (mapOf b)
    | 5 => .remap (c (mapBad b true false)) (mapOf b) (field b 21 1)
    | 6 =>
      .pageans
        (c (!zeroAt b 25 64 || payload.any fun p => mapBad (zeros 16 ++ p.take 48) false false || !zeroAt p 48 64))
        (BitVec.ofNat 32 (field b 16 4)) (BitVec.ofNat 32 (field b 20 4)) (field b 24 1 == 0)
        (payload.map fun p => mapOf (zeros 16 ++ p))
    | 7 => .carve (c false) (field b 16 1) ch.way0 (field b 17 1)
    | 8 => .uncarve (c false) (BitVec.ofNat 64 (field b 16 8))
    | 9 => .pool (c false) (field b 16 1) (Fin.ofNat 16 (field b 17 1)) (field b 18 1) (field b 19 1)
    | 10 =>
      match field b 16 1 with
      | 1 => .quiesceStop (c false)
      | 2 =>
        .quiesceSeal (c false) (bitOf (field b 17 1) 0) (field b 20 4) (BitVec.ofNat 64 (field b 24 8)) ⟨field b 32 2, ch.refused⟩
      | 3 => .quiesceResume (c false)
      | 4 => .quiesceDiscard (c false)
      | m => .commandUnknown (c false) ⟨10, BitVec.ofNat 8 m⟩
    | 11 => .restore (c false) (BitVec.ofNat 64 (field b 16 8)) (field b 24 2) (bitOf (field b 26 1) 0) ch.restore
    | 12 => .sync (c false)
    | 13 => .replay (c false) (BitVec.ofNat 32 (field b 16 4))
    | o => .commandUnknown (c false) ⟨BitVec.ofNat 16 o, 0⟩)

/-! ### Completion records (R214, R245, R379) -/

/-- A termination record. -/
def termBytes (r : TermRec) : List Byte :=
  leBytes 4 r.ctxId.toNat ++ leBytes 4 r.leaseId.toNat ++ leBytes 4 (r.index % 2 ^ 24) ++ leBytes 1 r.cause
    ++ leBytes 1 (r.stripLost.toNat + 2 * r.pfxv.toNat) ++ leBytes 2 r.hartid.toNat ++ word8 r.pc ++ word8 r.tval ++ word8 r.item
    ++ word8 r.backing ++ word8 r.stripfault ++ word8 r.refTick

/-- A completion record and its payload records. None for a report on power-up or attestation: the spec lays out no kind for it. -/
def Completion.records (c : Completion) : Option (List (List Byte)) :=
  let rec1 := fun (kind status payload : Nat) (ops : List Byte) =>
    leBytes 4 c.seq.toNat ++ leBytes 4 c.cmd.toNat ++ leBytes 2 kind ++ leBytes 2 status ++ leBytes 2 payload
      ++ fitTo 50 (zeros 2 ++ ops)
  match c.body with
  | .status code a b hd => some [rec1 0 code 0 (leBytes 4 a ++ leBytes 4 b ++ word8 hd)]
  | .synced x y => some [rec1 0 0 0 (leBytes 4 x.toNat ++ leBytes 4 y.toNat)]
  | .launchDone l ctx ex tm => some [rec1 1 0 0 (leBytes 4 l ++ leBytes 4 ctx.toNat ++ leBytes 8 ex ++ leBytes 8 tm)]
  | .termination l r => some [rec1 2 0 1 (leBytes 4 l), termBytes r]
  | .pageRequest ctx q va w l =>
    some [rec1 3 0 0
      (leBytes 4 ctx.toNat ++ leBytes 4 q.toNat ++ leBytes 8 va ++ leBytes 1 (if w then 3 else 1) ++ zeros 3 ++ leBytes 4 l)]
  | .migrated ctx va e => some [rec1 4 0 0 (leBytes 4 ctx.toNat ++ zeros 4 ++ leBytes 8 va ++ word8 e)]
  | .defects _ => none
  | .configRefused _ => none
  | .attestation .. => none

/-! ### The sections of a device state image (R281, R282) -/

/-- A section: its type, its unit and its payload. -/
structure DsiSection where
  type : Nat
  unit : Nat
  payload : List Byte
  deriving DecidableEq, Repr

/-- The bind record a context resumes under (R200): valid, with the resume bit. -/
def bindBytes (h : Hart) : List Byte :=
  let k := h.task
  leBytes 4 k.ctxId.toNat ++ leBytes 4 k.leaseId.toNat ++ word8 k.mapbase ++ word8 h.pc ++ word8 k.args
    ++ leBytes 4 (k.index % 2 ^ 24) ++ leBytes 1 k.priority ++ leBytes 1 h.part.val ++ leBytes 1 k.preempt
    ++ leBytes 1 (1 + 2 * h.name.ah.toNat + 4) ++ word8 k.groups ++ leBytes 2 k.classmap.toNat ++ leBytes 1 k.eqMin
    ++ leBytes 1 k.eqCap ++ zeros 4 ++ word8 k.ckpt

/-- A token entry: the token, its state of R239, and the undelivered bit. -/
def tokenBytes (slot : Nat) (k : TokSlot) : List Byte :=
  let code := match k.st with | .free => 0 | .pending => 1 | .accepted => 2 | .expired => 3
  leBytes 2 (tokenOf slot k.gen).toNat ++ leBytes 1 code ++ leBytes 1 k.undelivered.toNat ++ zeros 4

/-- The head of a `CONTEXT` section. -/
def contextHead (h : Hart) : List Byte :=
  bindBytes h ++ (h.tokens.toList.zipIdx.flatMap fun x => tokenBytes x.2 x.1) ++ word8 h.clstat ++ word8 h.clwin ++ word8 h.tkexp
    ++ leBytes 2 h.id.toNat ++ zeros 422

/-- A `LAUNCH` section. The spec gives the 64-byte job record 66 bytes of fields; its reserved part is taken as 54 (log entry 30).
-/
def launchPayload (l : Launch) : List Byte :=
  let ws := (l.record.windows.zip l.windows).flatMap fun w =>
    windowBytes w.1 ++ leBytes 4 w.2.out.toNat ++ leBytes 4 w.2.inn.toNat ++ leBytes 4 w.2.err ++ zeros 4
  descBytes l.record.desc ++ leBytes 2 l.job.toNat ++ leBytes 4 l.exited ++ leBytes 4 l.terminated ++ zeros 54
    ++ (if leased l.record.desc then leaseBytes l.record.leaseName l.record.lease else []) ++ groupBytes l.record.groups ++ ws
    ++ l.mbox.toList.flatMap word8

/-- The lease mask or the write mask of a record (R92). -/
def rangesMask (gs : List Grant) (write : Bool) : Nat :=
  (gs.filterMap fun g => if write && !g.write then none else g.num).foldl (fun m n => m ||| 2 ^ n) 0

/-- A record of a partition, its count of bound tasks behind it. -/
def taskRecBytes (r : TaskRec) : List Byte :=
  word8 r.entry ++ word8 r.args ++ word8 r.key ++ leBytes 8 (rangesMask r.ranges false) ++ leBytes 8 (rangesMask r.ranges true)
    ++ leBytes 4 r.count ++ leBytes 4 r.argstride.toNat ++ leBytes 1 r.priority ++ leBytes 1 r.lanes ++ leBytes 1 r.preempt
    ++ zeros 1 ++ leBytes 2 r.classmap.toNat ++ zeros 10 ++ leBytes 4 r.next ++ zeros 60

/-- A `CLUSTER` section. An entry whose bytes are not in yet stands as zeros. -/
def clusterPayload (c : Cluster) : List Byte :=
  c.qmin.toList.flatMap (leBytes 1) ++ c.qcap.toList.flatMap (leBytes 1)
    ++ (c.queues.toList.flatMap fun q => leBytes 1 q.length) ++ zeros 16
    ++ (c.tables.toList.flatMap fun t => (t.getD []).getN 0 1040) ++ c.sp.getN 0 spSize
    ++ c.queues.toList.flatMap fun q => q.flatMap fun d => fitTo 128 (d.bytes.getD [])

/-- A phaser of a `PHASER` section. -/
def phaserPayload (fid : Nat) (p : Phaser) : List Byte :=
  leBytes 4 p.handle.toNat ++ leBytes 4 p.counter.toNat ++ leBytes 2 p.members.length ++ zeros 6
    ++ p.members.flatMap fun m =>
      leBytes 2 m.hartid.toNat ++ leBytes 2 fid ++ leBytes 1 m.mode.code ++ zeros 3 ++ leBytes 4 m.sig.toNat ++ leBytes 4 m.wt.toNat

/-- The bytes of a carve-out. -/
def carvePayload (v : Carve) : List Byte := word8 v.handle ++ v.bytes.getN 0 (bits v.handle.toNat 18 14 * 524288 * 128)

/-- A page record and its data. Its length field is taken as aligned (log entry 30). -/
def pageBytes (p : PageImage) : List Byte :=
  let e := p.leaf.pte
  let n := if pteMode e = 0 && !p.unmapped then 65536 else 0
  leBytes 8 p.leaf.va ++ leBytes 2 (ptePeer e) ++ leBytes 1 (pteMode e) ++ leBytes 1 (pteSkew e) ++ leBytes 1 (pteThr e)
    ++ leBytes 1 (ptePromo e).toNat ++ leBytes 1 p.unmapped.toNat ++ zeros 1 ++ leBytes 4 n ++ zeros 44 ++ p.data.getN 0 n

/-- One section for each unit that something stands in, ascending. -/
def perUnit {α : Type} (type : Nat) (units : List Nat) (unitOf : α → Nat) (pay : α → List Byte) (xs : List α) : List DsiSection :=
  units.filterMap fun u =>
    let here := xs.filter fun x => unitOf x == u
    if here.isEmpty then none else some { type := type, unit := u, payload := here.flatMap pay }

/-- The sections of an image but the signature, in their order (R281). -/
def Image.sections (i : Image) : List DsiSection :=
  let clusters := List.range 192
  let dies := List.range 4
  [{ type := 1, unit := 0, payload := (List.range 192).flatMap fun n => leBytes 1 (i.map.getD n 255) }]
    ++ (i.launches.zipIdx.map fun x => { type := 2, unit := x.2, payload := launchPayload x.1 })
    ++ perUnit 3 clusters TaskRec.cluster taskRecBytes i.queue
    ++ (sortBy (fun x : Hart × Bytes => x.1.name.cluster) (i.contexts.zip i.areas)).map (fun x =>
      { type := 4, unit := x.1.name.cluster, payload := contextHead x.1 ++ x.2.getN 0 x.1.areaSize })
    ++ perUnit 5 clusters Cluster.num clusterPayload i.clusters
    ++ perUnit 6 dies (fun p : Phaser => bits p.handle.toNat 13 12) (phaserPayload i.capture) i.phasers
    ++ perUnit 7 dies (fun v : Carve => bits v.handle.toNat 25 24) carvePayload i.carves
    ++ [{ type := 8, unit := 0, payload := i.pages.flatMap pageBytes }]

/-- The bytes of a section: its head, its payload, and zeros to a multiple of 64. -/
def sectionBytes (seq : Nat) (x : DsiSection) : List Byte :=
  let n := 96 + x.payload.length
  leBytes 2 x.type ++ zeros 2 ++ leBytes 4 seq ++ leBytes 8 x.payload.length ++ leBytes 8 x.unit ++ zeros 8 ++ sha3 x.payload
    ++ x.payload ++ zeros (recordsLen n - n)

/-- The header of an image (R280). An image of a tenant that uses no cluster counts one, since U is at least 1 (log entry 30). -/
def Image.header (i : Image) : List Byte :=
  leBytes 4 0x00495344 ++ leBytes 2 1 ++ leBytes 2 i.incremental.toNat ++ leBytes 4 i.seq ++ leBytes 4 i.base
    ++ leBytes 4 (i.sections.length + 1) ++ leBytes 4 i.tenant ++ leBytes 2 i.capture ++ leBytes 2 (max 1 i.used.length) ++ zeros 36

/-- The bytes of an image up to its signature section. -/
def Image.body (i : Image) : List Byte := i.header ++ i.sections.zipIdx.flatMap fun x => sectionBytes x.2 x.1

/-- The bytes of an image, signed by a signature part (R281, R285). -/
def Image.signedBytes (i : Image) (sig : List Byte) : List Byte :=
  i.body ++ sectionBytes i.sections.length { type := 15, unit := 0, payload := fitTo sofSigSize sig }

/-- The signature part of an image this package seals: the digest of its identity key, the digest of the image, and the signature
over that (R51, R281, R285). -/
def Image.signature (i : Image) : List Byte :=
  let d := sha3 i.body
  Config.identityKey ++ d ++ Config.identitySign d

/-! ### Reading an image (R279 to R281, R285) -/

/-- A section as it is read. -/
structure DsiHead where
  type : Nat
  unit : Nat
  start : Nat
  len : Nat
  deriving DecidableEq, Repr

/-- Read `n` sections from byte `off` on, the next sequence being `seq`; `rd a k` is the `k` bytes at `a` of the image. None where a
digest differs, the sequence has a gap, or a reserved field or the padding is not zero. -/
def walkSections (rd : Nat → Nat → List Byte) (n seq off : Nat) : Option (List DsiHead) :=
  match n with
  | 0 => some []
  | n + 1 =>
    let h := rd off 96
    let len := field h 8 8
    let size := 96 + len
    if field h 2 2 ≠ 0 || field h 4 4 ≠ seq || field h 24 8 ≠ 0 || (h.drop 32).take 64 ≠ sha3 (rd (off + 96) len)
        || (rd (off + size) (recordsLen size - size)).any (· != 0) then none
    else
      (walkSections rd n (seq + 1) (off + recordsLen size)).map fun r =>
        { type := field h 0 2, unit := field h 16 8, start := off, len := len } :: r

/-- The order of sections: ascending type, and ascending unit within one type. -/
def dsiOrdered (hs : List DsiHead) : Bool :=
  (hs.zip (hs.drop 1)).all fun x => x.1.type < x.2.type || (x.1.type == x.2.type && decide (x.1.unit ≤ x.2.unit))

/-- The header of an image is in order. -/
def dsiHeaderOk (h : List Byte) : Bool :=
  field h 0 4 = 0x00495344 && field h 4 2 = 1 && field h 6 2 ≤ 1 && 1 ≤ field h 26 2 && field h 26 2 ≤ 192 && zeroAt h 28 64

/-- The sections of an image, its signature last; none where R279 answers `R_DIGEST`. -/
def dsiSections (rd : Nat → Nat → List Byte) : Option (List DsiHead) :=
  let h := rd 0 64
  if !dsiHeaderOk h then none
  else
    (walkSections rd (field h 16 4) 0 64).bind fun hs =>
      if dsiOrdered hs && (hs.map DsiHead.type).getLast? = some 15 && (hs.dropLast.all fun x => 1 ≤ x.type && x.type ≤ 8)
        && (hs.getLast?.map DsiHead.len) = some sofSigSize then some hs else none

end Sys2Proof.Machine
end

