-- ==== Sys2Proof/Machine/Queue.lean ====
section
/-! DEFINITION. The vector queue: which instructions may wait in it, how one retires, and what a hart settles before it goes on
(R86, R213). -/

namespace Sys2Proof.Machine

/-- The meaning of an instruction of majors 0x22 to 0x2A and 0x30 to 0x37, which enters the vector queue (R86, R320); none for a
word of the scalar stream. -/
def runVector (i : Instr) (s : State) : Option Out :=
  match i with
  | .vadd d a b p e n => some (execVadd d a b p e n s)
  | .vsub d a b p e n => some (execVsub d a b p e n s)
  | .vmul d a b p e n => some (execVmul d a b p e n s)
  | .vmulh d a b p e n => some (execVmulh d a b p e n s)
  | .vand d a b p e n => some (execVand d a b p e n s)
  | .vor d a b p e n => some (execVor d a b p e n s)
  | .vxor d a b p e n => some (execVxor d a b p e n s)
  | .vsll d a b p e n => some (execVsll d a b p e n s)
  | .vsrl d a b p e n => some (execVsrl d a b p e n s)
  | .vsra d a b p e n => some (execVsra d a b p e n s)
  | .vmin d a b p e n => some (execVmin d a b p e n s)
  | .vmax d a b p e n => some (execVmax d a b p e n s)
  | .vcmp c pd a b p e n => some (execVcmp c pd a b p e n s)
  | .vsel d a b p e n => some (execVsel d a b p e n s)
  | .vred d a r p e n => some (execVred d a r p e n s)
  | .vfadd d a b p e => some (execVfadd d a b p e s)
  | .vfsub d a b p e => some (execVfsub d a b p e s)
  | .vfmul d a b p e => some (execVfmul d a b p e s)
  | .vfma d a b p e => some (execVfma d a b p e s)
  | .vfnma d a b p e => some (execVfnma d a b p e s)
  | .vfdiv d a b p e => some (execVfdiv d a b p e s)
  | .vfsqrt d a p e => some (execVfsqrt d a p e s)
  | .vfmin d a b p e => some (execVfmin d a b p e s)
  | .vfmax d a b p e => some (execVfmax d a b p e s)
  | .vfcmp c pd a b p e => some (execVfcmp c pd a b p e s)
  | .vfclass d a p e => some (execVfclass d a p e s)
  | .vfred d a r p e => some (execVfred d a r p e s)
  | .vtbl d a t p e => some (execVtbl d a t p e s)
  | .vcvt d a p src sat dst => some (execVcvt d a p src sat dst s)
  | .vfcvt d a p src dst => some (execVfcvt d a p src dst s)
  | .vlnspack d a p => some (execVlnspack d a p s)
  | .vlnsunpack d a p => some (execVlnsunpack d a p s)
  | .vlnsmul d a b p => some (execVlnsmul d a b p s)
  | .vlnsadd d a b p => some (execVlnsadd d a b p s)
  | .vscale d a b p => some (execVscale d a b p s)
  | .vperm d a b p e => some (execVperm d a b p e s)
  | .vslideup d a b p e => some (execVslideup d a b p e s)
  | .vslidedn d a b p e => some (execVslidedn d a b p e s)
  | .vcompress d a p e => some (execVcompress d a p e s)
  | .vexpand d a p e => some (execVexpand d a p e s)
  | .vbcast d a p e => some (execVbcast d a p e s)
  | .vmv d a p e => some (execVmv d a p e s)
  | .vidx d p e => some (execVidx d p e s)
  | .pand d a b => some (execPand d a b s)
  | .por d a b => some (execPor d a b s)
  | .pxor d a b => some (execPxor d a b s)
  | .pnot d a => some (execPnot d a s)
  | .pcnt d a => some (execPcnt d a s)
  | .pfirst d a => some (execPfirst d a s)
  | .vld d a p w c => some (execVld d a p w c s)
  | .vlds d a b p w c => some (execVlds d a b p w c s)
  | .vldx d a b p w c => some (execVldx d a b p w c s)
  | .vldff d a p w c => some (execVldff d a p w c s)
  | .vldsp d a b p w c => some (execVldsp d a b p w c s)
  | .qld d q p w => some (execQld d q p w s)
  | .vst d a p w c => some (execVst d a p w c s)
  | .vsts d a b p w c => some (execVsts d a b p w c s)
  | .vstx d a b p w c => some (execVstx d a b p w c s)
  | .vstsp d a b p w c => some (execVstsp d a b p w c s)
  | .vamoAdd d a b p w64 c => some (execVamoAdd d a b p w64 c s)
  | .vamoMin d a b p w64 c => some (execVamoMin d a b p w64 c s)
  | .vamoMax d a b p w64 c => some (execVamoMax d a b p w64 c s)
  | .vamoAnd d a b p w64 c => some (execVamoAnd d a b p w64 c s)
  | .vamoOr d a b p w64 c => some (execVamoOr d a b p w64 c s)
  | .vamoXor d a b p w64 c => some (execVamoXor d a b p w64 c s)
  | .vamoSwap d a b p w64 c => some (execVamoSwap d a b p w64 c s)
  | .mma f td ta tb lu => some (execMma f td ta tb lu s)
  | .mmasp f td ta b c => some (execMmasp f td ta b c s)
  | .mmats f td ta b c => some (execMmats f td ta b c s)
  | .mzero t => some (execMzero t s)
  | .mld t a b c h => some (execMld t a b c h s)
  | .mst t a b c h => some (execMst t a b c h s)
  | .mldsp t a b c h => some (execMldsp t a b c h s)
  | .mstsp t a b c h => some (execMstsp t a b c h s)
  | .mv2t t a b => some (execMv2t t a b s)
  | .mt2v t a b => some (execMt2v t a b s)
  | .mfree t => some (execMfree t s)
  | .mpref t => some (execMpref t s)
  | .mepi t a b c => some (execMepi t a b c s)
  | .msend t a b c => some (execMsend t a b c s)
  | .mattach => some (execMattach s)
  | .mdetach => some (execMdetach s)
  | .mmov ta tb lu => some (execMmov ta tb lu s)
  | .mtrans ta tb f lu => some (execMtrans ta tb f lu s)
  | _ => none

/-- Whether the instruction faults may depend on what an older queued one writes: its addresses come from a vector register, its
units from a predicate register, or it takes room in a strip. -/
def Hart.dataDecides (h : Hart) (i : Instr) : Bool :=
  match i with
  | .vldx .. | .vstx .. | .vamoAdd .. | .vamoMin .. | .vamoMax .. | .vamoAnd .. | .vamoOr .. | .vamoXor ..
  | .vamoSwap .. => true
  | .vld _ _ p _ _ | .vlds _ _ _ p _ _ | .vldff _ _ p _ _ | .vst _ _ p _ _ | .vsts _ _ _ p _ _ =>
    p != 0 || h.lent.isSome || h.inStrip
  | .mst .. => h.inStrip
  | _ => false

/-- A vector-queue store that an open strip buffers: it takes its place behind the scalar stores of the strip (R218, R219). -/
def Hart.entersStrip (h : Hart) (i : Instr) : Bool :=
  match i with
  | .vst .. | .vsts .. | .vstx .. | .mst .. => h.inStrip
  | _ => false

/-- The instruction reads memory in class 15 as it issues, after everything earlier (R183, R324). -/
def readsAtIssue (i : Instr) : Bool := match i with | .mepi .. => true | _ => false

/-- What an instruction has to find performed of the scalar stream before it runs or is queued. -/
def State.waitsForScalar (s : State) (i : Instr) : Bool :=
  !s.hart.late.isEmpty && (readsAtIssue i || s.hart.entersStrip i)

/-! ### What the scalar stream waits for (R86) -/

/-- The scalar registers a queued instruction has still to write: those of `pcnt` and `pfirst`. -/
def Queued.writes (q : Queued) : List XReg :=
  match q.i with
  | .pcnt d _ | .pfirst d _ => [d]
  | _ => []

/-- A queued instruction may still shorten `VL` (R216). -/
def Queued.writesVl (q : Queued) : Bool := match q.i with | .vldff .. => true | _ => false

/-- The scalar registers that an instruction of those that may go past queued ones, or that may be queued, reads or writes; every
register where the instruction is none of these. -/
def scalarRegs (i : Instr) : List XReg :=
  match i with
  | .add d a b | .sub d a b | .and d a b | .or d a b | .xor d a b | .sll d a b | .srl d a b | .sra d a b | .slt d a b _
  | .min d a b _ | .max d a b _ | .mul d a b | .mulh d a b _ | .div d a b _ | .rem d a b _ => [d, a, b]
  | .sel d a b c => [d, a, b, c]
  | .clz d a | .popc d a | .addi d a _ | .andi d a _ | .ori d a _ | .xori d a _ | .slti d a _ | .slli d a _ | .srli d a _
  | .srai d a _ | .ext d a _ _ _ | .ins d a _ _ | .jalr d a _ | .ld _ d a _ | .st _ d a _ | .lda d a _ _ => [d, a]
  | .lui d _ | .auipc d _ | .jal d _ | .csrr d _ | .vsetvli d _ _ => [d]
  | .beq a b _ | .bne a b _ | .blt a b _ | .bge a b _ | .bltN a b _ | .bgeN a b _ => [a, b]
  | .loop a _ => [a]
  | .csrw d a _ | .csrs d a _ | .csrc d a _ | .vsetvl d a _ => [d, a]
  | .phnew a c | .phdel a c | .phreg _ a c | .tkstat a c => [a, c]
  | .gmem a b c | .claim a b c | .object a b c | .rwait a b c | .rget _ a b c | .ramo _ a b c | .rldred _ a b c => [a, b, c]
  | .clwait c | .dlnend c => [c]
  | .dln a b => [a, b]
  | .mapsw a => [a]
  | .cas d a b _ _ | .amoAdd d a b _ _ | .amoAnd d a b _ _ | .amoOr d a b _ _ | .amoXor d a b _ _ | .amoMin d a b _ _
  | .amoMax d a b _ _ | .amoMinN d a b _ _ | .amoMaxN d a b _ _ | .amoSwap d a b _ _ => [d, a, b]
  | .cpy _ a b c | .cpy2d _ a b c | .cpyg _ a b c | .cpyts _ a b c | .qfill _ a b c => [a, b, c]
  | .pcnt d _ | .pfirst d _ => [d]
  | .vslideup _ _ b _ _ | .vslidedn _ _ b _ _ => [b]
  | .vbcast _ a _ _ | .vld _ a _ _ _ | .vldx _ a _ _ _ _ | .vldff _ a _ _ _ | .vst _ a _ _ _ | .vstx _ a _ _ _ _ => [a]
  | .vlds _ a b _ _ _ | .vldsp _ a b _ _ _ | .vsts _ a b _ _ _ | .vstsp _ a b _ _ _ => [a, b]
  | .vamoAdd _ a _ _ _ _ | .vamoMin _ a _ _ _ _ | .vamoMax _ a _ _ _ _ | .vamoAnd _ a _ _ _ _ | .vamoOr _ a _ _ _ _
  | .vamoXor _ a _ _ _ _ | .vamoSwap _ a _ _ _ _ => [a]
  | .mmasp _ _ _ b c | .mmats _ _ _ b c => [b, c]
  | .mld _ a b _ _ | .mst _ a b _ _ | .mldsp _ a b _ _ | .mstsp _ a b _ _ | .mepi _ a b _ | .msend _ a b _ => [a, b]
  | .mv2t _ _ b | .mt2v _ _ b => [b]
  | .vadd .. | .vsub .. | .vmul .. | .vmulh .. | .vand .. | .vor .. | .vxor .. | .vsll .. | .vsrl .. | .vsra .. | .vmin ..
  | .vmax .. | .vcmp .. | .vsel .. | .vred .. | .vfadd .. | .vfsub .. | .vfmul .. | .vfma .. | .vfnma .. | .vfdiv ..
  | .vfsqrt .. | .vfmin .. | .vfmax .. | .vfcmp .. | .vfclass .. | .vfred .. | .vtbl .. | .vcvt .. | .vfcvt .. | .vlnspack ..
  | .vlnsunpack .. | .vlnsmul .. | .vlnsadd .. | .vscale .. | .vperm .. | .vcompress .. | .vexpand .. | .vmv .. | .vidx ..
  | .pand .. | .por .. | .pxor .. | .pnot .. | .qld .. | .mma .. | .mzero .. | .mfree .. | .mpref .. | .mattach | .mdetach
  | .mmov .. | .mtrans .. | .loopi .. | .nop | .hint .. | .pfx .. | .fence .. | .fencesvSv | .fencesvVs | .fenceq ..
  | .spfence => []
  | _ => List.finRange 32

/-- The instruction reads or writes `VL`: all but the scalar words that leave it alone. -/
def usesVl (i : Instr) : Bool :=
  match i with
  | .vsetvl .. | .vsetvli .. | .csrw .. | .csrs .. | .csrc .. | .cpy .. | .cpy2d .. | .cpyg .. | .cpyts .. | .rput .. | .rget ..
  | .rldred .. => true
  | .csrr _ r => r == 0x000
  | _ => false

/-- An instruction waits for a result that a queued one has still to write, a scalar register or `VL` (R86). -/
def State.waitsForResult (s : State) (i : Instr) (queues : Bool) : Bool :=
  let regs := scalarRegs i ++ if s.hart.lentDk = 1 then [s.hart.lentDc] else []
  s.hart.vqueue.any fun q => (q.writesVl && (queues || usesVl i)) || regs.any fun r => r != 0 && q.writes.contains r

/-! ### Retiring (R86) -/

/-- A hart after a queued instruction: what its scalar stream has reached stays, but for what the instruction writes there. -/
def Hart.asBefore (h k : Hart) (q : Queued) : Hart :=
  { h with
    late := k.late, loaded := k.loaded, unitsDone := k.unitsDone, pc := k.pc
    x := q.writes.foldl (fun x r => x.set r.val (h.x.get r)) k.x
    vl := if q.writesVl then h.vl else k.vl, vstart := k.vstart, classmap := k.classmap, seed := k.seed, stripbase := k.stripbase
    rmode := k.rmode, lent := k.lent, loopT := k.loopT, loopK := k.loopK }

/-- The instruction in front has gone on from where it stood: its pc or its loop stack has changed. -/
def Hart.wentFrom (h k : Hart) : Bool := k.pc != h.pc || k.loops != h.loops

/-- What a queued word does: a fence drops lines as it leaves the queue (R184, R308), any other has its meaning. -/
def runQueued (i : Instr) (s : State) : Option Out :=
  match i with
  | .fence ack scope _ => some (.next (if fenceDrops ack scope then s.dropLines else s).retire)
  | i => runVector i s

/-- The state a queued instruction runs on: the elements it has performed take no part, and nothing younger has issued. -/
def State.atQueued (s : State) (q : Queued) : State :=
  { s.onHart (fun h => { h.asIssued q with vqueue := [], late := h.older }) with how := .without q.done q.taken }

/-- The oldest queued instruction has gone. -/
def Hart.aged (h : Hart) : Hart := { h with late := h.late.map Late.aged }

/-- The oldest queued instruction of the hart in front retires, whole; one that waits stays the oldest, with what it has performed,
and one that faults after all leaves nothing younger behind it, as `EPC` names it (R86). -/
def State.retireOldest (s : State) : Part State :=
  match s.hart.vqueue with
  | [] => .ok s
  | q :: r =>
    let s1 := s.atQueued q
    match runQueued q.i s1 with
    | some (.next t) =>
      let u := { t with how := s.how }
      if !(t.hart.bound && t.hart.level == s.hart.level) then .error u
      else if s1.hart.wentFrom t.hart then .ok (u.onHart fun h => { (h.asBefore s.hart q).aged with vqueue := r })
      else
        let left := { q with done := q.done ++ t.hart.unitsDone }
        .error (u.onHart fun h => { h.asBefore s.hart q with vqueue := left :: r })
    | _ => .ok (s.onHart fun h => { h.aged with vqueue := r })

/-- Up to `n` queued instructions retire, oldest first. -/
def State.retireQueue (s : State) (n : Nat) : Part State :=
  match n with
  | 0 => .ok s
  | n + 1 =>
    match s.retireOldest with
    | .ok t => t.retireQueue n
    | .error t => .error t

/-- Everything of the hart in front that has issued performs: its queued instructions retire and its late stores perform. -/
def State.settleAll (s : State) : Part State := (s.retireQueue s.hart.vqueue.length).bind State.drainLate

/-- The oldest queued instruction waits: the state after its turn is where it was. -/
def State.waitsOn (s t : State) : Bool :=
  t.hart.bound && t.hart.level == s.hart.level && t.hart.pc == s.hart.pc && t.hart.vqueue.length == s.hart.vqueue.length

/-- What a hart has left settles for a stop point, one thing at a turn; a queued instruction that waits is squashed. -/
def State.settleStop (s : State) : Out :=
  if s.hart.vqueue.isEmpty then finish s.drainLate
  else
    match s.retireOldest with
    | .ok t => .next t
    | .error t => .next (if s.waitsOn t then s.squash else t)

/-- What a hart has left settles for its pre-emption; a queued instruction that waits is squashed. -/
def State.settleLeave (s : State) (n : Nat) : Part State :=
  match n with
  | 0 => s.drainLate
  | n + 1 =>
    match s.retireOldest with
    | .ok t => t.settleLeave n
    | .error t => if s.waitsOn t then s.squash.drainLate else .error t

/-- The oldest queued instruction of a bound hart retires. -/
def State.retireTurn (s : State) : Out := if s.hart.bound then finish s.retireOldest else .next s

/-- The queued instruction at a `pc` with `ahead` older ones in the queue retires; only the oldest can (R86, R126, R266). -/
def execQueuedInstructionRetires (pc : Word) (ahead : Nat) (s : State) : Out :=
  if ahead = 0 ∧ (s.hart.vqueue.map (·.pc)).head? = some pc then s.retireTurn else .next s

/-! ### Some elements ahead of the rest (R86, R183) -/

/-- The elements of a queued instruction are accesses without an order among them: a vector load or store of memory, or a `vamo`
with `ord` = 0 (R183, R355, R365). -/
def Queued.unordered (q : Queued) : Bool :=
  match q.i with
  | .vld .. | .vlds .. | .vldx .. | .vldff .. | .vst .. | .vsts .. | .vstx .. => true
  | .vamoAdd .. | .vamoMin .. | .vamoMax .. | .vamoAnd .. | .vamoOr .. | .vamoXor .. | .vamoSwap .. =>
    match q.lent with | some b => !b.getLsbD 0 | none => true
  | _ => false

/-- The units a vector store has still to perform, with the address of each, and their length. -/
def State.unitsLeft (s : State) (i : Instr) : List (Nat × Nat) × Nat :=
  match i with
  | .vst _ a p w _ => (s.unitAddrs p w (s.unitStride a w), ewBytes w)
  | .vsts _ a b p w _ => (s.unitAddrs p w (s.strided a b), ewBytes w)
  | .vstx _ a b p w _ => (s.unitAddrs p w (s.indexed a b w), ewBytes w)
  | _ => ([], 0)

/-- Some elements may go ahead of the rest: no unit that stays behind, of lower index, has bytes in common with one of them, since
such units of a store perform in ascending index (R366). -/
def State.mayLead (s : State) (i : Instr) (es : List Nat) : Bool :=
  let us := s.unitsLeft i
  us.1.all fun u => !es.contains u.1 || us.1.all fun v =>
    es.contains v.1 || decide (u.1 < v.1) || !meets u.2 us.2 v.2 us.2

/-- What a queued instruction reads before it writes any unit: the indices of a `vldx` (R366). -/
def Queued.take (q : Queued) (h : Hart) : Queued :=
  match q.i with
  | .vldx _ _ b _ _ _ => if q.taken = [] then { q with taken := (h.getV b).getN 0 (h.lanes * 256) } else q
  | _ => q

/-- Some elements of the oldest queued vector access of the hart in front perform, ahead of the rest (R86, R183). -/
def State.turnElems (s : State) (es : List Nat) : State :=
  match s.hart.vqueue with
  | [] => s
  | q0 :: r =>
    let q := q0.take s.hart
    let s1 := s.atQueued q
    if !(s.hart.bound && q.unordered && s1.mayLead q.i es) then s
    else
      let stay := (List.range 8192).filter fun i => !es.contains i || q.done.contains i
      match runQueued q.i { s1 with how := .without stay q.taken } with
      | some (.next t) =>
        let u := { t with how := s.how }
        if !(t.hart.bound && t.hart.level == s.hart.level) then u
        else
          let now := if s1.hart.wentFrom t.hart then es else t.hart.unitsDone
          u.onHart fun h => { h.asBefore s.hart q with vqueue := { q with done := q.done ++ now } :: r }
      | _ => s

/-! ### Entering (R86) -/

/-- An instruction has retired without a stop, a trap or the end of the task: what the state after it shows. -/
def State.ranOn (s t : State) : Bool :=
  t.hart.bound && t.hart.pc == s.retire.hart.pc && s.hart.wentFrom t.hart && t.hart.vstart == 0 && t.hart.level == s.hart.level && t.hart.lent.isNone

/-- A `qld` takes its place at its delivery queue as it is queued, so that no other hart pops before it (R88, R344). -/
def State.takePlace (s : State) (i : Instr) : State :=
  match i with
  | .qld _ q _ w => s.reachQueue q ((s.hart.units w * ewBytes w + 127) / 128)
  | _ => s

/-- What a `mepi` takes at issue, its descriptor and biases, and the state with their accesses counted (R213, R324). -/
def State.takeAtIssue (s : State) (i : Instr) : List Byte × State :=
  match i with
  | .mepi _ a _ _ => match s.epiData (s.getX a) with | .ok r => r | .error _ => ([], s)
  | _ => ([], s)

/-- An instruction may not be queued now: the queue is full, it goes on from a stop, it waits for a result or for the scalar
stream, or it reads at issue what older queued ones come before (R86, R183, R324). -/
def State.mayNotEnter (s : State) (i : Instr) : Bool :=
  32 ≤ s.hart.vqueue.length || s.hart.vstart != 0 || s.hart.unitsDone != [] || s.waitsForResult i true || s.waitsForScalar i
    || (readsAtIssue i && !s.hart.vqueue.isEmpty)

/-- An instruction enters the vector queue and the scalar stream goes on, where it would retire once everything older has performed.
One that what is queued before it may make fault all the same is not sure (R86). -/
def State.enterQueue (s : State) (i : Instr) : Option State :=
  if s.mayNotEnter i then none
  else
    match s.settleAll with
    | .error _ => none
    | .ok u =>
      match runVector i u with
      | some (.next t) =>
        if u.ranOn t then
          let x := s.takeAtIssue i
          let sure := s.hart.vqueue.isEmpty || !s.hart.dataDecides i
          some ((x.2.takePlace i).pushQueue i x.1 sure).retire
        else none
      | _ => none

end Sys2Proof.Machine
end

