-- ==== Sys2Proof/Machine/Preempt.lean ====
section
/-! DEFINITION. Pre-emption: when a task may be pre-empted, how its hart stops, and what becomes of its context (R64, R192,
R201, R222 to R226, R269, R277, R378). -/

namespace Sys2Proof.Machine

/-! ### Pre-emption (R201, R222 to R226, R269, R378) -/

/-- Registers stream into the checkpoint area, a granule at a time. The area is consistent only once its sequence is incremented
(R226), so what `State.ckpts` holds, the consistent contents, does not change (log entry 12). -/
def execCheckpointStream (s : State) : Out := .next (if s.hart.bound then s.streamed else s)

/-- A waiting task of the cluster in front outranks a priority, and no hart is free for it (R201). -/
def State.outranked (s : State) (p : Nat) : Bool :=
  s.clusterWaiting.any fun w => decide (p < w.priority) && !s.freeFor w

/-- The ticks a task has held its hart let its class be pre-empted (R201). On an access hart the field is ignored (R192), so no
class holds a pre-emption back there (log entry 23). -/
def Hart.classYields (h : Hart) (now : Word) : Bool :=
  let held := (now - h.task.boundAt).toNat
  h.name.ah || (h.task.preempt = 3 || (h.task.preempt = 2 && 10000 ≤ held) || (h.task.preempt = 1 && 100000 ≤ held))

/-- The task may be pre-empted: its tenant stops, or no hart is free, a waiting task of the cluster outranks it, it has the
lowest priority there, and its class allows it (R201). -/
def State.mayPreempt (s : State) : Bool :=
  let k := s.hart.task
  (s.tenants.any fun t => t.id == k.tenant && t.q != .running)
    || (s.outranked k.priority && (s.clusterHarts.all fun h => !h.bound || k.priority ≤ h.task.priority)
      && s.hart.classYields s.cluster.refTick)

/-- A pre-emption request (R201, R224). -/
def execPreemptionRequest (s : State) : Out :=
  if s.hart.bound && !s.hart.stopping && s.mayPreempt then .next s.stopHart else .next s

/-- What stays of a context that leaves its hart: not its step (R269), and attachment as it was (R120). DESIGN CHOICE (log entry
45): a pre-emption between the halves of a prefix pair keeps the lent bits with the context and leaves `PFXSTATE` and PFXV as
they were, since R64 names a trap entry alone. -/
def Hart.saved (h : Hart) : Hart := { h with stopping := false, step := none, loaded := [] }

/-- The checkpoint is written and the bind record cleared (R224). The context waits ahead of every other of its priority (R201). -/
def State.preempted (s : State) : State :=
  let h := s.hart.saved
  ({ s with parked := h :: s.parked }.checkpoint h).onHart Hart.vacated

/-- Nothing of the hart in front still has to complete before a stop point: no remote answer, no woken wait, no bytes of an
`rget` (R345, R378), and no trap entry that meets it (R224). -/
def State.mayLeave (s : State) : Bool := s.hart.await.isNone && !s.woken && !s.getOut && s.attend == .idle

/-- What has issued and not performed does so, and the hart in front is pre-empted if its task still is (R86, R224). -/
def State.leaveHart (s : State) : State :=
  match s.settleLeave s.hart.vqueue.length with
  | .ok t => t.preempted
  | .error t => t

/-- Where a tenant is stopping, the Dirty tiles of its contexts that left their harts are spilled, and its stop may be over
(R277). -/
def State.settled (s : State) (tenant : Nat) : State :=
  if s.tenants.any fun t => t.id == tenant && t.q == .stopped then
    let mine := s.parked.filter fun h => h.task.tenant == tenant
    let s1 := mine.foldl (fun s h => s.spillCtxs h) s
    { s1 with parked := s1.parked.map fun (h : Hart) => if h.task.tenant = tenant then h.spilled else h }.stopOver tenant
  else s

/-- Pre-emption completes (R224). -/
def execPreemptionComplete (s : State) : Out :=
  if s.hart.bound && s.hart.stopping && s.mayLeave then .next (s.leaveHart.settled s.hart.task.tenant) else .next s

end Sys2Proof.Machine
end

