-- ==== Sys2Proof/Machine/Quiesce.lean ====
section
/-! DEFINITION. Quiesce, the device state image, restore, and the exit from retention (R145, R150, R161, R205, R275 to R285). -/

namespace Sys2Proof.Machine

/-! ### Tenants and harts -/

/-- The quiesce state of a tenant that has none yet: running, no image taken. -/
def Tenant.new (t : Nat) : Tenant :=
  { id := t, q := .running, stoppedAt := 0, stopper := ⟨0, 0, 0, false⟩, owed := none, images := 0, lastImage := 0 }

/-- The quiesce state of a tenant. -/
def State.tenant (s : State) (t : Nat) : Tenant := (s.tenants.find? fun x => x.id == t).getD (Tenant.new t)

/-- Replace the quiesce state of a tenant. -/
def State.putTenant (s : State) (t : Tenant) : State := { s with tenants := t :: s.tenants.filter fun x => x.id != t.id }

/-- The harts bound to tasks of a tenant. -/
def State.boundOf (s : State) (t : Nat) : List HartName :=
  ((s.hart :: s.others).filter fun h => h.bound && h.task.tenant == t).map (·.name)

/-! ### Stop (R277) -/

/-- The hart in front is pre-empted for a stop: at once, or when what it owes has completed (R224, R378). -/
def State.stopOne (s : State) : State :=
  let t := s.stopHart
  if t.mayLeave then t.leaveHart else t

/-- Every open claim of a tenant ends ABORTED, and its harts' open records receive abort objections (R262, R277). -/
def State.stopClaims (s : State) (t : Nat) : State :=
  let s1 := (s.claims.filter fun k => k.tenant == t).foldl (fun s k => s.endClaim k 5 none) s
  let objs := (s.records.filter fun r => r.prop.tenant == t && s.recOpen r).map fun (r : ClaimRec) =>
    Msg.objection r.prop { fid := s.fid, hartid := r.hartid } true
  { s1 with egress := s1.egress ++ objs }

/-- `QUIESCE` stop: the five steps, and the completion once the last ends (R276, R277, R279). -/
def execQuiesceStop (c : Cmd) (s : State) : Out :=
  s.command c fun s =>
    let t := s.tenant c.tenant
    if t.q ≠ .running then s.answer c 1
    else
      let s1 := s.putTenant { t with
        q := .stopped, stoppedAt := s.cluster.refTick, stopper := s.hart.name, owed := some c.seq }
      ((s1.atHarts (s1.boundOf c.tenant) State.stopOne).stopClaims c.tenant).settled c.tenant

/-! ### Seal (R278, R280 to R282) -/

/-- The pages a leaf covers, as 64 KiB leaves (R282). -/
def Leaf.split (l : Leaf) : List Leaf :=
  (List.range (levelFrames l.level)).map fun k =>
    { l with level := 3, va := l.va + k * 65536, pte := l.pte + BitVec.ofNat 64 (k * 65536) }

/-- The address spaces of a tenant: those its launches run in, and those it has mapped pages in. -/
def State.asidsOf (s : State) (t : Nat) : List Nat :=
  (((s.launches.filter fun l => l.tenant == t).filterMap fun l => s.asidOf l.record.ctxId)
    ++ (s.leaves.filter fun l => l.asid != 0 && l.tenants.contains t).map (·.asid)).dedup

/-- The bytes of a page, under keys from 0; none for a page that is not local (R282). -/
def State.pageData (s : State) (l : Leaf) : Bytes :=
  if pteMode l.pte = 0 then s.mem.slice (s.frameKey l l.va) 65536 else []

/-- Every page mapped in a tenant's address spaces, and those of the shared half that admit it: the leaves that admit the tenant, so
that no other's page is shown (R282, R287). -/
def State.pagesOfTenant (s : State) (t : Nat) : List PageImage :=
  ((s.leaves.filter fun l => l.tenants.contains t).flatMap Leaf.split).map fun l =>
    { ctx := s.ctxOf l.asid, leaf := { l with accesses := 0 }, data := s.pageData l, unmapped := false }

/-- Two page records name one page: an address of one context identifier, whatever ASID it has (R282, R284). -/
def PageImage.samePage (p q : PageImage) : Bool := p.ctx == q.ctx && p.leaf.va == q.leaf.va

/-- A page is as it was: its entry, but for the number of a local frame, and its bytes. -/
def PageImage.unchanged (p q : PageImage) : Bool :=
  let e := fun x : PageImage => if pteMode x.leaf.pte = 0 then setBits x.leaf.pte 16 24 0 else x.leaf.pte
  p.samePage q && e p == e q && p.data == q.data

/-- The pages an incremental image carries: those written or mapped since the base, whatever they hold now, those whose entry or
bytes differ, and those unmapped (R282). -/
def changedPages (base : Baseline) (now : List PageImage) : List PageImage :=
  (now.filter fun p => base.touched.contains (p.ctx, p.leaf.va / 65536) || !base.pages.any p.unchanged)
    ++ (base.pages.filter fun b => !now.any b.samePage).map fun (b : PageImage) =>
      { b with data := [], unmapped := true }

/-- What the image of a sequence that this package sealed for a tenant left behind: nothing where it sealed none. -/
def State.baselineOf (s : State) (t seq : Nat) : Baseline :=
  (s.baselines.find? fun b => b.tenant == t && b.seq == seq).getD { tenant := t, seq := seq, pages := [], touched := [] }

/-- The image of a tenant, in the order of its sections (R281). A full image has no base. -/
def State.imageOf (s : State) (t : Tenant) (incremental : Bool) (base : Nat) : Image :=
  let ls := s.launches.filter fun l => l.tenant == t.id
  let mine := fun i => ls.any fun l => l.id == i
  let ctxs := s.parked.filter fun h => h.task.tenant == t.id
  let q := s.queue.filter fun r => mine r.launch
  let cs := (s.cluster :: s.clusters).filter fun c => c.tenant == some t.id
  let whole := s.pagesOfTenant t.id
  { seq := t.images + 1, base := if incremental then base else 0, incremental := incremental, tenant := t.id
    capture := s.fid, map := s.logical, used := (ctxs.map (·.name.cluster) ++ q.map (·.cluster) ++ cs.map (·.num)).dedup
    launches := ls, queue := q, contexts := ctxs
    areas := ctxs.map fun h => s.mem.slice (s.areaKey h.task.ckpt) h.areaSize
    clusters := cs, phasers := s.phasers.filter fun p => mine p.launch
    carves := s.carves.filter fun v => v.tenant == t.id
    pages := if incremental then changedPages (s.baselineOf t.id base) whole else whole
    spaces := s.spaces.filter fun p => (s.asidsOf t.id).contains p.2 }

/-- Ingress closes: held puts of the tenant are discarded, and it is sealed (R278). -/
def State.closeIngress (s : State) (t : Tenant) : State :=
  let mine := fun h : Held => h.msg.tenant == t.id
  let s1 := { s with held := s.held.filter fun h => !mine h }
  ((s.held.filter mine).foldl (fun s h => s.discardPut h.msg) s1).putTenant { t with q := .sealed }

/-- A signed image is written to its destination (R278, R285). What it holds is kept, and every page with it, for the incremental
images that may follow. -/
def State.writeImage (s : State) (t : Tenant) (i : Image) (fid addr : Nat) : State :=
  let s1 := s.writeOutside fid addr (i.signedBytes i.signature)
  { s1 with
    images := i :: s1.images
    baselines := { tenant := t.id, seq := i.seq, pages := s.pagesOfTenant t.id, touched := [] } :: s1.baselines }

/-- `QUIESCE` seal: the image is written to its destination; where that is absent or refuses a transfer the tenant is sealed without
one (R276, R278, R279). -/
def execQuiesceSeal (c : Cmd) (incremental : Bool) (base : Nat) (addr : Word) (dest : SealDest) (s : State) : Out :=
  s.command c fun s =>
    let t := s.tenant c.tenant
    if t.q = .running || t.owed.isSome then s.answer c 1
    else
      let s1 := s.closeIngress t
      if dest.fid ≠ s.fid && (dest.refused || s.isAbsent dest.fid) then s1.answer c 2
      else
        ((s1.writeImage t (s1.imageOf t incremental base) dest.fid addr.toNat).putTenant
          { t with q := .sealed, images := t.images + 1 }).answer c 0

/-! ### Resume and discard (R278) -/

/-- The contexts that left a hart and could resume there. -/
def State.parkedAt (s : State) (t : Nat) (n : HartName) : List Hart :=
  s.parked.filter fun h => h.name == n && h.task.tenant == t

/-- The hart in front resumes a tenant's pre-empted context, the one of highest priority, if it is free for it and its pool holds
what the context's queues need; else the context waits for a bind (R203, R204). -/
def State.resumeHere (s : State) (t : Nat) : State :=
  match firstBest ((s.parkedAt t s.hart.name).map Waiting.again) with
  | some (.again h) =>
    if s.hart.bound || !s.usable || !s.partOk h.part.val || !s.poolHolds (s.again h h.task.eqMin h.task.eqCap) then s
    else s.enterAgain h h.task.eqMin h.task.eqCap
  | _ => s

/-- Rebind every pre-empted context of a tenant, those of higher priority first (R201). -/
def State.rebindAll (s : State) (t : Nat) : State :=
  let hs := sortBy (fun h : Hart => 255 - h.task.priority) (s.parked.filter fun h => h.task.tenant == t)
  s.atHarts (hs.map (·.name)).dedup fun s => s.resumeHere t

/-- `QUIESCE` resume (R276, R278, R279). -/
def execQuiesceResume (c : Cmd) (s : State) : Out :=
  s.command c fun s =>
    let t := s.tenant c.tenant
    if t.q = .running || t.owed.isSome then s.answer c 1
    else ((s.putTenant { t with q := .running }).rebindAll c.tenant).answer c 0

/-- Free and zero the cluster if it is a tenant's (R145, R150, R205). -/
def Cluster.freeFor (c : Cluster) (t : Nat) : Cluster := if c.tenant = some t then c.cleared none else c

/-- Everything of a tenant's launches but the launches themselves goes: contexts, the queue's records, phasers, carve-outs, units,
and what `rget`s would still write. The records of claims stay with their harts: a record closes only when its local window ends
(R258). -/
def State.clearTenant (s : State) (t : Nat) : State :=
  let mine := fun i => s.launches.any fun l => l.id == i && l.tenant == t
  { s with
    cluster := s.cluster.freeFor t, clusters := s.clusters.map fun c => c.freeFor t
    queue := refillAll (s.queue.filter fun r => !mine r.launch), parked := s.parked.filter fun h => h.task.tenant != t
    phasers := s.phasers.filter fun p => !mine p.launch
    gets := s.gets.map fun g => if g.tenant = t then { g with failed := true } else g
    carves := s.carves.filter fun v => v.tenant != t
    ckpts := s.ckpts.filter fun k => k.2.2.task.tenant != t }

/-- The launches of a tenant end. -/
def State.dropLaunches (s : State) (t : Nat) : State := { s with launches := s.launches.filter fun l => l.tenant != t }

/-- Each launch's completion, its unfinished tasks counted as terminated; one whose answer is owed fails for want of its
pages. -/
def State.postEnds (s : State) (t : Nat) : State :=
  (s.launches.filter fun l => l.tenant == t).foldl
    (fun s l =>
      match l.owed with
      | some c => s.post c (.status 2 0 0 0)
      | none => s.post 0 (.launchDone l.id l.record.ctxId l.exited (l.terminated + l.live)))
    s

/-- `QUIESCE` discard (R276, R278, R279). -/
def execQuiesceDiscard (c : Cmd) (s : State) : Out :=
  s.command c fun s =>
    let t := s.tenant c.tenant
    if t.q = .running || t.owed.isSome then s.answer c 1
    else ((((s.clearTenant c.tenant).postEnds c.tenant).dropLaunches c.tenant).putTenant { t with q := .running }).answer c 0

/-! ### Names of an image on this package (R105, R164, R284, R379) -/

/-- The image's launch identifiers, address spaces and the model's own names become new ones of this package. -/
structure Renaming where
  launches : List (Nat × Nat)
  serial : Nat
  asids : List (Nat × Nat)
  deriving DecidableEq, Repr

/-- What a table of pairs makes of a number: itself where it is not listed. -/
def renamed (xs : List (Nat × Nat)) (n : Nat) : Nat := ((xs.find? fun p => p.1 == n).map (·.2)).getD n

/-- The new ASID of an address space; the shared half stays. -/
def Renaming.asid (r : Renaming) (a : Nat) : Nat := renamed r.asids a

/-- The operations of a window whose answers were out at the seal complete with `PEER_ABSENT`: no answer reaches the restored window
(log entry 30). -/
def Window.closed (w : Window) : Window := (w.ops.filter (!·.done)).foldl (fun v o => v.complete o.ticket 2) w

/-- A launch under its new names. It keeps its lease identifier (log entry 30). -/
def Renaming.onLaunch (r : Renaming) (l : Launch) : Launch :=
  { l with id := renamed r.launches l.id, asid := r.asid l.asid, windows := l.windows.map Window.closed }

/-- A copy under its new names. -/
def Renaming.onCopy (r : Renaming) (e : CopyEntry) : CopyEntry :=
  { e with
    id := e.id + r.serial
    work := match e.work with | .fill src q slot => .fill src q (slot + r.serial) | w => w }

/-- A context under its new names, with its new checkpoint area. -/
def Renaming.onHart (r : Renaming) (h : Hart) (area : Word) : Hart :=
  { h with
    copies := h.copies.map r.onCopy, began := h.began.map (· + r.serial), tokens := h.tokens.map fun k => { k with put := 0 }
    task := { h.task with
      serial := h.task.serial + r.serial, launch := renamed r.launches h.task.launch, asid := r.asid h.task.asid
      ckpt := area } }

/-- A record of a partition under its new names. -/
def Renaming.onTask (r : Renaming) (t : TaskRec) : TaskRec :=
  { t with id := t.id + r.serial, launch := renamed r.launches t.launch }

/-- A cluster's contents under the new names; what belongs to the physical cluster is that of the cluster here. -/
def Renaming.onCluster (r : Renaming) (i here : Cluster) : Cluster :=
  { here with
    tenant := i.tenant, sp := i.sp, tables := i.tables, qmin := i.qmin, qcap := i.qcap, operands := []
    poppers := Vector.replicate 16 [], stallers := Vector.replicate 6 []
    queues := i.queues.map fun q => q.map fun d => { d with id := d.id + r.serial, owner := d.owner + r.serial } }

/-- A phaser under its new names. -/
def Renaming.onPhaser (r : Renaming) (p : Phaser) : Phaser := { p with launch := renamed r.launches p.launch }

/-- Unused ASIDs from 1, as many as asked for where there are as many (R164). -/
def State.newAsids (s : State) (n : Nat) : List Nat :=
  (((List.range (min (s.spaces.length + n) 65535)).map (· + 1)).filter fun a => s.spaces.all fun p => p.2 != a).take n

/-- The ASID with which an address space of an image goes on: that of the chain it belongs to, if any (R283). -/
def State.keptAsid (s : State) (i : Image) (a : Nat) : Option Nat :=
  if i.incremental then (i.spaces.find? fun p => p.2 == a).bind fun p => s.asidOf p.1 else none

/-- The address spaces of an image that take a new ASID (R284). -/
def State.freshSpaces (s : State) (i : Image) : List Nat := ((i.spaces.map (·.2)).dedup).filter fun a => (s.keptAsid i a).isNone

/-- No ASID is left for an address space of an image. -/
def State.asidsShort (s : State) (i : Image) : Bool := (s.newAsids (s.freshSpaces i).length).length < (s.freshSpaces i).length

/-- Unused launch identifiers, as many as asked for (R379). -/
def State.newLaunchIds (s : State) (n : Nat) : List Nat :=
  let busy := fun k => (s.launches.any fun l => l.id == k) || s.replayable.any fun c => c.body.names k
  (((List.range (s.launches.length + s.replayable.length + n)).map (· + 1)).filter fun k => !busy k).take n

/-- The names an image takes on this package: new ones, but for the address spaces of a chain. -/
def State.namesFor (s : State) (i : Image) : Renaming :=
  let ls := i.launches.map fun (l : Launch) => l.id
  { launches := ls.zip (s.newLaunchIds ls.length), serial := s.nextName
    asids := (((i.spaces.map (·.2)).dedup).filterMap fun a => (s.keptAsid i a).map fun b => (a, b))
      ++ (s.freshSpaces i).zip (s.newAsids (s.freshSpaces i).length) }

/-! ### What an image replaces (R283, R284) -/

/-- A leaf without one tenant's admission; none where no tenant is left. -/
def Leaf.without (l : Leaf) (t : Nat) : Option Leaf :=
  let left := l.tenants.filter (· != t)
  if left = [] then none else some { l with tenants := left }

/-- A private address space holds something of another tenant: a page, or a launch (R287). -/
def State.foreignSpace (s : State) (t asid : Nat) : Bool :=
  (s.leaves.any fun l => l.asid == asid && l.tenants.any (· != t)) || s.launches.any fun l => l.asid == asid && l.tenant != t

/-- The tenant's pages go, with its address spaces where no other tenant has anything, and the shared half admits it no more; no
cached line of theirs stays. -/
def State.dropPages (s : State) (t : Nat) : State :=
  let as := s.asidsOf t
  State.keepLines { s with
    leaves := s.leaves.filterMap fun l => if l.tenants.contains t then l.without t else some l
    spaces := s.spaces.filter fun p => !as.contains p.2 || s.foreignSpace t p.2 }

/-- The package without what the image replaces: everything of its tenant, but for the pages a chain goes on with. -/
def State.cleared (s : State) (i : Image) : State :=
  let s0 := if i.incremental then s else s.dropPages i.tenant
  (s0.clearTenant i.tenant).dropLaunches i.tenant

/-! ### Pages (R165, R282, R284) -/

/-- The page of an address becomes a 64 KiB leaf of its own, where a larger leaf maps it. -/
def State.splitAt (s : State) (asid va : Nat) : State :=
  match s.leaves.find? fun l => l.maps asid va with
  | some l => if l.level = 3 then s else { s with leaves := s.leaves.flatMap fun k => if k = l then k.split else [k] }
  | none => s

/-- An image puts a page of its own in the place of a leaf. -/
def Image.replaces (i : Image) (r : Renaming) (l : Leaf) : Bool :=
  l.level == 3 && i.pages.any fun p => r.asid p.leaf.asid == l.asid && p.leaf.va == l.va

/-- Two leaves are of one kind: mode, skew and promotion hint. -/
def sameKind (e f : Word) : Bool := pteMode e == pteMode f && pteSkew e == pteSkew f && ptePromo e == ptePromo f

/-- A leaf that admits other tenants serves a page of an image as it is: the leaf already admitted the image's tenant, in the state
`old` before the restore, and nothing of it would change; or it is the page's entry in every bit, as for `MAP` (R287, R377). -/
def State.servesPage (s old : State) (l : Leaf) (t : Nat) (p : PageImage) : Bool :=
  if pteMode p.leaf.pte = 0 then
    sameKind l.pte p.leaf.pte && s.pageData { l with level := 3 } == p.data
      && (old.leaves.any fun k => k.maps l.asid l.va && k.tenants.contains t)
  else l.pte == p.leaf.pte

/-- A page of an image cannot go where it stands in the image: a leaf there serves other tenants and does not serve it, or its frame
is mapped at another address (R165, R287). `s` is the package without what the image replaces, `old` as it was. -/
def State.pageClash (s old : State) (i : Image) (r : Renaming) (p : PageImage) : Bool :=
  let a := r.asid p.leaf.asid
  let e := p.leaf.pte
  !p.unmapped
    && ((match (s.splitAt a p.leaf.va).leafAt a p.leaf.va with
        | some l => l.tenants.any (· != i.tenant) && !s.servesPage old l i.tenant p
        | none => false)
      || (pteMode e != 0
        && s.leaves.any fun l =>
          !i.replaces r l && !(l.asid == a && l.va == p.leaf.va) && s.leafHasFrame l (s.entryFid e) (ptePfn e) 1))

/-- Put a page of an image behind a leaf, with its bytes where it is local. -/
def State.fillPage (s : State) (l : Leaf) (p : PageImage) : State :=
  if pteMode l.pte = 0 then { s with mem := s.mem.place (s.frameKey l l.va) 65536 p.data } else s

/-- Install one page of an image at its virtual address, a local page in a new frame; a page that other tenants share stays as it is
and admits the tenant (R284, R377). -/
def State.installPage (s0 : State) (asid t frame : Nat) (p : PageImage) : State :=
  let s := s0.splitAt asid p.leaf.va
  let e := if pteMode p.leaf.pte = 0 then localEntry frame (pteSkew p.leaf.pte) (ptePromo p.leaf.pte) else p.leaf.pte
  let change := fun (l : Leaf) (k : Option Leaf) =>
    { s with leaves := s.leaves.filterMap fun x => if x = l then k else some x }.touch asid p.leaf.va 1
  match s.leaves.find? fun l => l.asid == asid && l.va == p.leaf.va with
  | some l =>
    if p.unmapped then change l (l.without t)
    else if l.tenants.any (· != t) then
      change l (some { l with tenants := if l.tenants.contains t then l.tenants else l.tenants ++ [t] })
    else
      let k := { l with pte := e, tenants := [t], accesses := 0 }
      (change l (some k)).fillPage k p
  | none =>
    if p.unmapped then s
    else
      let k : Leaf := { asid := asid, level := 3, va := p.leaf.va, pte := e, tenants := [t], accesses := 0 }
      ({ s with leaves := s.leaves ++ [k] }.touch asid p.leaf.va 1).fillPage k p

/-- The `k`-th frame above a base that lies in a frame group. -/
def groupFrame (base k : Nat) : Nat := base + k / 31 * 32 + k % 31

/-- The local frames that an image's own pages of modes 1 to 3 name, when their peer is this package (R165). -/
def State.namedFrames (s : State) (i : Image) : List Nat :=
  (i.pages.filter fun p => !p.unmapped && pteMode p.leaf.pte != 0 && ptePeer p.leaf.pte == s.fid).map fun p => ptePfn p.leaf.pte

/-- The start of free local frames that hold `n` frames in frame groups, the given checkpoint areas and frames apart: the end of a
range in use, or 0 (R165, R170, R284). -/
def State.frameBase (s : State) (areas : List Word) (named : List Nat) (n : Nat) : Option Nat :=
  let mapped := (s.leaves.filter fun l => s.leafFid l == s.fid).map fun l => ptePfn l.pte + levelFrames l.level
  let held := ((s.hart :: s.others ++ s.parked).filter (·.bound)).map fun h => h.task.ckpt.toNat % 2 ^ 40
  let ends := 0 :: mapped ++ named.map (· + 1) ++ (held ++ areas.map BitVec.toNat).map fun a => (a + 2 ^ 20) / 2 ^ 16 + 1
  (ends.map fun e => (e + 31) / 32 * 32).find? fun b =>
    s.framesFree b (groupFrame 0 n) && (named.all fun f => f < b || b + groupFrame 0 n ≤ f)
      && areas.all fun a => !meets a.toNat (2 ^ 20) (b * 2 ^ 16) (groupFrame 0 n * 2 ^ 16)

/-- Install the pages of an image. -/
def State.installPages (s : State) (r : Renaming) (i : Image) (areas : List Word) : State :=
  let base := (s.frameBase areas (s.namedFrames i) i.pages.length).getD 0
  (i.pages.zipIdx.foldl (fun s x => s.installPage (r.asid x.1.leaf.asid) i.tenant (groupFrame base x.2) x.1) s).keepLines

/-! ### The physical clusters (R21, R101, R268) -/

/-- Where the reference counter and the governor of a physical cluster are held: at its logical number, or at 192 more than its
physical one while it has none. -/
def clusterPlace (m : List Nat) (p : Nat) : Nat :=
  match (List.range 192).find? fun n => m.getD n 255 == p with
  | some n => n
  | none => 192 + p

/-- The work units of harts since their governor's latest decision, at their places under a new map: they are counted in the
physical cluster (R270). -/
def State.movedUnits (s : State) (m : List Nat) : List (HartName × Nat) :=
  let phys := fun n : HartName => if n.cluster < 192 then s.logical.getD n.cluster 255 else n.cluster - 192
  ((s.hart :: s.others).filter fun h => h.retired ≠ 0 && phys h.name != 255).map fun h =>
    ({ h.name with cluster := clusterPlace m (phys h.name) }, h.retired)

/-- The harts with some work units, those not listed with none. -/
def State.withUnits (s : State) (us : List (HartName × Nat)) : State :=
  let units := fun h : Hart => { h with retired := ((us.find? fun u => u.1 == h.name).map (·.2)).getD 0 }
  let new := us.filter fun u => !(s.hart :: s.others).any fun h => h.name == u.1
  { s with
    hart := units s.hart, others := s.others.map units ++ new.map fun u => { Hart.reset u.1 with retired := u.2 } }

/-- A new map of logical clusters: each physical cluster keeps its counter, its governor and its harts' work units, and the engines
are assigned anew. -/
def State.remapped (s : State) (m : List Nat) : State :=
  let moves := (List.range 192).filterMap fun p =>
    if clusterPlace m p = clusterPlace s.logical p then none else some (clusterPlace m p, s.clusterAt (clusterPlace s.logical p))
  { (moves.foldl (fun t x => t.onClusterAt x.1 fun c => { c with refTick := x.2.refTick, gov := x.2.gov }) s).withUnits
      (s.movedUnits m) with
    logical := m, engines := enginesOf m }

/-! ### The checks of a restore (R279, R283 to R285) -/

/-- What another tenant holds that the image needs: a way, a phaser index, a cluster, a lease identifier, a context identifier's
address space, or the place of a page (R164, R279, R287; log entry 56). -/
def State.unitsTaken (s : State) (i : Image) : Bool :=
  (i.carves.any fun v =>
      s.carves.any (fun w => w.tenant != i.tenant && bits w.handle.toNat 25 24 == bits v.handle.toNat 25 24
        && w.ways.any v.ways.contains)
      || v.ways.any (s.badWaysOf (bits v.handle.toNat 25 24)).contains)
    || (i.phasers.any fun p =>
      s.phasers.any fun q =>
        bits q.handle.toNat 13 0 == bits p.handle.toNat 13 0
          && !s.launches.any fun l => l.id == q.launch && l.tenant == i.tenant)
    || (i.used.any fun n => match (s.clusterAt n).tenant with | some t => t != i.tenant | none => false)
    || (i.launches.any fun l => s.launches.any fun k => k.tenant != i.tenant && k.lease == l.lease)
    || (i.spaces.any fun p => (s.asidOf p.1).any (s.foreignSpace i.tenant))
    || i.pages.any fun p => (s.cleared i).pageClash s i (s.namesFor i) p

/-- No ASID, or no run of free frames, is left for an image (R164, R284; log entry 56). -/
def State.unitsShort (s : State) (i : Image) (areas : List Word) : Bool :=
  s.asidsShort i || ((s.cleared i).frameBase areas (s.namedFrames i) i.pages.length).isNone

/-- The good physical clusters. -/
def State.goodClusters (s : State) : List Nat := powerUpMap s.selfTest

/-- The clusters another tenant holds keep their place. -/
def State.mapKeeps (s : State) (t : Nat) (m : List Nat) : Bool :=
  (s.cluster :: s.clusters).all fun c =>
    match c.tenant with
    | some o => o == t || m[c.num]? == s.logical[c.num]?
    | none => true

/-- A map a restore may build: distinct good physical clusters, one for each the image uses (R21, R284). -/
def State.mapOk (s : State) (i : Image) (m : List Nat) : Bool :=
  let ps := m.filter (· != 255)
  ps.Nodup && ps.all s.goodClusters.contains && m.length ≤ 192 && (i.used.all fun n => m.getD n 255 != 255)
    && s.mapKeeps i.tenant m

/-- The checkpoint areas obsidian gives the contexts are free, and none meets another (R200, R226). -/
def State.areasOk (s : State) (i : Image) (areas : List Word) : Bool :=
  let xs := i.contexts.zip areas
  let t := s.cleared i
  areas.length = i.contexts.length && (xs.all fun x => t.areaFree x.2 x.1.areaSize)
    && xs.Pairwise fun x y => meets x.2.toNat x.1.areaSize y.2.toNat y.1.areaSize = false

/-- The `n` bytes at byte `off` of an image at an endpoint. -/
def State.imageRd (s : State) (fid addr off n : Nat) : List Byte := s.outsideN fid (addr + off) n

/-- The signature part of an image is accepted: a device key that the configuration image lists as trusted for the tenant signed the
image (R285). -/
def State.signerOk (s : State) (tenant : Nat) (sig : List Byte) : Bool :=
  s.trusted.contains (tenant, sig.take 64) && Config.mlDsaVerify (sig.take 64) ((sig.drop 64).take 64) ((sig.drop 128).take 4627)

/-- What obsidian finds of the bytes of an image: the content, or the status of R279. Bytes in order whose content the machine does
not know are answered with `R_DIGEST` (log entry 30). -/
def State.readImage (s : State) (tenant fid addr : Nat) : Except Nat Image :=
  let rd := s.imageRd fid addr
  match dsiSections rd with
  | none => .error 4
  | some hs =>
    let off := ((hs.getLast?).map DsiHead.start).getD 0
    let sig := rd (off + 96) sofSigSize
    if field (rd 0 64) 20 4 ≠ tenant || !s.signerOk tenant sig then .error 3
    else if (sig.drop 64).take 64 ≠ sha3 (rd 0 off) then .error 4
    else
      match s.images.find? fun i => i.tenant == tenant && i.body == rd 0 off with
      | some i => .ok i
      | none => .error 4

/-- The statuses of a restore that rest on its content (R279). A package that accepts no launch has too few units (R19, R20). -/
def State.contentStatus (s : State) (c : Cmd) (r : RestoreChoice) (i : Image) : Nat :=
  if !s.usable || s.goodClusters.length < i.used.length || r.fidTaken || s.unitsTaken i || s.unitsShort i r.areas then 5
  else if i.incremental && ((s.tenant c.tenant).lastImage = 0 || i.base ≠ (s.tenant c.tenant).lastImage) then 6
  else 0

/-- The content of an image, or the status of the restore: the first of R279 that applies, in the order of its codes. -/
def State.restoreStatus (s : State) (c : Cmd) (fid addr : Nat) (r : RestoreChoice) : Except Nat Image :=
  if (s.launches.any fun l => l.tenant == c.tenant) && (s.tenant c.tenant).q ≠ .sealed then .error 1
  else if fid ≠ s.fid && (r.refused || s.isAbsent fid) then .error 2
  else
    match s.readImage c.tenant fid addr with
    | .error st => .error st
    | .ok i => if s.contentStatus c r i = 0 then .ok i else .error (s.contentStatus c r i)

/-! ### Restore (R283, R284) -/

/-- Every name of the model's own that an image holds is below this. -/
def Image.names (i : Image) : Nat :=
  ((i.contexts.map (·.task.serial)) ++ (i.contexts.flatMap fun h => h.copies.map (·.id) ++ h.began.toList) ++ i.queue.map (·.id)
    ++ i.clusters.flatMap fun c => c.queues.toList.flatMap fun q => q.map (·.id)).foldl max 0 + 1

/-- The records of an image enter their partitions in their order: those that were spilled stay so, others spill where 256 stand on
chip, and each partition refills (R198). -/
def State.enqueueAll (s : State) (rs : List TaskRec) : State :=
  let t := rs.foldl (fun s r => if r.spilled then { s with queue := s.queue ++ [r] } else s.enqueueTask r) s
  { t with queue := refillAll t.queue }

/-- Rebuild a tenant from an image (R284). Its contexts come with their checkpoint areas, which stand at their new addresses. -/
def State.rebuild (s : State) (i : Image) (m : List Nat) (areas : List Word) : State :=
  let r := s.namesFor i
  let s2 := ((s.cleared i).installPages r i areas).remapped m
  let s3 := (i.clusters.foldl (fun s k => s.onClusterAt k.num (r.onCluster k)) s2).enqueueAll (i.queue.map r.onTask)
  let cs := (i.contexts.zip areas).map fun x => r.onHart x.1 x.2
  { s3 with
    launches := s3.launches ++ i.launches.map r.onLaunch, parked := s3.parked ++ cs
    ckpts := (cs.zip i.areas).map (fun x => (x.1.task.ckpt, x.2.val 8 8, x.1)) ++ s3.ckpts
    mem := (cs.zip i.areas).foldl (fun m x => m.place (s3.areaKey x.1.task.ckpt) x.1.areaSize x.2) s3.mem
    phasers := s3.phasers ++ i.phasers.map r.onPhaser
    phGens := (i.phasers.map fun p => (bits p.handle.toNat 13 0, bits p.handle.toNat 31 14)) ++ s3.phGens
    carves := s3.carves ++ i.carves
    spaces := (i.spaces.map fun p => (p.1, r.asid p.2)) ++ s3.spaces.filter fun p => !i.spaces.any fun q => q.1 == p.1
    nextName := s3.nextName + i.names }

/-- Obsidian reads an image at another endpoint by UALink reads: its header goes first (R379). -/
def State.askImage (s : State) (fid : Nat) (addr : Word) : State :=
  if fid = s.fid then s else s.send (.ualinkRead fid addr.toNat 64)

/-- `RESTORE`: the checks, then the state; tasks start after the final image of a chain (R283, R284). A map or areas that obsidian
could not choose leave the command unserved. -/
def execRestore (c : Cmd) (addr : Word) (fid : Nat) (final : Bool) (r : RestoreChoice) (s : State) : Out :=
  match s.restoreStatus c fid addr.toNat r with
  | .error st => s.command c fun s => (s.askImage fid addr).answer c st
  | .ok i =>
    if !s.mapOk i r.map || !s.areasOk i r.areas then .next s
    else
      s.command c fun s =>
        let q : QState := if final then .running else .sealed
        let s1 := ((s.askImage fid addr).rebuild i r.map r.areas).putTenant
          { s.tenant c.tenant with q := q, lastImage := i.seq, owed := none }
        (if final then s1.rebindAll c.tenant else s1).answer c 0

/-! ### Retention (R275) -/

/-- What a tile is when its context comes back from a checkpoint area, which holds the masks of Undefined tiles and no tile
(R226). -/
def Tile.fromArea (t : Tile) : Tile := match t with | .undefined => .undefined | _ => .absent

/-- A context from its checkpoint area: what the area does not hold stays with the hart (R226, R281). -/
def Hart.fromCheckpoint (h k : Hart) : Hart :=
  { k with
    task := h.task, tokens := h.tokens, tokPtr := h.tokPtr, tokOrder := h.tokOrder, clstat := h.clstat, clwin := h.clwin
    tkexp := h.tkexp, expiries := h.expiries, await := none, phWoke := none, vqueue := [], late := [], transfers := []
    retired := h.retired, loopK := [], ctxs := k.ctxs.map fun (c : TileCtx) => { c with tiles := c.tiles.map Tile.fromArea } }

/-- The task of the hart in front is restored from its own last checkpoint, or ends with `RETLOST`, whose `TVAL` is open (R214,
R275, log entry 7). One whose copies its pool cannot take back now leaves its hart and waits for a bind (R203, R204; log entry
52). -/
def State.retained (s : State) (restored : Bool) : State :=
  match s.ckptAt s.hart.task.ckpt with
  | some c =>
    if restored && c.2.2.task.serial == s.hart.task.serial then
      let t := s.abandon
      let h := t.hart.fromCheckpoint c.2.2
      if s.poolHolds h then t.onHart fun _ => h.resumed
      else { t with parked := h.saved :: t.parked }.onHart Hart.vacated
    else s.takeTval.2.terminateAtStop 0x22 s.takeTval.1 0 0
  | none => s.takeTval.2.terminateAtStop 0x22 s.takeTval.1 0 0

/-- The cluster in front leaves retention; a loss reaches every task bound there, of which obsidian's policy restores those on the
harts named (R275). -/
def execRetentionExit (lost : Bool) (restored : List HartName) (s : State) : Out :=
  if lost then
    .next (s.atHarts ((s.clusterHarts.filter (·.bound)).map (·.name)) fun s => s.retained (restored.contains s.hart.name))
  else .next s

end Sys2Proof.Machine
end

