-- ==== Sys2Proof/Machine/Remote.lean ====
section
/-! DEFINITION. The REMOTE words (R231 to R243, R248, R345, R352). -/

namespace Sys2Proof.Machine

/-- The checks every REMOTE word begins with (R345). -/
def State.remoteChecks (s : State) (i : Instr) : Part Unit := do
  s.computeOnly i
  s.noStrip

/-! ### `rput` (R235 to R237) -/

/-- The tokens a put carries: those of xc and of a lent xt that name a busy slot (R235, R236). -/
def State.carriedTokens (s : State) (c : XReg) : List (BitVec 16) :=
  let extra := match s.hart.lentXt with | some x => [(s.getX x).setWidth 16] | none => []
  (((s.getX c).setWidth 16 :: extra).filter s.hart.tokBusy).dedup

/-- A token's slot is in a state. -/
def Hart.tokIs (h : Hart) (st : TokSt) (t : BitVec 16) : Bool :=
  h.tokBusy t && (h.tokens.get (tokSlotOf t)).st == st

/-- The put enters the order of its window. One that carries an expired token expires at once and never leaves (R238,
R248); one whose carried tokens are all accepted is sent, or fails where its peer is absent; another waits. -/
def State.issuePut (s : State) (w : Word) (data : List Byte) (carried : List (BitVec 16)) (tok : BitVec 16)
    (slot : Fin 64) : State :=
  let l := s.hart.task.launch
  let win := rawWin w
  if carried.any (s.hart.tokIs .expired) then
    (s.onHart fun h => { h with tokens := h.tokens.set slot.val { h.tokens.get slot with st := .expired } }).failOp l win 0
  else
    let o := s.openOp l win
    let m : PutMsg :=
      { src := { party := s.party, token := tok, serial := o.1 }, peer := rawPeer w, tenant := s.hart.task.tenant,
        job := s.hart.task.job, win := win, off := rawOff w, data := data, carried := carried.map s.tokName, waits := [] }
    let p : PutRec :=
      { tok := m.src, owner := s.hart.task.serial, launch := l, win := win, ticket := o.1, peer := rawPeer w, msg := m,
        due := s.cluster.refTick + s.hart.tkexp, cluster := s.hart.name.cluster,
        needs := (carried.filter (s.hart.tokIs .pending)).map fun t => (s.tokName t).serial, sent := false, accepted := false, failed := false,
        expired := false, watchers := [] }
    let t := { o.2 with puts := o.2.puts ++ [p] }
    if p.needs = [] then t.sendPut p else t

/-- `rput` (R235). The lease check of the source comes before the window's, as R345 lists it. A hart with no slot to take waits,
having done nothing (R345). -/
def execRput (cl : Slot) (a b c : XReg) (s : State) : Out := finish do
  s.remoteChecks (.rput cl a b c)
  let n := s.hart.copyBytes
  let va := (s.getX b).toNat
  let w := s.getX a
  s.checkRead va n
  if n = 0 || (s.ownWindow w).isNone then return (s.setX c 0).retire
  match s.hart.pickSlot with
  | none => .error s
  | some k =>
    let x ← s.load va n
    let carried := s.carriedTokens c
    let r := s.hart.takeSlot k s.nextName
    let t := (x.2.onHart fun _ => r.2).issuePut w x.1 (carried.filter fun t => tokSlotOf t != k) r.1 k
    return (t.setX c (r.1.setWidth 64)).retire

/-! ### `rget`, `ramo` and `rldred` (R240 to R242) -/

/-- A request of the hart to a window of a peer. -/
def State.request1 (s : State) (peer win off : Nat) (k : ReqKind) : RemoteReq :=
  { src := s.party, peer := peer, tenant := s.hart.task.tenant, job := s.hart.task.job, win := win, off := off, kind := k }

/-- `rget` (R240). -/
def execRget (cl : Slot) (a b c : XReg) (s : State) : Out := finish do
  s.remoteChecks (.rget cl a b c)
  let n := s.hart.copyBytes
  let w := s.getX a
  let win := rawWin w
  s.checkWrite (s.getX b).toNat n
  match s.ownWindow w with
  | none => return (s.setXL c 0).retire
  | some v =>
    if n = 0 then return (s.setXL c (v.out.setWidth 64)).retire
    let after := v.out + BitVec.ofNat 32 (v.ops.length + 1)
    let t := s.setXL c (after.setWidth 64)
    let l := s.hart.task.launch
    if s.isAbsent (rawPeer w) then return (t.failOp l win 2).retire
    let o := t.openOp l win
    let g : GetRec :=
      { owner := s.hart.task.serial, ticket := o.1, launch := l, win := win, asid := s.hart.task.asid, tenant := s.hart.task.tenant,
        peer := rawPeer w, dst := s.getX b, len := n, failed := false }
    let t1 := { o.2 with gets := o.2.gets ++ [g] }
    return (t1.send (.request o.1 (s.request1 (rawPeer w) win (rawOff w) (.get n)))).retire

/-- The operation of a code of R71. -/
def amoCode (n : Nat) : Option AmoOp :=
  [AmoOp.add, .and, .or, .xor, .min, .max, .minN, .maxN, .swap][n - 8]?.filter fun _ => 8 ≤ n

/-- `ramo` (R241): the hart waits for the answer (R345). -/
def execRamo (cl : Slot) (a b c : XReg) (s : State) : Out := finish do
  s.remoteChecks (.ramo cl a b c)
  let w := s.getX a
  let win := rawWin w
  let cw := (s.getX c).toNat
  let l := s.hart.task.launch
  let w64 := bitOf cw 5
  let done := s.setXL c 0
  match s.ownWindow w, amoCode (bits cw 4 0) with
  | none, _ => return done.retire
  | some _, none => return (done.failOp l win 7).retire
  | some _, some op =>
    if bits cw 63 6 ≠ 0 then return (done.failOp l win 7).retire
    if rawOff w % (if w64 then 8 else 4) ≠ 0 then return (done.failOp l win 6).retire
    if s.isAbsent (rawPeer w) then return (done.failOp l win 2).retire
    let o := s.openOp l win
    let v := if w64 then s.getX b else (s.getX b) &&& 0xFFFFFFFF
    let dc := if s.hart.lentDk = 1 then some s.hart.lentDc else none
    let t := o.2.onHart fun h => { h with await := some (.ramo c dc w64 l win o.1 (rawPeer w)) }
    return t.send (.request o.1 (s.request1 (rawPeer w) win (rawOff w) (.atomic op w64 v)))

/-- The control word and the group word of `rldred` are well-formed (R242). -/
def ldredOk (cw : Nat) (w : Word) : Bool :=
  let et := bits cw 2 0
  (et == 0 || et == 1 || et == 4 || et == 7) && bits cw 5 3 ≤ 2 && bits cw 63 6 = 0 && bits w.toNat 9 8 = 0

/-- The bytes of a member's element of `rldred`. -/
def ldredBytes (et : Nat) : Nat := if et = 1 then 2 else 4

/-- `rldred` writes zeros for every element, with a status word. -/
def State.ldredZero (s : State) (dst n : Nat) (c : XReg) (status : Nat) : Part State :=
  (s.writeMem dst (List.replicate (4 * n) 0)).map fun t => (t.setX c (BitVec.ofNat 64 status)).retire

/-- `rldred` (R242): the hart waits for every member's reply (R345). A group without members writes zeros at once. One of a
window that is not registered here sends nothing, as if every member's read failed with `WIN_UNKNOWN` (R232, log entry 16). DESIGN
CHOICE (log entry 62): with no element each member is asked all the same, for 0 bytes. -/
def execRldred (cl : Slot) (a b c : XReg) (s : State) : Out := finish do
  s.remoteChecks (.rldred cl a b c)
  let n := s.hart.len
  let dst := s.getX b
  let w := s.getX a
  let cw := (s.getX c).toNat
  s.checkWrite dst.toNat (4 * n)
  let ms := s.groupMembers (bits w.toNat 7 0)
  if ms ≠ [] && (s.ownWindow w).isNone then s.ldredZero dst.toNat n c (ms.length * 2 ^ 32 + 3)
  else if !ldredOk cw w then return (s.setX c 7).retire
  else if ms = [] then s.ldredZero dst.toNat n c 0
  else
    let o := s.takeName
    let et := bits cw 2 0
    let ask := fun (t : State) (m : Sys2Proof.Member) =>
      let fid := s.memberFid m
      if s.isAbsent fid then t
      else t.send (.request o.1 (s.request1 fid (rawWin w) (rawOff w) (.ldred (n * ldredBytes et))))
    let t := ms.foldl ask o.2
    return t.onHart fun h =>
      { h with await := some (.ldred c dst n et (bits cw 5 3) (h.effClass cl) (ms.map s.memberFid)) }

/-! ### `rwait` and `tkstat` (R243, R352) -/

/-- `rwait` (R243): the hart stays at the instruction while it waits; it drops the cache-remote lines before it completes (R169). -/
def execRwait (a b c : XReg) (s : State) : Out := finish do
  s.remoteChecks (.rwait a b c)
  let sel := (s.getX a).toNat
  let win := bits sel 13 0
  let l := s.hart.task.launch
  match s.window? l win with
  | none => return (s.dropLines.setX c 3).retire
  | some v =>
    let k := if bitOf sel 14 then v.inn else v.out
    stopIf ((k - (s.getX b).setWidth 32).msb && v.err == 0) s
    let t := s.setX c (BitVec.ofNat 64 (k.toNat * 2 ^ 32 + v.err))
    return (if bitOf sel 15 then t.dropLines.onWindow l win fun w => { w with err := 0 } else t.dropLines).retire

/-- `tkstat` (R239, R352). -/
def execTkstat (a c : XReg) (s : State) : Out := finish do
  s.remoteChecks (.tkstat a c)
  return (s.setX c (BitVec.ofNat 64 (s.hart.tokenCode ((s.getX a).setWidth 16)))).retire

end Sys2Proof.Machine
end

