-- ==== Sys2Proof/Machine/RemoteEnds.lean ====
section
/-! DEFINITION. Remote operations at their target and on their return: gets, atomics, load-and-reduce, tile sends, UALink
accesses, and absent peers (R228, R230 to R232, R240 to R244, R345). -/

namespace Sys2Proof.Machine

/-! ### At the target -/

/-- The bytes an access of the fabric touches. -/
def reqBytes (k : ReqKind) : Nat :=
  match k with
  | .get n => n
  | .ldred n => n
  | .atomic _ w64 _ => atomBytes w64

/-- The bytes at `n` translated addresses, and memory after an atomic on them. -/
def atomicAt (m : Bytes) (rs : List (Nat × Nat)) (op : AmoOp) (w64 : Bool) (v : Word) : Bytes :=
  let n := atomBytes w64
  m.putRuns rs (leBytes n (amoNew op (8 * n) (leVal (m.getRuns rs)) (v.toNat % 2 ^ (8 * n))))

/-- The task of this package bound on the hart a request came from. -/
def State.requester (s : State) (p : Party) : Option Nat :=
  if p.fid = s.fid then ((s.hart :: s.others).find? fun h => h.bound && h.id == p.hartid).map (·.task.serial) else none

/-- A target serves a get, an atomic or a load-and-reduce from a window (R240 to R242). Bytes behind an absent peer fail it with
`PEER_ABSENT` (R230), and so do bytes no leaf maps (R167; DESIGN CHOICE, log entry 59). -/
def execRemoteRequestServed (r : RemoteReq) (s0 : State) : Out :=
  if r.peer ≠ s0.fid then .next s0
  else
    let s := s0.hear r.src.fid
    let n := reqBytes r.kind
    match s.targetChecks r.tenant r.job r.win r.off n with
    | .error c => .next (s.send (.reply r.src (.error c)))
    | .ok (l, w) =>
      match s.runs l.asid (w.base + r.off) n with
      | .error a => .next ((s.send (.reply r.src (.error 2))).walkFault (s.requester r.src) l.asid a)
      | .ok rs =>
        let t := (s.count l.asid (w.base + r.off) n).send (.reply r.src (.bytes (s.mem.getRuns rs)))
        match r.kind with
        | .get _ => .next t
        | .ldred _ => .next t
        | .atomic op w64 v => .next ({ t with mem := atomicAt s.mem rs op w64 v, lines := [] }.touch l.asid (w.base + r.off) n)

/-- The context a tile send names: that bound on the hart, or, while its tenant is stopped, one that was bound there (R277). -/
def State.tileHart (s : State) (n : HartName) (l : Launch) : Option Hart :=
  let mine := fun h : Hart => h.bound && h.name == n && h.task.launch == l.id
  let stopped := s.tenants.any fun t => t.id == l.tenant && t.q == .stopped
  if mine (s.hartAt n) then some (s.hartAt n) else if stopped then s.parked.find? mine else none

/-- The error of a tile send at its target, in the order of R232, or its launch, window and context. -/
def State.tileChecks (s : State) (m : TileMsg) : Except Nat (Launch × Window × Hart) :=
  if s.sealed m.tenant then .error 2
  else
    match s.reached m.tenant m.job m.win with
    | none => .error 3
    | some (l, w) =>
      if !w.tile then .error 5 else if w.len ≤ m.index then .error 4
      else
        match s.tileHart m.target l with
        | some h => .ok (l, w, h)
        | none => .error 8

/-- A whole-tile write of a hart's bind-record context: Dirty where a map holds it and its cluster's tile store has a slot, else
at its backing, the tile Absent (R11, R109, R244). -/
def State.tileArrives (s : State) (h : Hart) (t : Nat) (data : List Byte) : State :=
  let base := h.task.mapbase
  let r : TReg := Fin.ofNat 256 t
  let b := Bytes.put [] 0 data
  let here := (s.hartAt h.name).task.serial == h.task.serial
  let slot := match h.tileIn base r with | some x => x.held || (s.focus h.name).slotFree h here | none => false
  if slot then s.onTask h.task.serial fun k => k.setTileIn base r (.dirty b)
  else (s.onTask h.task.serial fun k => k.setTileIn base r .absent).spillTile h base t b

/-- A tile send arrives (R244). -/
def execMsendReceived (m : TileMsg) (s0 : State) : Out :=
  if m.peer ≠ s0.fid || m.data.length ≠ tileSize then .next s0
  else
    let s := s0.hear m.src.fid
    match s.tileChecks m with
    | .error c => .next (s.send (.tileDone m.src m.win c))
    | .ok (l, w, h) =>
      .next (((s.tileArrives h (w.base + m.index) m.data).onWindow l.id w.id
        fun w => { w with inn := w.inn + 1 }).send (.tileDone m.src m.win 0))

/-- The bytes of HBM4: 768 GB (R170). -/
def localBytes : Nat := 768 * 10 ^ 9

/-- The pages mapped at some bytes of this package's HBM4 are written (R282). -/
def State.touchFrames (s : State) (addr n : Nat) : State :=
  s.leaves.foldl
    (fun t l =>
      let base := ptePfn l.pte * 2 ^ 16
      let lo := max addr base
      let hi := min (addr + n) (base + levelSize l.level)
      if s.leafFid l = s.fid then t.touch l.asid (l.va + (lo - base)) (hi - lo) else t)
    s

/-- An incoming UALink access performs at its home slice: the physical address names this package's frames (R169, R228). DESIGN
CHOICE (log entry 13): one past the end of HBM4 changes nothing and is not answered. -/
def execUalinkRequest (src : Party) (addr : Nat) (k : AccessKind) (s0 : State) : Out :=
  let n := (accessSpan k).1
  if localBytes < addr + n then .next s0
  else
    let s := s0.hear src.fid
    let rs := [(s.fid * 2 ^ 40 + addr, n)]
    let old := s.mem.getRuns rs
    match k with
    | .read _ => .next (s.send (.ualinkReply src old))
    | .write bs => .next (({ s with mem := s.mem.putRuns rs bs }.touchFrames addr n).send (.ualinkReply src []))
    | .atomic op w64 v => .next (({ s with mem := atomicAt s.mem rs op w64 v }.touchFrames addr n).send (.ualinkReply src old))

/-! ### At the issuer -/

/-- An `rget` completes: every byte is written locally, or none (R240); local bytes that do not translate end its task (R167, R230,
log entry 8). DESIGN CHOICE (log entry 44): until then a later access of
the hart reads the old bytes, whatever its class, as R189 orders `rget` by counters and `rwait` alone. -/
def execRgetComplete (ticket : Nat) (r : Reply) (s : State) : Out :=
  match s.gets.find? fun g => g.ticket == ticket with
  | none => .next s
  | some g =>
    let t := { s.hear g.peer with gets := s.gets.filter fun g => g.ticket != ticket }
    if g.failed then .next t
    else
    match r with
    | .error c => .next (t.closeOp g.launch g.win ticket c)
    | .bytes bs =>
      if bs.length ≠ g.len then .next s
      else
        match t.writeAt g.asid g.dst.toNat bs with
        | .ok u => .next (u.closeOp g.launch g.win ticket 0)
        | .error a => .next ((t.closeOp g.launch g.win ticket 0).endOwner g.owner a)

/-- The hart no longer waits for an answer. -/
def State.answered (s : State) : State := s.onHart fun h => { h with await := none }

/-- An answer came from a peer, which is heard of; one of code 2 may be the issuer's own, for a peer that no port reaches (R230, log
entry 17). -/
def State.hearReply (s : State) (peer : Nat) (r : Reply) : State := if r = .error 2 then s else s.hear peer

/-- The answers of the members of a group. -/
def State.hearReplies (s : State) (peers : List Nat) (rs : List Reply) : State :=
  (peers.zip rs).foldl (fun s x => s.hearReply x.1 x.2) s

/-- The answer to `ramo`: the old value, or 0 and the error of the window (R241). -/
def execRamoComplete (r : Reply) (s : State) : Out :=
  match s.hart.await with
  | some (.ramo c dc w64 launch win ticket peer) =>
    let u := s.answered.hearReply peer r
    match r with
    | .error code =>
      let t := u.setX c 0
      .next (((match dc with | some d => t.setX d 0 | none => t).closeOp launch win ticket code).retire)
    | .bytes bs =>
      if bs.length ≠ atomBytes w64 then .next s
      else
        let v := BitVec.ofNat 64 (leVal bs)
        let t := u.setX c v
        .next (((match dc with | some d => t.setX d v | none => t).closeOp launch win ticket 0).retire)
  | _ => .next s

/-- Element `i` of a member's reply, as the reduction reads it: `bf16` widens exactly (R242). -/
def ldredElem (et : Nat) (bs : List Byte) (i : Nat) : Nat :=
  let v := leVal ((bs.drop (i * ldredBytes et)).take (ldredBytes et))
  if et = 1 then v * 2 ^ 16 else v

/-- One step of a reduction: `et` 4 is signed, 7 unsigned, else floating point; `op` 0 sums, 1 and 2 are min and max. -/
def ldredStep (et op a v : Nat) : Nat × Flags :=
  if et = 4 then
    (if op = 0 then (a + v) % 2 ^ 32 else if (sext a 32 ≤ sext v 32) == (op == 1) then a else v, noFlags)
  else if et = 7 then (if op = 0 then (a + v) % 2 ^ 32 else if op = 1 then min a v else max a v, noFlags)
  else if op = 0 then fmt32.add 0 (fmt32.value a) (fmt32.value v) 0
  else fmt32.minMax (op == 2) a v

/-- Element `i` reduced over the replies in record order (R242). -/
def ldredReduce (et op : Nat) (datas : List (List Byte)) (i : Nat) : Nat × Flags :=
  match datas with
  | [] => (0, noFlags)
  | d :: ds =>
    ds.foldl
      (fun acc d =>
        let r := ldredStep et op acc.1 (ldredElem et d i)
        (r.1, acc.2 ||| r.2))
      (ldredElem et d i, noFlags)

/-- The bytes of the replies that came back. -/
def replyData (rs : List Reply) : List (List Byte) := rs.filterMap fun r => match r with | .bytes b => some b | .error _ => none

/-- The first error among the replies in record order, or 0 (R242; DEDUCED, log entry 16). -/
def firstError (rs : List Reply) : Nat :=
  ((rs.filterMap fun r => match r with | .error c => some c | .bytes _ => none).head?).getD 0

/-- The replies to `rldred` are all in: the reduction is stored, the flags and the status word are written (R242). -/
def execRldredComplete (rs : List Reply) (s : State) : Out :=
  match s.hart.await with
  | some (.ldred c dst n et op _ peers) =>
    let datas := replyData rs
    if rs.length ≠ peers.length || datas.any (fun d => d.length != n * ldredBytes et) then .next s
    else finish do
      let xs := (List.range n).map fun i => ldredReduce et op datas i
      let t ← (s.answered.hearReplies peers rs).writeMem dst.toNat (xs.flatMap fun x => leBytes 4 x.1)
      let st := BitVec.ofNat 64 (peers.length * 2 ^ 32 + datas.length * 2 ^ 16 + firstError rs)
      return ((t.setX c st).onHart fun h => h.orFlags (orAll (xs.map (·.2)))).retire
  | _ => .next s

/-- A tile send's completion or failure reaches the issuer (R244). -/
def execMsendCompletes (win ticket code : Nat) (s : State) : Out :=
  match s.sends.find? fun r => r.ticket == ticket && r.win == win with
  | some r =>
    let t := { s.hear r.peer with sends := s.sends.filter fun r => r.ticket != ticket }
    .next (if r.failed then t else t.closeOp r.launch r.win ticket code)
  | none => .next s

/-- A put of an absent peer fails (R230, R235). -/
def State.losePut (s : State) (p : PutRec) : State := (s.closeOp p.launch p.win p.ticket 2).failPut p

/-- No port has reached a peer for 1 ms, 100,000 ticks of the cluster's `REFTICK`, since a tick: it is absent until it is
heard of again, and every put that left for it, get and tile send to it that has not completed fails (R230). An answer that comes
later is heard, and changes nothing else. -/
def execPeerAbsent (last : LastReached) (s : State) : Out :=
  let fid := last.fid
  if (s.cluster.refTick - last.tick).toNat < 100000 then .next s
  else
  let s1 := { s with absent := if s.absent.contains fid then s.absent else s.absent ++ [fid] }
  let s2 := (s.puts.filter fun p => p.peer == fid && p.sent && !p.failed).foldl (fun s p => s.losePut p) s1
  let gs := s.gets.filter fun g => g.peer == fid && !g.failed
  let ms := s.sends.filter fun r => r.peer == fid && !r.failed
  let s3 := gs.foldl (fun s g => s.closeOp g.launch g.win g.ticket 2) s2
  let s4 := ms.foldl (fun s r => s.closeOp r.launch r.win r.ticket 2) s3
  .next { s4 with
    gets := s.gets.map fun g => if g.peer = fid then { g with failed := true } else g
    sends := s.sends.map fun r => if r.peer = fid then { r with failed := true } else r }

end Sys2Proof.Machine
end

