-- ==== Sys2Proof/Machine/Scalar.lean ====
section
/-! DEFINITION. The scalar register and immediate operations, and the branches, jumps and loops (R292, R293, R295, R296,
R307, R312, R313, R316 to R319, R336, R347). -/

namespace Sys2Proof.Machine

/-- Write one scalar result and fall through. -/
def State.scalar (s : State) (d : XReg) (w : Word) : Out := .next (s.setX d w).retire

/-! ### The results of R292 -/

/-- `slt`, or unsigned with `n`. -/
def aluLt (n : Bool) (a b : Word) : Bool := if n then a.ult b else a.slt b

/-- `mulh`: the high half of the exact product. -/
def aluMulh (n : Bool) (a b : Word) : Word :=
  if n then BitVec.ofNat 64 (a.toNat * b.toNat / 2 ^ 64) else BitVec.ofInt 64 (a.toInt * b.toInt / 2 ^ 64)

/-- `div`: truncating; a divisor of 0 gives all ones. -/
def aluDiv (n : Bool) (a b : Word) : Word :=
  if b = 0 then BitVec.allOnes 64 else if n then a / b else BitVec.ofInt 64 (a.toInt.tdiv b.toInt)

/-- `rem`: a divisor of 0 gives the dividend. -/
def aluRem (n : Bool) (a b : Word) : Word :=
  if b = 0 then a else if n then a % b else BitVec.ofInt 64 (a.toInt.tmod b.toInt)

/-- Leading zero bits of the low `n` bits. -/
def leadZeros (n : Nat) (a : Word) : Nat :=
  match n with
  | 0 => 0
  | n + 1 => if a.getLsbD n then 0 else 1 + leadZeros n a

/-- The one bits among the low `n`. -/
def ones (n : Nat) (a : Word) : Nat :=
  match n with
  | 0 => 0
  | n + 1 => (a.getLsbD n).toNat + ones n a

/-- The shift count of a register shift (R292). -/
def shiftCount (b : Word) : Nat := b.toNat % 64

/-- Bits [pos + len − 1 : pos], zero- or sign-extended (R307). -/
def extField (a : Word) (sg : Bool) (len1 pos : Fin 64) : Word :=
  let f := bits a.toNat (pos.val + len1.val) pos.val
  if sg then BitVec.ofInt 64 (sext f (len1.val + 1)) else BitVec.ofNat 64 f

/-- `d` with bits [pos + len − 1 : pos] replaced by the low bits of `a` (R307). -/
def insField (d a : Word) (len1 pos : Fin 64) : Word := setBits d pos.val (len1.val + 1) a.toNat

/-! ### ALU, major 0x01 (R292) -/

def execAdd (d a b : XReg) (s : State) : Out := s.scalar d (s.getX a + s.getX b)
def execSub (d a b : XReg) (s : State) : Out := s.scalar d (s.getX a - s.getX b)
def execAnd (d a b : XReg) (s : State) : Out := s.scalar d (s.getX a &&& s.getX b)
def execOr (d a b : XReg) (s : State) : Out := s.scalar d (s.getX a ||| s.getX b)
def execXor (d a b : XReg) (s : State) : Out := s.scalar d (s.getX a ^^^ s.getX b)
def execSll (d a b : XReg) (s : State) : Out := s.scalar d (s.getX a <<< shiftCount (s.getX b))
def execSrl (d a b : XReg) (s : State) : Out := s.scalar d (s.getX a >>> shiftCount (s.getX b))
def execSra (d a b : XReg) (s : State) : Out := s.scalar d ((s.getX a).sshiftRight (shiftCount (s.getX b)))
def execSlt (d a b : XReg) (n : Bool) (s : State) : Out :=
  s.scalar d (if aluLt n (s.getX a) (s.getX b) then 1 else 0)
def execMin (d a b : XReg) (n : Bool) (s : State) : Out :=
  s.scalar d (if aluLt n (s.getX a) (s.getX b) then s.getX a else s.getX b)
def execMax (d a b : XReg) (n : Bool) (s : State) : Out :=
  s.scalar d (if aluLt n (s.getX a) (s.getX b) then s.getX b else s.getX a)
def execMul (d a b : XReg) (s : State) : Out := s.scalar d (s.getX a * s.getX b)
def execMulh (d a b : XReg) (n : Bool) (s : State) : Out := s.scalar d (aluMulh n (s.getX a) (s.getX b))
def execDiv (d a b : XReg) (n : Bool) (s : State) : Out := s.scalar d (aluDiv n (s.getX a) (s.getX b))
def execRem (d a b : XReg) (n : Bool) (s : State) : Out := s.scalar d (aluRem n (s.getX a) (s.getX b))
def execClz (d a : XReg) (s : State) : Out := s.scalar d (BitVec.ofNat 64 (leadZeros 64 (s.getX a)))
def execPopc (d a : XReg) (s : State) : Out := s.scalar d (BitVec.ofNat 64 (ones 64 (s.getX a)))
def execSel (d a b c : XReg) (s : State) : Out := s.scalar d (if s.getX c ≠ 0 then s.getX a else s.getX b)

/-! ### Immediates (R293, R295, R307, R319, R336, R347) -/

def execAddi (d a : XReg) (imm : BitVec 16) (s : State) : Out := s.scalar d (s.getX a + imm16 imm)
/-- `addi x0, x0, 0` (R66, R336). -/
def execNop (s : State) : Out := .next s.retire
def execAndi (d a : XReg) (imm : BitVec 16) (s : State) : Out := s.scalar d (s.getX a &&& imm16 imm)
def execOri (d a : XReg) (imm : BitVec 16) (s : State) : Out := s.scalar d (s.getX a ||| imm16 imm)
def execXori (d a : XReg) (imm : BitVec 16) (s : State) : Out := s.scalar d (s.getX a ^^^ imm16 imm)
def execSlti (d a : XReg) (imm : BitVec 16) (s : State) : Out :=
  s.scalar d (if (s.getX a).slt (imm16 imm) then 1 else 0)
def execSlli (d a : XReg) (sh : Fin 64) (s : State) : Out := s.scalar d (s.getX a <<< sh.val)
def execSrli (d a : XReg) (sh : Fin 64) (s : State) : Out := s.scalar d (s.getX a >>> sh.val)
def execSrai (d a : XReg) (sh : Fin 64) (s : State) : Out := s.scalar d ((s.getX a).sshiftRight sh.val)
def execExt (d a : XReg) (sg : Bool) (len1 pos : Fin 64) (s : State) : Out :=
  s.scalar d (extField (s.getX a) sg len1 pos)
/-- `ins` reads x[xd] as a source (R307). -/
def execIns (d a : XReg) (len1 pos : Fin 64) (s : State) : Out :=
  s.scalar d (insField (s.getX d) (s.getX a) len1 pos)
def execLui (d : XReg) (imm : BitVec 21) (s : State) : Out := s.scalar d (imm21 imm)
def execAuipc (d : XReg) (imm : BitVec 21) (s : State) : Out := s.scalar d (s.hart.pc + imm21 imm)

/-! ### Branches and jumps (R296, R312, R313) -/

/-- Take the branch or fall through. -/
def State.branch (s : State) (c : Bool) (off : BitVec 13) : Out :=
  .next (if c then s.jump (s.hart.pc + wordOff off) else s.retire)

def execBeq (a b : XReg) (off : BitVec 13) (s : State) : Out := s.branch (s.getX a == s.getX b) off
def execBne (a b : XReg) (off : BitVec 13) (s : State) : Out := s.branch (s.getX a != s.getX b) off
def execBlt (a b : XReg) (off : BitVec 13) (s : State) : Out := s.branch ((s.getX a).slt (s.getX b)) off
def execBge (a b : XReg) (off : BitVec 13) (s : State) : Out := s.branch (!(s.getX a).slt (s.getX b)) off
def execBltN (a b : XReg) (off : BitVec 13) (s : State) : Out := s.branch ((s.getX a).ult (s.getX b)) off
def execBgeN (a b : XReg) (off : BitVec 13) (s : State) : Out := s.branch (!(s.getX a).ult (s.getX b)) off

/-- `jal`: the return address is that of the next word (R312). -/
def execJal (d : XReg) (off : BitVec 21) (s : State) : Out :=
  .next ((s.setX d (s.hart.pc + 4)).jump (s.hart.pc + wordOff off))

/-- `jalr`: xa is read before xd is written, and bits [1:0] of the target are cleared (R313). -/
def execJalr (d a : XReg) (imm : BitVec 16) (s : State) : Out :=
  let t := (s.getX a + imm16 imm) &&& ~~~(3 : Word)
  .next ((s.setX d (s.hart.pc + 4)).jump t)

/-! ### Loops (R316, R317) -/

/-- The loop of `count` trips over `len` words after this one: refused inside three entries, or past the end of the
innermost one; with no trip it acts as if its last word had fallen through (R316, R317). -/
def State.enterLoop (s : State) (i : Instr) (count : Word) (len : Nat) : Out :=
  let st := s.hart.loops
  let e := s.hart.pc + BitVec.ofNat 64 (4 * len)
  let past := match st with | l :: _ => decide (l.e.toNat < e.toNat) | [] => false
  if 3 ≤ st.length || past then .next (s.illegal i)
  else if count = 0 then
    let r := loopEnd e st
    .next (s.continueAt (r.2.getD (e + 4)) r.1)
  else .next (s.continueAt (s.hart.pc + 4) ({ s := s.hart.pc + 4, e := e, count := count } :: st))

def execLoop (a : XReg) (len : Fin 65536) (s : State) : Out := s.enterLoop (.loop a len) (s.getX a) len.val
def execLoopi (count : Fin 1024) (len : Fin 65536) (s : State) : Out :=
  s.enterLoop (.loopi count len) (BitVec.ofNat 64 count.val) len.val

end Sys2Proof.Machine
end

