-- ==== Sys2Proof/Machine/Dispatch.lean ====
section
/-! DEFINITION. One arm per instruction and step of the opcode table. -/

namespace Sys2Proof.Machine

def exec (i : Instr) (s : State) : Host.Outcome State Fault Refusal :=
  match i with
  | .add d a b => Sys2Proof.Machine.execAdd d a b s
  | .sub d a b => Sys2Proof.Machine.execSub d a b s
  | .and d a b => Sys2Proof.Machine.execAnd d a b s
  | .or d a b => Sys2Proof.Machine.execOr d a b s
  | .xor d a b => Sys2Proof.Machine.execXor d a b s
  | .sll d a b => Sys2Proof.Machine.execSll d a b s
  | .srl d a b => Sys2Proof.Machine.execSrl d a b s
  | .sra d a b => Sys2Proof.Machine.execSra d a b s
  | .slt d a b n => Sys2Proof.Machine.execSlt d a b n s
  | .min d a b n => Sys2Proof.Machine.execMin d a b n s
  | .max d a b n => Sys2Proof.Machine.execMax d a b n s
  | .mul d a b => Sys2Proof.Machine.execMul d a b s
  | .mulh d a b n => Sys2Proof.Machine.execMulh d a b n s
  | .div d a b n => Sys2Proof.Machine.execDiv d a b n s
  | .rem d a b n => Sys2Proof.Machine.execRem d a b n s
  | .clz d a => Sys2Proof.Machine.execClz d a s
  | .popc d a => Sys2Proof.Machine.execPopc d a s
  | .sel d a b c => Sys2Proof.Machine.execSel d a b c s
  | .addi d a imm => Sys2Proof.Machine.execAddi d a imm s
  | .nop => Sys2Proof.Machine.execNop s
  | .andi d a imm => Sys2Proof.Machine.execAndi d a imm s
  | .ori d a imm => Sys2Proof.Machine.execOri d a imm s
  | .xori d a imm => Sys2Proof.Machine.execXori d a imm s
  | .slti d a imm => Sys2Proof.Machine.execSlti d a imm s
  | .slli d a sh => Sys2Proof.Machine.execSlli d a sh s
  | .srli d a sh => Sys2Proof.Machine.execSrli d a sh s
  | .srai d a sh => Sys2Proof.Machine.execSrai d a sh s
  | .ext d a sg len1 pos => Sys2Proof.Machine.execExt d a sg len1 pos s
  | .ins d a len1 pos => Sys2Proof.Machine.execIns d a len1 pos s
  | .lui d imm => Sys2Proof.Machine.execLui d imm s
  | .auipc d imm => Sys2Proof.Machine.execAuipc d imm s
  | .beq a b off => Sys2Proof.Machine.execBeq a b off s
  | .bne a b off => Sys2Proof.Machine.execBne a b off s
  | .blt a b off => Sys2Proof.Machine.execBlt a b off s
  | .bge a b off => Sys2Proof.Machine.execBge a b off s
  | .bltN a b off => Sys2Proof.Machine.execBltN a b off s
  | .bgeN a b off => Sys2Proof.Machine.execBgeN a b off s
  | .jal d off => Sys2Proof.Machine.execJal d off s
  | .jalr d a imm => Sys2Proof.Machine.execJalr d a imm s
  | .loop a len => Sys2Proof.Machine.execLoop a len s
  | .loopi count len => Sys2Proof.Machine.execLoopi count len s
  | .ld w d a imm => Sys2Proof.Machine.execLd w d a imm s
  | .st w d a imm => Sys2Proof.Machine.execSt w d a imm s
  | .lda d a c w => Sys2Proof.Machine.execLda d a c w s
  | .stl a b c w => Sys2Proof.Machine.execStl a b c w s
  | .cas d a b c w64 => Sys2Proof.Machine.execCas d a b c w64 s
  | .amoAdd d a b c w64 => Sys2Proof.Machine.execAmoAdd d a b c w64 s
  | .amoAnd d a b c w64 => Sys2Proof.Machine.execAmoAnd d a b c w64 s
  | .amoOr d a b c w64 => Sys2Proof.Machine.execAmoOr d a b c w64 s
  | .amoXor d a b c w64 => Sys2Proof.Machine.execAmoXor d a b c w64 s
  | .amoMin d a b c w64 => Sys2Proof.Machine.execAmoMin d a b c w64 s
  | .amoMax d a b c w64 => Sys2Proof.Machine.execAmoMax d a b c w64 s
  | .amoMinN d a b c w64 => Sys2Proof.Machine.execAmoMinN d a b c w64 s
  | .amoMaxN d a b c w64 => Sys2Proof.Machine.execAmoMaxN d a b c w64 s
  | .amoSwap d a b c w64 => Sys2Proof.Machine.execAmoSwap d a b c w64 s
  | .csrr d r => Sys2Proof.Machine.execCsrr d r s
  | .csrw d a r => Sys2Proof.Machine.execCsrw d a r s
  | .csrs d a r => Sys2Proof.Machine.execCsrs d a r s
  | .csrc d a r => Sys2Proof.Machine.execCsrc d a r s
  | .ecall => Sys2Proof.Machine.execEcall s
  | .kVersion => Sys2Proof.Machine.execKVersion s
  | .kYield => Sys2Proof.Machine.execKYield s
  | .kRequestUnknown => Sys2Proof.Machine.execKRequestUnknown s
  | .eret => Sys2Proof.Machine.execEret s
  | .brk => Sys2Proof.Machine.execBrk s
  | .mapsw a => Sys2Proof.Machine.execMapsw a s
  | .ckpt => Sys2Proof.Machine.execCkpt s
  | .pfx fields => Sys2Proof.Machine.execPfx fields s
  | .vsetvl d a w => Sys2Proof.Machine.execVsetvl d a w s
  | .vsetvli d w len => Sys2Proof.Machine.execVsetvli d w len s
  | .vadd d a b p e n => Sys2Proof.Machine.execVadd d a b p e n s
  | .vsub d a b p e n => Sys2Proof.Machine.execVsub d a b p e n s
  | .vmul d a b p e n => Sys2Proof.Machine.execVmul d a b p e n s
  | .vmulh d a b p e n => Sys2Proof.Machine.execVmulh d a b p e n s
  | .vand d a b p e n => Sys2Proof.Machine.execVand d a b p e n s
  | .vor d a b p e n => Sys2Proof.Machine.execVor d a b p e n s
  | .vxor d a b p e n => Sys2Proof.Machine.execVxor d a b p e n s
  | .vsll d a b p e n => Sys2Proof.Machine.execVsll d a b p e n s
  | .vsrl d a b p e n => Sys2Proof.Machine.execVsrl d a b p e n s
  | .vsra d a b p e n => Sys2Proof.Machine.execVsra d a b p e n s
  | .vmin d a b p e n => Sys2Proof.Machine.execVmin d a b p e n s
  | .vmax d a b p e n => Sys2Proof.Machine.execVmax d a b p e n s
  | .vcmp c pd a b p e n => Sys2Proof.Machine.execVcmp c pd a b p e n s
  | .vsel d a b p e n => Sys2Proof.Machine.execVsel d a b p e n s
  | .vred d a r p e n => Sys2Proof.Machine.execVred d a r p e n s
  | .vfadd d a b p e => Sys2Proof.Machine.execVfadd d a b p e s
  | .vfsub d a b p e => Sys2Proof.Machine.execVfsub d a b p e s
  | .vfmul d a b p e => Sys2Proof.Machine.execVfmul d a b p e s
  | .vfma d a b p e => Sys2Proof.Machine.execVfma d a b p e s
  | .vfnma d a b p e => Sys2Proof.Machine.execVfnma d a b p e s
  | .vfdiv d a b p e => Sys2Proof.Machine.execVfdiv d a b p e s
  | .vfsqrt d a p e => Sys2Proof.Machine.execVfsqrt d a p e s
  | .vfmin d a b p e => Sys2Proof.Machine.execVfmin d a b p e s
  | .vfmax d a b p e => Sys2Proof.Machine.execVfmax d a b p e s
  | .vfcmp c pd a b p e => Sys2Proof.Machine.execVfcmp c pd a b p e s
  | .vfclass d a p e => Sys2Proof.Machine.execVfclass d a p e s
  | .vfred d a r p e => Sys2Proof.Machine.execVfred d a r p e s
  | .vtbl d a t p e => Sys2Proof.Machine.execVtbl d a t p e s
  | .vcvt d a p src sat dst => Sys2Proof.Machine.execVcvt d a p src sat dst s
  | .vfcvt d a p src dst => Sys2Proof.Machine.execVfcvt d a p src dst s
  | .vlnspack d a p => Sys2Proof.Machine.execVlnspack d a p s
  | .vlnsunpack d a p => Sys2Proof.Machine.execVlnsunpack d a p s
  | .vlnsmul d a b p => Sys2Proof.Machine.execVlnsmul d a b p s
  | .vlnsadd d a b p => Sys2Proof.Machine.execVlnsadd d a b p s
  | .vscale d a b p => Sys2Proof.Machine.execVscale d a b p s
  | .vperm d a b p e => Sys2Proof.Machine.execVperm d a b p e s
  | .vslideup d a b p e => Sys2Proof.Machine.execVslideup d a b p e s
  | .vslidedn d a b p e => Sys2Proof.Machine.execVslidedn d a b p e s
  | .vcompress d a p e => Sys2Proof.Machine.execVcompress d a p e s
  | .vexpand d a p e => Sys2Proof.Machine.execVexpand d a p e s
  | .vbcast d a p e => Sys2Proof.Machine.execVbcast d a p e s
  | .vmv d a p e => Sys2Proof.Machine.execVmv d a p e s
  | .vidx d p e => Sys2Proof.Machine.execVidx d p e s
  | .pand d a b => Sys2Proof.Machine.execPand d a b s
  | .por d a b => Sys2Proof.Machine.execPor d a b s
  | .pxor d a b => Sys2Proof.Machine.execPxor d a b s
  | .pnot d a => Sys2Proof.Machine.execPnot d a s
  | .pcnt d a => Sys2Proof.Machine.execPcnt d a s
  | .pfirst d a => Sys2Proof.Machine.execPfirst d a s
  | .vld d a p w c => Sys2Proof.Machine.execVld d a p w c s
  | .vlds d a b p w c => Sys2Proof.Machine.execVlds d a b p w c s
  | .vldx d a b p w c => Sys2Proof.Machine.execVldx d a b p w c s
  | .vldff d a p w c => Sys2Proof.Machine.execVldff d a p w c s
  | .vldsp d a b p w c => Sys2Proof.Machine.execVldsp d a b p w c s
  | .qld d q p w => Sys2Proof.Machine.execQld d q p w s
  | .vst d a p w c => Sys2Proof.Machine.execVst d a p w c s
  | .vsts d a b p w c => Sys2Proof.Machine.execVsts d a b p w c s
  | .vstx d a b p w c => Sys2Proof.Machine.execVstx d a b p w c s
  | .vstsp d a b p w c => Sys2Proof.Machine.execVstsp d a b p w c s
  | .vamoAdd d a b p w64 c => Sys2Proof.Machine.execVamoAdd d a b p w64 c s
  | .vamoMin d a b p w64 c => Sys2Proof.Machine.execVamoMin d a b p w64 c s
  | .vamoMax d a b p w64 c => Sys2Proof.Machine.execVamoMax d a b p w64 c s
  | .vamoAnd d a b p w64 c => Sys2Proof.Machine.execVamoAnd d a b p w64 c s
  | .vamoOr d a b p w64 c => Sys2Proof.Machine.execVamoOr d a b p w64 c s
  | .vamoXor d a b p w64 c => Sys2Proof.Machine.execVamoXor d a b p w64 c s
  | .vamoSwap d a b p w64 c => Sys2Proof.Machine.execVamoSwap d a b p w64 c s
  | .sbegin a => Sys2Proof.Machine.execSbegin a s
  | .scommit => Sys2Proof.Machine.execScommit s
  | .sabort => Sys2Proof.Machine.execSabort s
  | .fence ack scope cmask => Sys2Proof.Machine.execFence ack scope cmask s
  | .fencesvSv => Sys2Proof.Machine.execFencesvSv s
  | .fencesvVs => Sys2Proof.Machine.execFencesvVs s
  | .fenceq qmask => Sys2Proof.Machine.execFenceq qmask s
  | .spfence => Sys2Proof.Machine.execSpfence s
  | .mma f td ta tb lu => Sys2Proof.Machine.execMma f td ta tb lu s
  | .mmasp f td ta b c => Sys2Proof.Machine.execMmasp f td ta b c s
  | .mmats f td ta b c => Sys2Proof.Machine.execMmats f td ta b c s
  | .mzero t => Sys2Proof.Machine.execMzero t s
  | .mld t a b c h => Sys2Proof.Machine.execMld t a b c h s
  | .mst t a b c h => Sys2Proof.Machine.execMst t a b c h s
  | .mldsp t a b c h => Sys2Proof.Machine.execMldsp t a b c h s
  | .mstsp t a b c h => Sys2Proof.Machine.execMstsp t a b c h s
  | .mv2t t a b => Sys2Proof.Machine.execMv2t t a b s
  | .mt2v t a b => Sys2Proof.Machine.execMt2v t a b s
  | .mfree t => Sys2Proof.Machine.execMfree t s
  | .mpref t => Sys2Proof.Machine.execMpref t s
  | .mepi t a b c => Sys2Proof.Machine.execMepi t a b c s
  | .msend t a b c => Sys2Proof.Machine.execMsend t a b c s
  | .mattach => Sys2Proof.Machine.execMattach s
  | .mdetach => Sys2Proof.Machine.execMdetach s
  | .mmov ta tb lu => Sys2Proof.Machine.execMmov ta tb lu s
  | .mtrans ta tb f lu => Sys2Proof.Machine.execMtrans ta tb f lu s
  | .cpy q a b c => Sys2Proof.Machine.execCpy q a b c s
  | .cpy2d q a b c => Sys2Proof.Machine.execCpy2d q a b c s
  | .cpyg q a b c => Sys2Proof.Machine.execCpyg q a b c s
  | .cpyts q a b c => Sys2Proof.Machine.execCpyts q a b c s
  | .qfill q a b c => Sys2Proof.Machine.execQfill q a b c s
  | .tblld q a => Sys2Proof.Machine.execTblld q a s
  | .phnew a c => Sys2Proof.Machine.execPhnew a c s
  | .phdel a c => Sys2Proof.Machine.execPhdel a c s
  | .phreg m a c => Sys2Proof.Machine.execPhreg m a c s
  | .phdrop a c => Sys2Proof.Machine.execPhdrop a c s
  | .phsig a c => Sys2Proof.Machine.execPhsig a c s
  | .phwait a c => Sys2Proof.Machine.execPhwait a c s
  | .phsw a c => Sys2Proof.Machine.execPhsw a c s
  | .gmem a b c => Sys2Proof.Machine.execGmem a b c s
  | .post a => Sys2Proof.Machine.execPost a s
  | .texit => Sys2Proof.Machine.execTexit s
  | .rput sg a b c => Sys2Proof.Machine.execRput sg a b c s
  | .rget sg a b c => Sys2Proof.Machine.execRget sg a b c s
  | .ramo sg a b c => Sys2Proof.Machine.execRamo sg a b c s
  | .rldred sg a b c => Sys2Proof.Machine.execRldred sg a b c s
  | .rwait a b c => Sys2Proof.Machine.execRwait a b c s
  | .tkstat a c => Sys2Proof.Machine.execTkstat a c s
  | .claim a b c => Sys2Proof.Machine.execClaim a b c s
  | .object a b c => Sys2Proof.Machine.execObject a b c s
  | .clwait c => Sys2Proof.Machine.execClwait c s
  | .dln a b => Sys2Proof.Machine.execDln a b s
  | .dlnend c => Sys2Proof.Machine.execDlnend c s
  | .hint bits => Sys2Proof.Machine.execHint bits s
  | .illegal w => Sys2Proof.Machine.execIllegal w s
  | .dlnRisk => Sys2Proof.Machine.execDlnRisk s
  | .copyEntryPerforms turn => Sys2Proof.Machine.execCopyEntryPerforms turn s
  | .tileFillDone t => Sys2Proof.Machine.execTileFillDone t s
  | .tileSpillStart t => Sys2Proof.Machine.execTileSpillStart t s
  | .tileSpillDone t => Sys2Proof.Machine.execTileSpillDone t s
  | .slotReclaim t => Sys2Proof.Machine.execSlotReclaim t s
  | .transferReplay => Sys2Proof.Machine.execTransferReplay s
  | .checkpointStream => Sys2Proof.Machine.execCheckpointStream s
  | .preemptionRequest => Sys2Proof.Machine.execPreemptionRequest s
  | .preemptionComplete => Sys2Proof.Machine.execPreemptionComplete s
  | .bind choice => Sys2Proof.Machine.execBind choice s
  | .launch c r ids => Sys2Proof.Machine.execLaunch c r ids s
  | .mboxw c launchId index value => Sys2Proof.Machine.execMboxw c launchId index value s
  | .map c m => Sys2Proof.Machine.execMap c m s
  | .unmap c m => Sys2Proof.Machine.execUnmap c m s
  | .remap c m how => Sys2Proof.Machine.execRemap c m how s
  | .mapCommandCompletes => Sys2Proof.Machine.execMapCommandCompletes s
  | .pageans c ctxId req ok maps => Sys2Proof.Machine.execPageans c ctxId req ok maps s
  | .carve c die way0 nway => Sys2Proof.Machine.execCarve c die way0 nway s
  | .uncarve c handle => Sys2Proof.Machine.execUncarve c handle s
  | .pool c cluster q qmin qcap => Sys2Proof.Machine.execPool c cluster q qmin qcap s
  | .quiesceStop c => Sys2Proof.Machine.execQuiesceStop c s
  | .quiesceTokenSettle tenant => Sys2Proof.Machine.execQuiesceTokenSettle tenant s
  | .quiesceSeal c incremental base addr dest => Sys2Proof.Machine.execQuiesceSeal c incremental base addr dest s
  | .quiesceResume c => Sys2Proof.Machine.execQuiesceResume c s
  | .quiesceDiscard c => Sys2Proof.Machine.execQuiesceDiscard c s
  | .restore c addr fid final r => Sys2Proof.Machine.execRestore c addr fid final r s
  | .sync c => Sys2Proof.Machine.execSync c s
  | .replay c start => Sys2Proof.Machine.execReplay c start s
  | .commandUnknown c op => Sys2Proof.Machine.execCommandUnknown c op s
  | .powerUp test config signature => Sys2Proof.Machine.execPowerUp test config signature s
  | .portFail p => Sys2Proof.Machine.execPortFail p s
  | .laneShed p lanes => Sys2Proof.Machine.execLaneShed p lanes s
  | .flintBoundHeld => Sys2Proof.Machine.execFlintBoundHeld s
  | .peerAbsent last => Sys2Proof.Machine.execPeerAbsent last s
  | .putReceived m => Sys2Proof.Machine.execPutReceived m s
  | .putRefused m => Sys2Proof.Machine.execPutRefused m s
  | .tokenAccepted t => Sys2Proof.Machine.execTokenAccepted t s
  | .tokenLanded t => Sys2Proof.Machine.execTokenLanded t s
  | .landedNotice t => Sys2Proof.Machine.execLandedNotice t s
  | .tokenExpires t => Sys2Proof.Machine.execTokenExpires t s
  | .expiryNotice t => Sys2Proof.Machine.execExpiryNotice t s
  | .remoteRequestServed r => Sys2Proof.Machine.execRemoteRequestServed r s
  | .rgetComplete ticket r => Sys2Proof.Machine.execRgetComplete ticket r s
  | .ramoComplete r => Sys2Proof.Machine.execRamoComplete r s
  | .rldredComplete rs => Sys2Proof.Machine.execRldredComplete rs s
  | .msendReceived m => Sys2Proof.Machine.execMsendReceived m s
  | .ualinkRequest src addr k => Sys2Proof.Machine.execUalinkRequest src addr k s
  | .proposalReceived p => Sys2Proof.Machine.execProposalReceived p s
  | .memberWindowCloses addr group => Sys2Proof.Machine.execMemberWindowCloses addr group s
  | .objectionReceived src p abort => Sys2Proof.Machine.execObjectionReceived src p abort s
  | .commitNoticeReceived p => Sys2Proof.Machine.execCommitNoticeReceived p s
  | .endNoticeReceived p => Sys2Proof.Machine.execEndNoticeReceived p s
  | .claimWaitEnds => Sys2Proof.Machine.execClaimWaitEnds s
  | .claimStorePerformed acknowledged written => Sys2Proof.Machine.execClaimStorePerformed acknowledged written s
  | .governorDecision share => Sys2Proof.Machine.execGovernorDecision share s
  | .operatingPointSettles => Sys2Proof.Machine.execOperatingPointSettles s
  | .throttleAdjust raise => Sys2Proof.Machine.execThrottleAdjust raise s
  | .supplyDroop span => Sys2Proof.Machine.execSupplyDroop span s
  | .retentionExit lost restored => Sys2Proof.Machine.execRetentionExit lost restored s
  | .migrate va pfn => Sys2Proof.Machine.execMigrate va pfn s
  | .promotion asid va level pfn => Sys2Proof.Machine.execPromotion asid va level pfn s
  | .accessPerforms va k => Sys2Proof.Machine.execAccessPerforms va k s
  | .queuedInstructionRetires pc ahead => Sys2Proof.Machine.execQueuedInstructionRetires pc ahead s
  | .putFailed t code => Sys2Proof.Machine.execPutFailed t code s
  | .msendCompletes win ticket code => Sys2Proof.Machine.execMsendCompletes win ticket code s
  | .attestationRequest c nonce => Sys2Proof.Machine.execAttestationRequest c nonce s

end Sys2Proof.Machine
end

