-- ==== Sys2Proof/Machine/Turns.lean ====
section
/-! DEFINITION. How a turn goes: which instructions a hart issues past what it has left for later, and what the turns do that are no
instruction (R86, R158, R163, R167, R169, R182, R183, R213, R228, R278). -/

namespace Sys2Proof.Machine

/-! ### Going past what is left for later (R86, R182, R183) -/

/-- Nothing of the hart in front that has issued is still to perform. -/
def State.nothingLeft (s : State) : Bool := s.hart.vqueue.isEmpty && s.hart.late.isEmpty

/-- The turn goes to the oldest of what the hart in front has left for later. -/
def State.settleTurn (s : State) : Out :=
  if s.hart.vqueue.isEmpty then finish s.drainLate else s.retireTurn

/-- What an instruction waits for before it can go past what its hart has left for later: what the scalar stream has left, and the
vector queue. -/
structure Waits where
  scalar : Bool
  vector : Bool
  deriving DecidableEq, Repr

/-- Something left for later is ordered before a store of the instruction in front (R183, R184); inside a strip all of it is, which
buffers in program order (R218). -/
def State.storeWaits (s : State) (va : Word) (n : Nat) (c : Fin 16) : Bool :=
  s.hart.late.any fun l => s.hart.inStrip || l.ordered (.store va (List.replicate n 0) c 0 0)

/-- Something left for later is ordered before a load of a class, or an access that is ordered as one (R183, R184). -/
def State.loadWaits (s : State) (c : Fin 16) : Bool := s.hart.late.any fun l => l.holds c

/-- A state register that a queued instruction may change: `VL`, `VSTART`, `GRANT`, `MAPCTL`, `STATUS` and `DLNSTAT` (R86). -/
def csrOfQueue (r : BitVec 12) : Bool := [0x000, 0x001, 0x010, 0x012, 0x030, 0x051].contains r.toNat

/-- A state register that a queued instruction takes at issue, so that a write does not reach it (R213), or does not use. -/
def csrAtIssue (r : BitVec 12) : Bool := [0x013, 0x020, 0x021, 0x022, 0x060, 0x061].contains r.toNat

/-- What an instruction waits for (R86, R154, R181 to R187). One that reads and writes scalar registers alone, or that orders no
access of the hart (R266, R299, R306, R311, R321, R340, R352), waits for nothing but what its own entry has it wait for, and for
a result that is queued; a load and a store for what is ordered before them in their own stream, and so the local bytes of
an `rput` and an `rldred`; other remote words for nothing (R189); a claim for the stores of its class (R190); a copy for
nothing, but for its record; an atomic for its own stream; a fence, in a whole turn, for the earlier accesses of its classes (R308,
R309), while a turn that leaves it behind has it hold the later ones; any other for all. -/
def State.waits (s : State) (i : Instr) : Waits :=
  match i with
  | .add .. | .sub .. | .and .. | .or .. | .xor .. | .sll .. | .srl .. | .sra .. | .slt .. | .min .. | .max .. | .mul ..
  | .mulh .. | .div .. | .rem .. | .clz .. | .popc .. | .sel .. | .addi .. | .andi .. | .ori .. | .xori .. | .slti ..
  | .slli .. | .srli .. | .srai .. | .ext .. | .ins .. | .lui .. | .auipc .. | .beq .. | .bne .. | .blt .. | .bge ..
  | .bltN .. | .bgeN .. | .jal .. | .jalr .. | .loop .. | .loopi .. | .vsetvl .. | .vsetvli .. | .nop | .hint .. | .pfx ..
  | .cpy .. | .qfill .. | .fenceq .. | .phnew .. | .phdel .. | .phreg .. | .gmem .. | .tkstat .. | .rget .. | .ramo .. | .rwait ..
  | .clwait .. => ⟨false, false⟩
  | .mapsw .. | .ckpt | .ecall | .dln .. | .dlnend .. | .object .. => ⟨false, true⟩
  | .csrr _ r => ⟨false, csrOfQueue r⟩
  | .csrw _ _ r | .csrs _ _ r | .csrc _ _ r => ⟨false, !csrAtIssue r⟩
  | .ld .. => ⟨s.loadWaits (s.hart.effClass 0), false⟩
  | .st w _ a imm => ⟨s.how != .late && s.storeWaits (s.addr a imm) (widthBytes w) (s.hart.effClass 0), s.hart.inStrip⟩
  | .rput c .. => ⟨s.loadWaits (s.hart.effClass c), false⟩
  | .rldred c _ b _ => ⟨s.storeWaits (s.getX b) (4 * s.hart.len) (s.hart.effClass c), false⟩
  | .claim .. => ⟨s.loadWaits (s.hart.effClass 0), false⟩
  | .lda .. | .cas .. | .amoAdd .. | .amoAnd .. | .amoOr .. | .amoXor .. | .amoMin .. | .amoMax .. | .amoMinN ..
  | .amoMaxN .. | .amoSwap .. | .cpy2d .. | .cpyg .. | .cpyts .. => ⟨true, false⟩
  | .fence _ _ m =>
    ⟨s.how != .late && s.hart.late.any fun l => l.ordered (.fence m false 0 0), 32 ≤ s.hart.vqueue.length⟩
  | .fencesvSv => ⟨true, false⟩
  | .fencesvVs | .spfence => ⟨false, true⟩
  | _ => ⟨true, true⟩

/-- A queued instruction may still fault on what older ones write. -/
def State.unsure (s : State) : Bool := s.hart.vqueue.any fun q => !q.sure

/-- What an instruction does is undone where the hart goes back to a queued one (`State.squash`): it changes registers that a
queued instruction took at issue, or leaves its effect behind. -/
def State.undoable (s : State) (i : Instr) : Bool :=
  match i with
  | .add .. | .sub .. | .and .. | .or .. | .xor .. | .sll .. | .srl .. | .sra .. | .slt .. | .min .. | .max .. | .mul ..
  | .mulh .. | .div .. | .rem .. | .clz .. | .popc .. | .sel .. | .addi .. | .andi .. | .ori .. | .xori .. | .slti ..
  | .slli .. | .srli .. | .srai .. | .ext .. | .ins .. | .lui .. | .auipc .. | .beq .. | .bne .. | .blt .. | .bge ..
  | .bltN .. | .bgeN .. | .jal .. | .jalr .. | .loop .. | .loopi .. | .vsetvl .. | .vsetvli .. | .nop | .hint .. | .pfx ..
  | .csrr .. | .ld .. => true
  | .st .. | .fence .. => s.how == .late
  | _ => false

/-- An instruction of the scalar stream waits for the vector queue. -/
def State.waitsForQueue (s : State) (i : Instr) : Bool :=
  (s.waits i).vector || s.waitsForResult i false || (s.unsure && !s.undoable i)

/-- What a hart does with its next instruction. -/
inductive Issue where
  | run
  | runPast
  | queue (t : State)
  | settle
  deriving DecidableEq, Repr

/-- A word of the vector queue runs at once only when the queue is empty, past the scalar stores that were left for later; a word of
the scalar stream when nothing is left that it waits for. -/
def State.passes (s : State) (i : Instr) : Bool :=
  if (runVector i s).isSome then s.hart.vqueue.isEmpty && !s.waitsForScalar i
  else (!(s.waits i).scalar || s.hart.late.isEmpty) && (s.hart.vqueue.isEmpty || !s.waitsForQueue i)

/-- An instruction runs where nothing is left for later; a turn that leaves it for later queues a vector instruction that cannot
fault; else it runs past what is left, or that settles first. -/
def State.issueOf (s : State) (i : Instr) : Issue :=
  match if s.how = .late then s.enterQueue i else none with
  | some t => .queue t
  | none => if s.nothingLeft then .run else if s.passes i then .runPast else .settle

/-- What is left that keeps an instruction waiting settles: the oldest queued instruction where it waits for the queue, or where
stores may not perform before it, else what its own stream left. -/
def State.settleFor (s : State) (i : Instr) : Out :=
  if !s.hart.vqueue.isEmpty && ((runVector i s).isSome || s.waitsForQueue i || s.unsure) then s.retireTurn
  else finish s.drainLate

/-- An instruction that ran past what is left for later took no trap and ended no task, so that faults stay precise (R86, R213). -/
def State.wentOn (s t : State) : Bool :=
  t.hart.bound && t.hart.level == s.hart.level && t.hart.epc == s.hart.epc && t.hart.cause == s.hart.cause
    && t.hart.status >>> 5 == s.hart.status >>> 5

/-! ### Turns that are no instruction -/

/-- A step of the device that can happen by itself: no instruction word stands for it, nor is it the request of one; a deadline
interrupt comes when nothing is left for later (R213). -/
def State.mayHappen (s : State) (i : Instr) : Bool :=
  match i with
  | .illegal _ | .kVersion | .kYield | .kRequestUnknown => false
  | .dlnRisk => s.nothingLeft
  | i => (encodeNat i).isNone

/-- A cache-remote line of a mode-2 page is filled from the peer, or dropped (R158, R169). -/
def State.turnLine (s : State) (asid va : Nat) (fill : Bool) : State :=
  let a := va / 128 * 128
  let rest := s.lines.filter fun l => !(l.asid == spaceOf asid a && l.va == a)
  if !fill then { s with lines := rest }
  else
    match s.leafAt asid a, s.runs asid a 128 with
    | some l, .ok rs =>
      if pteMode l.pte = 2 then { s with lines := { asid := spaceOf asid a, va := a, bytes := s.mem.getRuns rs } :: rest } else s
    | _, _ => s

/-- A granule of the scratchpad (handle 0) or of a carve-out enters the operand cache of a cluster, or leaves it (R163). The cache
has 256 KiB, 16,384 granules (R11): where it is full, the one that was filled first goes. -/
def State.turnOperand (s : State) (n : Nat) (handle : Word) (granule : Nat) (fill : Bool) : State :=
  s.onClusterAt n fun c =>
    let rest := c.operands.filter fun l => !(l.handle == handle && l.granule == granule)
    let from1 := if handle = 0 then c.sp else ((s.carves.find? fun v => v.handle == handle).map (·.bytes)).getD []
    if fill then
      { c with
        operands :=
          ({ handle := handle, granule := granule, generation := c.generation, bytes := from1.getN (16 * granule) 16 } :: rest).take
            16384 }
    else { c with operands := rest }

/-- A soft error breaks the entry of a page table that maps an address: its walks find no valid leaf (R167). -/
def State.turnSoftError (s : State) (asid va : Nat) : State :=
  { s with leaves := s.leaves.filter fun l => !l.maps (spaceOf asid va) va }

/-- A port in service reaches a peer, which is then not absent (R230). -/
def State.turnReached (s : State) (fid : Nat) : State := if s.ports.toList.any (· != 0) then s.hear fid else s

/-- Another endpoint's memory changes (R228). -/
def State.turnOutside (s : State) (fid addr : Nat) (bytes : List Byte) : State :=
  if fid = s.fid then s else { s with mem := s.mem.putRuns (outsideRuns fid addr bytes.length) bytes }

/-- Another package has sealed an image at another endpoint (R278). -/
def State.turnSealed (s : State) (fid addr : Nat) (i : Image) (signature : List Byte) : State :=
  let t := s.turnOutside fid addr (i.signedBytes signature)
  if fid = s.fid then s else { t with images := i :: t.images }

end Sys2Proof.Machine
end

