-- ==== Sys2Proof/Machine/Step.lean ====
section
/-! DEFINITION. One step of the package: the next turn of the agenda, or an instruction of the hart in front. -/

namespace Sys2Proof.Machine

/-- The instruction of a word; one that decodes to none stands for its trap (R78). -/
def instrOf (w : IWord) : Instr := match decodeWord w with | .ok i => i | .error _ => .illegal w

/-- The instruction of the hart in front, on the state with its fetch counted. -/
def issue (i : Instr) (s : State) : Host.Outcome State Fault Refusal :=
  match s.issueOf i with
  | .queue t => .next t
  | .settle => s.settleFor i
  | .run => exec i s
  | .runPast =>
    match exec i s with
    | .next t => if s.wentOn t then .next t else s.settleTurn
    | r => r

/-- The turn of the hart in front. -/
def hartStep (s : State) : Host.Outcome State Fault Refusal :=
  match s.attend with
  | .idle => .next s
  | .fault t => if s.nothingLeft then .next (s.deliver t) else s.settleStop
  | .interrupt => if s.nothingLeft then exec .dlnRisk s else s.settleStop
  | .instruction =>
    match s.fetch with
    | .error t => if s.nothingLeft then .next t else s.settleTurn
    | .ok w => issue (instrOf w.1) w.2

/-- The hart in front spends its turn as told, and its next turns whole. -/
def stepAs (how : How) (s : State) : Host.Outcome State Fault Refusal :=
  match hartStep { s with how := how } with
  | .next t => .next { t with how := .whole }
  | r => r

/-- A turn of the agenda. -/
def turnStep (t : Turn) (s : State) : Host.Outcome State Fault Refusal :=
  match t with
  | .hart n => match s.turnAt n with | some s1 => hartStep s1 | none => .fault .noSuchHart
  | .part n k => match s.turnAt n with | some s1 => stepAs (.part k) s1 | none => .fault .noSuchHart
  | .late n => match s.turnAt n with | some s1 => stepAs .late s1 | none => .fault .noSuchHart
  | .elems n es => match s.turnAt n with | some s1 => .next (s1.turnElems es) | none => .fault .noSuchHart
  | .event n i =>
    match s.turnAt n with
    | some s1 => if s1.mayHappen i then exec i s1 else .next s1
    | none => .fault .noSuchHart
  | .command n bytes payload choice =>
    match s.turnAt n, commandOf bytes payload choice with
    | some s1, some i => exec i s1
    | some s1, none => .next s1
    | none, _ => .fault .noSuchHart
  | .tick c k => .next (s.tick c k)
  | .line asid va fill => .next (s.turnLine asid va fill)
  | .operand c hd g fill => .next (s.turnOperand c hd g fill)
  | .softError asid va => .next (s.turnSoftError asid va)
  | .reached fid => .next (s.turnReached fid)
  | .outside fid addr bytes => .next (s.turnOutside fid addr bytes)
  | .sealed fid addr i sig => .next (s.turnSealed fid addr i sig)

/-- What a turn makes of the machine, unless it meets a page that is marked busy: then it waits there, in the state given (R171). -/
def unlessBusy (s waiting : State) (r : Host.Outcome State Fault Refusal) : Host.Outcome State Fault Refusal :=
  match r with
  | .next t => if s.metBusy t then .next waiting else .next t
  | r => r

/-- A turn that is no hart's issue waits at a busy page as what it is, a message or a command: it comes again behind the others. -/
def Turn.comesAgain (t : Turn) : List Turn :=
  match t with
  | .hart _ | .part _ _ | .late _ | .elems _ _ => []
  | t => [t]

/-- One step. -/
def step (s : State) : Host.Outcome State Fault Refusal :=
  match s.agenda with
  | [] => unlessBusy s s (hartStep s)
  | t :: r => unlessBusy s { s with agenda := r ++ t.comesAgain } (turnStep t { s with agenda := r })

/-- The leaf that `withFetchWord` maps the program's first page with: local frame 0, 64 KiB (R168). -/
def fetchLeaf : Leaf :=
  { asid := 1, level := 3, va := 0x100000000, pte := 0xC000000000000000, tenants := [], accesses := 0 }

/-- `s` with the instruction whose bits are `w` as the next one its hart in front runs: a task bound at level T with the
exec section of R41 and that section's page mapped, its bytes at the pc (log entry 6). -/
def State.withFetchWord (s : State) (nbits w : Nat) : State :=
  let k :=
    { s.hart.task with
      asid := 1, sections := [{ addr := 0x100000000, len := 0x10000, exec := true }] }
  { s with
    hart := { s.hart with
      bound := true, stopping := false, await := none, loaded := [], unitsDone := []
      phWoke := none, expiries := [], vqueue := [], late := []
      level := .t, pc := 0x100000000, lent := none, task := k }
    leaves := fetchLeaf :: s.leaves
    mem := s.mem.put (s.fid * 2 ^ 40) (leBytes 4 (w % 2 ^ nbits))
    how := .whole, agenda := [] }

end Sys2Proof.Machine
end

