-- ==== Sys2Proof/Safety.lean ====
section
/-! DEFINITION. What the claims are said in: the invariant of every state, where an instruction goes on, the bytes an access
reaches, and the results of the instructions as the rules give them. -/

namespace Sys2Proof.Machine

/-! ### The invariant -/

/-- Memory is in its canonical form. -/
abbrev State.memOk (s : State) : Prop := Bytes.wf s.mem = true

/-- A leaf stands at a 64 KiB boundary (R164, R168). -/
abbrev Leaf.aligned (l : Leaf) : Prop := l.va % 65536 = 0

/-- A page of an image holds bytes of one page in canonical form, at a 64 KiB boundary (R282). -/
abbrev PageImage.ok (p : PageImage) : Prop :=
  Bytes.wf p.data = true ∧ (∀ c ∈ p.data, c.1 < 65536) ∧ p.leaf.aligned

/-- The pages of an image are all well formed, which is asked of an image that a turn of the agenda brings. -/
abbrev Turn.ok (t : Turn) : Prop := ∀ fid addr i sig, t = .sealed fid addr i sig → ∀ p ∈ i.pages, p.ok

/-- Memory is canonical, every leaf stands at a page boundary, and so does every page of every image, sealed here or still to
arrive. -/
structure State.Inv (s : State) : Prop where
  mem : s.memOk
  leaves : ∀ l ∈ s.leaves, l.aligned
  images : ∀ i ∈ s.images, ∀ p ∈ i.pages, p.ok
  baselines : ∀ b ∈ s.baselines, ∀ p ∈ b.pages, p.ok
  agenda : ∀ t ∈ s.agenda, t.ok

/-! ### A hart that does its instructions at once (R86; log entry 10) -/

/-- The turn of the hart in front is whole, and nothing of an earlier instruction of it waits to perform. -/
abbrev State.prompt (s : State) : Prop := s.how = .whole ∧ s.hart.vqueue = [] ∧ s.hart.late = []

/-! ### Where an instruction goes on (R291, R316 to R318) -/

/-- The hart in front stands at `pc` with the loop stack `st` of its level, no prefix lent; nothing else differs. -/
def State.goes (s : State) (pc : Word) (st : List Loop) : State :=
  { s with
    hart := { s.hart with
      pc := pc, lent := none
      loopT := if s.hart.level = .t then st else s.hart.loopT
      loopK := if s.hart.level = .t then s.hart.loopK else st } }

/-- Where the hart goes on when its instruction falls through: the next word, or the start of a loop body whose last word
this is (R317). -/
def State.fallPc (s : State) : Word := (loopEnd s.hart.pc s.hart.loops).2.getD (s.hart.pc + 4)

/-- The hart may fetch where its instruction falls through to (R291). -/
abbrev State.mayFall (s : State) : Prop := s.hart.task.mayFetch s.fallPc.toNat = true

/-- The hart has fallen through. -/
def State.falls (s : State) : State := s.goes s.fallPc (loopEnd s.hart.pc s.hart.loops).1

/-- The hart has jumped to `t`: loop entries that `t` leaves are gone (R318). -/
def State.jumps (s : State) (t : Word) : State := s.goes t (unwind t s.hart.loops)

/-- A vector instruction has completed: `VSTART` is 0 and the hart has fallen through. -/
def State.vfalls (s : State) : State := { s with hart := { s.hart with vstart := 0 } }.falls

/-- The hart in front is a compute hart (R72, R78). -/
abbrev State.compute (s : State) : Prop := s.hart.name.ah = false

/-- The hart in front is not inside a strip at level T (R220). -/
abbrev State.outside (s : State) : Prop := s.hart.inStrip = false

/-! ### Pages that migrate (R171) -/

/-- No page of mode 3 becomes busy within `k` accesses: none of them waits for a migration (R171). -/
abbrev State.unworn (s : State) (k : Nat) : Prop :=
  ∀ l ∈ s.leaves, pteMode l.pte = 3 → l.accesses + k ≤ 2 ^ (pteThr l.pte + 8)

/-- No access of the instruction in front has performed ahead of the rest of it (R86, R171, R183). -/
abbrev State.unbegun (s : State) : Prop := s.hart.unitsDone = [] ∧ ∀ done taken, s.how ≠ .without done taken

/-! ### Bytes an access reaches -/

/-- Every page that `n` bytes at `va` touch translates for the hart in front (R167). -/
abbrev State.translates (s : State) (va n : Nat) : Prop :=
  ∀ p ∈ pagesOf va n, (s.translate s.hart.task.asid (pieceLo va p)).isSome = true

/-- The runs of keys of `n` bytes at `va` that translate. -/
def State.keys (s : State) (va n : Nat) : List (Nat × Nat) :=
  (pagesOf va n).map fun p => ((s.translate s.hart.task.asid (pieceLo va p)).getD 0, pieceLen va n p)

/-- A key lies in a run of a list. -/
abbrev inRuns (rs : List (Nat × Nat)) (k : Nat) : Prop := ∃ r ∈ rs, r.1 ≤ k ∧ k < r.1 + r.2

/-- The runs of a list meet nowhere. -/
abbrev apart (rs : List (Nat × Nat)) : Prop := rs.Pairwise fun r q => r.1 + r.2 ≤ q.1 ∨ q.1 + q.2 ≤ r.1

/-- The task may read all of `n` bytes at `va`, and they translate. -/
abbrev State.canRead (s : State) (va n : Nat) : Prop :=
  (∀ k < n, s.hart.task.mayRead (va + k) = true) ∧ s.translates va n

/-- The task may write all of `n` bytes at `va`, and they translate. -/
abbrev State.canWrite (s : State) (va n : Nat) : Prop :=
  (∀ k < n, s.hart.task.mayWrite (va + k) = true) ∧ s.translates va n

/-- What the package reads at `va` for the hart in front: memory, with its cache-remote lines over it (R158, R169). -/
def State.reads (s : State) (va n : Nat) : List Byte :=
  s.lines.foldl (fun bs l => l.over s.hart.task.asid va bs) (s.mem.getRuns (s.keys va n))

/-- What the hart in front sees at `va`: what the package reads, with its own buffered stores over it (R182). -/
def State.sees (s : State) (va n : Nat) : List Byte := overlay s.hart.strip va (s.reads va n)

/-- What a load of its scalar stream sees: its own stores that have not performed lie over that (R86, R182). -/
def State.seesNow (s : State) (va n : Nat) : List Byte := overlayLate s.hart.late va (s.sees va n)

/-- An access is counted in the mode-3 leaves it touches (R171); nothing else differs. -/
def State.counted (s : State) (va n : Nat) : State := { s with leaves := (s.count s.hart.task.asid va n).leaves }

/-- A buffered store. -/
def buffered (va : Nat) (bs : List Byte) (c : Fin 16) : StripStore :=
  { va := BitVec.ofNat 64 va, bytes := bs, cls := c, bypass := false }

/-- `bs` is written at `va` in memory, and in the cache-remote lines that hold its bytes (R169); its pages stand in what the next
incremental image tells (R282), and a strip that stands open meanwhile is past (R221). -/
def State.wroteMem (s : State) (va : Nat) (bs : List Byte) : State :=
  { s with
    mem := s.mem.putRuns (s.keys va bs.length) bs
    lines := s.lines.map fun l => l.written s.hart.task.asid va bs
    leaves := (s.counted va bs.length).leaves
    baselines := (s.touch s.hart.task.asid va bs.length).baselines
    hart := s.hart.wentPast va bs.length }

/-- The cache-remote lines of the package that hold one of `n` bytes at `va` are gone (R294). -/
def State.uncached (s : State) (va n : Nat) : State :=
  { s with lines := s.lines.filter fun l => l.asid ≠ spaceOf s.hart.task.asid va ∨ l.va + l.bytes.length ≤ va ∨ va + n ≤ l.va }

/-- `bs` is written at `va`: in memory, or in the open strip's buffer (R219). -/
def State.wrote (s : State) (va : Nat) (bs : List Byte) (c : Fin 16) : State :=
  if s.hart.inStrip then { s with hart := { s.hart with strip := s.hart.strip ++ [buffered va bs c] } }
  else s.wroteMem va bs

/-- The open strip has room for one more store, or none is open (R219). -/
abbrev State.stripRoom (s : State) (va : Nat) (bs : List Byte) (c : Fin 16) : Prop :=
  s.hart.inStrip = true →
    (granules (s.hart.strip ++ [buffered va bs c])).length ≤ s.hart.lanes * 512

/-- A run of `n` bytes from `a` may be one side of a copy: inside the scratchpad, or where the lease admits it (R150, R155). -/
abbrev copySide (ok : Nat → Bool) (sp : Bool) (n : Nat) (a : Word) : Prop :=
  if sp then a.toNat + n ≤ 2 ^ 21 else ∀ k < n, ok (a.toNat + k) = true

/-- The low `n` bytes of a word, lowest first (R2). -/
def lowBytes (n : Nat) (w : Word) : List Byte := (List.range n).map fun k => w.extractLsb' (8 * k) 8

/-! ### Results of the scalar instructions (R292, R293, R295, R307, R319, R336, R347) -/

/-- A register number with the value it receives. -/
abbrev Written := XReg × Word

/-- The value of a Bool as a register holds it. -/
def flag (b : Prop) [Decidable b] : Word := if b then 1 else 0

/-- The destination and result of an instruction of the ALU table, and of the immediate forms; `nop` writes `x0`. -/
def State.scalarResult (s : State) (i : Instr) : Option Written :=
  let x := s.getX
  match i with
  | .nop => some (0, 0)
  | .add d a b => some (d, x a + x b)
  | .sub d a b => some (d, x a - x b)
  | .and d a b => some (d, x a &&& x b)
  | .or d a b => some (d, x a ||| x b)
  | .xor d a b => some (d, x a ^^^ x b)
  | .sll d a b => some (d, BitVec.ofNat 64 ((x a).toNat * 2 ^ ((x b).toNat % 64)))
  | .srl d a b => some (d, BitVec.ofNat 64 ((x a).toNat / 2 ^ ((x b).toNat % 64)))
  | .sra d a b => some (d, BitVec.ofInt 64 ((x a).toInt / 2 ^ ((x b).toNat % 64)))
  | .slt d a b n => some (d, if n then flag ((x a).toNat < (x b).toNat) else flag ((x a).toInt < (x b).toInt))
  | .min d a b n =>
    some (d, if n then BitVec.ofNat 64 (min (x a).toNat (x b).toNat) else BitVec.ofInt 64 (min (x a).toInt (x b).toInt))
  | .max d a b n =>
    some (d, if n then BitVec.ofNat 64 (max (x a).toNat (x b).toNat) else BitVec.ofInt 64 (max (x a).toInt (x b).toInt))
  | .mul d a b => some (d, BitVec.ofInt 64 ((x a).toInt * (x b).toInt))
  | .mulh d a b n =>
    some (d, if n then BitVec.ofNat 64 ((x a).toNat * (x b).toNat / 2 ^ 64)
      else BitVec.ofInt 64 ((x a).toInt * (x b).toInt / 2 ^ 64))
  | .div d a b n =>
    some (d, if x b = 0 then BitVec.allOnes 64
      else if n then BitVec.ofNat 64 ((x a).toNat / (x b).toNat) else BitVec.ofInt 64 ((x a).toInt.tdiv (x b).toInt))
  | .rem d a b n =>
    some (d, if x b = 0 then x a
      else if n then BitVec.ofNat 64 ((x a).toNat % (x b).toNat) else BitVec.ofInt 64 ((x a).toInt.tmod (x b).toInt))
  | .clz d a => some (d, BitVec.ofNat 64 (if x a = 0 then 64 else 63 - Nat.log2 (x a).toNat))
  | .popc d a => some (d, BitVec.ofNat 64 ((List.range 64).countP fun k => (x a).getLsbD k))
  | .sel d a b c => some (d, if x c = 0 then x b else x a)
  | .addi d a imm => some (d, x a + imm.signExtend 64)
  | .andi d a imm => some (d, x a &&& imm.signExtend 64)
  | .ori d a imm => some (d, x a ||| imm.signExtend 64)
  | .xori d a imm => some (d, x a ^^^ imm.signExtend 64)
  | .slti d a imm => some (d, flag ((x a).toInt < imm.toInt))
  | .slli d a sh => some (d, BitVec.ofNat 64 ((x a).toNat * 2 ^ sh.val))
  | .srli d a sh => some (d, BitVec.ofNat 64 ((x a).toNat / 2 ^ sh.val))
  | .srai d a sh => some (d, BitVec.ofInt 64 ((x a).toInt / 2 ^ sh.val))
  | .ext d a sg len1 pos =>
    let f := (x a).toNat / 2 ^ pos.val % 2 ^ (len1.val + 1)
    some (d, if sg && decide (2 ^ len1.val ≤ f) then BitVec.ofInt 64 (f - 2 ^ (len1.val + 1)) else BitVec.ofNat 64 f)
  | .ins d a len1 pos =>
    let top := 2 ^ (pos.val + len1.val + 1)
    some (d, BitVec.ofNat 64
      ((x d).toNat / top * top + (x a).toNat % 2 ^ (len1.val + 1) * 2 ^ pos.val + (x d).toNat % 2 ^ pos.val))
  | .lui d imm => some (d, BitVec.ofInt 64 (imm.toInt * 2 ^ 16))
  | .auipc d imm => some (d, s.hart.pc + BitVec.ofInt 64 (imm.toInt * 2 ^ 16))
  | _ => none

/-- The condition and the target of a branch (R296). -/
def State.branchOf (s : State) (i : Instr) : Option (Bool × Word) :=
  let dest := fun off : BitVec 13 => s.hart.pc + BitVec.ofInt 64 (off.toInt * 4)
  let x := s.getX
  match i with
  | .beq a b off => some (decide (x a = x b), dest off)
  | .bne a b off => some (decide (x a ≠ x b), dest off)
  | .blt a b off => some (decide ((x a).toInt < (x b).toInt), dest off)
  | .bge a b off => some (decide ((x b).toInt ≤ (x a).toInt), dest off)
  | .bltN a b off => some (decide ((x a).toNat < (x b).toNat), dest off)
  | .bgeN a b off => some (decide ((x b).toNat ≤ (x a).toNat), dest off)
  | _ => none

/-- The link register and the target of a jump (R312, R313). -/
def State.jumpOf (s : State) (i : Instr) : Option (XReg × Word) :=
  match i with
  | .jal d off => some (d, s.hart.pc + BitVec.ofInt 64 (off.toInt * 4))
  | .jalr d a imm => some (d, BitVec.ofNat 64 ((s.getX a + imm.signExtend 64).toNat / 4 * 4))
  | _ => none

/-- The trip count and the length in words of a loop instruction (R316). -/
def State.loopOf (s : State) (i : Instr) : Option (Word × Nat) :=
  match i with
  | .loop a len => some (s.getX a, len.val)
  | .loopi count len => some (BitVec.ofNat 64 count.val, len.val)
  | _ => none

/-- x[d] holds `w`, unless `d` is `x0` (R3); nothing else differs. -/
def State.holds (s : State) (d : XReg) (w : Word) : State :=
  { s with hart := { s.hart with x := if d = 0 then s.hart.x else s.hart.x.set d.val w } }

/-- x[d] holds `w`, and so does x[dc] where a prefix lends `dk` = 1 (R63). -/
def State.holds2 (s : State) (d : XReg) (w : Word) : State :=
  if s.hart.lentDk = 1 then (s.holds d w).holds s.hart.lentDc w else s.holds d w

/-! ### Remote operations (R231, R232) -/

/-- An operation of a ticket stands last in the order of a window of a launch, live or ended; nothing else differs. -/
def State.inOrder (s : State) (launch win ticket : Nat) : State :=
  let put := fun l : Launch =>
    if l.id = launch then
      { l with
        windows := l.windows.map fun w => if w.id = win then { w with ops := w.ops ++ [{ ticket := ticket, done := false }] } else w }
    else l
  { s with launches := s.launches.map put, ended := s.ended.map put }

/-- An operation took the next name, entered its window's order, and completed at once with a code. -/
def State.failedOp (s : State) (launch win code : Nat) : State :=
  { s.inOrder launch win s.nextName with nextName := s.nextName + 1 }.closeOp launch win s.nextName code

/-! ### Exceptions (R64, R207, R210) -/

/-- `t` is `s` with the hart in front at level K for a cause: `EPC` has its pc without bits [1:0], `CAUSE`, `TVAL`, `PFXSTATE` and
PFXV what is given, PPL its level, PIE its IE, and IE is 0; the pc is `TVEC`, level K has no loop, and what an abandoned
instruction had done of itself is forgotten. Nothing else differs. -/
abbrev entered (s t : State) (cause tval : Word) (pfx : BitVec 26) (pfxv : Bool) : Prop :=
  t = { s with
      hart := { s.hart with
        epc := BitVec.ofNat 64 (s.hart.pc.toNat / 4 * 4), cause := cause, tval := tval, pfxstate := pfx.setWidth 64, level := .k, pc := s.hart.tvec
        lent := none, loopK := [], loaded := [], unitsDone := [], status := t.hart.status } }
    ∧ ∀ k : Fin 64, t.hart.status.getLsbD k.val =
      if k = 15 then pfxv
      else if k = 12 then s.hart.level == .k
      else if k = 11 then s.hart.status.getLsbD 10
      else if k = 10 then false
      else s.hart.status.getLsbD k.val

/-- `s` with the open strip discarded: SACT 0, SFV 1, `STRIPFAULT` the strip's base, its buffer empty (R221). -/
def stripDiscarded (s : State) : State :=
  { s with
    hart := { s.hart with
      strip := [], stripfault := s.hart.stripbase, status := (s.hart.status &&& ~~~0x2000) ||| 0x4000 } }

/-! ### Atomics (R294, R298) -/

/-- The numbers a read-modify-write of `n` bytes compares or combines: the register operand's low bytes. -/
def lowNat (n : Nat) (w : Word) : Nat := w.toNat % 2 ^ (8 * n)

/-- A number of `n` bytes read as two's complement. -/
def asSigned (n v : Nat) : Int := if v < 2 ^ (8 * n - 1) then v else v - 2 ^ (8 * n)

/-- Destination, address register, size and new value of a scalar atomic, the new value from the old one. -/
def State.atomicOf (s : State) (i : Instr) : Option (XReg × XReg × Nat × (Nat → Option Nat)) :=
  let size := fun w64 : Bool => if w64 then 8 else 4
  let one := fun (d a b : XReg) (w64 : Bool) (f : Nat → Nat → Nat → Nat) =>
    some (d, a, size w64, fun old => some (f (size w64) old (lowNat (size w64) (s.getX b))))
  match i with
  | .cas d a b _ w64 =>
    some (d, a, size w64, fun old =>
      if old = lowNat (size w64) (s.getX d) then some (lowNat (size w64) (s.getX b)) else none)
  | .amoAdd d a b _ w64 => one d a b w64 fun n o v => (o + v) % 2 ^ (8 * n)
  | .amoAnd d a b _ w64 => one d a b w64 fun _ o v => o &&& v
  | .amoOr d a b _ w64 => one d a b w64 fun _ o v => o ||| v
  | .amoXor d a b _ w64 => one d a b w64 fun _ o v => o ^^^ v
  | .amoMin d a b _ w64 => one d a b w64 fun n o v => if asSigned n v < asSigned n o then v else o
  | .amoMax d a b _ w64 => one d a b w64 fun n o v => if asSigned n o < asSigned n v then v else o
  | .amoMinN d a b _ w64 => one d a b w64 fun _ o v => min o v
  | .amoMaxN d a b _ w64 => one d a b w64 fun _ o v => max o v
  | .amoSwap d a b _ w64 => one d a b w64 fun _ _ v => v
  | _ => none

/-! ### Vector results (R353 to R364, R369 to R376) -/

/-- Vector register `r` receives what the destination receives, as the copy of a prefix with `dk` = 2 (R63). -/
abbrev State.copyV (s : State) (r : VReg) : Prop := s.hart.lentDk = 2 ∧ r = s.hart.lentDc

/-- In `t`, the elements `on` of `d` and of its copy hold `f`, the other elements and the other registers what they held. -/
def elementsWritten (s t : State) (d : VReg) (w : Nat) (on : Nat → Bool) (f : Nat → Nat) : Prop :=
  (∀ r, r = d ∨ s.copyV r → ∀ k,
      elem (t.hart.getV r) k w = if on k then f k % 2 ^ w else elem (s.hart.getV r) k w)
    ∧ ∀ r, r ≠ d → ¬s.copyV r → t.hart.getV r = s.hart.getV r

/-- The same for units of `n` bytes. -/
def unitsWritten (s t : State) (d : VReg) (n : Nat) (on : Nat → Bool) (f : Nat → List Byte) : Prop :=
  (∀ r, r = d ∨ s.copyV r → ∀ k,
      (t.hart.getV r).getN (k * n) n = if on k then f k else (s.hart.getV r).getN (k * n) n)
    ∧ ∀ r, r ≠ d → ¬s.copyV r → t.hart.getV r = s.hart.getV r

/-- Element `k` is active: at or after `VSTART`, below the count, and its predicate bit is set (R353). -/
def State.on (s : State) (p : PReg) (n k : Nat) : Bool := decide (s.hart.start ≤ k ∧ k < n) && s.hart.pred p k

/-- Element `k` is active in a whole instruction, which does not read `VSTART` (R353). -/
def State.onAll (s : State) (p : PReg) (n k : Nat) : Bool := decide (k < n) && s.hart.pred p k

/-- An active unit of an access to memory performs with the rest: it has not performed ahead of them (R86, R183). -/
def State.does (s : State) (p : PReg) (n k : Nat) : Bool :=
  s.on p n k && (match s.how with | .without done _ => !done.contains k | _ => true) && !s.hart.unitsDone.contains k

/-- The flags of the active elements, together. -/
def State.flagsOf (s : State) (p : PReg) (n : Nat) (f : Nat → Flags) : Flags :=
  orAll (((List.range n).filter (s.on p n)).map f)

/-- A vector instruction of `n` elements, which can stop at multiples of `unit`, does those below `stop` in this turn, and what is
then left of the hart is `done`: it completes, or stands at its place with `VSTART` naming the first element not done (R222). -/
def State.endsAt (s : State) (unit : Option Nat) (n stop : Nat) (done : State → State) : Prop :=
  (stop = n ∧ s.mayFall ∧ done = State.vfalls
      ∧ ∀ u j, unit = some u → s.how = .part j → n ≤ (s.hart.start / u + j + 1) * u)
    ∨ ∃ u j, unit = some u ∧ s.how = .part j ∧ stop = (s.hart.start / u + j + 1) * u ∧ stop < n
      ∧ done = fun t => { t with hart := { t.hart with vstart := BitVec.ofNat 64 stop } }

/-- What an elementwise vector instruction writes: its destination, predicate, width and element count, the elements of a group it
may stop at, and the result and flags of an element. -/
structure VecOp where
  d : VReg
  p : PReg
  w : Nat
  n : Nat
  unit : Option Nat
  f : Nat → Nat × Flags

/-- The exact integer an element of type `e` stands for, unsigned under `.n` (R354). -/
def asInt (e : ET) (n : Bool) (v : Nat) : Int :=
  if e = .n32 ∨ n = true ∨ v < 2 ^ (e.width - 1) then v else v - 2 ^ e.width

/-- The integer operations of R354, on the two elements and their exact values. -/
def State.intVecOp (s : State) (i : Instr) : Option VecOp :=
  let op := fun (d a b : VReg) (p : PReg) (e : ET) (n : Bool) (f : Nat → Nat → Int → Int → Int) =>
    some { d := d, p := p, w := e.width, n := s.hart.count e.width, unit := some (s.hart.groupOf e.width)
           f := fun k =>
            let u := s.ve a k e.width
            let v := s.ve b k e.width
            ((f u v (asInt e n u) (asInt e n v) % 2 ^ e.width).toNat, noFlags) }
  match i with
  | .vadd d a b p e n => op d a b p e n fun _ _ x y => x + y
  | .vsub d a b p e n => op d a b p e n fun _ _ x y => x - y
  | .vmul d a b p e n => op d a b p e n fun _ _ x y => x * y
  | .vmulh d a b p e n => op d a b p e n fun _ _ x y => x * y / 2 ^ e.width
  | .vand d a b p e n => op d a b p e n fun u v _ _ => (u &&& v : Nat)
  | .vor d a b p e n => op d a b p e n fun u v _ _ => (u ||| v : Nat)
  | .vxor d a b p e n => op d a b p e n fun u v _ _ => (u ^^^ v : Nat)
  | .vsll d a b p e n => op d a b p e n fun u v _ _ => (u * 2 ^ (v % e.width) : Nat)
  | .vsrl d a b p e n => op d a b p e n fun u v _ _ => (u / 2 ^ (v % e.width) : Nat)
  | .vsra d a b p e n => op d a b p e n fun u v _ _ => sext u e.width / 2 ^ (v % e.width)
  | .vmin d a b p e n => op d a b p e n fun _ _ x y => min x y
  | .vmax d a b p e n => op d a b p e n fun _ _ x y => max x y
  | _ => none

/-- The floating-point operations, conversions, table look-ups, broadcasts and moves, element by element (R146, R356, R359 to
R361, R364, R370). -/
def State.fpVecOp (s : State) (i : Instr) : Option VecOp :=
  let m := s.hart.effRmode
  let sr := s.hart.sr
  let op := fun (d : VReg) (p : PReg) (e : ET) (f : FloatFmt → Nat → Nat × Flags) =>
    some { d := d, p := p, w := e.width, n := s.hart.count e.width, unit := some (s.hart.groupOf e.width)
           f := f (fmtOfEt e) : VecOp }
  let val := fun (f : FloatFmt) (r : VReg) (k : Nat) => f.value (s.ve r k f.width)
  let conv := fun (d a : VReg) (p : PReg) (src : ET) (sat : Bool) (dst : ET) =>
    some { d := d, p := p, w := dst.width, n := s.hart.count (max src.width dst.width)
           unit := some (s.hart.groupOf (max src.width dst.width))
           f := fun k => convertElem src dst sat m (sr k) (s.ve a k src.width) : VecOp }
  match i with
  | .vfadd d a b p e => op d p e fun f k => f.add m (val f a k) (val f b k) (sr k)
  | .vfsub d a b p e => op d p e fun f k => f.add m (val f a k) (val f b k).negate (sr k)
  | .vfmul d a b p e => op d p e fun f k => f.mul m (val f a k) (val f b k) (sr k)
  | .vfma d a b p e => op d p e fun f k => f.fma m (val f a k) (val f b k) (val f d k) (sr k)
  | .vfnma d a b p e => op d p e fun f k => f.fma m (val f a k).negate (val f b k) (val f d k) (sr k)
  | .vfdiv d a b p e => op d p e fun f k => f.div m (val f a k) (val f b k) (sr k)
  | .vfsqrt d a p e => op d p e fun f k => f.sqrt m (val f a k) (sr k)
  | .vfmin d a b p e => op d p e fun f k => f.minMax false (s.ve a k f.width) (s.ve b k f.width)
  | .vfmax d a b p e => op d p e fun f k => f.minMax true (s.ve a k f.width) (s.ve b k f.width)
  | .vfclass d a p e => op d p e fun f k => (f.classify (s.ve a k f.width), noFlags)
  | .vtbl d a t p e =>
    (op d p e fun f k =>
      let r := f.convert m (tableResult (s.cluster.tables.get t) (val f a k)) (sr k)
      (r.1, r.2 ||| flagIf (val f a k).isSNaN flagNV)).map fun o => { o with unit := none }
  | .vcvt d a p src sat dst => conv d a p src sat dst
  | .vfcvt d a p src dst => conv d a p src false dst
  | .vbcast d a p e =>
    some { d := d, p := p, w := e.width, n := s.hart.permCount e, unit := some (s.hart.groupOf e.width)
           f := fun _ => (bcastValue e (s.getX a), noFlags) }
  | .vmv d a p e =>
    some { d := d, p := p, w := e.width, n := s.hart.permCount e, unit := some (s.hart.groupOf e.width)
           f := fun k => (s.ve a k e.width, noFlags) }
  | .vidx d p e =>
    some { d := d, p := p, w := e.width, n := s.hart.count e.width, unit := some (s.hart.groupOf e.width)
           f := fun k => if e.isFloat then (fmtOfEt e).convert m (FVal.ofInt k) (sr k) else (k % 2 ^ e.width, noFlags) }
  | _ => none

/-- What a LNS6 block instruction makes of element `k` (R138, R139). -/
def State.lnsOp (s : State) (i : Instr) : Option (VReg × PReg × (Nat → Lns × Flags)) :=
  match i with
  | .vlnspack d a p => some (d, p, fun k => toLns (s.fv fmt32 a k) s.hart.effRmode (s.hart.sr k))
  | .vlnsmul d a b p => some (d, p, fun k => ((s.lnsAt a k).mul (s.lnsAt b k), noFlags))
  | .vlnsadd d a b p => some (d, p, fun k => ((s.lnsAt a k).add (s.lnsAt b k), noFlags))
  | .vscale d a b p => some (d, p, fun k => ((s.lnsAt a k).scale (s.vblock b (k / 20)), noFlags))
  | _ => none

/-- Block `k` of a LNS6 result: twenty elements repacked, those past `VL`.LEN zero (R138). -/
def State.lnsBlock (s : State) (f : Nat → Lns × Flags) (k : Nat) : Nat × Flags :=
  let es := (List.range 20).map fun q => if 20 * k + q < s.hart.len then f (20 * k + q) else (Lns.zero, noFlags)
  ((repack (es.map (·.1))).1, (repack (es.map (·.1))).2 ||| orAll (es.map (·.2)))

/-- What a permutation writes: destination, predicate, type, and the bytes of unit `k`, none where it writes none (R358, R371,
R375). -/
def State.permOp (s : State) (i : Instr) : Option (VReg × ET × (Nat → Option (List Byte))) :=
  let n := s.hart.permCount
  let act := fun (p : PReg) (e : ET) => (List.range (n e)).filter (s.hart.pred p)
  match i with
  | .vperm d a b p e =>
    let idx := fun k => s.ve b k (if e = .lns6 then 32 else e.width)
    some (d, e, fun k => if s.onAll p (n e) k then some (if idx k < n e then s.unit a e (idx k) else permZero e) else none)
  | .vslideup d a b p e =>
    some (d, e, fun k =>
      if s.onAll p (n e) k && decide ((s.getX b).toNat ≤ k) then some (s.unit a e (k - (s.getX b).toNat)) else none)
  | .vslidedn d a b p e =>
    some (d, e, fun k =>
      if s.onAll p (n e) k then
        some (if k + (s.getX b).toNat < n e then s.unit a e (k + (s.getX b).toNat) else permZero e)
      else none)
  | .vcompress d a p e => some (d, e, fun j => (act p e)[j]?.map (s.unit a e))
  | .vexpand d a p e =>
    some (d, e, fun k => if s.onAll p (n e) k then some (s.unit a e ((act p e).idxOf k)) else none)
  | _ => none

/-- Of a load or store of vector memory: its register, predicate, width and class, whether it stores, the units of a group it may
stop at, and the address of unit `i`, its index as it was before any unit was written; a `vldx` of blocks over its own indices stops
nowhere (R222, R365, R366). -/
def State.vmemOp (s : State) (i : Instr) : Option (VReg × PReg × EW × Slot × Bool × Option Nat × (Nat → Nat)) :=
  let grp := fun w : EW => some (s.hart.groupOf (8 * ewBytes w))
  let at1 := fun (a : XReg) (o : Nat → Word) (k : Nat) => (s.getX a + o k).toNat
  let unitO := fun (w : EW) (k : Nat) => BitVec.ofNat 64 (k * ewBytes w)
  let strideO := fun (b : XReg) (k : Nat) => BitVec.ofNat 64 k * s.getX b
  let indexO := fun (b : VReg) (w : EW) (k : Nat) => BitVec.ofNat 64 (elem (s.indexBytes b) k (indexBits w))
  match i with
  | .vld d a p w c => some (d, p, w, c, false, grp w, at1 a (unitO w))
  | .vlds d a b p w c => some (d, p, w, c, false, grp w, at1 a (strideO b))
  | .vldx d a b p w c =>
    some (d, p, w, c, false, if w = .blk ∧ (d = b ∨ s.copyV b) then none else grp w, at1 a (indexO b w))
  | .vst d a p w c => some (d, p, w, c, true, grp w, at1 a (unitO w))
  | .vsts d a b p w c => some (d, p, w, c, true, grp w, at1 a (strideO b))
  | .vstx d a b p w c => some (d, p, w, c, true, grp w, at1 a (indexO b w))
  | _ => none

/-! ### Tiles and the matrix unit (R109, R117, R140 to R144, R328) -/

/-- The bytes a reader of a tile gets: a held value, zeros of an Undefined tile, the backing of an Absent one (R109, R110). -/
def State.tileValue (s : State) (t : TReg) : Bytes :=
  match s.hart.tile t with
  | .clean b | .dirty b => b
  | .undefined => []
  | .absent => Bytes.put [] 0 (s.reads (backing s.hart.mapbase t.val) tileSize)

/-- A tile can be read: an Absent one's backing is readable and translates (R119). -/
abbrev State.tileReady (s : State) (t : TReg) : Prop :=
  s.hart.tile t = .absent → s.tileMay t false = true ∧ s.translates (backing s.hart.mapbase t.val) tileSize

/-- The cluster's tile store has `n` slots that the hart in front may take: free ones, of those reserved for it or of the shared
ones (R11, R114). -/
abbrev State.slotsFor (s : State) (n : Nat) : Prop :=
  (s.storeHarts.map Hart.slots).sum + n ≤ 4096 ∧ (s.hart.slots + n ≤ 16 ∨ s.sharedSlots.2 + n ≤ s.sharedSlots.1)

/-- `t` differs from `s` in the tiles of the current context, UR and access counters alone, and not in the tiles outside
`ts`. -/
abbrev onlyTiles (s t : State) (ts : List TReg) : Prop :=
  t = { s with leaves := t.leaves, hart := { s.hart with ctxs := t.hart.ctxs, ur := t.hart.ur } }
    ∧ ∀ q, q ∉ ts → t.hart.tile q = s.hart.tile q

/-- One element of an accumulator through the K-steps: row `i` of A by row `j` of B, from the values `v` and `c`. -/
def mmaElem (f : Fmt) (comp : Bool) (len : Nat) (a b : List (List (List Byte))) (steps : List Nat) (i j v c : Nat) :
    Nat × Nat × Flags :=
  steps.foldl
    (fun p st =>
      let ks := stepIndices f len st
      let r := accumulate f comp p.1 p.2.1 (stepSum (walkElems f a ks i) (walkElems f b ks j))
      (r.1, r.2.1, p.2.2 ||| r.2.2))
    (v, c, noFlags)

/-- Word `x` of a tile's bytes. -/
def tileWord (b : Bytes) (x : Nat) : Nat := b.val (4 * x) 4

/-- `t` is `s` after a matrix multiply of the walked tiles `as`, with the rows `b`: the accumulator's 1,024 words (and the
second accumulator's under `comp`) are those of the K walk, the tiles `dead` are Undefined, the other tiles that are neither
read nor written stay, and the flags and the step count are added. -/
def multiplied (s t : State) (f : Fmt) (td : AReg) (as bs dead : List TReg) (b : List (List (List Byte))) : Prop :=
  let d : TReg := Fin.ofNat 256 td.val
  let comp := s.hart.lentE0
  let len := s.hart.len
  let steps := kSteps f len s.hart.start
  let a := as.map fun q => tileRows (s.tileValue q)
  let ds := if comp then [d, tileAfter d 1] else [d]
  let r := fun x : Nat =>
    mmaElem f comp len a b steps (x / 32) (x % 32) (tileWord (s.tileValue d) x)
      (if comp then tileWord (s.tileValue (tileAfter d 1)) x else 0)
  (∀ x < 1024, tileWord (t.tileValue d) x = (r x).1 % 2 ^ 32
      ∧ (comp = true → tileWord (t.tileValue (tileAfter d 1)) x = (r x).2.1 % 2 ^ 32))
    ∧ (∀ q ∈ dead, q ∉ ds → t.hart.tile q = .undefined)
    ∧ (∀ q, q ∉ as → q ∉ bs → q ∉ ds → t.hart.tile q = s.hart.tile q)
    ∧ t = { s with
        leaves := t.leaves
        hart := { s.hart.addUnits steps.length with
          ctxs := t.hart.ctxs, ur := t.hart.ur
          status := s.hart.status ||| (orAll ((List.range 1024).map fun x => (r x).2.2)).setWidth 64 } }.vfalls

/-- Stores of a list of addresses and bytes have happened in order, in memory or in the open strip. -/
def State.wroteAll (s : State) (xs : List (Nat × List Byte)) (c : Fin 16) : State :=
  xs.foldl (fun t x => t.wrote x.1 x.2 c) s

/-- The open strip has room for all of a list of stores, or none is open. -/
abbrev State.roomForAll (s : State) (xs : List (Nat × List Byte)) (c : Fin 16) : Prop :=
  s.hart.inStrip = true →
    (granules (s.hart.strip ++ xs.map fun x => buffered x.1 x.2 c)).length
      ≤ s.hart.lanes * 512

/-- A tile of the hart in front has become `x`. -/
def State.withTile (s : State) (t : TReg) (x : Tile) : State := { s with hart := s.hart.setTile t x }

/-! ### Decisions of the governor (R270 to R272) -/

/-- An open step is at risk at a decision: work is left, and its deadline has passed or would not be met at the highest point `top`
that is permitted (R271). -/
def Hart.risks (h : Hart) (now : Word) (span cur top : Nat) : Bool :=
  match h.step with
  | none => false
  | some st => decide (h.dlnDone < st.estimate.toNat) && ((st.deadline - now.setWidth 32).msb || !h.meets now span cur top)

/-- `t` is `s0` after a decision of the governor of the cluster in front whose second pass gives it `granted` tokens, the last
periodic one being at `last`. Others first give back what the first pass lacks; it is offered what its tenant is sure of, or what
it needs of the grant, within the package's budget, and keeps what the point picked needs; that point is its target where it
differs; each hart of the cluster begins a new interval, and one whose step is at risk has `DLNRISK` pending, once a step (R270 to
R272). Nothing else differs. -/
def decidedAs (s0 t : State) (granted : Nat) (last : Word) : Prop :=
  let s := s0.heatFreed
  let g := s.cluster.gov
  let heat := min (max s.heatSure (min granted s.heatWanted)) (12800 - s.heatElsewhere)
  let now := s.cluster.refTick
  let span := (now - g.since).toNat
  let cur := pointFreq g.point.val
  let p := pickPoint s.clusterHarts heat now span cur
  let top := (((List.range 16).filter fun q => pointTokens q ≤ heat).getLast?).getD 0
  let upd := fun h : Hart =>
    if h.name.cluster ≠ s.hart.name.cluster then h
    else
      let new := h.risks now span cur top && !h.dlnRisk
      { h with retired := 0, dlnRisk := h.dlnRisk || new, status := if new then h.status ||| 0x100 else h.status }
  t = { s with
      hart := upd s.hart, others := s.others.map upd
      cluster := { s.cluster with gov := { g with
        heat := min heat (pointTokens p), since := now, last := last, target := if p = g.point.val then none else some (Fin.ofNat 16 p) } } }

end Sys2Proof.Machine
end

