-- ==== Sys2Proof/Certificates/Slice0/Obligations.lean ====
section
/-! DEFINITION. The statements for the provers. Each says of a meaning what the rules of the spec say: the next state it
answers, what it leaves unchanged, and where it traps. -/

open Sys2Proof Sys2Proof.Machine

/-! ### Stepping, decoding, reset, invariant -/

/-- A step with no turn ahead fetches at the pc of a hart that attends to its instructions, and is `exec` of the decoded
instruction on the state with the fetch counted; a word that decodes to none runs as `illegal`. A turn that would access a page
marked busy waits, the machine as it was; any other has its effect (R52, R78, R171, R291). The premise that nothing waits to
perform is log entry 10's. -/
def Obligations.StepRunsDecodedInstruction : Prop :=
  ∀ s : State, s.agenda = [] → s.prompt → s.attend = .instruction → s.translates s.hart.pc.toNat 4 →
    s.hart.task.mayFetch s.hart.pc.toNat = true →
    let w : IWord := BitVec.ofNat 32 (leVal (s.reads s.hart.pc.toNat 4))
    let u := s.counted s.hart.pc.toNat 4
    (∀ i, decodeWord w = .ok i → i.wf = true ∧ step s = unlessBusy s s (exec i u))
      ∧ (∀ e, decodeWord w = .error e → step s = unlessBusy s s (exec (.illegal w) u))
      ∧ (∀ t, unlessBusy s s (.next t) = .next (if s.metBusy t then s else t))
      ∧ ∀ t, s.metBusy t = true ↔
        ∃ l ∈ s.leaves, l.busy = true ∧ ∃ k ∈ t.leaves, k.asid = l.asid ∧ k.va = l.va ∧ l.accesses < k.accesses

/-- A turn of the agenda: a step of the device happens with the hart it names in front, and one that stands for an instruction
word does not; the command that arrives is run; the hart named takes its turn, whole, up to a stop point, or leaving what it may
for later; some elements of its oldest queued access perform; the reference counter of a cluster advances; a port reaches a peer,
which is then not absent; a soft error leaves no valid leaf for an address; a hart the package does not have stops the machine
(R11, R12, R86, R167, R183, R230, R245, R268). A turn that would access a page marked busy waits: what arrived, or the device
began, comes again behind the others, and a hart issues again (R171). The agenda is the model's own schedule (log entry 10). -/
def Obligations.AgendaTurnsHappenInOrder : Prop :=
  ∀ (s : State) (r : List Turn),
    let s1 : State := { s with agenda := r }
    let again : Turn → State := fun t => { s with agenda := r ++ [t] }
    (∀ n i, hartExists n = true → s.agenda = .event n i :: r →
        (encodeNat i = none → (∀ w, i ≠ .illegal w) → i ∉ [Instr.kVersion, .kYield, .kRequestUnknown, .dlnRisk] →
          step s = unlessBusy s (again (.event n i)) (exec i (s1.focus n)))
        ∧ ((encodeNat i).isSome = true → step s = unlessBusy s (again (.event n i)) (.next (s1.focus n))))
      ∧ (∀ n bs ps ch i, hartExists n = true → s.agenda = .command n bs ps ch :: r → commandOf bs ps ch = some i →
        step s = unlessBusy s (again (.command n bs ps ch)) (exec i (s1.focus n)))
      ∧ (∀ n, hartExists n = true → s.agenda = .hart n :: r → step s = unlessBusy s s1 (hartStep (s1.focus n)))
      ∧ (∀ n k t, hartExists n = true → s.agenda = .part n k :: r → hartStep { s1.focus n with how := .part k } = .next t →
        step s = unlessBusy s s1 (.next { t with how := .whole }))
      ∧ (∀ n t, hartExists n = true → s.agenda = .late n :: r → hartStep { s1.focus n with how := .late } = .next t →
        step s = unlessBusy s s1 (.next { t with how := .whole }))
      ∧ (∀ n es, hartExists n = true → s.agenda = .elems n es :: r →
        step s = unlessBusy s s1 (.next ((s1.focus n).turnElems es)))
      ∧ (∀ w t, unlessBusy s w (.next t) = .next (if s.metBusy t then w else t))
      ∧ (∀ n, hartExists n = false → ∀ i k,
        s.agenda = .event n i :: r ∨ s.agenda = .hart n :: r ∨ s.agenda = .part n k :: r ∨ s.agenda = .late n :: r →
        step s = .fault .noSuchHart)
      ∧ (∀ k, (∀ l ∈ s.leaves, l.busy = false) → s.agenda = .tick s.cluster.num k :: r →
        step s = .next { s with
          agenda := r, cluster := { s.cluster with refTick := s.cluster.refTick + BitVec.ofNat 64 k } })
      ∧ (∀ f, (∀ l ∈ s.leaves, l.busy = false) → s.agenda = .reached f :: r → (∃ p ∈ s.ports.toList, p ≠ 0) →
        step s = .next { s with agenda := r, absent := s.absent.filter fun k => k ≠ f })
      ∧ ∀ asid va, (∀ l ∈ s.leaves, l.busy = false) → s.agenda = .softError asid va :: r →
        ∃ t, step s = .next t ∧ t.leafAt asid va = none ∧ t.hart = s.hart ∧ t.mem = s.mem

/-- Decoding the word of a well-formed instruction gives it back, for every instruction that has a word (R52 to R77). -/
def Obligations.DecodeOfEncodeIsIdentity : Prop :=
  ∀ (i : Instr) (w : IWord), i.wf = true → encode i = some w → decodeWord w = .ok i

/-- A word that decodes is the encoding of what it decodes to: the decoder drops no bit (R52 to R78). -/
def Obligations.EncodeOfDecodeIsIdentity : Prop :=
  ∀ (w : IWord) (i : Instr), decodeWord w = .ok i → encode i = some w

/-- Words written out from the tables of R53 and R66 to R77 decode to their instructions. -/
def Obligations.SampleWordsDecode : Prop :=
  (∀ p ∈ [((0x04A63800 : IWord), Instr.add 5 6 7), (0x08000000, .nop), (0x1CA60084, .srai 5 6 4),
      (0x20A620FC, .ins 5 6 3 60), (0x380D000C, .loop 13 12), (0x4CA10008, .ld .n64 5 1 8),
      (0x72298033, .amoMin 17 9 16 0 true), (0x741F1033, .csrw 0 31 0x033), (0x78000000, .ecall), (0x7C000034, .pfx 0x34),
      (0x854020A0, .vsetvli 10 1 160), (0x8A43208C, .vcmp .lt 2 3 4 0 .s32 false), (0x8CA63803, .vfma 5 6 7 0 .f32),
      (0x90C7008D, .vcvt 6 7 0 .s32 true .s16), (0x95AC0060, .vlnspack 13 12 0), (0x98A63882, .vslidedn 5 6 7 0 .s32),
      (0xA1270048, .vld 9 7 0 .b32 1), (0xA5B90090, .vst 13 25 0 .blk 2), (0xA865206E, .vamoSwap 3 5 4 0 true 1),
      (0xAC020000, .sbegin 2), (0xC04080C4, .mma .bf16 4 8 12 0), (0xD0108A57, .mmats .lns6 1 8 20 21),
      (0xD824AB0B, .mld 9 5 11 1 true), (0xDC010052, .mmov 16 5 true), (0xE034CC00, .cpy 0 13 6 12),
      (0xE8000002, .texit), (0xED391000, .rput 2 14 8 16), (0xF04E8008, .dln 19 20)],
      decodeWord p.1 = .ok p.2)
    ∧ decodeWord 0x00000000 = .error .reservedMajor ∧ decodeWord 0xFFFFFFFF = .error .reservedMajor

/-- After reset the registers hold the values their bit tables give: `VL`, `CLASSMAP`, `STATUS`, `TKEXP`, `CLWIN` and the zeros of
`VSTART`, `SEED`, `STRIPBASE`, `RMODE`, `PFXSTATE`, `CAUSE`, `EPC`, `TVAL`, `STRIPFAULT` and `CLSTAT`; every scalar register of
the hart reads zero, and no hart is bound (R85, R104, R122, R210, R238, R254). The zeros of the scalar registers are the model's
choice (log entry 2). -/
def Obligations.ResetRegisterValues : Prop :=
  let h := State.reset.hart
  h.vl = 0x8000 ∧ h.vstart = 0 ∧ h.classmap = 0xF210 ∧ h.status = 0x400 ∧ h.tkexp = 100000 ∧ h.clwin = 2048
    ∧ h.seed = 0 ∧ h.stripbase = 0 ∧ h.rmode = 0 ∧ h.pfxstate = 0 ∧ h.cause = 0 ∧ h.epc = 0 ∧ h.tval = 0
    ∧ h.stripfault = 0 ∧ h.clstat = 0 ∧ (∀ r, h.getX r = 0) ∧ h.bound = false ∧ State.reset.others = []

/-- The invariant holds after reset: memory canonical, every leaf at a page boundary, and no image with a page that is not (R164,
R168, R282; the canonical form is the model's, log entry 1). -/
def Obligations.InvariantHoldsAtReset : Prop := State.reset.Inv

/-- Every step that answers a next state keeps the invariant: memory stays canonical, every leaf and every page of an image sealed
here, kept as a baseline or still to arrive stands at a page boundary (R164, R168, R282; the canonical form is the model's, log
entry 1). -/
def Obligations.StepKeepsInvariant : Prop := ∀ s t : State, s.Inv → step s = .next t → t.Inv

/-- Every instruction and every step of the device answers a next state: none faults, none is refused (R78: a word that is no
instruction traps). It is the model's own claim of totality: that an instruction which waits answers the state it waits in is log
entry 11, and that a device step whose operands name nothing leaves the state is log entry 13. -/
def Obligations.EveryInstructionAnswersNextState : Prop := ∀ (i : Instr) (s : State), ∃ t, exec i s = .next t

/-! ### Scalar instructions -/

/-- A write of a scalar register is read back, `x0` reads zero whatever is written to it, and no other register changes (R3). -/
def Sys2Proof.Says.RegisterWriteReadsBack : Prop :=
  ∀ (s : State) (d r : XReg) (w : Word),
    ((s.holds d w).getX r = if r = 0 then 0 else if r = d then w else s.getX r)
      ∧ (s.setX d w).getX r = (s.holds d w).getX r

/-- The ALU and immediate instructions and `nop` write their result to their destination alone, and fall through: no other
register, flag, special register or byte of memory changes (R292, R293, R295, R307, R319, R336, R347). -/
def Sys2Proof.Says.ScalarResultsAndFrame : Prop :=
  ∀ (i : Instr) (s : State) (d : XReg) (w : Word),
    i.wf = true → s.scalarResult i = some (d, w) → s.mayFall → exec i s = .next (s.holds d w).falls

/-- A branch whose condition holds jumps to its target, another falls through; nothing else changes (R296, R318). -/
def Sys2Proof.Says.BranchesJumpOrFallThrough : Prop :=
  ∀ (i : Instr) (s : State) (c : Bool) (t : Word), s.branchOf i = some (c, t) →
    (c = true → s.hart.task.mayFetch t.toNat = true → exec i s = .next (s.jumps t))
      ∧ (c = false → s.mayFall → exec i s = .next s.falls)

/-- `jal` and `jalr` write the address of the next word to their link register and jump (R312, R313). -/
def Sys2Proof.Says.JumpsLinkAndJump : Prop :=
  ∀ (i : Instr) (s : State) (d : XReg) (t : Word), s.jumpOf i = some (d, t) → s.hart.task.mayFetch t.toNat = true →
    exec i s = .next ((s.holds d (s.hart.pc + 4)).jumps t)

/-- A loop instruction with a count pushes its entry; with count 0 the hart goes on as if the last word of the body had fallen
through; with three entries, or past the end of the innermost one, it traps `ILLEGAL` (R316, R317). -/
def Obligations.LoopsPushAnEntry : Prop :=
  ∀ (i : Instr) (s : State) (n : Word) (len : Nat), s.loopOf i = some (n, len) →
    let e := s.hart.pc + BitVec.ofNat 64 (4 * len)
    let inner := ∀ l, s.hart.loops.head? = some l → e.toNat ≤ l.e.toNat
    (s.hart.loops.length < 3 → inner → n ≠ 0 → s.hart.task.mayFetch (s.hart.pc + 4).toNat = true →
        exec i s = .next (s.goes (s.hart.pc + 4) ({ s := s.hart.pc + 4, e := e, count := n } :: s.hart.loops)))
      ∧ (s.hart.loops.length < 3 → inner → n = 0 →
        let r := loopEnd e s.hart.loops
        s.hart.task.mayFetch (r.2.getD (e + 4)).toNat = true → exec i s = .next (s.goes (r.2.getD (e + 4)) r.1))
      ∧ (3 ≤ s.hart.loops.length ∨ ¬inner → exec i s = .next (s.illegal i))

/-- Where an instruction would go on outside the exec sections the task ends with cause `LEASE` and the address in `TVAL`, the
effect of the instruction done: a branch or a jump at its target, and any word that falls through at the address after it. Every
meaning falls through by `State.retire` or, with `VSTART` 0, by `State.vretire`; of the words that write registers alone, load,
store and read state registers each is stated. The record names the word itself (R291; which pc it names is the model's
reading, log entry 14). A hart that stands outside the exec sections fetches nothing there: its task ends. -/
def Obligations.LeavingExecSectionsEndsTask : Prop :=
  ∀ (i : Instr) (s : State) (t : Word),
    (s.branchOf i = some (true, t) → s.hart.task.mayFetch t.toNat = false → exec i s = .next (s.terminate 0x20 t 0 0))
      ∧ (s.branchOf i = some (false, t) → s.hart.task.mayFetch s.fallPc.toNat = false →
        exec i s = .next (s.terminate 0x20 s.fallPc 0 0))
      ∧ (∀ d, s.jumpOf i = some (d, t) → s.hart.task.mayFetch t.toNat = false →
        exec i s = .next ((s.holds d (s.hart.pc + 4)).terminate 0x20 t 0 0))
      ∧ (s.hart.task.mayFetch s.fallPc.toNat = false →
        s.retire = s.terminate 0x20 s.fallPc 0 0
          ∧ s.vretire = { s with hart := { s.hart with vstart := 0 } }.terminate 0x20 s.fallPc 0 0
          ∧ (∀ d w, i.wf = true → s.scalarResult i = some (d, w) →
            exec i s = .next ((s.holds d w).terminate 0x20 s.fallPc 0 0))
          ∧ (∀ d r, s.hart.csrOk r = true →
            exec (.csrr d r) s = .next ((s.holds d (s.csr r.toNat)).terminate 0x20 s.fallPc 0 0))
          ∧ (∀ (w : Fin 4) d a (imm : BitVec 16), let va := (s.getX a + imm.signExtend 64).toNat
            s.how = .whole → s.canWrite va (2 ^ w.val) → s.stripRoom va (lowBytes (2 ^ w.val) (s.getX d)) (s.hart.effClass 0) →
              exec (.st w d a imm) s
                = .next ((s.wrote va (lowBytes (2 ^ w.val) (s.getX d)) (s.hart.effClass 0)).terminate 0x20 s.fallPc 0 0))
          ∧ (∀ d a (imm : BitVec 16), let va := (s.getX a + imm.signExtend 64).toNat
            s.how = .whole → s.hart.loaded = [] → s.canRead va 8 →
              exec (.ld .n64 d a imm) s
                = .next (((s.counted va 8).holds2 d (if d = 0 then 0 else BitVec.ofNat 64 (leVal (s.seesNow va 8)))).terminate
                  0x20 s.fallPc 0 0))
          ∧ ∀ op, i.wf = true → (s.intVecOp i = some op ∨ s.fpVecOp i = some op) → s.how = .whole → s.compute →
            ∃ u : State, exec i s = .next (u.terminate 0x20 s.fallPc 0 0) ∧ u.hart.pc = s.hart.pc ∧ u.hart.vstart = 0 ∧ u.mem = s.mem)
      ∧ (s.attend = .instruction → s.nothingLeft = true → s.hart.task.mayFetch s.hart.pc.toNat = false →
        hartStep s = .next (s.terminate 0x20 s.hart.pc 0 0))

/-- No branch and no jump is prefixable, and the condition codes 6 and 7 of a branch are no instruction (R78, R296, R312, R313).
-/
def Sys2Proof.Says.BranchAndJumpWords : Prop :=
  (∀ (i : Instr) (s : State) (w : IWord) (ah : Bool) (f : Nat), (s.branchOf i).isSome = true ∨ (s.jumpOf i).isSome = true →
      encode i = some w → acceptsWord ah w f = false)
    ∧ ∀ w : IWord, w.toNat / 2 ^ 26 = 0x0B → 6 ≤ w.toNat / 2 ^ 13 % 8 → decodeWord w = .error .reservedCode

/-! ### Scalar memory -/

/-- `ld` writes what the hart sees at x[xa] + imm, extended, to its destination, and x[xd] to the copy a prefix asks for, which is
0 with `x0`; it falls through (R314). A turn that goes up to a stop point inside leaves a load that crosses a granule between the
two: the bytes of the first granule are read, with every byte checked, and its next turn reads the others and completes it
(R156; the turn is log entry 10's). -/
def Sys2Proof.Says.LoadsReadMemory : Prop :=
  ∀ (w : LdW) (d a : XReg) (imm : BitVec 16) (s : State),
    let va := (s.getX a + imm.signExtend 64).toNat
    let v := leVal (s.seesNow va (ldBytes w))
    let res : Word := match w with
      | .s8 => BitVec.ofInt 64 (if v < 2 ^ 7 then v else v - 2 ^ 8)
      | .s16 => BitVec.ofInt 64 (if v < 2 ^ 15 then v else v - 2 ^ 16)
      | .s32 => BitVec.ofInt 64 (if v < 2 ^ 31 then v else v - 2 ^ 32)
      | _ => BitVec.ofNat 64 v
    let n := ldBytes w
    let k := 16 - va % 16
    (s.hart.loaded = [] → ((∀ j, s.how ≠ .part j) ∨ n ≤ k) → s.canRead va n → s.mayFall →
      exec (.ld w d a imm) s = .next ((s.counted va n).holds2 d (if d = 0 then 0 else res)).falls)
    ∧ (∀ j, s.hart.loaded = [] → s.how = .part j → k < n → s.canRead va n →
      exec (.ld w d a imm) s
        = .next { s.counted va k with hart := { s.hart with loaded := s.seesNow va k } })
    ∧ (s.hart.loaded.length = k → k < n → s.canRead (va + k) (n - k) → s.mayFall →
      let v := leVal (s.hart.loaded ++ s.seesNow (va + k) (n - k))
      exec (.ld w d a imm) s
        = .next (({ s.counted (va + k) (n - k) with hart := { s.hart with loaded := [] } } : State).holds2 d
          (if d = 0 then 0 else match w with
            | .s8 => BitVec.ofInt 64 (if v < 2 ^ 7 then v else v - 2 ^ 8)
            | .s16 => BitVec.ofInt 64 (if v < 2 ^ 15 then v else v - 2 ^ 16)
            | .s32 => BitVec.ofInt 64 (if v < 2 ^ 31 then v else v - 2 ^ 32)
            | _ => BitVec.ofNat 64 v)).falls)

/-- `st` writes the low bytes of x[xd] at x[xa] + imm, to memory or to the open strip, and falls through; a turn that leaves it to
perform later only issues it: its bytes wait, with its class, its pc and the number of queued instructions it is younger than, and
outside a strip nothing else comes of it (R86, R219, R348; the turn is log entry 10's). -/
def Sys2Proof.Says.StoresWriteMemory : Prop :=
  ∀ (w : Fin 4) (d a : XReg) (imm : BitVec 16) (s : State),
    let va := (s.getX a + imm.signExtend 64).toNat
    let bs := lowBytes (2 ^ w.val) (s.getX d)
    s.canWrite va (2 ^ w.val) → s.mayFall →
      (s.how ≠ .late → s.stripRoom va bs (s.hart.effClass 0) →
        exec (.st w d a imm) s = .next (s.wrote va bs (s.hart.effClass 0)).falls)
      ∧ (s.how = .late → s.outside → exec (.st w d a imm) s = .next ({ s with
          hart := { s.hart with
            late := s.hart.late
              ++ [.store (BitVec.ofNat 64 va) bs (s.hart.effClass 0) s.hart.pc s.hart.vqueue.length] } } : State).falls)
      ∧ (s.how = .late → s.hart.inStrip = true → s.hart.late = [] → s.stripRoom va bs (s.hart.effClass 0) →
        exec (.st w d a imm) s = .next ({ s with
          hart := { s.hart with
            late := [.store (BitVec.ofNat 64 va) bs (s.hart.effClass 0) s.hart.pc s.hart.vqueue.length] } } : State).falls)

/-- A store to memory changes the bytes it stores to and no other byte; its own bytes read back (R348; of `Bytes.putRuns`). -/
def Obligations.MemoryWriteFrame : Prop :=
  ∀ (m : Bytes) (rs : List (Nat × Nat)) (bs : List Byte),
    (∀ k, ¬inRuns rs k → (m.putRuns rs bs).get k = m.get k)
      ∧ (apart rs → (rs.map (·.2)).sum = bs.length → (m.putRuns rs bs).getRuns rs = bs)

/-- The runs of an access are its bytes, one by one: byte `k` of what is read is the byte at its own translation, where every leaf
stands at a page boundary (R164, R167). -/
def Obligations.RunsAreTheBytesInOrder : Prop :=
  ∀ (s : State) (va n k : Nat), (∀ l ∈ s.leaves, l.aligned) → s.translates va n → k < n →
    ∃ key, s.translate s.hart.task.asid (va + k) = some key
      ∧ (s.mem.getRuns (s.keys va n))[k]? = some (s.mem.get key)

/-- `lda` and `stl`, aligned and outside a strip, load and store as `ld` zero-extended and `st` do (R315, R349). -/
def Sys2Proof.Says.AcquireLoadsAndReleaseStores : Prop :=
  ∀ (d a b : XReg) (c : Slot) (w : Fin 4) (s : State),
    let va := (s.getX a).toNat
    s.outside → va % 2 ^ w.val = 0 → s.mayFall →
      (s.canRead va (2 ^ w.val) →
        exec (.lda d a c w) s
          = .next ((s.counted va (2 ^ w.val)).holds2 d (BitVec.ofNat 64 (leVal (s.seesNow va (2 ^ w.val))))).falls)
      ∧ (s.canWrite va (2 ^ w.val) →
        exec (.stl a b c w) s = .next (s.wrote va (lowBytes (2 ^ w.val) (s.getX b)) (s.hart.effClass c)).falls)

/-- `cas` and the nine `amo` words read the old value, write the new one where there is one, and return the old one; the package
has dropped its cached copy of the line (R294, R298). -/
def Sys2Proof.Says.ScalarAtomicsReadModifyWrite : Prop :=
  ∀ (i : Instr) (s : State) (d a : XReg) (n : Nat) (f : Nat → Option Nat), s.atomicOf i = some (d, a, n, f) →
    let va := (s.getX a).toNat
    let old := leVal (s.mem.getRuns (s.keys va n))
    let u := s.uncached va n
    s.outside → va % n = 0 → s.canWrite va n → s.mayFall →
      exec i s = .next ((match f old with | some v => u.wroteMem va (leBytes n v) | none => u.counted va n).holds2 d
        (BitVec.ofNat 64 old)).falls

/-- A misaligned scalar atomic, `lda` or `stl` outside a strip takes the exception `VAMOALIGN` with its address, before any access
(R294, R298, R315, R349). -/
def Sys2Proof.Says.MisalignedAtomicsTrap : Prop :=
  ∀ (s : State), s.outside →
    (∀ i d a n f, s.atomicOf i = some (d, a, n, f) → (s.getX a).toNat % n ≠ 0 →
        exec i s = .next (s.raise 0x12 (s.getX a)))
      ∧ (∀ d a c w, (s.getX a).toNat % 2 ^ w.val ≠ 0 → exec (.lda d a c w) s = .next (s.raise 0x12 (s.getX a)))
      ∧ ∀ a b c w, (s.getX a).toNat % 2 ^ w.val ≠ 0 → exec (.stl a b c w) s = .next (s.raise 0x12 (s.getX a))

/-- A load or store that the lease refuses ends the task with cause `LEASE`, and `TVAL` is the address of the first byte that is
refused, wherever it stands in the access; no byte performs (R177). -/
def Sys2Proof.Says.LeaseFailuresEndTask : Prop :=
  ∀ (a d : XReg) (imm : BitVec 16) (s : State) (k : Nat),
    let va := s.getX a + imm.signExtend 64
    let bad := BitVec.ofNat 64 (va.toNat + k)
    (∀ w, s.hart.loaded = [] → k < ldBytes w → (∀ j < k, s.hart.task.mayRead (va.toNat + j) = true) →
        s.hart.task.mayRead (va.toNat + k) = false →
        exec (.ld w d a imm) s = .next (s.terminate 0x20 bad 0 0))
      ∧ ∀ w : Fin 4, k < 2 ^ w.val → (∀ j < k, s.hart.task.mayWrite (va.toNat + j) = true) →
        s.hart.task.mayWrite (va.toNat + k) = false → exec (.st w d a imm) s = .next (s.terminate 0x20 bad 0 0)

/-! ### Exceptions and the system instructions -/

/-- Taking an exception: with `TVEC` set, the hart enters level K, an open strip discarded first and the lent bits of a prefix
saved; with `TVEC` 0 the task ends with the cause (R64, R207, R214, R221). -/
def Obligations.ExceptionEntersLevelK : Prop :=
  ∀ (s : State) (cause : Nat) (tval : Word),
    (s.hart.tvec = 0 → s.raise cause tval = s.terminate cause tval 0 0)
      ∧ (s.hart.tvec ≠ 0 →
        entered (if s.hart.inStrip then stripDiscarded s else s) (s.raise cause tval) (BitVec.ofNat 64 cause) tval
          (s.hart.lent.getD 0) s.hart.lent.isSome)

/-- Termination where no instruction of the scalar stream raised the cause names the oldest instruction that has not retired,
which is queued where the vector queue is not empty (R213, R214); what is younger than it leaves nothing behind (log entry 10).
Termination: the hart is unbound, its record is posted with the cause and the machine's place, its memberships of phasers and its
task's open claim are gone, and its token table stays, but nothing more is delivered for it; memory changes by the stores that had
issued alone (R86, R214, R236, R238). -/
def Obligations.TerminationEndsTheTask : Prop :=
  ∀ (s : State) (cause : Nat) (tval item backing : Word),
    let t := s.terminate cause tval item backing
    let o := s.hart.task.serial
    t.hart = { Hart.reset s.hart.name with
        part := s.hart.part, retired := s.hart.retired, tokOrder := s.hart.tokOrder
        tokens := s.hart.tokens.map fun k => { k with undelivered := false } }
      ∧ (∃ rest, t.completions = s.completions ++
          { seq := s.compSeq + 1, cmd := 0
            body := .termination s.hart.task.launch
              { ctxId := s.hart.task.ctxId, leaseId := s.hart.task.leaseId, index := s.hart.task.index, cause := cause
                stripLost := s.hart.st 13, pfxv := s.hart.st 15, hartid := s.hart.id, pc := s.hart.pc, tval := tval
                item := item, backing := backing, stripfault := if s.hart.st 13 then s.hart.stripbase else 0
                refTick := s.cluster.refTick } } :: rest)
      ∧ (∀ p ∈ t.phasers, ∀ m ∈ p.members, m.owner ≠ s.hart.name) ∧ (∀ c ∈ t.claims, c.serial ≠ o)
      ∧ t.records = s.records ∧ t.mem = s.flushLate.mem ∧ (s.hart.late = [] → t.mem = s.mem)
      ∧ (s.hart.vqueue = [] → s.terminateAtStop cause tval item backing = t)
      ∧ ∀ q r, s.hart.vqueue = q :: r → ∃ u : State, s.terminateAtStop cause tval item backing = u.terminate cause tval item backing
        ∧ u = { s with hart := u.hart } ∧ u.hart.pc = q.pc ∧ u.hart.vqueue = [] ∧ u.hart.task = s.hart.task
        ∧ u.hart.late = s.hart.late.filter fun l => l.young == 0

/-- `csrr`, `csrw`, `csrs` and `csrc` on a register the hart may name at its level: the old value goes to the destination, and the
register is written with the operand, its union with the old value, or the old value without it (R305). -/
def Sys2Proof.Says.StateRegistersReadAndWritten : Prop :=
  ∀ (d a : XReg) (r : BitVec 12) (s : State), s.hart.csrOk r = true → s.mayFall →
    let old := s.csr r.toNat
    let v := s.getX a
    let w := fun (x w1c : Word) => ({ s with hart := s.hart.writeCsr r.toNat x w1c } : State)
    exec (.csrr d r) s = .next (s.holds d old).falls
      ∧ exec (.csrw d a r) s = .next ((w v v).holds d old).falls
      ∧ exec (.csrs d a r) s = .next ((w (old ||| v) v).holds d old).falls
      ∧ exec (.csrc d a r) s = .next ((w (old &&& ~~~v) 0).holds d old).falls

/-- A state register that is not listed for the hart at its level traps `ILLEGAL`: the exception registers 0x031 to 0x035 and the
pool registers at level T, every unlisted address, and on an access hart what it does not have (R103, R305). -/
def Sys2Proof.Says.PrivilegedStateRegistersTrap : Prop :=
  ∀ (d a : XReg) (r : BitVec 12) (s : State),
    (s.hart.level = .t ∧ (0x031 ≤ r.toNat ∧ r.toNat ≤ 0x035 ∨ 0x100 ≤ r.toNat ∧ r.toNat ≤ 0x11F))
        ∨ csrListed r = false ∨ (s.hart.name.ah = true ∧ csrOnAH r.toNat = false) →
      exec (.csrr d r) s = .next (s.raise 0x01 ((Instr.csrr d r).word.setWidth 64))
        ∧ exec (.csrw d a r) s = .next (s.raise 0x01 ((Instr.csrw d a r).word.setWidth 64))
        ∧ exec (.csrs d a r) s = .next (s.raise 0x01 ((Instr.csrs d a r).word.setWidth 64))
        ∧ exec (.csrc d a r) s = .next (s.raise 0x01 ((Instr.csrc d a r).word.setWidth 64))

/-- What a write stores, register by register, and that it stores nothing else. At both levels `CLASSMAP` and `SEED` keep their
width, `STRIPBASE` the whole word, `RMODE` a code up to 4, `TKEXP` at least 1 and `CLWIN` at least 1,024. At level K alone `VL`
clamps LEN, `VSTART` out of range stores 0, a written 1 clears MAPCTL.UR, `PFXSTATE` and `CAUSE` keep their fields, `EPC` and
`TVEC` drop bits [1:0], `TVAL` and `STRIPFAULT` take the word; at level T a write of one of these registers stores nothing, nor
does one of a register that no level writes (R58, R59, R64, R103, R104, R125, R127, R210, R211, R238, R254, R305). -/
def Sys2Proof.Says.StateRegisterWritesByRegister : Prop :=
  ∀ (h : Hart) (v w : Word),
    let n := v.toNat
    let word := fun k : Nat => BitVec.ofNat 64 k
    (h.writeCsr 0x013 v w = { h with classmap := word (n % 2 ^ 16) }
        ∧ h.writeCsr 0x020 v w = { h with seed := word (n % 2 ^ 32) }
        ∧ h.writeCsr 0x021 v w = { h with stripbase := v }
        ∧ h.writeCsr 0x022 v w = { h with rmode := if n % 8 ≤ 4 then word (n % 8) else h.rmode }
        ∧ h.writeCsr 0x060 v w = { h with tkexp := word (max (n % 2 ^ 32) 1) }
        ∧ h.writeCsr 0x061 v w = { h with clwin := word (max (n % 2 ^ 16) 1024) })
      ∧ (h.level = .k →
        let most := h.lanes * 2048 / (8 * 2 ^ (n / 2 ^ 14 % 4))
        h.writeCsr 0x000 v w = { h with vl := word (n / 2 ^ 14 % 4 * 2 ^ 14 + min (n % 2 ^ 14) most % 2 ^ 14) }
          ∧ h.writeCsr 0x001 v w = { h with
            vstart := if n % 2 ^ 14 < h.lanes * 2048 / (8 * 2 ^ h.vw) then word (n % 2 ^ 14) else 0 }
          ∧ h.writeCsr 0x012 v w = { h with ur := h.ur && !w.getLsbD 0 }
          ∧ h.writeCsr 0x031 v w = { h with pfxstate := word (n % 2 ^ 26) }
          ∧ h.writeCsr 0x032 v w = { h with cause := word (n / 2 ^ 63 * 2 ^ 63 + n % 2 ^ 8) }
          ∧ h.writeCsr 0x033 v w = { h with epc := word (n / 4 * 4) }
          ∧ h.writeCsr 0x034 v w = { h with tval := v }
          ∧ h.writeCsr 0x035 v w = { h with tvec := word (n / 4 * 4) }
          ∧ h.writeCsr 0x036 v w = { h with stripfault := v })
      ∧ (h.level = .t → ∀ a ∈ [0x000, 0x001, 0x012, 0x031, 0x032, 0x033, 0x034, 0x035, 0x036], h.writeCsr a v w = h)
      ∧ ∀ a, a ∈ [0x010, 0x011, 0x040, 0x041, 0x042, 0x043, 0x044, 0x050, 0x051, 0x062]
        ∨ (0x070 ≤ a ∧ a ≤ 0x077) ∨ (0x100 ≤ a ∧ a ≤ 0x11F) → h.writeCsr a v w = h

/-- At level T a write of `STATUS` changes RIE and the five flags alone; at level K also SFV, which a written 1 clears, and PFXV,
PPL, PIE and IE; nothing else of the hart changes (R210). -/
def Sys2Proof.Says.StatusWritesByLevel : Prop :=
  ∀ (h : Hart) (v w : Word) (k : Fin 64),
    h.writeCsr 0x030 v w = { h with status := (h.writeCsr 0x030 v w).status }
    ∧ (h.writeCsr 0x030 v w).status.getLsbD k.val =
      if k.val < 5 ∨ k = 9 then v.getLsbD k.val
      else if h.level = .k ∧ (k = 15 ∨ k = 12 ∨ k = 11 ∨ k = 10) then v.getLsbD k.val
      else if h.level = .k ∧ k = 14 then h.status.getLsbD 14 && !w.getLsbD 14
      else h.status.getLsbD k.val

/-- `ecall` at level T takes the exception `ECALL` on a compute hart, and ends the task of an access hart that has no copy left
and no claim open; at level K it is a request: 0 is answered 1, 1 is answered 0 and asks for a stop where a task waits, any other
is answered with all ones, in `x10` (R192, R215, R306). `TVAL` of `ECALL` is open (log entry 7). -/
def Sys2Proof.Says.EnvironmentCallsAndRequests : Prop :=
  ∀ s : State,
    (s.hart.level = .t → s.compute → ∃ v, exec .ecall s = .next ({ s with freeCount := s.freeCount + 1 }.raise 0x02 v))
      ∧ (s.hart.level = .t → s.hart.name.ah = true → s.hart.copies = [] → s.hart.clstat.toNat % 8 ≠ 1 →
        ∃ t, exec .ecall s = .next t ∧ t.hart = s.hart.unbound ∧ t.mem = s.flushLate.mem)
      ∧ (s.mayFall →
        let version := (s.holds 10 1).falls
        let yielded := (s.holds 10 0).falls
        let yield1 := if s.someoneWaits && s.hart.bound then yielded.stopHart else yielded
        let other := (s.holds 10 (BitVec.allOnes 64)).falls
        exec .kVersion s = .next version ∧ exec .kYield s = .next yield1 ∧ exec .kRequestUnknown s = .next other
          ∧ (s.hart.level = .k →
            exec .ecall s = .next (if s.getX 10 = 0 then version else if s.getX 10 = 1 then yield1 else other)))

/-- `eret` at level K: the level becomes PPL, IE becomes PIE, PFXV 0, and the hart goes on at `EPC` with the loop stack of level T
without the entries whose bodies `EPC` leaves, an `EPC` just after a body running that body's end check; with PFXV 1 the bits of
`PFXSTATE` are lent to a word that accepts them, and a word that rejects them traps `ILLEGAL` at its own address, with the word in
`TVAL`, the bits in `PFXSTATE` and PFXV 0. At level T it traps `ILLEGAL` (R64, R208, R318). The model's readings here: log entry
20. -/
def Obligations.ExceptionReturnRestores : Prop :=
  ∀ s : State,
    (s.hart.level = .t → exec .eret s = .next (s.raise 0x01 0x78000001))
      ∧ (s.hart.level = .k →
        let lvl := if s.hart.st 12 then Level.k else Level.t
        let st := unwindEret s.hart.epc s.hart.loopT
        let r := match st with
          | l :: _ => if s.hart.epc = l.e + 4 then loopEnd l.e st else (st, none)
          | [] => ([], none)
        let pc := if lvl = .k then s.hart.epc else r.2.getD s.hart.epc
        s.hart.task.mayFetch pc.toNat = true →
          ∃ u : State, u = { s with
                hart := { s.hart with
                  level := lvl, pc := pc, status := u.hart.status, lent := none
                  loopT := if lvl = .k then s.hart.loopT else r.1 } }
            ∧ (∀ k : Fin 64, u.hart.status.getLsbD k.val =
              if k = 10 then s.hart.st 11 else if k = 15 then false else s.hart.status.getLsbD k.val)
            ∧ (s.hart.st 15 = false → exec .eret s = .next u)
            ∧ (s.hart.st 15 = true → ∀ w, s.peek pc = some w →
              let b := s.hart.pfxstate.setWidth 26
              (acceptsWord s.hart.name.ah w b.toNat = true → exec .eret s = .next { u with hart := { u.hart with lent := some b } })
              ∧ (acceptsWord s.hart.name.ah w b.toNat = false →
                (s.hart.tvec = 0 → exec .eret s = .next (u.terminate 0x01 (w.setWidth 64) 0 0))
                ∧ (s.hart.tvec ≠ 0 → ∃ t, exec .eret s = .next t
                  ∧ entered (if u.hart.inStrip then stripDiscarded u else u) t 0x01 (w.setWidth 64) b false))))

/-- `brk` takes the exception `BRK` at level T, and at level K ends the task with `KBRK` (R297). `TVAL` of `KBRK` is open (log
entry 7). -/
def Sys2Proof.Says.BreakpointsTrapOrEnd : Prop :=
  ∀ s : State,
    (s.hart.level = .t → exec .brk s = .next (s.raise 0x03 0))
      ∧ (s.hart.level = .k →
        ∃ v, exec .brk s = .next ({ s with freeCount := s.freeCount + 1 }.terminate 0x23 v 0 0))

/-- `mapsw` at level K on a compute hart: the current base changes nothing; a misaligned one and one in use trap; a held context
moves to the end of the install order; a new one takes a free entry, or that of the context installed least recently, whose tiles
are evicted (R111, R113, R124, R321). -/
def Sys2Proof.Says.MapSwitchesContexts : Prop :=
  ∀ (a : XReg) (s : State), s.hart.level = .k → s.compute →
    let v := s.getX a
    let cs := s.hart.ctxs
    let put := fun (t : State) (c : List TileCtx) => ({ t with hart := { t.hart with mapbase := v, ctxs := c } } : State)
    (v = s.hart.mapbase → s.mayFall → exec (.mapsw a) s = .next s.falls)
      ∧ (v ≠ s.hart.mapbase → (v.toNat % 2 ^ 20 ≠ 0 ∨ 2 ^ 57 ≤ v.toNat) → exec (.mapsw a) s = .next (s.raise 0x06 v))
      ∧ (v ≠ s.hart.mapbase → v.toNat % 2 ^ 20 = 0 → v.toNat < 2 ^ 57 →
        (s.mapBusy v = true → exec (.mapsw a) s = .next (s.raise 0x07 v))
          ∧ (s.mapBusy v = false → s.mayFall →
            (∀ c, cs.find? (fun c => c.base == v) = some c →
                exec (.mapsw a) s = .next (put s (cs.filter (fun c => c.base != v) ++ [c])).falls)
              ∧ (cs.find? (fun c => c.base == v) = none →
                (cs.length < 4 → exec (.mapsw a) s = .next (put s (cs ++ [TileCtx.all v .absent])).falls)
                  ∧ ∀ c r t, cs = c :: r → 4 ≤ cs.length → s.evict c = .ok t →
                    exec (.mapsw a) s = .next (put
                      { t with hart := { t.hart with transfers := t.hart.transfers.filter fun x => x.base != c.base } }
                      (r ++ [TileCtx.all v .absent])).falls)))

/-- `mapsw` and `ckpt` trap `ILLEGAL` at level T, and on an access hart at either level (R78, R299, R321). -/
def Sys2Proof.Says.MapSwitchAndCheckpointNeedLevelK : Prop :=
  ∀ (a : XReg) (s : State), s.hart.level = .t ∨ s.hart.name.ah = true →
    exec (.mapsw a) s = .next (s.raise 0x01 ((Instr.mapsw a).word.setWidth 64))
      ∧ exec .ckpt s = .next (s.raise 0x01 0x78000004)

/-- `ckpt` at level K on a compute hart falls through, and its area holds the context as it then is, under the next sequence: the
sequence, the pc and the scalar registers are read back at their places, and no byte outside the area changes (R226, R227, R299).
What the model keeps of the checkpoint beside the bytes is log entry 12's. -/
def Sys2Proof.Says.CheckpointHoldsContext : Prop :=
  ∀ s : State, s.hart.level = .k → s.compute → s.mayFall → s.hart.bound = true →
    let t := s.falls
    let a := s.hart.task.ckpt
    let k := s.areaKey a
    let n := s.mem.val (k + 8) 8
    ∃ u, exec .ckpt s = .next u
      ∧ u = { t with mem := u.mem, ckpts := (a, n + 1, t.hart) :: s.ckpts.filter fun c => c.1 != a }
      ∧ u.mem.val (k + 8) 8 = (n + 1) % 2 ^ 64 ∧ u.mem.val (k + 16) 8 = t.hart.pc.toNat
      ∧ (∀ r : XReg, r ≠ 0 → u.mem.val (k + 0x40 + 8 * r.val) 8 = (s.getX r).toNat)
      ∧ ∀ j, j < k ∨ k + s.hart.areaSize ≤ j → u.mem.get j = s.mem.get j

/-- `pfx` before a word that accepts its fields lends them to it and goes to the next word; before another word, or as the last
word of a loop body, it traps `ILLEGAL` with that word in `TVAL`, its own bits in `PFXSTATE` and PFXV 0 (R61, R62, R339). -/
def Sys2Proof.Says.PrefixLendsItsFields : Prop :=
  ∀ (f : BitVec 26) (s : State) (w : IWord),
    s.hart.task.mayFetch (s.hart.pc + 4).toNat = true → s.peek (s.hart.pc + 4) = some w →
      let fine := acceptsWord s.hart.name.ah w f.toNat = true ∧ ∀ l ∈ s.hart.loops, l.e ≠ s.hart.pc
      (fine → exec (.pfx f) s = .next { s with hart := { s.hart with pc := s.hart.pc + 4, lent := some f } })
        ∧ (¬fine → s.hart.tvec ≠ 0 → s.outside →
          ∃ t, exec (.pfx f) s = .next t ∧ entered s t 0x01 (w.setWidth 64) f false)

/-- A word that is no instruction takes the exception `ILLEGAL` with the word in `TVAL` (R78). -/
def Sys2Proof.Says.IllegalWordsTrap : Prop := ∀ (w : IWord) (s : State), exec (.illegal w) s = .next (s.raise 0x01 (w.setWidth 64))

/-- `nop` and every word of major 0x3E only fall through, on every hart and at every level; `nop` is the word 0x08000000 and is
not prefixable (R79, R336). -/
def Obligations.NopAndHintWordsDoNothing : Prop :=
  (∀ s : State, s.mayFall → exec .nop s = .next s.falls ∧ ∀ b, exec (.hint b) s = .next s.falls)
    ∧ (∀ w : IWord, w.toNat / 2 ^ 26 = 0x3E → decodeWord w = .ok (.hint (w.setWidth 26)))
    ∧ decodeWord 0x08000000 = .ok .nop ∧ ∀ ah f, acceptsWord ah 0x08000000 f = false

/-- `vsetvl` and `vsetvli` write the smaller of the request and the hart's maximum to `VL` and the destination, and 0 to `VSTART`
(R374). -/
def Sys2Proof.Says.VectorLengthIsSet : Prop :=
  ∀ (d a : XReg) (w : Fin 4) (len : BitVec 13) (s : State), s.compute → s.mayFall →
    let most := s.hart.lanes * 2048 / (8 * 2 ^ w.val)
    let set := fun n : Nat => ({ s with
      hart := { s.hart with vl := BitVec.ofNat 64 (w.val * 2 ^ 14 + n % 2 ^ 14), vstart := 0 } } : State)
    exec (.vsetvl d a w) s = .next ((set (min (s.getX a).toNat most)).holds d (BitVec.ofNat 64 (min (s.getX a).toNat most))).falls
      ∧ exec (.vsetvli d w len) s = .next ((set (min len.toNat most)).holds d (BitVec.ofNat 64 (min len.toNat most))).falls

/-- The length and predicate instructions trap `ILLEGAL` on an access hart, none is prefixable, and a width code of 4 to 7 or a
nonzero zero field of `vsetvl` or `vsetvli` is no instruction (R78, R338, R374). -/
def Sys2Proof.Says.VectorLengthAndPredicateWords : Prop :=
  (∀ (xd xa : XReg) (w : Fin 4) (len : BitVec 13) (d a b : PReg), ∀ i ∈ [Instr.vsetvl xd xa w, .vsetvli xd w len,
      .pand d a b, .por d a b, .pxor d a b, .pnot d a, .pcnt xd a, .pfirst xd a],
    (∀ s : State, s.hart.name.ah = true → exec i s = .next (s.raise 0x01 (i.word.setWidth 64)))
      ∧ ∀ wd ah f, encode i = some wd → acceptsWord ah wd f = false)
    ∧ (∀ w : IWord, w.toNat / 2 ^ 26 = 0x20 → (4 ≤ w.toNat % 8 ∨ w.toNat / 2 ^ 3 % 2 ^ 8 ≠ 0 ∨ w.toNat / 2 ^ 11 % 2 ^ 5 ≠ 0) →
      ∃ e, decodeWord w = .error e)
    ∧ ∀ w : IWord, w.toNat / 2 ^ 26 = 0x21 → (4 ≤ w.toNat / 2 ^ 13 % 8 ∨ w.toNat / 2 ^ 16 % 2 ^ 5 ≠ 0) →
      ∃ e, decodeWord w = .error e

/-- A word of a family that access hart lacks traps `ILLEGAL` there before any other effect: shown for one instruction of each
such family (R78, R192). -/
def Sys2Proof.Says.AccessHartsTrapComputeWords : Prop :=
  ∀ s : State, s.hart.name.ah = true →
    ∀ i ∈ [Instr.vsetvl 1 2 0, .vadd 1 2 3 0 .s32 false, .vfadd 1 2 3 0 .f32, .vcvt 1 2 0 .s32 true .s16, .vlnspack 1 2 0,
        .vmv 1 2 0 .s32, .pand 1 2 3, .vld 1 2 0 .b32 0, .vst 1 2 0 .b32 0, .sbegin 1, .mma .f32 0 64 65 0, .mzero 1,
        .gmem 1 2 3, .post 1, .texit, .rput 0 1 2 3, .claim 1 2 3, .clwait 1, .dln 1 2, .spfence],
      exec i s = .next (s.raise 0x01 (i.word.setWidth 64))

/-! ### Vector instructions -/

/-- The integer operations of the vector unit write the active elements of the destination (and of the copy a prefix asks for)
with the result wrapped to the element, and nothing else but `VSTART` and the pc; in a turn that stops inside, they write those of
the element groups it reaches, and `VSTART` names the first element not done (R222, R353, R354; where a turn stops is log entry
10's). -/
def Obligations.VectorIntegerElements : Prop :=
  ∀ (i : Instr) (s : State) (o : VecOp) (stop : Nat) (done : State → State), i.wf = true → s.intVecOp i = some o → s.compute →
    s.endsAt o.unit o.n stop done →
    ∃ t, exec i s = .next t ∧ elementsWritten s t o.d o.w (s.on o.p stop) (fun k => (o.f k).1)
      ∧ t = done { s with hart := { s.hart with v := t.hart.v } }

/-- The floating-point operations, conversions, table look-ups, broadcasts, moves and `vidx` write the active elements, add the
flags of those elements to `STATUS`, and change nothing else but `VSTART` and the pc; in a turn that stops inside, they do so for
the element groups it reaches (R126, R146, R222, R353, R356, R359 to R361, R364, R370). The model's readings here: log entries 10,
19, 35 and 43. -/
def Obligations.VectorFloatElementsAndFlags : Prop :=
  ∀ (i : Instr) (s : State) (o : VecOp) (stop : Nat) (done : State → State), i.wf = true → s.fpVecOp i = some o → s.compute →
    s.endsAt o.unit o.n stop done →
    ∃ t, exec i s = .next t ∧ elementsWritten s t o.d o.w (s.on o.p stop) (fun k => (o.f k).1)
      ∧ t = done { s with
          hart := { s.hart with
            v := t.hart.v
            status := s.hart.status ||| (s.flagsOf o.p stop fun k => (o.f k).2).setWidth 64 } }

/-- `vcmp` and `vfcmp` write the bits of the active elements to p[pd] (and to the copy a prefix asks for), `p0` discarding them;
every other bit stays, and `vfcmp` adds its flags (R357, R362). -/
def Sys2Proof.Says.VectorComparesWriteBits : Prop :=
  ∀ (i : Instr) (s : State) (pd p : PReg) (e : ET) (f : Nat → Bool × Flags) (stop : Nat) (done : State → State),
    ((∃ c a b n, i = .vcmp c pd a b p e n
        ∧ f = fun k =>
          let x := asInt e n (s.ve a k e.width)
          let y := asInt e n (s.ve b k e.width)
          (match c with | .eq => decide (x = y) | .ne => decide (x ≠ y) | .lt => decide (x < y) | .ge => decide (y ≤ x),
            noFlags))
      ∨ ∃ c a b, i = .vfcmp c pd a b p e
        ∧ f = fun k => (fmtOfEt e).compare c (s.ve a k (fmtOfEt e).width) (s.ve b k (fmtOfEt e).width)) →
    i.wf = true → s.compute → s.endsAt (some (s.hart.groupOf e.width)) (s.hart.count e.width) stop done →
    ∃ t, exec i s = .next t
      ∧ (∀ q k, t.hart.pbit q k =
          if q ≠ 0 ∧ (q = pd ∨ s.hart.lentDk = 2 ∧ q.val = s.hart.lentDc.val % 8) ∧ s.on p stop k = true then (f k).1
          else s.hart.pbit q k)
      ∧ t = done { s with
          hart := { s.hart with
            p := t.hart.p, status := s.hart.status ||| (s.flagsOf p stop fun k => (f k).2).setWidth 64 } }

/-- `vsel` writes every element from `VSTART` on: from va where the predicate is set, else from vb (R373). -/
def Sys2Proof.Says.VectorSelect : Prop :=
  ∀ (d a b : VReg) (p : PReg) (e : ET) (n : Bool) (s : State) (stop : Nat) (done : State → State), s.compute →
    s.endsAt (some (s.hart.groupOf e.width)) (s.hart.count e.width) stop done →
    ∃ t, exec (.vsel d a b p e n) s = .next t
      ∧ elementsWritten s t d e.width (fun k => decide (s.hart.start ≤ k ∧ k < stop))
        (fun k => if s.hart.pred p k then s.ve a k e.width else s.ve b k e.width)
      ∧ t = done { s with hart := { s.hart with v := t.hart.v } }

/-- `vred` and `vfred` fold the active elements of va into element 0 of vd, in ascending order, and write that element alone; with
no active element vd stays, and the copy a prefix asks for still receives its element 0 (R63, R363, R372). -/
def Sys2Proof.Says.VectorReductions : Prop :=
  ∀ (d a : VReg) (p : PReg) (e : ET) (s : State), s.compute → s.mayFall →
    let ks := (List.range (s.hart.count e.width)).filter (s.hart.pred p)
    let on := fun k : Nat => decide (k = 0)
    let or := fun x : Nat => if ks = [] then s.ve d 0 e.width else x
    (∀ r n, ∃ t, exec (.vred d a r p e n) s = .next t
        ∧ elementsWritten s t d e.width on
          (fun _ => or (ks.foldl (fun x k => iredStep r (readsSigned e n) e.width x (s.ve a k e.width)) (s.ve d 0 e.width)))
        ∧ t = { s with hart := { s.hart with v := t.hart.v } }.vfalls)
      ∧ ∀ r, e.isFloat = true → ∃ t, exec (.vfred d a r p e) s = .next t
        ∧ elementsWritten s t d e.width on (fun _ => or (s.fred d a r (fmtOfEt e) ks).1)
        ∧ t = { s with
            hart := { s.hart with
              v := t.hart.v
              status := s.hart.status
                ||| (if ks = [] then noFlags else (s.fred d a r (fmtOfEt e) ks).2).setWidth 64 } }.vfalls

/-- `vlnspack`, `vlnsmul`, `vlnsadd` and `vscale` write the active blocks, each repacked from twenty element results; `vlnsunpack`
writes the active elements; both add their flags. A turn that stops inside stops between blocks, `VSTART` a multiple of 20; a
`vlnsunpack` over its own source stops nowhere (log entry 10). A `VL` beyond the maximum for 32-bit elements traps with cause
0x08, `vlnsunpack` too (R136, R138, R139, R222). -/
def Obligations.LogarithmicBlocks : Prop :=
  ∀ (s : State) (stop : Nat) (done : State → State), s.compute →
    (s.hart.len ≤ s.hart.lanes * 64 →
      let added := fun fl : Flags => s.hart.status ||| fl.setWidth 64
      (s.endsAt (some 20) s.hart.len stop done → ∀ i d p f, s.lnsOp i = some (d, p, f) →
        let on := fun b => decide (s.hart.start / 20 ≤ b ∧ b < (stop + 19) / 20) && s.hart.pred p b
        ∃ t, exec i s = .next t ∧ elementsWritten s t d 128 on (fun b => (s.lnsBlock f b).1)
          ∧ t = done { s with
              hart := { s.hart with
                v := t.hart.v
                status := added (orAll (((List.range ((stop + 19) / 20)).filter on).map fun b => (s.lnsBlock f b).2)) } })
      ∧ ∀ d a p, s.endsAt (if d = a ∨ s.copyV a then none else some 20) s.hart.len stop done →
        let f := fun k => fmt32.convert s.hart.effRmode (s.lnsAt a k).value (s.hart.sr k)
        let on := fun k => decide (s.hart.start / 20 * 20 ≤ k ∧ k < stop) && s.hart.pred p k
        ∃ t, exec (.vlnsunpack d a p) s = .next t ∧ elementsWritten s t d 32 on (fun k => (f k).1)
          ∧ t = done { s with
              hart := { s.hart with
                v := t.hart.v, status := added (orAll (((List.range stop).filter on).map fun k => (f k).2)) } })
    ∧ (s.hart.lanes * 64 < s.hart.len →
      (∀ i d p f, s.lnsOp i = some (d, p, f) → exec i s = .next (s.raise 0x08 (BitVec.ofNat 64 s.hart.len)))
        ∧ ∀ d a p, exec (.vlnsunpack d a p) s = .next (s.raise 0x08 (BitVec.ofNat 64 s.hart.len)))

/-- The permutations write units of the destination and change nothing else but `VSTART` and the pc (R134, R358, R371, R375). -/
def Obligations.PermutationsMoveUnits : Prop :=
  ∀ (i : Instr) (s : State) (d : VReg) (e : ET) (f : Nat → Option (List Byte)),
    s.permOp i = some (d, e, f) → s.compute → s.mayFall →
    ∃ t, exec i s = .next t
      ∧ unitsWritten s t d (e.width / 8) (fun k => (f k).isSome) (fun k => (f k).getD [])
      ∧ t = { s with hart := { s.hart with v := t.hart.v } }.vfalls

/-- `pand`, `por`, `pxor` and `pnot` write the bits below `VL`.LEN of pd, `p0` discarding them; `pcnt` and `pfirst` count and find
the bits that are 1 (R338). -/
def Sys2Proof.Says.PredicateOperations : Prop :=
  ∀ (d a b : PReg) (x : XReg) (s : State), s.compute → s.mayFall →
    (∀ i f, (i = .pand d a b ∧ f = (fun k => s.hart.pbit a k && s.hart.pbit b k))
        ∨ (i = .por d a b ∧ f = fun k => s.hart.pbit a k || s.hart.pbit b k)
        ∨ (i = .pxor d a b ∧ f = fun k => xor (s.hart.pbit a k) (s.hart.pbit b k))
        ∨ (i = .pnot d a ∧ f = fun k => !s.hart.pbit a k) →
      ∃ t, exec i s = .next t
        ∧ (∀ q k, t.hart.pbit q k = if q ≠ 0 ∧ q = d ∧ k < s.hart.len then f k else s.hart.pbit q k)
        ∧ t = { s with hart := { s.hart with p := t.hart.p } }.vfalls)
      ∧ exec (.pcnt x a) s = .next (s.holds x (BitVec.ofNat 64 ((List.range s.hart.len).countP (s.hart.pbit a)))).vfalls
      ∧ exec (.pfirst x a) s = .next (s.holds x
          (match (List.range s.hart.len).find? (s.hart.pbit a) with
            | some k => BitVec.ofNat 64 k | none => BitVec.allOnes 64)).vfalls

/-- `vld`, `vlds` and `vldx` write the active units with what the hart sees at their addresses, when every active unit may be
read; nothing else changes but access counters, `VSTART` and the pc; a turn that stops inside does so for the units it reaches,
and the lease is checked for every active unit first: the lowest unit with a byte it refuses ends the task, with that byte's
address and the unit's index; a first unit at a page marked busy waits, and the instruction with it (R171, R177, R178, R222, R365,
R366). Where units perform ahead of the rest, and where a turn stops, are log entry 10's, and what a unit waits for at a busy page
log entry 39's. -/
def Sys2Proof.Says.VectorLoadsReadUnits : Prop :=
  ∀ (i : Instr) (s : State) (d : VReg) (p : PReg) (w : EW) (c : Slot) (unit : Option Nat) (addr : Nat → Nat) (stop : Nat)
      (done : State → State), s.vmemOp i = some (d, p, w, c, false, unit, addr) → s.compute →
    let n := s.hart.units w
    let may := fun k => ∀ j < ewBytes w, s.hart.task.mayRead (addr k + j) = true
    (s.endsAt unit n stop done → s.unworn n →
      (∀ k, s.does p n k = true → may k) → (∀ k, s.does p stop k = true → s.translates (addr k) (ewBytes w)) →
        ∃ t, exec i s = .next t ∧ unitsWritten s t d (ewBytes w) (s.does p stop) (fun k => s.sees (addr k) (ewBytes w))
          ∧ t = done { s with leaves := t.leaves, hart := { s.hart with v := t.hart.v } })
      ∧ (s.endsAt unit n stop done → (∀ k, s.does p n k = true → may k) → ∀ k,
        ((List.range stop).filter (s.does p stop)).head? = some k → s.atBusy s.hart.task.asid (addr k) (ewBytes w) = true →
          exec i s = .next s)
      ∧ ∀ k j, s.does p n k = true → (∀ q < k, s.does p n q = true → may q) → j < ewBytes w →
        (∀ x < j, s.hart.task.mayRead (addr k + x) = true) → s.hart.task.mayRead (addr k + j) = false →
          exec i s = .next (s.terminate 0x20 (BitVec.ofNat 64 (addr k + j)) (BitVec.ofNat 64 k) 0)

/-- `vst`, `vsts` and `vstx` outside a strip store the active units in ascending order, when every active unit may be written;
nothing else changes but access counters, `VSTART`, the pc and, in the pages a later image tells of, theirs (R282); a turn that
stops inside does so for the units it reaches (R222, R365, R366). Inside a strip they are buffered (R219). The lowest unit with a
byte that the lease refuses ends the task, and no unit is stored (R177, R178). Where a unit meets a page marked busy the
instruction waits, with the units before it stored, shown for the first and the second of them (R171; log entry 39). -/
def Sys2Proof.Says.VectorStoresWriteUnits : Prop :=
  ∀ (i : Instr) (s : State) (d : VReg) (p : PReg) (w : EW) (c : Slot) (unit : Option Nat) (addr : Nat → Nat) (stop : Nat)
      (done : State → State), s.vmemOp i = some (d, p, w, c, true, unit, addr) → s.compute →
    let n := s.hart.units w
    let may := fun k => ∀ j < ewBytes w, s.hart.task.mayWrite (addr k + j) = true
    let ks := (List.range stop).filter (s.does p stop)
    let data := fun k => (s.hart.getV d).getN (k * ewBytes w) (ewBytes w)
    let xs := ks.map fun k => (addr k, data k)
    (s.endsAt unit n stop done → s.unworn n → (∀ k, s.does p n k = true → may k) →
        (∀ k ∈ ks, s.translates (addr k) (ewBytes w)) → s.roomForAll xs (s.hart.effClass c) →
          exec i s = .next (done (s.wroteAll xs (s.hart.effClass c)).unitsOver))
      ∧ (s.outside → s.endsAt unit n stop done → (∀ k, s.does p n k = true → may k) → ∀ k r, ks = k :: r →
        let busy := fun (t : State) q => t.atBusy s.hart.task.asid (addr q) (ewBytes w) = true
        let t := s.wrote (addr k) (data k) (s.hart.effClass c)
        (busy s k → exec i s = .next s)
          ∧ ∀ q, r.head? = some q → ¬busy s k → s.translates (addr k) (ewBytes w) → busy t q →
            exec i s = .next { t with hart := { t.hart with unitsDone := t.hart.unitsDone ++ [k] } })
      ∧ ∀ k j, s.does p n k = true → (∀ q < k, s.does p n q = true → may q) → j < ewBytes w →
        (∀ x < j, s.hart.task.mayWrite (addr k + x) = true) → s.hart.task.mayWrite (addr k + j) = false →
          exec i s = .next (s.terminate 0x20 (BitVec.ofNat 64 (addr k + j)) (BitVec.ofNat 64 k) 0)

/-- `vldff`: the active units before the first that the lease refuses are loaded; a later refusal shortens `VL` to it, one at the
first active unit ends the task with cause `LEASE`, its address and its index; a turn that stops inside loads the units it
reaches, under the shortened `VL` (R213, R216, R222, R367; where a turn stops is log entry 10's). -/
def Sys2Proof.Says.FaultOnlyFirstLoads : Prop :=
  ∀ (d : VReg) (a : XReg) (p : PReg) (w : EW) (c : Slot) (s : State) (stop : Nat) (done : State → State), s.compute →
    let n := ewBytes w
    let addr := fun k => (s.getX a + BitVec.ofNat 64 (k * n)).toNat
    let may := fun k => (List.range n).all fun j => s.hart.task.mayRead (addr k + j)
    let ks := (List.range (s.hart.units w)).filter (s.on p (s.hart.units w))
    let good := ks.takeWhile may
    let past := (ks.drop good.length).head?
    (s.endsAt (some (s.hart.groupOf (8 * n))) (past.getD (s.hart.units w)) stop done → s.unworn (s.hart.units w) →
      (∀ k ∈ good, k < stop → s.translates (addr k) n) → (∀ k, ks.head? = some k → may k = true) →
      ∃ t, exec (.vldff d a p w c) s = .next t
        ∧ unitsWritten s t d n (fun k => decide (k ∈ good ∧ k < stop) && s.does p (s.hart.units w) k) (fun k => s.sees (addr k) n)
        ∧ t = done { s with
            leaves := t.leaves
            hart := { s.hart with
              v := t.hart.v
              vl := match past with
                | none => s.hart.vl
                | some k => vlWord s.hart.vw (if w = EW.blk then 20 * k else k) } })
      ∧ ∀ k j, ks.head? = some k → ((List.range n).find? fun j => !s.hart.task.mayRead (addr k + j)) = some j →
        exec (.vldff d a p w c) s = .next (s.terminate 0x20 (BitVec.ofNat 64 (addr k + j)) (BitVec.ofNat 64 k) 0)

/-- `vldsp` and `vstsp` move the active units between vd and the scratchpad bytes that the control word's rotation names; a bad
control word traps `SPCTL` with it, and bytes past the scratchpad `SPRANGE`, with the offset of the first of them in `TVAL`;
`vldsp` waits for the pending copies of the cluster that write those bytes and were accepted before it began: it reads them once
they have performed, and stays at the instruction while one of them is stopped by a pre-emption (R150 to R153, R157, R222, R368).
The model's readings here: log entries 11 and 15. -/
def Sys2Proof.Says.ScratchpadVectorAccesses : Prop :=
  ∀ (d : VReg) (a b : XReg) (p : PReg) (w : EW) (c : Slot) (s : State) (stop : Nat) (done : State → State), s.compute →
    let o := (s.getX a).toNat
    let cw := s.getX b
    let rot := cw.toNat / 4 % 4
    let n := ewBytes w
    let bad := cw.toNat % 4 ≠ 0 ∨ 16 ≤ cw.toNat ∨ rotOk rot o n = false
    let ks := (List.range stop).filter (s.on p stop)
    let offs := fun k => (List.range n).map fun j => spByte rot o 0 (k * n + j)
    let began := if s.hart.start = 0 then s.nextName else s.hart.began.getD s.nextName
    let after := if stop < s.hart.units w then some began else none
    (bad → exec (.vldsp d a b p w c) s = .next (s.raise 0x0B cw)
        ∧ (s.outside → exec (.vstsp d a b p w c) s = .next (s.raise 0x0B cw)))
      ∧ (¬bad → 2 ^ 21 < o + s.hart.units w * n →
        let at0 := BitVec.ofNat 64 (max o (2 ^ 21))
        exec (.vldsp d a b p w c) s = .next (s.raise 0x0A at0)
          ∧ (s.outside → exec (.vstsp d a b p w c) s = .next (s.raise 0x0A at0)))
      ∧ (¬bad → o + s.hart.units w * n ≤ 2 ^ 21 → s.endsAt (some (s.hart.groupOf (8 * n))) (s.hart.units w) stop done →
        (s.copyPending began (ks.flatMap offs) = false →
          ∃ t, exec (.vldsp d a b p w c) s = .next t
            ∧ unitsWritten s t d n (fun k => decide (k ∈ ks)) (fun k => (offs k).map s.cluster.sp.get)
            ∧ t = done { s with hart := { s.hart with v := t.hart.v, began := after } })
        ∧ (s.copyPending began (ks.flatMap offs) = true → ∀ u, s.drainCluster = .ok u →
          (u.copyPending began (ks.flatMap offs) = true → exec (.vldsp d a b p w c) s = .next u)
            ∧ (u.copyPending began (ks.flatMap offs) = false → u.hart = { s.hart with copies := u.hart.copies } →
              ∃ t, exec (.vldsp d a b p w c) s = .next t
                ∧ ∀ k ∈ ks, (t.hart.getV d).getN (k * n) n = (offs k).map u.cluster.sp.get))
        ∧ (s.outside → exec (.vstsp d a b p w c) s = .next (done (s.spPut
            (ks.flatMap fun k => (offs k).zip ((s.hart.getV d).getN (k * n) n))))))

/-- `qld` on entries that hold their bytes, with no other hart's `qld` before it at the queue, pops them and writes the units its
predicate selects; more entries than the queue's cap trap `QRANGE`; entries not there yet, or a `qld` that reached the queue
before, leave the hart waiting at the instruction, behind those that wait there already (R88, R195, R344). The model's readings
here: log entry 11. -/
def Sys2Proof.Says.DeliveryQueuePops : Prop :=
  ∀ (d : VReg) (q : Fin 16) (p : PReg) (w : EW) (s : State), s.compute →
    let u := s.hart.units w
    let sz := ewBytes w
    let n := (u * sz + 127) / 128
    let qs := s.cluster.queues.get q
    let ps := s.cluster.poppers.get q
    let data := (qs.take n).flatMap fun e => e.bytes.getD []
    let ready := n ≤ qs.length ∧ ∀ e ∈ qs.take n, ∃ b, e.bytes = some b ∧ b.length = 128
    let first := ∀ k, ps.head? = some k → k.name = s.hart.name
    (0 < n → s.cluster.qcap.get q < n → exec (.qld d q p w) s = .next (s.raise 0x0C (BitVec.ofNat 64 n)))
      ∧ (s.mayFall → n = 0 → exec (.qld d q p w) s = .next s.vfalls)
      ∧ (s.mayFall → 0 < n → n ≤ s.cluster.qcap.get q → ready → first →
        ∃ t, exec (.qld d q p w) s = .next t
          ∧ unitsWritten s t d sz (s.onAll p u) (fun k => (data.drop (k * sz)).take sz)
          ∧ t = { s with
              hart := { s.hart with v := t.hart.v }
              cluster := { s.cluster.unqueue s.hart.name with queues := s.cluster.queues.set q.val (qs.drop n) } }.vfalls)
      ∧ (0 < n → n ≤ s.cluster.qcap.get q → s.hart.copies = [] → (∀ h ∈ s.others, h.copies = []) →
        s.hart.name.cluster = s.cluster.num →
        (∃ e ∈ qs.take n, e.bytes = none) ∨ qs.length < n ∨ (ready ∧ ¬first) →
          ∃ t, exec (.qld d q p w) s = .next t ∧ t.hart = s.hart ∧ t.mem = s.mem ∧ t.cluster.queues = s.cluster.queues
            ∧ t.cluster.poppers.get q =
              if ps.any (fun k => k.name == s.hart.name) then ps else ps ++ [{ name := s.hart.name, need := n }])

/-- The vector atomics, every active element aligned and writable, read, combine and write their elements in ascending order, and
return the old values; a turn that stops inside does so for the elements it reaches, an ordered one after any element. The first
misaligned element of an unordered one traps `VAMOALIGN` before any access; an ordered one stops at a misaligned element, `VSTART`
its index, shown for the first active one (R217, R222, R355). An element at a page marked busy waits, shown for the first (R171;
log entry 39). Elements of an unordered one that go ahead of the rest in turns of their own are log entry 10's. -/
def Obligations.VectorAtomics : Prop :=
  ∀ (d : VReg) (a : XReg) (b : VReg) (p : PReg) (w64 : Bool) (c : Slot) (s : State) (stop : Nat) (done : State → State),
    s.compute → s.outside → s.unbegun →
    ∀ io ∈ [(Instr.vamoAdd d a b p w64 c, AmoOp.add), (.vamoMin d a b p w64 c, .min), (.vamoMax d a b p w64 c, .max),
        (.vamoAnd d a b p w64 c, .and), (.vamoOr d a b p w64 c, .or), (.vamoXor d a b p w64 c, .xor),
        (.vamoSwap d a b p w64 c, .swap)],
      let n := atomBytes w64
      let addr := fun k => (s.getX a + BitVec.ofNat 64 (s.ve b k (8 * n))).toNat
      let all := (List.range (s.hart.count (8 * n))).filter (s.on p (s.hart.count (8 * n)))
      let ks := (List.range stop).filter (s.on p stop)
      let unit := if s.hart.lentE0 then 1 else s.hart.groupOf (8 * n)
      (s.endsAt (some unit) (s.hart.count (8 * n)) stop done → s.unworn ks.length →
          (∀ k ∈ all, addr k % n = 0 ∧ s.canWrite (addr k) n) →
        let run := ks.foldl
          (fun (x : State × List Nat) k =>
            let rs := s.keys (addr k) n
            let old := leVal (x.1.mem.getRuns rs)
            ((x.1.uncached (addr k) n).wroteMem (addr k) (leBytes n (amoNew io.2 (8 * n) old (s.ve d k (8 * n)))), x.2 ++ [old]))
          (s, [])
        ∃ t, exec io.1 s = .next t
          ∧ elementsWritten s t d (8 * n) (fun k => decide (k ∈ ks)) (fun k => run.2.getD (ks.idxOf k) 0)
          ∧ t = done { run.1 with hart := { run.1.hart with v := t.hart.v } })
      ∧ (∀ k, s.hart.lentE0 = false → all.find? (fun k => addr k % n ≠ 0) = some k →
        exec io.1 s = .next (s.raise 0x12 (BitVec.ofNat 64 k)))
      ∧ (∀ k, s.how = .whole → (∀ k ∈ all, addr k % n = 0 ∧ s.canWrite (addr k) n) → all.head? = some k →
        s.atBusy s.hart.task.asid (addr k) n = true → exec io.1 s = .next s)
      ∧ ∀ k, s.hart.lentE0 = true → s.how = .whole → all.head? = some k → addr k % n ≠ 0 →
        (∀ k ∈ all, s.canWrite (addr k) n) →
          exec io.1 s = .next ({ s with hart := { s.hart with vstart := BitVec.ofNat 64 k } }.raise 0x12 (BitVec.ofNat 64 k))

/-- A strip: `sbegin` opens one at its base, `scommit` performs its buffered stores in order and closes it, `sabort` drops them;
each traps `STRIPILL` where it may not stand (R218, R220, R221, R346). The model's readings here: log entry 10. -/
def Sys2Proof.Says.StripsCommitOrAbort : Prop :=
  ∀ (a : XReg) (s : State), s.compute →
    let closed := fun (t : State) => ({ t with
      hart := { t.hart with strip := [], status := t.hart.status &&& ~~~0x2000 } } : State)
    ((s.hart.level = .k ∨ s.hart.st 13 = true) → exec (.sbegin a) s = .next (s.raise 0x10 0))
      ∧ ((s.hart.level = .k ∨ s.hart.st 13 = false) →
        exec .scommit s = .next (s.raise 0x10 0) ∧ exec .sabort s = .next (s.raise 0x10 0))
      ∧ (s.hart.level = .t → s.mayFall →
        (s.hart.st 13 = false → exec (.sbegin a) s = .next ({ s with
            hart := { s.hart with strip := [], stripbase := s.getX a, status := s.hart.status ||| 0x2000 } } : State).falls)
          ∧ (s.hart.st 13 = true → exec .sabort s = .next (closed s).falls
            ∧ let bs := s.hart.strip.filter fun b => !b.bypass
              s.unworn bs.length → (∀ b ∈ bs, s.translates b.va.toNat b.bytes.length) →
              exec .scommit s = .next (closed { s with
                mem := bs.foldl (fun m b => m.putRuns (s.keys b.va.toNat b.bytes.length) b.bytes) s.mem
                lines := bs.foldl (fun ls b => ls.map fun l => l.written s.hart.task.asid b.va.toNat b.bytes) s.lines
                baselines := (bs.foldl (fun t b => t.touch s.hart.task.asid b.va.toNat b.bytes.length) s).baselines
                leaves := (bs.foldl (fun t b => t.counted b.va.toNat b.bytes.length) s).leaves }).falls))

/-- The fences complete. `fence` where neither a store of a class of its mask waits nor a vector instruction: at scope F or S with
level V it drops the cache-remote lines, else it changes nothing but the pc; where such a store waits it drops them too, goes on
and stands behind the store, with its mask, its pc and the number of queued instructions it is younger than; and where vector
instructions wait it enters their queue too, if that has room, and its lines go as it leaves that (log entry 10). The two
`fencesv` change nothing but the pc; `spfence` advances the operand-cache generation, and no byte of an older one is read after
it; `fenceq` performs the entries of the queues it names first, and no other (that they perform in its own step is log entry
11's); those that may not stand in a strip trap `STRIPILL` (R163, R169, R184, R187, R220, R310). -/
def Sys2Proof.Says.FencesComplete : Prop :=
  ∀ (ack : Bool) (scope : Fin 16) (cm : BitVec 16) (qm : BitVec 8) (s : State),
    let held := ∃ va bs c pc k, Late.store va bs c pc k ∈ s.hart.late ∧ cm.getLsbD c.val = true
    let drops := decide (ack = true ∧ 7 ≤ scope.val)
    let dropped : State := if drops = true then { s with lines := [] } else s
    (s.mayFall → s.outside → s.hart.vqueue = [] → (∀ l ∈ s.hart.late, ∃ va bs c pc k, l = .store va bs c pc k) →
        (¬held → exec (.fence ack scope cm) s = .next dropped.falls)
        ∧ (held → exec (.fence ack scope cm) s
          = .next ({ dropped with
            hart := { s.hart with late := s.hart.late ++ [.fence cm drops s.hart.pc 0] } } : State).falls))
      ∧ (s.mayFall → s.outside → s.hart.vqueue ≠ [] → s.hart.vqueue.length < 32 →
        ∃ t, exec (.fence ack scope cm) s = .next t ∧ t.hart.pc = s.fallPc ∧ t.mem = s.mem
          ∧ t.hart.vqueue = s.hart.vqueue ++ [s.hart.issued (.fence ack scope cm) [] true])
      ∧ (s.outside → 32 ≤ s.hart.vqueue.length → exec (.fence ack scope cm) s = .next s)
      ∧ (s.mayFall → s.compute → exec .fencesvSv s = .next s.falls ∧ exec .fencesvVs s = .next s.falls)
      ∧ (s.mayFall → s.compute → s.outside →
        ∃ t, exec .spfence s = .next t ∧ (∀ o, t.opSp o = s.cluster.sp.get o)
          ∧ t = ({ s with
            cluster := { s.cluster with generation := s.cluster.generation + 1, operands := [] } } : State).falls)
      ∧ (s.outside → s.mayFall → ∀ u, s.drainAll (fun q => qm.getLsbD q.val) = .ok u → u.mayFall →
        exec (.fenceq qm) s = .next u.falls ∧ u.hart.copies = s.hart.copies.filter fun e => !qm.getLsbD e.queue.val)
      ∧ (s.outside → s.mayFall → (∀ e ∈ s.hart.copies, qm.getLsbD e.queue.val = false) →
        exec (.fenceq qm) s = .next s.falls)
      ∧ (s.outside → s.mayFall → ∀ e a b n, s.hart.copies.filter (fun e => qm.getLsbD e.queue.val) = [e] →
        e.work = .copy [{ src := .mem a, dst := .mem b, len := n }] → s.translates a.toNat n → s.translates b.toNat n →
        (∀ l ∈ s.leaves, l.aligned) → b.toNat + n ≤ 2 ^ 64 →
          ∃ t, exec (.fenceq qm) s = .next t
            ∧ t.hart = { s.falls.hart with copies := s.hart.copies.filter fun e => !qm.getLsbD e.queue.val }
            ∧ (∀ j, t.mem.get j = (s.mem.putRuns (s.keys b.toNat n) (s.reads a.toNat n)).get j)
            ∧ t.cluster = s.cluster)
      ∧ (s.hart.inStrip = true → exec (.fence ack scope cm) s = .next (s.raise 0x10 0)
        ∧ exec (.fenceq qm) s = .next (s.raise 0x10 0)
        ∧ (s.compute → exec .spfence s = .next (s.raise 0x10 0)))

/-! ### Matrix instructions -/

/-- `mma`, `mmasp` and `mmats` on an attached compute hart: the accumulator receives the K walk over its operands, A from walked
tiles, B from walked tiles, scratchpad rows, or rows of a carve-out; with `VL`.LEN 0 they change nothing but `VSTART` and the pc;
on a hart not attached they trap `NOATTACH`; in a turn that stops inside, the accumulator receives the K-steps before the stop,
`VSTART` names the first k not summed, and no operand is marked as used; an `mma` whose accumulator or the tile after it it walks
does not stop (R117, R120, R140 to R144, R162, R163, R222, R223, R328 to R330). Operands come from the operand cache where it
holds them (log entry 10), and a tile needs a free slot (log entry 41). -/
def Obligations.MatrixMultiplies : Prop :=
  ∀ (f : Fmt) (td : AReg) (ta tb : TReg) (lu : BitVec 2) (b c : XReg) (s : State), s.compute →
    let n := (s.hart.len + fmtCap f - 1) / fmtCap f
    let as := walkTiles ta n
    let bs := walkTiles tb n
    let d : TReg := Fin.ofNat 256 td.val
    let ds := if s.hart.lentE0 then [d, tileAfter d 1] else [d]
    let rowsA := as.map fun q => tileRows (s.tileValue q)
    let rowsB := bs.map fun q => tileRows (s.tileValue q)
    let fits := s.hart.attached = true ∧ 0 < s.hart.len ∧ ta.val + n - 1 ≤ 255 ∧ (∀ q ∈ as, s.tileReady q)
      ∧ (∀ q ∈ ds, s.tileReady q ∧ s.tileMay q true = true) ∧ s.slotsFor (as.length + bs.length + 2)
    let fine := fits ∧ s.how = .whole ∧ s.mayFall
    let fineB := tb.val + n - 1 ≤ 255 ∧ ∀ q ∈ bs, s.tileReady q
    let three := [Instr.mma f td ta tb lu, .mmasp f td ta b c, .mmats f td ta b c]
    (s.hart.attached = false → ∀ i ∈ three, exec i s = .next (s.raise 0x05 0))
      ∧ (s.hart.attached = true → s.hart.len = 0 → s.mayFall → ∀ i ∈ three, exec i s = .next s.vfalls)
      ∧ (fine → fineB →
        ∃ t, exec (.mma f td ta tb lu) s = .next t
          ∧ multiplied s t f td as bs ((if lu.getLsbD 1 then as else []) ++ if lu.getLsbD 0 then bs else []) rowsB)
      ∧ (fine →
        let o := (s.getX b).toNat
        let cw := (s.getX c).toNat
        cw % 4 = 0 → cw < 2 ^ 36 → pitchOk cw o = true → (∀ m < n, ∀ j < 32, pitchedRow cw o m j + 128 ≤ 2 ^ 21) →
          ∃ t, exec (.mmasp f td ta b c) s = .next t
            ∧ multiplied s t f td as [] [] ((List.range n).map fun m => (List.range 32).map fun j =>
              (pitchedBytes cw o m j).map s.opSp))
      ∧ (fine → ∀ k, s.carve? (s.getX b) = some k →
        let w := (s.getX c).toNat
        w < 2 ^ 48 → w % 2 ^ 24 + w / 2 ^ 24 * (n - 1) + 31 < k.rows →
          ∃ t, exec (.mmats f td ta b c) s = .next t
            ∧ multiplied s t f td as [] [] ((List.range n).map fun m => (List.range 32).map fun j =>
              (List.range 128).map fun x =>
                let at1 := 128 * (w % 2 ^ 24 + w / 2 ^ 24 * m + j) + x
                s.opByte k.handle at1 (k.bytes.get at1)))
      ∧ ∀ j st, fits → fineB → s.how = .part j → (∀ q ∈ [d, tileAfter d 1], q ∉ as ∧ q ∉ bs) →
        (kSteps f s.hart.len s.hart.start)[j + 1]? = some st →
          ∃ t, exec (.mma f td ta tb lu) s = .next t ∧ t.hart.pc = s.hart.pc ∧ t.mem = s.mem
            ∧ t.hart.vstart = BitVec.ofNat 64 (fmtDepth f * st)
            ∧ (∀ q ∈ as ++ bs, t.hart.tile q = .undefined → s.hart.tile q = .undefined)
            ∧ ∀ x < 1024, tileWord (t.tileValue d) x =
              (mmaElem f s.hart.lentE0 s.hart.len rowsA rowsB ((kSteps f s.hart.len s.hart.start).take (j + 1)) (x / 32)
                (x % 32) (tileWord (s.tileValue d) x)
                (if s.hart.lentE0 then tileWord (s.tileValue (tileAfter d 1)) x else 0)).1 % 2 ^ 32

/-- `mattach` and `mdetach` set and clear the attachment; `mzero` makes a tile it may write Dirty with zero bytes, `mfree` makes
one Undefined; `mpref` starts the fill of an Absent tile it may read, and else only falls through (R115, R120, R325, R335). -/
def Sys2Proof.Says.AttachmentAndTileStates : Prop :=
  ∀ (q : TReg) (s : State), s.compute → s.mayFall →
    let x : Transfer := { base := s.hart.mapbase, tile := q, spill := false, cancelled := false }
    exec .mattach s = .next ({ s with hart := { s.hart with attached := true } } : State).falls
      ∧ exec .mdetach s = .next ({ s with hart := { s.hart with attached := false } } : State).falls
      ∧ (s.tileMay q true = true → (s.hart.tile q).held = true ∨ s.slotsFor 1 →
        exec (.mzero q) s = .next (s.withTile q (.dirty [])).falls)
      ∧ (s.tileMay q true = false →
        let a := BitVec.ofNat 64 (backing s.hart.mapbase q.val)
        exec (.mzero q) s = .next (s.terminate 0x20 a (BitVec.ofNat 64 q.val) a))
      ∧ exec (.mfree q) s = .next (s.withTile q .undefined).falls
      ∧ exec (.mpref q) s = .next
        (if s.hart.tile q = .absent ∧ s.tileMay q false = true ∧ x ∉ s.hart.transfers then
          ({ s with hart := { s.hart with transfers := s.hart.transfers ++ [x] } } : State).falls
        else s.falls)
      ∧ ∀ y r, (s.withTile q y).hart.tile r = if r = q then y else s.hart.tile r

/-- `mmov` and `mtrans` put the source's bytes, or their blockwise transpose, into the destination tile, Dirty; an Undefined
source makes it Undefined; a last use makes the source Undefined (R115, R331). -/
def Sys2Proof.Says.TileMovesAndTransposes : Prop :=
  ∀ (ta tb : TReg) (f : Fin 4) (lu : Bool) (s : State), s.compute → s.mayFall → s.tileReady ta → s.tileMay tb true = true →
    s.slotsFor 2 →
    ∀ ig ∈ [(Instr.mmov ta tb lu, id), (.mtrans ta tb f lu, transpose (4 / 2 ^ f.val))],
      ∃ t, exec ig.1 s = .next t
        ∧ t.hart.tile tb = (if s.hart.tile ta = .undefined then .undefined else .dirty (ig.2 (s.tileValue ta)))
        ∧ (lu = true → ta ≠ tb → t.hart.tile ta = .undefined)
        ∧ ∃ u, t = u.falls ∧ onlyTiles s u [ta, tb]

/-- `mld` and `mst` move the 32 rows of a tile from and to memory (or the open strip), `mldsp` and `mstsp` from and to scratchpad
rows; a bad control word traps `SPCTL` with it, and rows past the scratchpad `SPRANGE`, with the lowest offset there (R150 to R152,
R219, R326, R327). That no page of the rows becomes busy meanwhile is a premise: at one the instruction waits (log entry 39). -/
def Sys2Proof.Says.TileLoadsAndStores : Prop :=
  ∀ (q : TReg) (a b : XReg) (c : Slot) (h : Bool) (s : State), s.compute → s.mayFall →
    let addr := fun r : Nat => (s.getX a + BitVec.ofNat 64 r * s.getX b).toNat
    let rows := (List.range 32).map fun r => (addr r, tileRow (s.tileValue q) r)
    let o := (s.getX a).toNat
    let cw := (s.getX b).toNat
    let fine := cw % 4 = 0 ∧ cw < 2 ^ 36 ∧ pitchOk cw o = true ∧ ∀ j < 32, pitchedRow cw o 0 j + 128 ≤ 2 ^ 21
    let offs := (List.range 32).flatMap (pitchedBytes cw o 0)
    let out := fun j : Nat => pitchedRow cw o 0 j + 128
    (s.unworn 32 → (∀ r < 32, s.canRead (addr r) 128) → s.tileMay q true = true → s.slotsFor 1 →
        ∃ t u, exec (.mld q a b c h) s = .next t ∧ t = u.falls ∧ onlyTiles s u [q]
          ∧ ∃ v, u.hart.tile q = .dirty v ∧ ∀ r < 32, tileRow v r = s.sees (addr r) 128)
      ∧ (s.unbegun → s.unworn 33 → (∀ r < 32, s.canWrite (addr r) 128) → s.tileReady q → s.slotsFor 1 →
        s.roomForAll rows (s.hart.effClass c) → ∃ u, onlyTiles s u [q] ∧ exec (.mst q a b c h) s = .next (u.wroteAll rows (s.hart.effClass c)).falls)
      ∧ (fine → s.tileMay q true = true → s.slotsFor 1 → s.copyPending s.nextName offs = false →
        exec (.mldsp q a b c h) s = .next (s.withTile q (.dirty (Bytes.put [] 0 (offs.map s.cluster.sp.get)))).falls)
      ∧ (fine → s.outside → s.tileReady q → s.slotsFor 1 →
        ∃ u, onlyTiles s u [q] ∧ exec (.mstsp q a b c h) s = .next (u.spPut
          ((List.range 32).flatMap fun j => (pitchedBytes cw o 0 j).zip (tileRow (s.tileValue q) j))).falls)
      ∧ (¬(cw % 4 = 0 ∧ cw < 2 ^ 36 ∧ pitchOk cw o = true) →
        exec (.mldsp q a b c h) s = .next (s.raise 0x0B (s.getX b))
          ∧ (s.outside → exec (.mstsp q a b c h) s = .next (s.raise 0x0B (s.getX b))))
      ∧ (cw % 4 = 0 → cw < 2 ^ 36 → pitchOk cw o = true → ∀ k < 32, 2 ^ 21 < out k →
        (∀ j < 32, 2 ^ 21 < out j → max (pitchedRow cw o 0 k) (2 ^ 21) ≤ max (pitchedRow cw o 0 j) (2 ^ 21)) →
          let at0 := BitVec.ofNat 64 (max (pitchedRow cw o 0 k) (2 ^ 21))
          exec (.mldsp q a b c h) s = .next (s.raise 0x0A at0)
            ∧ (s.outside → exec (.mstsp q a b c h) s = .next (s.raise 0x0A at0)))

/-- `mt2v` copies selected rows of a tile into a vector register, `mv2t` rows of a vector register into a tile, by the row select
word; a bad word traps with cause 0x04 and the word (R333, R334). -/
def Sys2Proof.Says.TileRowsAndVectorRegisters : Prop :=
  ∀ (q : TReg) (v : VReg) (b : XReg) (s : State), s.compute → s.mayFall → s.slotsFor 2 →
    let w := (s.getX b).toNat
    let t0 := w % 2 ^ 5
    let v0 := w / 2 ^ 8 % 2 ^ 6
    let n := w / 2 ^ 16 % 2 ^ 5 + 1
    let fine := rowSelOk w s.hart.lanes = true
    (¬fine → exec (.mt2v q v b) s = .next (s.raise 0x04 (s.getX b)) ∧ exec (.mv2t q v b) s = .next (s.raise 0x04 (s.getX b)))
      ∧ (fine → s.tileReady q →
        let got := (s.hart.getV v).put (128 * v0) ((s.tileValue q).getN (128 * t0) (128 * n))
        ∃ u, onlyTiles s u [q]
          ∧ exec (.mt2v q v b) s = .next ({ u with hart := { u.hart with v := u.hart.v.set v.val got } } : State).falls)
      ∧ (fine → s.tileReady q → s.tileMay q true = true →
        ∃ t u x, exec (.mv2t q v b) s = .next t ∧ t = u.falls ∧ onlyTiles s u [q] ∧ u.hart.tile q = .dirty x
          ∧ ∀ r < 32, tileRow x r =
            if t0 ≤ r ∧ r < t0 + n then (s.hart.getV v).getN (128 * (v0 + (r - t0))) 128 else tileRow (s.tileValue q) r)

/-- `mepi` on an attached compute hart outside a strip, with a readable, well-formed descriptor: the output rows are stored, each
element scaled, biased, and rounded once to its format, and the flags are added (R323, R324). A queued one uses the descriptor and
the biases it took at issue, whatever memory holds since (R183, R213, R324; the queue is log entry 10's). -/
def Sys2Proof.Says.EpilogueStoresRows : Prop :=
  ∀ (q : TReg) (a b : XReg) (c : Slot) (s : State), s.compute → s.outside → s.mayFall → s.hart.attached = true →
    s.slotsFor 1 → s.hart.unitsDone = [] → s.unworn 35 →
    let da := (s.getX a).toNat
    let given : Option (List Byte) := match s.how with | .without _ (x :: r) => some (x :: r) | _ => none
    let d := (given.map fun g => g.take 32).getD (s.seesNow da 32)
    let bias := match given with
      | some g => g.drop 32
      | none => if field d 0 8 = 0 then List.replicate 128 0 else s.seesNow (field d 0 8) 128
    let n := field d 14 2
    let ofmt := field d 12 1
    let addr := fun r : Nat => (s.getX b + BitVec.ofNat 64 r * BitVec.ofNat 64 (field d 16 8)).toNat
    let vals := fun r : Nat => (List.range 32).map fun j =>
      epiValue d (field bias (4 * j) 4) (tileWord (s.tileValue q) (32 * r + j))
    let out := fun r : Nat => epiRow ofmt s.hart.effRmode s.hart.sr r ((vals r).map (·.1))
    (given = none → da % 32 = 0 ∧ s.canRead da 32 ∧ epiOk d = true ∧ (field d 0 8 ≠ 0 → s.canRead (field d 0 8) 128)) →
      (∀ done taken, s.how = .without done taken → done = []) → n ≤ 32 →
      (∀ r < n, s.canWrite (addr r) (epiRowBytes ofmt)) → s.tileReady q →
      ∃ u, onlyTiles s u [q]
        ∧ exec (.mepi q a b c) s = .next (let t := u.wroteAll ((List.range n).map fun r => (addr r, (out r).1)) (s.hart.effClass c)
          ({ t with
            hart := { t.hart with
              status := t.hart.status
                ||| (orAll ((List.range n).map fun r => orAll ((vals r).map (·.2)))
                  ||| orAll ((List.range n).map fun r => (out r).2)).setWidth 64 } } : State).falls)

/-- `msend` outside a strip, of a readable tile through a registered window to a peer that is there, sends the tile and opens an
operation of the window, which stands last in its order; with a bad address or tile word, or to an absent peer, the operation
completes at once, with `WIN_CTL` or `PEER_ABSENT`; through an unregistered window it sends nothing (R230 to R232, R244, R332). -/
def Sys2Proof.Says.TileSends : Prop :=
  ∀ (q : TReg) (a b : XReg) (c : Slot) (s : State), s.compute → s.outside → s.mayFall → s.tileReady q →
    s.slotsFor 1 →
    let w := s.getX a
    let tw := (s.getX b).toNat
    let l := s.hart.task.launch
    (s.ownWindow w = none → ∃ u, onlyTiles s u [q] ∧ exec (.msend q a b c) s = .next u.falls)
      ∧ ((s.ownWindow w).isSome = true →
        let bad := 2 ^ 24 ≤ w.toNat ∨ 2 ^ 21 ≤ tw
        (bad → ∃ u, onlyTiles s u [q] ∧ exec (.msend q a b c) s = .next (u.failedOp l (rawWin w) 7).falls)
          ∧ (¬bad → s.isAbsent (rawPeer w) = true →
            ∃ u, onlyTiles s u [q] ∧ exec (.msend q a b c) s = .next (u.failedOp l (rawWin w) 2).falls))
      ∧ ((s.ownWindow w).isSome = true → w.toNat < 2 ^ 24 → tw < 2 ^ 21 → s.isAbsent (rawPeer w) = false →
        ∃ t, exec (.msend q a b c) s = .next t
          ∧ t.egress = s.egress ++ [.tile s.nextName
            { src := s.party, peer := rawPeer w, tenant := s.hart.task.tenant, job := s.hart.task.job, win := rawWin w
              index := tw % 2 ^ 8, target := tileTarget tw, data := (s.tileValue q).getN 0 tileSize }]
          ∧ t.sends = s.sends ++
            [{ ticket := s.nextName, launch := l, win := rawWin w, peer := rawPeer w, failed := false }]
          ∧ t.launches = (s.inOrder l (rawWin w) s.nextName).launches ∧ t.ended = (s.inOrder l (rawWin w) s.nextName).ended
          ∧ t.nextName = s.nextName + 1 ∧ t.mem = s.mem ∧ t.cluster = s.cluster ∧ t.hart.x = s.hart.x ∧ t.hart.v = s.hart.v
          ∧ t.hart.pc = s.fallPc)

/-! ### Copies, delivery queues and tables -/

/-- The copy instructions outside a strip with a well-formed control word or record, accepted operands, and a place in the pool:
the copy enters its engine queue with the moves and the command its operands name and the hart falls through; nothing moves yet. A
copy of no bytes completes at once, and a copy with no place for its entry waits where it stands, in the pool's rotation; a
`cpyts` of a length that is no multiple of 128 traps `SPCTL` whatever its record (R154, R155, R203, R204, R290, R301 to R304). The
model's readings here: log entry 15; that one without room has the queues of its cluster perform first, log entry 11. -/
def Sys2Proof.Says.CopiesAreAccepted : Prop :=
  ∀ (q : Fin 8) (a b c : XReg) (s : State), s.outside → s.mayFall →
    let n := s.hart.copyBytes
    let u := s.hart.copyWidth
    let dst := s.getX a
    let src := s.getX b
    let queued := fun (op len : Nat) (record : List Byte) (ms : List Move) (t : State) =>
      ({ t with
        nextName := s.nextName + 1
        cluster := t.cluster.serve s.hart.pool s.hart.name (s.hart.queueNum q)
        hart := { t.hart with
          copies := t.hart.copies ++ [{
            id := s.nextName, queue := q, cls := s.hart.effClass 0, work := .copy ms, granules := 0
            cmd := { op := op, a := dst, b := src, len := len, record := record } }] } } : State)
    let ra := (s.getX c).toNat
    let r := s.seesNow ra 32
    let okCw := fun cw : Nat => cw < 16 ∧ cwRot cw ≠ 3
    let into := fun (cw k : Nat) (o : Word) => copySide s.hart.task.mayWrite (dirDst (cwDir cw)) k o
    let from1 := fun (cw k : Nat) (o : Word) => copySide s.hart.task.mayRead (dirSrc (cwDir cw)) k o
    let turned := fun (cw : Nat) (sp : Bool) (o : Word) => sp = true → rotOk (cwRot cw) o.toNat u = true
    (okCw ra → turned ra (dirDst (cwDir ra)) dst → turned ra (dirSrc (cwDir ra)) src → into ra n dst → from1 ra n src →
        (n = 0 → exec (.cpy q a b c) s = .next s.falls)
          ∧ (n ≠ 0 → s.hasRoom q = true → exec (.cpy q a b c) s = .next (queued 0 n (lowBytes 8 (s.getX c))
            [{ src := sideOf (dirSrc (cwDir ra)) src (cwRot ra) 0, dst := sideOf (dirDst (cwDir ra)) dst (cwRot ra) 0
               len := n }] s).falls)
          ∧ (n ≠ 0 → s.hasRoom q = false → ∀ t, s.drainCluster = .ok t → t.hasRoom q = false →
            exec (.cpy q a b c) s = .next { t with cluster := t.cluster.stall t.hart.pool t.hart.name (t.hart.queueNum q) }))
      ∧ (s.hasRoom q = true → ra % 32 = 0 → s.canRead ra 32 →
        (let cw := field r 0 8
          let rows := field r 8 4
          let dAt := fun k => dst + BitVec.ofNat 64 k * BitVec.ofNat 64 (field r 16 8)
          let sAt := fun k => src + BitVec.ofNat 64 k * BitVec.ofNat 64 (field r 24 8)
          okCw cw → field r 12 4 = 0 → rows ≤ 1048576 →
          (∀ k < rows, turned cw (dirDst (cwDir cw)) (dAt k) ∧ turned cw (dirSrc (cwDir cw)) (sAt k) ∧ into cw n (dAt k)
            ∧ from1 cw n (sAt k)) →
          exec (.cpy2d q a b c) s = .next
            (if n = 0 ∨ rows = 0 then s.counted ra 32
              else queued 1 n r
                ((List.range rows).map fun k =>
                  { src := sideOf (dirSrc (cwDir cw)) (sAt k) (cwRot cw) 0
                    dst := sideOf (dirDst (cwDir cw)) (dAt k) (cwRot cw) 0, len := n })
                (s.counted ra 32)).falls)
        ∧ (let cw := field r 0 8
          let m := s.hart.copyLen
          let idx := field r 8 8
          let sAt := fun i => src + BitVec.ofNat 64 (field (s.seesNow idx (4 * m)) (4 * i) 4)
          let dAt := fun i => dst + BitVec.ofNat 64 (i * u)
          okCw cw → (cwDir cw = 2 → cwRot cw = 0) → turned cw (dirDst (cwDir cw)) dst → idx % 4 = 0 → field r 16 8 = 0 →
          field r 24 8 = 0 → s.canRead idx (4 * m) →
          (∀ i < m, from1 cw u (sAt i) ∧ into cw u (dAt i)) →
          exec (.cpyg q a b c) s = .next
            (if m = 0 then s.counted ra 32
              else queued 2 (m * u) r
                ((List.range m).map fun i =>
                  { src := sideOf (dirSrc (cwDir cw)) (sAt i) 0 0
                    dst := if dirDst (cwDir cw) then .sp dst.toNat (cwRot cw) 0 (i * u) else .mem (dAt i), len := u })
                ((s.counted ra 32).counted idx (4 * m))).falls)
        ∧ (n % 128 ≠ 0 → exec (.cpyts q a b c) s = .next (s.raise 0x0B (s.getX c)))
        ∧ ∀ k, s.carve? src = some k → regionOk r n dst.toNat u = true →
          let rows := n / 128
          let row := field r 0 4
          let sp := field r 5 1 == 1
          let at1 := fun j => dst + BitVec.ofNat 64 j * BitVec.ofNat 64 (field r 8 8)
          row + rows ≤ k.rows →
          (∀ j < rows, copySide (if field r 4 1 = 1 then s.hart.task.mayWrite else s.hart.task.mayRead) sp 128 (at1 j)) →
          exec (.cpyts q a b c) s = .next
            (if rows = 0 then s.counted ra 32
              else queued 3 n r
                ((List.range rows).map fun j =>
                  let side := sideOf sp (at1 j) (field r 6 1) j
                  let ts := Side.ts src (128 * (row + j))
                  if field r 4 1 = 1 then { src := ts, dst := side, len := 128 } else { src := side, dst := ts, len := 128 })
                (s.counted ra 32)).falls)

/-- `qfill` outside a strip, with a good control word, queue and source, and a place in the delivery queue and in the pool,
reserves a slot of the delivery queue and its entry enters the engine queue; without a place in the delivery queue it waits in the
rotation, and without one in the pool too, once the queues of the cluster have performed (log entry 11); `tblld` loads a table's
record, and a misaligned record traps (R87, R145, R194, R204, R343, R350). That the model keeps the record's reserved bytes, which
are ignored, as zero is log entry 22's. -/
def Sys2Proof.Says.QueueFillsAndTableLoads : Prop :=
  ∀ (q : Fin 8) (tq : Fin 4) (a b c : XReg) (s : State), s.outside → s.mayFall →
    let cw := (s.getX c).toNat
    let src := s.getX b
    let dq : Fin 16 := Fin.ofNat 16 (s.getX a).toNat
    let sp := cwDir cw == 3
    let slot : DSlot := { id := s.nextName, owner := s.hart.task.serial, bytes := none }
    let entry : CopyEntry :=
      { id := s.nextName + 1, queue := q, cls := s.hart.effClass 0, work := .fill (sideOf sp src (cwRot cw) 0) dq s.nextName
        cmd := { op := 4, a := s.getX a, b := src, len := 128, record := lowBytes 8 (s.getX c) }, granules := 0 }
    let va := s.getX a
    let seen := s.seesNow va.toNat 1040
    let rec1 : Bytes := Bytes.put [] 0 (seen.take 8 ++ List.replicate 8 0 ++ seen.drop 16)
    (cw < 16 → cwRot cw ≠ 3 → cwDir cw = 0 ∨ cwDir cw = 3 → (sp = true → rotOk (cwRot cw) src.toNat 16 = true) →
        (s.getX a).toNat ≤ 15 → copySide s.hart.task.mayRead sp 128 src →
        (s.hasSlot dq = true → s.hasRoom q = true →
          let k := (s.cluster.serve s.hart.pool s.hart.name (s.hart.queueNum q)).serve 5 s.hart.name dq.val
          exec (.qfill q a b c) s = .next ({ s with
            nextName := s.nextName + 2
            cluster := { k with queues := s.cluster.queues.set dq.val (s.cluster.queues.get dq ++ [slot]) }
            hart := { s.hart with copies := s.hart.copies ++ [entry] } } : State).falls)
          ∧ (s.hasSlot dq = false →
            exec (.qfill q a b c) s = .next { s with cluster := s.cluster.stall 5 s.hart.name dq.val })
          ∧ (s.hasSlot dq = true → s.hasRoom q = false → ∀ t, s.drainCluster = .ok t → t.hasRoom q = false →
            exec (.qfill q a b c) s = .next { t with cluster := t.cluster.stall t.hart.pool t.hart.name (t.hart.queueNum q) }))
      ∧ (va.toNat % 128 = 0 → s.canRead va.toNat 1040 →
        exec (.tblld tq a) s = .next ({ s.counted va.toNat 1040 with
          cluster := { s.cluster with tables := s.cluster.tables.set tq.val (some rec1) } } : State).falls)
      ∧ (va.toNat % 128 ≠ 0 → exec (.tblld tq a) s = .next (s.raise 0x09 va))

/-! ### Phasers -/

/-- Creation and membership: `phnew` makes a phaser of its hart's logical die at a free index, of the generation after the index's
last, with the counter given and no member, or reports that none is free; `phdel`
removes one; `phreg` adds the caller with sig = wt = counter; `phdrop` removes it; a handle of no live phaser of the launch gives
status 1, to the signals and waits as well; a caller that is no member gives status 3, and a phaser of 256 members status 2; a
wait that was woken before its phaser went completes with the counter of its waking (R97 to R100, R340; the index and the
generation are open, log entry 3, and the order of statuses 5 and 2, log entry 42). -/
def Sys2Proof.Says.PhaserCreationAndMembership : Prop :=
  ∀ (a c : XReg) (m : PhMode) (s : State), s.outside → s.mayFall →
    let status := fun (code : Nat) (k : BitVec 32) => BitVec.ofNat 64 (k.toNat * 2 ^ 32 + code)
    let o := s.hart.name
    (s.freeIndexes (s.hart.name.cluster / 48 % 4) = [] → exec (.phnew a c) s = .next (s.holds c (status 2 0)).falls)
      ∧ (s.freeIndexes (s.hart.name.cluster / 48 % 4) ≠ [] →
        ∃ (p : Phaser) (g : List (Nat × Nat)),
          p.counter = (s.getX a).setWidth 32 ∧ p.launch = s.hart.task.launch ∧ p.members = []
            ∧ (∀ q ∈ s.phasers, q.handle ≠ p.handle)
            ∧ (let key := p.handle.toNat % 2 ^ 14
              let gen := p.handle.toNat / 2 ^ 14
              key / 2 ^ 12 = s.hart.name.cluster / 48 % 4 ∧ key % 2 ^ 12 ∈ s.freeIndexes (s.hart.name.cluster / 48 % 4)
                ∧ 1 ≤ gen ∧ (∀ x, s.phGens.find? (fun x => x.1 == key) = some x → gen = x.2 % (2 ^ 18 - 1) + 1)
                ∧ g = (key, gen) :: s.phGens.filter fun x => x.1 != key)
            ∧ exec (.phnew a c) s = .next (({ s with
              freeCount := s.freeCount + 1, phasers := s.phasers ++ [p], phGens := g } : State).holds c
                (status 0 p.handle)).falls)
      ∧ (s.phaser? (s.getX a) = none →
        ∀ i ∈ [Instr.phdel a c, .phreg m a c, .phdrop a c], exec i s = .next (s.holds c (status 1 0)).falls)
      ∧ (∀ i ∈ [Instr.phsig a c, .phwait a c, .phsw a c],
        (∀ k, s.hart.phWoke = some k →
          exec i s = .next (({ s with hart := { s.hart with phWoke := none } } : State).holds c (status 0 k)).falls)
        ∧ (s.hart.phWoke = none → s.phaser? (s.getX a) = none → exec i s = .next (s.holds c (status 1 0)).falls)
        ∧ (s.hart.phWoke = none → ∀ p, s.phaser? (s.getX a) = some p → (p.members.any fun k => k.owner == o) = false →
          exec i s = .next (s.holds c (status 3 p.counter)).falls))
      ∧ ∀ p, s.phaser? (s.getX a) = some p →
        exec (.phdel a c) s = .next ((({ s with
            phasers := s.phasers.filter fun q => q.handle != p.handle } : State).keepWakes p).holds c (status 0 0)).falls
          ∧ ((p.members.any fun k => k.owner == o) = true → exec (.phreg m a c) s = .next (s.holds c (status 5 p.counter)).falls)
          ∧ ((p.members.any fun k => k.owner == o) = false → 256 ≤ p.members.length →
            exec (.phreg m a c) s = .next (s.holds c (status 2 p.counter)).falls)
          ∧ ((p.members.any fun k => k.owner == o) = false → p.members.length < 256 →
            let new : Machine.Member :=
              { owner := o, hartid := s.hart.id, mode := m, sig := p.counter, wt := p.counter, waiting := false
                signalled := false, stall := none, woke := none }
            exec (.phreg m a c) s = .next ((s.putPhaser { p with members := p.members ++ [new] }).holds c
              (status 0 p.counter)).falls)
          ∧ ((p.members.any fun k => k.owner == o) = false → exec (.phdrop a c) s = .next (s.holds c (status 3 p.counter)).falls)
          ∧ ((p.members.any fun k => k.owner == o) = true →
            exec (.phdrop a c) s = .next ((s.putPhaser (p.drop o)).holds c (status 0 (p.drop o).counter)).falls)

/-- Signals and waits of a member that no wait has left anything of: a member whose mode does not admit the operation gets status
4; `phsig` of a phase not yet signalled advances sig, and one of a phase already signalled stalls; `phwait` past a counter that
exceeds wt advances wt, else the caller waits; `phsw` signals, then waits; each status has the counter after the operation, with
the advance that a signal completes (R98 to R100, R340). The model's readings here: log entries 11 and 21. -/
def Sys2Proof.Says.PhaserSignalsAndWaits : Prop :=
  ∀ (a c : XReg) (s : State) (p : Phaser) (m : Machine.Member), s.outside → s.mayFall → s.hart.phWoke = none →
    s.phaser? (s.getX a) = some p → p.members.find? (fun k => k.owner == s.hart.name) = some m →
    m.woke = none → m.signalled = false → m.stall = none → m.waiting = false →
    let status := fun k : BitVec 32 => BitVec.ofNat 64 (k.toNat * 2 ^ 32)
    let set := fun f : Machine.Member → Machine.Member =>
      { p with members := p.members.map fun k => if k.owner = m.owner then f k else k }
    (m.mode = .waitOnly → exec (.phsig a c) s = .next (s.holds c (status p.counter + 4)).falls)
      ∧ (m.mode = .signalOnly → exec (.phwait a c) s = .next (s.holds c (status p.counter + 4)).falls)
      ∧ (m.mode ≠ .signalWait → exec (.phsw a c) s = .next (s.holds c (status p.counter + 4)).falls)
      ∧ (m.mode ≠ .waitOnly → phAfter m.sig p.counter = true →
        exec (.phsig a c) s = .next (s.putPhaser (set fun k => { k with stall := some false })))
      ∧ (m.mode = .signalWait → phAfter m.sig p.counter = true →
        exec (.phsw a c) s = .next (s.putPhaser (set fun k => { k with stall := some true })))
      ∧ (m.mode ≠ .waitOnly → phAfter m.sig p.counter = false →
        let q := (set fun k => { k with sig := k.sig + 1 }).advance
        exec (.phsig a c) s = .next ((s.putPhaser q).holds c (status q.counter)).falls)
      ∧ (m.mode ≠ .signalOnly → phAfter p.counter m.wt = true →
        let q := set fun k => { k with wt := k.wt + 1, waiting := false, signalled := false, woke := none }
        exec (.phwait a c) s = .next ((s.putPhaser q).holds c (status p.counter)).falls)
      ∧ (m.mode ≠ .signalOnly → phAfter p.counter m.wt = false →
        exec (.phwait a c) s = .next (s.putPhaser (set fun k => { k with waiting := true })))
      ∧ (m.mode = .signalWait → phAfter m.sig p.counter = false →
        let q := (set fun k => { k with sig := k.sig + 1, signalled := true, waiting := true }).advance
        ∀ k, q.members.find? (fun k => k.owner == m.owner) = some k →
          (∀ w, k.woke = some w → exec (.phsw a c) s = .next ((s.putPhaser
            { q with members := q.members.map fun j =>
                if j.owner = m.owner then { j with wt := j.wt + 1, waiting := false, signalled := false, woke := none }
                else j }).holds c (status w)).falls)
          ∧ (k.woke = none → phAfter q.counter k.wt = false →
            exec (.phsw a c) s = .next (s.putPhaser
              { q with members := q.members.map fun j => if j.owner = m.owner then { j with waiting := true } else j })))

/-! ### Tasks and groups -/

/-- `gmem` reads a member of a group of the hart's launch: the count in the high half, the member's word, or 0 past the end, in
the low half (R311). -/
def Sys2Proof.Says.GroupMembersAreRead : Prop :=
  ∀ (a b c : XReg) (s : State), s.compute → s.outside → s.mayFall →
    let ms := s.groupMembers ((s.getX a).toNat % 256)
    exec (.gmem a b c) s = .next (s.holds c (BitVec.ofNat 64
      (ms.length * 2 ^ 32 + (match ms[(s.getX b).toNat]? with | some m => s.memberWord m | none => 0)))).falls

/-- `post` of an acceptable record with a count adds a record to the partition its key selects, and the launch counts the tasks;
where 256 records stand in the partition on chip, the oldest of the lowest priority is spilled, and no other changes; a count of 0
adds nothing; a misaligned or unacceptable record traps `POSTBAD`; with a strip open `post` traps `STRIPILL` (R93, R95, R198,
R342). The model's readings here: log entries 4, 22 and 27. -/
def Sys2Proof.Says.PostAddsTasks : Prop :=
  ∀ (a : XReg) (s : State), s.compute → (s.hart.st 13 = true → exec (.post a) s = .next (s.raise 0x10 0)) ∧
    (s.hart.st 13 = false → s.mayFall →
    let va := s.getX a
    let r := s.seesNow va.toNat 64
    let k := s.hart.task
    let here := s.partitionOf (field r 16 8)
    let chip := fun x : TaskRec => x.cluster == here && !x.spilled
    (va.toNat % 64 ≠ 0 → exec (.post a) s = .next (s.raise 0x0F va))
      ∧ (va.toNat % 64 = 0 → s.canRead va.toNat 64 →
        (k.mayPost r = false → exec (.post a) s = .next (s.raise 0x0F va))
          ∧ (k.mayPost r = true → field r 40 4 = 0 → exec (.post a) s = .next (s.counted va.toNat 64).falls)
          ∧ (k.mayPost r = true → 0 < field r 40 4 →
            ∃ t q, exec (.post a) s = .next t
              ∧ q.length = s.queue.length
              ∧ (∀ i (x : TaskRec), s.queue[i]? = some x → q[i]? = some { x with
                spilled := x.spilled || decide (256 ≤ (onChip s.queue here).length ∧ chip x = true
                  ∧ (∀ y ∈ s.queue, chip y = true → x.priority ≤ y.priority)
                  ∧ ∀ y ∈ s.queue.take i, chip y = true → x.priority < y.priority) })
              ∧ t.queue = q ++ [{
                id := s.nextName, launch := k.launch, cluster := here, entry := BitVec.ofNat 64 (field r 0 8)
                args := BitVec.ofNat 64 (field r 8 8), key := BitVec.ofNat 64 (field r 16 8), argstride := BitVec.ofNat 32 (field r 44 4), count := field r 40 4
                next := 0, priority := field r 48 1, lanes := field r 49 1, preempt := field r 50 1
                classmap := BitVec.ofNat 16 (field r 52 2), ranges := k.grantsFor (field r 24 8) (field r 32 8), places := []
                spilled := false }]
              ∧ t = { s.counted va.toNat 64 with
                  queue := t.queue
                  nextName := s.nextName + 1
                  launches := s.launches.map fun (l : Launch) =>
                    if l.id = k.launch then { l with live := l.live + field r 40 4 } else l }.falls)))

/-- `texit` of a task with no open claim ends it once its copies have performed: the hart is unbound, with its token table and its
partition as they were, memory is as the copies and the hart's stores left it, and no phaser has the hart as a member; with a
claim open it waits; a copy that does not translate ends the task as it does by itself; inside a strip `texit` traps `STRIPILL`;
nothing more is delivered for its tokens (R95, R167, R199, R236, R238, R351). The model's readings here: log entries 11 and 22. -/
def Sys2Proof.Says.TaskExitEndsTheTask : Prop :=
  ∀ s : State, s.compute →
    (s.hart.st 13 = true → exec .texit s = .next (s.raise 0x10 0))
      ∧ (s.hart.st 13 = false → ∀ d, s.drainAll (fun _ => true) = .ok d →
        (d.hart.clstat.toNat % 8 ≠ 1 →
          ∃ t, exec .texit s = .next t ∧ t.mem = d.flushLate.mem
            ∧ t.hart = { Hart.reset d.hart.name with
              part := d.hart.part, retired := d.hart.retired, tokOrder := d.hart.tokOrder
              tokens := d.hart.tokens.map fun k => { k with undelivered := false } }
            ∧ (∀ p ∈ t.phasers, ∀ m ∈ p.members, m.owner ≠ d.hart.name))
          ∧ (d.hart.clstat.toNat % 8 = 1 → exec .texit s = .next d))
      ∧ (s.hart.st 13 = false → ∀ d, s.drainAll (fun _ => true) = .error d → exec .texit s = .next d)

/-! ### Remote operations -/

/-- `rput` through a registered window with a token slot to take: the token is written to xc, its slot is pending, and the put
enters the window's order. A put whose carried tokens are all accepted leaves at once, waiting at its target for those that have
not landed, whose puts watch for it; one that carries a token not yet accepted is kept; one that carries an expired token expires
and never leaves; one to an absent peer fails with code 2, the other puts as they were. The lease of its source is checked first,
whatever its window: the first byte refused ends the task. Through an unregistered window, or of nothing, `rput` then writes 0; with
no slot to take it waits (R177, R230 to R232, R235 to R238, R345). The model's readings here: log entries 16 and 17. -/
def Sys2Proof.Says.RemotePutsTakeATokenAndEnterOrder : Prop :=
  ∀ (sl : Slot) (a b c : XReg) (s : State), s.compute → s.outside → s.mayFall →
    let n := s.hart.copyBytes
    let va := (s.getX b).toNat
    let w := s.getX a
    let win := rawWin w
    let l := s.hart.task.launch
    let may := ∀ k < n, s.hart.task.mayRead (va + k) = true
    (∀ k < n, (∀ j < k, s.hart.task.mayRead (va + j) = true) → s.hart.task.mayRead (va + k) = false →
        exec (.rput sl a b c) s = .next (s.terminate 0x20 (BitVec.ofNat 64 (va + k)) 0 0))
      ∧ (may → n = 0 ∨ s.ownWindow w = none → exec (.rput sl a b c) s = .next (s.holds c 0).falls)
      ∧ (0 < n → (s.ownWindow w).isSome = true → may → s.hart.pickSlot = none → exec (.rput sl a b c) s = .next s)
      ∧ (0 < n → (s.ownWindow w).isSome = true → may → s.translates va n → ∀ k, s.hart.pickSlot = some k →
          let gen := (s.hart.tokens.get k).gen % 1023 + 1
          let tok := BitVec.ofNat 16 (gen * 64 + k.val)
          let carried := (s.carriedTokens c).filter fun t => t.toNat % 64 != k.val
          let needs := (carried.filter (s.hart.tokIs .pending)).map fun t => (s.tokName t).serial
          let m : PutMsg :=
            { src := { party := s.party, token := tok, serial := s.nextName }, peer := rawPeer w, tenant := s.hart.task.tenant
              job := s.hart.task.job, win := win, off := rawOff w, data := s.seesNow va n, carried := carried.map s.tokName
              waits := [] }
          let p : PutRec :=
            { tok := m.src, owner := s.hart.task.serial, launch := l, win := win, ticket := s.nextName, peer := rawPeer w, msg := m
              due := s.cluster.refTick + s.hart.tkexp, cluster := s.hart.name.cluster, needs := needs, sent := false
              accepted := false, failed := false, expired := false, watchers := [] }
          let taken := fun st : TokSt =>
            ({ s.counted va n with
              nextName := s.nextName + 1
              hart := { s.hart with
                tokens := s.hart.tokens.set k.val
                  { gen := gen, st := st, order := s.hart.tokOrder, undelivered := false, put := s.nextName }
                tokPtr := Fin.ofNat 64 (k.val + 1), tokOrder := s.hart.tokOrder + 1 } } : State).inOrder l win s.nextName
          (carried.any (s.hart.tokIs .expired) = true →
            exec (.rput sl a b c) s = .next ((((taken .expired).closeOp l win s.nextName 0)).holds c (tok.setWidth 64)).falls)
          ∧ (carried.any (s.hart.tokIs .expired) = false → needs ≠ [] →
            exec (.rput sl a b c) s = .next (({ taken .pending with puts := s.puts ++ [p] } : State).holds c
              (tok.setWidth 64)).falls)
          ∧ (carried.any (s.hart.tokIs .expired) = false → needs = [] → s.isAbsent (rawPeer w) = false →
            let waits := m.carried.filter fun t => (s.puts ++ [p]).any fun q => q.tok == t
            ∃ ps, exec (.rput sl a b c) s = .next (({ taken .pending with
                puts := ps, egress := s.egress ++ [.put { m with waits := waits }] } : State).holds c (tok.setWidth 64)).falls
              ∧ ps.map (·.tok) = (s.puts ++ [p]).map (·.tok)
              ∧ (∃ q ∈ ps, q.ticket = s.nextName ∧ q.sent = true ∧ q.msg = { m with waits := waits })
              ∧ ∀ q ∈ ps, waits.contains q.tok = true → q.watchers.contains (rawPeer w) = true)
          ∧ (carried.any (s.hart.tokIs .expired) = false → needs = [] → s.isAbsent (rawPeer w) = true →
            exec (.rput sl a b c) s = .next (({ (taken .pending).closeOp l win s.nextName 2 with
                puts := (s.puts ++ [p]).map fun q => if q.ticket = s.nextName then { q with failed := true } else q } : State).holds c
              (tok.setWidth 64)).falls))

/-- `rget` through a registered window enters the window's order, sends its request and writes OUT as it will stand when the
operation is passed; to an absent peer it sends nothing and completes with code 2; with nothing to get it writes OUT; through an
unregistered window 0 (R230 to R232, R240). The model's readings here: log entry 16. -/
def Sys2Proof.Says.RemoteGetsSendARequest : Prop :=
  ∀ (sl : Slot) (a b c : XReg) (s : State), s.compute → s.outside → s.mayFall →
    let n := s.hart.copyBytes
    let w := s.getX a
    let win := rawWin w
    let l := s.hart.task.launch
    (∀ k < n, s.hart.task.mayWrite ((s.getX b).toNat + k) = true) →
    (s.ownWindow w = none → exec (.rget sl a b c) s = .next (s.holds2 c 0).falls)
      ∧ ∀ v, s.ownWindow w = some v →
        let after := (v.out + BitVec.ofNat 32 (v.ops.length + 1)).setWidth 64
        let g : GetRec :=
          { owner := s.hart.task.serial, ticket := s.nextName, launch := l, win := win, asid := s.hart.task.asid
            tenant := s.hart.task.tenant, peer := rawPeer w, dst := s.getX b, len := n, failed := false }
        (n = 0 → exec (.rget sl a b c) s = .next (s.holds2 c (v.out.setWidth 64)).falls)
          ∧ (0 < n → s.isAbsent (rawPeer w) = false →
            exec (.rget sl a b c) s = .next (({ s.inOrder l win s.nextName with
              nextName := s.nextName + 1, gets := s.gets ++ [g]
              egress := s.egress ++ [.request s.nextName
                { src := s.party, peer := rawPeer w, tenant := s.hart.task.tenant, job := s.hart.task.job, win := win
                  off := rawOff w, kind := .get n }] } : State).holds2 c after).falls)
          ∧ (0 < n → s.isAbsent (rawPeer w) = true →
            exec (.rget sl a b c) s = .next ((s.failedOp l win 2).holds2 c after).falls)

/-- `ramo` and `rldred`: an aligned, well-formed `ramo` enters its window's order and sends its request, and the hart waits at the
instruction for the answer; through an unregistered window it writes 0, and a malformed, misaligned or unreachable one writes 0
and completes with code 7, 6 or 2. `rldred` sends a request to every member that can be reached and waits for the replies; of a
group without members it stores zeros and writes 0; through a window not registered here it sends nothing, stores zeros and counts
every member as failed with code 3; a malformed control word of it writes 7 (R230 to R232, R241, R242, R345). The model's readings
here: log entries 11 and 16. -/
def Sys2Proof.Says.RemoteAtomicsAndReductionsAsk : Prop :=
  ∀ (sl : Slot) (a b c : XReg) (s : State), s.compute → s.outside → s.mayFall →
    let w := s.getX a
    let win := rawWin w
    let l := s.hart.task.launch
    let cw := (s.getX c).toNat
    let n := s.hart.len
    let dst := (s.getX b).toNat
    let ms := s.groupMembers (w.toNat % 256)
    let fails := fun code => exec (.ramo sl a b c) s = .next ((s.failedOp l win code).holds2 c 0).falls
    let request := fun (fid : Nat) (k : ReqKind) => Msg.request s.nextName
      { src := s.party, peer := fid, tenant := s.hart.task.tenant, job := s.hart.task.job, win := win, off := rawOff w, kind := k }
    (s.ownWindow w = none → exec (.ramo sl a b c) s = .next (s.holds2 c 0).falls)
      ∧ ((s.ownWindow w).isSome = true → (amoCode (cw % 32) = none ∨ 64 ≤ cw) → fails 7)
      ∧ ((s.ownWindow w).isSome = true → ∀ op, amoCode (cw % 32) = some op → cw < 64 →
        let w64 := decide (cw / 32 = 1)
        (rawOff w % atomBytes w64 ≠ 0 → fails 6)
          ∧ (rawOff w % atomBytes w64 = 0 → s.isAbsent (rawPeer w) = true → fails 2)
          ∧ (rawOff w % atomBytes w64 = 0 → s.isAbsent (rawPeer w) = false →
            exec (.ramo sl a b c) s = .next { s.inOrder l win s.nextName with
              nextName := s.nextName + 1
              egress := s.egress ++ [request (rawPeer w)
                (.atomic op w64 (BitVec.ofNat 64 ((s.getX b).toNat % 2 ^ (8 * atomBytes w64))))]
              hart := { s.hart with
                await := some
                  (.ramo c (if s.hart.lentDk = 1 then some s.hart.lentDc else none) w64 l win s.nextName (rawPeer w)) } }))
      ∧ ((∀ k < 4 * n, s.hart.task.mayWrite (dst + k) = true) →
        let zeros := fun status : Nat => s.translates dst (4 * n) →
          exec (.rldred sl a b c) s = .next
            ((s.wroteMem dst (List.replicate (4 * n) 0)).holds c (BitVec.ofNat 64 status)).falls
        (ms ≠ [] → s.ownWindow w = none → zeros (ms.length * 2 ^ 32 + 3))
          ∧ (ms = [] ∨ (s.ownWindow w).isSome = true →
            (ldredOk cw w = false → exec (.rldred sl a b c) s = .next (s.holds c 7).falls)
            ∧ (ldredOk cw w = true → ms = [] → zeros 0)
            ∧ (ldredOk cw w = true → ms ≠ [] →
              let near := ms.filter fun m => !s.isAbsent (m.fid.getD s.fid)
              exec (.rldred sl a b c) s = .next { s with
                nextName := s.nextName + 1
                egress := s.egress ++ near.map fun m =>
                  request (m.fid.getD s.fid) (.ldred (n * if cw % 8 = 1 then 2 else 4))
                hart := { s.hart with
                  await := some (.ldred c (s.getX b) n (cw % 8) (cw / 8 % 8) (s.hart.effClass sl)
                    (ms.map fun m => m.fid.getD s.fid)) } })))

/-- `rwait` writes a window's counter and ERR once the counter has reached the value or an error stands, clears ERR where asked,
drops the package's cache-remote lines, waits otherwise, and for a window not registered drops the lines and writes 3; `tkstat`
writes the code of a token (R169, R239, R243, R352). The model's readings here: log entry 11. -/
def Sys2Proof.Says.RemoteWaitsAndTokenStatus : Prop :=
  ∀ (a b c : XReg) (s : State), s.compute → s.outside → s.mayFall →
    let sel := (s.getX a).toNat
    let l := s.hart.task.launch
    (s.window? l (sel % 2 ^ 14) = none → exec (.rwait a b c) s = .next (({ s with lines := [] } : State).holds c 3).falls)
      ∧ (∀ v, s.window? l (sel % 2 ^ 14) = some v →
        let k := if sel / 2 ^ 14 % 2 = 1 then v.inn else v.out
        let behind := (k - (s.getX b).setWidth 32).msb = true
        (behind ∧ v.err = 0 → exec (.rwait a b c) s = .next s)
          ∧ (¬(behind ∧ v.err = 0) →
            let t := { s.holds c (BitVec.ofNat 64 (k.toNat * 2 ^ 32 + v.err)) with lines := [] }
            exec (.rwait a b c) s = .next
              (if sel / 2 ^ 15 % 2 = 1 then t.onWindow l (sel % 2 ^ 14) fun w => { w with err := 0 } else t).falls))
      ∧ (let t := (s.getX a).toNat % 2 ^ 16
        let k := s.hart.tokens.get (Fin.ofNat 64 t)
        let code := if k.st = .free ∨ k.gen ≠ t / 64 then 0 else if k.st = .pending then 1 else if k.st = .accepted then 2 else 3
        exec (.tkstat a c) s = .next (s.holds c (BitVec.ofNat 64 code)).falls)

/-! ### Claims and deadlines -/

/-- `claim` with a good address, group and lease: while a claim of the hart has not ended it waits, its checks made; then it takes
the next sequence, and where the flint bound is held proposes to every member and opens, to end its wait Wc ticks later, with the
best of the hart's open records of the address as its rival; where the bound is not held it ends `ABORTED` at once; a bad operand,
and an open record of another group on the address, trap `CLAIMBAD` (R255, R257, R259, R260, R262, R300). That groups of one index
of two launches are two groups is log entry 25's. -/
def Sys2Proof.Says.ClaimsPropose : Prop :=
  ∀ (a b c : XReg) (s : State), s.compute → s.outside → s.mayFall →
    let va := s.getX a
    let cw := (s.getX c).toNat
    let last := s.hart.clstat.toNat / 2 ^ 16 % 2 ^ 16
    let seq := if last = 65535 then 1 else last + 1
    let w := s.hart.clwin.toNat
    let ours := fun r : ClaimRec =>
      decide (r.prop.group = cw % 256 ∧ r.prop.tenant = s.hart.task.tenant ∧ r.prop.job = s.hart.task.job)
    let bad := 2 ^ 16 ≤ cw ∨ va.toNat % 8 ≠ 0 ∨ groupValid s.hart.task.groups (cw % 256) = false
      ∨ ∃ r ∈ s.openRecords va, ours r = false
    let open1 := s.hart.clstat.toNat % 8 = 1 ∨ ∃ k ∈ s.claims, k.owner = s.hart.name
    let p : Proposal :=
      { src := s.party, task := s.hart.task.serial, tenant := s.hart.task.tenant, job := s.hart.task.job, addr := va
        value := s.getX b, window := w
        seq := BitVec.ofNat 16 seq, prio := cw / 256 % 256, group := cw % 256, cls := s.hart.effClass 0 }
    let k : OpenClaim :=
      { owner := s.hart.name, serial := s.hart.task.serial, asid := s.hart.task.asid, tenant := s.hart.task.tenant
        cluster := s.hart.name.cluster, prop := p
        endsAt := s.cluster.refTick + BitVec.ofNat 64 (w + (4 * w + 9999) / 10000 + 303)
        rival := ((s.openRecords va).filter ours).foldl (fun m r => betterRival p m r.prop) none
        winner := none, objector := none, aborted := false, storing := false }
    let took := fun (st : Nat) (t : State) =>
      (({ t with hart := { s.hart with clstat := BitVec.ofNat 64 (seq * 2 ^ 16 + st), checked := false } } : State).holds c
        (BitVec.ofNat 64 seq)).falls
    (s.hart.checked = false → bad → exec (.claim a b c) s = .next (s.raise 0x13 va))
      ∧ (s.hart.checked = true ∨ (¬bad ∧ ∀ k < 8, s.hart.task.mayWrite (va.toNat + k) = true) →
        (open1 → exec (.claim a b c) s = .next { s with hart := { s.hart with checked := true } })
          ∧ (¬open1 → s.flintHeld = true → exec (.claim a b c) s = .next (took 1 { s with
            claims := s.claims ++ [k], egress := s.egress ++ (s.claimMembers p).map fun d => Msg.proposal p d }))
          ∧ (¬open1 → s.flintHeld = false → exec (.claim a b c) s = .next (took 5 s)))

/-- `object` objects to every open record of the hart on an address and group and writes their number, or traps `OBJLATE` where
only closed ones stand; `clwait` writes `CLSTAT` once no claim is open, and waits otherwise (R258, R261, R337). The model's
readings here: log entries 11 and 25. -/
def Sys2Proof.Says.ObjectionsAndClaimWaits : Prop :=
  ∀ (a b c : XReg) (s : State), s.compute → s.outside → s.mayFall →
    let va := s.getX a
    let g := (s.getX b).toNat
    let mine := s.records.filter fun r => r.owner == s.hart.name && r.prop.addr == va && r.prop.group == g
      && r.prop.tenant == s.hart.task.tenant && r.prop.job == s.hart.task.job
    let opens := mine.filter s.recOpen
    (256 ≤ g ∨ va.toNat % 8 ≠ 0 → exec (.object a b c) s = .next (s.raise 0x13 va))
      ∧ (g < 256 → va.toNat % 8 = 0 →
        (opens = [] → mine ≠ [] → exec (.object a b c) s = .next (s.raise 0x14 va))
          ∧ (opens ≠ [] ∨ mine = [] → exec (.object a b c) s = .next (({ s with
              egress := s.egress ++ opens.map fun r => Msg.objection r.prop s.party (!s.flintHeld) } : State).holds c
                (BitVec.ofNat 64 opens.length)).falls))
      ∧ (s.hart.clstat.toNat % 8 ≠ 1 → exec (.clwait c) s = .next (s.holds c s.hart.clstat).falls)
      ∧ (s.hart.clstat.toNat % 8 = 1 → exec (.clwait c) s = .next s)

/-- `dln` opens a step with its deadline and estimate, none of its marks set and no `DLNRISK` pending, the open step before it
closed with its slack, and the governor decides, requesting every token the budget leaves (where the first pass lacks tokens,
other clusters give back second-pass ones first); `dlnend` closes an open step, recording its slack and whether it missed, and
writes `DLNSTAT` (R266, R267, R270 to R272). The model's readings here: log entry 24. -/
def Sys2Proof.Says.DeadlineSteps : Prop :=
  ∀ (a b c : XReg) (s : State), s.compute → s.mayFall →
    let now : BitVec 32 := s.cluster.refTick.setWidth 32
    (∃ u, decidedAs { s with hart := { s.hart with
            step := some { deadline := now + (s.getX a).setWidth 32, estimate := (s.getX b).setWidth 32 }
            status := s.hart.status &&& ~~~0x100, dlnPre := false, dlnRisk := false, dlnMiss := false, dlnDone := 0
            dlnSlack := match s.hart.step with | some st => st.deadline - now | none => s.hart.dlnSlack } } u 12800
          s.cluster.gov.last
        ∧ exec (.dln a b) s = .next u.falls)
      ∧ ∃ t, exec (.dlnend c) s = .next t
        ∧ t.hart.step = none
        ∧ (∀ st, s.hart.step = some st →
          t.hart.dlnSlack = st.deadline - now ∧ t.hart.dlnMiss = (st.deadline - now).msb ∧ t.hart.st 8 = false)
        ∧ (s.hart.step = none → t.hart.dlnSlack = s.hart.dlnSlack ∧ t.hart.dlnMiss = s.hart.dlnMiss
          ∧ t.hart.status = s.hart.status)
        ∧ t.getX c = (if c = 0 then 0 else t.hart.dlnstat s.cluster.refTick)
        ∧ t = { s with hart := t.hart } ∧ t.hart.pc = s.fallPc ∧ (∀ r, r ≠ c → t.getX r = s.getX r)

/-! ### The engines, pre-emption and the governor -/

/-- What the engines of the hart in front do: the oldest entry of a queue performs and leaves it (its bytes are shown for one run
from memory to memory, and for a queue fill from memory), or writes its next granules and stands there with the rest of them, its
source read, and waits at a granule in a page marked busy (log entry 39); a fill makes an Absent tile Clean with its backing bytes
where the tile store has a slot; a spill starts for a Dirty tile and leaves it Clean with its bytes at its backing, or ends the
task where that does not translate (log entry 8); a Clean slot is reclaimed, and where a plain store has changed the backing
since, its bytes go there first, or it stays where the task may not write there (log entry 41); a cancelled transfer is issued
again (R109, R112, R119, R156, R167, R171, R194, R222, R225). -/
def Sys2Proof.Says.EnginesCopyFillAndSpill : Prop :=
  ∀ (q : Fin 8) (t : TReg) (s : State), s.hart.bound = true → s.hart.stopping = false →
    (∀ e, s.hart.copies.find? (fun e => e.queue == q) = some e →
        let left := { s.hart with copies := s.hart.copies.eraseP fun e => e.queue == q }
        (∀ a b n, e.work = .copy [{ src := .mem a, dst := .mem b, len := n }] →
            s.translates a.toNat n → s.translates b.toNat n → (∀ l ∈ s.leaves, l.aligned) → b.toNat + n ≤ 2 ^ 64 →
            s.unworn (n / 8 + 4) →
            (∃ u, exec (.copyEntryPerforms ⟨q, none⟩) s = .next u ∧ u.hart = left ∧ u.cluster = s.cluster
              ∧ ∀ j, u.mem.get j = (s.mem.putRuns (s.keys b.toNat n) (s.reads a.toNat n)).get j)
            ∧ ∀ k, 16 * k < n → b.toNat % 16 = 0 →
              ∃ u, exec (.copyEntryPerforms ⟨q, some k⟩) s = .next u
                ∧ u.hart.copies.find? (fun e => e.queue == q) = some { e with
                    work := .writing ((granulesOf (.mem b) (s.reads a.toNat n)).drop k), granules := e.granules + k }
                ∧ ∀ j, u.mem.get j
                  = (s.mem.putRuns (s.keys b.toNat (16 * k)) ((s.reads a.toNat n).take (16 * k))).get j)
          ∧ (∀ gs k u r, e.work = .writing gs → k < gs.length → s.writeGranules s.hart.task.asid (gs.take k) = .ok (u, r) →
            let left := r ++ gs.drop k
            exec (.copyEntryPerforms ⟨q, some k⟩) s = .next { u with hart := { u.hart with
              copies := replaceEntry (fun e => e.queue == q)
                (some { e with work := .writing left, granules := e.granules + (gs.length - left.length) }) u.hart.copies } })
          ∧ (∀ g r, e.work = .writing (g :: r) → s.granuleBusy s.hart.task.asid g = true →
            exec (.copyEntryPerforms ⟨q, none⟩) s = .next s)
          ∧ (∀ a dq k, e.work = .fill (.mem a) dq k → s.translates a.toNat 128 → s.unworn 9 →
            ∃ u, exec (.copyEntryPerforms ⟨q, none⟩) s = .next u ∧ u.hart = left
              ∧ u.mem = s.mem ∧ ∀ c : Fin 16, u.cluster.queues.get c = if c = dq then
                (s.cluster.queues.get c).map fun d =>
                  if d.id = k then { d with bytes := some (s.reads a.toNat 128) } else d
              else s.cluster.queues.get c))
      ∧ (∀ x, s.hart.transfer? t false = some x → s.hart.tileIn x.base t = some .absent → s.slotsFor 1 →
        let a := backing x.base t.val
        s.translates a tileSize →
          let b := Bytes.put [] 0 (s.reads a tileSize)
          exec (.tileFillDone t) s = .next
            (({ s with hart := (s.hart.dropTransfer x).setTileIn x.base t (.clean b) } : State).counted a tileSize))
      ∧ (∀ c b, s.hart.ctxs.find? (fun c => match c.tiles.get t with | .dirty _ => true | _ => false) = some c →
        c.tiles.get t = .dirty b →
        let x : Transfer := { base := c.base, tile := t, spill := true, cancelled := false }
        x ∉ s.hart.transfers →
          exec (.tileSpillStart t) s = .next { s with hart := { s.hart with transfers := s.hart.transfers ++ [x] } })
      ∧ (∀ x b, s.hart.transfer? t true = some x → s.hart.tileIn x.base t = some (.dirty b) →
        let a := backing x.base t.val
        (s.translates a tileSize →
          exec (.tileSpillDone t) s = .next ({ s with
            mem := s.mem.putRuns (s.keys a tileSize) (b.getN 0 tileSize)
            lines := s.lines.map fun (l : RemLine) => l.written s.hart.task.asid a (b.getN 0 tileSize)
            baselines := (s.touch s.hart.task.asid a tileSize).baselines
            hart := (s.hart.dropTransfer x).setTileIn x.base t (.clean b) }.counted a tileSize))
        ∧ ∀ e, s.runs s.hart.task.asid a tileSize = .error e →
          exec (.tileSpillDone t) s = .next ({ s with hart := s.hart.dropTransfer x }.terminateAtStop 0x21 (BitVec.ofNat 64 e)
            (BitVec.ofNat 64 t.val) (BitVec.ofNat 64 a)))
      ∧ (∀ c b, s.hart.ctxs.find? (fun c => match c.tiles.get t with | .clean _ => true | _ => false) = some c →
        s.hart.tileIn c.base t = some (.clean b) → c.tiles.get t = .clean b → s.translates (backing c.base t.val) tileSize →
        let a := backing c.base t.val
        let same := s.reads a tileSize = b.getN 0 tileSize
        (same ∨ s.hart.task.mayWrite a = true →
          ∃ u, exec (.slotReclaim t) s = .next u ∧ u.hart = s.hart.setTileIn c.base t .absent ∧ u.cluster = s.cluster
            ∧ (same → u.mem = s.mem)
            ∧ (¬same → u.mem = s.mem.putRuns (s.keys a tileSize) (b.getN 0 tileSize)))
        ∧ (¬same → s.hart.task.mayWrite a = false → exec (.slotReclaim t) s = .next s))
      ∧ exec .transferReplay s = .next { s with hart := { s.hart with transfers := replayFirst s.hart.transfers } }

/-- The deadline interrupt, where IE, RIE, RIP and `TVEC` admit it and nothing else comes first, enters level K with its cause and
clears RIP; a strip stays open (R207, R210, R213, R221). -/
def Sys2Proof.Says.DeadlineInterruptIsTaken : Prop :=
  ∀ s : State, s.attend = .interrupt →
    ∃ t, exec .dlnRisk s = .next t ∧ t.hart.level = .k ∧ t.hart.pc = s.hart.tvec
      ∧ t.hart.epc = BitVec.ofNat 64 (s.hart.pc.toNat / 4 * 4)
      ∧ t.hart.cause = BitVec.ofNat 64 (2 ^ 63 + 0x30) ∧ t.hart.tval = 0 ∧ t.hart.st 8 = false ∧ t.hart.st 10 = false
      ∧ t.hart.st 11 = true ∧ t.hart.strip = s.hart.strip ∧ t.hart.x = s.hart.x ∧ t.mem = s.mem

/-- Pre-emption: a request that obsidian may make stops the issue of the hart and cancels its transfers; its completion, once
nothing the hart must finish is out and what it issued has performed, leaves the hart unbound, its context without its step
waiting ahead of every other, and its checkpoint area written under the next sequence; where its tenant is stopped, no context of
it keeps a Dirty tile; of a bound hart the first granule of its area that does not hold what it should streams there, and the
area's sequence, which makes it consistent, stays (R201, R222, R224, R226, R269, R277). The model's readings here: log entries 12,
23 and 54. -/
def Sys2Proof.Says.PreemptionStopsAndParks : Prop :=
  ∀ s : State, s.hart.bound = true →
    (s.hart.stopping = false → s.mayPreempt = true →
        ∃ t, exec .preemptionRequest s = .next t ∧ t.hart.stopping = true ∧ (∀ x ∈ t.hart.transfers, x.cancelled = true)
          ∧ t.hart.transfers.length = s.hart.transfers.length
          ∧ t.hart.x = s.hart.x ∧ t.hart.pc = s.hart.pc ∧ t.mem = s.mem)
      ∧ (s.hart.stopping = true → s.mayLeave = false → exec .preemptionComplete s = .next s)
      ∧ (s.hart.stopping = true → s.mayLeave = true → ∀ u, s.settleLeave s.hart.vqueue.length = .ok u →
        let a := u.hart.task.ckpt
        let h := { u.hart with stopping := false, step := none, loaded := [] }
        let n := u.mem.val (u.areaKey a + 8) 8 + 1
        let stopped := u.tenants.any fun t => t.id == s.hart.task.tenant && t.q == .stopped
        ∃ t, exec .preemptionComplete s = .next t
          ∧ (stopped = false →
            t = { u with
                mem := t.mem, parked := h :: u.parked, ckpts := (a, n, h) :: u.ckpts.filter fun c => c.1 != a
                hart := { Hart.reset u.hart.name with part := u.hart.part, retired := u.hart.retired } }
              ∧ t.mem.val (u.areaKey a + 8) 8 = n % 2 ^ 64
              ∧ ∀ j, j < u.areaKey a ∨ u.areaKey a + h.areaSize ≤ j → t.mem.get j = u.mem.get j)
          ∧ (stopped = true → t.hart.bound = false ∧ ∀ k ∈ t.parked, k.task.tenant = s.hart.task.tenant →
            ∀ x ∈ k.ctxs, ∀ (r : TReg) (b : Bytes), x.tiles.get r ≠ .dirty b))
      ∧ (s.unwritten = none → exec .checkpointStream s = .next s)
      ∧ ∀ g, s.unwritten = some g →
        let k := s.areaKey s.hart.task.ckpt
        ∃ t, exec .checkpointStream s = .next t ∧ t = { s with mem := t.mem }
          ∧ t.mem.getN (k + 128 * g) 128 = s.areaNow.getN (128 * g) 128 ∧ t.mem.val (k + 8) 8 = s.mem.val (k + 8) 8
          ∧ ∀ j, j < k + 128 * g ∨ k + 128 * g + 128 ≤ j → t.mem.get j = s.mem.get j

/-- The governor: 4,096 ticks after the last periodic decision it decides, with the tokens the arbiter grants, and before that it
does not; other clusters give back tokens only where the first pass lacks them, none falls below the 7 that the first pass leaves
every tenant's cluster, nor below its floor for a cluster of no tenant, and the point in force or on its way there is one that
what is left permits; the point it picks is the lowest permitted one at which every open step meets its deadline, the highest
permitted one where none is, and with no step open the highest permitted one not above point 9; the chosen point settles; the
throttle level moves by one within 0 to 3; in a droop the switch is on in at most 30 of the latest cycles, the clock is stretched
in the others, and both end with the droop (R270 to R274). The model's readings here: log entry 24. -/
def Sys2Proof.Says.GovernorStepsAct : Prop :=
  (∀ (hs : List Hart) (heat span cur : Nat) (now : Word),
      let p := pickPoint hs heat now span cur
      let all := fun q => ∀ h ∈ hs, h.meets now span cur q = true
      p < 16 ∧ (7 ≤ heat → pointTokens p ≤ heat)
        ∧ ((∀ h ∈ hs, h.step = none) → p ≤ 9 ∧ ∀ q ≤ 9, pointTokens q ≤ heat → q ≤ p)
        ∧ ((∃ h ∈ hs, h.step ≠ none) →
          (∀ q < 16, pointTokens q ≤ heat → all q → p ≤ q ∧ all p)
          ∧ ((∀ q < 16, pointTokens q ≤ heat → ¬all q) → ∀ q < 16, pointTokens q ≤ heat → q ≤ p)))
    ∧ (∀ s : State, s.heatFreed = { s with clusters := s.heatFreed.clusters }
      ∧ (s.heatSure + s.heatElsewhere ≤ 12800 → s.heatFreed = s)
      ∧ ∀ n, let c := s.clusterAt n
        let d := s.heatFreed.clusterAt n
        d = c ∨ (d = { c with gov := { c.gov with heat := d.gov.heat, target := d.gov.target } }
          ∧ s.heatKept false c ≤ d.gov.heat ∧ (s.cluster.tenant = none → s.heatKept true c ≤ d.gov.heat)
          ∧ d.gov.heat ≤ c.gov.heat ∧ (7 ≤ d.gov.heat → pointTokens (d.gov.target.getD d.gov.point).val ≤ d.gov.heat)))
    ∧ ∀ (g cycles : Nat) (up : Bool) (floor : Option Nat) (s : State),
      (let s1 := { s with heatFloor := match floor, s.cluster.tenant with
          | some f, some t => (t, f) :: s.heatFloor.filter fun x => x.1 != t
          | _, _ => s.heatFloor }
        if (s.cluster.refTick - s.cluster.gov.last).toNat < 4096 then exec (.governorDecision ⟨g, floor⟩) s = .next s1
        else ∃ u, decidedAs s1 u g s.cluster.refTick ∧ exec (.governorDecision ⟨g, floor⟩) s = .next u)
      ∧ (∀ p, s.cluster.gov.target = some p → exec .operatingPointSettles s = .next
          { s with cluster := { s.cluster with gov := { s.cluster.gov with point := p, target := none } } })
      ∧ (∃ t, exec (.throttleAdjust up) s = .next t
        ∧ t = { s with cluster := { s.cluster with gov := { s.cluster.gov with throttle := t.cluster.gov.throttle } } }
        ∧ t.cluster.gov.throttle.val =
          if up then min (s.cluster.gov.throttle.val + 1) 3 else s.cluster.gov.throttle.val - 1)
      ∧ (∃ t, exec (.supplyDroop ⟨cycles, true⟩) s = .next t
        ∧ t = { s with cluster := { s.cluster with gov := { s.cluster.gov with
            switch := t.cluster.gov.switch, stretched := t.cluster.gov.stretched, history := t.cluster.gov.history } } }
        ∧ ((s.cluster.gov.history.filter id).length ≤ 30 → (t.cluster.gov.history.filter id).length ≤ 30)
        ∧ (0 < cycles → t.cluster.gov.stretched = !t.cluster.gov.switch))
      ∧ exec (.supplyDroop ⟨1, true⟩) s = .next
        (let g := s.cluster.gov
          let on := !g.stretched && decide ((g.history.filter id).length < 30)
          { s with cluster := { s.cluster with gov := { g with
            switch := on, stretched := !on, history := (on :: g.history).take 1023 } } })
      ∧ exec (.supplyDroop ⟨cycles, false⟩) s = .next { s with cluster := { s.cluster with gov := { s.cluster.gov with
            switch := false, stretched := false
            history := (List.replicate (min cycles 1023) false ++ s.cluster.gov.history).take 1023 } } }

/-- What an instruction leaves for later: a store of the bound task performs at its translation, or takes its place in the strip it
was issued in, unless an earlier one of its class, of class 15 or of its bytes, or a fence that holds its class, stands before it, or
an older queued instruction may still fault; one that does not translate ends the task at its own pc, and nothing younger performs.
A fence is over once nothing it waits for stands before it. No queued instruction but the oldest retires, and that one does what it
would have done at its issue but for what the scalar stream has reached since: an integer operation writes its elements, a store its
units, a fence drops its lines; one that waits stays, with the units performed. Some units of a queued vector store, which go
ahead of none that shares their bytes and stands before them, perform alone, and not again (R86, R126, R166, R167,
R181, R183, R184, R213, R266, R308, R366). The model's readings here: log entry 10. -/
def Sys2Proof.Says.QueuedEffectsArrive : Prop :=
  ∀ (n : Nat) (s : State), s.hart.bound = true →
    (∀ v bs c pc y, s.hart.late[n]? = some (.store v bs c pc y) →
      let va := v.toNat
      let before := fun k : Late => match k with
        | .store a xs d _ _ => d = c ∨ d = 15 ∨ c = 15 ∨ (a.toNat < va + bs.length ∧ va < a.toNat + xs.length)
        | .fence m _ _ _ => m.getLsbD c.val = true
      let waits := (∃ k ∈ s.hart.late.take n, before k) ∨ ∃ q ∈ s.hart.vqueue.take y, q.sure = false
      let at1 := fun k : Late => match k with | .store a _ _ _ _ => a == v | .fence .. => false
      let performs := Instr.accessPerforms v ((s.hart.late.take n).filter at1).length
      let gone := { s.hart with late := s.hart.late.eraseIdx n }
      let u : State := { s.counted va bs.length with
        mem := s.mem.putRuns (s.keys va bs.length) bs
        lines := s.lines.map fun (r : RemLine) => r.written s.hart.task.asid va bs
        baselines := (s.touch s.hart.task.asid va bs.length).baselines
        hart := gone.wentPast va bs.length }
      (waits → exec performs s = .next s)
        ∧ (¬waits → s.hart.inStrip = true → exec performs s
          = .next ({ s with hart := { gone with strip := s.hart.strip ++ [buffered va bs c] } } : State).releaseFences)
        ∧ (¬waits → s.outside →
          (s.translates va bs.length → exec performs s = .next u.releaseFences)
          ∧ ∀ e, s.runs s.hart.task.asid va bs.length = .error e →
            exec performs s = .next
              ({ s with hart := { s.hart with pc := pc, late := s.hart.late.take n } }.terminate 0x21 (BitVec.ofNat 64 e) 0 0)))
      ∧ ((∀ l ∈ s.hart.late, ∃ a xs d pc y, l = .store a xs d pc y) → s.releaseFences = s)
      ∧ (∀ k m d pc y, s.releaseFences.hart.late[k]? = some (.fence m d pc y) →
        ∃ l ∈ s.releaseFences.hart.late.take k, l.ordered (.fence m d pc y) = true)
      ∧ (∀ pc ahead, ahead ≠ 0 ∨ (∀ q r, s.hart.vqueue = q :: r → q.pc ≠ pc) →
        exec (.queuedInstructionRetires pc ahead) s = .next s)
      ∧ ∀ q r, s.hart.vqueue = q :: r →
        let h := s.hart
        let retires := exec (.queuedInstructionRetires q.pc 0) s
        let at1 : State :=
          { s with
            how := .without q.done q.taken
            hart := { h with
              loaded := [], unitsDone := [], late := h.late.filter fun l => l.young == 0
              pc := q.pc, x := q.x, vl := q.vl, vstart := 0, classmap := q.classmap, seed := q.seed, stripbase := q.stripbase
              rmode := q.rmode, lent := q.lent, vqueue := []
              loopT := if h.level = .t then q.loops else h.loopT, loopK := if h.level = .t then h.loopK else q.loops } }
        let aged := h.late.map Late.aged
        (s.compute → at1.mayFall →
          (∀ o, q.i.wf = true → at1.intVecOp q.i = some o →
            ∃ t, retires = .next t ∧ elementsWritten at1 t o.d o.w (at1.on o.p o.n) (fun k => (o.f k).1)
              ∧ t = { s with hart := { h with v := t.hart.v, vqueue := r, late := aged } })
          ∧ (∀ d p w c unit addr, at1.vmemOp q.i = some (d, p, w, c, true, unit, addr) → s.outside →
            let n := at1.hart.units w
            let ks := (List.range n).filter (at1.does p n)
            let wrote := fun ks : List Nat =>
              at1.wroteAll (ks.map fun k => (addr k, (h.getV d).getN (k * ewBytes w) (ewBytes w))) (at1.hart.effClass c)
            at1.unworn n → (∀ k ∈ ks, at1.canWrite (addr k) (ewBytes w)) →
              (let z := wrote ks;
                retires = .next { s with
                  mem := z.mem, lines := z.lines, leaves := z.leaves, baselines := z.baselines
                  hart := { h with strip := z.hart.strip, vqueue := r, late := aged } })
              ∧ ∀ es, n ≤ 8192 → at1.mayLead q.i es = true →
                let z := wrote (ks.filter fun k => es.contains k)
                s.turnElems es = { s with
                  mem := z.mem, lines := z.lines, leaves := z.leaves, baselines := z.baselines
                  hart := { h with strip := z.hart.strip, vqueue := { q with done := q.done ++ es } :: r } })
          ∧ ∀ ack scope m, q.i = .fence ack scope m →
            retires = .next { s with
              lines := if ack = true ∧ 7 ≤ scope.val then [] else s.lines, hart := { h with vqueue := r, late := aged } })
        ∧ ∀ t : State, runQueued q.i at1 = some (.next t) → t.hart.bound = true → t.hart.level = h.level →
          let back := { t.hart with
            late := h.late, loaded := h.loaded, unitsDone := h.unitsDone
            pc := h.pc, x := q.writes.foldl (fun (x : Vector Word 32) (d : XReg) => x.set d.val (t.hart.x.get d)) h.x
            vl := if q.writesVl then t.hart.vl else h.vl
            vstart := h.vstart, classmap := h.classmap, seed := h.seed, stripbase := h.stripbase
            rmode := h.rmode, lent := h.lent, loopT := h.loopT, loopK := h.loopK }
          (t.hart.pc ≠ q.pc ∨ t.hart.loops ≠ q.loops →
            retires = .next { t with how := s.how, hart := { back with late := aged, vqueue := r } })
          ∧ (t.hart.pc = q.pc → t.hart.loops = q.loops →
            retires = .next { t with how := s.how, hart := { back with
              vqueue := { q with done := q.done ++ t.hart.unitsDone } :: r } })

/-! ### The host's commands -/

/-- A command is accepted when its sequence is the last accepted plus 1; any other changes nothing, for every command but `SYNC`
(R245). -/
def Sys2Proof.Says.CommandsOutOfSequenceAreDropped : Prop :=
  ∀ (c : Cmd) (s : State), c.seq ≠ s.cmdSeq + 1 →
    ∀ (m : MapCmd) (b : Bool) (n k l : Nat) (v : Word) (x y : BitVec 32) (q : Fin 16)
      (ms : List MapCmd) (r : LaunchReq) (ids : LaunchIds) (rc : RestoreChoice) (sd : SealDest) (op : CmdOpcode),
      ∀ i ∈ [Instr.launch c r ids, .mboxw c n k v, .map c m, .unmap c m, .remap c m n, .pageans c x y b ms, .carve c n k l,
          .uncarve c v, .pool c n q k l, .quiesceStop c, .quiesceSeal c b n v sd, .quiesceResume c, .quiesceDiscard c,
          .restore c v k b rc, .replay c x, .commandUnknown c op, .attestationRequest c v],
        exec i s = .next s

/-- Each mapping command, in sequence, gives the status R377 names and has the effect of its status 0: `MAP` installs a leaf in a
free range, in a new address space where the context has none, or admits one more tenant to a shared-half leaf; `UNMAP` withdraws
a tenant or removes the leaf with its cached lines; `REMAP` replaces the entry, with PURGE drops its cached lines, and with KEEP
keeps those of pages of mode 2 alone; the last two owe their answer, and the oldest answer owed is posted when the command
completes; the pages mapped and unmapped stand in what the next incremental image tells; a nonzero reserved byte is answered
0xFFFE, with no effect, for these and every other command that R379 lays out (R165, R168, R169, R173, R174, R176, R282, R377,
R379). The model's readings here: log entries 26, 46, 48 and 51. -/
def Sys2Proof.Says.MappingCommandsInstallAndRemove : Prop :=
  ∀ (c : Cmd) (m : MapCmd) (how : Nat) (s : State), c.seq = s.cmdSeq + 1 →
    let s1 : State := { s with cmdSeq := c.seq }
    let answered := fun (t : State) (code : Nat) => t.post c.seq (.status code 0 0 0)
    let owed := fun t : State => ({ t with mapPending := t.mapPending ++ [{ cmd := c.seq }] } : State)
    (c.badReserved = true → ∀ (b : Bool) (n k : Nat) (v : Word) (x y : BitVec 32) (ms : List MapCmd) (r : LaunchReq)
        (ids : LaunchIds), s.idsFree ids = true →
        ∀ i ∈ [Instr.map c m, .unmap c m, .remap c m how, .mboxw c n k v, .pageans c x y b ms, .launch c r ids],
          exec i s = .next (answered s1 0xFFFE))
      ∧ (c.badReserved = false →
        (s.entryOk m = false ∨ 1 < how → exec (.remap c m how) s = .next (answered s1 3))
        ∧ (s.entryOk m = false → exec (.map c m) s = .next (answered s1 3))
        ∧ (∀ a sp, s.entryOk m = true → (m.va < 2 ^ 56 → m.ctxId ≠ 0) →
          (if 2 ^ 56 ≤ m.va then a = 0 ∧ sp = s.spaces
            else (s.asidOf m.ctxId = some a ∧ sp = s.spaces)
              ∨ (s.asidOf m.ctxId = none ∧ s.freeAsid = some a ∧ sp = s.spaces ++ [(m.ctxId, a)])) →
          (∀ l, (s.leaves.find? fun l => l.touches a m.va (levelSize m.level)) = some l →
            let same := a = 0 ∧ l.va = m.va ∧ l.level = m.level ∧ l.pte = m.pte ∧ l.tenants.contains c.tenant = false
            (same → exec (.map c m) s = .next (answered { s1 with leaves := s.leaves.map fun (k : Leaf) =>
                if k.asid = 0 ∧ k.va = m.va then { k with tenants := k.tenants ++ [c.tenant] } else k } 0))
              ∧ (¬same → exec (.map c m) s = .next (answered s1 4)))
          ∧ ((∀ l ∈ s.leaves, l.touches a m.va (levelSize m.level) = false) →
            (s.synonym a m.va m.level m.pte = true → exec (.map c m) s = .next (answered s1 1))
            ∧ (s.synonym a m.va m.level m.pte = false → exec (.map c m) s = .next (answered { s1 with
              spaces := sp
              baselines := (({ s with spaces := sp } : State).touch a m.va (levelSize m.level)).baselines
              leaves := s.leaves ++
                [{ asid := a, level := m.level, va := m.va, pte := m.pte, tenants := [c.tenant], accesses := 0 }] } 0))))
        ∧ (s.exactLeaf m = none → exec (.unmap c m) s = .next (answered s1 5)
          ∧ (s.entryOk m = true → how ≤ 1 → exec (.remap c m how) s = .next (answered s1 5)))
        ∧ ∀ l, s.exactLeaf m = some l →
          let held := s.leased l.asid c.tenant l.va (levelSize l.level)
          let dropped := s.lines.filter fun x => !l.maps x.asid x.va
          let left := l.tenants.filter (· != c.tenant)
          (l.asid = 0 → l.tenants.contains c.tenant = false → exec (.unmap c m) s = .next (answered s1 5))
          ∧ (¬(l.asid = 0 ∧ l.tenants.contains c.tenant = false) → held = true → exec (.unmap c m) s = .next (answered s1 2))
          ∧ (¬(l.asid = 0 ∧ l.tenants.contains c.tenant = false) → held = false →
            exec (.unmap c m) s = .next (owed { s1 with
              lines := dropped
              baselines := (s.touch l.asid l.va (levelSize l.level)).baselines
              leaves := if l.asid = 0 ∧ left ≠ [] then s.leaves.map fun k => if k = l then { k with tenants := left } else k
                else s.leaves.filter fun k => k != l }))
          ∧ (s.entryOk m = true → how ≤ 1 →
            let others := l.asid = 0 ∧ ∃ t ∈ l.tenants, t ≠ c.tenant
            (held = true → exec (.remap c m how) s = .next (answered s1 2))
            ∧ (held = false → others → exec (.remap c m how) s = .next (answered s1 6))
            ∧ (held = false → ¬others → s.synonym l.asid l.va l.level m.pte = true →
              exec (.remap c m how) s = .next (answered s1 1))
            ∧ (held = false → ¬others → s.synonym l.asid l.va l.level m.pte = false →
              let new := s.leaves.map fun k => if k = l then { k with pte := m.pte, accesses := 0 } else k
              exec (.remap c m how) s = .next (owed { s1 with
                lines := if how = 1 then dropped
                  else s.lines.filter fun x => new.any fun k => pteMode k.pte == 2 && k.maps x.asid x.va
                leaves := new }))))
      ∧ ∀ p r, s.mapPending = p :: r →
        exec .mapCommandCompletes s = .next ({ s with mapPending := r }.post p.cmd (.status 0 0 0 0))

/-- `LAUNCH` of a package that accepts launches reads its image at its endpoint, and is answered with the first status that
applies, for which no signature over the image's digest by a key registered for the tenant counts as 4; one that none does waits
while a page is missing, each asked for, and starts when all are there: the launch is live with its windows and its tasks, and
status 0 with its identifier is posted; one of no task completes at once; a package that accepts none, and an image that is absent
or that R42 and R43 refuse, are answered with a status that is open (R17, R19, R42, R43, R51, R89 to R91, R175, R250, R379). The
model's readings here: log entries 9, 27 and 37. -/
def Sys2Proof.Says.LaunchAnswersOrStarts : Prop :=
  ∀ (c : Cmd) (r : LaunchReq) (ids : LaunchIds) (s : State), s.idsFree ids = true → c.seq = s.cmdSeq + 1 →
    c.badReserved = false →
    let s1 : State := { s with cmdSeq := c.seq }
    let refused := fun t : State => ∃ code, 1 ≤ code ∧ code < 65534
      ∧ exec (.launch c r ids) s = .next ({ t with freeCount := s.freeCount + 1 }.post c.seq (.status code 0 0 0))
    let img := s.outsideN r.imageFid r.imageAddr r.imageLen
    let s2 : State := if r.imageFid = s.fid then s1
      else { s1 with egress := s.egress ++ [.ualinkRead r.imageFid r.imageAddr r.imageLen] }
    let signed := sofAccepted s.registered c.tenant img
    let p := launchRecord r img
    let st := s2.launchStatus c signed p
    (s.usable = false ∨ s.configured = false → refused s1)
      ∧ (s.usable = true → s.configured = true →
        (s.quiet c.tenant = true → exec (.launch c r ids) s = .next (s1.post c.seq (.status 6 0 0 0)))
        ∧ (s.quiet c.tenant = false → r.imageFid ≠ s.fid → s.isAbsent r.imageFid = true → refused s1)
        ∧ (s.quiet c.tenant = false → r.imageFid = s.fid ∨ s.isAbsent r.imageFid = false →
          (signed = true → sofHeaderOk img = false ∨ sofTypesOk img = false → refused s2)
          ∧ (signed = false → exec (.launch c r ids) s = .next (s2.post c.seq (.status 4 0 0 0)))
          ∧ (signed = true → sofHeaderOk img = true → sofTypesOk img = true →
            (st ≠ 0 → exec (.launch c r ids) s = .next (s2.post c.seq (.status st 0 0 0)))
            ∧ (st = 0 →
              let missing := (neededPages p).filter fun a => !s.resident ((s.asidOf r.ctxId).getD 0) c.tenant a
              (0 < r.desc.count.toNat → missing ≠ [] →
                ∃ t l, exec (.launch c r ids) s = .next t ∧ t.launches = s.launches ++ [l] ∧ l.id = ids.launch
                  ∧ l.owed = some c.seq ∧ l.record = p ∧ l.requests.map (·.va) = missing.map (· * 65536)
                  ∧ t.completions.length = s.completions.length + missing.length ∧ t.queue = s.queue ∧ t.mem = s.mem)
              ∧ (0 < r.desc.count.toNat → missing = [] → (s.spaceFor r.ctxId 0).isSome = true →
                ∃ t, exec (.launch c r ids) s = .next t
                  ∧ t.completions = s.completions ++ [{ seq := s.compSeq + 1, cmd := c.seq, body := .status 0 ids.launch 0 0 }]
                  ∧ ∃ l ∈ t.launches, l.id = ids.launch ∧ l.lease = ids.lease ∧ l.tenant = c.tenant ∧ l.job = c.job
                    ∧ l.owed = none ∧ l.live = r.desc.count.toNat ∧ l.mbox = r.mbox ∧ l.windows = windowsOf r.windows
                    ∧ l.record = p)
              ∧ (r.desc.count = 0 → (s.spaceFor r.ctxId 0).isSome = true →
                ∃ t, exec (.launch c r ids) s = .next t
                  ∧ t.completions = s.completions ++
                    [{ seq := s.compSeq + 1, cmd := c.seq, body := .status 0 ids.launch 0 0 },
                      { seq := s.compSeq + 2, cmd := 0, body := .launchDone ids.launch r.ctxId 0 0 }]
                  ∧ t.launches = s.launches ∧ t.queue = s.queue ∧ t.mem = s.mem)))))

/-- `PAGEANS` that answers no outstanding request is answered 0 alone; one that refuses a page ends its launch with status 2; one
that gives its pages installs each as `MAP` would, is answered with the first status that is not 0, and its launch starts or goes
on waiting; `MBOXW` writes a mailbox word of a live launch of its tenant, and is answered 1 for another launch and 2 for an index
above 7 (R106, R175, R379). The model's readings here: log entry 27. -/
def Sys2Proof.Says.PageAnswersAndMailboxWrites : Prop :=
  ∀ (c : Cmd) (ctx req : BitVec 32) (n k : Nat) (v : Word) (ms : List MapCmd) (s : State), c.seq = s.cmdSeq + 1 →
    c.badReserved = false →
    let s1 : State := { s with cmdSeq := c.seq }
    let asks := fun l : Launch => l.owed.isSome && l.tenant == c.tenant && l.record.ctxId == ctx
      && l.requests.any fun q => q.seq == req
    (s.launches.find? asks = none → ∀ ok, exec (.pageans c ctx req ok ms) s = .next (s1.post c.seq (.status 0 0 0 0)))
      ∧ (∀ l, s.launches.find? asks = some l →
        exec (.pageans c ctx req false ms) s = .next
          ({ (s1.post c.seq (.status 0 0 0 0)) with launches := s.launches.filter fun k => k.id != l.id }.post (l.owed.getD 0)
            (.status 2 0 0 0))
        ∧ (let x := s1.mapAll c.tenant ms
          exec (.pageans c ctx req true ms) s = .next
            ((({ x.2 with launches := x.2.launches.map fun (k : Launch) =>
                if k.id = l.id then { k with requests := k.requests.filter fun q => q.seq != req } else k } : State).post c.seq
              (.status x.1 0 0 0)).seek l.id)))
      ∧ (∀ l, s.launch? n = some l → l.tenant = c.tenant → l.owed = none →
        (∀ h : k < 8, exec (.mboxw c n k v) s = .next ({ s1 with launches := s.launches.map fun (x : Launch) =>
          if x.id = l.id then { x with mbox := x.mbox.set k v h } else x }.post c.seq (.status 0 0 0 0)))
        ∧ (8 ≤ k → exec (.mboxw c n k v) s = .next (s1.post c.seq (.status 2 0 0 0))))
      ∧ ((∀ l, s.launch? n = some l → l.tenant ≠ c.tenant ∨ l.owed ≠ none) →
        exec (.mboxw c n k v) s = .next (s1.post c.seq (.status 1 0 0 0)))

/-- `CARVE` converts a run of ways that can be, under a new generation, and answers with the handle, or answers 1 where no run can
be; `UNCARVE` waits while an accepted copy names the carve-out, and then removes it; `POOL` waits while a hart of the cluster is
bound, gives a cluster of no tenant to its own, sets the limits of a queue and clears the error bit, or sets that bit on limits
that are ignored, which the host is told of (R161, R205). The model's readings here: log entries 9, 28, 50 and 53. -/
def Sys2Proof.Says.CarveOutsAndPoolLimits : Prop :=
  ∀ (c : Cmd) (die w n : Nat) (hd : Word) (cl : Nat) (q : Fin 16) (lo hi : Nat) (s : State), c.seq = s.cmdSeq + 1 →
    let s1 : State := { s with cmdSeq := c.seq }
    let used := ∃ h ∈ s.hart :: s.others ++ s.parked, h.usesCarve hd = true
    let mine := s.carves.any fun v => v.handle == hd && v.tenant == c.tenant
    let busy := ∃ h ∈ s.hart :: s.others, h.bound = true ∧ h.name.cluster = cl
    let k := (s.clusterAt cl).giveTo c.tenant
    let foreign := 192 ≤ cl ∨ ∃ t, (s.clusterAt cl).tenant = some t ∧ t ≠ c.tenant
    let becomes := fun (x : Cluster) (code : Nat) (t : State) =>
      exec (.pool c cl q lo hi) s = .next t ∧ t.clusterAt cl = x ∧ (∀ j, j ≠ cl → t.clusterAt j = s.clusterAt j)
        ∧ t.completions = s.completions ++ [{ seq := s.compSeq + 1, cmd := c.seq, body := .status code 0 0 0 }]
        ∧ t.hart = s.hart ∧ t.mem = s.mem
    (s.someRun die n = false → exec (.carve c die w n) s = .next (s1.post c.seq (.status 1 0 0 0)))
      ∧ (s.someRun die n = true → s.runOk die w n = true →
        let g := s.carveGen % 65535 + 1
        let h := BitVec.ofNat 64 (g * 2 ^ 26 + die * 2 ^ 24 + w * 2 ^ 19 + n * 2 ^ 14)
        let v : Carve := { handle := h, tenant := c.tenant, bytes := [] }
        exec (.carve c die w n) s = .next (({ s1 with carveGen := g, carves := s.carves ++ [v] } : State).post c.seq
          (.status 0 0 0 h)))
      ∧ (used → exec (.uncarve c hd) s = .next s)
      ∧ (¬used → mine = true →
          exec (.uncarve c hd) s = .next ({ s1 with carves := s.carves.filter fun v => v.handle != hd }.post c.seq
            (.status 0 0 0 0)))
      ∧ (¬used → mine = false → ∃ code, 1 ≤ code ∧ exec (.uncarve c hd) s = .next
          ({ s1 with freeCount := s.freeCount + 1 }.post c.seq (.status code 0 0 0)))
      ∧ (busy → exec (.pool c cl q lo hi) s = .next s)
      ∧ (¬busy → foreign → ∃ code t, 1 ≤ code ∧ becomes (s.clusterAt cl) code t)
      ∧ (¬busy → ¬foreign → k.limitsBad q lo hi = true → ∃ code t, 1 ≤ code ∧ becomes { k with poolErr := true } code t)
      ∧ (¬busy → ¬foreign → k.limitsBad q lo hi = false →
        ∃ t, becomes { k with qmin := k.qmin.set q.val lo, qcap := k.qcap.set q.val hi, poolErr := false } 0 t)

/-- `SYNC` is answered at once with both sequences; `REPLAY` of completions among the last 4,096 posts them again, in order, and
is answered 0, of others 1; an unknown opcode is answered 0xFFFF and an unknown mode of `QUIESCE` 1; an attestation report carries
the nonce and the digests of the obsidian image, the configuration image and the defect map, signed over their digest (R245, R246,
R276, R287; keys and signatures are open, log entry 5). The model's readings here: log entry 33. -/
def Sys2Proof.Says.CommandWindowAndAttestation : Prop :=
  ∀ (c : Cmd) (start : BitVec 32) (o : BitVec 16) (md : BitVec 8) (nonce : Word) (s : State),
    let s1 : State := { s with cmdSeq := c.seq }
    let n := (s.compSeq + 1 - start).toNat
    let find := fun k : Nat => s.completions.reverse.find? fun (x : Completion) => x.seq == start + BitVec.ofNat 32 k
    exec (.sync c) s = .next (s.post c.seq (.synced s.cmdSeq s.compSeq))
      ∧ (c.seq = s.cmdSeq + 1 →
        (13 < o.toNat ∨ o = 0 → exec (.commandUnknown c ⟨o, md⟩) s = .next (s1.post c.seq (.status 0xFFFF 0 0 0)))
          ∧ (o = 10 → md = 0 ∨ 4 < md.toNat → exec (.commandUnknown c ⟨o, md⟩) s = .next (s1.post c.seq (.status 1 0 0 0)))
          ∧ (let config := sha3 s.config
            let defects := sha3 (Config.defectMap (defectNums s.selfTest))
            let sig := Config.identitySign (sha3 (leBytes 8 nonce.toNat ++ Config.obsidianDigest ++ config ++ defects))
            exec (.attestationRequest c nonce) s = .next
              (s1.post c.seq (.attestation nonce Config.obsidianDigest config defects s.selfTest sig)))
          ∧ (4096 < n → exec (.replay c start) s = .next (s1.post c.seq (.status 1 0 0 0)))
          ∧ (n ≤ 4096 →
            (∀ xs : List Completion, xs.length = n → (∀ k < n, xs[k]? = find k) →
              exec (.replay c start) s = .next ({ s1 with completions := s.completions ++ xs }.post c.seq (.status 0 0 0 0)))
            ∧ ((∃ k < n, find k = none) → exec (.replay c start) s = .next (s1.post c.seq (.status 1 0 0 0)))))

/-- Obsidian binds the cluster's next task, the first of the highest priority of those a free hart can take, on a hart it can go
to, and on no other: a fresh task enters level T at its entry address with its argument and index, every other register at its
reset value, its backing area mapped to its frame and zero where it was not mapped; a fresh task on an access hart enters without
tiles; a context that left its hart resumes with its registers, its step gone and PRE set; a record the dispatch hardware ignores
only sets the error bit, and one whose pool could not hold its queues waits (R40, R85, R108, R200, R201, R203, R204, R209, R211,
R236, R269). The model's readings here: log entries 6, 23 and 52. -/
def Obligations.BindingEntersOrResumes : Prop :=
  ∀ (c : BindChoice) (s : State), s.hart.bound = false → s.usable = true →
    s.usedClusters.contains s.hart.name.cluster = true →
    (s.nextTask = none → exec (.bind c) s = .next s) ∧
    ∀ w, s.nextTask = some w →
      (s.waiting.contains w = false → exec (.bind c) s = .next s) ∧ (s.waiting.contains w = true →
      (choiceIgnored c (w.code s.hart.name) = true → exec (.bind c) s = .next { s with slotErr := true })
        ∧ (choiceIgnored c (w.code s.hart.name) = false →
          (∀ r l, w = .fresh r → s.launch? r.launch = some l →
            (s.freshOk l r c = false → exec (.bind c) s = .next s)
            ∧ (s.freshOk l r c = true →
              let args := r.args + BitVec.ofNat 64 r.next * r.argstride.setWidth 64
              let index := BitVec.ofNat 64 r.next
              let ah := s.hart.name.ah
              let frame := s.fid * 2 ^ 40 + c.frame * 2 ^ 16
              ∃ t, exec (.bind c) s = .next t
                ∧ t.hart = { Hart.reset s.hart.name with
                  part := c.part, bound := true, task := t.hart.task, retired := s.hart.retired
                  pc := if ah then r.entry &&& ~~~1 else r.entry
                  x := ((Vector.replicate 32 (0 : Word)).set 1 args).set 2 index
                  classmap := r.classmap.setWidth 64, tvec := BitVec.ofNat 64 (l.record.kvec.toNat / 4 * 4)
                  tokens := t.hart.tokens, tokOrder := s.hart.tokOrder
                  mapbase := if ah then 0 else BitVec.ofNat 64 c.backing
                  ctxs := if ah then [] else [TileCtx.all (BitVec.ofNat 64 c.backing) .undefined] }
                ∧ t.hart.level = .t ∧ t.getX 1 = args ∧ t.getX 2 = index ∧ (∀ q, q ≠ 1 → q ≠ 2 → t.getX q = 0)
                ∧ (∀ v : VReg, t.hart.v.get v = []) ∧ (∀ v : PReg, t.hart.p.get v = []) ∧ t.hart.vl = 0x8000
                ∧ t.hart.vstart = 0 ∧ t.hart.seed = 0 ∧ t.hart.stripbase = 0 ∧ t.hart.rmode = 0 ∧ t.hart.status = 0x400
                ∧ t.hart.pfxstate = 0 ∧ t.hart.cause = 0 ∧ t.hart.epc = 0 ∧ t.hart.tval = 0 ∧ t.hart.stripfault = 0
                ∧ t.hart.tkexp = 0x186A0 ∧ t.hart.clwin = 0x800 ∧ t.hart.clstat = 0 ∧ t.hart.ur = false
                ∧ t.hart.attached = false ∧ t.hart.copies = [] ∧ t.hart.loopT = [] ∧ t.hart.strip = []
                ∧ (∀ k : Fin 64, t.hart.tokens.get k =
                  if (s.hart.tokens.get k).st = .free then { gen := 0, st := .free, order := 0, undelivered := false, put := 0 }
                  else s.hart.tokens.get k)
                ∧ t.hart.task.index = r.next ∧ t.hart.task.launch = l.id ∧ t.hart.task.tenant = l.tenant
                ∧ t.hart.task.priority = r.priority ∧ t.hart.task.ckpt = c.ckpt
                ∧ t.hart.task.grants = (if ah then r.ranges
                  else { num := none, first := c.backing / 65536, pages := 16, write := true } :: r.ranges)
                ∧ (ah = false → s.leafAt l.asid c.backing = none →
                  ∀ j < 2 ^ 20, t.translate l.asid (c.backing + j) = some (frame + j))
                ∧ (∀ j, t.mem.get j =
                  if ah = false ∧ s.leafAt l.asid c.backing = none ∧ frame ≤ j ∧ j < frame + 2 ^ 20 then 0 else s.mem.get j)))
          ∧ ∀ h, w = .again h →
            (s.poolHolds (s.again h c.eqMin c.eqCap) = false → exec (.bind c) s = .next s)
            ∧ (s.poolHolds (s.again h c.eqMin c.eqCap) = true →
              ∃ t, exec (.bind c) s = .next t ∧ t.hart.x = h.x ∧ t.hart.v = h.v ∧ t.hart.p = h.p ∧ t.hart.pc = h.pc
                ∧ t.hart.level = h.level ∧ t.hart.status = h.status ∧ t.hart.lent = h.lent ∧ t.hart.copies = h.copies
                ∧ t.hart.ctxs = h.ctxs ∧ t.hart.attached = h.attached ∧ t.hart.stopping = false
                ∧ t.hart.step = none ∧ t.hart.dlnPre = true ∧ t.hart.dlnRisk = false ∧ t.hart.dlnMiss = false
                ∧ t.hart.dlnDone = 0 ∧ t.hart.task.eqMin = c.eqMin ∧ t.hart.task.eqCap = c.eqCap ∧ t.mem = s.mem
                ∧ ∀ k ∈ t.parked, k.task.serial ≠ h.task.serial)))

/-! ### Quiesce, restore, power -/

/-- `QUIESCE`: a stop of a running tenant marks it stopped, and every bound context of it is pre-empted, or has its issue stopped
where it still owes an answer; no context of it that left its hart keeps a Dirty tile; its open claims end, `CLSTAT` of their
tasks ABORTED, and each open record of its harts receives an abort objection (R277, R262; shown where its harts have left nothing
for later, log entry 10). A seal writes the signed bytes of the image of a stopped one to its
destination, with its contexts that left their harts, and marks it sealed, or is answered 2 where the destination is absent or
refuses; resume and discard return it to running, discard without its launches and contexts; each out of order is answered 1 (R276
to R280). The model's readings here: log entries 29 and 30. -/
def Sys2Proof.Says.QuiesceCommands : Prop :=
  ∀ (c : Cmd) (inc refused : Bool) (base : Nat) (addr : Word) (fid : Nat) (s : State), c.seq = s.cmdSeq + 1 →
    let s1 : State := { s with cmdSeq := c.seq }
    let t := s.tenant c.tenant
    let answered := fun (u : State) (code : Nat) => u.post c.seq (.status code 0 0 0)
    let toSeal := Instr.quiesceSeal c inc base addr ⟨fid, refused⟩
    let last := fun (u : State) (code : Nat) =>
      u.completions.getLast? = some { seq := u.compSeq, cmd := c.seq, body := .status code 0 0 0 }
    (t.q ≠ .running → exec (.quiesceStop c) s = .next (answered s1 1))
      ∧ (t.q = .running → ∃ u, exec (.quiesceStop c) s = .next u ∧ (u.tenant c.tenant).q = .stopped
        ∧ (((s.hart :: s.others).map (·.name)).Nodup → (∀ h ∈ s.hart :: s.others, h.vqueue = [] ∧ h.late = []) →
          (∀ h ∈ u.hart :: u.others, h.bound = true → h.task.tenant = c.tenant → h.stopping = true)
          ∧ (∀ h ∈ u.parked, h.task.tenant = c.tenant → ∀ x ∈ h.ctxs, ∀ (r : TReg) (b : Bytes), x.tiles.get r ≠ .dirty b)
          ∧ (∀ k ∈ u.claims, k.tenant ≠ c.tenant)
          ∧ (∀ k ∈ s.claims, k.tenant = c.tenant → ∀ h ∈ u.hart :: u.others ++ u.parked, h.bound = true →
            h.task.serial = k.serial → h.clstat.toNat % 8 = 5)
          ∧ ∀ r ∈ s.records, r.prop.tenant = c.tenant → s.recOpen r = true →
            .objection r.prop { fid := s.fid, hartid := r.hartid } true ∈ u.egress))
      ∧ (t.q = .running ∨ t.owed.isSome = true →
        ∀ i ∈ [toSeal, .quiesceResume c, .quiesceDiscard c], exec i s = .next (answered s1 1))
      ∧ (t.q ≠ .running → t.owed = none →
        (fid = s.fid ∨ (refused = false ∧ s.isAbsent fid = false) →
          ∃ u i, exec toSeal s = .next u ∧ (u.tenant c.tenant).q = .sealed ∧ last u 0
            ∧ u.images.head? = some i ∧ u.outsideN fid addr.toNat (i.signedBytes i.signature).length = i.signedBytes i.signature
            ∧ i.seq = t.images + 1 ∧ i.base = (if inc then base else 0) ∧ i.tenant = c.tenant ∧ i.capture = s.fid
            ∧ i.contexts = (s.parked.filter fun h => h.task.tenant == c.tenant)
            ∧ i.launches.map (·.id) = (s.launches.filter fun l => l.tenant == c.tenant).map (·.id) ∧ i.map = s.logical)
        ∧ (fid ≠ s.fid → refused = true ∨ s.isAbsent fid = true →
          ∃ u, exec toSeal s = .next u ∧ (u.tenant c.tenant).q = .sealed ∧ last u 2 ∧ u.images = s.images ∧ u.mem = s.mem)
        ∧ (∃ u, exec (.quiesceResume c) s = .next u ∧ (u.tenant c.tenant).q = .running ∧ last u 0)
        ∧ ∃ u, exec (.quiesceDiscard c) s = .next u ∧ (u.tenant c.tenant).q = .running ∧ last u 0
          ∧ (∀ l ∈ u.launches, l.tenant ≠ c.tenant) ∧ (∀ h ∈ u.parked, h.task.tenant ≠ c.tenant)
          ∧ (∀ v ∈ u.carves, v.tenant ≠ c.tenant) ∧ u.mem = s.mem)

/-- The tokens of a stopping tenant settle 100,000 ticks after the stop began: none of its puts is left whose token has not
expired (R277). The model's readings here: log entry 17. -/
def Sys2Proof.Says.QuiesceTokensSettle : Prop :=
  ∀ (n : Nat) (s : State) (t : Tenant), s.tenants.find? (fun t => t.id == n) = some t → t.q ≠ .running → t.owed.isSome = true →
    notYet (t.stoppedAt + 100000) (s.clusterAt t.stopper.cluster).refTick = false →
    ∃ u, exec (.quiesceTokenSettle n) s = .next u ∧ (∀ p ∈ u.puts, p.msg.tenant = n → p.expired = true)
      ∧ u.mem = s.mem ∧ u.hart.x = s.hart.x ∧ u.hart.pc = s.hart.pc

/-- `RESTORE` reads the image's bytes at its endpoint and is answered with the first status that applies, changing nothing; one
that none does rebuilds the tenant under the map: its launches, contexts and carve-outs are those of the image under new names,
its contexts have the checkpoint areas obsidian gives them, with the bytes the image has of them, and it is running after the
final image, sealed before it (R279 to R285). The model's readings here, that a restored launch keeps its lease identifier and
that operations out at the seal complete as of an absent peer among them: log entries 30 and 56. -/
def Sys2Proof.Says.RestoreRebuildsTheTenant : Prop :=
  ∀ (c : Cmd) (addr : Word) (fid : Nat) (final : Bool) (r : RestoreChoice) (s : State), c.seq = s.cmdSeq + 1 →
    let asked : State :=
      { s with cmdSeq := c.seq, egress := if fid = s.fid then s.egress else s.egress ++ [.ualinkRead fid addr.toNat 64] }
    let rd := s.imageRd fid addr.toNat
    let live := s.launches.any fun l => l.tenant == c.tenant
    let t0 := s.tenant c.tenant
    (∀ st, s.restoreStatus c fid addr.toNat r = .error st →
        exec (.restore c addr fid final r) s = .next (asked.post c.seq (.status st 0 0 0)))
      ∧ (live = true → t0.q ≠ .sealed → s.restoreStatus c fid addr.toNat r = .error 1)
      ∧ (¬(live = true ∧ t0.q ≠ .sealed) →
        (fid ≠ s.fid → r.refused = true ∨ s.isAbsent fid = true → s.restoreStatus c fid addr.toNat r = .error 2)
        ∧ (fid = s.fid ∨ (r.refused = false ∧ s.isAbsent fid = false) →
          (dsiSections rd = none → s.restoreStatus c fid addr.toNat r = .error 4)
          ∧ ∀ hs, dsiSections rd = some hs →
            let off := ((hs.getLast?).map DsiHead.start).getD 0
            let sig := rd (off + 96) sofSigSize
            let ours := field (rd 0 64) 20 4 = c.tenant ∧ s.signerOk c.tenant sig = true
            (¬ours → s.restoreStatus c fid addr.toNat r = .error 3)
            ∧ (ours → (sig.drop 64).take 64 ≠ sha3 (rd 0 off) → s.restoreStatus c fid addr.toNat r = .error 4)
            ∧ ∀ i, ours → (sig.drop 64).take 64 = sha3 (rd 0 off) →
              (s.images.find? fun i => i.tenant == c.tenant && i.body == rd 0 off) = some i →
              let few := s.usable = false ∨ s.goodClusters.length < i.used.length ∨ r.fidTaken = true ∨ s.unitsTaken i = true
                ∨ s.unitsShort i r.areas = true
              (few → s.restoreStatus c fid addr.toNat r = .error 5)
              ∧ (¬few → i.incremental = true → t0.lastImage = 0 ∨ i.base ≠ t0.lastImage →
                s.restoreStatus c fid addr.toNat r = .error 6)
              ∧ (¬few → ¬(i.incremental = true ∧ (t0.lastImage = 0 ∨ i.base ≠ t0.lastImage)) →
                s.restoreStatus c fid addr.toNat r = .ok i)))
      ∧ (∀ i, s.restoreStatus c fid addr.toNat r = .ok i → s.mapOk i r.map = true → s.areasOk i r.areas = true →
        ∃ t, exec (.restore c addr fid final r) s = .next t
          ∧ (t.tenant c.tenant).q = (if final then .running else .sealed) ∧ (t.tenant c.tenant).lastImage = i.seq
          ∧ t.completions = s.completions ++ [{ seq := s.compSeq + 1, cmd := c.seq, body := .status 0 0 0 0 }]
          ∧ t.logical = r.map ∧ t.engines = enginesOf r.map ∧ (∀ v ∈ i.carves, v ∈ t.carves)
          ∧ (∀ l ∈ i.launches, ∃ k ∈ t.launches, k.record = l.record ∧ k.mbox = l.mbox ∧ k.live = l.live
            ∧ k.lease = l.lease ∧ k.windows = l.windows.map Window.closed)
          ∧ (final = false → ∀ x ∈ i.contexts.zip r.areas,
            ∃ k ∈ t.parked, k.x = x.1.x ∧ k.v = x.1.v ∧ k.pc = x.1.pc ∧ k.name = x.1.name ∧ k.task.ckpt = x.2)
          ∧ (final = false → ∀ x ∈ (i.contexts.zip r.areas).zip i.areas, ∀ j < x.1.1.areaSize,
            t.mem.get (s.areaKey x.1.2 + j) = x.2.get j))

/-- Leaving retention without a loss changes nothing; with one, the task of a hart that is alone bound in its cluster, which
obsidian restores and which has a checkpoint of its own, resumes with the checkpoint's registers, its step gone and no tile held,
where its pool holds its copies, and else waits with them for a bind; one that obsidian does not restore, or that has none, ends
with `RETLOST`, its record naming the stop point: the oldest queued instruction, or the hart's own pc (R203, R204, R213, R214, R226,
R275). The model's readings here: log entries 31 and 52. -/
def Sys2Proof.Says.RetentionExitRestores : Prop :=
  ∀ (names : List HartName) (s : State),
    exec (.retentionExit false names) s = .next s
      ∧ (s.hart.bound = true → s.hart.name.cluster = s.cluster.num →
        (∀ o ∈ s.others, o.name.cluster = s.hart.name.cluster → o.bound = false) →
        (∀ k n h, names.contains s.hart.name = true → s.ckptAt s.hart.task.ckpt = some (k, n, h) → h.name = s.hart.name →
          h.task.serial = s.hart.task.serial →
          let back := s.abandon.hart.fromCheckpoint h
          let same := fun q : Hart => q.x = h.x ∧ q.v = h.v ∧ q.p = h.p ∧ q.pc = h.pc ∧ q.level = h.level ∧ q.copies = h.copies
            ∧ q.step = none ∧ ∀ c ∈ q.ctxs, ∀ r : TReg, c.tiles.get r = .absent ∨ c.tiles.get r = .undefined
          (s.poolHolds back = true →
            ∃ t, exec (.retentionExit true names) s = .next t ∧ same t.hart ∧ t.hart.bound = h.bound ∧ t.mem = s.mem)
          ∧ (s.poolHolds back = false →
            ∃ t q, exec (.retentionExit true names) s = .next t ∧ t.hart.bound = false ∧ t.parked.head? = some q ∧ same q
              ∧ q.task.serial = s.hart.task.serial ∧ t.mem = s.mem))
        ∧ ((names.contains s.hart.name = false ∨ ∀ k n h, s.ckptAt s.hart.task.ckpt = some (k, n, h) →
            h.task.serial ≠ s.hart.task.serial) →
          ∃ t r, exec (.retentionExit true names) s = .next t ∧ t.hart.bound = false ∧ r.cause = 0x22
            ∧ (∃ x ∈ t.completions, x.body = .termination s.hart.task.launch r)
            ∧ r.pc = ((s.hart.vqueue.head?).map (·.pc)).getD s.hart.pc))

/-- Power-up leaves every hart unbound and every cluster as after reset under the map of the good clusters, each logical die with
an engine, its own HBM4 with nothing in it, usable or not by its self-test, and configured or not by the signature over its
configuration image's digest; a package that can accept no launch reports its defect map, and one that refused its configuration
image says so (R17, R19 to R21, R101). The model's readings here: log entries 5 and 32. -/
def Sys2Proof.Says.PowerUpResetsThePackage : Prop :=
  ∀ (st : SelfTest) (g : ConfigImage) (signature : List Byte) (s : State),
    let good := (List.range 192).filter fun p => !st.badClusters.contains p
    let signed := Config.mlDsaVerify Config.configKey (sha3 g.bytes) signature
    let n : BitVec 32 := if packageUsable st then 1 else 2
    ∃ t, exec (.powerUp st g signature) s = .next t
      ∧ t.hart = Hart.reset ⟨0, 0, 0, false⟩ ∧ t.others = [] ∧ t.cluster = Cluster.reset 0 ∧ t.clusters = [] ∧ t.launches = []
      ∧ t.leaves = [] ∧ t.spaces = [] ∧ t.carves = [] ∧ t.parked = []
      ∧ t.logical = good ∧ t.engines = enginesOf good ∧ t.usable = packageUsable st ∧ t.selfTest = st
      ∧ t.configured = signed ∧ t.config = (if signed then g.bytes else []) ∧ t.trusted = (if signed then g.trusted else [])
      ∧ t.registered = (if signed then g.registered else [])
      ∧ t.completions = (if packageUsable st then [] else [{ seq := 1, cmd := 0, body := .defects st }])
        ++ (if signed then [] else [{ seq := n, cmd := 0, body := .configRefused st }])
      ∧ ∀ k, t.mem.get k = if k / 2 ^ 40 = s.fid then 0 else s.mem.get k

/-- A port that fails or sheds lanes ends the flint bound: every open claim ends, `CLSTAT` of its hart ABORTED; the bound is held
again when every port in service runs at full width (R229, R253, R255, R262). -/
def Sys2Proof.Says.PortsAndTheFlintBound : Prop :=
  ∀ (p : Fin 18) (lanes : Fin 4) (s : State),
    let ended := fun t : State => t.flintHeld = false ∧ t.mem = s.mem ∧ t.hart.x = s.hart.x
      ∧ (s.flintHeld = true → t.claims = [] ∧ ∀ h ∈ t.hart :: t.others ++ t.parked, h.bound = true →
        (∃ k ∈ s.claims, k.serial = h.task.serial) → h.clstat.toNat % 8 = 5)
    (∃ t, exec (.portFail p) s = .next t ∧ t.ports.get p = 0 ∧ ended t)
      ∧ (lanes = 1 ∨ lanes = 2 → lanes.val < s.ports.get p →
        ∃ t, exec (.laneShed p lanes) s = .next t ∧ t.ports.get p = lanes.val ∧ ended t)
      ∧ ((∀ q : Fin 18, q.val ∉ s.withheldPorts → s.ports.get q = 4) →
        exec .flintBoundHeld s = .next { s with flintHeld := true })

/-- A mode-3 page at its threshold migrates: its leaf's entry names the new local frame, MODE, PEER and THR 0 and its other fields
as they were, its bytes are there and no others changed, and the host is told, whichever address space it is of; 32 leaves that
fill a 2 MiB range, or 512 a 1 GiB range, become one, a local entry with their SKEW and the hint, and their bytes are at its frame
(R168, R171, R172). The model's readings here: log entry 26; that a page whose peer is absent does not migrate, log entry 47; the
admitted tenants of leaves that promote, log entry 49. -/
def Sys2Proof.Says.MigrationAndPromotion : Prop :=
  ∀ (va pfn asid level : Nat) (s : State),
    let base := s.fid * 2 ^ 40 + pfn * 2 ^ 16
    let isLocal := fun (e : Word) (skew : Nat) (promo : Bool) =>
      pteValid e = true ∧ pteLeaf e = true ∧ pteMode e = 0 ∧ ptePeer e = 0 ∧ pteThr e = 0 ∧ pteSkew e = skew ∧ ptePromo e = promo
        ∧ ptePfn e = pfn ∧ e.toNat % 2 ^ 16 = 0 ∧ e.toNat / 2 ^ 44 % 2 ^ 3 = 0
    (∀ l, s.leafAt s.hart.task.asid va = some l → pteMode l.pte = 3 → 2 ^ (pteThr l.pte + 8) ≤ l.accesses → s.busyAt va = some l)
      ∧ (∀ l ∈ s.leaves, l.busy = true → l.maps l.asid va = true → (s.busyAt va).isSome = true)
      ∧ (∀ l, s.busyAt va = some l → s.isAbsent (ptePeer l.pte) = false → pteSkew l.pte ≠ 3 → pfn % levelFrames l.level = 0 →
        s.framesFree pfn (levelFrames l.level) = true →
        ∃ t e, exec (.migrate va pfn) s = .next t ∧ isLocal e (pteSkew l.pte) (ptePromo l.pte)
          ∧ t.leaves = s.leaves.map (fun k => if k = l then { k with pte := e, accesses := 0 } else k)
          ∧ (∀ j, t.mem.get j = if base ≤ j ∧ j < base + levelSize l.level then s.mem.get (s.frameKey l l.va + (j - base))
            else s.mem.get j)
          ∧ t.completions = s.completions ++ [{ seq := s.compSeq + 1, cmd := 0, body := .migrated (s.ctxOf l.asid) l.va e }])
      ∧ (∀ f fs, (level = 1 ∨ level = 2) → va % levelSize level = 0 → pfn % levelFrames level = 0 →
        s.framesFree pfn (levelFrames level) = true →
        s.fill asid va (level + 1) (if level = 1 then 512 else 32) = some (f :: fs) → (∀ l ∈ f :: fs, l.promotes f = true) →
        ∃ t l, exec (.promotion asid va level pfn) s = .next t
          ∧ t.leaves = s.leaves.filter (fun k => !(f :: fs).contains k) ++ [l]
          ∧ l.asid = asid ∧ l.level = level ∧ l.va = va ∧ l.tenants = f.tenants ∧ isLocal l.pte (pteSkew f.pte) true
          ∧ (∀ k ∈ f :: fs, ∀ j < levelSize k.level,
            t.mem.get (base + (k.va - va) + j) = s.mem.get (s.frameKey k k.va + j))
          ∧ (∀ j, j < base ∨ base + levelSize level ≤ j → t.mem.get j = s.mem.get j) ∧ t.hart = s.hart)

/-! ### The fabric -/

/-- A put arrives: an error code for what the target's checks refuse; a put whose token or a carried one has expired there is
discarded, its window's ERR recording `TOKEN_EXPIRED`; a put that waits on nothing is accepted and becomes visible, its bytes
written and IN counted, or fails where its bytes do not translate: with code 2 behind an absent peer, and, as the model's choice, on
a page no leaf maps, where the task that issued it ends with `XLATE` if it is of this package (R167; log entry 59); one that waits
is held; a full hold queue sends it back. A put for another package changes nothing (R230 to R232, R235, R237, R238). The model's
readings here: log entries 4, 13 and 62. -/
def Sys2Proof.Says.PutsArrive : Prop :=
  ∀ (m : PutMsg) (s0 : State),
    (m.peer ≠ s0.fid → exec (.putReceived m) s0 = .next s0)
      ∧ (m.peer = s0.fid →
        let s := { s0 with absent := s0.absent.filter fun f => f != m.src.party.fid }
        (∀ e, s.targetChecks m.tenant m.job m.win m.off m.data.length = .error e →
          exec (.putReceived m) s0 = .next { s with egress := s.egress ++ [.putError m.src e] })
        ∧ ∀ l w, s.targetChecks m.tenant m.job m.win m.off m.data.length = .ok (l, w) →
          ((∃ t ∈ m.src :: m.carried, t ∈ s.expired) →
            ∃ t, exec (.putReceived m) s0 = .next t ∧ t.egress = s.egress ++ [.putError m.src 1] ∧ t.held = s.held
              ∧ t.launches = (s.launches.map fun (k : Launch) =>
                if k.id = l.id then k.onWindow w.id fun w => { w with err := if w.err = 0 then 1 else w.err } else k)
              ∧ t.mem = s.mem ∧ t.hart = s.hart)
          ∧ ((∀ t ∈ m.src :: m.carried, t ∉ s.expired) →
            ((∀ t ∈ m.waits, t ∈ s.landed) →
              (∀ rs, s.runs l.asid (w.base + m.off) m.data.length = .ok rs →
                ∃ t, exec (.putReceived m) s0 = .next t ∧ t.mem = s.mem.putRuns rs m.data
                  ∧ t.launches = (s.launches.map fun (k : Launch) =>
                    if k.id = l.id then k.onWindow w.id fun w => { w with inn := w.inn + 1 } else k)
                  ∧ t.egress = s.egress ++ [.putAccepted m.src, .putVisible m.src] ∧ t.hart = s.hart)
              ∧ ∀ a, s.runs l.asid (w.base + m.off) m.data.length = .error a →
                let told : State := { s with egress := s.egress ++ [.putAccepted m.src, .putError m.src 2] }
                exec (.putReceived m) s0 = .next (match s.putOf m.src with
                  | some p => if s.leafAt l.asid a = none then told.endOwner p.owner a else told
                  | none => told))
            ∧ ((∃ t ∈ m.waits, t ∉ s.landed) →
              let q := stationOf (spaceOf l.asid (w.base + m.off)) (w.base + m.off)
              let full := 512 ≤ (s.held.filter fun h => h.station == q).length
              (full → exec (.putReceived m) s0 = .next { s with egress := s.egress ++ [.putRefused m] })
                ∧ (¬full → exec (.putReceived m) s0 = .next { s with
                  held := s.held ++ [{ station := q, msg := { m with waits := m.waits.filter fun t => !s.landed.contains t } }]
                  egress := s.egress ++ [.putAccepted m.src] }))))

/-- Notices at the target: a landed token releases the held puts that waited on it alone, which become visible; an expired one
discards, whole, those that carry it or are it, their windows' ERR recording `TOKEN_EXPIRED`, and tells their issuers; the other
held puts stay (R232, R235, R237, R238). The model's readings here: log entry 17. -/
def Sys2Proof.Says.NoticesReleaseOrDiscardHeldPuts : Prop :=
  ∀ (t : TokName) (s0 : State),
    let s := { s0 with absent := s0.absent.filter fun f => f != t.party.fid }
    let hs := s.held.map fun (h : Held) => { h with msg := { h.msg with waits := h.msg.waits.filter fun x => x != t } }
    let ready := hs.filter fun h => h.msg.waits.isEmpty
    (∃ u, exec (.landedNotice t) s0 = .next u ∧ t ∈ u.landed ∧ u.held = hs.filter (fun h => !h.msg.waits.isEmpty)
        ∧ (ready = [] → u.mem = s.mem ∧ u.egress = s.egress)
        ∧ (∀ h l w rs, ready = [h] →
          s.targetChecks h.msg.tenant h.msg.job h.msg.win h.msg.off h.msg.data.length = .ok (l, w) →
          s.runs l.asid (w.base + h.msg.off) h.msg.data.length = .ok rs →
          u.mem = s.mem.putRuns rs h.msg.data ∧ u.egress = s.egress ++ [.putVisible h.msg.src])
        ∧ u.hart = s.hart)
      ∧ ∃ u, exec (.expiryNotice t) s0 = .next u ∧ t ∈ u.expired ∧ u.held = s.held.filter (fun h => !h.hit t)
        ∧ u.egress = s.egress ++ (s.held.filter fun h => h.hit t).map (fun h => Msg.putError h.msg.src 1)
        ∧ (∀ h l w, s.held.filter (fun h => h.hit t) = [h] → s.reached h.msg.tenant h.msg.job h.msg.win = some (l, w) →
          w.tile = false →
          u.launches = s.launches.map fun (k : Launch) =>
            if k.id = l.id then k.onWindow w.id fun w => { w with err := if w.err = 0 then 1 else w.err } else k)
        ∧ u.mem = s.mem ∧ u.hart = s.hart

/-- At the issuer, whose package hears of the peer: acceptance makes a pending slot accepted; a refused put is sent again; a put
that landed leaves, OUT counts it and its slot is free, unless its token had expired; a failed put counts with its code and stays
until its token expires, its slot pending whatever it was, and the token of a discarded one expires at once (R232, R235 to R239).
The model's readings here: log entries 13 and 17. -/
def Sys2Proof.Says.IssuersLearnOfTheirPuts : Prop :=
  ∀ (tok : TokName) (code : Nat) (m : PutMsg) (s0 : State) (p : PutRec), s0.putOf tok = some p → p.sent = true →
    p.failed = false → (s0.hart.tokens.get (tokSlotOf tok.token)).put = p.ticket → s0.hart.tokBusy tok.token = true →
    let s := { s0 with absent := s0.absent.filter fun f => f != p.peer }
    let st := fun t : State => (t.hart.tokens.get (tokSlotOf tok.token)).st
    let closed := fun (t : State) (code : Nat) => t.launches = (s.closeOp p.launch p.win p.ticket code).launches
    (p.accepted = false → st s = .pending →
        ∃ t, exec (.tokenAccepted tok) s0 = .next t ∧ st t = .accepted ∧ t.mem = s.mem)
      ∧ (p.accepted = true → exec (.tokenAccepted tok) s0 = .next s)
      ∧ (p.accepted = false → (s.puts.find? fun q => q.tok == m.src) = some p →
        exec (.putRefused m) s0 = .next { s with egress := s.egress ++ [.put p.msg] })
      ∧ (p.accepted = true →
        ∃ t, exec (.tokenLanded tok) s0 = .next t ∧ closed t 0
          ∧ t.puts = s.puts.filter (fun q => q.ticket != p.ticket) ∧ t.mem = s.mem
          ∧ (p.expired = false → st t = .free) ∧ (p.expired = true → t.hart = s.hart))
      ∧ (p.expired = false → code ≠ 1 →
        ∃ t, exec (.putFailed tok code) s0 = .next t ∧ closed t code
          ∧ t.puts = s.puts.map (fun q => if q.ticket = p.ticket then { q with failed := true, sent := false } else q)
          ∧ (st s = .pending ∨ st s = .accepted → st t = .pending)
          ∧ t.hart = { s.hart with tokens := t.hart.tokens } ∧ t.mem = s.mem)
      ∧ (p.expired = false → ∃ t, exec (.putFailed tok 1) s0 = .next t ∧ st t = .expired ∧ t.mem = s.mem)
      ∧ (p.expired = true → ∃ t, exec (.putFailed tok code) s0 = .next t ∧ closed t code
        ∧ t.puts = s.puts.filter (fun q => q.ticket != p.ticket) ∧ t.hart = s.hart)

/-- A token not landed at its due tick expires, its target is told, and its hart has its `TOKEXP` pending; before that tick nothing
happens (R238). The model's readings here: log entry 17. -/
def Sys2Proof.Says.TokensExpire : Prop :=
  ∀ (tok : TokName) (s : State) (p : PutRec), s.putOf tok = some p → p.expired = false → p.owner = s.hart.task.serial →
    s.hart.bound = true →
    (notYet p.due (s.clusterAt p.cluster).refTick = true → exec (.tokenExpires tok) s = .next s)
      ∧ (notYet p.due (s.clusterAt p.cluster).refTick = false →
        ∃ t, exec (.tokenExpires tok) s = .next t ∧ t.hart.expiries = s.hart.expiries ++ [tok.token] ∧ t.mem = s.mem
          ∧ .expired p.tok p.peer ∈ t.egress
          ∧ (s.hart.tokBusy tok.token = true → (s.hart.tokens.get (tokSlotOf tok.token)).put = p.ticket →
            (t.hart.tokens.get (tokSlotOf tok.token)).st = .expired)
          ∧ t.hart.x = s.hart.x ∧ t.hart.pc = s.hart.pc)

/-- A target serves a get, an atomic or a load-and-reduce from a window, answering its bytes, or an error code; a tile send
arrives in the tile of the context it names, or at that tile's backing where no slot is free, or is answered with its error; a
UALink access performs at its frame, and the pages mapped there stand in what the next incremental image tells (R11, R228, R230,
R232, R240 to R242, R244, R282). Bytes that do not translate answer code 2: R230 has it behind an absent peer, and on a page no leaf
maps, where the task that asked ends with `XLATE` if it is of this package (R167), it is the model's choice, log entry 59. That
the tile is written to its backing where no slot is free is the model's choice, log entry 41; the other readings here: log entry
13. -/
def Obligations.TargetsServeRequests : Prop :=
  ∀ (r : RemoteReq) (m : TileMsg) (src : Party) (addr n : Nat) (bs : List Byte) (op : AmoOp) (w64 : Bool) (v : Word)
    (s0 : State),
    let heard := fun f : Nat => { s0 with absent := s0.absent.filter fun g => g != f }
    let amo := fun (op : AmoOp) (w64 : Bool) (v : Word) (old : List Byte) =>
      leBytes (atomBytes w64) (amoNew op (8 * atomBytes w64) (leVal old) (v.toNat % 2 ^ (8 * atomBytes w64)))
    (r.peer = s0.fid →
        let s := heard r.src.fid
        (∀ e, s.targetChecks r.tenant r.job r.win r.off (reqBytes r.kind) = .error e →
          exec (.remoteRequestServed r) s0 = .next { s with egress := s.egress ++ [.reply r.src (.error e)] })
        ∧ ∀ l w, s.targetChecks r.tenant r.job r.win r.off (reqBytes r.kind) = .ok (l, w) →
          (∀ a, s.runs l.asid (w.base + r.off) (reqBytes r.kind) = .error a →
            let told : State := { s with egress := s.egress ++ [.reply r.src (.error 2)] }
            exec (.remoteRequestServed r) s0 = .next (match s.requester r.src with
              | some k => if s.leafAt l.asid a = none then told.endOwner k a else told
              | none => told))
          ∧ ∀ rs, s.runs l.asid (w.base + r.off) (reqBytes r.kind) = .ok rs →
            let old := s.mem.getRuns rs
            ∃ t, exec (.remoteRequestServed r) s0 = .next t
              ∧ t.egress = s.egress ++ [.reply r.src (.bytes old)] ∧ t.hart = s.hart
              ∧ t.mem = match r.kind with | .atomic op w64 v => s.mem.putRuns rs (amo op w64 v old) | _ => s.mem)
      ∧ (m.peer = s0.fid → m.data.length = 4096 →
        let s := heard m.src.fid
        let base := s.hart.task.mapbase
        (∀ e, s.tileChecks m = .error e →
          exec (.msendReceived m) s0 = .next { s with egress := s.egress ++ [.tileDone m.src m.win e] })
        ∧ ∀ l w, s.tileChecks m = .ok (l, w, s.hart) → s.hart.bound = true →
          let x : TReg := Fin.ofNat 256 (w.base + m.index)
          ∀ old, s.hart.tileIn base x = some old →
            (old.held = true ∨ s.slotsFor 1 →
              ∃ t, exec (.msendReceived m) s0 = .next t ∧ t.egress = s.egress ++ [.tileDone m.src m.win 0]
                ∧ t.hart = s.hart.setTileIn base x (.dirty (Bytes.put [] 0 m.data)) ∧ t.mem = s.mem)
            ∧ (old.held = false → ¬s.slotsFor 1 → w.base + m.index < 256 →
              s.translates (backing base x.val) tileSize →
              ∃ t, exec (.msendReceived m) s0 = .next t ∧ t.egress = s.egress ++ [.tileDone m.src m.win 0]
                ∧ t.hart = s.hart.setTileIn base x .absent
                ∧ t.mem = s.mem.putRuns (s.keys (backing base x.val) tileSize) m.data))
      ∧ (let s := heard src.fid
        let at1 := s.fid * 2 ^ 40 + addr
        let reply := fun b : List Byte => s.egress ++ [Msg.ualinkReply src b]
        (addr + n ≤ 768 * 10 ^ 9 → exec (.ualinkRequest src addr (.read n)) s0 = .next { s with
          egress := reply (s.mem.getRuns [(at1, n)]) })
        ∧ (addr + bs.length ≤ 768 * 10 ^ 9 → exec (.ualinkRequest src addr (.write bs)) s0 = .next { s with
          mem := s.mem.putRuns [(at1, bs.length)] bs, baselines := (s.touchFrames addr bs.length).baselines, egress := reply [] })
        ∧ (addr + atomBytes w64 ≤ 768 * 10 ^ 9 →
          let old := s.mem.getRuns [(at1, atomBytes w64)]
          exec (.ualinkRequest src addr (.atomic op w64 v)) s0 = .next { s with
            mem := s.mem.putRuns [(at1, atomBytes w64)] (amo op w64 v old)
            baselines := (s.touchFrames addr (atomBytes w64)).baselines, egress := reply old }))

/-- Answers at the issuer, each closing its operation of its window with its code: the bytes of an `rget` are written at its
destination, an error writes nothing; `ramo` receives the old value, or 0 on an error, in its destination and its copy, and falls
through; `rldred` stores its reduction, adds its flags and writes its status word; a tile send's end removes it from those
outstanding; the package hears of the peer that answered (R63, R230, R232, R240 to R242, R244, R345; that an answer of code 2 to
`ramo` is none of the peer's is log entry 17's). -/
def Sys2Proof.Says.RemoteAnswersComplete : Prop :=
  ∀ (tk win code : Nat) (bs : List Byte) (rs : List Reply) (s : State),
    let closed := fun (t : State) (l w k code : Nat) => t.launches = (s.closeOp l w k code).launches
    (∀ g, s.gets.find? (fun g => g.ticket == tk) = some g → g.failed = false →
        (∃ t, exec (.rgetComplete tk (.error code)) s = .next t ∧ t.gets = s.gets.filter (fun g => g.ticket != tk)
            ∧ closed t g.launch g.win tk code ∧ t.mem = s.mem ∧ t.hart = s.hart)
        ∧ ∀ ks, bs.length = g.len → s.runs g.asid g.dst.toNat g.len = .ok ks →
          ∃ t, exec (.rgetComplete tk (.bytes bs)) s = .next t ∧ t.gets = s.gets.filter (fun g => g.ticket != tk)
            ∧ closed t g.launch g.win tk 0 ∧ t.mem = s.mem.putRuns ks bs ∧ t.hart = s.hart
            ∧ t.absent = s.absent.filter fun f => f != g.peer)
      ∧ (∀ c dc w64 l w k peer, s.hart.await = some (.ramo c dc w64 l w k peer) → s.mayFall →
        let done := fun (v : Word) (code : Nat) (t : State) =>
          let u := ({ s with hart := { s.hart with await := none } } : State).holds c v
          t.hart = (match dc with | some d => u.holds d v | none => u).falls.hart ∧ t.mem = s.mem ∧ closed t l w k code
        (bs.length = atomBytes w64 →
          ∃ t, exec (.ramoComplete (.bytes bs)) s = .next t ∧ done (BitVec.ofNat 64 (leVal bs)) 0 t
            ∧ t.absent = s.absent.filter fun f => f != peer)
        ∧ ∃ t, exec (.ramoComplete (.error code)) s = .next t ∧ done 0 code t)
      ∧ (∀ c dst n et op cls peers, s.hart.await = some (.ldred c dst n et op cls peers) → s.mayFall → rs.length = peers.length →
        (∀ b, Reply.bytes b ∈ rs → b.length = n * ldredBytes et) → s.translates dst.toNat (4 * n) →
          let datas := replyData rs
          let x := fun i => ldredReduce et op datas i
          ∃ t, exec (.rldredComplete rs) s = .next t
            ∧ t.mem = s.mem.putRuns (s.keys dst.toNat (4 * n)) ((List.range n).flatMap fun i => leBytes 4 (x i).1)
            ∧ t.getX c = (if c = 0 then 0 else BitVec.ofNat 64 (peers.length * 2 ^ 32 + datas.length * 2 ^ 16 + firstError rs))
            ∧ t.hart.status = s.hart.status ||| (orAll ((List.range n).map fun i => (x i).2)).setWidth 64
            ∧ t.hart.pc = s.fallPc ∧ t.hart.await = none ∧ (∀ r, r ≠ c → t.getX r = s.getX r))
      ∧ ∀ r, s.sends.find? (fun r => r.ticket == tk && r.win == win) = some r → r.failed = false →
        ∃ t, exec (.msendCompletes win tk code) s = .next t ∧ t.sends = s.sends.filter (fun r => r.ticket != tk)
          ∧ closed t r.launch r.win tk code ∧ t.mem = s.mem ∧ t.hart = s.hart ∧ t.absent = s.absent.filter fun f => f != r.peer

/-- A peer becomes absent when no port has reached it for 100,000 ticks, not before: it is recorded, and every put that left for it,
get and tile send to it has failed, an operation that was out closed with code 2 (shown for one get); the slot of such a put is
pending; memory and the rest of the hart in front stay. An answer that comes later is heard of, so that the peer is not absent,
and changes nothing else (R230, R232, R239, R268). The model's readings here: log entry 17. -/
def Sys2Proof.Says.AbsentPeersFailOperations : Prop :=
  ∀ (fid : Nat) (at1 : Word) (s : State),
    ((s.cluster.refTick - at1).toNat < 100000 → exec (.peerAbsent ⟨fid, at1⟩) s = .next s)
      ∧ (100000 ≤ (s.cluster.refTick - at1).toNat →
        ∃ t, exec (.peerAbsent ⟨fid, at1⟩) s = .next t ∧ fid ∈ t.absent
          ∧ t.gets = s.gets.map (fun g => if g.peer = fid then { g with failed := true } else g)
          ∧ t.sends = s.sends.map (fun r => if r.peer = fid then { r with failed := true } else r)
          ∧ (∀ p ∈ t.puts, p.peer = fid → p.sent = true → p.failed = true)
          ∧ (∀ g, s.gets.filter (fun g => g.peer == fid && !g.failed) = [g] → (∀ r ∈ s.sends, r.peer = fid → r.failed = true) →
            (∀ p ∈ s.puts, p.peer = fid → p.sent = true → p.failed = true) →
            t.launches = (s.closeOp g.launch g.win g.ticket 2).launches)
          ∧ (∀ p ∈ s.puts, p.peer = fid → p.sent = true → p.failed = false → s.hart.tokBusy p.tok.token = true →
            let k := tokSlotOf p.tok.token
            (s.hart.tokens.get k).put = p.ticket → (s.hart.tokens.get k).st = .accepted → (t.hart.tokens.get k).st = .pending)
          ∧ t.mem = s.mem ∧ t.hart = { s.hart with tokens := t.hart.tokens })
      ∧ (∀ tk r g, s.gets.find? (fun g => g.ticket == tk) = some g → g.failed = true →
        exec (.rgetComplete tk r) s = .next { s with
          absent := s.absent.filter fun f => f != g.peer, gets := s.gets.filter fun g => g.ticket != tk })
      ∧ (∀ tk win code r, s.sends.find? (fun r => r.ticket == tk && r.win == win) = some r → r.failed = true →
        exec (.msendCompletes win tk code) s = .next { s with
          absent := s.absent.filter fun f => f != r.peer, sends := s.sends.filter fun r => r.ticket != tk })
      ∧ ∀ tok p, s.putOf tok = some p → p.sent = true → p.failed = true → p.expired = false →
        let done : State := { s with
          absent := s.absent.filter fun f => f != p.peer
          puts := s.puts.map fun q => if q.ticket = p.ticket then { q with sent := false } else q }
        exec (.tokenLanded tok) s = .next done ∧ (∀ code, exec (.putFailed tok code) s = .next done)

/-- The claim engine at a member: a proposal the hart hears opens a record, or is objected to, with abort where the flint bound is
not held, and a claim of the hart in its wait that conflicts has met a rival; its window's end closes the record; an end notice
changes nothing but that its sender is heard of, as of every message (R230); a sealed tenant answers with an abort objection
(R257, R258, R260, R262, R278). The model's readings here: log entries 13 and 25. -/
def Sys2Proof.Says.MembersRecordProposals : Prop :=
  ∀ (p : Proposal) (a : Word) (g : Nat) (s0 : State),
    let s := { s0 with absent := s0.absent.filter fun f => f != p.src.fid }
    (s.sealed p.tenant = false → s.hears p = false → exec (.proposalReceived p) s0 = .next s)
      ∧ (s.sealed p.tenant = false → s.hears p = true →
        let met := s.claims.map fun (k : OpenClaim) =>
          if s.inWait k = true ∧ conflicts k p = true then { k with rival := betterRival k.prop k.rival p } else k
        let objects := fun abort : Bool => exec (.proposalReceived p) s0 = .next { s with
          claims := met, egress := s.egress ++ [.objection p s.party abort] }
        (s.hardwareObjects p = .none → ∃ t r, exec (.proposalReceived p) s0 = .next t ∧ t.records.getLast? = some r ∧ r.prop = p
          ∧ r.owner = s.hart.name ∧ r.isOpen = true
          ∧ r.closesAt = s.cluster.refTick + BitVec.ofNat 64 p.window ∧ t = { s with claims := met, records := t.records })
        ∧ (s.flintHeld = false → objects true)
        ∧ (s.flintHeld = true →
          ((∃ r ∈ s.openRecords p.addr, ¬(r.prop.group = p.group ∧ r.prop.tenant = p.tenant ∧ r.prop.job = p.job))
            ∨ 16 ≤ (s.records.filter fun r => r.owner == s.hart.name && s.recOpen r).length) → objects false))
      ∧ (s.sealed p.tenant = true → exec (.proposalReceived p) s0 = .next { s with
          egress := s.egress ++ [.objection p s.party true] })
      ∧ (∃ t, exec (.memberWindowCloses a g) s = .next t ∧ t = { s with records := t.records }
        ∧ t.records.length = s.records.length
        ∧ ∀ r ∈ t.records, r.owner = s.hart.name → r.prop.addr = a → r.prop.group = g →
          notYet r.closesAt s.cluster.refTick = false → r.isOpen = false)
      ∧ exec (.endNoticeReceived p) s0 = .next s

/-- The claim engine at a claimant: an objection, an abort or a commit notice marks the claims that still wait, an objection only
the claim it answers; at the end of its wait a claim ends ABORTED, LOST or OBJECTED in that order, or sends its store; its store
performed and acknowledged it ends COMMITTED, the word written and every member told; one whose peer became absent ends ABORTED, the
word old or new; where no leaf maps the word the task ends with `XLATE`. `CLSTAT` then has the end's STATE, the claim's SEQ and in
BYFID and BYHART the winner of LOST, the first objector of OBJECTED, else 0; the claim is no longer open (R167, R190, R230, R255,
R257, R258, R260). The model's readings here: log entry 25. -/
def Sys2Proof.Says.ClaimsEnd : Prop :=
  ∀ (src : Party) (q : Proposal) (abort written : Bool) (p : Proposal) (s : State) (k : OpenClaim),
    let ended := fun (t : State) (state : Nat) (by1 : Option Party) =>
      let v := t.hart.clstat.toNat
      v % 8 = state ∧ v / 2 ^ 16 % 2 ^ 16 = k.prop.seq.toNat
        ∧ v / 2 ^ 32 % 2 ^ 10 = (match by1 with | some o => o.fid % 1024 | none => 0)
        ∧ v / 2 ^ 42 = (match by1 with | some o => o.hartid.toNat | none => 0)
        ∧ ∀ c ∈ t.claims, c.owner ≠ k.owner
    (exec (.objectionReceived src q abort) s = .next { s with absent := s.absent.filter (fun f => f != src.fid), claims := s.claims.map (fun (c : OpenClaim) =>
        if s.inWait c && c.prop == q then
          if abort then { c with aborted := true }
          else { c with objector := match c.objector with | some o => some o | none => some src }
        else c) })
      ∧ (exec (.commitNoticeReceived p) s = .next { s with absent := s.absent.filter (fun f => f != p.src.fid), claims := s.claims.map (fun (c : OpenClaim) =>
          if s.inWait c && conflicts c p then
            { c with winner := match c.winner with | some o => some o | none => some p.src } else c) })
      ∧ (s.claims.find? (fun c => c.owner == s.hart.name && !c.storing && !notYet c.endsAt s.cluster.refTick) = some k →
        k.serial = s.hart.task.serial → s.hart.bound = true →
        ∃ t, exec .claimWaitEnds s = .next t ∧ t.mem = s.mem
          ∧ (s.flintHeld = false ∨ k.aborted = true → ended t 5 none)
          ∧ (s.flintHeld = true → k.aborted = false →
            (∀ w, k.winner = some w → ended t 4 (some w))
            ∧ ∀ r, k.winner = none → k.rival = some r → ended t 4 (some r.src))
          ∧ (s.flintHeld = true → k.aborted = false → k.winner = none → k.rival = none →
            (∀ o, k.objector = some o → ended t 3 (some o))
            ∧ (k.objector = none → s.claimPeerAbsent k = true → ended t 5 none)
            ∧ (k.objector = none → s.claimPeerAbsent k = false → t = { s with claims := s.claims.map fun (c : OpenClaim) =>
              if c.owner = k.owner then { c with storing := true } else c })))
      ∧ (s.claims.find? (fun c => c.owner == s.hart.name && c.storing) = some k →
        k.serial = s.hart.task.serial → s.hart.bound = true →
        (s.leafAt k.asid k.prop.addr.toNat = none → s.hart.name.cluster = s.cluster.num →
          ∃ t r, exec (.claimStorePerformed abort written) s = .next t ∧ t.hart.bound = false ∧ r.cause = 0x21
            ∧ r.tval = k.prop.addr ∧ ∃ x ∈ t.completions, x.body = .termination s.hart.task.launch r)
        ∧ ∀ l, s.leafAt k.asid k.prop.addr.toNat = some l →
        let word := s.mem.put (s.frameKey l k.prop.addr.toNat) (leBytes 8 k.prop.value.toNat)
        (s.claimPeerAbsent k = false →
          exec (.claimStorePerformed false written) s = .next s
          ∧ ∃ t, exec (.claimStorePerformed true written) s = .next t ∧ ended t 2 none ∧ t.mem = word
            ∧ t.egress = s.egress ++ (s.claimMembers k.prop).map (fun d => Msg.commit k.prop d))
        ∧ (s.claimPeerAbsent k = true →
          ∃ t, exec (.claimStorePerformed abort written) s = .next t ∧ ended t 5 none
            ∧ t.mem = (if written then word else s.mem)))

/-! ### Statements of several parts -/

/-- Branches and jumps: the parts `BranchesJumpOrFallThrough`, `JumpsLinkAndJump`, `BranchAndJumpWords`. -/
def Obligations.BranchesAndJumps : Prop :=
  Sys2Proof.Says.BranchesJumpOrFallThrough
    ∧ Sys2Proof.Says.JumpsLinkAndJump
    ∧ Sys2Proof.Says.BranchAndJumpWords

/-- Scalar results and register file: the parts `RegisterWriteReadsBack`, `ScalarResultsAndFrame`. -/
def Obligations.ScalarResultsAndRegisterFile : Prop :=
  Sys2Proof.Says.RegisterWriteReadsBack
    ∧ Sys2Proof.Says.ScalarResultsAndFrame

/-- Scalar loads and stores: the parts `LoadsReadMemory`, `StoresWriteMemory`, `AcquireLoadsAndReleaseStores`,
`LeaseFailuresEndTask`. -/
def Obligations.ScalarLoadsAndStores : Prop :=
  Sys2Proof.Says.LoadsReadMemory
    ∧ Sys2Proof.Says.StoresWriteMemory
    ∧ Sys2Proof.Says.AcquireLoadsAndReleaseStores
    ∧ Sys2Proof.Says.LeaseFailuresEndTask

/-- Scalar atomics: the parts `ScalarAtomicsReadModifyWrite`, `MisalignedAtomicsTrap`. -/
def Obligations.ScalarAtomics : Prop :=
  Sys2Proof.Says.ScalarAtomicsReadModifyWrite
    ∧ Sys2Proof.Says.MisalignedAtomicsTrap

/-- State register access: the parts `StateRegistersReadAndWritten`, `PrivilegedStateRegistersTrap`. -/
def Obligations.StateRegisterAccess : Prop :=
  Sys2Proof.Says.StateRegistersReadAndWritten
    ∧ Sys2Proof.Says.PrivilegedStateRegistersTrap

/-- State register writes: the parts `StateRegisterWritesByRegister`, `StatusWritesByLevel`. -/
def Obligations.StateRegisterWrites : Prop :=
  Sys2Proof.Says.StateRegisterWritesByRegister
    ∧ Sys2Proof.Says.StatusWritesByLevel

/-- System calls and breakpoints: the parts `EnvironmentCallsAndRequests`, `BreakpointsTrapOrEnd`. -/
def Obligations.SystemCallsAndBreakpoints : Prop :=
  Sys2Proof.Says.EnvironmentCallsAndRequests
    ∧ Sys2Proof.Says.BreakpointsTrapOrEnd

/-- Map switch and checkpoint: the parts `MapSwitchesContexts`, `MapSwitchAndCheckpointNeedLevelK`, `CheckpointHoldsContext`. -/
def Obligations.MapSwitchAndCheckpoint : Prop :=
  Sys2Proof.Says.MapSwitchesContexts
    ∧ Sys2Proof.Says.MapSwitchAndCheckpointNeedLevelK
    ∧ Sys2Proof.Says.CheckpointHoldsContext

/-- Prefixes and illegal words: the parts `PrefixLendsItsFields`, `IllegalWordsTrap`, `AccessHartsTrapComputeWords`. -/
def Obligations.PrefixesAndIllegalWords : Prop :=
  Sys2Proof.Says.PrefixLendsItsFields
    ∧ Sys2Proof.Says.IllegalWordsTrap
    ∧ Sys2Proof.Says.AccessHartsTrapComputeWords

/-- Vector length and predicates: the parts `VectorLengthIsSet`, `PredicateOperations`, `VectorLengthAndPredicateWords`. -/
def Obligations.VectorLengthAndPredicates : Prop :=
  Sys2Proof.Says.VectorLengthIsSet
    ∧ Sys2Proof.Says.PredicateOperations
    ∧ Sys2Proof.Says.VectorLengthAndPredicateWords

/-- Vector compares select and reductions: the parts `VectorComparesWriteBits`, `VectorSelect`, `VectorReductions`. -/
def Obligations.VectorComparesSelectAndReductions : Prop :=
  Sys2Proof.Says.VectorComparesWriteBits
    ∧ Sys2Proof.Says.VectorSelect
    ∧ Sys2Proof.Says.VectorReductions

/-- Vector memory accesses: the parts `VectorLoadsReadUnits`, `VectorStoresWriteUnits`, `FaultOnlyFirstLoads`. -/
def Obligations.VectorMemoryAccesses : Prop :=
  Sys2Proof.Says.VectorLoadsReadUnits
    ∧ Sys2Proof.Says.VectorStoresWriteUnits
    ∧ Sys2Proof.Says.FaultOnlyFirstLoads

/-- Scratchpad and delivery queue reads: the parts `ScratchpadVectorAccesses`, `DeliveryQueuePops`. -/
def Obligations.ScratchpadAndDeliveryQueueReads : Prop :=
  Sys2Proof.Says.ScratchpadVectorAccesses
    ∧ Sys2Proof.Says.DeliveryQueuePops

/-- Strips and fences: the parts `StripsCommitOrAbort`, `FencesComplete`. -/
def Obligations.StripsAndFences : Prop :=
  Sys2Proof.Says.StripsCommitOrAbort
    ∧ Sys2Proof.Says.FencesComplete

/-- Attachment tile states and moves: the parts `AttachmentAndTileStates`, `TileMovesAndTransposes`. -/
def Obligations.AttachmentTileStatesAndMoves : Prop :=
  Sys2Proof.Says.AttachmentAndTileStates
    ∧ Sys2Proof.Says.TileMovesAndTransposes

/-- Tile transfers: the parts `TileLoadsAndStores`, `TileRowsAndVectorRegisters`. -/
def Obligations.TileTransfers : Prop :=
  Sys2Proof.Says.TileLoadsAndStores
    ∧ Sys2Proof.Says.TileRowsAndVectorRegisters

/-- Epilogue and tile sends: the parts `EpilogueStoresRows`, `TileSends`. -/
def Obligations.EpilogueAndTileSends : Prop :=
  Sys2Proof.Says.EpilogueStoresRows
    ∧ Sys2Proof.Says.TileSends

/-- Copy engine acceptance: the parts `CopiesAreAccepted`, `QueueFillsAndTableLoads`. -/
def Obligations.CopyEngineAcceptance : Prop :=
  Sys2Proof.Says.CopiesAreAccepted
    ∧ Sys2Proof.Says.QueueFillsAndTableLoads

/-- Task instructions: the parts `GroupMembersAreRead`, `PostAddsTasks`, `TaskExitEndsTheTask`. -/
def Obligations.TaskInstructions : Prop :=
  Sys2Proof.Says.GroupMembersAreRead
    ∧ Sys2Proof.Says.PostAddsTasks
    ∧ Sys2Proof.Says.TaskExitEndsTheTask

/-- Remote puts and gets: the parts `RemotePutsTakeATokenAndEnterOrder`, `RemoteGetsSendARequest`. -/
def Obligations.RemotePutsAndGets : Prop :=
  Sys2Proof.Says.RemotePutsTakeATokenAndEnterOrder
    ∧ Sys2Proof.Says.RemoteGetsSendARequest

/-- Remote atomics reductions and waits: the parts `RemoteAtomicsAndReductionsAsk`, `RemoteWaitsAndTokenStatus`. -/
def Obligations.RemoteAtomicsReductionsAndWaits : Prop :=
  Sys2Proof.Says.RemoteAtomicsAndReductionsAsk
    ∧ Sys2Proof.Says.RemoteWaitsAndTokenStatus

/-- Claim instructions: the parts `ClaimsPropose`, `ObjectionsAndClaimWaits`. -/
def Obligations.ClaimInstructions : Prop :=
  Sys2Proof.Says.ClaimsPropose
    ∧ Sys2Proof.Says.ObjectionsAndClaimWaits

/-- Phaser instructions: the parts `PhaserCreationAndMembership`, `PhaserSignalsAndWaits`. -/
def Obligations.PhaserInstructions : Prop :=
  Sys2Proof.Says.PhaserCreationAndMembership
    ∧ Sys2Proof.Says.PhaserSignalsAndWaits

/-- Deadlines and governor: the parts `DeadlineSteps`, `GovernorStepsAct`. -/
def Obligations.DeadlinesAndGovernor : Prop :=
  Sys2Proof.Says.DeadlineSteps
    ∧ Sys2Proof.Says.GovernorStepsAct

/-- Engines and queued effects: the parts `EnginesCopyFillAndSpill`, `DeadlineInterruptIsTaken`, `QueuedEffectsArrive`. -/
def Obligations.EnginesAndQueuedEffects : Prop :=
  Sys2Proof.Says.EnginesCopyFillAndSpill
    ∧ Sys2Proof.Says.DeadlineInterruptIsTaken
    ∧ Sys2Proof.Says.QueuedEffectsArrive

/-- Preemption and retention: the parts `PreemptionStopsAndParks`, `RetentionExitRestores`. -/
def Obligations.PreemptionAndRetention : Prop :=
  Sys2Proof.Says.PreemptionStopsAndParks
    ∧ Sys2Proof.Says.RetentionExitRestores

/-- Host command window: the parts `CommandsOutOfSequenceAreDropped`, `CommandWindowAndAttestation`, `CarveOutsAndPoolLimits`. -/
def Obligations.HostCommandWindow : Prop :=
  Sys2Proof.Says.CommandsOutOfSequenceAreDropped
    ∧ Sys2Proof.Says.CommandWindowAndAttestation
    ∧ Sys2Proof.Says.CarveOutsAndPoolLimits

/-- Mapping migration and promotion: the parts `MappingCommandsInstallAndRemove`, `MigrationAndPromotion`. -/
def Obligations.MappingMigrationAndPromotion : Prop :=
  Sys2Proof.Says.MappingCommandsInstallAndRemove
    ∧ Sys2Proof.Says.MigrationAndPromotion

/-- Launches and their pages: the parts `LaunchAnswersOrStarts`, `PageAnswersAndMailboxWrites`. -/
def Obligations.LaunchesAndTheirPages : Prop :=
  Sys2Proof.Says.LaunchAnswersOrStarts
    ∧ Sys2Proof.Says.PageAnswersAndMailboxWrites

/-- Quiesce and restore: the parts `QuiesceCommands`, `QuiesceTokensSettle`, `RestoreRebuildsTheTenant`. -/
def Obligations.QuiesceAndRestore : Prop :=
  Sys2Proof.Says.QuiesceCommands
    ∧ Sys2Proof.Says.QuiesceTokensSettle
    ∧ Sys2Proof.Says.RestoreRebuildsTheTenant

/-- Power up and ports: the parts `PowerUpResetsThePackage`, `PortsAndTheFlintBound`. -/
def Obligations.PowerUpAndPorts : Prop :=
  Sys2Proof.Says.PowerUpResetsThePackage
    ∧ Sys2Proof.Says.PortsAndTheFlintBound

/-- Puts at the target: the parts `PutsArrive`, `NoticesReleaseOrDiscardHeldPuts`. -/
def Obligations.PutsAtTheTarget : Prop :=
  Sys2Proof.Says.PutsArrive
    ∧ Sys2Proof.Says.NoticesReleaseOrDiscardHeldPuts

/-- Puts at the issuer: the parts `IssuersLearnOfTheirPuts`, `TokensExpire`. -/
def Obligations.PutsAtTheIssuer : Prop :=
  Sys2Proof.Says.IssuersLearnOfTheirPuts
    ∧ Sys2Proof.Says.TokensExpire

/-- Remote answers and absent peers: the parts `RemoteAnswersComplete`, `AbsentPeersFailOperations`. -/
def Obligations.RemoteAnswersAndAbsentPeers : Prop :=
  Sys2Proof.Says.RemoteAnswersComplete
    ∧ Sys2Proof.Says.AbsentPeersFailOperations

/-- Claim engine: the parts `MembersRecordProposals`, `ClaimsEnd`. -/
def Obligations.ClaimEngine : Prop :=
  Sys2Proof.Says.MembersRecordProposals
    ∧ Sys2Proof.Says.ClaimsEnd
end

