-- ==== Sys2Proof/Laws/Store.lean ====
section
/-! SUPPORT. Laws of byte stores: what a read gives after a write, and that writes keep the canonical form. -/

namespace Sys2Proof.Machine

/-! ### Reading -/

theorem Bytes.get_append (a b : Bytes) (k : Nat) :
    Bytes.get (a ++ b) k = if k ∈ a.map (·.1) then Bytes.get a k else Bytes.get b k := by
  induction a with
  | nil => simp
  | cons c r ih =>
    obtain ⟨x, v⟩ := c
    simp only [List.cons_append, Bytes.get, ih, List.map_cons, List.mem_cons]
    by_cases h : x = k
    · simp [h]
    · have : ¬k = x := fun e => h e.symm
      simp [h, this]

theorem Bytes.get_filter (b : Bytes) (p : Nat → Bool) (k : Nat) :
    Bytes.get (b.filter fun c => p c.1) k = if p k then Bytes.get b k else 0 := by
  induction b with
  | nil => simp [Bytes.get]
  | cons c r ih =>
    obtain ⟨x, v⟩ := c
    by_cases hp : p x <;> by_cases hx : x = k <;> simp_all [Bytes.get]

theorem Bytes.get_not_mem (b : Bytes) (k : Nat) (h : k ∉ b.map (·.1)) : Bytes.get b k = 0 := by
  induction b with
  | nil => rfl
  | cons c r ih =>
    obtain ⟨x, v⟩ := c
    simp only [List.map_cons, List.mem_cons, not_or] at h
    simp [Bytes.get, Ne.symm h.1, ih h.2]

theorem cells_keys (a : Nat) (xs : List Byte) : ∀ c ∈ cells a xs, a ≤ c.1 ∧ c.1 < a + xs.length := by
  induction xs generalizing a with
  | nil => simp [cells]
  | cons x r ih =>
    intro c hc
    unfold cells at hc
    split at hc
    · have := ih (a + 1) c hc; simp; omega
    · rcases List.mem_cons.1 hc with rfl | hc
      · simp
      · have := ih (a + 1) c hc; simp; omega

theorem get_cells (a : Nat) (xs : List Byte) (k : Nat) :
    Bytes.get (cells a xs) k = if a ≤ k then xs.getD (k - a) 0 else 0 := by
  induction xs generalizing a with
  | nil => simp [cells, Bytes.get]
  | cons x r ih =>
    unfold cells
    rcases Nat.lt_trichotomy k a with h | h | h
    · have h1 : ¬a ≤ k := by omega
      have h2 : ¬a + 1 ≤ k := by omega
      have h3 : ¬a = k := by omega
      split <;> simp [ih, h2, h3, Bytes.get]
    · subst h
      have h2 : ¬k + 1 ≤ k := by omega
      split <;> simp_all [Bytes.get]
    · have h1 : a ≤ k := by omega
      have h2 : a + 1 ≤ k := by omega
      have h3 : ¬a = k := by omega
      have h4 : k - a = (k - (a + 1)) + 1 := by omega
      split <;> simp [ih, h2, h3, h4, Bytes.get]

/-- A byte read after a run was written. -/
theorem Bytes.get_put (b : Bytes) (a : Nat) (xs : List Byte) (k : Nat) :
    (b.put a xs).get k = if a ≤ k ∧ k < a + xs.length then xs.getD (k - a) 0 else b.get k := by
  unfold Bytes.put
  rw [Bytes.get_append, Bytes.get_append]
  have hl : ∀ q, q ∈ (b.filter fun c => decide (c.1 < a)).map (·.1) → q < a := by
    intro q hq; simp only [List.mem_map, List.mem_filter, decide_eq_true_eq] at hq; obtain ⟨c, hc, rfl⟩ := hq; exact hc.2
  have hc : ∀ q, q ∈ (cells a xs).map (·.1) → a ≤ q ∧ q < a + xs.length := by
    intro q hq; simp only [List.mem_map] at hq; obtain ⟨c, hc, rfl⟩ := hq; exact cells_keys a xs c hc
  have f1 := Bytes.get_filter b (fun c => decide (c < a)) k
  have f2 := Bytes.get_filter b (fun c => decide (a + xs.length ≤ c)) k
  by_cases h : a ≤ k ∧ k < a + xs.length
  · rw [if_pos h]
    have n1 : k ∉ (b.filter fun c => decide (c.1 < a)).map (·.1) := fun q => by have := hl k q; omega
    by_cases m : k ∈ (cells a xs).map (·.1)
    · rw [if_pos (by simp only [List.map_append, List.mem_append]; exact .inr m), if_neg n1, get_cells, if_pos h.1]
    · rw [if_neg (by simp only [List.map_append, List.mem_append, not_or]; exact ⟨n1, m⟩), f2]
      have := Bytes.get_not_mem _ _ m
      rw [get_cells, if_pos h.1] at this
      rw [this]; simp; omega
  · rw [if_neg h]
    have m : k ∉ (cells a xs).map (·.1) := fun q => h (hc k q)
    by_cases n1 : k ∈ (b.filter fun c => decide (c.1 < a)).map (·.1)
    · rw [if_pos (by simp only [List.map_append, List.mem_append]; exact .inl n1), if_pos n1, f1]
      simp [hl k n1]
    · rw [if_neg (by simp only [List.map_append, List.mem_append, not_or]; exact ⟨n1, m⟩), f2]
      by_cases hk : a + xs.length ≤ k
      · simp [hk]
      · have hk2 : k < a := by omega
        have := Bytes.get_not_mem _ _ n1
        rw [f1] at this
        simp only [hk2, decide_true, if_true] at this
        simp [hk, this]

@[simp] theorem Bytes.length_getN (b : Bytes) (a n : Nat) : (b.getN a n).length = n := by simp [Bytes.getN]

/-- A run that is read is its bytes. -/
theorem Bytes.getN_eq (b : Bytes) (a n : Nat) : b.getN a n = (List.range n).map fun i => b.get (a + i) := by
  unfold Bytes.getN
  refine List.map_congr_left fun i hi => ?_
  have := List.mem_range.1 hi
  rw [Bytes.get_filter b (fun c => decide (a ≤ c ∧ c < a + n)) (a + i)]
  simp; omega

/-- A run read after it was written. -/
theorem Bytes.getN_put_same (b : Bytes) (a : Nat) (xs : List Byte) : (b.put a xs).getN a xs.length = xs := by
  rw [Bytes.getN_eq]
  refine List.ext_getElem (by simp) fun i h1 h2 => ?_
  have : i < xs.length := h2
  simp [Bytes.get_put, this]

/-- A run read after another was written. -/
theorem Bytes.getN_put_apart (b : Bytes) (a k n : Nat) (xs : List Byte) (h : k + n ≤ a ∨ a + xs.length ≤ k) :
    (b.put a xs).getN k n = b.getN k n := by
  rw [Bytes.getN_eq, Bytes.getN_eq]
  refine List.map_congr_left fun i hi => ?_
  have := List.mem_range.1 hi
  rw [Bytes.get_put, if_neg (by omega)]

/-! ### The canonical form -/

/-- The canonical form as a property of the list. -/
theorem Bytes.wf_iff (b : Bytes) :
    Bytes.wf b = true ↔ b.Pairwise (fun c d => c.1 < d.1) ∧ ∀ c ∈ b, c.2 ≠ 0 := by
  induction b with
  | nil => simp [Bytes.wf]
  | cons c r ih =>
    obtain ⟨x, v⟩ := c
    simp [Bytes.wf, ih]
    tauto

theorem Bytes.wf_filter (b : Bytes) (p : Host.Cell → Bool) (h : Bytes.wf b = true) : Bytes.wf (b.filter p) = true := by
  rw [Bytes.wf_iff] at *
  exact ⟨h.1.filter _, fun c hc => h.2 c (List.mem_filter.1 hc).1⟩

theorem Bytes.wf_append (a b : Bytes) (ha : Bytes.wf a = true) (hb : Bytes.wf b = true)
    (h : ∀ c ∈ a, ∀ d ∈ b, c.1 < d.1) : Bytes.wf (a ++ b) = true := by
  rw [Bytes.wf_iff] at *
  refine ⟨List.pairwise_append.2 ⟨ha.1, hb.1, h⟩, fun c hc => ?_⟩
  rcases List.mem_append.1 hc with hc | hc
  · exact ha.2 c hc
  · exact hb.2 c hc

theorem wf_cells (a : Nat) (xs : List Byte) : Bytes.wf (cells a xs) = true := by
  induction xs generalizing a with
  | nil => rfl
  | cons x r ih =>
    unfold cells
    split
    · exact ih _
    · rename_i h
      have : ∀ c ∈ cells (a + 1) r, a < c.1 := fun c hc => by have := cells_keys (a + 1) r c hc; omega
      simp [Bytes.wf, ih]
      exact ⟨h, fun k v hk => this (k, v) hk⟩

/-- A write keeps the canonical form. -/
theorem Bytes.wf_put (b : Bytes) (a : Nat) (xs : List Byte) (h : Bytes.wf b = true) : Bytes.wf (b.put a xs) = true := by
  unfold Bytes.put
  refine Bytes.wf_append _ _ (Bytes.wf_append _ _ (Bytes.wf_filter _ _ h) (wf_cells a xs) ?_) (Bytes.wf_filter _ _ h) ?_
  · intro c hc d hd
    have h1 := (List.mem_filter.1 hc).2
    have h2 := cells_keys a xs d hd
    simp at h1; omega
  · intro c hc d hd
    have h2 := (List.mem_filter.1 hd).2
    simp at h2
    rcases List.mem_append.1 hc with hc | hc
    · have h1 := (List.mem_filter.1 hc).2
      simp at h1; omega
    · have h1 := cells_keys a xs c hc; omega

theorem Bytes.wf_putRuns (m : Bytes) (rs : List (Nat × Nat)) (xs : List Byte) (h : Bytes.wf m = true) :
    Bytes.wf (m.putRuns rs xs) = true := by
  induction rs generalizing m xs with
  | nil => exact h
  | cons r rs ih => exact ih _ _ (Bytes.wf_put _ _ _ h)

/-- Cells between two bounds, put in place of what stood there, keep the canonical form. -/
theorem Bytes.wf_splice (m d : Bytes) (lo hi : Nat) (hm : Bytes.wf m = true) (hd : Bytes.wf d = true)
    (h : ∀ c ∈ d, lo ≤ c.1 ∧ c.1 < hi) (hlh : lo ≤ hi) :
    Bytes.wf (m.filter (fun c => decide (c.1 < lo)) ++ d ++ m.filter fun c => decide (hi ≤ c.1)) = true := by
  refine Bytes.wf_append _ _ (Bytes.wf_append _ _ (Bytes.wf_filter _ _ hm) hd ?_) (Bytes.wf_filter _ _ hm) ?_
  · intro c hc e he
    have h1 := (List.mem_filter.1 hc).2
    have h2 := h e he
    simp at h1; omega
  · intro c hc e he
    have h2 := (List.mem_filter.1 he).2
    simp at h2
    rcases List.mem_append.1 hc with hc | hc
    · have h1 := (List.mem_filter.1 hc).2
      simp at h1; omega
    · have := h c hc; omega

/-- Shifting every address keeps the canonical form. -/
theorem Bytes.wf_shift (d : Bytes) (f : Nat → Nat) (hd : Bytes.wf d = true)
    (hf : ∀ c ∈ d, ∀ e ∈ d, c.1 < e.1 → f c.1 < f e.1) : Bytes.wf (d.map fun c => (f c.1, c.2)) = true := by
  rw [Bytes.wf_iff] at *
  refine ⟨?_, ?_⟩
  · rw [List.pairwise_map]
    exact hd.1.imp_of_mem fun hc he => hf _ hc _ he
  · intro c hc
    obtain ⟨e, he, rfl⟩ := List.mem_map.1 hc
    exact hd.2 e he

/-! ### Runs -/

/-- A byte outside the runs written stays. -/
theorem Bytes.get_putRuns_outside (m : Bytes) (rs : List (Nat × Nat)) (xs : List Byte) (k : Nat)
    (h : ∀ r ∈ rs, ¬(r.1 ≤ k ∧ k < r.1 + r.2)) : (m.putRuns rs xs).get k = m.get k := by
  induction rs generalizing m xs with
  | nil => rfl
  | cons r rs ih =>
    unfold Bytes.putRuns
    rw [ih _ _ fun q hq => h q (List.mem_cons_of_mem _ hq), Bytes.get_put]
    have := h r (List.mem_cons_self ..)
    rw [if_neg]
    simp only [List.length_take]
    omega

/-! ### Little-endian values -/

@[simp] theorem length_leBytes (n v : Nat) : (leBytes n v).length = n := by
  induction n generalizing v with
  | zero => rfl
  | succ n ih => simp [leBytes, ih]

/-- The value of the low bytes of a number. -/
theorem leVal_leBytes (n v : Nat) : leVal (leBytes n v) = v % 2 ^ (8 * n) := by
  induction n generalizing v with
  | zero => simp [leBytes, leVal, Nat.mod_one]
  | succ n ih =>
    simp only [leBytes, leVal, ih, BitVec.toNat_ofNat]
    rw [show 2 ^ (8 * (n + 1)) = 256 * 2 ^ (8 * n) from by ring, Nat.mod_mul]

theorem leVal_lt (xs : List Byte) : leVal xs < 2 ^ (8 * xs.length) := by
  induction xs with
  | nil => simp [leVal]
  | cons x r ih =>
    have := x.isLt
    simp only [leVal, List.length_cons]
    rw [show 2 ^ (8 * (r.length + 1)) = 256 * 2 ^ (8 * r.length) from by ring]
    omega

end Sys2Proof.Machine
end

