-- ==== Sys2Proof/Laws/Images.lean ====
section
/-! SUPPORT. Images: the bytes at an endpoint after they were written, the length of a digest, and a signature that verifies (R51,
R281, R285). -/

namespace Sys2Proof.Machine

/-- A part of a run that was written. -/
theorem Bytes.getN_put_inside (b : Bytes) (a off n : Nat) (xs : List Byte) (h : off + n ≤ xs.length) :
    (b.put a xs).getN (a + off) n = (xs.drop off).take n := by
  rw [Bytes.getN_eq]
  refine List.ext_getElem (by simp; omega) fun i h1 h2 => ?_
  have hi : i < n := by simpa using h1
  have hx : off + i < xs.length := by omega
  simp [Bytes.get_put, show a + off + i < a + xs.length by omega, show a ≤ a + off + i by omega,
    show a + off + i - a = off + i by omega, hx]

/-- What stands at an endpoint after a run was written there. -/
theorem State.outsideN_put (s : State) (m : Bytes) (f a off n : Nat) (xs : List Byte) (hm : s.mem = m.put (f * 2 ^ 40 + a) xs)
    (h : off + n ≤ xs.length) (ha : a + xs.length ≤ 2 ^ 40) : s.outsideN f (a + off) n = (xs.drop off).take n := by
  by_cases hn : n = 0
  · simp [State.outsideN, outsideRuns, hn, Bytes.getRuns]
  · have hr : outsideRuns f (a + off) n = [(f * 2 ^ 40 + a + off, n)] := by
      have h1 : (a + off + n - 1) / 2 ^ 40 + 1 - (a + off) / 2 ^ 40 = 1 := by omega
      have h2 : (a + off) / 2 ^ 40 = 0 := by omega
      rw [outsideRuns, if_neg hn, h1, h2]
      simp [List.range_one, outsideKey]
      omega
    rw [State.outsideN, hr, hm]
    simp [Bytes.getRuns, Bytes.getN_put_inside _ _ _ _ _ h]

/-- A Keccak state has 25 lanes after a round. -/
theorem length_keccakRound (a : List Word) (rc : Word) : (keccakRound a rc).length = 25 := by
  simp only [keccakRound]
  split
  · rename_i h; have := congrArg List.length h; simpa using this.symm
  · rename_i h; have := congrArg List.length h; simp at this

/-- So it has after some rounds. -/
theorem length_foldl_keccakRound (cs : List Word) (a : List Word) (h : a.length = 25) :
    (cs.foldl keccakRound a).length = 25 := by
  induction cs generalizing a with
  | nil => exact h
  | cons c r ih => exact ih _ (length_keccakRound a c)

/-- So it has after some blocks. -/
theorem length_keccakAbsorb (n : Nat) (a : List Word) (bs : List Byte) (h : a.length = 25) :
    (keccakAbsorb n a bs).length = 25 := by
  induction n generalizing a bs with
  | zero => exact h
  | succ n ih => exact ih _ _ (length_foldl_keccakRound _ _ (by simp [keccakBlock, h]))

/-- A digest is 64 bytes. -/
theorem length_sha3 (bs : List Byte) : (sha3 bs).length = 64 := by
  simp [sha3, List.length_flatMap, length_keccakAbsorb]

/-- A signature is 4,627 bytes. -/
theorem length_mlDsaSign (k d : List Byte) : (Config.mlDsaSign k d).length = 4627 := by simp [Config.mlDsaSign]

/-- The parts of a signature part. -/
theorem sigParts (key d sig : List Byte) (hk : key.length = 64) (hd : d.length = 64) :
    (key ++ (d ++ sig)).take 64 = key ∧ ((key ++ (d ++ sig)).drop 64).take 64 = d ∧ (key ++ (d ++ sig)).drop 128 = sig := by
  have h1 : (key ++ (d ++ sig)).drop 64 = d ++ sig := List.drop_left' hk
  refine ⟨List.take_left' hk, by rw [h1, List.take_left' hd], ?_⟩
  rw [show 128 = 64 + 64 from rfl, ← List.drop_drop, h1, List.drop_left' hd]

/-- A signature part made under a key that is admitted signs the bytes (R51, R281). -/
theorem signedBy_signed (key bs : List Byte) (admits : List Byte → Bool) (hk : key.length = 64) (h : admits key = true) :
    signedBy (key ++ (sha3 bs ++ Config.mlDsaSign key (sha3 bs))) bs admits = true := by
  obtain ⟨h1, h2, h3⟩ := sigParts key (sha3 bs) (Config.mlDsaSign key (sha3 bs)) hk (length_sha3 bs)
  simp [signedBy, h1, h2, h3, h, Config.mlDsaVerify, List.take_of_length_le, length_mlDsaSign]

/-- So does a device state image's, under a key that is trusted for its tenant (R285). -/
theorem State.signerOk_signed (s : State) (tenant : Nat) (key d : List Byte) (hk : key.length = 64) (hd : d.length = 64)
    (h : (tenant, key) ∈ s.trusted) : s.signerOk tenant (key ++ (d ++ Config.mlDsaSign key d)) = true := by
  obtain ⟨h1, h2, h3⟩ := sigParts key d (Config.mlDsaSign key d) hk hd
  simp [State.signerOk, h1, h2, h3, h, Config.mlDsaVerify, List.take_of_length_le, length_mlDsaSign]

/-- What obsidian reads of bytes that pass its checks in turn (R279). -/
theorem State.readImage_ok {s : State} {tenant fid addr off : Nat} {hs : List DsiHead} {sig : List Byte} {i : Image}
    (hh : dsiSections (s.imageRd fid addr) = some hs) (ho : ((hs.getLast?).map DsiHead.start).getD 0 = off)
    (hg : s.imageRd fid addr (off + 96) sofSigSize = sig) (ht : field (s.imageRd fid addr 0 64) 20 4 = tenant)
    (hk : s.signerOk tenant sig = true) (hd : (sig.drop 64).take 64 = sha3 (s.imageRd fid addr 0 off))
    (hi : s.images.find? (fun i => i.tenant == tenant && i.body == s.imageRd fid addr 0 off) = some i) :
    s.readImage tenant fid addr = .ok i := by
  simp only [State.readImage, hh, ho, hg, ht, hk, hd, hi]
  simp

/-! ### Reading a written image back (R280, R281) -/

/-- The bytes of some sections, the first of which has the sequence `seq`. -/
def written (seq : Nat) (xs : List DsiSection) : List Byte := (xs.zipIdx seq).flatMap fun x => sectionBytes x.2 x.1

/-- The heads of some sections that stand from byte `off` on. -/
def headsFrom (off : Nat) (xs : List DsiSection) : List DsiHead :=
  match xs with
  | [] => []
  | x :: r =>
    { type := x.type, unit := x.unit, start := off, len := x.payload.length }
      :: headsFrom (off + recordsLen (96 + x.payload.length)) r

/-- The head of a section. -/
def headBytes (seq : Nat) (x : DsiSection) : List Byte :=
  leBytes 2 x.type ++ zeros 2 ++ leBytes 4 seq ++ leBytes 8 x.payload.length ++ leBytes 8 x.unit ++ zeros 8 ++ sha3 x.payload

theorem headBytes_length (seq : Nat) (x : DsiSection) : (headBytes seq x).length = 96 := by
  simp [headBytes, zeros, length_sha3]

theorem le_recordsLen (n : Nat) : n ≤ recordsLen n := by unfold recordsLen; omega

theorem sectionBytes_eq (seq : Nat) (x : DsiSection) :
    sectionBytes seq x = headBytes seq x ++ (x.payload ++ zeros (recordsLen (96 + x.payload.length) - (96 + x.payload.length))) := by
  simp [sectionBytes, headBytes, List.append_assoc]

theorem sectionBytes_length (seq : Nat) (x : DsiSection) : (sectionBytes seq x).length = recordsLen (96 + x.payload.length) := by
  have := le_recordsLen (96 + x.payload.length)
  rw [sectionBytes_eq]; simp [headBytes_length, zeros]; omega

/-- Sections that were written are read back, each digest right and the sequence without a gap. -/
theorem walkSections_written (xs : List DsiSection) (seq : Nat) (pre : List Byte) (rd : Nat → Nat → List Byte)
    (hrd : ∀ o n, o + n ≤ (pre ++ written seq xs).length → rd o n = ((pre ++ written seq xs).drop o).take n)
    (ok : ∀ x ∈ xs, x.type < 2 ^ 16 ∧ x.unit < 2 ^ 64 ∧ x.payload.length < 2 ^ 64) (hs : seq + xs.length ≤ 2 ^ 32) :
    walkSections rd xs.length seq pre.length = some (headsFrom pre.length xs) := by
  induction xs generalizing seq pre with
  | nil => rfl
  | cons x r ih =>
    obtain ⟨h1, h2, h3⟩ := ok x (by simp)
    have hw : written seq (x :: r) = sectionBytes seq x ++ written (seq + 1) r := by simp [written, List.zipIdx_cons]
    have hl := sectionBytes_length seq x
    have hle := le_recordsLen (96 + x.payload.length)
    have hlen : (pre ++ written seq (x :: r)).length
        = pre.length + recordsLen (96 + x.payload.length) + (written (seq + 1) r).length := by
      rw [hw]; simp [hl]; omega
    have hd : (pre ++ written seq (x :: r)).drop pre.length = sectionBytes seq x ++ written (seq + 1) r := by
      rw [hw]; exact List.drop_left
    have hh : rd pre.length 96 = headBytes seq x := by
      rw [hrd _ _ (by omega), hd, sectionBytes_eq, List.append_assoc, List.take_left' (headBytes_length seq x)]
    have hd2 : (pre ++ written seq (x :: r)).drop (pre.length + 96)
        = x.payload ++ (zeros (recordsLen (96 + x.payload.length) - (96 + x.payload.length)) ++ written (seq + 1) r) := by
      rw [← List.drop_drop, hd, sectionBytes_eq, List.append_assoc, List.drop_left' (headBytes_length seq x), List.append_assoc]
    have hp : rd (pre.length + 96) x.payload.length = x.payload := by
      rw [hrd _ _ (by omega), hd2, List.take_left]
    have hz : rd (pre.length + (96 + x.payload.length)) (recordsLen (96 + x.payload.length) - (96 + x.payload.length))
        = zeros (recordsLen (96 + x.payload.length) - (96 + x.payload.length)) := by
      rw [hrd _ _ (by omega), ← Nat.add_assoc, ← List.drop_drop, hd2, List.drop_left, List.take_left' (by simp [zeros])]
    have f1 : field (headBytes seq x) 0 2 = x.type :=
      (leVal_leBytes 2 x.type).trans (Nat.mod_eq_of_lt h1)
    have f2 : field (headBytes seq x) 2 2 = 0 := (leVal_leBytes 2 0)
    have f3 : field (headBytes seq x) 4 4 = seq :=
      (leVal_leBytes 4 seq).trans (Nat.mod_eq_of_lt (by simp at hs; omega))
    have f4 : field (headBytes seq x) 8 8 = x.payload.length := (leVal_leBytes 8 _).trans (Nat.mod_eq_of_lt h3)
    have f5 : field (headBytes seq x) 16 8 = x.unit := (leVal_leBytes 8 _).trans (Nat.mod_eq_of_lt h2)
    have f6 : field (headBytes seq x) 24 8 = 0 := (leVal_leBytes 8 0)
    have f7 : ((headBytes seq x).drop 32).take 64 = sha3 x.payload := by
      have : (headBytes seq x).drop 32 = sha3 x.payload := rfl
      rw [this, List.take_of_length_le (by rw [length_sha3])]
    have hi := ih (seq + 1) (pre ++ sectionBytes seq x)
      (fun o n h => by
        have e : pre ++ sectionBytes seq x ++ written (seq + 1) r = pre ++ written seq (x :: r) := by rw [hw, List.append_assoc]
        rw [e] at h ⊢; exact hrd o n h)
      (fun y hy => ok y (by simp [hy])) (by simp at hs; omega)
    rw [List.length_append, hl] at hi
    simp only [List.length_cons, walkSections, hh, f1, f2, f3, f4, f5, f6, f7, hp, hz, hi, headsFrom]
    simp [zeros]

end Sys2Proof.Machine
end

