-- ==== Sys2Proof/Laws/Later.lean ====
section
/-! SUPPORT. What an instruction leaves for later: which late store an `ACCESS_PERFORMS` names, and which queued instruction retires
(R86, R181). -/

namespace Sys2Proof.Machine

/-- The late store at place `n` is the one named by its address and by how many before it are at that address. -/
theorem lateIndex_count (xs : List Late) (va : Word) :
    ∀ n bs c pc k, xs[n]? = some (.store va bs c pc k) → lateIndex va ((xs.take n).filter fun k => k.isAt va).length xs = some n := by
  induction xs with
  | nil => intro n bs c pc k h; simp at h
  | cons x r ih =>
    intro n bs c pc k h
    cases n with
    | zero => simp at h; subst h; simp [lateIndex, Late.isAt]
    | succ n =>
      have hr := ih n bs c pc k (by simpa using h)
      by_cases hv : x.isAt va = true
      · simp [hv, lateIndex, hr]
      · cases hk : ((r.take n).filter fun k => k.isAt va).length <;>
          simp [hv, lateIndex, hk] <;> rw [hk] at hr <;> exact hr

/-- The oldest queued instruction of a bound hart retires when it is named. -/
theorem execQueuedInstructionRetires_oldest (s : State) (q : Queued) (r : List Queued) (h : s.hart.vqueue = q :: r)
    (hb : s.hart.bound = true) : execQueuedInstructionRetires q.pc 0 s = finish s.retireOldest := by
  simp [execQueuedInstructionRetires, State.retireTurn, h, hb]

/-- Another queued instruction does not retire. -/
theorem execQueuedInstructionRetires_other (s : State) (pc : Word) (ahead : Nat)
    (h : ahead ≠ 0 ∨ ∀ q r, s.hart.vqueue = q :: r → q.pc ≠ pc) : execQueuedInstructionRetires pc ahead s = .next s := by
  unfold execQueuedInstructionRetires
  cases hq : s.hart.vqueue with
  | nil => simp
  | cons q r =>
    have : ¬(ahead = 0 ∧ q.pc = pc) := fun ⟨ha, hp⟩ => h.elim (· ha) (· q r hq hp)
    simp [this]

end Sys2Proof.Machine
end

