-- ==== Sys2Proof/Laws/State.lean ====
section
/-! SUPPORT. What each named update of the state does to each field. -/

namespace Sys2Proof.Machine

/-! ### `State.onHart` -/

@[simp] theorem State.onHart_hart (s : State) (f : Hart → Hart) : (s.onHart f).hart = f s.hart := rfl
@[simp] theorem State.onHart_cluster (s : State) (f : Hart → Hart) : (s.onHart f).cluster = s.cluster := rfl
@[simp] theorem State.onHart_others (s : State) (f : Hart → Hart) : (s.onHart f).others = s.others := rfl
@[simp] theorem State.onHart_clusters (s : State) (f : Hart → Hart) : (s.onHart f).clusters = s.clusters := rfl
@[simp] theorem State.onHart_mem (s : State) (f : Hart → Hart) : (s.onHart f).mem = s.mem := rfl
@[simp] theorem State.onHart_leaves (s : State) (f : Hart → Hart) : (s.onHart f).leaves = s.leaves := rfl
@[simp] theorem State.onHart_spaces (s : State) (f : Hart → Hart) : (s.onHart f).spaces = s.spaces := rfl
@[simp] theorem State.onHart_lines (s : State) (f : Hart → Hart) : (s.onHart f).lines = s.lines := rfl
@[simp] theorem State.onHart_ended (s : State) (f : Hart → Hart) : (s.onHart f).ended = s.ended := rfl
@[simp] theorem State.onHart_baselines (s : State) (f : Hart → Hart) : (s.onHart f).baselines = s.baselines := rfl
@[simp] theorem State.onHart_vacant (s : State) (f : Hart → Hart) : (s.onHart f).vacant = s.vacant := rfl
@[simp] theorem State.onHart_config (s : State) (f : Hart → Hart) : (s.onHart f).config = s.config := rfl
@[simp] theorem State.onHart_registered (s : State) (f : Hart → Hart) : (s.onHart f).registered = s.registered := rfl
@[simp] theorem State.onHart_engines (s : State) (f : Hart → Hart) : (s.onHart f).engines = s.engines := rfl
@[simp] theorem State.onHart_how (s : State) (f : Hart → Hart) : (s.onHart f).how = s.how := rfl
@[simp] theorem State.onHart_launches (s : State) (f : Hart → Hart) : (s.onHart f).launches = s.launches := rfl
@[simp] theorem State.onHart_queue (s : State) (f : Hart → Hart) : (s.onHart f).queue = s.queue := rfl
@[simp] theorem State.onHart_parked (s : State) (f : Hart → Hart) : (s.onHart f).parked = s.parked := rfl
@[simp] theorem State.onHart_ckpts (s : State) (f : Hart → Hart) : (s.onHart f).ckpts = s.ckpts := rfl
@[simp] theorem State.onHart_phasers (s : State) (f : Hart → Hart) : (s.onHart f).phasers = s.phasers := rfl
@[simp] theorem State.onHart_phGens (s : State) (f : Hart → Hart) : (s.onHart f).phGens = s.phGens := rfl
@[simp] theorem State.onHart_carves (s : State) (f : Hart → Hart) : (s.onHart f).carves = s.carves := rfl
@[simp] theorem State.onHart_carveGen (s : State) (f : Hart → Hart) : (s.onHart f).carveGen = s.carveGen := rfl
@[simp] theorem State.onHart_records (s : State) (f : Hart → Hart) : (s.onHart f).records = s.records := rfl
@[simp] theorem State.onHart_claims (s : State) (f : Hart → Hart) : (s.onHart f).claims = s.claims := rfl
@[simp] theorem State.onHart_puts (s : State) (f : Hart → Hart) : (s.onHart f).puts = s.puts := rfl
@[simp] theorem State.onHart_gets (s : State) (f : Hart → Hart) : (s.onHart f).gets = s.gets := rfl
@[simp] theorem State.onHart_sends (s : State) (f : Hart → Hart) : (s.onHart f).sends = s.sends := rfl
@[simp] theorem State.onHart_held (s : State) (f : Hart → Hart) : (s.onHart f).held = s.held := rfl
@[simp] theorem State.onHart_landed (s : State) (f : Hart → Hart) : (s.onHart f).landed = s.landed := rfl
@[simp] theorem State.onHart_expired (s : State) (f : Hart → Hart) : (s.onHart f).expired = s.expired := rfl
@[simp] theorem State.onHart_egress (s : State) (f : Hart → Hart) : (s.onHart f).egress = s.egress := rfl
@[simp] theorem State.onHart_mapPending (s : State) (f : Hart → Hart) : (s.onHart f).mapPending = s.mapPending := rfl
@[simp] theorem State.onHart_pageSeq (s : State) (f : Hart → Hart) : (s.onHart f).pageSeq = s.pageSeq := rfl
@[simp] theorem State.onHart_cmdSeq (s : State) (f : Hart → Hart) : (s.onHart f).cmdSeq = s.cmdSeq := rfl
@[simp] theorem State.onHart_compSeq (s : State) (f : Hart → Hart) : (s.onHart f).compSeq = s.compSeq := rfl
@[simp] theorem State.onHart_completions (s : State) (f : Hart → Hart) : (s.onHart f).completions = s.completions := rfl
@[simp] theorem State.onHart_tenants (s : State) (f : Hart → Hart) : (s.onHart f).tenants = s.tenants := rfl
@[simp] theorem State.onHart_images (s : State) (f : Hart → Hart) : (s.onHart f).images = s.images := rfl
@[simp] theorem State.onHart_fid (s : State) (f : Hart → Hart) : (s.onHart f).fid = s.fid := rfl
@[simp] theorem State.onHart_absent (s : State) (f : Hart → Hart) : (s.onHart f).absent = s.absent := rfl
@[simp] theorem State.onHart_ports (s : State) (f : Hart → Hart) : (s.onHart f).ports = s.ports := rfl
@[simp] theorem State.onHart_withheldPorts (s : State) (f : Hart → Hart) : (s.onHart f).withheldPorts = s.withheldPorts := rfl
@[simp] theorem State.onHart_flintHeld (s : State) (f : Hart → Hart) : (s.onHart f).flintHeld = s.flintHeld := rfl
@[simp] theorem State.onHart_usable (s : State) (f : Hart → Hart) : (s.onHart f).usable = s.usable := rfl
@[simp] theorem State.onHart_configured (s : State) (f : Hart → Hart) : (s.onHart f).configured = s.configured := rfl
@[simp] theorem State.onHart_trusted (s : State) (f : Hart → Hart) : (s.onHart f).trusted = s.trusted := rfl
@[simp] theorem State.onHart_selfTest (s : State) (f : Hart → Hart) : (s.onHart f).selfTest = s.selfTest := rfl
@[simp] theorem State.onHart_logical (s : State) (f : Hart → Hart) : (s.onHart f).logical = s.logical := rfl
@[simp] theorem State.onHart_slotErr (s : State) (f : Hart → Hart) : (s.onHart f).slotErr = s.slotErr := rfl
@[simp] theorem State.onHart_heatFloor (s : State) (f : Hart → Hart) : (s.onHart f).heatFloor = s.heatFloor := rfl
@[simp] theorem State.onHart_freeCount (s : State) (f : Hart → Hart) : (s.onHart f).freeCount = s.freeCount := rfl
@[simp] theorem State.onHart_nextName (s : State) (f : Hart → Hart) : (s.onHart f).nextName = s.nextName := rfl
@[simp] theorem State.onHart_agenda (s : State) (f : Hart → Hart) : (s.onHart f).agenda = s.agenda := rfl

/-! ### `State.onCluster` -/

@[simp] theorem State.onCluster_hart (s : State) (f : Cluster → Cluster) : (s.onCluster f).hart = s.hart := rfl
@[simp] theorem State.onCluster_cluster (s : State) (f : Cluster → Cluster) : (s.onCluster f).cluster = f s.cluster := rfl
@[simp] theorem State.onCluster_others (s : State) (f : Cluster → Cluster) : (s.onCluster f).others = s.others := rfl
@[simp] theorem State.onCluster_clusters (s : State) (f : Cluster → Cluster) : (s.onCluster f).clusters = s.clusters := rfl
@[simp] theorem State.onCluster_mem (s : State) (f : Cluster → Cluster) : (s.onCluster f).mem = s.mem := rfl
@[simp] theorem State.onCluster_leaves (s : State) (f : Cluster → Cluster) : (s.onCluster f).leaves = s.leaves := rfl
@[simp] theorem State.onCluster_spaces (s : State) (f : Cluster → Cluster) : (s.onCluster f).spaces = s.spaces := rfl
@[simp] theorem State.onCluster_lines (s : State) (f : Cluster → Cluster) : (s.onCluster f).lines = s.lines := rfl
@[simp] theorem State.onCluster_ended (s : State) (f : Cluster → Cluster) : (s.onCluster f).ended = s.ended := rfl
@[simp] theorem State.onCluster_baselines (s : State) (f : Cluster → Cluster) : (s.onCluster f).baselines = s.baselines := rfl
@[simp] theorem State.onCluster_vacant (s : State) (f : Cluster → Cluster) : (s.onCluster f).vacant = s.vacant := rfl
@[simp] theorem State.onCluster_config (s : State) (f : Cluster → Cluster) : (s.onCluster f).config = s.config := rfl
@[simp] theorem State.onCluster_registered (s : State) (f : Cluster → Cluster) : (s.onCluster f).registered = s.registered := rfl
@[simp] theorem State.onCluster_engines (s : State) (f : Cluster → Cluster) : (s.onCluster f).engines = s.engines := rfl
@[simp] theorem State.onCluster_how (s : State) (f : Cluster → Cluster) : (s.onCluster f).how = s.how := rfl
@[simp] theorem State.onCluster_launches (s : State) (f : Cluster → Cluster) : (s.onCluster f).launches = s.launches := rfl
@[simp] theorem State.onCluster_queue (s : State) (f : Cluster → Cluster) : (s.onCluster f).queue = s.queue := rfl
@[simp] theorem State.onCluster_parked (s : State) (f : Cluster → Cluster) : (s.onCluster f).parked = s.parked := rfl
@[simp] theorem State.onCluster_ckpts (s : State) (f : Cluster → Cluster) : (s.onCluster f).ckpts = s.ckpts := rfl
@[simp] theorem State.onCluster_phasers (s : State) (f : Cluster → Cluster) : (s.onCluster f).phasers = s.phasers := rfl
@[simp] theorem State.onCluster_phGens (s : State) (f : Cluster → Cluster) : (s.onCluster f).phGens = s.phGens := rfl
@[simp] theorem State.onCluster_carves (s : State) (f : Cluster → Cluster) : (s.onCluster f).carves = s.carves := rfl
@[simp] theorem State.onCluster_carveGen (s : State) (f : Cluster → Cluster) : (s.onCluster f).carveGen = s.carveGen := rfl
@[simp] theorem State.onCluster_records (s : State) (f : Cluster → Cluster) : (s.onCluster f).records = s.records := rfl
@[simp] theorem State.onCluster_claims (s : State) (f : Cluster → Cluster) : (s.onCluster f).claims = s.claims := rfl
@[simp] theorem State.onCluster_puts (s : State) (f : Cluster → Cluster) : (s.onCluster f).puts = s.puts := rfl
@[simp] theorem State.onCluster_gets (s : State) (f : Cluster → Cluster) : (s.onCluster f).gets = s.gets := rfl
@[simp] theorem State.onCluster_sends (s : State) (f : Cluster → Cluster) : (s.onCluster f).sends = s.sends := rfl
@[simp] theorem State.onCluster_held (s : State) (f : Cluster → Cluster) : (s.onCluster f).held = s.held := rfl
@[simp] theorem State.onCluster_landed (s : State) (f : Cluster → Cluster) : (s.onCluster f).landed = s.landed := rfl
@[simp] theorem State.onCluster_expired (s : State) (f : Cluster → Cluster) : (s.onCluster f).expired = s.expired := rfl
@[simp] theorem State.onCluster_egress (s : State) (f : Cluster → Cluster) : (s.onCluster f).egress = s.egress := rfl
@[simp] theorem State.onCluster_mapPending (s : State) (f : Cluster → Cluster) : (s.onCluster f).mapPending = s.mapPending := rfl
@[simp] theorem State.onCluster_pageSeq (s : State) (f : Cluster → Cluster) : (s.onCluster f).pageSeq = s.pageSeq := rfl
@[simp] theorem State.onCluster_cmdSeq (s : State) (f : Cluster → Cluster) : (s.onCluster f).cmdSeq = s.cmdSeq := rfl
@[simp] theorem State.onCluster_compSeq (s : State) (f : Cluster → Cluster) : (s.onCluster f).compSeq = s.compSeq := rfl
@[simp] theorem State.onCluster_completions (s : State) (f : Cluster → Cluster) : (s.onCluster f).completions = s.completions := rfl
@[simp] theorem State.onCluster_tenants (s : State) (f : Cluster → Cluster) : (s.onCluster f).tenants = s.tenants := rfl
@[simp] theorem State.onCluster_images (s : State) (f : Cluster → Cluster) : (s.onCluster f).images = s.images := rfl
@[simp] theorem State.onCluster_fid (s : State) (f : Cluster → Cluster) : (s.onCluster f).fid = s.fid := rfl
@[simp] theorem State.onCluster_absent (s : State) (f : Cluster → Cluster) : (s.onCluster f).absent = s.absent := rfl
@[simp] theorem State.onCluster_ports (s : State) (f : Cluster → Cluster) : (s.onCluster f).ports = s.ports := rfl
@[simp] theorem State.onCluster_withheldPorts (s : State) (f : Cluster → Cluster) : (s.onCluster f).withheldPorts = s.withheldPorts := rfl
@[simp] theorem State.onCluster_flintHeld (s : State) (f : Cluster → Cluster) : (s.onCluster f).flintHeld = s.flintHeld := rfl
@[simp] theorem State.onCluster_usable (s : State) (f : Cluster → Cluster) : (s.onCluster f).usable = s.usable := rfl
@[simp] theorem State.onCluster_configured (s : State) (f : Cluster → Cluster) : (s.onCluster f).configured = s.configured := rfl
@[simp] theorem State.onCluster_trusted (s : State) (f : Cluster → Cluster) : (s.onCluster f).trusted = s.trusted := rfl
@[simp] theorem State.onCluster_selfTest (s : State) (f : Cluster → Cluster) : (s.onCluster f).selfTest = s.selfTest := rfl
@[simp] theorem State.onCluster_logical (s : State) (f : Cluster → Cluster) : (s.onCluster f).logical = s.logical := rfl
@[simp] theorem State.onCluster_slotErr (s : State) (f : Cluster → Cluster) : (s.onCluster f).slotErr = s.slotErr := rfl
@[simp] theorem State.onCluster_heatFloor (s : State) (f : Cluster → Cluster) : (s.onCluster f).heatFloor = s.heatFloor := rfl
@[simp] theorem State.onCluster_freeCount (s : State) (f : Cluster → Cluster) : (s.onCluster f).freeCount = s.freeCount := rfl
@[simp] theorem State.onCluster_nextName (s : State) (f : Cluster → Cluster) : (s.onCluster f).nextName = s.nextName := rfl
@[simp] theorem State.onCluster_agenda (s : State) (f : Cluster → Cluster) : (s.onCluster f).agenda = s.agenda := rfl

/-! ### `State.setX` -/

@[simp] theorem State.setX_hart (s : State) (d : XReg) (w : Word) : (s.setX d w).hart = s.hart.setX d w := rfl
@[simp] theorem State.setX_cluster (s : State) (d : XReg) (w : Word) : (s.setX d w).cluster = s.cluster := rfl
@[simp] theorem State.setX_others (s : State) (d : XReg) (w : Word) : (s.setX d w).others = s.others := rfl
@[simp] theorem State.setX_clusters (s : State) (d : XReg) (w : Word) : (s.setX d w).clusters = s.clusters := rfl
@[simp] theorem State.setX_mem (s : State) (d : XReg) (w : Word) : (s.setX d w).mem = s.mem := rfl
@[simp] theorem State.setX_leaves (s : State) (d : XReg) (w : Word) : (s.setX d w).leaves = s.leaves := rfl
@[simp] theorem State.setX_spaces (s : State) (d : XReg) (w : Word) : (s.setX d w).spaces = s.spaces := rfl
@[simp] theorem State.setX_lines (s : State) (d : XReg) (w : Word) : (s.setX d w).lines = s.lines := rfl
@[simp] theorem State.setX_ended (s : State) (d : XReg) (w : Word) : (s.setX d w).ended = s.ended := rfl
@[simp] theorem State.setX_baselines (s : State) (d : XReg) (w : Word) : (s.setX d w).baselines = s.baselines := rfl
@[simp] theorem State.setX_vacant (s : State) (d : XReg) (w : Word) : (s.setX d w).vacant = s.vacant := rfl
@[simp] theorem State.setX_config (s : State) (d : XReg) (w : Word) : (s.setX d w).config = s.config := rfl
@[simp] theorem State.setX_registered (s : State) (d : XReg) (w : Word) : (s.setX d w).registered = s.registered := rfl
@[simp] theorem State.setX_engines (s : State) (d : XReg) (w : Word) : (s.setX d w).engines = s.engines := rfl
@[simp] theorem State.setX_how (s : State) (d : XReg) (w : Word) : (s.setX d w).how = s.how := rfl
@[simp] theorem State.setX_launches (s : State) (d : XReg) (w : Word) : (s.setX d w).launches = s.launches := rfl
@[simp] theorem State.setX_queue (s : State) (d : XReg) (w : Word) : (s.setX d w).queue = s.queue := rfl
@[simp] theorem State.setX_parked (s : State) (d : XReg) (w : Word) : (s.setX d w).parked = s.parked := rfl
@[simp] theorem State.setX_ckpts (s : State) (d : XReg) (w : Word) : (s.setX d w).ckpts = s.ckpts := rfl
@[simp] theorem State.setX_phasers (s : State) (d : XReg) (w : Word) : (s.setX d w).phasers = s.phasers := rfl
@[simp] theorem State.setX_phGens (s : State) (d : XReg) (w : Word) : (s.setX d w).phGens = s.phGens := rfl
@[simp] theorem State.setX_carves (s : State) (d : XReg) (w : Word) : (s.setX d w).carves = s.carves := rfl
@[simp] theorem State.setX_carveGen (s : State) (d : XReg) (w : Word) : (s.setX d w).carveGen = s.carveGen := rfl
@[simp] theorem State.setX_records (s : State) (d : XReg) (w : Word) : (s.setX d w).records = s.records := rfl
@[simp] theorem State.setX_claims (s : State) (d : XReg) (w : Word) : (s.setX d w).claims = s.claims := rfl
@[simp] theorem State.setX_puts (s : State) (d : XReg) (w : Word) : (s.setX d w).puts = s.puts := rfl
@[simp] theorem State.setX_gets (s : State) (d : XReg) (w : Word) : (s.setX d w).gets = s.gets := rfl
@[simp] theorem State.setX_sends (s : State) (d : XReg) (w : Word) : (s.setX d w).sends = s.sends := rfl
@[simp] theorem State.setX_held (s : State) (d : XReg) (w : Word) : (s.setX d w).held = s.held := rfl
@[simp] theorem State.setX_landed (s : State) (d : XReg) (w : Word) : (s.setX d w).landed = s.landed := rfl
@[simp] theorem State.setX_expired (s : State) (d : XReg) (w : Word) : (s.setX d w).expired = s.expired := rfl
@[simp] theorem State.setX_egress (s : State) (d : XReg) (w : Word) : (s.setX d w).egress = s.egress := rfl
@[simp] theorem State.setX_mapPending (s : State) (d : XReg) (w : Word) : (s.setX d w).mapPending = s.mapPending := rfl
@[simp] theorem State.setX_pageSeq (s : State) (d : XReg) (w : Word) : (s.setX d w).pageSeq = s.pageSeq := rfl
@[simp] theorem State.setX_cmdSeq (s : State) (d : XReg) (w : Word) : (s.setX d w).cmdSeq = s.cmdSeq := rfl
@[simp] theorem State.setX_compSeq (s : State) (d : XReg) (w : Word) : (s.setX d w).compSeq = s.compSeq := rfl
@[simp] theorem State.setX_completions (s : State) (d : XReg) (w : Word) : (s.setX d w).completions = s.completions := rfl
@[simp] theorem State.setX_tenants (s : State) (d : XReg) (w : Word) : (s.setX d w).tenants = s.tenants := rfl
@[simp] theorem State.setX_images (s : State) (d : XReg) (w : Word) : (s.setX d w).images = s.images := rfl
@[simp] theorem State.setX_fid (s : State) (d : XReg) (w : Word) : (s.setX d w).fid = s.fid := rfl
@[simp] theorem State.setX_absent (s : State) (d : XReg) (w : Word) : (s.setX d w).absent = s.absent := rfl
@[simp] theorem State.setX_ports (s : State) (d : XReg) (w : Word) : (s.setX d w).ports = s.ports := rfl
@[simp] theorem State.setX_withheldPorts (s : State) (d : XReg) (w : Word) : (s.setX d w).withheldPorts = s.withheldPorts := rfl
@[simp] theorem State.setX_flintHeld (s : State) (d : XReg) (w : Word) : (s.setX d w).flintHeld = s.flintHeld := rfl
@[simp] theorem State.setX_usable (s : State) (d : XReg) (w : Word) : (s.setX d w).usable = s.usable := rfl
@[simp] theorem State.setX_configured (s : State) (d : XReg) (w : Word) : (s.setX d w).configured = s.configured := rfl
@[simp] theorem State.setX_trusted (s : State) (d : XReg) (w : Word) : (s.setX d w).trusted = s.trusted := rfl
@[simp] theorem State.setX_selfTest (s : State) (d : XReg) (w : Word) : (s.setX d w).selfTest = s.selfTest := rfl
@[simp] theorem State.setX_logical (s : State) (d : XReg) (w : Word) : (s.setX d w).logical = s.logical := rfl
@[simp] theorem State.setX_slotErr (s : State) (d : XReg) (w : Word) : (s.setX d w).slotErr = s.slotErr := rfl
@[simp] theorem State.setX_heatFloor (s : State) (d : XReg) (w : Word) : (s.setX d w).heatFloor = s.heatFloor := rfl
@[simp] theorem State.setX_freeCount (s : State) (d : XReg) (w : Word) : (s.setX d w).freeCount = s.freeCount := rfl
@[simp] theorem State.setX_nextName (s : State) (d : XReg) (w : Word) : (s.setX d w).nextName = s.nextName := rfl
@[simp] theorem State.setX_agenda (s : State) (d : XReg) (w : Word) : (s.setX d w).agenda = s.agenda := rfl

/-! ### `State.holds` -/

@[simp] theorem State.holds_cluster (s : State) (d : XReg) (w : Word) : (s.holds d w).cluster = s.cluster := rfl
@[simp] theorem State.holds_others (s : State) (d : XReg) (w : Word) : (s.holds d w).others = s.others := rfl
@[simp] theorem State.holds_clusters (s : State) (d : XReg) (w : Word) : (s.holds d w).clusters = s.clusters := rfl
@[simp] theorem State.holds_mem (s : State) (d : XReg) (w : Word) : (s.holds d w).mem = s.mem := rfl
@[simp] theorem State.holds_leaves (s : State) (d : XReg) (w : Word) : (s.holds d w).leaves = s.leaves := rfl
@[simp] theorem State.holds_spaces (s : State) (d : XReg) (w : Word) : (s.holds d w).spaces = s.spaces := rfl
@[simp] theorem State.holds_lines (s : State) (d : XReg) (w : Word) : (s.holds d w).lines = s.lines := rfl
@[simp] theorem State.holds_ended (s : State) (d : XReg) (w : Word) : (s.holds d w).ended = s.ended := rfl
@[simp] theorem State.holds_baselines (s : State) (d : XReg) (w : Word) : (s.holds d w).baselines = s.baselines := rfl
@[simp] theorem State.holds_vacant (s : State) (d : XReg) (w : Word) : (s.holds d w).vacant = s.vacant := rfl
@[simp] theorem State.holds_config (s : State) (d : XReg) (w : Word) : (s.holds d w).config = s.config := rfl
@[simp] theorem State.holds_registered (s : State) (d : XReg) (w : Word) : (s.holds d w).registered = s.registered := rfl
@[simp] theorem State.holds_engines (s : State) (d : XReg) (w : Word) : (s.holds d w).engines = s.engines := rfl
@[simp] theorem State.holds_how (s : State) (d : XReg) (w : Word) : (s.holds d w).how = s.how := rfl
@[simp] theorem State.holds_launches (s : State) (d : XReg) (w : Word) : (s.holds d w).launches = s.launches := rfl
@[simp] theorem State.holds_queue (s : State) (d : XReg) (w : Word) : (s.holds d w).queue = s.queue := rfl
@[simp] theorem State.holds_parked (s : State) (d : XReg) (w : Word) : (s.holds d w).parked = s.parked := rfl
@[simp] theorem State.holds_ckpts (s : State) (d : XReg) (w : Word) : (s.holds d w).ckpts = s.ckpts := rfl
@[simp] theorem State.holds_phasers (s : State) (d : XReg) (w : Word) : (s.holds d w).phasers = s.phasers := rfl
@[simp] theorem State.holds_phGens (s : State) (d : XReg) (w : Word) : (s.holds d w).phGens = s.phGens := rfl
@[simp] theorem State.holds_carves (s : State) (d : XReg) (w : Word) : (s.holds d w).carves = s.carves := rfl
@[simp] theorem State.holds_carveGen (s : State) (d : XReg) (w : Word) : (s.holds d w).carveGen = s.carveGen := rfl
@[simp] theorem State.holds_records (s : State) (d : XReg) (w : Word) : (s.holds d w).records = s.records := rfl
@[simp] theorem State.holds_claims (s : State) (d : XReg) (w : Word) : (s.holds d w).claims = s.claims := rfl
@[simp] theorem State.holds_puts (s : State) (d : XReg) (w : Word) : (s.holds d w).puts = s.puts := rfl
@[simp] theorem State.holds_gets (s : State) (d : XReg) (w : Word) : (s.holds d w).gets = s.gets := rfl
@[simp] theorem State.holds_sends (s : State) (d : XReg) (w : Word) : (s.holds d w).sends = s.sends := rfl
@[simp] theorem State.holds_held (s : State) (d : XReg) (w : Word) : (s.holds d w).held = s.held := rfl
@[simp] theorem State.holds_landed (s : State) (d : XReg) (w : Word) : (s.holds d w).landed = s.landed := rfl
@[simp] theorem State.holds_expired (s : State) (d : XReg) (w : Word) : (s.holds d w).expired = s.expired := rfl
@[simp] theorem State.holds_egress (s : State) (d : XReg) (w : Word) : (s.holds d w).egress = s.egress := rfl
@[simp] theorem State.holds_mapPending (s : State) (d : XReg) (w : Word) : (s.holds d w).mapPending = s.mapPending := rfl
@[simp] theorem State.holds_pageSeq (s : State) (d : XReg) (w : Word) : (s.holds d w).pageSeq = s.pageSeq := rfl
@[simp] theorem State.holds_cmdSeq (s : State) (d : XReg) (w : Word) : (s.holds d w).cmdSeq = s.cmdSeq := rfl
@[simp] theorem State.holds_compSeq (s : State) (d : XReg) (w : Word) : (s.holds d w).compSeq = s.compSeq := rfl
@[simp] theorem State.holds_completions (s : State) (d : XReg) (w : Word) : (s.holds d w).completions = s.completions := rfl
@[simp] theorem State.holds_tenants (s : State) (d : XReg) (w : Word) : (s.holds d w).tenants = s.tenants := rfl
@[simp] theorem State.holds_images (s : State) (d : XReg) (w : Word) : (s.holds d w).images = s.images := rfl
@[simp] theorem State.holds_fid (s : State) (d : XReg) (w : Word) : (s.holds d w).fid = s.fid := rfl
@[simp] theorem State.holds_absent (s : State) (d : XReg) (w : Word) : (s.holds d w).absent = s.absent := rfl
@[simp] theorem State.holds_ports (s : State) (d : XReg) (w : Word) : (s.holds d w).ports = s.ports := rfl
@[simp] theorem State.holds_withheldPorts (s : State) (d : XReg) (w : Word) : (s.holds d w).withheldPorts = s.withheldPorts := rfl
@[simp] theorem State.holds_flintHeld (s : State) (d : XReg) (w : Word) : (s.holds d w).flintHeld = s.flintHeld := rfl
@[simp] theorem State.holds_usable (s : State) (d : XReg) (w : Word) : (s.holds d w).usable = s.usable := rfl
@[simp] theorem State.holds_configured (s : State) (d : XReg) (w : Word) : (s.holds d w).configured = s.configured := rfl
@[simp] theorem State.holds_trusted (s : State) (d : XReg) (w : Word) : (s.holds d w).trusted = s.trusted := rfl
@[simp] theorem State.holds_selfTest (s : State) (d : XReg) (w : Word) : (s.holds d w).selfTest = s.selfTest := rfl
@[simp] theorem State.holds_logical (s : State) (d : XReg) (w : Word) : (s.holds d w).logical = s.logical := rfl
@[simp] theorem State.holds_slotErr (s : State) (d : XReg) (w : Word) : (s.holds d w).slotErr = s.slotErr := rfl
@[simp] theorem State.holds_heatFloor (s : State) (d : XReg) (w : Word) : (s.holds d w).heatFloor = s.heatFloor := rfl
@[simp] theorem State.holds_freeCount (s : State) (d : XReg) (w : Word) : (s.holds d w).freeCount = s.freeCount := rfl
@[simp] theorem State.holds_nextName (s : State) (d : XReg) (w : Word) : (s.holds d w).nextName = s.nextName := rfl
@[simp] theorem State.holds_agenda (s : State) (d : XReg) (w : Word) : (s.holds d w).agenda = s.agenda := rfl

/-! ### `State.goes` -/

@[simp] theorem State.goes_cluster (s : State) (pc : Word) (st : List Loop) : (s.goes pc st).cluster = s.cluster := rfl
@[simp] theorem State.goes_others (s : State) (pc : Word) (st : List Loop) : (s.goes pc st).others = s.others := rfl
@[simp] theorem State.goes_clusters (s : State) (pc : Word) (st : List Loop) : (s.goes pc st).clusters = s.clusters := rfl
@[simp] theorem State.goes_mem (s : State) (pc : Word) (st : List Loop) : (s.goes pc st).mem = s.mem := rfl
@[simp] theorem State.goes_leaves (s : State) (pc : Word) (st : List Loop) : (s.goes pc st).leaves = s.leaves := rfl
@[simp] theorem State.goes_spaces (s : State) (pc : Word) (st : List Loop) : (s.goes pc st).spaces = s.spaces := rfl
@[simp] theorem State.goes_lines (s : State) (pc : Word) (st : List Loop) : (s.goes pc st).lines = s.lines := rfl
@[simp] theorem State.goes_ended (s : State) (pc : Word) (st : List Loop) : (s.goes pc st).ended = s.ended := rfl
@[simp] theorem State.goes_baselines (s : State) (pc : Word) (st : List Loop) : (s.goes pc st).baselines = s.baselines := rfl
@[simp] theorem State.goes_vacant (s : State) (pc : Word) (st : List Loop) : (s.goes pc st).vacant = s.vacant := rfl
@[simp] theorem State.goes_config (s : State) (pc : Word) (st : List Loop) : (s.goes pc st).config = s.config := rfl
@[simp] theorem State.goes_registered (s : State) (pc : Word) (st : List Loop) : (s.goes pc st).registered = s.registered := rfl
@[simp] theorem State.goes_engines (s : State) (pc : Word) (st : List Loop) : (s.goes pc st).engines = s.engines := rfl
@[simp] theorem State.goes_how (s : State) (pc : Word) (st : List Loop) : (s.goes pc st).how = s.how := rfl
@[simp] theorem State.goes_launches (s : State) (pc : Word) (st : List Loop) : (s.goes pc st).launches = s.launches := rfl
@[simp] theorem State.goes_queue (s : State) (pc : Word) (st : List Loop) : (s.goes pc st).queue = s.queue := rfl
@[simp] theorem State.goes_parked (s : State) (pc : Word) (st : List Loop) : (s.goes pc st).parked = s.parked := rfl
@[simp] theorem State.goes_ckpts (s : State) (pc : Word) (st : List Loop) : (s.goes pc st).ckpts = s.ckpts := rfl
@[simp] theorem State.goes_phasers (s : State) (pc : Word) (st : List Loop) : (s.goes pc st).phasers = s.phasers := rfl
@[simp] theorem State.goes_phGens (s : State) (pc : Word) (st : List Loop) : (s.goes pc st).phGens = s.phGens := rfl
@[simp] theorem State.goes_carves (s : State) (pc : Word) (st : List Loop) : (s.goes pc st).carves = s.carves := rfl
@[simp] theorem State.goes_carveGen (s : State) (pc : Word) (st : List Loop) : (s.goes pc st).carveGen = s.carveGen := rfl
@[simp] theorem State.goes_records (s : State) (pc : Word) (st : List Loop) : (s.goes pc st).records = s.records := rfl
@[simp] theorem State.goes_claims (s : State) (pc : Word) (st : List Loop) : (s.goes pc st).claims = s.claims := rfl
@[simp] theorem State.goes_puts (s : State) (pc : Word) (st : List Loop) : (s.goes pc st).puts = s.puts := rfl
@[simp] theorem State.goes_gets (s : State) (pc : Word) (st : List Loop) : (s.goes pc st).gets = s.gets := rfl
@[simp] theorem State.goes_sends (s : State) (pc : Word) (st : List Loop) : (s.goes pc st).sends = s.sends := rfl
@[simp] theorem State.goes_held (s : State) (pc : Word) (st : List Loop) : (s.goes pc st).held = s.held := rfl
@[simp] theorem State.goes_landed (s : State) (pc : Word) (st : List Loop) : (s.goes pc st).landed = s.landed := rfl
@[simp] theorem State.goes_expired (s : State) (pc : Word) (st : List Loop) : (s.goes pc st).expired = s.expired := rfl
@[simp] theorem State.goes_egress (s : State) (pc : Word) (st : List Loop) : (s.goes pc st).egress = s.egress := rfl
@[simp] theorem State.goes_mapPending (s : State) (pc : Word) (st : List Loop) : (s.goes pc st).mapPending = s.mapPending := rfl
@[simp] theorem State.goes_pageSeq (s : State) (pc : Word) (st : List Loop) : (s.goes pc st).pageSeq = s.pageSeq := rfl
@[simp] theorem State.goes_cmdSeq (s : State) (pc : Word) (st : List Loop) : (s.goes pc st).cmdSeq = s.cmdSeq := rfl
@[simp] theorem State.goes_compSeq (s : State) (pc : Word) (st : List Loop) : (s.goes pc st).compSeq = s.compSeq := rfl
@[simp] theorem State.goes_completions (s : State) (pc : Word) (st : List Loop) : (s.goes pc st).completions = s.completions := rfl
@[simp] theorem State.goes_tenants (s : State) (pc : Word) (st : List Loop) : (s.goes pc st).tenants = s.tenants := rfl
@[simp] theorem State.goes_images (s : State) (pc : Word) (st : List Loop) : (s.goes pc st).images = s.images := rfl
@[simp] theorem State.goes_fid (s : State) (pc : Word) (st : List Loop) : (s.goes pc st).fid = s.fid := rfl
@[simp] theorem State.goes_absent (s : State) (pc : Word) (st : List Loop) : (s.goes pc st).absent = s.absent := rfl
@[simp] theorem State.goes_ports (s : State) (pc : Word) (st : List Loop) : (s.goes pc st).ports = s.ports := rfl
@[simp] theorem State.goes_withheldPorts (s : State) (pc : Word) (st : List Loop) : (s.goes pc st).withheldPorts = s.withheldPorts := rfl
@[simp] theorem State.goes_flintHeld (s : State) (pc : Word) (st : List Loop) : (s.goes pc st).flintHeld = s.flintHeld := rfl
@[simp] theorem State.goes_usable (s : State) (pc : Word) (st : List Loop) : (s.goes pc st).usable = s.usable := rfl
@[simp] theorem State.goes_configured (s : State) (pc : Word) (st : List Loop) : (s.goes pc st).configured = s.configured := rfl
@[simp] theorem State.goes_trusted (s : State) (pc : Word) (st : List Loop) : (s.goes pc st).trusted = s.trusted := rfl
@[simp] theorem State.goes_selfTest (s : State) (pc : Word) (st : List Loop) : (s.goes pc st).selfTest = s.selfTest := rfl
@[simp] theorem State.goes_logical (s : State) (pc : Word) (st : List Loop) : (s.goes pc st).logical = s.logical := rfl
@[simp] theorem State.goes_slotErr (s : State) (pc : Word) (st : List Loop) : (s.goes pc st).slotErr = s.slotErr := rfl
@[simp] theorem State.goes_heatFloor (s : State) (pc : Word) (st : List Loop) : (s.goes pc st).heatFloor = s.heatFloor := rfl
@[simp] theorem State.goes_freeCount (s : State) (pc : Word) (st : List Loop) : (s.goes pc st).freeCount = s.freeCount := rfl
@[simp] theorem State.goes_nextName (s : State) (pc : Word) (st : List Loop) : (s.goes pc st).nextName = s.nextName := rfl
@[simp] theorem State.goes_agenda (s : State) (pc : Word) (st : List Loop) : (s.goes pc st).agenda = s.agenda := rfl

/-! ### `State.count` -/

@[simp] theorem State.count_hart (s : State) (asid va n : Nat) : (s.count asid va n).hart = s.hart := rfl
@[simp] theorem State.count_cluster (s : State) (asid va n : Nat) : (s.count asid va n).cluster = s.cluster := rfl
@[simp] theorem State.count_others (s : State) (asid va n : Nat) : (s.count asid va n).others = s.others := rfl
@[simp] theorem State.count_clusters (s : State) (asid va n : Nat) : (s.count asid va n).clusters = s.clusters := rfl
@[simp] theorem State.count_mem (s : State) (asid va n : Nat) : (s.count asid va n).mem = s.mem := rfl
@[simp] theorem State.count_spaces (s : State) (asid va n : Nat) : (s.count asid va n).spaces = s.spaces := rfl
@[simp] theorem State.count_lines (s : State) (asid va n : Nat) : (s.count asid va n).lines = s.lines := rfl
@[simp] theorem State.count_ended (s : State) (asid va n : Nat) : (s.count asid va n).ended = s.ended := rfl
@[simp] theorem State.count_baselines (s : State) (asid va n : Nat) : (s.count asid va n).baselines = s.baselines := rfl
@[simp] theorem State.count_vacant (s : State) (asid va n : Nat) : (s.count asid va n).vacant = s.vacant := rfl
@[simp] theorem State.count_config (s : State) (asid va n : Nat) : (s.count asid va n).config = s.config := rfl
@[simp] theorem State.count_registered (s : State) (asid va n : Nat) : (s.count asid va n).registered = s.registered := rfl
@[simp] theorem State.count_engines (s : State) (asid va n : Nat) : (s.count asid va n).engines = s.engines := rfl
@[simp] theorem State.count_how (s : State) (asid va n : Nat) : (s.count asid va n).how = s.how := rfl
@[simp] theorem State.count_launches (s : State) (asid va n : Nat) : (s.count asid va n).launches = s.launches := rfl
@[simp] theorem State.count_queue (s : State) (asid va n : Nat) : (s.count asid va n).queue = s.queue := rfl
@[simp] theorem State.count_parked (s : State) (asid va n : Nat) : (s.count asid va n).parked = s.parked := rfl
@[simp] theorem State.count_ckpts (s : State) (asid va n : Nat) : (s.count asid va n).ckpts = s.ckpts := rfl
@[simp] theorem State.count_phasers (s : State) (asid va n : Nat) : (s.count asid va n).phasers = s.phasers := rfl
@[simp] theorem State.count_phGens (s : State) (asid va n : Nat) : (s.count asid va n).phGens = s.phGens := rfl
@[simp] theorem State.count_carves (s : State) (asid va n : Nat) : (s.count asid va n).carves = s.carves := rfl
@[simp] theorem State.count_carveGen (s : State) (asid va n : Nat) : (s.count asid va n).carveGen = s.carveGen := rfl
@[simp] theorem State.count_records (s : State) (asid va n : Nat) : (s.count asid va n).records = s.records := rfl
@[simp] theorem State.count_claims (s : State) (asid va n : Nat) : (s.count asid va n).claims = s.claims := rfl
@[simp] theorem State.count_puts (s : State) (asid va n : Nat) : (s.count asid va n).puts = s.puts := rfl
@[simp] theorem State.count_gets (s : State) (asid va n : Nat) : (s.count asid va n).gets = s.gets := rfl
@[simp] theorem State.count_sends (s : State) (asid va n : Nat) : (s.count asid va n).sends = s.sends := rfl
@[simp] theorem State.count_held (s : State) (asid va n : Nat) : (s.count asid va n).held = s.held := rfl
@[simp] theorem State.count_landed (s : State) (asid va n : Nat) : (s.count asid va n).landed = s.landed := rfl
@[simp] theorem State.count_expired (s : State) (asid va n : Nat) : (s.count asid va n).expired = s.expired := rfl
@[simp] theorem State.count_egress (s : State) (asid va n : Nat) : (s.count asid va n).egress = s.egress := rfl
@[simp] theorem State.count_mapPending (s : State) (asid va n : Nat) : (s.count asid va n).mapPending = s.mapPending := rfl
@[simp] theorem State.count_pageSeq (s : State) (asid va n : Nat) : (s.count asid va n).pageSeq = s.pageSeq := rfl
@[simp] theorem State.count_cmdSeq (s : State) (asid va n : Nat) : (s.count asid va n).cmdSeq = s.cmdSeq := rfl
@[simp] theorem State.count_compSeq (s : State) (asid va n : Nat) : (s.count asid va n).compSeq = s.compSeq := rfl
@[simp] theorem State.count_completions (s : State) (asid va n : Nat) : (s.count asid va n).completions = s.completions := rfl
@[simp] theorem State.count_tenants (s : State) (asid va n : Nat) : (s.count asid va n).tenants = s.tenants := rfl
@[simp] theorem State.count_images (s : State) (asid va n : Nat) : (s.count asid va n).images = s.images := rfl
@[simp] theorem State.count_fid (s : State) (asid va n : Nat) : (s.count asid va n).fid = s.fid := rfl
@[simp] theorem State.count_absent (s : State) (asid va n : Nat) : (s.count asid va n).absent = s.absent := rfl
@[simp] theorem State.count_ports (s : State) (asid va n : Nat) : (s.count asid va n).ports = s.ports := rfl
@[simp] theorem State.count_withheldPorts (s : State) (asid va n : Nat) : (s.count asid va n).withheldPorts = s.withheldPorts := rfl
@[simp] theorem State.count_flintHeld (s : State) (asid va n : Nat) : (s.count asid va n).flintHeld = s.flintHeld := rfl
@[simp] theorem State.count_usable (s : State) (asid va n : Nat) : (s.count asid va n).usable = s.usable := rfl
@[simp] theorem State.count_configured (s : State) (asid va n : Nat) : (s.count asid va n).configured = s.configured := rfl
@[simp] theorem State.count_trusted (s : State) (asid va n : Nat) : (s.count asid va n).trusted = s.trusted := rfl
@[simp] theorem State.count_selfTest (s : State) (asid va n : Nat) : (s.count asid va n).selfTest = s.selfTest := rfl
@[simp] theorem State.count_logical (s : State) (asid va n : Nat) : (s.count asid va n).logical = s.logical := rfl
@[simp] theorem State.count_slotErr (s : State) (asid va n : Nat) : (s.count asid va n).slotErr = s.slotErr := rfl
@[simp] theorem State.count_heatFloor (s : State) (asid va n : Nat) : (s.count asid va n).heatFloor = s.heatFloor := rfl
@[simp] theorem State.count_freeCount (s : State) (asid va n : Nat) : (s.count asid va n).freeCount = s.freeCount := rfl
@[simp] theorem State.count_nextName (s : State) (asid va n : Nat) : (s.count asid va n).nextName = s.nextName := rfl
@[simp] theorem State.count_agenda (s : State) (asid va n : Nat) : (s.count asid va n).agenda = s.agenda := rfl

/-! ### `State.touch` -/

@[simp] theorem State.touch_hart (s : State) (asid va n : Nat) : (s.touch asid va n).hart = s.hart := rfl
@[simp] theorem State.touch_cluster (s : State) (asid va n : Nat) : (s.touch asid va n).cluster = s.cluster := rfl
@[simp] theorem State.touch_others (s : State) (asid va n : Nat) : (s.touch asid va n).others = s.others := rfl
@[simp] theorem State.touch_clusters (s : State) (asid va n : Nat) : (s.touch asid va n).clusters = s.clusters := rfl
@[simp] theorem State.touch_mem (s : State) (asid va n : Nat) : (s.touch asid va n).mem = s.mem := rfl
@[simp] theorem State.touch_leaves (s : State) (asid va n : Nat) : (s.touch asid va n).leaves = s.leaves := rfl
@[simp] theorem State.touch_spaces (s : State) (asid va n : Nat) : (s.touch asid va n).spaces = s.spaces := rfl
@[simp] theorem State.touch_lines (s : State) (asid va n : Nat) : (s.touch asid va n).lines = s.lines := rfl
@[simp] theorem State.touch_ended (s : State) (asid va n : Nat) : (s.touch asid va n).ended = s.ended := rfl
@[simp] theorem State.touch_vacant (s : State) (asid va n : Nat) : (s.touch asid va n).vacant = s.vacant := rfl
@[simp] theorem State.touch_config (s : State) (asid va n : Nat) : (s.touch asid va n).config = s.config := rfl
@[simp] theorem State.touch_registered (s : State) (asid va n : Nat) : (s.touch asid va n).registered = s.registered := rfl
@[simp] theorem State.touch_engines (s : State) (asid va n : Nat) : (s.touch asid va n).engines = s.engines := rfl
@[simp] theorem State.touch_how (s : State) (asid va n : Nat) : (s.touch asid va n).how = s.how := rfl
@[simp] theorem State.touch_launches (s : State) (asid va n : Nat) : (s.touch asid va n).launches = s.launches := rfl
@[simp] theorem State.touch_queue (s : State) (asid va n : Nat) : (s.touch asid va n).queue = s.queue := rfl
@[simp] theorem State.touch_parked (s : State) (asid va n : Nat) : (s.touch asid va n).parked = s.parked := rfl
@[simp] theorem State.touch_ckpts (s : State) (asid va n : Nat) : (s.touch asid va n).ckpts = s.ckpts := rfl
@[simp] theorem State.touch_phasers (s : State) (asid va n : Nat) : (s.touch asid va n).phasers = s.phasers := rfl
@[simp] theorem State.touch_phGens (s : State) (asid va n : Nat) : (s.touch asid va n).phGens = s.phGens := rfl
@[simp] theorem State.touch_carves (s : State) (asid va n : Nat) : (s.touch asid va n).carves = s.carves := rfl
@[simp] theorem State.touch_carveGen (s : State) (asid va n : Nat) : (s.touch asid va n).carveGen = s.carveGen := rfl
@[simp] theorem State.touch_records (s : State) (asid va n : Nat) : (s.touch asid va n).records = s.records := rfl
@[simp] theorem State.touch_claims (s : State) (asid va n : Nat) : (s.touch asid va n).claims = s.claims := rfl
@[simp] theorem State.touch_puts (s : State) (asid va n : Nat) : (s.touch asid va n).puts = s.puts := rfl
@[simp] theorem State.touch_gets (s : State) (asid va n : Nat) : (s.touch asid va n).gets = s.gets := rfl
@[simp] theorem State.touch_sends (s : State) (asid va n : Nat) : (s.touch asid va n).sends = s.sends := rfl
@[simp] theorem State.touch_held (s : State) (asid va n : Nat) : (s.touch asid va n).held = s.held := rfl
@[simp] theorem State.touch_landed (s : State) (asid va n : Nat) : (s.touch asid va n).landed = s.landed := rfl
@[simp] theorem State.touch_expired (s : State) (asid va n : Nat) : (s.touch asid va n).expired = s.expired := rfl
@[simp] theorem State.touch_egress (s : State) (asid va n : Nat) : (s.touch asid va n).egress = s.egress := rfl
@[simp] theorem State.touch_mapPending (s : State) (asid va n : Nat) : (s.touch asid va n).mapPending = s.mapPending := rfl
@[simp] theorem State.touch_pageSeq (s : State) (asid va n : Nat) : (s.touch asid va n).pageSeq = s.pageSeq := rfl
@[simp] theorem State.touch_cmdSeq (s : State) (asid va n : Nat) : (s.touch asid va n).cmdSeq = s.cmdSeq := rfl
@[simp] theorem State.touch_compSeq (s : State) (asid va n : Nat) : (s.touch asid va n).compSeq = s.compSeq := rfl
@[simp] theorem State.touch_completions (s : State) (asid va n : Nat) : (s.touch asid va n).completions = s.completions := rfl
@[simp] theorem State.touch_tenants (s : State) (asid va n : Nat) : (s.touch asid va n).tenants = s.tenants := rfl
@[simp] theorem State.touch_images (s : State) (asid va n : Nat) : (s.touch asid va n).images = s.images := rfl
@[simp] theorem State.touch_fid (s : State) (asid va n : Nat) : (s.touch asid va n).fid = s.fid := rfl
@[simp] theorem State.touch_absent (s : State) (asid va n : Nat) : (s.touch asid va n).absent = s.absent := rfl
@[simp] theorem State.touch_ports (s : State) (asid va n : Nat) : (s.touch asid va n).ports = s.ports := rfl
@[simp] theorem State.touch_withheldPorts (s : State) (asid va n : Nat) : (s.touch asid va n).withheldPorts = s.withheldPorts := rfl
@[simp] theorem State.touch_flintHeld (s : State) (asid va n : Nat) : (s.touch asid va n).flintHeld = s.flintHeld := rfl
@[simp] theorem State.touch_usable (s : State) (asid va n : Nat) : (s.touch asid va n).usable = s.usable := rfl
@[simp] theorem State.touch_configured (s : State) (asid va n : Nat) : (s.touch asid va n).configured = s.configured := rfl
@[simp] theorem State.touch_trusted (s : State) (asid va n : Nat) : (s.touch asid va n).trusted = s.trusted := rfl
@[simp] theorem State.touch_selfTest (s : State) (asid va n : Nat) : (s.touch asid va n).selfTest = s.selfTest := rfl
@[simp] theorem State.touch_logical (s : State) (asid va n : Nat) : (s.touch asid va n).logical = s.logical := rfl
@[simp] theorem State.touch_slotErr (s : State) (asid va n : Nat) : (s.touch asid va n).slotErr = s.slotErr := rfl
@[simp] theorem State.touch_heatFloor (s : State) (asid va n : Nat) : (s.touch asid va n).heatFloor = s.heatFloor := rfl
@[simp] theorem State.touch_freeCount (s : State) (asid va n : Nat) : (s.touch asid va n).freeCount = s.freeCount := rfl
@[simp] theorem State.touch_nextName (s : State) (asid va n : Nat) : (s.touch asid va n).nextName = s.nextName := rfl
@[simp] theorem State.touch_agenda (s : State) (asid va n : Nat) : (s.touch asid va n).agenda = s.agenda := rfl

/-! ### `State.post` -/

@[simp] theorem State.post_hart (s : State) (c : BitVec 32) (b : Posted) : (s.post c b).hart = s.hart := rfl
@[simp] theorem State.post_cluster (s : State) (c : BitVec 32) (b : Posted) : (s.post c b).cluster = s.cluster := rfl
@[simp] theorem State.post_others (s : State) (c : BitVec 32) (b : Posted) : (s.post c b).others = s.others := rfl
@[simp] theorem State.post_clusters (s : State) (c : BitVec 32) (b : Posted) : (s.post c b).clusters = s.clusters := rfl
@[simp] theorem State.post_mem (s : State) (c : BitVec 32) (b : Posted) : (s.post c b).mem = s.mem := rfl
@[simp] theorem State.post_leaves (s : State) (c : BitVec 32) (b : Posted) : (s.post c b).leaves = s.leaves := rfl
@[simp] theorem State.post_spaces (s : State) (c : BitVec 32) (b : Posted) : (s.post c b).spaces = s.spaces := rfl
@[simp] theorem State.post_lines (s : State) (c : BitVec 32) (b : Posted) : (s.post c b).lines = s.lines := rfl
@[simp] theorem State.post_ended (s : State) (c : BitVec 32) (b : Posted) : (s.post c b).ended = s.ended := rfl
@[simp] theorem State.post_baselines (s : State) (c : BitVec 32) (b : Posted) : (s.post c b).baselines = s.baselines := rfl
@[simp] theorem State.post_vacant (s : State) (c : BitVec 32) (b : Posted) : (s.post c b).vacant = s.vacant := rfl
@[simp] theorem State.post_config (s : State) (c : BitVec 32) (b : Posted) : (s.post c b).config = s.config := rfl
@[simp] theorem State.post_registered (s : State) (c : BitVec 32) (b : Posted) : (s.post c b).registered = s.registered := rfl
@[simp] theorem State.post_engines (s : State) (c : BitVec 32) (b : Posted) : (s.post c b).engines = s.engines := rfl
@[simp] theorem State.post_how (s : State) (c : BitVec 32) (b : Posted) : (s.post c b).how = s.how := rfl
@[simp] theorem State.post_launches (s : State) (c : BitVec 32) (b : Posted) : (s.post c b).launches = s.launches := rfl
@[simp] theorem State.post_queue (s : State) (c : BitVec 32) (b : Posted) : (s.post c b).queue = s.queue := rfl
@[simp] theorem State.post_parked (s : State) (c : BitVec 32) (b : Posted) : (s.post c b).parked = s.parked := rfl
@[simp] theorem State.post_ckpts (s : State) (c : BitVec 32) (b : Posted) : (s.post c b).ckpts = s.ckpts := rfl
@[simp] theorem State.post_phasers (s : State) (c : BitVec 32) (b : Posted) : (s.post c b).phasers = s.phasers := rfl
@[simp] theorem State.post_phGens (s : State) (c : BitVec 32) (b : Posted) : (s.post c b).phGens = s.phGens := rfl
@[simp] theorem State.post_carves (s : State) (c : BitVec 32) (b : Posted) : (s.post c b).carves = s.carves := rfl
@[simp] theorem State.post_carveGen (s : State) (c : BitVec 32) (b : Posted) : (s.post c b).carveGen = s.carveGen := rfl
@[simp] theorem State.post_records (s : State) (c : BitVec 32) (b : Posted) : (s.post c b).records = s.records := rfl
@[simp] theorem State.post_claims (s : State) (c : BitVec 32) (b : Posted) : (s.post c b).claims = s.claims := rfl
@[simp] theorem State.post_puts (s : State) (c : BitVec 32) (b : Posted) : (s.post c b).puts = s.puts := rfl
@[simp] theorem State.post_gets (s : State) (c : BitVec 32) (b : Posted) : (s.post c b).gets = s.gets := rfl
@[simp] theorem State.post_sends (s : State) (c : BitVec 32) (b : Posted) : (s.post c b).sends = s.sends := rfl
@[simp] theorem State.post_held (s : State) (c : BitVec 32) (b : Posted) : (s.post c b).held = s.held := rfl
@[simp] theorem State.post_landed (s : State) (c : BitVec 32) (b : Posted) : (s.post c b).landed = s.landed := rfl
@[simp] theorem State.post_expired (s : State) (c : BitVec 32) (b : Posted) : (s.post c b).expired = s.expired := rfl
@[simp] theorem State.post_egress (s : State) (c : BitVec 32) (b : Posted) : (s.post c b).egress = s.egress := rfl
@[simp] theorem State.post_mapPending (s : State) (c : BitVec 32) (b : Posted) : (s.post c b).mapPending = s.mapPending := rfl
@[simp] theorem State.post_pageSeq (s : State) (c : BitVec 32) (b : Posted) : (s.post c b).pageSeq = s.pageSeq := rfl
@[simp] theorem State.post_cmdSeq (s : State) (c : BitVec 32) (b : Posted) : (s.post c b).cmdSeq = s.cmdSeq := rfl
@[simp] theorem State.post_compSeq (s : State) (c : BitVec 32) (b : Posted) : (s.post c b).compSeq = s.compSeq + 1 := rfl
@[simp] theorem State.post_completions (s : State) (c : BitVec 32) (b : Posted) : (s.post c b).completions = s.completions ++ [{ seq := s.compSeq + 1, cmd := c, body := b }] := rfl
@[simp] theorem State.post_tenants (s : State) (c : BitVec 32) (b : Posted) : (s.post c b).tenants = s.tenants := rfl
@[simp] theorem State.post_images (s : State) (c : BitVec 32) (b : Posted) : (s.post c b).images = s.images := rfl
@[simp] theorem State.post_fid (s : State) (c : BitVec 32) (b : Posted) : (s.post c b).fid = s.fid := rfl
@[simp] theorem State.post_absent (s : State) (c : BitVec 32) (b : Posted) : (s.post c b).absent = s.absent := rfl
@[simp] theorem State.post_ports (s : State) (c : BitVec 32) (b : Posted) : (s.post c b).ports = s.ports := rfl
@[simp] theorem State.post_withheldPorts (s : State) (c : BitVec 32) (b : Posted) : (s.post c b).withheldPorts = s.withheldPorts := rfl
@[simp] theorem State.post_flintHeld (s : State) (c : BitVec 32) (b : Posted) : (s.post c b).flintHeld = s.flintHeld := rfl
@[simp] theorem State.post_usable (s : State) (c : BitVec 32) (b : Posted) : (s.post c b).usable = s.usable := rfl
@[simp] theorem State.post_configured (s : State) (c : BitVec 32) (b : Posted) : (s.post c b).configured = s.configured := rfl
@[simp] theorem State.post_trusted (s : State) (c : BitVec 32) (b : Posted) : (s.post c b).trusted = s.trusted := rfl
@[simp] theorem State.post_selfTest (s : State) (c : BitVec 32) (b : Posted) : (s.post c b).selfTest = s.selfTest := rfl
@[simp] theorem State.post_logical (s : State) (c : BitVec 32) (b : Posted) : (s.post c b).logical = s.logical := rfl
@[simp] theorem State.post_slotErr (s : State) (c : BitVec 32) (b : Posted) : (s.post c b).slotErr = s.slotErr := rfl
@[simp] theorem State.post_heatFloor (s : State) (c : BitVec 32) (b : Posted) : (s.post c b).heatFloor = s.heatFloor := rfl
@[simp] theorem State.post_freeCount (s : State) (c : BitVec 32) (b : Posted) : (s.post c b).freeCount = s.freeCount := rfl
@[simp] theorem State.post_nextName (s : State) (c : BitVec 32) (b : Posted) : (s.post c b).nextName = s.nextName := rfl
@[simp] theorem State.post_agenda (s : State) (c : BitVec 32) (b : Posted) : (s.post c b).agenda = s.agenda := rfl

/-! ### `State.send` -/

@[simp] theorem State.send_hart (s : State) (m : Msg) : (s.send m).hart = s.hart := rfl
@[simp] theorem State.send_cluster (s : State) (m : Msg) : (s.send m).cluster = s.cluster := rfl
@[simp] theorem State.send_others (s : State) (m : Msg) : (s.send m).others = s.others := rfl
@[simp] theorem State.send_clusters (s : State) (m : Msg) : (s.send m).clusters = s.clusters := rfl
@[simp] theorem State.send_mem (s : State) (m : Msg) : (s.send m).mem = s.mem := rfl
@[simp] theorem State.send_leaves (s : State) (m : Msg) : (s.send m).leaves = s.leaves := rfl
@[simp] theorem State.send_spaces (s : State) (m : Msg) : (s.send m).spaces = s.spaces := rfl
@[simp] theorem State.send_lines (s : State) (m : Msg) : (s.send m).lines = s.lines := rfl
@[simp] theorem State.send_ended (s : State) (m : Msg) : (s.send m).ended = s.ended := rfl
@[simp] theorem State.send_baselines (s : State) (m : Msg) : (s.send m).baselines = s.baselines := rfl
@[simp] theorem State.send_vacant (s : State) (m : Msg) : (s.send m).vacant = s.vacant := rfl
@[simp] theorem State.send_config (s : State) (m : Msg) : (s.send m).config = s.config := rfl
@[simp] theorem State.send_registered (s : State) (m : Msg) : (s.send m).registered = s.registered := rfl
@[simp] theorem State.send_engines (s : State) (m : Msg) : (s.send m).engines = s.engines := rfl
@[simp] theorem State.send_how (s : State) (m : Msg) : (s.send m).how = s.how := rfl
@[simp] theorem State.send_launches (s : State) (m : Msg) : (s.send m).launches = s.launches := rfl
@[simp] theorem State.send_queue (s : State) (m : Msg) : (s.send m).queue = s.queue := rfl
@[simp] theorem State.send_parked (s : State) (m : Msg) : (s.send m).parked = s.parked := rfl
@[simp] theorem State.send_ckpts (s : State) (m : Msg) : (s.send m).ckpts = s.ckpts := rfl
@[simp] theorem State.send_phasers (s : State) (m : Msg) : (s.send m).phasers = s.phasers := rfl
@[simp] theorem State.send_phGens (s : State) (m : Msg) : (s.send m).phGens = s.phGens := rfl
@[simp] theorem State.send_carves (s : State) (m : Msg) : (s.send m).carves = s.carves := rfl
@[simp] theorem State.send_carveGen (s : State) (m : Msg) : (s.send m).carveGen = s.carveGen := rfl
@[simp] theorem State.send_records (s : State) (m : Msg) : (s.send m).records = s.records := rfl
@[simp] theorem State.send_claims (s : State) (m : Msg) : (s.send m).claims = s.claims := rfl
@[simp] theorem State.send_puts (s : State) (m : Msg) : (s.send m).puts = s.puts := rfl
@[simp] theorem State.send_gets (s : State) (m : Msg) : (s.send m).gets = s.gets := rfl
@[simp] theorem State.send_sends (s : State) (m : Msg) : (s.send m).sends = s.sends := rfl
@[simp] theorem State.send_held (s : State) (m : Msg) : (s.send m).held = s.held := rfl
@[simp] theorem State.send_landed (s : State) (m : Msg) : (s.send m).landed = s.landed := rfl
@[simp] theorem State.send_expired (s : State) (m : Msg) : (s.send m).expired = s.expired := rfl
@[simp] theorem State.send_egress (s : State) (m : Msg) : (s.send m).egress = s.egress ++ [m] := rfl
@[simp] theorem State.send_mapPending (s : State) (m : Msg) : (s.send m).mapPending = s.mapPending := rfl
@[simp] theorem State.send_pageSeq (s : State) (m : Msg) : (s.send m).pageSeq = s.pageSeq := rfl
@[simp] theorem State.send_cmdSeq (s : State) (m : Msg) : (s.send m).cmdSeq = s.cmdSeq := rfl
@[simp] theorem State.send_compSeq (s : State) (m : Msg) : (s.send m).compSeq = s.compSeq := rfl
@[simp] theorem State.send_completions (s : State) (m : Msg) : (s.send m).completions = s.completions := rfl
@[simp] theorem State.send_tenants (s : State) (m : Msg) : (s.send m).tenants = s.tenants := rfl
@[simp] theorem State.send_images (s : State) (m : Msg) : (s.send m).images = s.images := rfl
@[simp] theorem State.send_fid (s : State) (m : Msg) : (s.send m).fid = s.fid := rfl
@[simp] theorem State.send_absent (s : State) (m : Msg) : (s.send m).absent = s.absent := rfl
@[simp] theorem State.send_ports (s : State) (m : Msg) : (s.send m).ports = s.ports := rfl
@[simp] theorem State.send_withheldPorts (s : State) (m : Msg) : (s.send m).withheldPorts = s.withheldPorts := rfl
@[simp] theorem State.send_flintHeld (s : State) (m : Msg) : (s.send m).flintHeld = s.flintHeld := rfl
@[simp] theorem State.send_usable (s : State) (m : Msg) : (s.send m).usable = s.usable := rfl
@[simp] theorem State.send_configured (s : State) (m : Msg) : (s.send m).configured = s.configured := rfl
@[simp] theorem State.send_trusted (s : State) (m : Msg) : (s.send m).trusted = s.trusted := rfl
@[simp] theorem State.send_selfTest (s : State) (m : Msg) : (s.send m).selfTest = s.selfTest := rfl
@[simp] theorem State.send_logical (s : State) (m : Msg) : (s.send m).logical = s.logical := rfl
@[simp] theorem State.send_slotErr (s : State) (m : Msg) : (s.send m).slotErr = s.slotErr := rfl
@[simp] theorem State.send_heatFloor (s : State) (m : Msg) : (s.send m).heatFloor = s.heatFloor := rfl
@[simp] theorem State.send_freeCount (s : State) (m : Msg) : (s.send m).freeCount = s.freeCount := rfl
@[simp] theorem State.send_nextName (s : State) (m : Msg) : (s.send m).nextName = s.nextName := rfl
@[simp] theorem State.send_agenda (s : State) (m : Msg) : (s.send m).agenda = s.agenda := rfl

/-! ### `State.onLaunch` -/

@[simp] theorem State.onLaunch_hart (s : State) (id : Nat) (f : Launch → Launch) : (s.onLaunch id f).hart = s.hart := rfl
@[simp] theorem State.onLaunch_cluster (s : State) (id : Nat) (f : Launch → Launch) : (s.onLaunch id f).cluster = s.cluster := rfl
@[simp] theorem State.onLaunch_others (s : State) (id : Nat) (f : Launch → Launch) : (s.onLaunch id f).others = s.others := rfl
@[simp] theorem State.onLaunch_clusters (s : State) (id : Nat) (f : Launch → Launch) : (s.onLaunch id f).clusters = s.clusters := rfl
@[simp] theorem State.onLaunch_mem (s : State) (id : Nat) (f : Launch → Launch) : (s.onLaunch id f).mem = s.mem := rfl
@[simp] theorem State.onLaunch_leaves (s : State) (id : Nat) (f : Launch → Launch) : (s.onLaunch id f).leaves = s.leaves := rfl
@[simp] theorem State.onLaunch_spaces (s : State) (id : Nat) (f : Launch → Launch) : (s.onLaunch id f).spaces = s.spaces := rfl
@[simp] theorem State.onLaunch_lines (s : State) (id : Nat) (f : Launch → Launch) : (s.onLaunch id f).lines = s.lines := rfl
@[simp] theorem State.onLaunch_ended (s : State) (id : Nat) (f : Launch → Launch) : (s.onLaunch id f).ended = s.ended := rfl
@[simp] theorem State.onLaunch_baselines (s : State) (id : Nat) (f : Launch → Launch) : (s.onLaunch id f).baselines = s.baselines := rfl
@[simp] theorem State.onLaunch_vacant (s : State) (id : Nat) (f : Launch → Launch) : (s.onLaunch id f).vacant = s.vacant := rfl
@[simp] theorem State.onLaunch_config (s : State) (id : Nat) (f : Launch → Launch) : (s.onLaunch id f).config = s.config := rfl
@[simp] theorem State.onLaunch_registered (s : State) (id : Nat) (f : Launch → Launch) : (s.onLaunch id f).registered = s.registered := rfl
@[simp] theorem State.onLaunch_engines (s : State) (id : Nat) (f : Launch → Launch) : (s.onLaunch id f).engines = s.engines := rfl
@[simp] theorem State.onLaunch_how (s : State) (id : Nat) (f : Launch → Launch) : (s.onLaunch id f).how = s.how := rfl
@[simp] theorem State.onLaunch_queue (s : State) (id : Nat) (f : Launch → Launch) : (s.onLaunch id f).queue = s.queue := rfl
@[simp] theorem State.onLaunch_parked (s : State) (id : Nat) (f : Launch → Launch) : (s.onLaunch id f).parked = s.parked := rfl
@[simp] theorem State.onLaunch_ckpts (s : State) (id : Nat) (f : Launch → Launch) : (s.onLaunch id f).ckpts = s.ckpts := rfl
@[simp] theorem State.onLaunch_phasers (s : State) (id : Nat) (f : Launch → Launch) : (s.onLaunch id f).phasers = s.phasers := rfl
@[simp] theorem State.onLaunch_phGens (s : State) (id : Nat) (f : Launch → Launch) : (s.onLaunch id f).phGens = s.phGens := rfl
@[simp] theorem State.onLaunch_carves (s : State) (id : Nat) (f : Launch → Launch) : (s.onLaunch id f).carves = s.carves := rfl
@[simp] theorem State.onLaunch_carveGen (s : State) (id : Nat) (f : Launch → Launch) : (s.onLaunch id f).carveGen = s.carveGen := rfl
@[simp] theorem State.onLaunch_records (s : State) (id : Nat) (f : Launch → Launch) : (s.onLaunch id f).records = s.records := rfl
@[simp] theorem State.onLaunch_claims (s : State) (id : Nat) (f : Launch → Launch) : (s.onLaunch id f).claims = s.claims := rfl
@[simp] theorem State.onLaunch_puts (s : State) (id : Nat) (f : Launch → Launch) : (s.onLaunch id f).puts = s.puts := rfl
@[simp] theorem State.onLaunch_gets (s : State) (id : Nat) (f : Launch → Launch) : (s.onLaunch id f).gets = s.gets := rfl
@[simp] theorem State.onLaunch_sends (s : State) (id : Nat) (f : Launch → Launch) : (s.onLaunch id f).sends = s.sends := rfl
@[simp] theorem State.onLaunch_held (s : State) (id : Nat) (f : Launch → Launch) : (s.onLaunch id f).held = s.held := rfl
@[simp] theorem State.onLaunch_landed (s : State) (id : Nat) (f : Launch → Launch) : (s.onLaunch id f).landed = s.landed := rfl
@[simp] theorem State.onLaunch_expired (s : State) (id : Nat) (f : Launch → Launch) : (s.onLaunch id f).expired = s.expired := rfl
@[simp] theorem State.onLaunch_egress (s : State) (id : Nat) (f : Launch → Launch) : (s.onLaunch id f).egress = s.egress := rfl
@[simp] theorem State.onLaunch_mapPending (s : State) (id : Nat) (f : Launch → Launch) : (s.onLaunch id f).mapPending = s.mapPending := rfl
@[simp] theorem State.onLaunch_pageSeq (s : State) (id : Nat) (f : Launch → Launch) : (s.onLaunch id f).pageSeq = s.pageSeq := rfl
@[simp] theorem State.onLaunch_cmdSeq (s : State) (id : Nat) (f : Launch → Launch) : (s.onLaunch id f).cmdSeq = s.cmdSeq := rfl
@[simp] theorem State.onLaunch_compSeq (s : State) (id : Nat) (f : Launch → Launch) : (s.onLaunch id f).compSeq = s.compSeq := rfl
@[simp] theorem State.onLaunch_completions (s : State) (id : Nat) (f : Launch → Launch) : (s.onLaunch id f).completions = s.completions := rfl
@[simp] theorem State.onLaunch_tenants (s : State) (id : Nat) (f : Launch → Launch) : (s.onLaunch id f).tenants = s.tenants := rfl
@[simp] theorem State.onLaunch_images (s : State) (id : Nat) (f : Launch → Launch) : (s.onLaunch id f).images = s.images := rfl
@[simp] theorem State.onLaunch_fid (s : State) (id : Nat) (f : Launch → Launch) : (s.onLaunch id f).fid = s.fid := rfl
@[simp] theorem State.onLaunch_absent (s : State) (id : Nat) (f : Launch → Launch) : (s.onLaunch id f).absent = s.absent := rfl
@[simp] theorem State.onLaunch_ports (s : State) (id : Nat) (f : Launch → Launch) : (s.onLaunch id f).ports = s.ports := rfl
@[simp] theorem State.onLaunch_withheldPorts (s : State) (id : Nat) (f : Launch → Launch) : (s.onLaunch id f).withheldPorts = s.withheldPorts := rfl
@[simp] theorem State.onLaunch_flintHeld (s : State) (id : Nat) (f : Launch → Launch) : (s.onLaunch id f).flintHeld = s.flintHeld := rfl
@[simp] theorem State.onLaunch_usable (s : State) (id : Nat) (f : Launch → Launch) : (s.onLaunch id f).usable = s.usable := rfl
@[simp] theorem State.onLaunch_configured (s : State) (id : Nat) (f : Launch → Launch) : (s.onLaunch id f).configured = s.configured := rfl
@[simp] theorem State.onLaunch_trusted (s : State) (id : Nat) (f : Launch → Launch) : (s.onLaunch id f).trusted = s.trusted := rfl
@[simp] theorem State.onLaunch_selfTest (s : State) (id : Nat) (f : Launch → Launch) : (s.onLaunch id f).selfTest = s.selfTest := rfl
@[simp] theorem State.onLaunch_logical (s : State) (id : Nat) (f : Launch → Launch) : (s.onLaunch id f).logical = s.logical := rfl
@[simp] theorem State.onLaunch_slotErr (s : State) (id : Nat) (f : Launch → Launch) : (s.onLaunch id f).slotErr = s.slotErr := rfl
@[simp] theorem State.onLaunch_heatFloor (s : State) (id : Nat) (f : Launch → Launch) : (s.onLaunch id f).heatFloor = s.heatFloor := rfl
@[simp] theorem State.onLaunch_freeCount (s : State) (id : Nat) (f : Launch → Launch) : (s.onLaunch id f).freeCount = s.freeCount := rfl
@[simp] theorem State.onLaunch_nextName (s : State) (id : Nat) (f : Launch → Launch) : (s.onLaunch id f).nextName = s.nextName := rfl
@[simp] theorem State.onLaunch_agenda (s : State) (id : Nat) (f : Launch → Launch) : (s.onLaunch id f).agenda = s.agenda := rfl

/-! ### `State.onWindow` -/

@[simp] theorem State.onWindow_hart (s : State) (l w : Nat) (f : Window → Window) : (s.onWindow l w f).hart = s.hart := rfl
@[simp] theorem State.onWindow_cluster (s : State) (l w : Nat) (f : Window → Window) : (s.onWindow l w f).cluster = s.cluster := rfl
@[simp] theorem State.onWindow_others (s : State) (l w : Nat) (f : Window → Window) : (s.onWindow l w f).others = s.others := rfl
@[simp] theorem State.onWindow_clusters (s : State) (l w : Nat) (f : Window → Window) : (s.onWindow l w f).clusters = s.clusters := rfl
@[simp] theorem State.onWindow_mem (s : State) (l w : Nat) (f : Window → Window) : (s.onWindow l w f).mem = s.mem := rfl
@[simp] theorem State.onWindow_leaves (s : State) (l w : Nat) (f : Window → Window) : (s.onWindow l w f).leaves = s.leaves := rfl
@[simp] theorem State.onWindow_spaces (s : State) (l w : Nat) (f : Window → Window) : (s.onWindow l w f).spaces = s.spaces := rfl
@[simp] theorem State.onWindow_lines (s : State) (l w : Nat) (f : Window → Window) : (s.onWindow l w f).lines = s.lines := rfl
@[simp] theorem State.onWindow_baselines (s : State) (l w : Nat) (f : Window → Window) : (s.onWindow l w f).baselines = s.baselines := rfl
@[simp] theorem State.onWindow_vacant (s : State) (l w : Nat) (f : Window → Window) : (s.onWindow l w f).vacant = s.vacant := rfl
@[simp] theorem State.onWindow_config (s : State) (l w : Nat) (f : Window → Window) : (s.onWindow l w f).config = s.config := rfl
@[simp] theorem State.onWindow_registered (s : State) (l w : Nat) (f : Window → Window) : (s.onWindow l w f).registered = s.registered := rfl
@[simp] theorem State.onWindow_engines (s : State) (l w : Nat) (f : Window → Window) : (s.onWindow l w f).engines = s.engines := rfl
@[simp] theorem State.onWindow_how (s : State) (l w : Nat) (f : Window → Window) : (s.onWindow l w f).how = s.how := rfl
@[simp] theorem State.onWindow_queue (s : State) (l w : Nat) (f : Window → Window) : (s.onWindow l w f).queue = s.queue := rfl
@[simp] theorem State.onWindow_parked (s : State) (l w : Nat) (f : Window → Window) : (s.onWindow l w f).parked = s.parked := rfl
@[simp] theorem State.onWindow_ckpts (s : State) (l w : Nat) (f : Window → Window) : (s.onWindow l w f).ckpts = s.ckpts := rfl
@[simp] theorem State.onWindow_phasers (s : State) (l w : Nat) (f : Window → Window) : (s.onWindow l w f).phasers = s.phasers := rfl
@[simp] theorem State.onWindow_phGens (s : State) (l w : Nat) (f : Window → Window) : (s.onWindow l w f).phGens = s.phGens := rfl
@[simp] theorem State.onWindow_carves (s : State) (l w : Nat) (f : Window → Window) : (s.onWindow l w f).carves = s.carves := rfl
@[simp] theorem State.onWindow_carveGen (s : State) (l w : Nat) (f : Window → Window) : (s.onWindow l w f).carveGen = s.carveGen := rfl
@[simp] theorem State.onWindow_records (s : State) (l w : Nat) (f : Window → Window) : (s.onWindow l w f).records = s.records := rfl
@[simp] theorem State.onWindow_claims (s : State) (l w : Nat) (f : Window → Window) : (s.onWindow l w f).claims = s.claims := rfl
@[simp] theorem State.onWindow_puts (s : State) (l w : Nat) (f : Window → Window) : (s.onWindow l w f).puts = s.puts := rfl
@[simp] theorem State.onWindow_gets (s : State) (l w : Nat) (f : Window → Window) : (s.onWindow l w f).gets = s.gets := rfl
@[simp] theorem State.onWindow_sends (s : State) (l w : Nat) (f : Window → Window) : (s.onWindow l w f).sends = s.sends := rfl
@[simp] theorem State.onWindow_held (s : State) (l w : Nat) (f : Window → Window) : (s.onWindow l w f).held = s.held := rfl
@[simp] theorem State.onWindow_landed (s : State) (l w : Nat) (f : Window → Window) : (s.onWindow l w f).landed = s.landed := rfl
@[simp] theorem State.onWindow_expired (s : State) (l w : Nat) (f : Window → Window) : (s.onWindow l w f).expired = s.expired := rfl
@[simp] theorem State.onWindow_egress (s : State) (l w : Nat) (f : Window → Window) : (s.onWindow l w f).egress = s.egress := rfl
@[simp] theorem State.onWindow_mapPending (s : State) (l w : Nat) (f : Window → Window) : (s.onWindow l w f).mapPending = s.mapPending := rfl
@[simp] theorem State.onWindow_pageSeq (s : State) (l w : Nat) (f : Window → Window) : (s.onWindow l w f).pageSeq = s.pageSeq := rfl
@[simp] theorem State.onWindow_cmdSeq (s : State) (l w : Nat) (f : Window → Window) : (s.onWindow l w f).cmdSeq = s.cmdSeq := rfl
@[simp] theorem State.onWindow_compSeq (s : State) (l w : Nat) (f : Window → Window) : (s.onWindow l w f).compSeq = s.compSeq := rfl
@[simp] theorem State.onWindow_completions (s : State) (l w : Nat) (f : Window → Window) : (s.onWindow l w f).completions = s.completions := rfl
@[simp] theorem State.onWindow_tenants (s : State) (l w : Nat) (f : Window → Window) : (s.onWindow l w f).tenants = s.tenants := rfl
@[simp] theorem State.onWindow_images (s : State) (l w : Nat) (f : Window → Window) : (s.onWindow l w f).images = s.images := rfl
@[simp] theorem State.onWindow_fid (s : State) (l w : Nat) (f : Window → Window) : (s.onWindow l w f).fid = s.fid := rfl
@[simp] theorem State.onWindow_absent (s : State) (l w : Nat) (f : Window → Window) : (s.onWindow l w f).absent = s.absent := rfl
@[simp] theorem State.onWindow_ports (s : State) (l w : Nat) (f : Window → Window) : (s.onWindow l w f).ports = s.ports := rfl
@[simp] theorem State.onWindow_withheldPorts (s : State) (l w : Nat) (f : Window → Window) : (s.onWindow l w f).withheldPorts = s.withheldPorts := rfl
@[simp] theorem State.onWindow_flintHeld (s : State) (l w : Nat) (f : Window → Window) : (s.onWindow l w f).flintHeld = s.flintHeld := rfl
@[simp] theorem State.onWindow_usable (s : State) (l w : Nat) (f : Window → Window) : (s.onWindow l w f).usable = s.usable := rfl
@[simp] theorem State.onWindow_configured (s : State) (l w : Nat) (f : Window → Window) : (s.onWindow l w f).configured = s.configured := rfl
@[simp] theorem State.onWindow_trusted (s : State) (l w : Nat) (f : Window → Window) : (s.onWindow l w f).trusted = s.trusted := rfl
@[simp] theorem State.onWindow_selfTest (s : State) (l w : Nat) (f : Window → Window) : (s.onWindow l w f).selfTest = s.selfTest := rfl
@[simp] theorem State.onWindow_logical (s : State) (l w : Nat) (f : Window → Window) : (s.onWindow l w f).logical = s.logical := rfl
@[simp] theorem State.onWindow_slotErr (s : State) (l w : Nat) (f : Window → Window) : (s.onWindow l w f).slotErr = s.slotErr := rfl
@[simp] theorem State.onWindow_heatFloor (s : State) (l w : Nat) (f : Window → Window) : (s.onWindow l w f).heatFloor = s.heatFloor := rfl
@[simp] theorem State.onWindow_freeCount (s : State) (l w : Nat) (f : Window → Window) : (s.onWindow l w f).freeCount = s.freeCount := rfl
@[simp] theorem State.onWindow_nextName (s : State) (l w : Nat) (f : Window → Window) : (s.onWindow l w f).nextName = s.nextName := rfl
@[simp] theorem State.onWindow_agenda (s : State) (l w : Nat) (f : Window → Window) : (s.onWindow l w f).agenda = s.agenda := rfl

/-! ### `State.onTask` -/

@[simp] theorem State.onTask_cluster (s : State) (k : Nat) (f : Hart → Hart) : (s.onTask k f).cluster = s.cluster := rfl
@[simp] theorem State.onTask_clusters (s : State) (k : Nat) (f : Hart → Hart) : (s.onTask k f).clusters = s.clusters := rfl
@[simp] theorem State.onTask_mem (s : State) (k : Nat) (f : Hart → Hart) : (s.onTask k f).mem = s.mem := rfl
@[simp] theorem State.onTask_leaves (s : State) (k : Nat) (f : Hart → Hart) : (s.onTask k f).leaves = s.leaves := rfl
@[simp] theorem State.onTask_spaces (s : State) (k : Nat) (f : Hart → Hart) : (s.onTask k f).spaces = s.spaces := rfl
@[simp] theorem State.onTask_lines (s : State) (k : Nat) (f : Hart → Hart) : (s.onTask k f).lines = s.lines := rfl
@[simp] theorem State.onTask_ended (s : State) (k : Nat) (f : Hart → Hart) : (s.onTask k f).ended = s.ended := rfl
@[simp] theorem State.onTask_baselines (s : State) (k : Nat) (f : Hart → Hart) : (s.onTask k f).baselines = s.baselines := rfl
@[simp] theorem State.onTask_vacant (s : State) (k : Nat) (f : Hart → Hart) : (s.onTask k f).vacant = s.vacant := rfl
@[simp] theorem State.onTask_config (s : State) (k : Nat) (f : Hart → Hart) : (s.onTask k f).config = s.config := rfl
@[simp] theorem State.onTask_registered (s : State) (k : Nat) (f : Hart → Hart) : (s.onTask k f).registered = s.registered := rfl
@[simp] theorem State.onTask_engines (s : State) (k : Nat) (f : Hart → Hart) : (s.onTask k f).engines = s.engines := rfl
@[simp] theorem State.onTask_how (s : State) (k : Nat) (f : Hart → Hart) : (s.onTask k f).how = s.how := rfl
@[simp] theorem State.onTask_launches (s : State) (k : Nat) (f : Hart → Hart) : (s.onTask k f).launches = s.launches := rfl
@[simp] theorem State.onTask_queue (s : State) (k : Nat) (f : Hart → Hart) : (s.onTask k f).queue = s.queue := rfl
@[simp] theorem State.onTask_ckpts (s : State) (k : Nat) (f : Hart → Hart) : (s.onTask k f).ckpts = s.ckpts := rfl
@[simp] theorem State.onTask_phasers (s : State) (k : Nat) (f : Hart → Hart) : (s.onTask k f).phasers = s.phasers := rfl
@[simp] theorem State.onTask_phGens (s : State) (k : Nat) (f : Hart → Hart) : (s.onTask k f).phGens = s.phGens := rfl
@[simp] theorem State.onTask_carves (s : State) (k : Nat) (f : Hart → Hart) : (s.onTask k f).carves = s.carves := rfl
@[simp] theorem State.onTask_carveGen (s : State) (k : Nat) (f : Hart → Hart) : (s.onTask k f).carveGen = s.carveGen := rfl
@[simp] theorem State.onTask_records (s : State) (k : Nat) (f : Hart → Hart) : (s.onTask k f).records = s.records := rfl
@[simp] theorem State.onTask_claims (s : State) (k : Nat) (f : Hart → Hart) : (s.onTask k f).claims = s.claims := rfl
@[simp] theorem State.onTask_puts (s : State) (k : Nat) (f : Hart → Hart) : (s.onTask k f).puts = s.puts := rfl
@[simp] theorem State.onTask_gets (s : State) (k : Nat) (f : Hart → Hart) : (s.onTask k f).gets = s.gets := rfl
@[simp] theorem State.onTask_sends (s : State) (k : Nat) (f : Hart → Hart) : (s.onTask k f).sends = s.sends := rfl
@[simp] theorem State.onTask_held (s : State) (k : Nat) (f : Hart → Hart) : (s.onTask k f).held = s.held := rfl
@[simp] theorem State.onTask_landed (s : State) (k : Nat) (f : Hart → Hart) : (s.onTask k f).landed = s.landed := rfl
@[simp] theorem State.onTask_expired (s : State) (k : Nat) (f : Hart → Hart) : (s.onTask k f).expired = s.expired := rfl
@[simp] theorem State.onTask_egress (s : State) (k : Nat) (f : Hart → Hart) : (s.onTask k f).egress = s.egress := rfl
@[simp] theorem State.onTask_mapPending (s : State) (k : Nat) (f : Hart → Hart) : (s.onTask k f).mapPending = s.mapPending := rfl
@[simp] theorem State.onTask_pageSeq (s : State) (k : Nat) (f : Hart → Hart) : (s.onTask k f).pageSeq = s.pageSeq := rfl
@[simp] theorem State.onTask_cmdSeq (s : State) (k : Nat) (f : Hart → Hart) : (s.onTask k f).cmdSeq = s.cmdSeq := rfl
@[simp] theorem State.onTask_compSeq (s : State) (k : Nat) (f : Hart → Hart) : (s.onTask k f).compSeq = s.compSeq := rfl
@[simp] theorem State.onTask_completions (s : State) (k : Nat) (f : Hart → Hart) : (s.onTask k f).completions = s.completions := rfl
@[simp] theorem State.onTask_tenants (s : State) (k : Nat) (f : Hart → Hart) : (s.onTask k f).tenants = s.tenants := rfl
@[simp] theorem State.onTask_images (s : State) (k : Nat) (f : Hart → Hart) : (s.onTask k f).images = s.images := rfl
@[simp] theorem State.onTask_fid (s : State) (k : Nat) (f : Hart → Hart) : (s.onTask k f).fid = s.fid := rfl
@[simp] theorem State.onTask_absent (s : State) (k : Nat) (f : Hart → Hart) : (s.onTask k f).absent = s.absent := rfl
@[simp] theorem State.onTask_ports (s : State) (k : Nat) (f : Hart → Hart) : (s.onTask k f).ports = s.ports := rfl
@[simp] theorem State.onTask_withheldPorts (s : State) (k : Nat) (f : Hart → Hart) : (s.onTask k f).withheldPorts = s.withheldPorts := rfl
@[simp] theorem State.onTask_flintHeld (s : State) (k : Nat) (f : Hart → Hart) : (s.onTask k f).flintHeld = s.flintHeld := rfl
@[simp] theorem State.onTask_usable (s : State) (k : Nat) (f : Hart → Hart) : (s.onTask k f).usable = s.usable := rfl
@[simp] theorem State.onTask_configured (s : State) (k : Nat) (f : Hart → Hart) : (s.onTask k f).configured = s.configured := rfl
@[simp] theorem State.onTask_trusted (s : State) (k : Nat) (f : Hart → Hart) : (s.onTask k f).trusted = s.trusted := rfl
@[simp] theorem State.onTask_selfTest (s : State) (k : Nat) (f : Hart → Hart) : (s.onTask k f).selfTest = s.selfTest := rfl
@[simp] theorem State.onTask_logical (s : State) (k : Nat) (f : Hart → Hart) : (s.onTask k f).logical = s.logical := rfl
@[simp] theorem State.onTask_slotErr (s : State) (k : Nat) (f : Hart → Hart) : (s.onTask k f).slotErr = s.slotErr := rfl
@[simp] theorem State.onTask_heatFloor (s : State) (k : Nat) (f : Hart → Hart) : (s.onTask k f).heatFloor = s.heatFloor := rfl
@[simp] theorem State.onTask_freeCount (s : State) (k : Nat) (f : Hart → Hart) : (s.onTask k f).freeCount = s.freeCount := rfl
@[simp] theorem State.onTask_nextName (s : State) (k : Nat) (f : Hart → Hart) : (s.onTask k f).nextName = s.nextName := rfl
@[simp] theorem State.onTask_agenda (s : State) (k : Nat) (f : Hart → Hart) : (s.onTask k f).agenda = s.agenda := rfl

/-! ### Updates of a hart -/

@[simp] theorem Hart.setX_name (h : Hart) (d : XReg) (w : Word) : (h.setX d w).name = h.name := by unfold Hart.setX; split <;> rfl
@[simp] theorem Hart.setX_part (h : Hart) (d : XReg) (w : Word) : (h.setX d w).part = h.part := by unfold Hart.setX; split <;> rfl
@[simp] theorem Hart.setX_bound (h : Hart) (d : XReg) (w : Word) : (h.setX d w).bound = h.bound := by unfold Hart.setX; split <;> rfl
@[simp] theorem Hart.setX_stopping (h : Hart) (d : XReg) (w : Word) : (h.setX d w).stopping = h.stopping := by unfold Hart.setX; split <;> rfl
@[simp] theorem Hart.setX_task (h : Hart) (d : XReg) (w : Word) : (h.setX d w).task = h.task := by unfold Hart.setX; split <;> rfl
@[simp] theorem Hart.setX_level (h : Hart) (d : XReg) (w : Word) : (h.setX d w).level = h.level := by unfold Hart.setX; split <;> rfl
@[simp] theorem Hart.setX_pc (h : Hart) (d : XReg) (w : Word) : (h.setX d w).pc = h.pc := by unfold Hart.setX; split <;> rfl
@[simp] theorem Hart.setX_p (h : Hart) (d : XReg) (w : Word) : (h.setX d w).p = h.p := by unfold Hart.setX; split <;> rfl
@[simp] theorem Hart.setX_v (h : Hart) (d : XReg) (w : Word) : (h.setX d w).v = h.v := by unfold Hart.setX; split <;> rfl
@[simp] theorem Hart.setX_vl (h : Hart) (d : XReg) (w : Word) : (h.setX d w).vl = h.vl := by unfold Hart.setX; split <;> rfl
@[simp] theorem Hart.setX_vstart (h : Hart) (d : XReg) (w : Word) : (h.setX d w).vstart = h.vstart := by unfold Hart.setX; split <;> rfl
@[simp] theorem Hart.setX_classmap (h : Hart) (d : XReg) (w : Word) : (h.setX d w).classmap = h.classmap := by unfold Hart.setX; split <;> rfl
@[simp] theorem Hart.setX_seed (h : Hart) (d : XReg) (w : Word) : (h.setX d w).seed = h.seed := by unfold Hart.setX; split <;> rfl
@[simp] theorem Hart.setX_stripbase (h : Hart) (d : XReg) (w : Word) : (h.setX d w).stripbase = h.stripbase := by unfold Hart.setX; split <;> rfl
@[simp] theorem Hart.setX_rmode (h : Hart) (d : XReg) (w : Word) : (h.setX d w).rmode = h.rmode := by unfold Hart.setX; split <;> rfl
@[simp] theorem Hart.setX_status (h : Hart) (d : XReg) (w : Word) : (h.setX d w).status = h.status := by unfold Hart.setX; split <;> rfl
@[simp] theorem Hart.setX_pfxstate (h : Hart) (d : XReg) (w : Word) : (h.setX d w).pfxstate = h.pfxstate := by unfold Hart.setX; split <;> rfl
@[simp] theorem Hart.setX_cause (h : Hart) (d : XReg) (w : Word) : (h.setX d w).cause = h.cause := by unfold Hart.setX; split <;> rfl
@[simp] theorem Hart.setX_loaded (h : Hart) (d : XReg) (w : Word) : (h.setX d w).loaded = h.loaded := by unfold Hart.setX; split <;> rfl
@[simp] theorem Hart.setX_unitsDone (h : Hart) (d : XReg) (w : Word) : (h.setX d w).unitsDone = h.unitsDone := by unfold Hart.setX; split <;> rfl
@[simp] theorem Hart.setX_began (h : Hart) (d : XReg) (w : Word) : (h.setX d w).began = h.began := by unfold Hart.setX; split <;> rfl
@[simp] theorem Hart.setX_vqueue (h : Hart) (d : XReg) (w : Word) : (h.setX d w).vqueue = h.vqueue := by unfold Hart.setX; split <;> rfl
@[simp] theorem Hart.setX_late (h : Hart) (d : XReg) (w : Word) : (h.setX d w).late = h.late := by unfold Hart.setX; split <;> rfl
@[simp] theorem Hart.setX_checked (h : Hart) (d : XReg) (w : Word) : (h.setX d w).checked = h.checked := by unfold Hart.setX; split <;> rfl
@[simp] theorem Hart.setX_retired (h : Hart) (d : XReg) (w : Word) : (h.setX d w).retired = h.retired := by unfold Hart.setX; split <;> rfl
@[simp] theorem Hart.setX_epc (h : Hart) (d : XReg) (w : Word) : (h.setX d w).epc = h.epc := by unfold Hart.setX; split <;> rfl
@[simp] theorem Hart.setX_tval (h : Hart) (d : XReg) (w : Word) : (h.setX d w).tval = h.tval := by unfold Hart.setX; split <;> rfl
@[simp] theorem Hart.setX_tvec (h : Hart) (d : XReg) (w : Word) : (h.setX d w).tvec = h.tvec := by unfold Hart.setX; split <;> rfl
@[simp] theorem Hart.setX_stripfault (h : Hart) (d : XReg) (w : Word) : (h.setX d w).stripfault = h.stripfault := by unfold Hart.setX; split <;> rfl
@[simp] theorem Hart.setX_tkexp (h : Hart) (d : XReg) (w : Word) : (h.setX d w).tkexp = h.tkexp := by unfold Hart.setX; split <;> rfl
@[simp] theorem Hart.setX_clwin (h : Hart) (d : XReg) (w : Word) : (h.setX d w).clwin = h.clwin := by unfold Hart.setX; split <;> rfl
@[simp] theorem Hart.setX_clstat (h : Hart) (d : XReg) (w : Word) : (h.setX d w).clstat = h.clstat := by unfold Hart.setX; split <;> rfl
@[simp] theorem Hart.setX_lent (h : Hart) (d : XReg) (w : Word) : (h.setX d w).lent = h.lent := by unfold Hart.setX; split <;> rfl
@[simp] theorem Hart.setX_loopT (h : Hart) (d : XReg) (w : Word) : (h.setX d w).loopT = h.loopT := by unfold Hart.setX; split <;> rfl
@[simp] theorem Hart.setX_loopK (h : Hart) (d : XReg) (w : Word) : (h.setX d w).loopK = h.loopK := by unfold Hart.setX; split <;> rfl
@[simp] theorem Hart.setX_strip (h : Hart) (d : XReg) (w : Word) : (h.setX d w).strip = h.strip := by unfold Hart.setX; split <;> rfl
@[simp] theorem Hart.setX_mapbase (h : Hart) (d : XReg) (w : Word) : (h.setX d w).mapbase = h.mapbase := by unfold Hart.setX; split <;> rfl
@[simp] theorem Hart.setX_ctxs (h : Hart) (d : XReg) (w : Word) : (h.setX d w).ctxs = h.ctxs := by unfold Hart.setX; split <;> rfl
@[simp] theorem Hart.setX_ur (h : Hart) (d : XReg) (w : Word) : (h.setX d w).ur = h.ur := by unfold Hart.setX; split <;> rfl
@[simp] theorem Hart.setX_transfers (h : Hart) (d : XReg) (w : Word) : (h.setX d w).transfers = h.transfers := by unfold Hart.setX; split <;> rfl
@[simp] theorem Hart.setX_attached (h : Hart) (d : XReg) (w : Word) : (h.setX d w).attached = h.attached := by unfold Hart.setX; split <;> rfl
@[simp] theorem Hart.setX_copies (h : Hart) (d : XReg) (w : Word) : (h.setX d w).copies = h.copies := by unfold Hart.setX; split <;> rfl
@[simp] theorem Hart.setX_tokens (h : Hart) (d : XReg) (w : Word) : (h.setX d w).tokens = h.tokens := by unfold Hart.setX; split <;> rfl
@[simp] theorem Hart.setX_tokPtr (h : Hart) (d : XReg) (w : Word) : (h.setX d w).tokPtr = h.tokPtr := by unfold Hart.setX; split <;> rfl
@[simp] theorem Hart.setX_tokOrder (h : Hart) (d : XReg) (w : Word) : (h.setX d w).tokOrder = h.tokOrder := by unfold Hart.setX; split <;> rfl
@[simp] theorem Hart.setX_await (h : Hart) (d : XReg) (w : Word) : (h.setX d w).await = h.await := by unfold Hart.setX; split <;> rfl
@[simp] theorem Hart.setX_phWoke (h : Hart) (d : XReg) (w : Word) : (h.setX d w).phWoke = h.phWoke := by unfold Hart.setX; split <;> rfl
@[simp] theorem Hart.setX_expiries (h : Hart) (d : XReg) (w : Word) : (h.setX d w).expiries = h.expiries := by unfold Hart.setX; split <;> rfl
@[simp] theorem Hart.setX_step (h : Hart) (d : XReg) (w : Word) : (h.setX d w).step = h.step := by unfold Hart.setX; split <;> rfl
@[simp] theorem Hart.setX_dlnPre (h : Hart) (d : XReg) (w : Word) : (h.setX d w).dlnPre = h.dlnPre := by unfold Hart.setX; split <;> rfl
@[simp] theorem Hart.setX_dlnRisk (h : Hart) (d : XReg) (w : Word) : (h.setX d w).dlnRisk = h.dlnRisk := by unfold Hart.setX; split <;> rfl
@[simp] theorem Hart.setX_dlnMiss (h : Hart) (d : XReg) (w : Word) : (h.setX d w).dlnMiss = h.dlnMiss := by unfold Hart.setX; split <;> rfl
@[simp] theorem Hart.setX_dlnDone (h : Hart) (d : XReg) (w : Word) : (h.setX d w).dlnDone = h.dlnDone := by unfold Hart.setX; split <;> rfl
@[simp] theorem Hart.setX_dlnSlack (h : Hart) (d : XReg) (w : Word) : (h.setX d w).dlnSlack = h.dlnSlack := by unfold Hart.setX; split <;> rfl
@[simp] theorem Hart.setSt_name (h : Hart) (i : Nat) (b : Bool) : (h.setSt i b).name = h.name := rfl
@[simp] theorem Hart.setSt_part (h : Hart) (i : Nat) (b : Bool) : (h.setSt i b).part = h.part := rfl
@[simp] theorem Hart.setSt_bound (h : Hart) (i : Nat) (b : Bool) : (h.setSt i b).bound = h.bound := rfl
@[simp] theorem Hart.setSt_stopping (h : Hart) (i : Nat) (b : Bool) : (h.setSt i b).stopping = h.stopping := rfl
@[simp] theorem Hart.setSt_task (h : Hart) (i : Nat) (b : Bool) : (h.setSt i b).task = h.task := rfl
@[simp] theorem Hart.setSt_level (h : Hart) (i : Nat) (b : Bool) : (h.setSt i b).level = h.level := rfl
@[simp] theorem Hart.setSt_pc (h : Hart) (i : Nat) (b : Bool) : (h.setSt i b).pc = h.pc := rfl
@[simp] theorem Hart.setSt_x (h : Hart) (i : Nat) (b : Bool) : (h.setSt i b).x = h.x := rfl
@[simp] theorem Hart.setSt_p (h : Hart) (i : Nat) (b : Bool) : (h.setSt i b).p = h.p := rfl
@[simp] theorem Hart.setSt_v (h : Hart) (i : Nat) (b : Bool) : (h.setSt i b).v = h.v := rfl
@[simp] theorem Hart.setSt_vl (h : Hart) (i : Nat) (b : Bool) : (h.setSt i b).vl = h.vl := rfl
@[simp] theorem Hart.setSt_vstart (h : Hart) (i : Nat) (b : Bool) : (h.setSt i b).vstart = h.vstart := rfl
@[simp] theorem Hart.setSt_classmap (h : Hart) (i : Nat) (b : Bool) : (h.setSt i b).classmap = h.classmap := rfl
@[simp] theorem Hart.setSt_seed (h : Hart) (i : Nat) (b : Bool) : (h.setSt i b).seed = h.seed := rfl
@[simp] theorem Hart.setSt_stripbase (h : Hart) (i : Nat) (b : Bool) : (h.setSt i b).stripbase = h.stripbase := rfl
@[simp] theorem Hart.setSt_rmode (h : Hart) (i : Nat) (b : Bool) : (h.setSt i b).rmode = h.rmode := rfl
@[simp] theorem Hart.setSt_pfxstate (h : Hart) (i : Nat) (b : Bool) : (h.setSt i b).pfxstate = h.pfxstate := rfl
@[simp] theorem Hart.setSt_cause (h : Hart) (i : Nat) (b : Bool) : (h.setSt i b).cause = h.cause := rfl
@[simp] theorem Hart.setSt_loaded (h : Hart) (i : Nat) (b : Bool) : (h.setSt i b).loaded = h.loaded := rfl
@[simp] theorem Hart.setSt_unitsDone (h : Hart) (i : Nat) (b : Bool) : (h.setSt i b).unitsDone = h.unitsDone := rfl
@[simp] theorem Hart.setSt_began (h : Hart) (i : Nat) (b : Bool) : (h.setSt i b).began = h.began := rfl
@[simp] theorem Hart.setSt_vqueue (h : Hart) (i : Nat) (b : Bool) : (h.setSt i b).vqueue = h.vqueue := rfl
@[simp] theorem Hart.setSt_late (h : Hart) (i : Nat) (b : Bool) : (h.setSt i b).late = h.late := rfl
@[simp] theorem Hart.setSt_checked (h : Hart) (i : Nat) (b : Bool) : (h.setSt i b).checked = h.checked := rfl
@[simp] theorem Hart.setSt_retired (h : Hart) (i : Nat) (b : Bool) : (h.setSt i b).retired = h.retired := rfl
@[simp] theorem Hart.setSt_epc (h : Hart) (i : Nat) (b : Bool) : (h.setSt i b).epc = h.epc := rfl
@[simp] theorem Hart.setSt_tval (h : Hart) (i : Nat) (b : Bool) : (h.setSt i b).tval = h.tval := rfl
@[simp] theorem Hart.setSt_tvec (h : Hart) (i : Nat) (b : Bool) : (h.setSt i b).tvec = h.tvec := rfl
@[simp] theorem Hart.setSt_stripfault (h : Hart) (i : Nat) (b : Bool) : (h.setSt i b).stripfault = h.stripfault := rfl
@[simp] theorem Hart.setSt_tkexp (h : Hart) (i : Nat) (b : Bool) : (h.setSt i b).tkexp = h.tkexp := rfl
@[simp] theorem Hart.setSt_clwin (h : Hart) (i : Nat) (b : Bool) : (h.setSt i b).clwin = h.clwin := rfl
@[simp] theorem Hart.setSt_clstat (h : Hart) (i : Nat) (b : Bool) : (h.setSt i b).clstat = h.clstat := rfl
@[simp] theorem Hart.setSt_lent (h : Hart) (i : Nat) (b : Bool) : (h.setSt i b).lent = h.lent := rfl
@[simp] theorem Hart.setSt_loopT (h : Hart) (i : Nat) (b : Bool) : (h.setSt i b).loopT = h.loopT := rfl
@[simp] theorem Hart.setSt_loopK (h : Hart) (i : Nat) (b : Bool) : (h.setSt i b).loopK = h.loopK := rfl
@[simp] theorem Hart.setSt_strip (h : Hart) (i : Nat) (b : Bool) : (h.setSt i b).strip = h.strip := rfl
@[simp] theorem Hart.setSt_mapbase (h : Hart) (i : Nat) (b : Bool) : (h.setSt i b).mapbase = h.mapbase := rfl
@[simp] theorem Hart.setSt_ctxs (h : Hart) (i : Nat) (b : Bool) : (h.setSt i b).ctxs = h.ctxs := rfl
@[simp] theorem Hart.setSt_ur (h : Hart) (i : Nat) (b : Bool) : (h.setSt i b).ur = h.ur := rfl
@[simp] theorem Hart.setSt_transfers (h : Hart) (i : Nat) (b : Bool) : (h.setSt i b).transfers = h.transfers := rfl
@[simp] theorem Hart.setSt_attached (h : Hart) (i : Nat) (b : Bool) : (h.setSt i b).attached = h.attached := rfl
@[simp] theorem Hart.setSt_copies (h : Hart) (i : Nat) (b : Bool) : (h.setSt i b).copies = h.copies := rfl
@[simp] theorem Hart.setSt_tokens (h : Hart) (i : Nat) (b : Bool) : (h.setSt i b).tokens = h.tokens := rfl
@[simp] theorem Hart.setSt_tokPtr (h : Hart) (i : Nat) (b : Bool) : (h.setSt i b).tokPtr = h.tokPtr := rfl
@[simp] theorem Hart.setSt_tokOrder (h : Hart) (i : Nat) (b : Bool) : (h.setSt i b).tokOrder = h.tokOrder := rfl
@[simp] theorem Hart.setSt_await (h : Hart) (i : Nat) (b : Bool) : (h.setSt i b).await = h.await := rfl
@[simp] theorem Hart.setSt_phWoke (h : Hart) (i : Nat) (b : Bool) : (h.setSt i b).phWoke = h.phWoke := rfl
@[simp] theorem Hart.setSt_expiries (h : Hart) (i : Nat) (b : Bool) : (h.setSt i b).expiries = h.expiries := rfl
@[simp] theorem Hart.setSt_step (h : Hart) (i : Nat) (b : Bool) : (h.setSt i b).step = h.step := rfl
@[simp] theorem Hart.setSt_dlnPre (h : Hart) (i : Nat) (b : Bool) : (h.setSt i b).dlnPre = h.dlnPre := rfl
@[simp] theorem Hart.setSt_dlnRisk (h : Hart) (i : Nat) (b : Bool) : (h.setSt i b).dlnRisk = h.dlnRisk := rfl
@[simp] theorem Hart.setSt_dlnMiss (h : Hart) (i : Nat) (b : Bool) : (h.setSt i b).dlnMiss = h.dlnMiss := rfl
@[simp] theorem Hart.setSt_dlnDone (h : Hart) (i : Nat) (b : Bool) : (h.setSt i b).dlnDone = h.dlnDone := rfl
@[simp] theorem Hart.setSt_dlnSlack (h : Hart) (i : Nat) (b : Bool) : (h.setSt i b).dlnSlack = h.dlnSlack := rfl
@[simp] theorem Hart.orFlags_name (h : Hart) (f : BitVec 5) : (h.orFlags f).name = h.name := rfl
@[simp] theorem Hart.orFlags_part (h : Hart) (f : BitVec 5) : (h.orFlags f).part = h.part := rfl
@[simp] theorem Hart.orFlags_bound (h : Hart) (f : BitVec 5) : (h.orFlags f).bound = h.bound := rfl
@[simp] theorem Hart.orFlags_stopping (h : Hart) (f : BitVec 5) : (h.orFlags f).stopping = h.stopping := rfl
@[simp] theorem Hart.orFlags_task (h : Hart) (f : BitVec 5) : (h.orFlags f).task = h.task := rfl
@[simp] theorem Hart.orFlags_level (h : Hart) (f : BitVec 5) : (h.orFlags f).level = h.level := rfl
@[simp] theorem Hart.orFlags_pc (h : Hart) (f : BitVec 5) : (h.orFlags f).pc = h.pc := rfl
@[simp] theorem Hart.orFlags_x (h : Hart) (f : BitVec 5) : (h.orFlags f).x = h.x := rfl
@[simp] theorem Hart.orFlags_p (h : Hart) (f : BitVec 5) : (h.orFlags f).p = h.p := rfl
@[simp] theorem Hart.orFlags_v (h : Hart) (f : BitVec 5) : (h.orFlags f).v = h.v := rfl
@[simp] theorem Hart.orFlags_vl (h : Hart) (f : BitVec 5) : (h.orFlags f).vl = h.vl := rfl
@[simp] theorem Hart.orFlags_vstart (h : Hart) (f : BitVec 5) : (h.orFlags f).vstart = h.vstart := rfl
@[simp] theorem Hart.orFlags_classmap (h : Hart) (f : BitVec 5) : (h.orFlags f).classmap = h.classmap := rfl
@[simp] theorem Hart.orFlags_seed (h : Hart) (f : BitVec 5) : (h.orFlags f).seed = h.seed := rfl
@[simp] theorem Hart.orFlags_stripbase (h : Hart) (f : BitVec 5) : (h.orFlags f).stripbase = h.stripbase := rfl
@[simp] theorem Hart.orFlags_rmode (h : Hart) (f : BitVec 5) : (h.orFlags f).rmode = h.rmode := rfl
@[simp] theorem Hart.orFlags_pfxstate (h : Hart) (f : BitVec 5) : (h.orFlags f).pfxstate = h.pfxstate := rfl
@[simp] theorem Hart.orFlags_cause (h : Hart) (f : BitVec 5) : (h.orFlags f).cause = h.cause := rfl
@[simp] theorem Hart.orFlags_loaded (h : Hart) (f : BitVec 5) : (h.orFlags f).loaded = h.loaded := rfl
@[simp] theorem Hart.orFlags_unitsDone (h : Hart) (f : BitVec 5) : (h.orFlags f).unitsDone = h.unitsDone := rfl
@[simp] theorem Hart.orFlags_began (h : Hart) (f : BitVec 5) : (h.orFlags f).began = h.began := rfl
@[simp] theorem Hart.orFlags_vqueue (h : Hart) (f : BitVec 5) : (h.orFlags f).vqueue = h.vqueue := rfl
@[simp] theorem Hart.orFlags_late (h : Hart) (f : BitVec 5) : (h.orFlags f).late = h.late := rfl
@[simp] theorem Hart.orFlags_checked (h : Hart) (f : BitVec 5) : (h.orFlags f).checked = h.checked := rfl
@[simp] theorem Hart.orFlags_retired (h : Hart) (f : BitVec 5) : (h.orFlags f).retired = h.retired := rfl
@[simp] theorem Hart.orFlags_epc (h : Hart) (f : BitVec 5) : (h.orFlags f).epc = h.epc := rfl
@[simp] theorem Hart.orFlags_tval (h : Hart) (f : BitVec 5) : (h.orFlags f).tval = h.tval := rfl
@[simp] theorem Hart.orFlags_tvec (h : Hart) (f : BitVec 5) : (h.orFlags f).tvec = h.tvec := rfl
@[simp] theorem Hart.orFlags_stripfault (h : Hart) (f : BitVec 5) : (h.orFlags f).stripfault = h.stripfault := rfl
@[simp] theorem Hart.orFlags_tkexp (h : Hart) (f : BitVec 5) : (h.orFlags f).tkexp = h.tkexp := rfl
@[simp] theorem Hart.orFlags_clwin (h : Hart) (f : BitVec 5) : (h.orFlags f).clwin = h.clwin := rfl
@[simp] theorem Hart.orFlags_clstat (h : Hart) (f : BitVec 5) : (h.orFlags f).clstat = h.clstat := rfl
@[simp] theorem Hart.orFlags_lent (h : Hart) (f : BitVec 5) : (h.orFlags f).lent = h.lent := rfl
@[simp] theorem Hart.orFlags_loopT (h : Hart) (f : BitVec 5) : (h.orFlags f).loopT = h.loopT := rfl
@[simp] theorem Hart.orFlags_loopK (h : Hart) (f : BitVec 5) : (h.orFlags f).loopK = h.loopK := rfl
@[simp] theorem Hart.orFlags_strip (h : Hart) (f : BitVec 5) : (h.orFlags f).strip = h.strip := rfl
@[simp] theorem Hart.orFlags_mapbase (h : Hart) (f : BitVec 5) : (h.orFlags f).mapbase = h.mapbase := rfl
@[simp] theorem Hart.orFlags_ctxs (h : Hart) (f : BitVec 5) : (h.orFlags f).ctxs = h.ctxs := rfl
@[simp] theorem Hart.orFlags_ur (h : Hart) (f : BitVec 5) : (h.orFlags f).ur = h.ur := rfl
@[simp] theorem Hart.orFlags_transfers (h : Hart) (f : BitVec 5) : (h.orFlags f).transfers = h.transfers := rfl
@[simp] theorem Hart.orFlags_attached (h : Hart) (f : BitVec 5) : (h.orFlags f).attached = h.attached := rfl
@[simp] theorem Hart.orFlags_copies (h : Hart) (f : BitVec 5) : (h.orFlags f).copies = h.copies := rfl
@[simp] theorem Hart.orFlags_tokens (h : Hart) (f : BitVec 5) : (h.orFlags f).tokens = h.tokens := rfl
@[simp] theorem Hart.orFlags_tokPtr (h : Hart) (f : BitVec 5) : (h.orFlags f).tokPtr = h.tokPtr := rfl
@[simp] theorem Hart.orFlags_tokOrder (h : Hart) (f : BitVec 5) : (h.orFlags f).tokOrder = h.tokOrder := rfl
@[simp] theorem Hart.orFlags_await (h : Hart) (f : BitVec 5) : (h.orFlags f).await = h.await := rfl
@[simp] theorem Hart.orFlags_phWoke (h : Hart) (f : BitVec 5) : (h.orFlags f).phWoke = h.phWoke := rfl
@[simp] theorem Hart.orFlags_expiries (h : Hart) (f : BitVec 5) : (h.orFlags f).expiries = h.expiries := rfl
@[simp] theorem Hart.orFlags_step (h : Hart) (f : BitVec 5) : (h.orFlags f).step = h.step := rfl
@[simp] theorem Hart.orFlags_dlnPre (h : Hart) (f : BitVec 5) : (h.orFlags f).dlnPre = h.dlnPre := rfl
@[simp] theorem Hart.orFlags_dlnRisk (h : Hart) (f : BitVec 5) : (h.orFlags f).dlnRisk = h.dlnRisk := rfl
@[simp] theorem Hart.orFlags_dlnMiss (h : Hart) (f : BitVec 5) : (h.orFlags f).dlnMiss = h.dlnMiss := rfl
@[simp] theorem Hart.orFlags_dlnDone (h : Hart) (f : BitVec 5) : (h.orFlags f).dlnDone = h.dlnDone := rfl
@[simp] theorem Hart.orFlags_dlnSlack (h : Hart) (f : BitVec 5) : (h.orFlags f).dlnSlack = h.dlnSlack := rfl
@[simp] theorem Hart.setTile_name (h : Hart) (t : TReg) (x : Tile) : (h.setTile t x).name = h.name := rfl
@[simp] theorem Hart.setTile_part (h : Hart) (t : TReg) (x : Tile) : (h.setTile t x).part = h.part := rfl
@[simp] theorem Hart.setTile_bound (h : Hart) (t : TReg) (x : Tile) : (h.setTile t x).bound = h.bound := rfl
@[simp] theorem Hart.setTile_stopping (h : Hart) (t : TReg) (x : Tile) : (h.setTile t x).stopping = h.stopping := rfl
@[simp] theorem Hart.setTile_task (h : Hart) (t : TReg) (x : Tile) : (h.setTile t x).task = h.task := rfl
@[simp] theorem Hart.setTile_level (h : Hart) (t : TReg) (x : Tile) : (h.setTile t x).level = h.level := rfl
@[simp] theorem Hart.setTile_pc (h : Hart) (t : TReg) (x : Tile) : (h.setTile t x).pc = h.pc := rfl
@[simp] theorem Hart.setTile_x (h : Hart) (t : TReg) (x : Tile) : (h.setTile t x).x = h.x := rfl
@[simp] theorem Hart.setTile_p (h : Hart) (t : TReg) (x : Tile) : (h.setTile t x).p = h.p := rfl
@[simp] theorem Hart.setTile_v (h : Hart) (t : TReg) (x : Tile) : (h.setTile t x).v = h.v := rfl
@[simp] theorem Hart.setTile_vl (h : Hart) (t : TReg) (x : Tile) : (h.setTile t x).vl = h.vl := rfl
@[simp] theorem Hart.setTile_vstart (h : Hart) (t : TReg) (x : Tile) : (h.setTile t x).vstart = h.vstart := rfl
@[simp] theorem Hart.setTile_classmap (h : Hart) (t : TReg) (x : Tile) : (h.setTile t x).classmap = h.classmap := rfl
@[simp] theorem Hart.setTile_seed (h : Hart) (t : TReg) (x : Tile) : (h.setTile t x).seed = h.seed := rfl
@[simp] theorem Hart.setTile_stripbase (h : Hart) (t : TReg) (x : Tile) : (h.setTile t x).stripbase = h.stripbase := rfl
@[simp] theorem Hart.setTile_rmode (h : Hart) (t : TReg) (x : Tile) : (h.setTile t x).rmode = h.rmode := rfl
@[simp] theorem Hart.setTile_status (h : Hart) (t : TReg) (x : Tile) : (h.setTile t x).status = h.status := rfl
@[simp] theorem Hart.setTile_pfxstate (h : Hart) (t : TReg) (x : Tile) : (h.setTile t x).pfxstate = h.pfxstate := rfl
@[simp] theorem Hart.setTile_cause (h : Hart) (t : TReg) (x : Tile) : (h.setTile t x).cause = h.cause := rfl
@[simp] theorem Hart.setTile_loaded (h : Hart) (t : TReg) (x : Tile) : (h.setTile t x).loaded = h.loaded := rfl
@[simp] theorem Hart.setTile_unitsDone (h : Hart) (t : TReg) (x : Tile) : (h.setTile t x).unitsDone = h.unitsDone := rfl
@[simp] theorem Hart.setTile_began (h : Hart) (t : TReg) (x : Tile) : (h.setTile t x).began = h.began := rfl
@[simp] theorem Hart.setTile_vqueue (h : Hart) (t : TReg) (x : Tile) : (h.setTile t x).vqueue = h.vqueue := rfl
@[simp] theorem Hart.setTile_late (h : Hart) (t : TReg) (x : Tile) : (h.setTile t x).late = h.late := rfl
@[simp] theorem Hart.setTile_checked (h : Hart) (t : TReg) (x : Tile) : (h.setTile t x).checked = h.checked := rfl
@[simp] theorem Hart.setTile_retired (h : Hart) (t : TReg) (x : Tile) : (h.setTile t x).retired = h.retired := rfl
@[simp] theorem Hart.setTile_epc (h : Hart) (t : TReg) (x : Tile) : (h.setTile t x).epc = h.epc := rfl
@[simp] theorem Hart.setTile_tval (h : Hart) (t : TReg) (x : Tile) : (h.setTile t x).tval = h.tval := rfl
@[simp] theorem Hart.setTile_tvec (h : Hart) (t : TReg) (x : Tile) : (h.setTile t x).tvec = h.tvec := rfl
@[simp] theorem Hart.setTile_stripfault (h : Hart) (t : TReg) (x : Tile) : (h.setTile t x).stripfault = h.stripfault := rfl
@[simp] theorem Hart.setTile_tkexp (h : Hart) (t : TReg) (x : Tile) : (h.setTile t x).tkexp = h.tkexp := rfl
@[simp] theorem Hart.setTile_clwin (h : Hart) (t : TReg) (x : Tile) : (h.setTile t x).clwin = h.clwin := rfl
@[simp] theorem Hart.setTile_clstat (h : Hart) (t : TReg) (x : Tile) : (h.setTile t x).clstat = h.clstat := rfl
@[simp] theorem Hart.setTile_lent (h : Hart) (t : TReg) (x : Tile) : (h.setTile t x).lent = h.lent := rfl
@[simp] theorem Hart.setTile_loopT (h : Hart) (t : TReg) (x : Tile) : (h.setTile t x).loopT = h.loopT := rfl
@[simp] theorem Hart.setTile_loopK (h : Hart) (t : TReg) (x : Tile) : (h.setTile t x).loopK = h.loopK := rfl
@[simp] theorem Hart.setTile_strip (h : Hart) (t : TReg) (x : Tile) : (h.setTile t x).strip = h.strip := rfl
@[simp] theorem Hart.setTile_mapbase (h : Hart) (t : TReg) (x : Tile) : (h.setTile t x).mapbase = h.mapbase := rfl
@[simp] theorem Hart.setTile_ur (h : Hart) (t : TReg) (x : Tile) : (h.setTile t x).ur = h.ur := rfl
@[simp] theorem Hart.setTile_transfers (h : Hart) (t : TReg) (x : Tile) : (h.setTile t x).transfers = h.transfers := rfl
@[simp] theorem Hart.setTile_attached (h : Hart) (t : TReg) (x : Tile) : (h.setTile t x).attached = h.attached := rfl
@[simp] theorem Hart.setTile_copies (h : Hart) (t : TReg) (x : Tile) : (h.setTile t x).copies = h.copies := rfl
@[simp] theorem Hart.setTile_tokens (h : Hart) (t : TReg) (x : Tile) : (h.setTile t x).tokens = h.tokens := rfl
@[simp] theorem Hart.setTile_tokPtr (h : Hart) (t : TReg) (x : Tile) : (h.setTile t x).tokPtr = h.tokPtr := rfl
@[simp] theorem Hart.setTile_tokOrder (h : Hart) (t : TReg) (x : Tile) : (h.setTile t x).tokOrder = h.tokOrder := rfl
@[simp] theorem Hart.setTile_await (h : Hart) (t : TReg) (x : Tile) : (h.setTile t x).await = h.await := rfl
@[simp] theorem Hart.setTile_phWoke (h : Hart) (t : TReg) (x : Tile) : (h.setTile t x).phWoke = h.phWoke := rfl
@[simp] theorem Hart.setTile_expiries (h : Hart) (t : TReg) (x : Tile) : (h.setTile t x).expiries = h.expiries := rfl
@[simp] theorem Hart.setTile_step (h : Hart) (t : TReg) (x : Tile) : (h.setTile t x).step = h.step := rfl
@[simp] theorem Hart.setTile_dlnPre (h : Hart) (t : TReg) (x : Tile) : (h.setTile t x).dlnPre = h.dlnPre := rfl
@[simp] theorem Hart.setTile_dlnRisk (h : Hart) (t : TReg) (x : Tile) : (h.setTile t x).dlnRisk = h.dlnRisk := rfl
@[simp] theorem Hart.setTile_dlnMiss (h : Hart) (t : TReg) (x : Tile) : (h.setTile t x).dlnMiss = h.dlnMiss := rfl
@[simp] theorem Hart.setTile_dlnDone (h : Hart) (t : TReg) (x : Tile) : (h.setTile t x).dlnDone = h.dlnDone := rfl
@[simp] theorem Hart.setTile_dlnSlack (h : Hart) (t : TReg) (x : Tile) : (h.setTile t x).dlnSlack = h.dlnSlack := rfl

end Sys2Proof.Machine
end

