-- ==== Sys2Proof/Laws/Ops.lean ====
section
/-! SUPPORT. One law per shared operation: where an instruction goes on, what a register write holds, what an access reads and
writes, and what an exception does. -/

namespace Sys2Proof.Machine

/-! ### Registers -/

/-- A register read after a write. -/
theorem Hart.getX_setX (h : Hart) (d r : XReg) (w : Word) :
    (h.setX d w).getX r = if r = 0 then 0 else if r = d then w else h.getX r := by
  unfold Hart.getX Hart.setX
  by_cases hr : r = 0
  · simp [hr]
  · by_cases hd : d = 0
    · subst hd; simp [hr]
    · by_cases e : r = d
      · subst e; simp [hr, Vector.get_eq_getElem]
      · have : ¬d.val = r.val := fun q => e (Fin.ext q.symm)
        simp [hr, hd, e, Vector.get_eq_getElem, this]

theorem State.setX_eq (s : State) (d : XReg) (w : Word) : s.setX d w = s.holds d w := by
  unfold State.setX State.holds State.onHart Hart.setX
  by_cases h : d = 0 <;> simp [h]

theorem State.setXL_eq (s : State) (d : XReg) (w : Word) : s.setXL d w = s.holds2 d w := by
  unfold State.setXL State.holds2
  simp only [State.setX_eq]

@[simp] theorem State.holds_mayFall (s : State) (d : XReg) (w : Word) : (s.holds d w).mayFall ↔ s.mayFall := Iff.rfl

@[simp] theorem State.holds2_mayFall (s : State) (d : XReg) (w : Word) : (s.holds2 d w).mayFall ↔ s.mayFall := by
  unfold State.holds2; split <;> rfl

/-! ### Going on -/

theorem State.continueAt_eq (s : State) (t : Word) (st : List Loop) (h : s.hart.task.mayFetch t.toNat = true) :
    s.continueAt t st = s.goes t st := by
  unfold State.continueAt State.goes
  rw [if_pos h]
  unfold State.onHart Hart.setLoops
  split <;> simp_all

/-- An instruction that may fall through does. -/
theorem State.retire_eq (s : State) (h : s.mayFall) : s.retire = s.falls := State.continueAt_eq _ _ _ h

theorem State.jump_eq (s : State) (t : Word) (h : s.hart.task.mayFetch t.toNat = true) : s.jump t = s.jumps t :=
  State.continueAt_eq _ _ _ h

theorem State.vretire_eq (s : State) (h : s.mayFall) : s.vretire = s.vfalls :=
  State.retire_eq ({ s with hart := { s.hart with vstart := 0 } }) h

theorem State.scalar_eq (s : State) (d : XReg) (w : Word) (h : s.mayFall) :
    s.scalar d w = .next (s.holds d w).falls := by
  unfold State.scalar
  rw [State.setX_eq, State.retire_eq _ (by simpa using h)]

/-! ### Parts of a meaning -/

@[simp] theorem finish_ok (t : State) : finish (.ok t) = .next t := rfl
@[simp] theorem finish_error (t : State) : finish (.error t) = .next t := rfl

theorem stopIf_false (c : Bool) (t : State) (h : c = false) : stopIf c t = .ok () := by simp [stopIf, h]
theorem stopIf_true (c : Bool) (t : State) (h : c = true) : stopIf c t = .error t := by simp [stopIf, h]

theorem State.noStrip_ok (s : State) (h : s.outside) : s.noStrip = .ok () := stopIf_false _ _ h
theorem State.computeOnly_ok (s : State) (i : Instr) (h : s.compute) : s.computeOnly i = .ok () := stopIf_false _ _ h

/-- Every meaning made of parts answers a next state. -/
theorem finish_next (r : Part State) : ∃ t, finish r = .next t := by
  cases r <;> exact ⟨_, rfl⟩

/-! ### Accesses -/

theorem firstBad_none (ok : Nat → Bool) (va n : Nat) (h : ∀ k < n, ok (va + k) = true) : firstBad ok va n = none := by
  simp only [firstBad, List.find?_eq_none, List.mem_map, List.mem_range]
  rintro a ⟨k, hk, rfl⟩
  simp [h k hk]

theorem State.runs_ok (s : State) (va n : Nat) (h : s.translates va n) :
    s.runs s.hart.task.asid va n = .ok (s.keys va n) := by
  unfold State.runs State.keys
  unfold State.translates at h
  revert h
  induction pagesOf va n with
  | nil => intro _; rfl
  | cons p r ih =>
    intro h
    have hp := h p (List.mem_cons_self ..)
    have hr := ih fun q hq => h q (List.mem_cons_of_mem _ hq)
    obtain ⟨k, hk⟩ := Option.isSome_iff_exists.1 hp
    rw [List.mapM_cons, hr]
    simp only [hk, List.map_cons, Option.getD_some]
    rfl

theorem State.checkRead_ok (s : State) (va n : Nat) (h : ∀ k < n, s.hart.task.mayRead (va + k) = true) :
    s.checkRead va n = .ok () := by simp [State.checkRead, firstBad_none _ _ _ h]

theorem State.checkWrite_ok (s : State) (va n : Nat) (h : ∀ k < n, s.hart.task.mayWrite (va + k) = true) :
    s.checkWrite va n = .ok () := by simp [State.checkWrite, firstBad_none _ _ _ h]

/-- A read of bytes that translate. -/
theorem State.readAt_ok (s : State) (va n : Nat) (h : s.translates va n) :
    s.readAt s.hart.task.asid va n = .ok (s.reads va n) := by
  simp [State.readAt, State.runs_ok s va n h, State.reads, Except.map]

theorem State.readMem_ok (s : State) (va n : Nat) (h : s.translates va n) : s.readMem va n = .ok (s.sees va n) := by
  simp [State.readMem, State.readAt_ok s va n h, State.sees, Except.map, State.orXlate]

/-- A load that the lease admits. -/
theorem State.load_ok (s : State) (va n : Nat) (h : s.canRead va n) :
    s.load va n = .ok (s.seesNow va n, s.counted va n) := by
  simp [State.load, State.checkRead_ok s va n h.1, State.readMem_ok s va n h.2, State.counted, State.count, State.seesNow]

/-- A write of bytes that translate. -/
theorem State.writeMem_ok (s : State) (va : Nat) (bs : List Byte) (h : s.translates va bs.length) :
    s.writeMem va bs = .ok (s.wroteMem va bs) := by
  simp [State.writeMem, State.writeAt, State.runs_ok s va _ h, State.counted, State.count, State.touch, State.ctxOf, State.wroteMem, Except.map,
    State.orXlate, State.onHart]

theorem granules_append_le (a b : List StripStore) : (granules a).length ≤ (granules (a ++ b)).length := by
  unfold granules
  rw [List.filter_append, List.flatMap_append]
  refine List.Subperm.length_le ((List.nodup_dedup _).subperm fun x hx => ?_)
  rw [List.mem_dedup] at *
  exact List.mem_append_left _ hx

/-- A store that the lease admits. -/
theorem State.putStore_ok (s : State) (va : Nat) (bs : List Byte) (c : Fin 16) (h : s.translates va bs.length)
    (hr : s.stripRoom va bs c) : s.putStore va bs c = .ok (s.wrote va bs c) := by
  unfold State.putStore State.wrote
  by_cases hs : s.hart.inStrip = true
  · have h1 := hr hs
    simp only [hs, if_true, State.buffer]
    exact if_pos h1
  · simp only [Bool.not_eq_true] at hs
    simp only [hs, Bool.false_eq_true, if_false]
    exact State.writeMem_ok s va bs h

theorem State.store_ok (s : State) (va : Nat) (bs : List Byte) (c : Fin 16) (h : s.canWrite va bs.length)
    (hr : s.stripRoom va bs c) : s.store va bs c = .ok (s.wrote va bs c) := by
  simp [State.store, State.checkWrite_ok s va _ h.1, State.putStore_ok s va bs c h.2 hr]

/-! ### Memory keeps its canonical form -/

/-- The canonical bytes of a store below `n`. -/
theorem Bytes.wf_canon (b : Bytes) (n : Nat) : Bytes.wf (b.canon n) = true ∧ ∀ c ∈ b.canon n, c.1 < n := by
  unfold Bytes.canon
  split
  · refine ⟨Bytes.wf_filter _ _ ‹_›, fun c hc => ?_⟩
    simpa using (List.mem_filter.1 hc).2
  · refine ⟨wf_cells _ _, fun c hc => ?_⟩
    simpa using (cells_keys _ _ c hc).2

/-- Bytes put in the place of others keep the canonical form. -/
theorem Bytes.wf_place (m b : Bytes) (k n : Nat) (h : Bytes.wf m = true) : Bytes.wf (m.place k n b) = true := by
  have hc := Bytes.wf_canon b n
  refine Bytes.wf_splice m _ k (k + n) h (Bytes.wf_shift _ _ hc.1 fun c _ e _ => by omega) ?_ (by omega)
  intro c h1
  obtain ⟨e, he, rfl⟩ := List.mem_map.1 h1
  have := hc.2 e he
  omega

/-- A byte of a store whose keys are shifted. -/
theorem Bytes.get_shift (b : Bytes) (k j : Nat) : (b.shift k).get j = if k ≤ j then b.get (j - k) else 0 := by
  induction b with
  | nil => simp [Bytes.shift, Bytes.get]
  | cons c r ih =>
    obtain ⟨a, x⟩ := c
    simp only [Bytes.shift, List.map_cons, Bytes.get] at ih ⊢
    rw [ih]
    by_cases h : k ≤ j
    · have : (k + a = j) = (a = j - k) := by rw [eq_iff_iff]; omega
      simp [h, this]
    · have : ¬k + a = j := by omega
      simp [h, this]

/-- A byte of the canonical bytes of a store. -/
theorem Bytes.get_canon (b : Bytes) (n j : Nat) : (b.canon n).get j = if j < n then b.get j else 0 := by
  unfold Bytes.canon
  split
  · simpa [Bytes.below] using Bytes.get_filter b (fun c => decide (c < n)) j
  · rw [get_cells, Bytes.getN_eq]
    by_cases h : j < n
    · simp [h]
    · simp [h]

/-- A byte read after the `n` bytes from `k` up took the place of others. -/
theorem Bytes.get_place (m b : Bytes) (k n j : Nat) :
    (m.place k n b).get j = if k ≤ j ∧ j < k + n then b.get (j - k) else m.get j := by
  have hs : ∀ q ∈ ((b.canon n).shift k).map (·.1), k ≤ q ∧ q < k + n := by
    intro q hq
    simp only [Bytes.shift, List.map_map, List.mem_map, Function.comp_apply] at hq
    obtain ⟨c, hc, rfl⟩ := hq
    have := (Bytes.wf_canon b n).2 c hc
    omega
  have f1 := Bytes.get_filter m (fun c => decide (c < k)) j
  have f2 := Bytes.get_filter m (fun c => decide (k + n ≤ c)) j
  have hl : j ∈ (m.filter fun c => decide (c.1 < k)).map (·.1) → j < k := by
    intro q; simp only [List.mem_map, List.mem_filter, decide_eq_true_eq] at q; obtain ⟨c, hc, rfl⟩ := q; exact hc.2
  unfold Bytes.place
  rw [Bytes.get_append, Bytes.get_append, f1, f2, Bytes.get_shift, Bytes.get_canon]
  have nl := Bytes.get_not_mem (m.filter fun c => decide (c.1 < k)) j
  have nm := Bytes.get_not_mem ((b.canon n).shift k) j
  rw [f1] at nl
  rw [Bytes.get_shift, Bytes.get_canon] at nm
  by_cases a : j ∈ (m.filter fun c => decide (c.1 < k)).map (·.1) <;>
    by_cases c : j ∈ ((b.canon n).shift k).map (·.1)
  · have := hl a; have := (hs j c).1; omega
  · have := hl a
    have h1 : ¬(k ≤ j ∧ j < k + n) := by omega
    simp only [List.map_append, List.mem_append, a, true_or, if_true, this, decide_true, h1, if_false]
  · have h1 := hs j c
    have h2 : j - k < n := by omega
    simp only [List.map_append, List.mem_append, a, c, or_true, if_true, if_false, h1, and_self, h2]
  · have a' := nl a
    have c' := nm c
    simp only [List.map_append, List.mem_append, a, c, or_self, if_false]
    by_cases h1 : k ≤ j ∧ j < k + n
    · have h2 : j - k < n := by omega
      have h3 : ¬k + n ≤ j := by omega
      simp only [h1.1, if_true, h2] at c'
      simp [h1, h3, c']
    · by_cases h2 : j < k
      · have h3 : ¬k + n ≤ j := by omega
        simp only [h2, decide_true, if_true] at a'
        simp [h1, h3, a']
      · have h3 : k + n ≤ j := by omega
        simp [h1, h3]

/-- A byte of a slice. -/
theorem Bytes.get_slice (m : Bytes) (k n j : Nat) : (m.slice k n).get j = if j < n then m.get (k + j) else 0 := by
  unfold Bytes.slice
  induction m with
  | nil => simp [Bytes.get]
  | cons c r ih =>
    obtain ⟨a, x⟩ := c
    by_cases h : k ≤ a ∧ a < k + n
    · simp only [List.filter_cons, h, and_self, decide_true, if_true, List.map_cons, Bytes.get, ih]
      by_cases e : a - k = j
      · have h1 : j < n := by omega
        have h2 : a = k + j := by omega
        simp [h1, h2]
      · have h2 : ¬a = k + j := by omega
        simp [e, h2]
    · simp only [List.filter_cons, h, decide_false, Bool.false_eq_true, if_false, ih, Bytes.get]
      by_cases h1 : j < n
      · have h2 : ¬a = k + j := by omega
        simp [h1, h2]
      · simp [h1]

/-- A slice of a canonical store is canonical, under keys below its length. -/
theorem Bytes.wf_slice (m : Bytes) (k n : Nat) (h : Bytes.wf m = true) :
    Bytes.wf (m.slice k n) = true ∧ ∀ c ∈ m.slice k n, c.1 < n := by
  have hm : ∀ c ∈ m.filter fun c => decide (k ≤ c.1 ∧ c.1 < k + n), k ≤ c.1 ∧ c.1 < k + n := fun c hc => by
    simpa using (List.mem_filter.1 hc).2
  refine ⟨Bytes.wf_shift _ (fun a => a - k) (Bytes.wf_filter _ _ h) fun c hc e he _ => ?_, fun c hc => ?_⟩
  · have := hm c hc
    have := hm e he
    omega
  · obtain ⟨e, he, rfl⟩ := List.mem_map.1 hc
    have := hm e he
    omega

/-- Copied bytes keep the canonical form. -/
theorem Bytes.wf_copy (m : Bytes) (a b n : Nat) (h : Bytes.wf m = true) : Bytes.wf (m.copy a b n) = true := by
  have hm : ∀ c ∈ m.filter fun c => decide (a ≤ c.1 ∧ c.1 < a + n), a ≤ c.1 ∧ c.1 < a + n := fun c hc => by
    simpa using (List.mem_filter.1 hc).2
  refine Bytes.wf_splice m _ b (b + n) h (Bytes.wf_shift _ (fun x => x - a + b) (Bytes.wf_filter _ _ h) fun c hc e he _ => ?_) ?_
    (by omega)
  · have := hm c hc
    have := hm e he
    omega
  · intro c hc
    obtain ⟨e, he, rfl⟩ := List.mem_map.1 hc
    have := hm e he
    omega

/-! ### Exceptions -/

/-- A register write is a frame around every byte of memory; so is going on. -/
@[simp] theorem State.falls_mem (s : State) : s.falls.mem = s.mem := rfl
@[simp] theorem State.vfalls_mem (s : State) : s.vfalls.mem = s.mem := rfl
@[simp] theorem State.jumps_mem (s : State) (t : Word) : (s.jumps t).mem = s.mem := rfl

@[simp] theorem State.deletePhasers_mem (s : State) (l : Nat) : (s.deletePhasers l).mem = s.mem := rfl

@[simp] theorem State.launchEnds_mem (s : State) (l : Nat) : (s.launchEnds l).mem = s.mem := by
  unfold State.launchEnds; split <;> (try split) <;> rfl

@[simp] theorem State.stopOver_mem (s : State) (t : Nat) : (s.stopOver t).mem = s.mem := by
  unfold State.stopOver; split <;> (try split) <;> (try split) <;> rfl

/-- Late stores are all that the end of a task writes to memory (R86). -/
@[simp] theorem State.leave_mem (s : State) (b : Bool) : (s.leave b).mem = s.flushLate.mem := by
  unfold State.leave; simp only [State.stopOver_mem, State.launchEnds_mem]; rfl

/-- A hart with no late store has none to perform. -/
theorem State.flushLate_nil (s : State) (h : s.hart.late = []) : s.flushLate = s := by
  unfold State.flushLate State.onHart
  simp only [h, List.foldl_nil]
  rw [← h]

theorem State.terminate_mem (s : State) (c : Nat) (v i b : Word) (h : s.hart.late = []) :
    (s.terminate c v i b).mem = s.mem := by
  unfold State.terminate
  rw [State.leave_mem, State.flushLate_nil]
  · rfl
  · exact h

theorem State.raiseWith_mem (s : State) (c : Nat) (v : Word) (p : BitVec 26) (q : Bool) (h : s.hart.late = []) :
    (s.raiseWith c v p q).mem = s.mem := by
  unfold State.raiseWith; split
  · exact State.terminate_mem _ _ _ _ _ h
  · rfl

theorem State.raise_mem (s : State) (c : Nat) (v : Word) (h : s.hart.late = []) : (s.raise c v).mem = s.mem :=
  State.raiseWith_mem _ _ _ _ _ h

theorem State.continueAt_mem (s : State) (t : Word) (st : List Loop) (h : s.hart.late = []) :
    (s.continueAt t st).mem = s.mem := by
  unfold State.continueAt; split
  · rfl
  · exact State.terminate_mem _ _ _ _ _ h

theorem State.retire_mem (s : State) (h : s.hart.late = []) : s.retire.mem = s.mem := State.continueAt_mem _ _ _ h
theorem State.jump_mem (s : State) (t : Word) (h : s.hart.late = []) : (s.jump t).mem = s.mem := State.continueAt_mem _ _ _ h

end Sys2Proof.Machine
end

