-- ==== Sys2Proof/Tests/Slice0.lean ====
section
/-! SUPPORT. The model's own tests: ill-formed terms refused, words of the spec's encodings decoded, single steps with the
spec's results, and for every statement with hypotheses a state and operands that meet them. -/

namespace Sys2Proof.Tests

-- one theorem at a time: each one that is elaborated apart takes a stack of its own
set_option Elab.async false

open Sys2Proof.Machine

/-! ### Well-formedness: a term for each check, which the check refuses -/

theorem test_wf_refuses_canonical_nop : (Instr.addi 0 0 0).wf = false := by decide

theorem test_wf_refuses_fields_past_bit_63 : (Instr.ext 1 2 false 31 33).wf = false ∧ (Instr.ins 1 2 63 1).wf = false := by
  decide

theorem test_wf_refuses_empty_loop_bodies : (Instr.loop 1 0).wf = false ∧ (Instr.loopi 3 0).wf = false := by decide

theorem test_wf_refuses_unlisted_state_registers :
    (Instr.csrr 1 0x002).wf = false ∧ (Instr.csrw 1 2 0x014).wf = false ∧ (Instr.csrs 1 2 0x037).wf = false
      ∧ (Instr.csrc 1 2 0x120).wf = false := by decide

theorem test_wf_refuses_integer_operations_on_other_types :
    (Instr.vadd 1 2 3 0 .f32 false).wf = false ∧ (Instr.vcmp .lt 1 2 3 0 .lns6 false).wf = false
      ∧ (Instr.vsel 1 2 3 0 .s32 true).wf = false ∧ (Instr.vred 1 2 .add 0 .n32 true).wf = false := by decide

theorem test_wf_refuses_float_operations_on_other_types :
    (Instr.vfadd 1 2 3 0 .s32).wf = false ∧ (Instr.vfcmp .lt 1 2 3 0 .lns6).wf = false
      ∧ (Instr.vfred 1 2 .sum 0 .s8).wf = false ∧ (Instr.vtbl 1 2 0 0 .f16).wf = false := by decide

theorem test_wf_refuses_conversions :
    (Instr.vcvt 1 2 0 .s32 false .s32).wf = false ∧ (Instr.vcvt 1 1 0 .s8 false .s32).wf = false
      ∧ (Instr.vfcvt 1 2 0 .lns6 .f32).wf = false ∧ (Instr.vfcvt 1 2 0 .s32 .s8).wf = false := by decide

theorem test_wf_refuses_other_fields :
    (Instr.vidx 1 0 .lns6).wf = false ∧ (Instr.fence false 9 1).wf = false ∧ (Instr.fence false 0 0).wf = false
      ∧ (Instr.fenceq 0).wf = false ∧ (Instr.mtrans 1 2 3 false).wf = false ∧ (Instr.laneShed 1 3).wf = false := by decide

/-! ### Decoding: words written out from the opcode table's fields (R53, R65 to R77) -/

/-- Each word decodes to the instruction beside it. -/
abbrev Words (ps : List (IWord × Instr)) : Prop := ∀ p ∈ ps, decodeWord p.1 = .ok p.2

/-- The worked words of the spec's instruction reference. -/
theorem test_words_worked_in_the_spec : Words [
    (0x04A63800, .add 5 6 7), (0x08A6FFFC, .addi 5 6 0xFFFC), (0x0CA600FF, .andi 5 6 0xFF), (0x20A610C8, .ext 5 6 true 3 8),
    (0x28A00010, .auipc 5 0x10), (0x25E04000, .lui 15 0x4000), (0x2CA6BFFF, .bgeN 5 6 0x1FFF), (0x341F0000, .jalr 0 31 0),
    (0x3C030004, .loopi 3 4), (0x38060002, .loop 6 2), (0x4CA10008, .ld .n64 5 1 8), (0x6E410000, .st 3 18 1 0),
    (0x70A6380B, .cas 5 6 7 0 true), (0x74A00030, .csrr 5 0x030), (0x74A62030, .csrs 5 6 0x030), (0x80A60003, .vsetvl 5 6 3),
    (0x98A63881, .vslideup 5 6 7 0 .s32), (0xA0250060, .vld 1 5 0 .b64 0), (0xA8652040, .vamoAdd 3 5 4 0 false 0),
    (0xC04080C4, .mma .bf16 4 8 12 0), (0xD824AB08, .mld 9 5 11 0 false), (0xB0140018, .fence true 4 0x18),
    (0xE09C0005, .tblld 1 7), (0xEC391001, .rget 0 14 8 16), (0xF029AE01, .object 10 13 14)] := by decide +kernel

theorem test_words_scalar_register : Words [
    (0x066AA800, .add 19 10 21), (0x068DD001, .sub 20 13 26), (0x06B0F802, .and 21 16 31), (0x06D32003, .or 22 19 4),
    (0x06F64804, .xor 23 22 9), (0x07197005, .sll 24 25 14), (0x073C9806, .srl 25 28 19), (0x075FC007, .sra 26 31 24),
    (0x0762E808, .slt 27 2 29 false), (0x07851029, .min 28 5 2 true), (0x07A8380A, .max 29 8 7 false),
    (0x07CB600B, .mul 30 11 12), (0x07EE880C, .mulh 31 14 17 false), (0x0411B02D, .div 0 17 22 true),
    (0x0434D80E, .rem 1 20 27 false), (0x0457000F, .clz 2 23), (0x047A0010, .popc 3 26),
    (0x049D5191, .sel 4 29 10 6)] := by decide +kernel

theorem test_words_scalar_immediate : Words [
    (0x08A09A35, .addi 5 0 0x9a35), (0x08000000, .nop), (0x0CE69A35, .andi 7 6 0x9a35), (0x11099A35, .ori 8 9 0x9a35),
    (0x152C9A35, .xori 9 12 0x9a35), (0x194F9A35, .slti 10 15 0x9a35), (0x1D720025, .slli 11 18 37),
    (0x1D950065, .srli 12 21 37), (0x1DB800A5, .srai 13 24 37), (0x21DB1265, .ext 14 27 true 9 37),
    (0x21FE2265, .ins 15 30 9 37), (0x26009A35, .lui 16 0x9a35), (0x2A209A35, .auipc 17 0x9a35)] := by decide +kernel

theorem test_words_control_flow : Words [
    (0x2CF01A35, .beq 7 16 0x1a35), (0x2D553A35, .bne 10 21 0x1a35), (0x2DBA5A35, .blt 13 26 0x1a35),
    (0x2E1F7A35, .bge 16 31 0x1a35), (0x2E649A35, .bltN 19 4 0x1a35), (0x2EC9BA35, .bgeN 22 9 0x1a35),
    (0x33001A35, .jal 24 0x1a35), (0x373C9A35, .jalr 25 28 0x9a35), (0x381F9A35, .loop 31 0x9a35),
    (0x3EA59A35, .loopi 677 0x9a35)] := by decide +kernel

theorem test_words_scalar_memory : Words [
    (0x57859A35, .ld .s16 28 5 0x9a35), (0x6BA89A35, .st 2 29 8 0x9a35), (0x73CB0103, .lda 30 11 2 3),
    (0x700E8905, .stl 14 17 2 1), (0x7011B10B, .cas 0 17 22 2 true), (0x7034D923, .amoAdd 1 20 27 2 true),
    (0x70570127, .amoAnd 2 23 0 2 true), (0x707A292B, .amoOr 3 26 5 2 true), (0x709D512F, .amoXor 4 29 10 2 true),
    (0x70A07933, .amoMin 5 0 15 2 true), (0x70C3A137, .amoMax 6 3 20 2 true), (0x70E6C93B, .amoMinN 7 6 25 2 true),
    (0x7109F13F, .amoMaxN 8 9 30 2 true), (0x712C1943, .amoSwap 9 12 3 2 true)] := by decide +kernel

theorem test_words_system : Words [
    (0x7540010A, .csrr 10 266), (0x75721103, .csrw 11 18 259), (0x75952104, .csrs 12 21 260),
    (0x75B83105, .csrc 13 24 261), (0x78000000, .ecall), (0x78000001, .eret), (0x78000002, .brk),
    (0x780D0003, .mapsw 13), (0x78000004, .ckpt), (0x7EE74EA5, .pfx 0x2e74ea5),
    (0xFAA5C3F1, .hint 0x2a5c3f1)] := by decide +kernel

theorem test_words_vector_integer : Words [
    (0x82F60002, .vsetvl 23 22 2), (0x870035A5, .vsetvli 24 1 0x15a5), (0x8B3C9DA0, .vadd 25 28 19 5 .s16 false),
    (0x8B5FC5D1, .vsub 26 31 24 5 .s8 true), (0x8B62EDA2, .vmul 27 2 29 5 .s16 false),
    (0x8B8515D3, .vmulh 28 5 2 5 .s8 true), (0x8BA83DA4, .vand 29 8 7 5 .s16 false),
    (0x8BCB65D5, .vor 30 11 12 5 .s8 true), (0x8BEE8DA6, .vxor 31 14 17 5 .s16 false),
    (0x8811B5D7, .vsll 0 17 22 5 .s8 true), (0x8834DDA8, .vsrl 1 20 27 5 .s16 false),
    (0x885705D9, .vsra 2 23 0 5 .s8 true), (0x887A2DAA, .vmin 3 26 5 5 .s16 false),
    (0x889D55DB, .vmax 4 29 10 5 .s8 true), (0x8AA07DAC, .vcmp .lt 5 0 15 5 .s16 false),
    (0x88C3A5DD, .vsel 6 3 20 5 .s8 true), (0x88E605AE, .vred 7 6 .add 5 .s16 false)] := by decide +kernel

theorem test_words_vector_float : Words [
    (0x8D09F520, .vfadd 8 9 30 5 .bf16), (0x8D2C1D41, .vfsub 9 12 3 5 .f16), (0x8D4F4502, .vfmul 10 15 8 5 .f32),
    (0x8D726D23, .vfma 11 18 13 5 .bf16), (0x8D959544, .vfnma 12 21 18 5 .f16), (0x8DB8BD05, .vfdiv 13 24 23 5 .f32),
    (0x8DDB0526, .vfsqrt 14 27 5 .bf16), (0x8DFE0D47, .vfmin 15 30 1 5 .f16), (0x8E013508, .vfmax 16 1 6 5 .f32),
    (0x8E245D29, .vfcmp .le 1 4 11 5 .bf16), (0x8E47054A, .vfclass 18 7 5 .f16),
    (0x8E6A150B, .vfred 19 10 .max 5 .f32), (0x8E8D152C, .vtbl 20 13 2 5 .bf16),
    (0x92B005AE, .vcvt 21 16 5 .s16 true .s8), (0x92D30544, .vfcvt 22 19 5 .f16 .s32)] := by decide +kernel

theorem test_words_logarithmic : Words [
    (0x96F60560, .vlnspack 23 22 5), (0x97190561, .vlnsunpack 24 25 5), (0x973C9D62, .vlnsmul 25 28 19 5),
    (0x975FC563, .vlnsadd 26 31 24 5), (0x9762ED64, .vscale 27 2 29 5)] := by decide +kernel

theorem test_words_permutation_predicate : Words [
    (0x9B851500, .vperm 28 5 2 5 .f32), (0x9BA83D21, .vslideup 29 8 7 5 .bf16),
    (0x9BCB6542, .vslidedn 30 11 12 5 .f16), (0x9BEE0583, .vcompress 31 14 5 .s32),
    (0x981105A4, .vexpand 0 17 5 .s16), (0x983405C5, .vbcast 1 20 5 .s8), (0x985705E6, .vmv 2 23 5 .n32),
    (0x98600507, .vidx 3 5 .f32), (0x9C851000, .pand 4 5 2), (0x9CA03801, .por 5 0 7), (0x9CC32002, .pxor 6 3 4),
    (0x9CE60003, .pnot 7 6), (0x9D010004, .pcnt 8 1), (0x9D240005, .pfirst 9 4)] := by decide +kernel

theorem test_words_vector_memory : Words [
    (0xA14F0590, .vld 10 15 5 .blk 2), (0xA1726D11, .vlds 11 18 13 5 .b8 2), (0xA1959532, .vldx 12 21 18 5 .b16 2),
    (0xA1B80553, .vldff 13 24 5 .b32 2), (0xA1DBE574, .vldsp 14 27 28 5 .b64 2), (0xA1E50585, .qld 15 5 5 .blk),
    (0xA6010510, .vst 16 1 5 .b8 2), (0xA6245D31, .vsts 17 4 11 5 .b16 2), (0xA6478552, .vstx 18 7 16 5 .b32 2),
    (0xA66AAD73, .vstsp 19 10 21 5 .b64 2), (0xAA8DD570, .vamoAdd 20 13 26 5 true 2),
    (0xAAB0FD71, .vamoMin 21 16 31 5 true 2), (0xAAD32572, .vamoMax 22 19 4 5 true 2),
    (0xAAF64D73, .vamoAnd 23 22 9 5 true 2), (0xAB197574, .vamoOr 24 25 14 5 true 2),
    (0xAB3C9D75, .vamoXor 25 28 19 5 true 2), (0xAB5FC576, .vamoSwap 26 31 24 5 true 2)] := by decide +kernel

theorem test_words_strip_fence : Words [
    (0xAC020000, .sbegin 2), (0xAC000001, .scommit), (0xAC000002, .sabort), (0xB016C3A5, .fence true 6 0xc3a5),
    (0xB4000000, .fencesvSv), (0xB4000008, .fencesvVs), (0xB4000531, .fenceq 166),
    (0xB4000002, .spfence)] := by decide +kernel

theorem test_words_matrix : Words [
    (0xC2CB75AA, .mma .f16 44 183 90 2), (0xCECB7519, .mmasp .n8 44 183 10 6), (0xD2CB779A, .mmats .f16 44 183 15 6),
    (0xDAB40000, .mzero 173), (0xDAB4D90C, .mld 173 6 25 2 false), (0xDAB53E15, .mst 173 9 30 2 true),
    (0xDAB5831C, .mldsp 173 12 3 2 false), (0xDAB5E825, .mstsp 173 15 8 2 true), (0xDAB64D28, .mv2t 173 18 13),
    (0xDAB6B230, .mt2v 173 21 18), (0xDAB40038, .mfree 173), (0xDAB40040, .mpref 173), (0xDAB7C14C, .mepi 173 30 1 2),
    (0xDAB42654, .msend 173 1 6 2), (0xD8000058, .mattach), (0xD8000060, .mdetach), (0xDC0B75A2, .mmov 183 90 true),
    (0xDC1B75AA, .mtrans 183 90 2 true)] := by decide +kernel

theorem test_words_copy_phaser_task : Words [
    (0xE2C3E600, .cpy 5 16 31 6), (0xE2CC8601, .cpy2d 5 19 4 6), (0xE2D92602, .cpyg 5 22 9 6),
    (0xE2E5C603, .cpyts 5 25 14 6), (0xE2F26604, .qfill 5 28 19 6), (0xE17C0005, .tblld 2 31),
    (0xE4080600, .phnew 2 6), (0xE4140601, .phdel 5 6), (0xE5200602, .phreg .signalWait 8 6),
    (0xE42C0603, .phdrop 11 6), (0xE4380604, .phsig 14 6), (0xE4440605, .phwait 17 6), (0xE4500606, .phsw 20 6),
    (0xE85C0600, .gmem 23 0 6), (0xE8680001, .post 26), (0xE8000002, .texit)] := by decide +kernel

theorem test_words_remote_claim : Words [
    (0xED01E600, .rput 2 0 15 6), (0xED8E8601, .rget 3 3 20 6), (0xED1B2602, .ramo 2 6 25 6),
    (0xEDA7C603, .rldred 3 9 30 6), (0xEC306604, .rwait 12 3 6), (0xEC3C0605, .tkstat 15 6),
    (0xF049A600, .claim 18 13 6), (0xF0564601, .object 21 18 6), (0xF0000602, .clwait 6), (0xF06F8008, .dln 27 28),
    (0xF0000609, .dlnend 6)] := by decide +kernel

/-- Words that are no instruction, by the name of the refusal (R65 to R78). -/
theorem test_words_refused :
    decodeWord 0x00000000 = .error .reservedMajor ∧ decodeWord 0x5C000000 = .error .reservedMajor
      ∧ decodeWord 0xFFFFFFFF = .error .reservedMajor ∧ decodeWord 0x04000012 = .error .reservedCode
      ∧ decodeWord 0x2C00C000 = .error .reservedCode ∧ decodeWord 0x04A63840 = .error .nonzeroField
      ∧ decodeWord 0x78200000 = .error .nonzeroField ∧ decodeWord 0x38060000 = .error .reservedOperands
      ∧ decodeWord 0x90C7000D = .error .reservedOperands := by decide +kernel

theorem test_decode_of_bytes_is_little_endian :
    decode [0x00, 0x38, 0xA6, 0x04, 0x77] = .ok (.add 5 6 7, [0x77]) ∧ decode [0x00, 0x38, 0xA6] = .error .short := by
  decide +kernel

/-! ### Small states -/

/-- The state after an answered step; the state after reset stands for the other outcomes. -/
def after (o : Host.Outcome State Fault Refusal) : State := match o with | .next u => u | _ => State.reset

/-- The step answers a next state. -/
def answers (o : Host.Outcome State Fault Refusal) : Bool := match o with | .next _ => true | _ => false

theorem next_of_answers {o : Host.Outcome State Fault Refusal} (h : answers o = true) : ∃ t, o = .next t := by
  cases o with
  | next t => exact ⟨t, rfl⟩
  | fault f => simp [answers] at h
  | refused r => simp [answers] at h

/-- A leaf of the tests' address space at level 3. -/
def leafOf (va : Nat) (pte : Word) : Leaf :=
  { asid := 1, level := 3, va := va, pte := pte, tenants := [], accesses := 5 }

/-- The launch record of the tests' task: one lease range, one group of two members, one window, one exec section. -/
def record : LaunchRecord :=
  { ctxId := 11
    desc := { name := 1, leaseIndex := 0, count := 1, entry := 0x100000000, args := 0, argstride := 0, priority := 2, lanes := 16, preempt := 0
              classmap := 0xF210, badReserved := false }
    mbox := Vector.replicate 8 0, leaseName := 1
    lease := [{ start := 0x200000, len := 0x20000, rw := true }]
    groups := [{ index := 1, members := [{ fid := none, cluster := 0, core := 0, hart := 0 },
      { fid := some 1, cluster := 2, core := 1, hart := 3 }] }]
    windows := [{ id := 5, tile := false, base := 0x200000, len := 0x1000 }]
    sections := [{ addr := 0x100000000, len := 0x10000, rodata := false, exec := true, bytes := [] }]
    kvec := 0x100000100 }

/-- The tests' launch, with a memory window 5 and a tile window 6 that has an open operation and an error. -/
def launch : Launch :=
  { id := 7, lease := 9, tenant := 3, job := 2, asid := 1, record := record, owed := none, requests := []
    windows := [{ id := 5, tile := false, base := 0x200000, len := 0x1000, ops := [], out := 4, inn := 6, err := 0 },
      { id := 6, tile := true, base := 0, len := 256, ops := [{ ticket := 77, done := false }], out := 4, inn := 6, err := 3 }]
    mbox := Vector.replicate 8 0, live := 2, exited := 1, terminated := 0 }

/-- A bound compute hart at level T with `w` at its pc: pages at 0x200000 (local) and 0x210000 (mode 3) that it may read and
write, a backing area, x[i] = 0x200000 + 64 i. -/
def at1 (w : Nat) : State :=
  let s := State.reset.withFetchWord 32 w
  { s with
    leaves := [fetchLeaf, leafOf 0x200000 0xC000000000010000, leafOf 0x210000 0xC00C000000020000,
      { asid := 1, level := 2, va := 0x7FE00000, pte := 0xC000000000200000, tenants := [], accesses := 0 }]
    hart := { s.hart with
      mapbase := 0x7FE00000, ctxs := [TileCtx.all 0x7FE00000 .undefined]
      x := Vector.ofFn fun i => BitVec.ofNat 64 (0x200000 + 64 * i.val)
      tvec := 0x100000200
      task := { s.hart.task with
        serial := 5, ctxId := 11, leaseId := 9, launch := 7, tenant := 3, job := 2, groups := 0x101, priority := 2
        mapbase := 0x7FE00000, ckpt := 0x5000, eqMin := 2, eqCap := 8
        grants := [{ num := some 0, first := 0x20, pages := 2, write := true },
          { num := none, first := 0x7FE0, pages := 16, write := true }] } }
    mem := s.mem.put 0x10000 ((List.range 64).map fun i => BitVec.ofNat 8 (7 * i + 1))
    spaces := [(11, 1)], launches := [launch], nextName := 100
    cluster := { s.cluster with tenant := some 3 } }

def base : State := at1 0

/-- `base` with a change of its hart. -/
def baseWith (f : Hart → Hart) : State := { base with hart := f base.hart }

/-- At level K. -/
def baseK : State := baseWith fun h => { h with level := .k }

/-- Inside a strip with one buffered store. -/
def baseStrip : State :=
  baseWith fun h => { h with status := 0x2400, strip := [{ va := 0x200103, bytes := [1, 2, 3], cls := 1, bypass := false }] }

/-- On an access hart. -/
def baseAh : State := baseWith fun h => { h with name := { h.name with ah := true } }

/-- With vector length `n` of width code `w`, the hart having 4 lanes. -/
def baseV (w n : Nat) : State := baseWith fun h => { h with part := 3, vl := vlWord w n }

/-- `s` with x[d] = w. -/
abbrev x (s : State) (d : XReg) (w : Word) : State := s.setX d w

/-- `s` with bytes at a key of memory. -/
def poke (s : State) (k : Nat) (bs : List Byte) : State := { s with mem := s.mem.put k bs }

/-- An engine-queue entry of queue `q` and class `c` that has written `g` granules. -/
def entry (q : Fin 8) (c : Fin 16) (w : CopyWork) (g : Nat) : CopyEntry := ⟨1, q, c, ⟨0, 0, 0, 64, []⟩, w, g⟩

/-! ### Witnesses: stepping, decoding, the invariant -/

theorem witness_StepRunsDecodedInstruction :
    let good := at1 0x04A63800
    good.agenda = [] ∧ good.prompt ∧ good.attend = Attend.instruction ∧ good.translates good.hart.pc.toNat 4
      ∧ good.hart.task.mayFetch good.hart.pc.toNat = true ∧ (∀ l ∈ good.leaves, l.busy = false)
      ∧ decodeWord (BitVec.ofNat 32 (leVal (good.reads good.hart.pc.toNat 4))) = .ok (.add 5 6 7)
      ∧ base.agenda = [] ∧ base.prompt ∧ base.attend = Attend.instruction ∧ base.translates base.hart.pc.toNat 4
      ∧ base.hart.task.mayFetch base.hart.pc.toNat = true
      ∧ decodeWord (BitVec.ofNat 32 (leVal (base.reads base.hart.pc.toNat 4))) = .error .reservedMajor := by decide +kernel

theorem witness_AgendaTurnsHappenInOrder :
    let bs := leBytes 4 1 ++ leBytes 2 12 ++ List.replicate 58 0
    hartExists ⟨191, 3, 7, false⟩ = true ∧ hartExists ⟨192, 0, 0, false⟩ = false ∧ (∀ l ∈ base.leaves, l.busy = false)
      ∧ encodeNat (.tileFillDone 1) = none ∧ (encodeNat .nop).isSome = true
      ∧ commandOf bs [] ⟨⟨1, 1⟩, 0, false, ⟨[], false, false, []⟩⟩ = some (.sync { seq := 1, tenant := 0, job := 0, badReserved := false })
      ∧ answers (hartStep { base.focus ⟨191, 3, 7, false⟩ with how := .part 2 }) = true
      ∧ answers (hartStep { base.focus ⟨191, 3, 7, false⟩ with how := .late }) = true ∧ (∃ p ∈ base.ports.toList, p ≠ 0) := by
  decide +kernel

/-- The mode-3 page of the tests, at its threshold of 256 accesses or below it. -/
def hotAt (n : Nat) : Leaf := { leafOf 0x210000 0xC03D800000020000 with accesses := n }

/-- `s` with that page in place of its own there. -/
def hotter (n : Nat) (s : State) : State := { s with leaves := s.leaves.map fun l => if l.va = 0x210000 then hotAt n else l }

/-- A load of the busy page waits: the turn meets it. -/
theorem witness_StepRunsDecodedInstruction_busy :
    (hotAt 256).busy = true ∧ (match exec (.ld .n64 5 6 0) (x (hotter 256 base) 6 0x210000) with
      | .next t => (hotter 256 base).metBusy t
      | _ => false) = true := by decide +kernel

theorem witness_DecodeOfEncodeIsIdentity : (Instr.add 5 6 7).wf = true ∧ encode (.add 5 6 7) = some 0x04A63800 := by decide +kernel

theorem witness_EncodeOfDecodeIsIdentity : decodeWord 0x04A63800 = .ok (.add 5 6 7) := by decide +kernel

theorem witness_StepKeepsInvariant : base.Inv ∧ ∃ t, step base = .next t :=
  ⟨⟨by decide +kernel, by decide +kernel, by decide +kernel, by decide +kernel, by intro t ht; simp [base, at1, State.withFetchWord] at ht⟩,
    next_of_answers (by decide +kernel)⟩

/-! ### Witnesses: scalar instructions -/

theorem witness_ScalarResultsAndFrame : base.mayFall
    ∧ ∀ i ∈ [Instr.nop, .add 0 6 7, .sub 5 6 7, .and 5 6 7, .or 5 6 7, .xor 5 6 7, .sll 5 6 7, .srl 5 6 7, .sra 5 6 7,
        .slt 5 6 7 false, .min 5 6 7 true, .max 5 6 7 false, .mul 5 6 7, .mulh 5 6 7 true, .div 5 6 0 false, .rem 5 6 0 true,
        .clz 5 0, .popc 5 6, .sel 5 6 7 8, .addi 5 6 0xFFFF, .andi 5 6 1, .ori 5 6 1, .xori 5 6 1, .slti 5 6 1, .slli 5 6 63,
        .srli 5 6 0, .srai 5 6 63, .ext 5 6 true 31 32, .ins 5 6 63 0, .lui 5 0x100000, .auipc 5 1],
      i.wf = true ∧ (base.scalarResult i).isSome = true := by decide +kernel

theorem witness_BranchesJumpOrFallThrough :
    base.branchOf (.beq 1 1 0x1001) = some (true, 0xFFFFC004) ∧ base.branchOf (.bne 1 2 0xFFF) = some (true, 0x100003FFC)
      ∧ base.hart.task.mayFetch 0x100003FFC = true ∧ base.branchOf (.bltN 2 1 4) = some (false, 0x100000010) ∧ base.mayFall := by
  decide +kernel

theorem witness_JumpsLinkAndJump :
    base.jumpOf (.jal 1 5) = some (1, 0x100000014) ∧ base.hart.task.mayFetch 0x100000014 = true
      ∧ (x base 3 0x100000043).jumpOf (.jalr 3 3 0) = some (3, 0x100000040) ∧ base.hart.task.mayFetch 0x100000040 = true := by
  decide +kernel

theorem witness_LeavingExecSectionsEndsTask :
    base.branchOf (.beq 1 1 0x1001) = some (true, 0xFFFFC004) ∧ base.hart.task.mayFetch 0xFFFFC004 = false
      ∧ (baseWith fun h => { h with pc := 0x10000FFFC }).branchOf (.beq 1 2 1) = some (false, 0x100010000)
      ∧ (baseWith fun h => { h with pc := 0x10000FFFC }).hart.task.mayFetch
          (baseWith fun h => { h with pc := 0x10000FFFC }).fallPc.toNat = false
      ∧ base.jumpOf (.jalr 1 2 0) = some (1, 0x200080) ∧ base.hart.task.mayFetch 0x200080 = false := by decide +kernel

theorem witness_LeavingExecSectionsEndsTask_falls :
    let s := { baseV 2 4 with hart := { (baseV 2 4).hart with pc := 0x10000FFFC } }
    let out := baseWith fun h => { h with pc := 0x100010000 }
    s.hart.task.mayFetch s.fallPc.toNat = false ∧ (Instr.add 5 6 7).wf = true ∧ (s.scalarResult (.add 5 6 7)).isSome = true
      ∧ s.hart.csrOk 0x030 = true ∧ s.how = .whole ∧ s.compute ∧ s.canWrite 0x2000C0 8 ∧ s.stripRoom 0x2000C0 (lowBytes 8 5) 0
      ∧ (s.getX 3 + (0 : BitVec 16).signExtend 64).toNat = 0x2000C0 ∧ s.hart.loaded = [] ∧ s.canRead 0x2000C0 8
      ∧ (Instr.vadd 3 1 2 0 .s32 false).wf = true ∧ (s.intVecOp (.vadd 3 1 2 0 .s32 false)).isSome = true
      ∧ (Instr.vfadd 3 1 2 0 .f32).wf = true ∧ (s.fpVecOp (.vfadd 3 1 2 0 .f32)).isSome = true
      ∧ out.attend = .instruction ∧ out.nothingLeft = true ∧ out.hart.task.mayFetch out.hart.pc.toNat = false := by decide +kernel

theorem witness_BranchAndJumpWords :
    (base.branchOf (.beq 1 1 8)).isSome = true ∧ (base.jumpOf (.jal 1 5)).isSome = true ∧ (encode (.jal 1 5)).isSome = true
      ∧ (0x2C00C000 : IWord).toNat / 2 ^ 26 = 0x0B ∧ (0x2C00C000 : IWord).toNat / 2 ^ 13 % 8 = 6 := by decide +kernel

/-- A loop of `n` entries around the pc, each of whose bodies ends at 0x100000040. -/
def inLoops (n : Nat) : State :=
  baseWith fun h => { h with loopT := List.replicate n { s := 0x100000000, e := 0x100000040, count := 2 } }

theorem witness_LoopsPushAnEntry :
    (inLoops 2).loopOf (.loopi 3 16) = some (3, 16) ∧ (inLoops 2).hart.loops.length = 2
      ∧ (∀ l ∈ (inLoops 2).hart.loops, 0x100000040 ≤ l.e.toNat) ∧ (inLoops 2).hart.task.mayFetch 0x100000004 = true
      ∧ (inLoops 2).loopOf (.loopi 0 16) = some (0, 16)
      ∧ (inLoops 2).hart.task.mayFetch ((loopEnd 0x100000040 (inLoops 2).hart.loops).2.getD 0x100000044).toNat = true
      ∧ (inLoops 3).loopOf (.loop 1 16) = some (0x200040, 16) ∧ (inLoops 3).hart.loops.length = 3
      ∧ (inLoops 1).hart.loops.head? = some { s := 0x100000000, e := 0x100000040, count := 2 }
      ∧ (inLoops 1).loopOf (.loopi 3 17) = some (3, 17) := by decide +kernel

theorem witness_NopAndHintWordsDoNothing : base.mayFall ∧ (0xF8000001 : IWord).toNat / 2 ^ 26 = 0x3E := by decide +kernel

/-! ### Witnesses: scalar memory -/

theorem witness_LoadsReadMemory :
    base.canRead 0x2000C0 8 ∧ base.mayFall ∧ (base.getX 3 + (0 : BitVec 16).signExtend 64).toNat = 0x2000C0
      ∧ (x base 8 0x20FFFC).canRead 0x20FFFC 8 := by decide +kernel

/-- A load over the page boundary, between its granules and then with the first four bytes read. -/
theorem witness_LoadsReadMemory_crossing :
    let s := { x base 8 0x20FFFC with how := .part 0 }
    let t := { s with hart := { s.hart with loaded := [1, 2, 3, 4] } }
    s.hart.loaded = [] ∧ s.how = .part 0 ∧ 16 - 0x20FFFC % 16 < ldBytes .n64 ∧ s.canRead 0x20FFFC 8 ∧ ldBytes .n64 ≤ 16 - 0x2000C0 % 16
      ∧ t.hart.loaded.length = 16 - 0x20FFFC % 16 ∧ t.canRead (0x20FFFC + 4) 4 ∧ t.mayFall := by decide +kernel

theorem witness_StoresWriteMemory :
    base.canWrite 0x2000C0 8 ∧ base.how = .whole ∧ base.stripRoom 0x2000C0 (lowBytes 8 5) 0 ∧ base.mayFall ∧ base.outside
      ∧ { base with how := .late }.canWrite 0x2000C0 8 ∧ { base with how := .late }.outside ∧ { base with how := .late }.mayFall
      ∧ baseStrip.canWrite 0x2000C0 8 ∧ baseStrip.stripRoom 0x2000C0 (lowBytes 8 5) (baseStrip.hart.effClass 0)
      ∧ baseStrip.hart.inStrip = true ∧ baseStrip.mayFall
      ∧ (let s := { baseStrip with how := .late }
        s.canWrite 0x2000C0 8 ∧ s.hart.late = [] ∧ s.hart.inStrip = true ∧ s.mayFall
          ∧ s.stripRoom 0x2000C0 (lowBytes 8 5) (s.hart.effClass 0)) := by decide +kernel

theorem witness_MemoryWriteFrame :
    ¬inRuns [(4, 2), (9, 1)] 6 ∧ apart [(4, 2), (9, 1)] ∧ ([(4, 2), (9, 1)].map (·.2)).sum = ([1, 2, 3] : List Byte).length := by
  decide

theorem witness_RunsAreTheBytesInOrder :
    (∀ l ∈ base.leaves, l.aligned) ∧ base.translates 0x20FFFC 8 ∧ 7 < 8 := by decide +kernel

theorem witness_AcquireLoadsAndReleaseStores :
    base.outside ∧ (base.getX 3).toNat % 2 ^ 3 = 0 ∧ base.mayFall ∧ base.canRead (base.getX 3).toNat 8
      ∧ base.canWrite (base.getX 3).toNat 8 := by decide +kernel

theorem witness_ScalarAtomicsReadModifyWrite :
    base.outside ∧ (base.getX 3).toNat % 8 = 0 ∧ base.canWrite (base.getX 3).toNat 8 ∧ base.mayFall
      ∧ ∀ i ∈ [Instr.cas 1 3 2 0 true, .amoAdd 1 3 2 0 true, .amoAnd 1 3 2 0 true, .amoOr 1 3 2 0 true, .amoXor 1 3 2 0 true,
          .amoMin 1 3 2 0 true, .amoMax 1 3 2 0 true, .amoMinN 1 3 2 0 true, .amoMaxN 1 3 2 0 true, .amoSwap 0 3 2 0 true],
        (base.atomicOf i).map (fun o => (o.2.1, o.2.2.1)) = some (3, 8) := by decide +kernel

theorem witness_MisalignedAtomicsTrap :
    base.outside ∧ ((x base 3 0x200001).atomicOf (.amoAdd 1 3 2 0 false)).isSome = true
      ∧ ((x base 3 0x200001).getX 3).toNat % 4 ≠ 0 ∧ ((x base 3 0x200001).getX 3).toNat % 2 ^ 1 ≠ 0 := by decide +kernel

theorem witness_LeaseFailuresEndTask :
    let va := ((x base 8 0x21FFFC).getX 8 + (0 : BitVec 16).signExtend 64).toNat
    4 < ldBytes .n64 ∧ 4 < 2 ^ (3 : Fin 4).val ∧ (∀ j < 4, base.hart.task.mayRead (va + j) = true ∧ base.hart.task.mayWrite (va + j) = true)
      ∧ base.hart.task.mayRead (va + 4) = false ∧ base.hart.task.mayWrite (va + 4) = false
      ∧ base.hart.task.mayRead (va + 1028) = false := by decide +kernel

/-! ### Witnesses: exceptions and the system instructions -/

theorem witness_ExceptionEntersLevelK :
    State.reset.hart.tvec = 0 ∧ base.hart.tvec ≠ 0 ∧ baseStrip.hart.inStrip = true ∧ baseStrip.hart.tvec ≠ 0 := by decide +kernel

theorem witness_TerminationEndsTheTask :
    let q := base.hart.issued (.vadd 3 1 2 0 .s32 false) [] true
    base.hart.late = [] ∧ base.hart.vqueue = [] ∧ (baseWith fun h => { h with vqueue := [q] }).hart.vqueue = q :: [] := by
  decide +kernel

theorem witness_StateRegistersReadAndWritten :
    base.hart.csrOk 0x030 = true ∧ baseK.hart.csrOk 0x033 = true ∧ baseK.hart.csrOk 0x11F = true ∧ base.mayFall ∧ baseK.mayFall := by
  decide +kernel

theorem witness_PrivilegedStateRegistersTrap :
    base.hart.level = Level.t ∧ csrListed 0x002 = false ∧ csrListed 0x120 = false ∧ baseAh.hart.name.ah = true
      ∧ (∀ r ∈ [0x000, 0x012, 0x020, 0x022, 0x051, 0x060, 0x100, 0x11F], csrOnAH r = false)
      ∧ (∀ r ∈ [0x013, 0x030, 0x036, 0x040, 0x050], csrOnAH r = true) := by decide +kernel

theorem witness_StateRegisterWritesByRegister : baseK.hart.level = Level.k ∧ base.hart.level = Level.t := by decide +kernel

theorem witness_EnvironmentCallsAndRequests :
    base.hart.level = Level.t ∧ base.compute ∧ base.mayFall ∧ baseK.hart.level = Level.k ∧ baseK.mayFall
      ∧ baseAh.hart.level = Level.t ∧ baseAh.hart.copies = [] ∧ baseAh.hart.clstat.toNat % 8 ≠ 1 := by decide +kernel

/-- At level K after an exception at 0x100000040, the pair of a prefix split. -/
def returning (st : Word) (w : Nat) : State :=
  poke (baseWith fun h => { h with
    level := .k, status := st, epc := 0x100000040, pfxstate := 0x128000
    loopT := [{ s := 0x100000008, e := 0x10000003C, count := 1 }] }) 0x40 (leBytes 4 w)

theorem witness_ExceptionReturnRestores :
    base.hart.level = Level.t ∧ (returning 0x8C00 0x4CA10008).hart.level = Level.k
      ∧ (returning 0x8C00 0x4CA10008).hart.st 15 = true ∧ (returning 0x8C00 0x4CA10008).hart.st 12 = false
      ∧ (returning 0x8C00 0x4CA10008).peek 0x100000040 = some 0x4CA10008 ∧ acceptsWord false 0x4CA10008 0x128000 = true
      ∧ (returning 0x8C00 0x4CA10008).hart.task.mayFetch 0x100000040 = true
      ∧ (returning 0x1000 0).hart.st 12 = true ∧ (returning 0x1000 0).hart.st 15 = false
      ∧ (returning 0x8C00 0x04A63800).hart.st 15 = true ∧ (returning 0x8C00 0x04A63800).peek 0x100000040 = some 0x04A63800
      ∧ acceptsWord false 0x04A63800 0x128000 = false ∧ (returning 0x8C00 0x04A63800).hart.tvec ≠ 0 := by decide +kernel

theorem witness_BreakpointsTrapOrEnd : base.hart.level = Level.t ∧ baseK.hart.level = Level.k := by decide +kernel

/-- At level K holding `n` map contexts, the last one current. -/
def holding (n : Nat) (v : Word) : State :=
  x { baseK with
    hart := { baseK.hart with
      mapbase := BitVec.ofNat 64 (0x7FE00000 + 2 ^ 20 * (n - 1))
      ctxs := (List.range n).map fun i => TileCtx.all (BitVec.ofNat 64 (0x7FE00000 + 2 ^ 20 * i)) .absent }
    others := [{ baseK.hart with name := ⟨0, 1, 0, false⟩, mapbase := 0x5000000 }] } 4 v

theorem witness_MapSwitchesContexts :
    baseK.hart.level = Level.k ∧ baseK.compute ∧ (holding 2 0x7FF00000).getX 4 = (holding 2 0x7FF00000).hart.mapbase
      ∧ (holding 2 0x7FF00000).mayFall
      ∧ (0x5000001 : Word).toNat % 2 ^ 20 ≠ 0 ∧ 2 ^ 57 ≤ (0x200000000000000 : Word).toNat
      ∧ (holding 2 0x5000000).mapBusy 0x5000000 = true ∧ (holding 2 0x7FE00000).mapBusy 0x7FE00000 = false
      ∧ ((holding 2 0x7FE00000).hart.ctxs.find? fun c => c.base == 0x7FE00000).isSome = true
      ∧ ((holding 3 0x80200000).hart.ctxs.find? fun c => c.base == 0x80200000) = none ∧ (holding 3 0x80200000).hart.ctxs.length = 3
      ∧ (holding 4 0x80200000).hart.ctxs.length = 4 ∧ (holding 4 0x80200000).mapBusy 0x80200000 = false
      ∧ (match (holding 4 0x80200000).hart.ctxs with
          | c :: _ => (match (holding 4 0x80200000).evict c with | .ok _ => true | .error _ => false)
          | [] => false) = true := by decide +kernel

theorem witness_MapSwitchAndCheckpointNeedLevelK :
    base.hart.level = Level.t ∧ baseAh.hart.name.ah = true ∧ ({ baseAh with hart := { baseAh.hart with level := .k } } : State).hart.level = Level.k := by
  decide +kernel

theorem witness_CheckpointHoldsContext :
    baseK.hart.level = Level.k ∧ baseK.compute ∧ baseK.mayFall ∧ baseK.hart.bound = true := by decide +kernel

/-- At the last word of a loop body, the word `w` behind it. -/
def lastOfBody (w : Nat) : State :=
  poke (baseWith fun h => { h with loopT := [{ s := 0x100000000, e := 0x100000000, count := 2 }] }) 4 (leBytes 4 w)

theorem witness_PrefixLendsItsFields :
    (poke base 4 (leBytes 4 0x4CA10008)).peek 0x100000004 = some 0x4CA10008 ∧ base.hart.task.mayFetch 0x100000004 = true
      ∧ acceptsWord false 0x4CA10008 0x128000 = true ∧ (∀ l ∈ base.hart.loops, l.e ≠ base.hart.pc)
      ∧ (poke base 4 (leBytes 4 0x04A63800)).peek 0x100000004 = some 0x04A63800 ∧ acceptsWord false 0x04A63800 0 = false
      ∧ base.hart.tvec ≠ 0 ∧ base.outside ∧ ¬(∀ l ∈ (lastOfBody 0).hart.loops, l.e ≠ (lastOfBody 0).hart.pc)
      ∧ (lastOfBody 0x4CA10008).peek 0x100000004 = some 0x4CA10008 := by decide +kernel

theorem witness_AccessHartsTrapComputeWords : baseAh.hart.name.ah = true := by decide +kernel

/-! ### Witnesses: vector instructions -/

theorem witness_VectorLengthIsSet : base.compute ∧ base.mayFall := by decide +kernel

theorem witness_VectorLengthAndPredicateWords :
    baseAh.hart.name.ah = true ∧ (encode (.pand 1 2 3)).isSome = true ∧ (0x80A60004 : IWord).toNat / 2 ^ 26 = 0x20
      ∧ 4 ≤ (0x80A60004 : IWord).toNat % 8 ∧ (0x80A60008 : IWord).toNat / 2 ^ 3 % 2 ^ 8 ≠ 0
      ∧ (0x80A60800 : IWord).toNat / 2 ^ 11 % 2 ^ 5 ≠ 0 ∧ (0x84A08000 : IWord).toNat / 2 ^ 26 = 0x21
      ∧ 4 ≤ (0x84A08000 : IWord).toNat / 2 ^ 13 % 8 ∧ (0x84A10000 : IWord).toNat / 2 ^ 16 % 2 ^ 5 ≠ 0 := by decide +kernel

/-- In a turn that stops after its first two groups. -/
def inPart (s : State) : State := { s with how := .part 1 }

theorem witness_VectorIntegerElements : base.compute ∧ base.mayFall ∧ base.how = .whole
    ∧ (∀ i ∈ [Instr.vadd 3 1 2 0 .s32 false, .vsub 3 1 2 0 .s8 true, .vmul 3 1 2 0 .n32 false, .vmulh 3 1 2 1 .s16 true,
        .vand 3 1 2 0 .s32 false, .vor 3 1 2 0 .s32 false, .vxor 3 1 2 0 .s32 false, .vsll 3 1 2 0 .s32 false,
        .vsrl 3 1 2 0 .s32 false, .vsra 3 1 2 0 .s32 false, .vmin 3 1 2 0 .s32 false, .vmax 3 1 2 0 .s32 false],
      i.wf = true ∧ (base.intVecOp i).isSome = true)
    ∧ (((inPart (baseV 2 32)).intVecOp (.vadd 3 1 2 0 .s32 false)).map fun o => (o.unit, o.n)) = some (some 4, 32) := by
  decide +kernel

theorem witness_VectorFloatElementsAndFlags : base.compute ∧ base.mayFall ∧ base.how = .whole
    ∧ (∀ i ∈ [Instr.vfadd 3 1 2 0 .f32, .vfsub 3 1 2 0 .f16, .vfmul 3 1 2 0 .bf16, .vfma 3 1 2 0 .f32, .vfnma 3 1 2 0 .f32,
        .vfdiv 3 1 2 0 .f32, .vfsqrt 3 1 0 .f32, .vfmin 3 1 2 0 .f32, .vfmax 3 1 2 0 .f32, .vfclass 3 1 0 .f32,
        .vtbl 3 1 2 0 .f32, .vcvt 3 1 0 .s32 true .s16, .vfcvt 3 1 0 .f32 .s8, .vbcast 3 1 0 .lns6, .vmv 3 1 0 .f32,
        .vidx 3 0 .s8],
      i.wf = true ∧ (base.fpVecOp i).isSome = true)
    ∧ (((inPart (baseV 2 32)).fpVecOp (.vfadd 3 1 2 0 .f32)).map fun o => (o.unit, o.n)) = some (some 4, 32) := by decide +kernel

theorem witness_VectorComparesWriteBits :
    (Instr.vcmp .lt 2 3 4 0 .s32 false).wf = true ∧ (Instr.vfcmp .un 0 3 4 1 .f16).wf = true ∧ base.compute ∧ base.mayFall
      ∧ base.how = .whole := by decide +kernel

theorem witness_VectorSelect : base.compute ∧ base.mayFall ∧ base.how = .whole := by decide +kernel

/-- The premise on where a turn ends holds of a whole turn, and of one that stops after its first two groups. -/
theorem witness_endsAt :
    base.endsAt (some (base.hart.groupOf 32)) (base.hart.count 32) (base.hart.count 32) State.vfalls
      ∧ (inPart (baseV 2 32)).endsAt (some 4) 32 8
        (fun t => { t with hart := { t.hart with vstart := BitVec.ofNat 64 8 } })
      ∧ (inPart (baseV 2 45)).endsAt none 45 45 State.vfalls
      ∧ (inPart (baseV 2 45)).endsAt (some 20) 45 40
        (fun t => { t with hart := { t.hart with vstart := BitVec.ofNat 64 40 } }) :=
  ⟨.inl ⟨rfl, by decide +kernel, rfl, fun u j _ h => by simp [base, at1, State.withFetchWord] at h⟩,
    .inr ⟨4, 1, rfl, rfl, by decide +kernel, by decide, rfl⟩,
    .inl ⟨rfl, by decide +kernel, rfl, fun u j h _ => by simp at h⟩, .inr ⟨20, 1, rfl, rfl, by decide +kernel, by decide, rfl⟩⟩

theorem witness_VectorReductions : base.compute ∧ base.mayFall ∧ ET.f16.isFloat = true
    ∧ (List.range (base.hart.count 32)).filter (base.hart.pred 1) = []
    ∧ (List.range ((baseV 2 2).hart.count 32)).filter ((baseV 2 2).hart.pred 0) = [0, 1] := by decide +kernel

theorem witness_LogarithmicBlocks :
    (baseV 2 256).compute ∧ (baseV 2 256).hart.len = (baseV 2 256).hart.lanes * 64 ∧ (baseV 2 256).mayFall
      ∧ (baseV 2 256).how = .whole ∧ (baseV 1 257).compute ∧ (baseV 1 257).hart.lanes * 64 < (baseV 1 257).hart.len
      ∧ (inPart (baseV 2 45)).hart.len = 45
      ∧ ∀ i ∈ [Instr.vlnspack 3 1 0, .vlnsmul 3 1 2 0, .vlnsadd 3 1 2 0, .vscale 3 1 2 0],
        ((baseV 2 256).lnsOp i).isSome = true ∧ ((baseV 1 257).lnsOp i).isSome = true := by decide +kernel

theorem witness_PermutationsMoveUnits : base.compute ∧ base.mayFall
    ∧ ∀ i ∈ [Instr.vperm 3 1 2 0 .s32, .vslideup 3 1 2 0 .s8, .vslidedn 3 1 2 0 .lns6, .vcompress 3 1 1 .s16,
        .vexpand 3 1 1 .f32], (base.permOp i).isSome = true := by decide +kernel

theorem witness_PredicateOperations : base.compute ∧ base.mayFall := by decide +kernel

theorem witness_VectorLoadsReadUnits : (baseV 2 4).compute ∧ (baseV 2 4).mayFall ∧ (baseV 2 4).hart.units .b32 = 4
    ∧ (baseV 2 4).how = .whole
    ∧ (∀ k < 4, (baseV 2 4).canRead ((baseV 2 4).getX 3 + BitVec.ofNat 64 (k * 4)).toNat 4)
    ∧ (let s := x (baseV 2 4) 3 0x21FFFA
      s.does 0 4 1 = true ∧ (∀ j < 4, s.hart.task.mayRead (0x21FFFA + j) = true)
        ∧ (∀ j < 2, s.hart.task.mayRead (0x21FFFE + j) = true) ∧ s.hart.task.mayRead (0x21FFFE + 2) = false)
    ∧ (let s := { baseV 2 4 with how := .without [0, 2] [] }
      s.does 0 4 0 = false ∧ s.does 0 4 1 = true ∧ s.does 0 4 2 = false ∧ s.does 0 4 3 = true)
    ∧ ∀ i ∈ [Instr.vld 1 3 0 .b32 0, .vlds 1 3 4 0 .b32 0, .vldx 1 3 2 0 .b32 0],
      ((baseV 2 4).vmemOp i).isSome = true := by decide +kernel

/-- Room below the threshold for the units, and a first unit that waits at a busy page. -/
theorem witness_VectorLoadsReadUnits_pages :
    let s := x (hotter 256 (baseV 2 4)) 3 0x210000
    (baseV 2 4).unworn 4 ∧ s.hart.units .b32 = 4 ∧ (∀ j < 16, s.hart.task.mayRead (0x210000 + j) = true)
      ∧ ((List.range 4).filter (s.does 0 4)).head? = some 0 ∧ s.atBusy s.hart.task.asid 0x210000 4 = true := by decide +kernel

theorem witness_VectorStoresWriteUnits : (baseV 2 4).compute ∧ (baseV 2 4).mayFall ∧ (baseV 2 4).hart.units .b32 = 4
    ∧ (baseV 2 4).how = .whole ∧ baseStrip.how = .whole
    ∧ (∀ k < 4, (baseV 2 4).canWrite ((baseV 2 4).getX 3 + BitVec.ofNat 64 (k * 4)).toNat 4)
    ∧ (let s := x (baseV 2 4) 3 0x21FFFA
      s.does 0 4 1 = true ∧ (∀ j < 4, s.hart.task.mayWrite (0x21FFFA + j) = true)
        ∧ (∀ j < 2, s.hart.task.mayWrite (0x21FFFE + j) = true) ∧ s.hart.task.mayWrite (0x21FFFE + 2) = false)
    ∧ (baseV 2 4).hart.inStrip = false ∧ baseStrip.hart.inStrip = true ∧ baseStrip.compute ∧ baseStrip.mayFall
    ∧ baseStrip.hart.units .b32 = 0
    ∧ (granules baseStrip.hart.strip).length ≤ baseStrip.hart.lanes * 512
    ∧ ∀ i ∈ [Instr.vst 1 3 0 .b32 0, .vsts 1 3 4 0 .b32 0, .vstx 1 3 2 0 .b32 0],
      ((baseV 2 4).vmemOp i).isSome = true ∧ (baseStrip.vmemOp i).isSome = true := by decide +kernel

/-- The first unit waits at a busy page; where it is the last access below the threshold, the second does. -/
theorem witness_VectorStoresWriteUnits_pages :
    let s := x (hotter 256 (baseV 2 4)) 3 0x210000
    let r := x (hotter 255 (baseV 2 4)) 3 0x210000
    (baseV 2 4).unworn 4 ∧ s.outside ∧ (∀ j < 16, s.hart.task.mayWrite (0x210000 + j) = true)
      ∧ (List.range 4).filter (s.does 0 4) = [0, 1, 2, 3] ∧ s.atBusy s.hart.task.asid 0x210000 4 = true
      ∧ r.outside ∧ (List.range 4).filter (r.does 0 4) = [0, 1, 2, 3] ∧ r.atBusy r.hart.task.asid 0x210000 4 = false
      ∧ r.translates 0x210000 4
      ∧ (r.wrote 0x210000 ((r.hart.getV 1).getN 0 4) (r.hart.effClass 0)).atBusy r.hart.task.asid 0x210004 4 = true := by decide +kernel

theorem witness_FaultOnlyFirstLoads :
    let s := x (baseV 2 4) 3 0x21FFF8
    let first := x (baseV 2 4) 3 0x21FFFE
    s.compute ∧ s.mayFall ∧ s.unworn 4 ∧ (∀ k < 2, s.translates (s.getX 3 + BitVec.ofNat 64 (k * 4)).toNat 4)
      ∧ (∀ j < 8, s.hart.task.mayRead (0x21FFF8 + j) = true) ∧ s.hart.task.mayRead 0x220000 = false
      ∧ first.compute ∧ ((List.range (first.hart.units .b32)).filter (first.on 0 (first.hart.units .b32))).head? = some 0
      ∧ ((List.range 4).find? fun j => !first.hart.task.mayRead (0x21FFFE + j)) = some 2 := by decide +kernel

theorem witness_ScratchpadVectorAccesses :
    let good := x (x (baseV 2 4) 2 128) 6 8
    let bad := x (x (baseV 2 4) 2 128) 6 16
    let work := entry 1 0 (.copy [⟨.mem 0x200000, .sp 128 2 0 0, 4⟩]) 0
    let pending := { good with hart := { good.hart with copies := [work] } }
    let stopped := { good with others := [{ Hart.reset ⟨0, 1, 0, false⟩ with bound := true, stopping := true, copies := [work] }] }
    good.compute ∧ good.mayFall ∧ good.how = .whole ∧ good.outside ∧ rotOk 2 128 4 = true
      ∧ 128 + good.hart.units .b32 * 4 ≤ 2 ^ 21
      ∧ good.copyPending good.nextName [128, 129] = false ∧ (x (baseV 2 4) 2 (2 ^ 21 - 16)).hart.units .b32 * 4 = 16
      ∧ 16 ≤ (bad.getX 6).toNat ∧ bad.outside
      ∧ rotOk 0 (2 ^ 21 - 8) 4 = true ∧ 2 ^ 21 < 2 ^ 21 - 8 + (x (baseV 2 4) 2 (2 ^ 21 - 8)).hart.units .b32 * 4
      ∧ (x (baseV 2 4) 2 (2 ^ 21 - 8)).outside
      ∧ pending.copyPending pending.nextName ((List.range 16).map (spByte 2 128 0)) = true
      ∧ pending.copyPending 1 ((List.range 16).map (spByte 2 128 0)) = false
      ∧ (match pending.drainCluster with
          | .ok u => u.copyPending pending.nextName ((List.range 16).map (spByte 2 128 0)) == false
            && decide (u.hart = { pending.hart with copies := u.hart.copies })
          | .error _ => false) = true
      ∧ stopped.copyPending stopped.nextName ((List.range 16).map (spByte 2 128 0)) = true
      ∧ (match stopped.drainCluster with
          | .ok u => u.copyPending stopped.nextName ((List.range 16).map (spByte 2 128 0))
          | .error _ => false) = true := by decide +kernel

/-- With one filled entry in delivery queue 4, whose cap is `cap`. -/
def queued (cap : Nat) : State :=
  let s := baseV 2 32
  { s with cluster := { s.cluster with
      queues := s.cluster.queues.set 4 [{ id := 1, owner := 5, bytes := some (List.replicate 128 7) }]
      qcap := s.cluster.qcap.set 4 cap } }

theorem witness_DeliveryQueuePops :
    let empty := { queued 1 with cluster := { (queued 1).cluster with queues := (queued 1).cluster.queues.set 4 [] } }
    let behind := { queued 1 with cluster := { (queued 1).cluster with
      poppers := (queued 1).cluster.poppers.set 4 [{ name := ⟨0, 1, 0, false⟩, need := 1 }] } }
    (queued 1).compute ∧ (queued 1).mayFall ∧ ((queued 1).hart.units .b32 * 4 + 127) / 128 = 1
      ∧ ((queued 1).cluster.queues.get 4).length = 1 ∧ (queued 1).cluster.qcap.get 4 = 1
      ∧ (∀ e ∈ (queued 1).cluster.queues.get 4, (e.bytes.getD []).length = 128) ∧ ((queued 1).cluster.poppers.get 4).head? = none
      ∧ ((queued 1).hart.units .b64 * 8 + 127) / 128 = 2
      ∧ empty.hart.copies = [] ∧ empty.others = [] ∧ empty.hart.name.cluster = empty.cluster.num
      ∧ (empty.cluster.queues.get 4).length < 1
      ∧ (behind.cluster.poppers.get 4).head? = some { name := ⟨0, 1, 0, false⟩, need := 1 } ∧ behind.hart.name ≠ ⟨0, 1, 0, false⟩ := by
  decide +kernel

theorem witness_VectorAtomics :
    let ordered := { x (baseV 2 4) 3 0x200001 with hart := { (x (baseV 2 4) 3 0x200001).hart with lent := some 1 } }
    let busy := x (hotter 256 (baseV 2 4)) 3 0x210000
    (baseV 2 4).compute ∧ (baseV 2 4).outside ∧ (baseV 2 4).mayFall ∧ (baseV 2 4).how = .whole ∧ (baseV 2 4).canWrite 0x2000C0 4
      ∧ (baseV 2 4).hart.unitsDone = [] ∧ (baseV 2 4).unworn 4 ∧ busy.how = .whole ∧ busy.atBusy busy.hart.task.asid 0x210000 4 = true
      ∧ (∀ k < 16, busy.hart.task.mayWrite (0x210000 + k) = true)
      ∧ ((baseV 2 4).getX 3 + BitVec.ofNat 64 ((baseV 2 4).ve 2 0 32)).toNat = 0x2000C0 ∧ (baseV 2 4).hart.lentE0 = false
      ∧ ((x (baseV 2 4) 3 0x200001).getX 3 + BitVec.ofNat 64 ((baseV 2 4).ve 2 0 32)).toNat % 4 ≠ 0
      ∧ (List.range ((baseV 2 4).hart.count 32)).filter ((baseV 2 4).on 0 ((baseV 2 4).hart.count 32)) = [0, 1, 2, 3]
      ∧ ordered.hart.lentE0 = true ∧ ordered.how = .whole ∧ ordered.outside ∧ ordered.compute ∧ ordered.canWrite 0x200001 4 := by
  decide +kernel

theorem witness_StripsCommitOrAbort :
    base.compute ∧ baseK.hart.level = Level.k ∧ baseK.compute ∧ baseStrip.hart.st 13 = true ∧ base.hart.st 13 = false
      ∧ base.hart.level = Level.t ∧ base.mayFall ∧ baseStrip.mayFall ∧ baseStrip.compute ∧ baseStrip.hart.level = Level.t
      ∧ baseStrip.unworn baseStrip.hart.strip.length
      ∧ (∀ b ∈ baseStrip.hart.strip, b.bypass = false ∧ baseStrip.translates b.va.toNat b.bytes.length) := by decide +kernel

theorem witness_FencesComplete :
    let e := entry 1 0 (.copy [⟨.mem 0x200000, .mem 0x200400, 64⟩]) 0
    let s := baseWith fun h => { h with copies := [e] }
    let late := { s with others := [] }
    let stored := baseWith fun h => { h with late := [.store 0x200000 [1] 3 0x100000000 0] }
    let queues := fun n => baseWith fun h => { h with vqueue := List.replicate n (h.issued (.vadd 3 1 2 0 .s32 false) [] true) }
    base.hart.vqueue = [] ∧ base.hart.late = [] ∧ stored.mayFall ∧ stored.outside ∧ stored.hart.vqueue = []
      ∧ stored.hart.late = [Late.store 0x200000 [1] 3 0x100000000 0] ∧ (8 : BitVec 16).getLsbD (3 : Fin 16).val = true
      ∧ (7 : BitVec 16).getLsbD (3 : Fin 16).val = false
      ∧ (queues 3).mayFall ∧ (queues 3).outside ∧ (queues 3).hart.vqueue ≠ [] ∧ (queues 3).hart.vqueue.length < 32
      ∧ (queues 32).outside ∧ 32 ≤ (queues 32).hart.vqueue.length
      ∧ base.mayFall ∧ base.outside ∧ base.compute ∧ baseStrip.hart.inStrip = true ∧ baseStrip.compute
      ∧ (∀ k ∈ base.hart.copies, (2 : BitVec 8).getLsbD k.queue.val = false)
      ∧ s.outside ∧ s.mayFall ∧ s.hart.copies.filter (fun k => (2 : BitVec 8).getLsbD k.queue.val) = [e]
      ∧ s.translates 0x200000 64 ∧ s.translates 0x200400 64 ∧ (∀ l ∈ s.leaves, l.aligned)
      ∧ (match late.drainAll (fun q => (2 : BitVec 8).getLsbD q.val) with | .ok u => decide u.mayFall | .error _ => false) = true := by
  decide +kernel

/-! ### Witnesses: matrix instructions -/

/-- An attached hart with four lanes, length `n` of 32-bit elements, and tiles 100 and 101 held. -/
def tiled (n : Nat) : State :=
  let s := baseV 2 n
  { s with hart := { s.hart with
      attached := true
      ctxs := [{ TileCtx.all 0x7FE00000 .absent with
        tiles := (((Vector.replicate 256 Tile.absent).set 100 (.clean [(0, 1)])).set 101 (.dirty [(0, 2)])).set 200 .undefined }]
      task := { s.hart.task with grants := { num := none, first := 0x7FE0, pages := 16, write := true } :: s.hart.task.grants } } }

/-- A carve-out of the tests' tenant: two ways of die 0. -/
def carve : Carve := { handle := 0x4008000, tenant := 3, bytes := [(0, 1)] }

theorem witness_MatrixMultiplies :
    base.hart.attached = false ∧ base.compute ∧ (tiled 0).hart.attached = true ∧ (tiled 0).hart.len = 0 ∧ (tiled 0).mayFall
      ∧ (tiled 33).compute ∧ ((tiled 33).hart.len + fmtCap .f32 - 1) / fmtCap .f32 = 2 ∧ 100 + 2 - 1 ≤ 255
      ∧ walkTiles 100 2 = [100, 101] ∧ (∀ q ∈ [(100 : TReg), 101, 0, 254, 255], (tiled 33).tileReady q)
      ∧ (tiled 33).tileMay 0 true = true ∧ (tiled 33).mayFall
      ∧ pitchOk (8 * 2 ^ 4) 128 = true ∧ (∀ m < 2, ∀ j < 32, pitchedRow (8 * 2 ^ 4) 128 m j + 128 ≤ 2 ^ 21)
      ∧ ({ tiled 33 with carves := [carve] } : State).carve? 0x4008000 = some carve ∧ 1 + 1 * (2 - 1) + 31 < carve.rows := by
  decide +kernel

theorem witness_MatrixMultiplies_turns :
    (tiled 33).how = .whole ∧ (tiled 33).slotsFor (2 + 2 + 2) ∧ (inPart (tiled 33)).slotsFor (2 + 2 + 2)
      ∧ (kSteps .f32 (tiled 33).hart.len (tiled 33).hart.start)[2]? = some 2 ∧ (tiled 33).hart.lentE0 = false
      ∧ (∀ q ∈ [(0 : TReg), tileAfter 0 1], q ∉ walkTiles 100 2 ∧ q ∉ walkTiles 254 2) ∧ 254 + 2 - 1 ≤ 255 := by
  decide +kernel

theorem witness_AttachmentAndTileStates :
    (tiled 33).compute ∧ (tiled 33).mayFall ∧ (tiled 33).tileMay 7 true = true ∧ (tiled 33).tileMay 7 false = true
      ∧ (tiled 33).hart.tile 7 = Tile.absent ∧ (tiled 33).slotsFor 1 ∧ ((tiled 33).hart.tile 100).held = true
      ∧ (baseWith fun h => { h with task := { h.task with grants := [] } }).tileMay 7 true = false := by decide +kernel

theorem witness_TileMovesAndTransposes :
    (tiled 33).compute ∧ (tiled 33).mayFall ∧ (tiled 33).tileReady 7 ∧ (tiled 33).tileReady 200 ∧ (tiled 33).tileMay 101 true = true
      ∧ (tiled 33).slotsFor 2 := by decide +kernel

theorem witness_TileLoadsAndStores :
    let s := x (x (tiled 33) 5 0x200080) 6 128
    let sp := x (x (tiled 33) 5 128) 6 (8 * 2 ^ 4)
    let top := x (x (tiled 33) 5 (2 ^ 21 - 4096)) 6 0
    let past := x (x (tiled 33) 5 (2 ^ 21 - 128)) 6 (8 * 2 ^ 4)
    s.compute ∧ s.mayFall ∧ (∀ r < 32, s.canRead (s.getX 5 + BitVec.ofNat 64 r * s.getX 6).toNat 128)
      ∧ (∀ r < 32, s.canWrite (s.getX 5 + BitVec.ofNat 64 r * s.getX 6).toNat 128) ∧ s.tileMay 7 true = true
      ∧ s.tileReady 7 ∧ s.roomForAll [] 0 ∧ s.slotsFor 1 ∧ sp.slotsFor 1 ∧ (s.getX 6).toNat % 4 = 0 ∧ (sp.getX 6).toNat < 2 ^ 36
      ∧ pitchOk (sp.getX 6).toNat 128 = true ∧ (∀ j < 32, pitchedRow (sp.getX 6).toNat 128 0 j + 128 ≤ 2 ^ 21)
      ∧ sp.copyPending sp.nextName ((List.range 32).flatMap (pitchedBytes (sp.getX 6).toNat 128 0)) = false ∧ sp.outside
      ∧ pitchOk 0 (top.getX 5).toNat = true ∧ (∀ j < 32, pitchedRow 0 (top.getX 5).toNat 0 j + 128 ≤ 2 ^ 21)
      ∧ s.unworn 33 ∧ s.hart.unitsDone = [] ∧ s.how = .whole ∧ (3 : Nat) % 4 ≠ 0 ∧ pitchOk (8 * 2 ^ 4) (2 ^ 21 - 128) = true ∧ past.outside
      ∧ 2 ^ 21 < pitchedRow (8 * 2 ^ 4) (2 ^ 21 - 128) 0 1 + 128
      ∧ (∀ j < 32, 2 ^ 21 < pitchedRow (8 * 2 ^ 4) (2 ^ 21 - 128) 0 j + 128 →
        max (pitchedRow (8 * 2 ^ 4) (2 ^ 21 - 128) 0 1) (2 ^ 21) 
          ≤ max (pitchedRow (8 * 2 ^ 4) (2 ^ 21 - 128) 0 j) (2 ^ 21)) := by decide +kernel

theorem witness_TileRowsAndVectorRegisters :
    (tiled 33).compute ∧ (tiled 33).mayFall ∧ rowSelOk (31 + 7 * 2 ^ 8) (tiled 33).hart.lanes = true
      ∧ rowSelOk (31 + 2 ^ 16) (tiled 33).hart.lanes = false ∧ (tiled 33).slotsFor 2 ∧ (tiled 33).tileReady 100 ∧ (tiled 33).tileMay 100 true = true := by
  decide +kernel

/-- With an epilogue descriptor of two FP32 rows, no bias, scale 1, at 0x202000, its address in x5, the destination in x6. -/
def epilogue : State :=
  x (x (poke (tiled 33) 0x12000
    (leBytes 8 0 ++ leBytes 4 0x3F800000 ++ leBytes 1 0 ++ leBytes 1 0 ++ leBytes 2 2 ++ leBytes 8 256 ++ leBytes 8 0))
    5 0x202000) 6 0x211000

theorem witness_EpilogueStoresRows :
    epilogue.compute ∧ epilogue.outside ∧ epilogue.mayFall ∧ epilogue.hart.attached = true ∧ (epilogue.getX 5).toNat % 32 = 0
      ∧ epilogue.slotsFor 1 ∧ epilogue.canRead 0x202000 32 ∧ epiOk (epilogue.seesNow 0x202000 32) = true ∧ field (epilogue.seesNow 0x202000 32) 14 2 = 2
      ∧ field (epilogue.seesNow 0x202000 32) 0 8 = 0 ∧ epilogue.canRead 0x201000 128
      ∧ epilogue.canWrite 0x211000 (epiRowBytes 0) ∧ epilogue.canWrite 0x211100 (epiRowBytes 0) ∧ epilogue.tileReady 100
      ∧ epilogue.hart.unitsDone = [] ∧ epilogue.unworn 35 ∧ epilogue.how = .whole
      ∧ (match epilogue.epiData 0x202000 with | .ok r => r.1 == epilogue.seesNow 0x202000 32 ++ List.replicate 128 0 | .error _ => false)
        = true := by
  decide +kernel

theorem witness_TileSends :
    let s := x (x (tiled 33) 5 0x1403) 6 77
    s.compute ∧ s.outside ∧ s.mayFall ∧ s.slotsFor 1 ∧ s.tileReady 100 ∧ (s.ownWindow (s.getX 5)).isSome = true
      ∧ (s.getX 5).toNat < 2 ^ 24 ∧ (s.getX 6).toNat < 2 ^ 21 ∧ s.isAbsent (rawPeer (s.getX 5)) = false
      ∧ s.ownWindow 0x2403 = none ∧ 2 ^ 24 ≤ (0x40001403 : Word).toNat ∧ (s.ownWindow 0x40001403).isSome = true
      ∧ 2 ^ 21 ≤ (0x200000 : Word).toNat
      ∧ ({ s with absent := [rawPeer (s.getX 5)] } : State).isAbsent (rawPeer (s.getX 5)) = true := by decide +kernel

/-! ### Witnesses: copies and queues -/

/-- Length 32 of 32-bit elements, x5 and x6 the destination and source, x7 the control word or record. -/
def copying (dst src c : Word) : State := x (x (x (baseV 2 32) 5 dst) 6 src) 7 c

theorem witness_CopiesAreAccepted :
    let s := copying 0x200100 0x200800 0
    let r := poke (copying 0x200100 0x201000 0x202020) 0x12020
      (leBytes 8 0 ++ leBytes 4 3 ++ leBytes 4 0 ++ leBytes 8 256 ++ leBytes 8 (2 ^ 64 - 64))
    let g := poke (copying 0x200100 0x201000 0x202020) 0x12020 (leBytes 8 0 ++ leBytes 8 0x211000 ++ leBytes 16 0)
    let t := { poke (copying 0x200100 0x4008000 0x202020) 0x12020 (leBytes 4 5 ++ leBytes 4 1 ++ leBytes 8 256 ++ leBytes 16 0) with
      carves := [carve] }
    s.outside ∧ s.mayFall ∧ s.hasRoom 3 = true ∧ s.hart.copyBytes = 128
      ∧ (∀ cw ∈ [0, 5, 10, 15], cwRot cw ≠ 3 ∨ cw = 15) ∧ cwRot 8 = 2 ∧ cwDir 3 = 3
      ∧ copySide s.hart.task.mayWrite (dirDst (cwDir 0)) 128 0x200100 ∧ copySide s.hart.task.mayRead (dirSrc (cwDir 0)) 128 0x200800
      ∧ copySide s.hart.task.mayWrite true 128 (BitVec.ofNat 64 (2 ^ 21 - 128))
      ∧ rotOk 2 128 s.hart.copyWidth = true ∧ (copying 0x200100 0x200800 8).hart.copyBytes = 128
      ∧ r.hasRoom 3 = true ∧ r.canRead 0x202020 32 ∧ field (r.seesNow 0x202020 32) 8 4 = 3 ∧ field (r.seesNow 0x202020 32) 0 8 = 0
      ∧ field (r.seesNow 0x202020 32) 12 4 = 0
      ∧ g.hasRoom 3 = true ∧ g.canRead 0x202020 32 ∧ field (g.seesNow 0x202020 32) 8 8 = 0x211000
      ∧ g.canRead 0x211000 (4 * g.hart.copyLen) ∧ field (g.seesNow 0x202020 32) 16 8 = 0 ∧ field (g.seesNow 0x202020 32) 24 8 = 0
      ∧ t.canRead 0x202020 32 ∧ t.carve? (t.getX 6) = some carve
      ∧ regionOk (t.seesNow 0x202020 32) t.hart.copyBytes 0x200100 t.hart.copyWidth = true
      ∧ field (t.seesNow 0x202020 32) 0 4 + t.hart.copyBytes / 128 ≤ carve.rows ∧ field (t.seesNow 0x202020 32) 5 1 = 0
      ∧ (baseV 2 5).hart.copyBytes % 128 ≠ 0 := by
  decide +kernel

/-- With `n` entries of a stopped hart of the core in the engine queues, x5 holding `dst`. -/
def crowdedPool (n : Nat) (dst : Word := 0x200100) : State :=
  { copying dst 0x200800 0 with
    hart := { (copying dst 0x200800 0).hart with task := { base.hart.task with eqMin := 0 } }
    others := [{ Hart.reset ⟨0, 0, 1, false⟩ with
      bound := true, stopping := true, copies := List.replicate n (entry 3 0 (.fill (.mem 0x200000) 3 9) 0) }] }

theorem witness_CopiesAreAccepted_waits :
    (baseV 2 0).hart.copyBytes = 0 ∧ (baseV 2 0).outside ∧ (crowdedPool 512).outside ∧ (crowdedPool 512).mayFall
      ∧ (crowdedPool 512).hart.copyBytes ≠ 0 ∧ (crowdedPool 512).hasRoom 3 = false
      ∧ (match (crowdedPool 512).drainCluster with | .ok t => !t.hasRoom 3 | .error _ => false) = true := by decide +kernel

theorem witness_QueueFillsAndTableLoads :
    let s := copying 15 0x201000 0
    let full := { s with cluster := { s.cluster with qcap := s.cluster.qcap.set 15 0 } }
    s.outside ∧ s.mayFall ∧ (s.getX 7).toNat = 0 ∧ (s.getX 5).toNat ≤ 15 ∧ copySide s.hart.task.mayRead false 128 0x201000
      ∧ copySide s.hart.task.mayRead true 128 (BitVec.ofNat 64 (2 ^ 21 - 128)) ∧ cwDir 3 = 3 ∧ rotOk (cwRot 11) 128 16 = true
      ∧ s.hasSlot 15 = true ∧ s.hasRoom 3 = true ∧ full.hasSlot 15 = false
      ∧ ((crowdedPool 512 15).getX 5).toNat ≤ 15 ∧ (crowdedPool 512 15).outside ∧ (crowdedPool 512 15).mayFall
      ∧ copySide (crowdedPool 512 15).hart.task.mayRead false 128 0x200800
      ∧ (crowdedPool 512 15).hasSlot 15 = true ∧ (crowdedPool 512 15).hasRoom 3 = false
      ∧ (match (crowdedPool 512 15).drainCluster with | .ok t => !t.hasRoom 3 | .error _ => false) = true
      ∧ (0x20FF80 : Word).toNat % 128 = 0 ∧ s.canRead 0x20FF80 1040 ∧ (0x20FF81 : Word).toNat % 128 ≠ 0 := by decide +kernel

/-! ### Witnesses: phasers, tasks -/

/-- A hart of another core. -/
def other (k : Nat) : HartName := ⟨k / 32, 1 + k / 8 % 3, k % 8, false⟩

/-- A member of a phaser, at phases `sig` and `wt`, that waits for nothing. -/
def member (o : HartName) (m : PhMode) (sig wt : BitVec 32) : Machine.Member :=
  { owner := o, hartid := 0, mode := m, sig := sig, wt := wt, waiting := false, signalled := false, stall := none, woke := none }

/-- The phaser 7 of the tests' launch at counter 5 with given members, its handle in x5. -/
def phased (ms : List Machine.Member) : State :=
  x { base with phasers := [{ handle := 7, launch := 7, counter := 5, members := ms }] } 5 7

/-- The hart in front of the tests. -/
def me : HartName := ⟨0, 0, 0, false⟩

theorem witness_PhaserCreationAndMembership :
    let s := phased [member (other 1) .signalWait 5 5]
    let mine := phased [member me .signalWait 5 5]
    let few := phased ((List.range 255).map fun k => member (other k) .waitOnly 5 5)
    let full := phased ((List.range 256).map fun k => member (other k) .waitOnly 5 5)
    let woke := baseWith fun h => { h with phWoke := some 9 }
    base.hart.name = me ∧ s.outside ∧ s.mayFall ∧ s.hart.phWoke = none ∧ s.freeIndexes (s.hart.name.cluster / 48 % 4) ≠ []
      ∧ s.phaser? 9 = none ∧ (s.phaser? (s.getX 5)).isSome = true ∧ woke.hart.phWoke = some 9 ∧ woke.mayFall ∧ woke.outside
      ∧ (few.phasers.all fun p => p.members.length == 255 && !p.members.any fun k => k.owner == me) = true
      ∧ (full.phasers.all fun p => p.members.length == 256 && !p.members.any fun k => k.owner == me) = true
      ∧ (mine.phasers.all fun p => p.members.any fun k => k.owner == me) = true
      ∧ (s.phasers.all fun p => p.members.any fun k => k.owner == me) = false := by decide +kernel

/-- Every index of die 0 taken. -/
def noIndex : State :=
  { base with phasers := (List.range 4096).map fun k => { handle := BitVec.ofNat 32 k, launch := 7, counter := 0, members := [] } }

theorem witness_PhaserCreationAndMembership_full : noIndex.freeIndexes (noIndex.hart.name.cluster / 48 % 4) = [] := by
  have h0 : noIndex.hart.name.cluster / 48 % 4 = 0 := by decide +kernel
  rw [h0]
  simp only [State.freeIndexes, List.filter_eq_nil_iff, List.mem_range, Bool.not_eq_true, Bool.not_eq_false', noIndex, List.any_map,
    List.any_eq_true, Function.comp_apply, Bool.and_eq_true, beq_iff_eq]
  exact fun k hk => ⟨k, by simpa using hk, by simp [bits]; omega, by simp [bits]; omega⟩

theorem witness_PhaserSignalsAndWaits :
    let s := phased [member me .signalWait 5 5]
    let wait := phased [member me .waitOnly 5 5]
    let signal := phased [member me .signalOnly 5 5]
    let ahead := phased [member me .signalWait 6 5, member (other 1) .signalWait 5 5]
    let late := phased [member me .waitOnly 5 4]
    let two := phased [member me .signalWait 5 5, member (other 1) .signalWait 5 5]
    let found := fun (t : State) (k : Machine.Member) =>
      (match t.phaser? (t.getX 5) with
        | some p => decide (p.members.find? (fun k => k.owner == t.hart.name) = some k)
        | none => false)
    s.outside ∧ s.mayFall ∧ s.hart.phWoke = none ∧ phAfter 5 5 = false ∧ phAfter 6 5 = true ∧ phAfter 5 4 = true
      ∧ found s (member me .signalWait 5 5) = true ∧ found wait (member me .waitOnly 5 5) = true
      ∧ found signal (member me .signalOnly 5 5) = true ∧ found ahead (member me .signalWait 6 5) = true
      ∧ found late (member me .waitOnly 5 4) = true ∧ found two (member me .signalWait 5 5) = true
      ∧ (∀ p ∈ s.phasers, ((Phaser.advance { p with
            members := [{ member me .signalWait 6 5 with signalled := true, waiting := true }] }).members.map (·.woke)) = [some 6])
      ∧ (∀ p ∈ two.phasers, ((Phaser.advance { p with
            members := [{ member me .signalWait 6 5 with signalled := true, waiting := true }, member (other 1) .signalWait 5 5]
            }).members.map (·.woke)) = [none, none])
      ∧ phAfter 5 5 = false := by decide +kernel

theorem witness_GroupMembersAreRead : base.compute ∧ base.outside ∧ base.mayFall := by decide +kernel

/-- A task record of count `n` at 0x202000, its address in x5. -/
def posting (n : Nat) : State :=
  x (poke base 0x12000 (leBytes 8 0x100000000 ++ leBytes 8 0x77 ++ leBytes 8 0 ++ leBytes 8 1 ++ leBytes 8 1 ++ leBytes 4 n
    ++ leBytes 4 8 ++ leBytes 1 2 ++ leBytes 1 16 ++ leBytes 1 2 ++ leBytes 1 0 ++ leBytes 2 0x1234 ++ leBytes 10 0)) 5 0x202000

/-- A record of the tests' launch on chip in partition 0, of priority `p`. -/
def stood (p : Nat) : TaskRec :=
  { id := 90, launch := 7, cluster := 0, entry := 0x100000000, args := 0, key := 0, argstride := 0, count := 3, next := 0
    priority := p, lanes := 16, preempt := 1, classmap := 0x1234, ranges := [], places := [], spilled := false }

theorem witness_PostAddsTasks :
    let full := { posting 3 with queue := List.replicate 255 (stood 3) ++ [stood 1, stood 1] }
    base.compute ∧ base.hart.st 13 = false ∧ base.mayFall ∧ (x base 5 0x202008 |>.getX 5).toNat % 64 ≠ 0
      ∧ baseStrip.compute ∧ baseStrip.hart.st 13 = true
      ∧ ({ baseStrip with hart := { baseStrip.hart with level := .k } } : State).hart.st 13 = true
      ∧ 256 ≤ (onChip full.queue (full.partitionOf 0)).length ∧ full.queue[255]? = some (stood 1) ∧ (stood 1).spilled = false
      ∧ (stood 1).cluster = full.partitionOf 0 ∧ (∀ y ∈ full.queue, (stood 1).priority ≤ y.priority)
      ∧ (∀ y ∈ full.queue.take 255, (stood 1).priority < y.priority)
      ∧ (posting 3).canRead 0x202000 64 ∧ (posting 3).hart.task.mayPost ((posting 3).seesNow 0x202000 64) = true
      ∧ field ((posting 3).seesNow 0x202000 64) 40 4 = 3 ∧ (posting 0).hart.task.mayPost ((posting 0).seesNow 0x202000 64) = true
      ∧ field ((posting 0).seesNow 0x202000 64) 40 4 = 0 ∧ (onChip (posting 3).queue 0).length < 256
      ∧ (posting (2 ^ 24 + 1)).hart.task.mayPost ((posting (2 ^ 24 + 1)).seesNow 0x202000 64) = false := by decide +kernel

theorem witness_TaskExitEndsTheTask :
    let claiming := baseWith fun h => { h with clstat := 0x30001 }
    let lost := baseWith fun h => { h with copies := [entry 1 0 (.copy [⟨.mem 0x200000, .mem 0x900000, 64⟩]) 0] }
    base.compute ∧ baseStrip.hart.st 13 = true ∧ baseStrip.compute ∧ base.hart.st 13 = false ∧ claiming.hart.st 13 = false
      ∧ (match base.drainAll (fun _ => true) with | .ok d => d.hart.clstat.toNat % 8 != 1 | .error _ => false) = true
      ∧ (match claiming.drainAll (fun _ => true) with | .ok d => d.hart.clstat.toNat % 8 == 1 | .error _ => false) = true
      ∧ lost.hart.st 13 = false ∧ (match lost.drainAll (fun _ => true) with | .ok _ => false | .error _ => true) = true := by
  decide +kernel

/-! ### Witnesses: remote operations and claims -/

/-- Window 5 of package 3 from byte 64 on, as a window word. -/
def window5 : Word := 0x40001403

theorem witness_RemotePutsTakeATokenAndEnterOrder :
    let s := x (x (x (baseV 2 5) 5 window5) 6 0x200100) 7 0
    let full := { s with hart := { s.hart with tokens := Vector.replicate 64 ⟨1, .accepted, 0, false, 0⟩ } }
    let carrying := fun st : TokSt =>
      x { s with hart := { s.hart with tokens := s.hart.tokens.set 1 ⟨1, st, 0, false, 40⟩, tokPtr := 2 } } 7 65
    let refused := x s 6 0x21FFF8
    (∀ j < 8, refused.hart.task.mayRead (0x21FFF8 + j) = true) ∧ refused.hart.task.mayRead (0x21FFF8 + 8) = false ∧ refused.outside
      ∧ s.compute ∧ s.outside ∧ s.mayFall ∧ s.hart.copyBytes = 20 ∧ (baseV 2 0).hart.copyBytes = 0 ∧ s.ownWindow 0x2403 = none
      ∧ (s.ownWindow window5).isSome = true ∧ s.canRead 0x200100 20 ∧ s.carriedTokens 7 = []
      ∧ s.isAbsent (rawPeer window5) = false ∧ s.hart.pickSlot = some 0 ∧ full.hart.pickSlot = none
      ∧ ({ s with absent := [rawPeer window5] } : State).isAbsent (rawPeer window5) = true
      ∧ (∀ st ∈ [TokSt.pending, .accepted, .expired],
        (carrying st).hart.pickSlot = some 2 ∧ (carrying st).carriedTokens 7 = [65] ∧ (carrying st).hart.tokIs st 65 = true) := by
  decide +kernel

theorem witness_RemoteGetsSendARequest :
    let s := x (x (baseV 2 5) 5 window5) 6 0x200100
    s.compute ∧ s.outside ∧ s.mayFall ∧ (∀ k < s.hart.copyBytes, s.hart.task.mayWrite ((s.getX 6).toNat + k) = true)
      ∧ s.ownWindow 0x2403 = none ∧ (s.ownWindow window5).isSome = true ∧ 0 < s.hart.copyBytes ∧ (baseV 2 0).hart.copyBytes = 0
      ∧ s.isAbsent (rawPeer window5) = false ∧ ({ s with absent := [rawPeer window5] } : State).isAbsent (rawPeer window5) = true := by decide +kernel

theorem witness_RemoteAtomicsAndReductionsAsk :
    let s := x (x (x (baseV 2 5) 5 window5) 6 0x210000) 7 0x28
    s.compute ∧ s.outside ∧ s.mayFall ∧ s.ownWindow 0x2403 = none ∧ (s.ownWindow window5).isSome = true
      ∧ (amoCode ((s.getX 7).toNat % 32)).isSome = true ∧ (s.getX 7).toNat < 64 ∧ rawOff window5 % 8 = 0
      ∧ s.isAbsent (rawPeer window5) = false ∧ amoCode 31 = none ∧ rawOff 0x41001403 % 4 ≠ 0
      ∧ ({ s with absent := [rawPeer window5] } : State).isAbsent (rawPeer window5) = true
      ∧ (∀ k < 4 * s.hart.len, s.hart.task.mayWrite ((s.getX 6).toNat + k) = true) ∧ ldredOk 2 7 = false
      ∧ ldredOk 0 (1 + 7 * 2 ^ 24) = true ∧ s.groupMembers 2 = [] ∧ s.groupMembers 1 ≠ []
      ∧ s.translates (s.getX 6).toNat (4 * s.hart.len) := by decide +kernel

theorem witness_RemoteWaitsAndTokenStatus :
    base.compute ∧ base.outside ∧ base.mayFall ∧ base.window? 7 9 = none ∧ (base.window? 7 5).isSome = true
      ∧ (base.window? 7 6).isSome = true ∧ ((4 : BitVec 32) - 5).msb = true ∧ ((4 : BitVec 32) - 4).msb = false := by decide +kernel

/-- The record of a claim that the hart's task heard, on 0x200108 for group 1. -/
def heard : ClaimRec :=
  { owner := me, hartid := 0, cluster := 0, closesAt := 50, isOpen := true
    prop := { src := ⟨1, 3⟩, task := 8, tenant := 3, job := 2, addr := 0x200108, value := 5, window := 2000, seq := 5, prio := 9, group := 1
              cls := 0 } }

theorem witness_ClaimsPropose :
    let s := x base 7 1
    let again := { s with hart := { s.hart with checked := true, clstat := 0x30001 } }
    s.compute ∧ s.outside ∧ s.mayFall ∧ s.hart.checked = false ∧ groupValid s.hart.task.groups 1 = true
      ∧ groupValid base.hart.task.groups 2 = false ∧ (0x200101 : Word).toNat % 8 ≠ 0 ∧ 2 ^ 16 ≤ (0x10001 : Word).toNat
      ∧ (∀ k < 8, s.hart.task.mayWrite (0x200100 + k) = true) ∧ s.openRecords 0x200100 = []
      ∧ s.hart.clstat.toNat % 8 ≠ 1 ∧ s.claims = [] ∧ s.flintHeld = true ∧ { s with flintHeld := false }.flintHeld = false
      ∧ again.hart.checked = true ∧ again.hart.clstat.toNat % 8 = 1
      ∧ ({ s with records := [heard] }).openRecords 0x200108 = [heard] ∧ heard.prop.tenant = s.hart.task.tenant
      ∧ heard.prop.job = s.hart.task.job ∧ heard.prop.group = 1
      ∧ ({ s with records := [{ heard with prop := { heard.prop with job := 9 } }] }).openRecords 0x200108
        = [{ heard with prop := { heard.prop with job := 9 } }] := by decide +kernel

theorem witness_ObjectionsAndClaimWaits :
    let s := { base with records := [heard] }
    let late := { s with cluster := { s.cluster with refTick := 50 } }
    s.compute ∧ s.outside ∧ s.mayFall ∧ 256 ≤ (256 : Word).toNat ∧ (0x200108 : Word).toNat % 8 = 0
      ∧ s.recOpen heard = true ∧ late.recOpen heard = false ∧ s.hart.clstat.toNat % 8 ≠ 1
      ∧ (baseWith fun h => { h with clstat := 0x30001 }).hart.clstat.toNat % 8 = 1 := by decide +kernel

theorem witness_DeadlineSteps :
    base.compute ∧ base.mayFall ∧ base.hart.step = none
      ∧ (baseWith fun h => { h with step := some ⟨100, 5⟩ }).hart.step = some ⟨100, 5⟩ := by decide +kernel

/-! ### Witnesses: engines, pre-emption, the governor -/

/-- Tile 0 being filled, tile 1 Dirty and being spilled, tile 2 Clean, tile 3 Dirty; one queued copy. -/
def engines : State :=
  let s := tiled 33
  { s with hart := { s.hart with
      ctxs := [{ TileCtx.all 0x7FE00000 .absent with
        tiles := (((Vector.replicate 256 Tile.absent).set 1 (.dirty [(0, 2)])).set 2 (.clean [])).set 3 (.dirty [(1, 1)]) }]
      transfers := [⟨0x7FE00000, 0, false, false⟩, ⟨0x7FE00000, 1, true, false⟩]
      copies := [entry 1 0 (.copy [⟨.mem 0x200000, .mem 0x200400, 64⟩]) 0, entry 2 0 (.fill (.mem 0x200000) 3 9) 0,
        entry 3 0 (.writing [⟨.mem 0x200500, [(0, 1), (1, 2)]⟩, ⟨.mem 0x200510, [(0, 3)]⟩]) 5] } }

theorem witness_EnginesCopyFillAndSpill :
    engines.hart.bound = true ∧ engines.hart.stopping = false
      ∧ engines.hart.copies.find? (fun e => e.queue == 1) = some (entry 1 0 (.copy [⟨.mem 0x200000, .mem 0x200400, 64⟩]) 0)
      ∧ engines.hart.copies.find? (fun e => e.queue == 2) = some (entry 2 0 (.fill (.mem 0x200000) 3 9) 0)
      ∧ engines.hart.copies.find? (fun e => e.queue == 3) = some (entry 3 0 (.writing [⟨.mem 0x200500, [(0, 1), (1, 2)]⟩, ⟨.mem 0x200510, [(0, 3)]⟩]) 5)
      ∧ (match engines.writeGranules engines.hart.task.asid [⟨.mem 0x200500, [(0, 1), (1, 2)]⟩] with
          | .ok r => r.2.isEmpty
          | .error _ => false) = true
      ∧ (match (hotter 256 engines).writeGranules engines.hart.task.asid [⟨.mem 0x210500, [(0, 1)]⟩] with
          | .ok r => r.2.length == 1
          | .error _ => false) = true
      ∧ (hotter 256 engines).granuleBusy engines.hart.task.asid ⟨.mem 0x210500, [(0, 1)]⟩ = true ∧ engines.unworn 12
      ∧ engines.translates 0x200000 64 ∧ engines.translates 0x200400 64 ∧ engines.translates 0x200000 128
      ∧ (∀ l ∈ engines.leaves, l.aligned) ∧ (0x200400 : Word).toNat % 16 = 0 ∧ 16 * 3 < 64 ∧ engines.slotsFor 1 := by
  decide +kernel

theorem witness_EnginesCopyFillAndSpill_tiles :
    let lost := { engines with leaves := [fetchLeaf] }
    engines.hart.transfer? 0 false = some ⟨0x7FE00000, 0, false, false⟩ ∧ engines.hart.tileIn 0x7FE00000 0 = some Tile.absent
      ∧ engines.translates (backing 0x7FE00000 0) tileSize
      ∧ (engines.hart.ctxs.find? fun c => match c.tiles.get 3 with | .dirty _ => true | _ => false).isSome = true
      ∧ (⟨0x7FE00000, 3, true, false⟩ : Transfer) ∉ engines.hart.transfers
      ∧ engines.hart.transfer? 1 true = some ⟨0x7FE00000, 1, true, false⟩
      ∧ engines.hart.tileIn 0x7FE00000 1 = some (Tile.dirty [(0, 2)]) ∧ engines.translates (backing 0x7FE00000 1) tileSize
      ∧ lost.hart.transfer? 1 true = some ⟨0x7FE00000, 1, true, false⟩
      ∧ (match lost.runs lost.hart.task.asid (backing 0x7FE00000 1) tileSize with | .ok _ => false | .error _ => true) = true
      ∧ (engines.hart.ctxs.find? fun c => match c.tiles.get 2 with | .clean _ => true | _ => false).isSome = true := by
  decide +kernel

/-- Above every listed byte a store reads zeros. -/
theorem getN_above (b : Bytes) (a n : Nat) (h : ∀ c ∈ b, c.1 < a) : b.getN a n = Bytes.getN [] 0 n := by
  rw [Bytes.getN_eq, Bytes.getN_eq]
  refine List.map_congr_left fun i _ => ?_
  rw [Bytes.get_not_mem b (a + i) (fun q => by obtain ⟨c, hc, e⟩ := List.mem_map.1 q; have := h c hc; omega)]
  rfl

/-- The backing of tile 2 is as the tile is. -/
theorem witness_EnginesCopyFillAndSpill_same : engines.reads (backing 0x7FE00000 2) tileSize = Bytes.getN [] 0 tileSize := by
  have hk : engines.keys (backing 0x7FE00000 2) tileSize = [(0x202000, tileSize)] := by decide +kernel
  have hr := getN_above engines.mem 0x202000 tileSize (by decide +kernel)
  have hl : engines.lines = [] := by decide +kernel
  generalize engines = s at hk hr hl
  rw [State.reads, hl, hk, ← hr]
  simp [Bytes.getRuns]

theorem witness_EnginesCopyFillAndSpill_slots :
    let a := backing 0x7FE00000 2
    let other := poke engines (0x200000 + 0x2000) [7]
    let fixed := { other with hart := { other.hart with task := { other.hart.task with grants := [] } } }
    (engines.hart.ctxs.find? fun c => match c.tiles.get 2 with | .clean _ => true | _ => false).map (·.base) = some 0x7FE00000
      ∧ engines.hart.tileIn 0x7FE00000 2 = some (Tile.clean []) ∧ engines.translates a tileSize
      ∧ (other.reads a tileSize).head? ≠ (Bytes.getN [] 0 tileSize).head?
      ∧ other.hart.tileIn 0x7FE00000 2 = some (Tile.clean []) ∧ other.translates a tileSize ∧ other.hart.task.mayWrite a = true
      ∧ (fixed.reads a tileSize).head? ≠ (Bytes.getN [] 0 tileSize).head? ∧ fixed.hart.task.mayWrite a = false
      ∧ fixed.translates a tileSize := by
  decide +kernel

theorem witness_DeadlineInterruptIsTaken :
    (baseWith fun h => { h with status := 0x700 }).attend = Attend.interrupt := by decide +kernel

/-- The tests' tenant stopped since tick 0, command 4 owed, or as given. -/
def tenantIn (q : QState) (owed : Option (BitVec 32)) : Tenant :=
  { id := 3, q := q, stoppedAt := 0, stopper := ⟨0, 0, 0, false⟩, owed := owed, images := 6, lastImage := 0 }

theorem witness_PreemptionStopsAndParks :
    let s := { base with tenants := [tenantIn .stopped (some 4)] }
    let p := after (exec .preemptionRequest s)
    let waits := { p with hart := { p.hart with await := some (.ramo 7 none true 7 5 1 3) } }
    let free := { base with hart := { base.hart with stopping := true } }
    s.hart.bound = true ∧ s.hart.stopping = false ∧ s.mayPreempt = true ∧ p.hart.bound = true ∧ p.hart.stopping = true
      ∧ p.mayLeave = true ∧ (match p.settleLeave p.hart.vqueue.length with | .ok _ => true | .error _ => false) = true
      ∧ waits.hart.stopping = true ∧ waits.mayLeave = false
      ∧ free.mayLeave = true ∧ (match free.settleLeave free.hart.vqueue.length with | .ok u => u.tenants.isEmpty | .error _ => false) = true := by
  decide +kernel

/-- `s` with the area of its hart written under sequence `n`. -/
def writtenArea (s : State) (n : Nat) : State :=
  { s with mem := s.mem.place (s.areaKey s.hart.task.ckpt) s.hart.areaSize (s.hart.area n s.grant) }

/-- Where memory holds what the area should, nothing is left to stream. -/
theorem nothing_left (t : State) (m b : Bytes) (hm : t.mem = m.place (t.areaKey t.hart.task.ckpt) t.hart.areaSize b)
    (ha : t.areaNow = b) (hz : t.hart.areaSize % 128 = 0) : t.unwritten = none := by
  rw [State.unwritten, List.find?_eq_none]
  intro g hg
  have hg := List.mem_range.1 hg
  simp only [State.granuleWritten, ha, Bool.not_eq_true', Bool.not_eq_false, beq_iff_eq, Bytes.getN_eq]
  refine List.map_congr_left fun i hi => ?_
  have hi := List.mem_range.1 hi
  rw [hm, Bytes.get_place, if_pos (by omega)]
  congr 1
  omega

/-- Where the sequence is read back, nothing of that area is left to stream. -/
theorem nothing_unwritten (s : State) (n : Nat)
    (h : (writtenArea s n).mem.val ((writtenArea s n).areaKey s.hart.task.ckpt + 8) 8 = n) (hz : s.hart.areaSize % 128 = 0) :
    (writtenArea s n).unwritten = none := by
  refine nothing_left _ s.mem (s.hart.area n s.grant) rfl ?_ hz
  unfold State.areaNow
  rw [show (writtenArea s n).hart = s.hart from rfl, h]
  rfl
theorem witness_PreemptionStopsAndParks_granules :
    base.unwritten = some 0 ∧ (writtenArea baseAh 1).mem.val ((writtenArea baseAh 1).areaKey baseAh.hart.task.ckpt + 8) 8 = 1
      ∧ baseAh.hart.areaSize % 128 = 0 := by
  decide +kernel

theorem witness_RetentionExitRestores :
    let s := { base with ckpts := [(0x5000, 3, base.hart)] }
    s.hart.bound = true ∧ s.hart.name.cluster = s.cluster.num
      ∧ (∀ o ∈ s.others, o.name.cluster = s.hart.name.cluster → o.bound = false)
      ∧ s.ckptAt s.hart.task.ckpt = some (0x5000, 3, base.hart) ∧ [me].contains s.hart.name = true
      ∧ base.hart.name = s.hart.name ∧ base.hart.task.serial = s.hart.task.serial
      ∧ s.poolHolds (s.abandon.hart.fromCheckpoint base.hart) = true
      ∧ (let many := { base.hart with copies := List.replicate 600 (entry 3 0 (.fill (.mem 0x200000) 3 9) 0) }
        let t := { base with ckpts := [(0x5000, 3, many)] }
        t.ckptAt t.hart.task.ckpt = some (0x5000, 3, many) ∧ t.poolHolds (t.abandon.hart.fromCheckpoint many) = false)
      ∧ base.ckptAt base.hart.task.ckpt = none := by decide +kernel

theorem witness_GovernorStepsAct :
    let s := { base with cluster := { base.cluster with refTick := 4096, gov := { base.cluster.gov with target := some 3 } } }
    let late := baseWith fun h => { h with step := some ⟨0, 0x7FFFFFFF⟩, retired := 0 }
    base.heatSure + base.heatElsewhere ≤ 12800 ∧ 4096 ≤ (s.cluster.refTick - s.cluster.gov.last).toNat ∧ s.cluster.gov.target = some 3
      ∧ (base.cluster.refTick - base.cluster.gov.last).toNat < 4096
      ∧ (s.cluster.gov.history.filter id).length ≤ 30 ∧ 0 < (1 : Nat) ∧ pointTokens 0 ≤ 7
      ∧ late.hart.meets 4096 4096 1600 15 = false := by decide +kernel

/-- What the scalar stream of the tests' hart has left. -/
def leaving (ls : List Late) : State := baseWith fun h => { h with late := ls }

theorem witness_QueuedEffectsArrive :
    let st := fun (c : Fin 16) (va : Word) => Late.store va [1, 2, 3] c 0x100000000 0
    let s := leaving [st 0 0x210000, st 0 0x20FFF0, st 3 0x200000]
    let f := leaving [st 0 0x210000, .fence 1 true 0x100000004 0, st 0 0x200000, st 3 0x200040]
    let lost := leaving [st 0 0x900000]
    let young := baseWith fun h => { h with
      late := [.store 0x200000 [1] 0 0x100000000 1], vqueue := [h.issued (.vldx 1 3 2 0 .b32 0) [] false] }
    let strip := { baseStrip with hart := { baseStrip.hart with late := [st 0 0x200000] } }
    s.hart.bound = true ∧ s.hart.late[0]? = some (st 0 0x210000) ∧ s.translates 0x210000 3
      ∧ s.hart.late[1]? = some (st 0 0x20FFF0) ∧ (st 0 0x210000).ordered (st 0 0x20FFF0) = true
      ∧ s.hart.late[2]? = some (st 3 0x200000) ∧ s.translates 0x200000 3
      ∧ (∀ k ∈ s.hart.late.take 2, k.ordered (st 3 0x200000) = false)
      ∧ f.releaseFences.hart.late[1]? = some (Late.fence 1 true 0x100000004 0)
      ∧ (Late.fence 1 true 0x100000004 0).ordered (st 0 0x200000) = true
      ∧ (∀ k ∈ f.hart.late.take 3, k.ordered (st 3 0x200040) = false) ∧ f.translates 0x200040 3
      ∧ lost.hart.bound = true ∧ lost.hart.late[0]? = some (st 0 0x900000) ∧ s.outside ∧ lost.outside
      ∧ young.hart.late[0]? = some (.store 0x200000 [1] 0 0x100000000 1) ∧ (∃ q ∈ young.hart.vqueue.take 1, q.sure = false)
      ∧ strip.hart.inStrip = true ∧ strip.hart.bound = true ∧ strip.hart.late[0]? = some (st 0 0x200000) ∧ strip.hart.vqueue = []
      ∧ (match lost.runs lost.hart.task.asid 0x900000 3 with | .ok _ => false | .error _ => true) = true := by decide +kernel

/-- `s` with one instruction of it in the vector queue, the hart having gone on. -/
def queuing (i : Instr) (s : State) : State :=
  { s with hart := { s.hart with pc := s.hart.pc + 4, vqueue := [s.hart.issued i [] true] } }

/-- That instruction, at its retirement. -/
def retiring (i : Instr) (s : State) : State := (queuing i s).atQueued (s.hart.issued i [] true)

theorem witness_QueuedEffectsArrive_queue :
    let empty := { queued 1 with cluster := { (queued 1).cluster with queues := (queued 1).cluster.queues.set 4 [] } }
    let ran := fun (i : Instr) (s : State) (on : Bool) => match runQueued i (retiring i s) with
      | some (.next t) => t.hart.bound && t.hart.level == s.hart.level && ((t.hart.pc != s.hart.pc) == on)
          && t.hart.loops == s.hart.loops
      | _ => false
    (queuing (.vadd 3 1 2 0 .s32 false) (baseV 2 4)).hart.bound = true ∧ (baseV 2 4).compute
      ∧ (queuing (.vadd 3 1 2 0 .s32 false) (baseV 2 4)).hart.vqueue = [(baseV 2 4).hart.issued (.vadd 3 1 2 0 .s32 false) [] true]
      ∧ (Instr.vadd 3 1 2 0 .s32 false).wf = true ∧ (retiring (.vadd 3 1 2 0 .s32 false) (baseV 2 4)).mayFall
      ∧ ((retiring (.vadd 3 1 2 0 .s32 false) (baseV 2 4)).intVecOp (.vadd 3 1 2 0 .s32 false)).isSome = true
      ∧ (let s := retiring (.vst 1 3 0 .b32 0) (baseV 2 4)
        (s.vmemOp (.vst 1 3 0 .b32 0)).isSome = true ∧ s.outside ∧ s.mayFall ∧ s.hart.units .b32 = 4
          ∧ (List.range 4).filter (s.does 0 4) = [0, 1, 2, 3] ∧ (∀ k < 4, s.canWrite (0x2000C0 + 4 * k) 4) ∧ s.unworn 4
          ∧ s.mayLead (.vst 1 3 0 .b32 0) [2, 3] = true ∧ (x s 4 0).mayLead (.vsts 1 3 4 0 .b32 0) [2] = false)
      ∧ (retiring (.fence true 8 1) (baseV 2 4)).mayFall
      ∧ ran (.vadd 3 1 2 0 .s32 false) (baseV 2 4) true = true ∧ ran (.qld 1 4 0 .b32) empty false = true := by decide +kernel

/-! ### Witnesses: the host's commands -/

/-- A command of the tests' tenant. -/
def cmd (n : BitVec 32) : Cmd := { seq := n, tenant := 3, job := 2, badReserved := false }

theorem witness_CommandsOutOfSequenceAreDropped : (cmd 2).seq ≠ base.cmdSeq + 1 ∧ (cmd 0).seq ≠ base.cmdSeq + 1 := by decide +kernel

/-- A mapping of a page at 0x300000. -/
def mapping : MapCmd := { ctxId := 11, level := 3, va := 0x300000, pte := 0xC000000000500000 }

theorem witness_MappingCommandsInstallAndRemove :
    let s := base
    let l := leafOf 0x300000 0xC000000000600000
    let m1 := { s with leaves := l :: s.leaves }
    let bad := { cmd 1 with badReserved := true }
    (cmd 1).seq = s.cmdSeq + 1 ∧ (cmd 1).badReserved = false ∧ bad.badReserved = true ∧ s.idsFree ⟨40, 41⟩ = true
      ∧ s.entryOk { mapping with va := 0x300001 } = false ∧ s.entryOk mapping = true ∧ mapping.ctxId ≠ 0 ∧ mapping.va < 2 ^ 56
      ∧ s.asidOf mapping.ctxId = some 1 ∧ s.asidOf 12 = none ∧ s.freeAsid = some 2
      ∧ (∀ l ∈ s.leaves, l.touches 1 mapping.va (levelSize mapping.level) = false)
      ∧ s.synonym 1 mapping.va mapping.level mapping.pte = false ∧ s.synonym 1 0x300000 3 0xC000000000010000 = true
      ∧ s.exactLeaf mapping = none
      ∧ (m1.leaves.find? fun k => k.touches 1 0x300000 (levelSize 3)) = some l
      ∧ m1.exactLeaf mapping = some l ∧ l.asid ≠ 0
      ∧ m1.leased 1 3 0x300000 (levelSize 3) = false ∧ m1.synonym 1 0x300000 3 mapping.pte = false
      ∧ m1.synonym 1 0x300000 3 0xC000000000010000 = true ∧ s.leased 1 3 0x200000 (levelSize 3) = true
      ∧ { s with mapPending := [{ cmd := 8 }] }.mapPending = { cmd := 8 } :: [] := by decide +kernel

theorem witness_MappingCommandsInstallAndRemove_shared :
    let va := 2 ^ 56 + 0x300000
    let m : MapCmd := { ctxId := 0, level := 3, va := va, pte := 0xC000000000600000 }
    let l : Leaf := { asid := 0, level := 3, va := va, pte := 0xC000000000600000, tenants := [4], accesses := 0 }
    let two := { l with tenants := [4, 3] }
    let s := { base with leaves := [l] }
    let t := { base with leaves := [two] }
    s.entryOk m = true ∧ (s.leaves.find? fun k => k.touches 0 va (levelSize 3)) = some l ∧ l.tenants.contains (cmd 1).tenant = false
      ∧ (t.leaves.find? fun k => k.touches 0 va (levelSize 3)) = some two ∧ two.tenants.contains (cmd 1).tenant = true
      ∧ s.exactLeaf m = some l ∧ t.exactLeaf m = some two ∧ t.leased 0 3 va (levelSize 3) = false
      ∧ (two.tenants.filter (· != (cmd 1).tenant)) ≠ [] ∧ (∃ k ∈ two.tenants, k ≠ (cmd 1).tenant) := by decide +kernel

/-- An image file up to its signature: the header of R42, a section table of one entry, and 16 bytes of an exec alloc section at
0x1_0000_0000. -/
def imageBody : List Byte :=
  leBytes 4 0x00464F53 ++ leBytes 2 1 ++ leBytes 2 2 ++ leBytes 2 64 ++ leBytes 2 64 ++ leBytes 4 1 ++ leBytes 8 64
    ++ leBytes 4 0 ++ leBytes 4 0 ++ leBytes 8 0 ++ leBytes 8 144 ++ leBytes 4 0x00314748 ++ List.replicate 12 0
    ++ (leBytes 4 0 ++ leBytes 4 1 ++ leBytes 8 5 ++ leBytes 8 0x100000000 ++ leBytes 8 128 ++ leBytes 8 16 ++ List.replicate 24 0)
    ++ List.replicate 16 7

/-- The digest of the key registered for the tests' tenant. -/
def aKey : List Byte := List.replicate 64 9

/-- The image file with its signature. -/
def image : List Byte := imageBody ++ (aKey ++ (sha3 imageBody ++ Config.mlDsaSign aKey (sha3 imageBody)))

theorem image_length : image.length = 144 + sofSigSize := by
  simp [image, length_sha3, length_mlDsaSign, sofSigSize, show imageBody.length = 144 by decide +kernel,
    show aKey.length = 64 by decide +kernel]

/-- With the image at 0x900000 of this package, its key registered, and the pages mapped for the tenant. -/
def launching : State :=
  { base with
    mem := base.mem.put (0 * 2 ^ 40 + 0x900000) image, registered := [(3, aKey)]
    leaves := base.leaves.map fun l => { l with tenants := [3] } }

/-- A launch of that image with count `n`. -/
def launchOf1 (ctx : BitVec 32) (n : BitVec 32) : LaunchReq :=
  { ctxId := ctx, imageFid := 0, imageAddr := 0x900000, imageLen := image.length
    desc := { record.desc with count := n, lanes := 4 }, mbox := record.mbox, leaseName := 1, lease := record.lease, groups := []
    windows := record.windows }

/-- The image is at its endpoint, its signature is accepted, and R42 and R43 accept the file. -/
theorem witness_LaunchAnswersOrStarts_image :
    launching.outsideN 0 0x900000 image.length = image ∧ sofAccepted launching.registered 3 image = true
      ∧ sofHeaderOk image = true ∧ sofTypesOk image = true := by
  have hl := image_length
  have hb : imageBody.length = 144 := by decide +kernel
  refine ⟨?_, ?_, ?_, by decide +kernel⟩
  · have h := State.outsideN_put launching base.mem 0 0x900000 0 image.length image rfl (by omega) (by simp only [hl, sofSigSize]; omega)
    simpa using h
  · have hs : sofSig image = some (aKey ++ (sha3 imageBody ++ Config.mlDsaSign aKey (sha3 imageBody))) := by
      have hf : field image 40 8 = 144 := by decide +kernel
      have h1 : sofSigned image = true := by decide +kernel
      simp only [sofSig, hf, h1, hl]
      simp only [image, List.drop_left' hb]
      simp
    have hf : field image 40 8 = 144 := by decide +kernel
    simp only [sofAccepted, hs, hf]
    simp only [image, List.take_left' hb]
    exact signedBy_signed aKey imageBody _ (by decide +kernel) (by decide +kernel)
  · have h1 : decide (64 ≤ image.length) = true := by rw [hl]; decide
    simp only [sofHeaderOk, h1]
    decide +kernel

theorem witness_LaunchAnswersOrStarts :
    let c := { cmd 1 with job := 5 }
    let s := launching
    let r := launchOf1 11 3
    let st := fun (r : LaunchReq) => ({ s with cmdSeq := 1 } : State).launchStatus c true (launchRecord r image)
    s.idsFree ⟨40, 41⟩ = true ∧ c.seq = s.cmdSeq + 1 ∧ c.badReserved = false ∧ s.usable = true ∧ s.configured = true
      ∧ s.quiet c.tenant = false ∧ r.imageFid = s.fid ∧ st r = 0 ∧ st (launchOf1 12 3) = 0 ∧ st (launchOf1 11 0) = 0
      ∧ st (launchOf1 0 3) ≠ 0 ∧ (s.spaceFor 11 0).isSome = true ∧ 0 < r.desc.count.toNat
      ∧ ((neededPages (launchRecord r image)).filter fun a => !s.resident ((s.asidOf 11).getD 0) c.tenant a) = []
      ∧ ((neededPages (launchRecord (launchOf1 12 3) image)).filter fun a => !s.resident ((s.asidOf 12).getD 0) c.tenant a) ≠ []
      ∧ ({ s with tenants := [tenantIn .stopped none] } : State).quiet 3 = true
      ∧ ({ s with absent := [9] } : State).isAbsent 9 = true ∧ s.isAbsent 9 = false
      ∧ sofAccepted s.registered 3 [] = false := by decide +kernel

theorem witness_LaunchAnswersOrStarts_refused :
    sofHeaderOk [] = false ∧ sofTypesOk (imageBody.take 68 ++ [12] ++ imageBody.drop 69) = false := by decide +kernel

theorem witness_PageAnswersAndMailboxWrites :
    let asking := { launch with id := 8, job := 9, owed := some 77, requests := [⟨5, 0, true⟩] }
    let asks := fun l : Launch => l.owed.isSome && l.tenant == (cmd 1).tenant && l.record.ctxId == 11
      && l.requests.any fun q => q.seq == 5
    (cmd 1).seq = base.cmdSeq + 1 ∧ (cmd 1).badReserved = false ∧ base.launches.find? asks = none
      ∧ [launch, asking].find? asks = some asking ∧ base.launch? 7 = some launch ∧ launch.tenant = (cmd 1).tenant
      ∧ launch.owed = none ∧ base.launch? 8 = none ∧ asking.owed ≠ none := by decide +kernel

theorem witness_CarveOutsAndPoolLimits :
    let idle := baseWith fun h => { h with bound := false }
    let copying1 := baseWith fun h => { h with copies := [entry 1 0 (.copy [⟨.ts 0x4008000 0, .mem 0x200000, 128⟩]) 0] }
    (cmd 1).seq = base.cmdSeq + 1 ∧ base.someRun 1 17 = false ∧ base.someRun 1 3 = true ∧ base.runOk 1 2 3 = true
      ∧ (∀ h ∈ base.hart :: base.others ++ base.parked, h.usesCarve carve.handle = false)
      ∧ copying1.hart.usesCarve carve.handle = true
      ∧ ([carve].any fun v => v.handle == carve.handle && v.tenant == (cmd 1).tenant) = true
      ∧ (base.carves.any fun v => v.handle == carve.handle && v.tenant == (cmd 1).tenant) = false
      ∧ base.hart.bound = true ∧ base.hart.name.cluster = 0
      ∧ (∀ h ∈ idle.hart :: idle.others, h.bound = true → h.name.cluster ≠ 0) ∧ (idle.clusterAt 0).tenant = some (cmd 1).tenant
      ∧ (({ idle with cluster := { idle.cluster with tenant := some 4 } } : State).clusterAt 0).tenant = some 4
      ∧ ((idle.clusterAt 0).giveTo 3).limitsBad 3 5 50 = false ∧ ((idle.clusterAt 0).giveTo 3).limitsBad 3 9 8 = true := by
  decide +kernel

theorem witness_CommandWindowAndAttestation :
    let s := base.post 5 (.status 1 2 3 4)
    let find := fun (s : State) (k : Nat) => s.completions.reverse.find? fun (x : Completion) => x.seq == 1 + BitVec.ofNat 32 k
    let x : Completion := { seq := 1, cmd := 5, body := .status 1 2 3 4 }
    (cmd 1).seq = s.cmdSeq + 1 ∧ 13 < (14 : BitVec 16).toNat ∧ 4 < (5 : BitVec 8).toNat
      ∧ 4096 < (s.compSeq + 1 - 7).toNat ∧ (s.compSeq + 1 - 1).toNat = 1 ∧ [x].length = 1
      ∧ (∀ k < 1, [x][k]? = find s k) ∧ (∃ k < 1, find { s with completions := [] } k = none) := by decide +kernel

/-- An unbound hart for which a record, or a context that left it, waits. -/
def waitingFor (again : Bool) : State :=
  let r : TaskRec :=
    { id := 90, launch := 7, cluster := 0, entry := 0x100000000, args := 0x5000, key := 0, argstride := 0xFFFFFFFF, count := 3, next := 2
      priority := 2, lanes := 16, preempt := 1, classmap := 0x1234, ranges := [], places := [], spilled := false }
  { base with
    hart := Hart.reset base.hart.name, parked := if again then [base.hart] else [], queue := if again then [] else [r]
    cluster := { base.cluster with tenant := some 3 } }

/-- The same, the hart being an access hart and the record one for it. -/
def waitingAh : State :=
  let s := waitingFor false
  { s with
    hart := Hart.reset { base.hart.name with ah := true }
    queue := s.queue.map fun r => { r with entry := 0x100000001 } }

/-- What obsidian chooses for a task of the partition `p`. -/
def choice (p : Fin 4) : BindChoice := ⟨p, 2, 0, 0x10000000, 992, 3, 5, 0x90000⟩

/-- The first waiting task is a record of the tests' launch: `ok` suits it, `bad` is ignored, and `wait` could not be made. -/
def freshSuits (s : State) (ok bad wait : BindChoice) : Bool :=
  match firstBest s.waiting with
  | some (.fresh r) =>
    let w := Waiting.fresh r
    !choiceIgnored ok (w.code s.hart.name) && choiceIgnored bad (w.code s.hart.name) && !choiceIgnored wait (w.code s.hart.name)
      && s.launch? r.launch == some launch && s.freshOk launch r ok && !s.freshOk launch r wait
  | _ => false

/-- The first waiting task is a context that left its hart, which `choice 0` suits. -/
def againSuits (s : State) (holds : Bool) : Bool :=
  match firstBest s.waiting with
  | some (.again h) =>
    !choiceIgnored (choice 0) ((Waiting.again h).code s.hart.name) && s.poolHolds (s.again h (choice 0).eqMin (choice 0).eqCap) == holds
  | _ => false

theorem witness_BindingEntersOrResumes :
    let full := { waitingFor true with
      others := [{ Hart.reset ⟨0, 0, 1, false⟩ with bound := true, copies := List.replicate 500 (entry 3 0 (.fill (.mem 0x200000) 3 9) 0) }] }
    (waitingFor false).hart.bound = false ∧ (waitingFor false).usable = true ∧ (waitingFor false).compute
      ∧ (waitingFor false).usedClusters.contains (waitingFor false).hart.name.cluster = true
      ∧ freshSuits (waitingFor false) (choice 1) (choice 2) { choice 1 with frame := 1 } = true
      ∧ freshSuits (waitingFor false) (choice 1) { choice 1 with priority := 48 } { choice 1 with ckpt := 0x1 } = true
      ∧ waitingAh.hart.bound = false ∧ waitingAh.usedClusters.contains waitingAh.hart.name.cluster = true
      ∧ freshSuits waitingAh (choice 0) { choice 0 with reserved := 1 } { choice 0 with ckpt := 0x10000 } = true
      ∧ againSuits (waitingFor true) true = true ∧ againSuits full false = true
      ∧ (waitingFor false).leafAt launch.asid (choice 0).backing = none := by decide +kernel

/-- The cluster's next task is one that waits for the hart in front, one that waits for another hart, or none. -/
theorem witness_BindingEntersOrResumes_next :
    let s := waitingFor false
    let elsewhere := { s with queue := s.queue.map fun r => { r with places := [⟨0, 1, 0, false⟩] } }
    let here := fun (s : State) => match s.nextTask with | some w => some (s.waiting.contains w) | none => none
    here s = some true ∧ here (waitingFor true) = some true ∧ here waitingAh = some true
      ∧ here elsewhere = some false ∧ elsewhere.hart.bound = false ∧ here { s with queue := [] } = none := by decide +kernel

/-! ### Witnesses: quiesce, restore, power, migration -/

/-- A stopped tenant whose one task's context has left its hart. -/
def stoppedTenant : State :=
  { base with tenants := [tenantIn .stopped none], hart := Hart.reset base.hart.name, parked := [base.hart] }

theorem witness_QuiesceCommands :
    (cmd 1).seq = base.cmdSeq + 1 ∧ (base.tenant 3).q = QState.running ∧ (stoppedTenant.tenant 3).q ≠ QState.running
      ∧ (stoppedTenant.tenant 3).owed = none ∧ stoppedTenant.fid = 0 ∧ stoppedTenant.isAbsent 9 = false
      ∧ ({ stoppedTenant with absent := [9] } : State).isAbsent 9 = true ∧ 9 ≠ stoppedTenant.fid
      ∧ ({ stoppedTenant with tenants := [tenantIn .stopped (some 4)] } : State).tenant 3 = tenantIn .stopped (some 4) := by
  decide +kernel

/-- A claim of the hart in front, at the end of its wait at tick 100. -/
def open1 : OpenClaim :=
  { owner := me, serial := 5, asid := 1, tenant := 3, cluster := 0, prop := { heard.prop with src := ⟨0, 0⟩ }, endsAt := 100, rival := none
    winner := none, objector := none, aborted := false, storing := false }

/-- A running tenant with an open claim and an open record. -/
theorem witness_QuiesceCommands_stop :
    let s := { base with claims := [open1], records := [heard] }
    (s.tenant 3).q = QState.running ∧ ((s.hart :: s.others).map (·.name)).Nodup
      ∧ (∀ h ∈ s.hart :: s.others, h.vqueue = [] ∧ h.late = []) ∧ s.hart.bound = true ∧ s.hart.task.tenant = 3 ∧ open1.tenant = 3
      ∧ s.hart.task.serial = open1.serial ∧ s.recOpen heard = true ∧ heard.prop.tenant = 3 := by decide +kernel

theorem witness_QuiesceTokensSettle :
    let t := tenantIn .stopped (some 4)
    let s := { base with tenants := [t], cluster := { base.cluster with refTick := 100000 } }
    s.tenants.find? (fun t => t.id == 3) = some t ∧ t.q ≠ QState.running ∧ t.owed.isSome = true
      ∧ notYet (t.stoppedAt + 100000) (s.clusterAt t.stopper.cluster).refTick = false := by decide +kernel

/-- The content of an image of the tests' tenant that uses one cluster and holds no launch. -/
def emptyImage : Image :=
  { seq := 1, base := 0, incremental := false, tenant := 3, capture := 0, map := List.range 192, used := [0], launches := []
    queue := [], contexts := [], areas := [], clusters := [], phasers := [], carves := [], pages := [], spaces := [] }

/-- Its signature part, under the key of the tests. -/
def emptySig : List Byte := aKey ++ (sha3 emptyImage.body ++ Config.mlDsaSign aKey (sha3 emptyImage.body))

/-- Its sections, the signature last. -/
def emptySections : List DsiSection := emptyImage.sections ++ [{ type := 15, unit := 0, payload := fitTo sofSigSize emptySig }]

theorem aKey_length : aKey.length = 64 := by decide +kernel

theorem emptySig_length : emptySig.length = sofSigSize := by
  simp [emptySig, length_sha3, length_mlDsaSign, sofSigSize, aKey_length]

theorem emptySig_fits : fitTo sofSigSize emptySig = emptySig := by
  simp [fitTo, Machine.zeros, emptySig_length, List.take_of_length_le]

/-- A package with those bytes at 0x900000, the key trusted for the tenant. -/
def restoring : State :=
  { State.reset with
    mem := Bytes.put [] (0 * 2 ^ 40 + 0x900000) (emptyImage.signedBytes emptySig), images := [emptyImage], trusted := [(3, aKey)] }

theorem emptyImage_header : emptyImage.header.length = 64 := by decide +kernel

theorem emptyImage_bytes : emptyImage.signedBytes emptySig = emptyImage.header ++ written 0 emptySections := by
  simp [Image.signedBytes, Image.body, written, emptySections, List.zipIdx_append, List.append_assoc]

theorem emptyImage_body : emptyImage.body.length = 64 + (96 + 192) + 96 + 64 := by
  have h : emptyImage.body = emptyImage.header ++ written 0 emptyImage.sections := rfl
  have hs : emptyImage.sections = [{ type := 1, unit := 0, payload := (List.range 192).flatMap fun n => leBytes 1 (emptyImage.map.getD n 255) },
      { type := 8, unit := 0, payload := [] }] := by decide +kernel
  rw [h, hs]
  simp only [written, List.zipIdx_cons, List.zipIdx_nil, List.flatMap_cons, List.flatMap_nil, List.length_append, sectionBytes_length,
    emptyImage_header, List.length_nil]
  decide +kernel

/-- What is read of the bytes is what was written. -/
theorem restoring_rd (o n : Nat) (h : o + n ≤ (emptyImage.signedBytes emptySig).length) :
    restoring.imageRd 0 0x900000 o n = ((emptyImage.signedBytes emptySig).drop o).take n := by
  refine State.outsideN_put restoring [] 0 0x900000 o n _ rfl h ?_
  have hl : (emptyImage.signedBytes emptySig).length = 64 + (96 + 192) + 96 + 64 + recordsLen (96 + sofSigSize) := by
    rw [Image.signedBytes, List.length_append, emptyImage_body, sectionBytes_length]
    simp [emptySig_fits, emptySig_length]
  rw [hl, sofSigSize]; decide +kernel

/-- The sections are read back. -/
theorem emptyImage_heads : dsiSections (restoring.imageRd 0 0x900000) = some (headsFrom 64 emptySections) := by
  have hb := emptyImage_bytes
  have h0 : restoring.imageRd 0 0x900000 0 64 = emptyImage.header := by
    rw [restoring_rd _ _ (by rw [hb, List.length_append, emptyImage_header]; omega), hb, List.drop_zero,
      List.take_left' emptyImage_header]
  have hw := walkSections_written emptySections 0 emptyImage.header (restoring.imageRd 0 0x900000)
    (fun o n h => by rw [← hb] at h ⊢; exact restoring_rd o n h)
    (by decide +kernel) (by decide +kernel)
  rw [emptyImage_header, show emptySections.length = field emptyImage.header 16 4 by decide +kernel] at hw
  have hh : dsiHeaderOk emptyImage.header = true := by decide +kernel
  simp only [dsiSections, h0, hh, hw]
  decide +kernel

/-- The image is read, its signature and digests right. -/
theorem restoring_readImage : restoring.readImage 3 0 0x900000 = .ok emptyImage := by
  have hoff : (((headsFrom 64 emptySections).getLast?).map DsiHead.start).getD 0 = 512 := by decide +kernel
  have hb : emptyImage.signedBytes emptySig
      = emptyImage.body ++ (headBytes emptyImage.sections.length { type := 15, unit := 0, payload := emptySig }
        ++ (emptySig ++ Machine.zeros (recordsLen (96 + emptySig.length) - (96 + emptySig.length)))) := by
    rw [Image.signedBytes, emptySig_fits, sectionBytes_eq]
  have hl : emptyImage.body.length = 512 := emptyImage_body
  have hn : (emptyImage.signedBytes emptySig).length ≥ 512 + 96 + sofSigSize := by
    rw [hb]; simp only [List.length_append, headBytes_length, hl, emptySig_length]; omega
  have h1 : restoring.imageRd 0 0x900000 0 512 = emptyImage.body := by
    rw [restoring_rd _ _ (by omega), hb, List.drop_zero, List.take_left' hl]
  have h2 : restoring.imageRd 0 0x900000 (512 + 96) sofSigSize = emptySig := by
    rw [restoring_rd _ _ (by omega), hb, ← List.drop_drop, List.drop_left' hl, List.drop_left' (headBytes_length _ _),
      List.take_left' emptySig_length]
  have h3 : restoring.imageRd 0 0x900000 0 64 = emptyImage.header := by
    rw [restoring_rd _ _ (by omega), emptyImage_bytes, List.drop_zero, List.take_left' emptyImage_header]
  refine State.readImage_ok emptyImage_heads hoff h2 (by rw [h3]; decide +kernel)
    (State.signerOk_signed _ _ _ _ aKey_length (length_sha3 _) (List.mem_singleton.2 rfl)) ?_ ?_
  · rw [h1, emptySig]; exact (sigParts _ _ _ aKey_length (length_sha3 _)).2.1
  · rw [h1]; exact List.find?_cons_of_pos (by rw [beq_self_eq_true]; rfl)

/-- A restore of that image finds nothing against it. -/
theorem witness_RestoreRebuildsTheTenant :
    restoring.restoreStatus (cmd 1) 0 0x900000 ⟨[], false, false, []⟩ = .ok emptyImage := by
  have hc : restoring.contentStatus (cmd 1) ⟨[], false, false, []⟩ emptyImage = 0 := by decide +kernel
  simp only [State.restoreStatus, show (cmd 1).tenant = 3 from rfl, restoring_readImage, hc]
  decide +kernel

/-- An image of more pages than the package has frames. -/
def hugeImage : Image :=
  { emptyImage with
    pages := List.replicate 12000000 { ctx := 11, leaf := leafOf 0x200000 0xC000000000010000, data := [], unmapped := false } }

theorem witness_RestoreRebuildsTheTenant_short : restoring.unitsShort hugeImage [] = true := by
  have h : hugeImage.pages.length = 12000000 := List.length_replicate
  have hn : localFrames < groupFrame 0 12000000 := by decide +kernel
  have hb : ((restoring.cleared hugeImage).frameBase [] (restoring.namedFrames hugeImage) hugeImage.pages.length).isNone = true := by
    rw [Option.isNone_iff_eq_none, h, State.frameBase, List.find?_eq_none]
    intro b _
    have hl : ¬b + groupFrame 0 12000000 ≤ localFrames := by omega
    simp [State.framesFree, hl]
  rw [State.unitsShort, hb, Bool.or_true]

theorem witness_RestoreRebuildsTheTenant_other :
    (cmd 1).seq = restoring.cmdSeq + 1 ∧ restoring.mapOk emptyImage (List.range 192) = true ∧ restoring.areasOk emptyImage [] = true
      ∧ (base.launches.any fun l => l.tenant == (cmd 1).tenant) = true ∧ (base.tenant 3).q ≠ .sealed
      ∧ (restoring.launches.any fun l => l.tenant == (cmd 1).tenant) = false
      ∧ 9 ≠ restoring.fid ∧ ({ restoring with absent := [9] } : State).isAbsent 9 = true
      ∧ dsiSections (State.reset.imageRd 0 0x900000) = none
      ∧ restoring.unitsShort emptyImage [] = false
      ∧ field emptyImage.header 20 4 ≠ 4 ∧ ({ restoring with usable := false } : State).usable = false
      ∧ { emptyImage with incremental := true }.incremental = true ∧ (restoring.tenant 3).lastImage = 0 := by decide +kernel

theorem witness_PortsAndTheFlintBound :
    (1 : Fin 4).val < base.ports.get 17 ∧ base.flintHeld = true
      ∧ (∀ q : Fin 18, q.val ∉ base.withheldPorts → base.ports.get q = 4)
      ∧ (∃ k ∈ ({ base with claims := [open1] } : State).claims, k.serial = base.hart.task.serial) ∧ base.hart.bound = true := by
  decide +kernel

/-- The mode-3 page of the tests at its threshold of 256 accesses. -/
def hot : Leaf := hotAt 256

theorem witness_MigrationAndPromotion :
    let s := { base with leaves := [fetchLeaf, hot] }
    let rows := (List.range 32).map fun k => leafOf (0x400000 + k * 65536) (localEntry (100 + k) 1 true)
    let p := { base with leaves := rows }
    let far := { hot with asid := 9 }
    s.leafAt s.hart.task.asid 0x210005 = some hot ∧ pteMode hot.pte = 3 ∧ 2 ^ (pteThr hot.pte + 8) ≤ hot.accesses
      ∧ s.busyAt 0x210005 = some hot ∧ far.busy = true ∧ far.maps far.asid 0x210005 = true
      ∧ ({ base with leaves := [fetchLeaf, far] } : State).busyAt 0x210005 = some far
      ∧ s.isAbsent (ptePeer hot.pte) = false ∧ pteSkew hot.pte ≠ 3 ∧ 16 % levelFrames hot.level = 0
      ∧ s.framesFree 16 (levelFrames hot.level) = true
      ∧ 0x400000 % levelSize 2 = 0 ∧ 320 % levelFrames 2 = 0 ∧ p.framesFree 320 (levelFrames 2) = true
      ∧ p.fill 1 0x400000 3 32 = some rows ∧ rows.head?.isSome = true
      ∧ (∀ l ∈ rows, l.promotes (leafOf 0x400000 (localEntry 100 1 true))) := by
  decide +kernel

/-! ### Witnesses: the fabric -/

/-- A put from package 4 into window 5 of package 0, at byte 16. -/
def arriving : PutMsg :=
  { src := ⟨⟨4, 1⟩, 70, 9⟩, peer := 0, tenant := 3, job := 2, win := 5, off := 16, data := [1, 2, 3]
    carried := [⟨⟨4, 1⟩, 71, 9⟩], waits := [] }

/-- The target's checks of a message accept it. -/
def accepted (s : State) (m : PutMsg) : Bool :=
  match s.targetChecks m.tenant m.job m.win m.off m.data.length with | .ok _ => true | .error _ => false

/-- `n` puts in the hold queue of `m`'s station. -/
def crowded (n : Nat) (m : PutMsg) : State :=
  { base with held := List.replicate n { station := stationOf 1 (0x200000 + m.off), msg := m } }

theorem crowded_length (n : Nat) (m : PutMsg) :
    ((crowded n m).held.filter fun h => h.station == stationOf 1 (0x200000 + m.off)).length = n := by
  simp [crowded]

theorem witness_PutsArrive :
    let t : TokName := ⟨⟨4, 1⟩, 71, 9⟩
    let waits := { arriving with waits := [t] }
    arriving.peer = base.fid ∧ { arriving with peer := 1 }.peer ≠ base.fid ∧ accepted base arriving = true
      ∧ accepted base { arriving with win := 6 } = false ∧ (∀ t ∈ arriving.src :: arriving.carried, t ∉ base.expired)
      ∧ (match base.runs 1 (0x200000 + 16) 3 with | .ok _ => true | .error _ => false) = true
      ∧ accepted { base with expired := [t] } arriving = true ∧ t ∈ arriving.src :: arriving.carried
      ∧ accepted { base with leaves := [fetchLeaf] } arriving = true
      ∧ (match ({ base with leaves := [fetchLeaf] } : State).runs 1 (0x200000 + 16) 3 with | .ok _ => true | .error _ => false) = false
      ∧ (∀ t ∈ ({ arriving with waits := [] } : PutMsg).waits, t ∈ base.landed) ∧ (∃ t ∈ waits.waits, t ∉ base.landed)
      ∧ accepted base waits = true ∧ t ∈ ({ base with landed := [t] } : State).landed
      ∧ (crowded 512 arriving).fid = arriving.peer := by decide +kernel

/-- A put of this package's own task on a page that no leaf maps. -/
theorem witness_PutsArrive_noLeaf :
    let own := { arriving with src := ⟨⟨0, 0⟩, 64, 77⟩, carried := [] }
    let s := { base with leaves := [fetchLeaf] }
    accepted s own = true ∧ (match s.runs 1 (0x200000 + 16) 3 with | .error a => a == 0x200010 | .ok _ => false) = true
      ∧ s.leafAt 1 0x200010 = none := by decide +kernel

theorem witness_PutsArrive_full :
    512 ≤ ((crowded 512 arriving).held.filter fun h => h.station == stationOf 1 (0x200000 + arriving.off)).length :=
  (crowded_length 512 arriving).ge

/-- A landed token leaves one held put that waited on it alone, with its window and its bytes there. -/
theorem witness_NoticesReleaseOrDiscardHeldPuts :
    let t : TokName := ⟨⟨4, 1⟩, 71, 9⟩
    let h : Held := { station := stationOf 1 0x200010, msg := { arriving with waits := [t] } }
    let free : Held := { h with msg := { h.msg with waits := [] } }
    let other : Held := { h with msg := { h.msg with waits := [t, ⟨⟨4, 2⟩, 64, 9⟩] } }
    let clear := fun (h : Held) => { h with msg := { h.msg with waits := h.msg.waits.filter fun x => x != t } }
    (([h, other].map clear).filter fun h => h.msg.waits.isEmpty) = [free]
      ∧ (([other].map clear).filter fun h => h.msg.waits.isEmpty) = []
      ∧ accepted { base with absent := base.absent.filter fun f => f != 4 } free.msg = true ∧ h.hit t = true
      ∧ (base.reached h.msg.tenant h.msg.job h.msg.win).map (fun x => x.2.tile) = some false :=
  ⟨rfl, rfl, by decide +kernel, by decide +kernel, by decide +kernel⟩

/-- The issuer's record of a put of the tests' task, token 64, not yet accepted. -/
def sentPut : PutRec :=
  { tok := ⟨⟨0, 0⟩, 64, 77⟩, owner := 5, launch := 7, win := 6, ticket := 77, peer := 3
    msg := { src := ⟨⟨0, 0⟩, 64, 77⟩, peer := 3, tenant := 3, job := 2, win := 6, off := 0, data := [1, 2], carried := [], waits := [] }
    due := 50, cluster := 0, needs := [], sent := true, accepted := false, failed := false, expired := false, watchers := [] }

/-- The issuer's state with a put and its token slot. -/
def issuing (p : PutRec) (st : TokSt) : State :=
  { baseWith (fun h => { h with tokens := h.tokens.set 0 ⟨1, st, 0, false, 77⟩ }) with puts := [p] }

theorem witness_IssuersLearnOfTheirPuts :
    let s := issuing sentPut .pending
    let a := issuing { sentPut with accepted := true } .accepted
    let tok := sentPut.tok
    s.putOf tok = some sentPut ∧ sentPut.sent = true ∧ sentPut.failed = false
      ∧ (s.hart.tokens.get (tokSlotOf 64)).put = sentPut.ticket ∧ s.hart.tokBusy 64 = true ∧ tok.token = 64 ∧ sentPut.accepted = false
      ∧ (s.hart.tokens.get (tokSlotOf 64)).st = TokSt.pending ∧ (s.puts.find? fun q => q.tok == sentPut.msg.src) = some sentPut
      ∧ a.putOf tok = some { sentPut with accepted := true } ∧ a.hart.tokBusy 64 = true
      ∧ (a.hart.tokens.get (tokSlotOf 64)).st = TokSt.accepted
      ∧ (a.hart.tokens.get (tokSlotOf 64)).put = sentPut.ticket
      ∧ (issuing { sentPut with expired := true } .expired).putOf tok = some { sentPut with expired := true }
      ∧ (issuing { sentPut with expired := true, accepted := true } .expired).putOf tok = some { sentPut with expired := true, accepted := true }
      ∧ sentPut.expired = false := by decide +kernel

/-- The put of this package that finds no leaf is known at its issuer. -/
theorem witness_PutsArrive_issuer :
    ((issuing sentPut .pending).putOf ⟨⟨0, 0⟩, 64, 77⟩).map (·.owner) = some (issuing sentPut .pending).hart.task.serial := by decide +kernel

/-- Gets, sends and puts to a peer that becomes absent, and their answers afterwards. -/
theorem witness_AbsentPeersFailOperations_operations :
    let g : GetRec := { owner := 5, ticket := 1, launch := 7, win := 6, asid := 1, tenant := 3, peer := 3, dst := 0x200000, len := 4
                        failed := false }
    let r : SendRec := { ticket := 2, launch := 7, win := 6, peer := 3, failed := true }
    let s := { base with gets := [g] }
    let a := issuing { sentPut with accepted := true } .accepted
    s.gets.filter (fun g => g.peer == 3 && !g.failed) = [g] ∧ s.sends = [] ∧ s.puts = []
      ∧ sentPut.peer = 3 ∧ sentPut.sent = true ∧ sentPut.failed = false ∧ a.puts = [{ sentPut with accepted := true }]
      ∧ a.hart.tokBusy sentPut.tok.token = true ∧ (a.hart.tokens.get (tokSlotOf 64)).put = sentPut.ticket
      ∧ (a.hart.tokens.get (tokSlotOf 64)).st = .accepted
      ∧ [{ g with failed := true }].find? (fun g => g.ticket == 1) = some { g with failed := true }
      ∧ [r].find? (fun r => r.ticket == 2 && r.win == 6) = some r
      ∧ (issuing { sentPut with failed := true } .pending).putOf sentPut.tok = some { sentPut with failed := true }
      ∧ sentPut.expired = false := by decide +kernel

theorem witness_TokensExpire :
    let s := issuing sentPut .pending
    let due := { s with cluster := { s.cluster with refTick := 50 } }
    s.putOf sentPut.tok = some sentPut ∧ s.hart.tokBusy 64 = true ∧ (s.hart.tokens.get (tokSlotOf 64)).put = sentPut.ticket
      ∧ sentPut.expired = false ∧ sentPut.owner = s.hart.task.serial ∧ s.hart.bound = true
      ∧ notYet sentPut.due (s.clusterAt 0).refTick = true ∧ notYet sentPut.due (due.clusterAt 0).refTick = false := by decide +kernel

/-- A request for window 5 of package 0. -/
def asked (k : ReqKind) : RemoteReq := { src := ⟨4, 1⟩, peer := 0, tenant := 3, job := 2, win := 5, off := 16, kind := k }

/-- A tile sent to the tile window 6 of package 0, tile 9, of the hart in front. -/
def tileSent : TileMsg :=
  { src := ⟨4, 1⟩, peer := 0, tenant := 3, job := 2, win := 6, index := 9, target := base.hart.name, data := List.replicate 4096 1 }

theorem witness_TargetsServeRequests_tile : ∃ l w, base.tileChecks tileSent = .ok (l, w, base.hart) := ⟨_, _, rfl⟩

theorem witness_TargetsServeRequests :
    (asked (.get 8)).peer = base.fid
      ∧ (match base.targetChecks 3 2 5 16 8 with
          | .ok (l, w) => (match base.runs l.asid (w.base + 16) 8 with | .ok _ => true | .error _ => false)
          | .error _ => false) = true
      ∧ (match base.targetChecks 3 2 9 16 8 with | .ok _ => true | .error _ => false) = false
      ∧ (match ({ base with leaves := [] } : State).runs 1 (0x200000 + 16) 8 with | .ok _ => true | .error _ => false) = false
      ∧ ({ base with leaves := [] } : State).requester ⟨0, base.hart.id⟩ = some 5
      ∧ ({ base with leaves := [] } : State).leafAt 1 0x200010 = none
      ∧ tileSent.peer = base.fid ∧ tileSent.data.length = 4096
      ∧ (match base.tileChecks { tileSent with win := 5 } with | .ok _ => true | .error _ => false) = false
      ∧ base.hart.bound = true ∧ (∃ t, base.hart.tileIn base.hart.task.mapbase 9 = some t) ∧ base.slotsFor 1
      ∧ 0x1000 + 8 ≤ 768 * 10 ^ 9 := ⟨rfl, by decide +kernel, by decide +kernel, by decide +kernel, by decide +kernel, by decide +kernel, rfl,
        by decide +kernel, by decide +kernel,
        rfl, ⟨_, rfl⟩, by decide +kernel, by decide⟩

theorem witness_RemoteAnswersComplete :
    let g : GetRec := { owner := 5, ticket := 1, launch := 7, win := 5, asid := 1, tenant := 3, peer := 3, dst := 0x200000, len := 4
                        failed := false }
    let l := baseWith fun h => { h with await := some (.ldred 7 0x210000 2 0 0 0 [3]) }
    [g].find? (fun g => g.ticket == 1) = some g ∧ ([1, 2, 3, 4] : List Byte).length = g.len
      ∧ (match base.runs 1 0x200000 4 with | .ok _ => true | .error _ => false) = true
      ∧ (baseWith fun h => { h with await := some (.ramo 7 none true 7 5 1 3) }).hart.await = some (.ramo 7 none true 7 5 1 3)
      ∧ base.mayFall ∧ (List.replicate 8 (0 : Byte)).length = atomBytes true
      ∧ l.hart.await = some (.ldred 7 0x210000 2 0 0 0 [3]) ∧ l.mayFall ∧ [Reply.bytes (List.replicate (2 * ldredBytes 0) 0)].length = 1
      ∧ l.translates 0x210000 8
      ∧ ([({ ticket := 1, launch := 7, win := 5, peer := 3, failed := false } : SendRec)].find? fun r =>
          r.ticket == 1 && r.win == 5).isSome = true := by
  decide +kernel

theorem witness_MembersRecordProposals :
    let p : Proposal := { heard.prop with src := ⟨2, 5⟩ }
    let s := { base with records := [heard] }
    base.sealed 3 = false ∧ base.hears p = true ∧ base.hardwareObjects p = Objecting.none
      ∧ base.hears { p with tenant := 4 } = false ∧ base.flintHeld = true
      ∧ { base with tenants := [tenantIn .sealed none] }.sealed 3 = true ∧ { base with flintHeld := false }.flintHeld = false
      ∧ (∃ r ∈ s.openRecords 0x200108, r.prop.group ≠ 2)
      ∧ 16 ≤ (({ base with records := List.replicate 16 heard } : State).records.filter fun r =>
          r.owner == base.hart.name && base.recOpen r).length := by
  decide +kernel

theorem witness_ClaimsEnd :
    let s := { base with claims := [open1], cluster := { base.cluster with refTick := 100 } }
    let t := { base with claims := [{ open1 with storing := true }] }
    let far := { open1 with storing := true, prop := { open1.prop with addr := 0x210008 } }
    let gone := { base with claims := [far], absent := [5], leaves := [leafOf 0x210000 0xC05C000000020000] }
    s.claims.find? (fun c => c.owner == s.hart.name && !c.storing && !notYet c.endsAt s.cluster.refTick) = some open1
      ∧ open1.serial = s.hart.task.serial ∧ s.hart.bound = true ∧ s.flintHeld = true ∧ open1.aborted = false
      ∧ open1.winner = none ∧ open1.rival = none ∧ open1.objector = none ∧ s.claimPeerAbsent open1 = false
      ∧ t.claims.find? (fun c => c.owner == t.hart.name && c.storing) = some { open1 with storing := true }
      ∧ t.claimPeerAbsent { open1 with storing := true } = false ∧ (t.leafAt 1 0x200108).isSome = true
      ∧ (∀ k ∈ [{ open1 with aborted := true }, { open1 with winner := some ⟨4, 9⟩ }, { open1 with rival := some heard.prop },
          { open1 with objector := some ⟨4, 9⟩ }],
        ({ s with claims := [k] } : State).claims.find? (fun c => c.owner == s.hart.name && !c.storing && !notYet c.endsAt s.cluster.refTick)
          = some k)
      ∧ gone.claims.find? (fun c => c.owner == gone.hart.name && c.storing) = some far
      ∧ gone.claimPeerAbsent far = true ∧ (gone.leafAt 1 0x210008).isSome = true
      ∧ ({ t with leaves := [] } : State).leafAt 1 0x200108 = none ∧ t.hart.name.cluster = t.cluster.num := by decide +kernel

/-! ### Single steps, with the results of the spec's worked examples and rules -/

/-- The state a single instruction leaves. -/
abbrev run (i : Instr) (s : State) : State := after (exec i s)

/-- A vector register of 32-bit elements. -/
def words32 (ws : List Nat) : Bytes := Bytes.put [] 0 (ws.flatMap (leBytes 4))

/-- `n` 32-bit elements are in force, v6 and v7 hold the lists given. -/
def vectors (n : Nat) (a b : List Nat) : State :=
  { baseV 2 n with hart := { (baseV 2 n).hart with v := ((baseV 2 n).hart.v.set 6 (words32 a)).set 7 (words32 b) } }

/-- The first `n` 32-bit elements of v[r]. -/
def lanes (s : State) (r : VReg) (n : Nat) : List Nat := (List.range n).map fun k => s.ve r k 32

/-- R292's worked values, and the corners of division. -/
theorem test_alu_clz_and_division_by_zero :
    (run (.clz 5 6) (x base 6 0xF00)).getX 5 = 52 ∧ (run (.div 5 6 0 true) (x base 6 0xF00)).getX 5 = BitVec.allOnes 64
      ∧ (run (.rem 5 6 0 false) (x base 6 0xF00)).getX 5 = 0xF00
      ∧ (run (.div 5 6 7 false) (x (x base 6 (1 <<< 63)) 7 (BitVec.allOnes 64))).getX 5 = 1 <<< 63
      ∧ (run (.mulh 5 6 7 false) (x (x base 6 (1 <<< 63)) 7 (1 <<< 63))).getX 5 = 1 <<< 62 := by decide +kernel

theorem test_alu_signed_and_unsigned_compare :
    (run (.slt 5 6 7 false) (x (x base 6 (BitVec.allOnes 64)) 7 1)).getX 5 = 1
      ∧ (run (.slt 5 6 7 true) (x (x base 6 (BitVec.allOnes 64)) 7 1)).getX 5 = 0
      ∧ (run (.sra 5 6 7) (x (x base 6 (1 <<< 63)) 7 127)).getX 5 = BitVec.allOnes 64
      ∧ (run (.sub 0 6 7) base).getX 0 = 0 := by decide +kernel

/-- R307's worked values. -/
theorem test_ext_and_ins :
    (run (.ext 5 6 false 3 8) (x base 6 0xA50)).getX 5 = 0xA ∧ (run (.ext 5 6 true 3 8) (x base 6 0xA50)).getX 5 = BitVec.ofInt 64 (-6)
      ∧ (run (.ins 5 6 3 60) (x (x base 5 0) 6 0xF)).getX 5 = 0xF000000000000000 := by decide +kernel

/-- R319 and R293. -/
theorem test_lui_and_immediates :
    (run (.lui 5 0x100000) base).getX 5 = 0xFFFFFFF000000000 ∧ (run (.auipc 5 0x10) base).getX 5 = 0x100100000
      ∧ (run (.andi 13 13 0xFFFF) base).getX 13 = base.getX 13 ∧ (run (.slti 5 6 0xFFFF) (x base 6 (BitVec.ofInt 64 (-2)))).getX 5 = 1 := by
  decide +kernel

/-- R296, R312, R313. -/
theorem test_branches_and_jumps :
    (run (.bltN 5 6 0x1FFF) (x (baseWith fun h => { h with pc := 0x100000040 }) 5 1)).hart.pc = 0x10000003C
      ∧ (run (.jal 1 5) base).hart.pc = 0x100000014 ∧ (run (.jal 1 5) base).getX 1 = 0x100000004
      ∧ (run (.jalr 6 6 0) (x base 6 0x100000043)).hart.pc = 0x100000040 := by decide +kernel

/-- R318's worked loops: with no inner trip, the outer end check runs at the body's last word. -/
theorem test_loop_without_trips_ends_the_outer_body :
    let s := x (baseWith fun h => { h with
      pc := 0x100000008, loopT := [{ s := 0x100000004, e := 0x100000010, count := 3 }] }) 6 0
    (run (.loop 6 2) s).hart.pc = 0x100000004
      ∧ (run (.loop 6 2) s).hart.loopT = [{ s := 0x100000004, e := 0x100000010, count := 2 }] := by decide +kernel

/-- R314's worked bytes. -/
theorem test_loads_extend :
    let s := poke base 0x10000 [0x80, 0xFF]
    (run (.ld .s8 5 0 0) (x s 0 0)).hart.bound = false
      ∧ (run (.ld .s8 5 6 0) (x s 6 0x200000)).getX 5 = 0xFFFFFFFFFFFFFF80 ∧ (run (.ld .n8 5 6 0) (x s 6 0x200000)).getX 5 = 0x80
      ∧ (run (.ld .n16 5 6 0) (x s 6 0x200000)).getX 5 = 0xFF80
      ∧ (run (.ld .s16 5 6 0) (x s 6 0x200000)).getX 5 = 0xFFFFFFFFFFFFFF80 := by decide +kernel

theorem test_store_crosses_pages :
    let t := run (.st 3 5 6 0xFFFE) (x (x base 5 0x1122334455667788) 6 0x20FFFE)
    t.mem.getN (0x10000 + 0xFFFC) 4 = [0x88, 0x77, 0x66, 0x55] ∧ t.mem.getN (3 * 2 ^ 40 + 0x20000) 4 = [0, 0, 0, 0]
      ∧ t.mem.getN 0x20000 4 = [0x44, 0x33, 0x22, 0x11] := by decide +kernel

/-- R294, R298. -/
theorem test_atomics :
    let s := x (x (x (poke base 0x10000 (leBytes 8 5)) 6 0x200000) 7 (BitVec.allOnes 64)) 5 5
    (run (.cas 5 6 7 0 true) s).getX 5 = 5 ∧ (run (.cas 5 6 7 0 true) s).mem.val 0x10000 8 = 2 ^ 64 - 1
      ∧ (run (.amoMin 5 6 7 0 true) s).mem.val 0x10000 8 = 2 ^ 64 - 1 ∧ (run (.amoMinN 5 6 7 0 true) s).mem.val 0x10000 8 = 5
      ∧ (run (.amoAdd 5 6 7 0 false) s).mem.val 0x10000 8 = 4 := by decide +kernel

/-- R305's worked accesses of `STATUS` at level T. -/
theorem test_status_at_level_t :
    let s := x (baseWith fun h => { h with status := 0x401 }) 6 0x600
    let t := run (.csrs 5 6 0x030) s
    t.getX 5 = 0x401 ∧ t.hart.status = 0x601 ∧ (run (.csrc 0 6 0x030) t).hart.status = 0x401 := by decide +kernel

/-- R207, R215: `ecall` at level T. -/
theorem test_ecall_enters_level_k :
    let t := run .ecall base
    t.hart.level = Level.k ∧ t.hart.pc = 0x100000200 ∧ t.hart.epc = 0x100000000 ∧ t.hart.cause = 2
      ∧ t.hart.status = 0x800 := by decide +kernel

/-- R212, R214, R297: `brk` at level K ends the task with `KBRK`. -/
theorem test_brk_at_level_k_ends_the_task :
    (run .brk baseK).hart.bound = false
      ∧ ((run .brk baseK).completions.any fun c => match c.body with | .termination 7 r => r.cause == 0x23 | _ => false) = true := by
  decide +kernel

/-- R64's worked pair, an interrupt between its halves. -/
theorem test_interrupt_splits_a_pair :
    let t := run .dlnRisk (baseWith fun h => { h with status := 0x700, lent := some 0x1400000, pc := 0x100000004 })
    t.hart.epc = 0x100000004 ∧ t.hart.pfxstate = 0x1400000 ∧ t.hart.st 15 = true := by decide +kernel

/-- R221's worked discard: a load outside the lease inside a strip. -/
theorem test_termination_discards_the_strip :
    let s := { x baseStrip 20 0x300000 with hart := { (x baseStrip 20 0x300000).hart with stripbase := 7 } }
    let t := run (.ld .n64 9 20 0) s
    t.mem = s.mem ∧ (t.completions.any fun c =>
      match c.body with | .termination 7 r => r.cause == 0x20 && r.stripLost && r.stripfault == 7 | _ => false) = true := by
  decide +kernel

/-- R374's worked length, with 32 lanes and with 4. -/
theorem test_vsetvli :
    (run (.vsetvli 5 3 2000) base).hart.vl = 0xC400 ∧ (run (.vsetvli 5 3 2000) base).getX 5 = 1024
      ∧ (run (.vsetvli 5 3 2000) (baseV 2 4)).getX 5 = 128 := by decide +kernel

/-- R354's worked bytes. -/
theorem test_vector_byte_operations :
    let s := { vectors 1 [0x80] [0xFF] with hart := { (vectors 1 [0x80] [0xFF]).hart with vl := vlWord 0 1 } }
    (run (.vsra 5 6 7 0 .s8 false) s).ve 5 0 8 = 0xFF ∧ (run (.vmulh 5 6 7 0 .s8 false) s).ve 5 0 8 = 0
      ∧ (run (.vmulh 5 6 7 0 .s8 true) s).ve 5 0 8 = 0x7F := by decide +kernel

/-- The worked elements of R358, R371 and R375. -/
theorem test_permutations :
    let s := vectors 6 [10, 11, 12, 13, 14, 15] [3, 0, 0, 9, 1, 1]
    let p := { s with hart := { s.hart with p := s.hart.p.set 1 [(0, 0x2D)] } }
    lanes (run (.vcompress 6 6 1 .s32) p) 6 6 = [10, 12, 13, 15, 14, 15]
      ∧ lanes (run (.vexpand 5 6 1 .s32) p) 5 6 = [10, 0, 11, 12, 0, 13]
      ∧ lanes (run (.vslideup 5 6 1 0 .s32) (x (vectors 4 [10, 11, 12, 13] []) 1 1)) 5 4 = [0, 10, 11, 12]
      ∧ lanes (run (.vperm 5 6 7 0 .s32) (vectors 4 [10, 11, 12, 13] [3, 0, 0, 9])) 5 4 = [13, 10, 10, 0] := by decide +kernel

/-- R372's worked reductions. -/
theorem test_integer_reductions :
    let s := vectors 4 [0x7FFFFFFF, 1, 0xFFFFFFFD, 5] []
    (run (.vred 5 6 .add 0 .s32 false) s).ve 5 0 32 = 0x80000002 ∧ (run (.vred 5 6 .max 0 .s32 false) s).ve 5 0 32 = 0x7FFFFFFF
      ∧ (run (.vred 5 6 .max 0 .n32 false) s).ve 5 0 32 = 0xFFFFFFFD := by decide +kernel

/-- R359's worked conversions under RNE. -/
theorem test_float_to_integer :
    let t := run (.vfcvt 5 6 0 .f32 .s32) (vectors 4 [0x40200000, 0xC0200000, 0x4F32D05E, 0x7FC00000] [])
    lanes t 5 4 = [2, 0xFFFFFFFE, 0x7FFFFFFF, 0] ∧ t.hart.status = 0x411 := by decide +kernel

/-- R360's worked fused multiply, and R363's worked sum. -/
theorem test_fused_multiply_and_exact_sum :
    let s := vectors 1 [0x3F800800] [0x3F800800]
    let m := { s with hart := { s.hart with v := s.hart.v.set 5 (words32 [0xBF800000]) } }
    (run (.vfma 5 6 7 0 .f32) m).ve 5 0 32 = 0x3A000400 ∧ (run (.vfma 5 6 7 0 .f32) m).hart.status = 0x400
      ∧ (run (.vfmul 5 6 7 0 .f32) m).hart.status = 0x401
      ∧ (run (.vfred 5 6 .sum 0 .f32) (vectors 4 [0x4B800000, 0x3F800000, 0x3F800000, 0xCB800000] [])).ve 5 0 32 = 0x40000000 := by
  decide +kernel

/-- R138's worked packing, and R139's worked product. -/
theorem test_logarithmic_blocks :
    let s := vectors 5 [0x40C00000, 0xBE99999A, 0x3F800000, 0, 0x3C000000] []
    let t := run (.vlnspack 6 6 0) s
    (t.hart.getV 6).getN 0 16 = [0xFF, 0x4E, 0x4F, 0x40, 0x10, 4, 0x41, 0x10, 4, 0x41, 0x10, 4, 0x41, 0x10, 4, 0x41]
      ∧ t.hart.status = 0x403
      ∧ ((run (.vlnsmul 6 6 6 0) t).hart.getV 6).getN 0 16
        = [2, 0x0C, 0x84, 0x41, 0x10, 4, 0x41, 0x10, 4, 0x41, 0x10, 4, 0x41, 0x10, 4, 0x41] := by decide +kernel

/-- R141's worked K-step. -/
theorem test_k_step_is_exact :
    let row := fun ws : List Nat => [[ws.flatMap (leBytes 4)]]
    (mmaElem .f32 false 8 (row [0x4B800000, 0x3F800000, 0x3F800000, 0x3F800000, 0x3F800000, 0x3F800000, 0x3F800000, 0x4B800000])
      (row [0x3F800000, 0x3F800000, 0x3F800000, 0x3F800000, 0x3F800000, 0x3F800000, 0x3F800000, 0xBF800000]) [0] 0 0 0 0).1
      = 0x40C00000 := by decide +kernel

/-- R80's worked word of stochastic rounding. -/
theorem test_mix32 : mix32 0x7A31 = 0x7520ABAC := by decide +kernel

/-- R324's worked elements. -/
theorem test_epilogue_elements :
    let d := leBytes 8 0x201000 ++ leBytes 4 0x3F000000 ++ leBytes 1 1 ++ leBytes 1 1 ++ leBytes 2 1 ++ leBytes 16 0
    (epiRow 1 0 (fun _ => 0) 0 [(epiValue d 0x3F800000 0x40A00000).1, (epiValue d 0x3F800000 0xC1000000).1]).1.take 4
      = [0x60, 0x40, 0, 0] := by decide +kernel

/-- R218, R219: a store inside a strip reaches memory at `scommit` only. -/
theorem test_strip_store_is_held_back :
    let t := run (.st 0 5 6 0) (x (x (run (.sbegin 3) base) 5 0xAB) 6 0x200000)
    t.mem = base.mem ∧ (run (.ld .n8 7 6 0) t).getX 7 = 0xAB ∧ (run .scommit t).mem.get 0x10000 = 0xAB
      ∧ (run .sabort t).mem = base.mem := by decide +kernel

/-- R169's worked entry of a page of peer 5. -/
theorem test_page_entry_fields :
    let e : Word := 0xC05D042345000000
    ptePeer e = 5 ∧ pteMode e = 3 ∧ pteSkew e = 1 ∧ pteThr e = 4 ∧ ptePfn e * 2 ^ 16 = 0x2345000000 := by decide +kernel

/-- R341's worked trace, step 4: the second signal completes the phase for both. -/
theorem test_phaser_phase_completes :
    let a := { member (other 5) .signalWait 1 0 with waiting := true, signalled := true }
    let s := x { base with phasers := [{ handle := 7, launch := 7, counter := 0, members := [a, member me .signalWait 0 0] }] } 5 7
    (run (.phsw 5 6) s).getX 6 = 1 <<< 32
      ∧ ((run (.phsw 5 6) s).phasers.all fun p => p.counter == 1) = true := by decide +kernel

/-- R231, R243, R238: an operation on a window that is not registered. -/
theorem test_unregistered_windows :
    (run (.rwait 5 6 7) (x base 5 9)).getX 7 = 3 ∧ (run (.rget 0 5 6 7) (x (x (baseV 2 4) 5 0x2403) 6 0x200000)).getX 7 = 0 := by
  decide +kernel

/-- R255, R262: a claim where the flint bound is not held ends `ABORTED`. -/
theorem test_claim_without_the_flint_bound :
    let t := run (.claim 5 6 7) (x (x { base with flintHeld := false } 5 0x200100) 7 1)
    t.hart.clstat = 0x10005 ∧ t.getX 7 = 1 ∧ t.egress = [] := by decide +kernel

/-- R267: a step that ends after its deadline is missed. -/
theorem test_deadline_missed :
    let s := { baseWith (fun h => { h with step := some ⟨100, 5⟩ }) with cluster := { base.cluster with refTick := 107 } }
    (run (.dlnend 7) s).hart.dlnMiss = true ∧ (run (.dlnend 7) s).hart.dlnSlack = BitVec.ofInt 32 (-7) := by decide +kernel

/-- R109, R225: a spill leaves the tile Clean and its bytes at its backing. -/
theorem test_spill_writes_the_backing :
    let t := run (.tileSpillDone 1) engines
    t.hart.tile 1 = Tile.clean [(0, 2)] ∧ t.mem.get (0x200000 + 0x1000) = 2 := by decide +kernel

/-- R154, R156: an accepted copy moves its bytes when its entry performs. -/
theorem test_copy_performs_later :
    let s := copying 0x200100 0x200000 0
    let t := run (.cpy 1 5 6 7) s
    t.mem = s.mem ∧ (run (.copyEntryPerforms ⟨1, none⟩) t).mem.getN 0x10100 3 = [1, 8, 15] := by decide +kernel

/-- R245: `SYNC` answers with both sequences; an unknown opcode is answered 0xFFFF. -/
theorem test_commands_are_answered :
    (run (.commandUnknown (cmd 1) ⟨0x7777, 0⟩) base).completions = [{ seq := 1, cmd := 1, body := .status 0xFFFF 0 0 0 }]
      ∧ (run (.sync (cmd 9)) base).completions = [{ seq := 1, cmd := 9, body := .synced 0 0 }] := by decide +kernel

/-- SHA3-512 of the empty message is FIPS 202's published digest; this is its first four bytes. -/
theorem test_sha3_of_the_empty_message : (sha3 []).take 4 = [0xA6, 0x9F, 0x73, 0xCC] := by decide +kernel

/-- A step fetches and runs the word that stands at the pc, after reset too. -/
theorem test_step_runs_the_placed_word :
    (after (step (State.reset.withFetchWord 32 0x08A6FFFC))).getX 5 = BitVec.ofInt 64 (-4)
      ∧ (after (step (State.reset.withFetchWord 32 0x08A6FFFC))).hart.pc = 0x100000004
      ∧ decodeTableWord 32 0x08A6FFFC = some (.addi 5 6 0xFFFC) ∧ decodeTableWord 32 0 = none := by decide +kernel

end Sys2Proof.Tests
end

section
/-! PROOFS of the scalar results. What the model computes and what R292, R293, R295, R307 and R319 say is one value, operation by
operation; an instruction with a scalar result is then `State.scalar` of that result. -/

namespace Sys2Proof.Machine

/-! ### The values of the ALU and immediate operations -/

theorem shiftLeft_eq_ofNat_mul (a : Word) (n : Nat) : a <<< n = BitVec.ofNat 64 (a.toNat * 2 ^ n) := by
  apply BitVec.eq_of_toNat_eq
  simp [Nat.shiftLeft_eq]

theorem ushiftRight_eq_ofNat_div (a : Word) (n : Nat) : a >>> n = BitVec.ofNat 64 (a.toNat / 2 ^ n) := by
  rw [← Nat.shiftRight_eq_div_pow, ← BitVec.toNat_ushiftRight, BitVec.ofNat_toNat, BitVec.setWidth_eq]

theorem sshiftRight_eq_ofInt_div (a : Word) (n : Nat) : a.sshiftRight n = BitVec.ofInt 64 (a.toInt / 2 ^ n) := by
  rw [BitVec.sshiftRight, Int.shiftRight_eq_div_pow]
  norm_cast

theorem mul_eq_ofInt_mul (a b : Word) : a * b = BitVec.ofInt 64 (a.toInt * b.toInt) := by
  rw [BitVec.ofInt_mul, BitVec.ofInt_toInt, BitVec.ofInt_toInt]

/-- `slt` of R292, as the order of the values. -/
theorem ite_aluLt (n : Bool) (a b : Word) :
    (if aluLt n a b then (1 : Word) else 0) = if n then flag (a.toNat < b.toNat) else flag (a.toInt < b.toInt) := by
  cases n with
  | true => simp [aluLt, flag, BitVec.ult]
  | false => simp [aluLt, flag, BitVec.slt]

/-- The operand `min` of R292 selects, as the least value. -/
theorem min_of_aluLt (n : Bool) (a b : Word) :
    (if aluLt n a b then a else b)
      = if n then BitVec.ofNat 64 (min a.toNat b.toNat) else BitVec.ofInt 64 (min a.toInt b.toInt) := by
  cases n with
  | true => simp [aluLt, BitVec.ult, min_def_lt, apply_ite (BitVec.ofNat 64)]
  | false => simp [aluLt, BitVec.slt, min_def_lt, apply_ite (BitVec.ofInt 64)]

/-- The operand `max` of R292 selects, as the greatest value. -/
theorem max_of_aluLt (n : Bool) (a b : Word) :
    (if aluLt n a b then b else a)
      = if n then BitVec.ofNat 64 (max a.toNat b.toNat) else BitVec.ofInt 64 (max a.toInt b.toInt) := by
  cases n with
  | true => simp [aluLt, BitVec.ult, max_def_lt, apply_ite (BitVec.ofNat 64)]
  | false => simp [aluLt, BitVec.slt, max_def_lt, apply_ite (BitVec.ofInt 64)]

/-- An unsigned quotient is the quotient of the values. -/
theorem aluDiv_eq (n : Bool) (a b : Word) :
    aluDiv n a b = if b = 0 then BitVec.allOnes 64
      else if n then BitVec.ofNat 64 (a.toNat / b.toNat) else BitVec.ofInt 64 (a.toInt.tdiv b.toInt) := by
  have h : BitVec.ofNat 64 (a.toNat / b.toNat) = a / b := by
    rw [← BitVec.toNat_udiv, BitVec.ofNat_toNat, BitVec.setWidth_eq]
  rw [aluDiv, h]

/-- An unsigned remainder is the remainder of the values. -/
theorem aluRem_eq (n : Bool) (a b : Word) :
    aluRem n a b = if b = 0 then a
      else if n then BitVec.ofNat 64 (a.toNat % b.toNat) else BitVec.ofInt 64 (a.toInt.tmod b.toInt) := by
  have h : BitVec.ofNat 64 (a.toNat % b.toNat) = a % b := by
    rw [← BitVec.toNat_umod, BitVec.ofNat_toNat, BitVec.setWidth_eq]
  rw [aluRem, h]

/-- Where no bit from `n` up is set, the zeros above the highest set bit are what its logarithm leaves of `n`. -/
theorem leadZeros_eq (n : Nat) (a : Word) (h : a.toNat < 2 ^ n) :
    leadZeros n a = if a = 0 then n else n - 1 - Nat.log2 a.toNat := by
  induction n with
  | zero =>
    have ha : a = 0 := BitVec.eq_of_toNat_eq (by simpa using h)
    simp [leadZeros, ha]
  | succ n ih =>
    by_cases hn : a.toNat < 2 ^ n
    · have hbit : a.getLsbD n = false := Nat.testBit_lt_two_pow hn
      by_cases ha : a = 0
      · rw [leadZeros, hbit, ih hn, if_pos ha, if_pos ha, if_neg Bool.false_ne_true, Nat.add_comm]
      · have hlog : Nat.log2 a.toNat < n := (Nat.log2_lt (by simpa [BitVec.toNat_eq] using ha)).2 hn
        simp only [leadZeros, hbit, ih hn, ha, Bool.false_eq_true, if_false]
        omega
    · have ha : a ≠ 0 := by rintro rfl; simp at hn
      have ha' : a.toNat ≠ 0 := by simpa [BitVec.toNat_eq] using ha
      have hbit : a.getLsbD n = true := Nat.testBit_of_two_pow_le_and_two_pow_add_one_gt (not_lt.1 hn) h
      have hlog : n ≤ Nat.log2 a.toNat := (Nat.le_log2 ha').2 (not_lt.1 hn)
      simp only [leadZeros, hbit, ha, if_true, if_false]
      omega

theorem ones_eq_countP (n : Nat) (a : Word) : ones n a = (List.range n).countP fun k => a.getLsbD k := by
  induction n with
  | zero => rfl
  | succ n ih =>
    rw [ones, ih, List.range_succ, List.countP_append, Nat.add_comm]
    cases h : a.getLsbD n <;> simp [h]

/-- The comparison of `slti` is with the value of its immediate (R293). -/
theorem slt_imm16 (a : Word) (imm : BitVec 16) : a.slt (imm16 imm) = decide (a.toInt < imm.toInt) := by
  rw [imm16, BitVec.slt, BitVec.toInt_signExtend_of_le (by omega)]

/-- The immediate of `lui` and `auipc` is its value times 2^16 (R295, R319). -/
theorem imm21_eq (imm : BitVec 21) : imm21 imm = BitVec.ofInt 64 (imm.toInt * 2 ^ 16) := by
  rw [imm21, BitVec.shiftLeft_eq_mul_twoPow, mul_eq_ofInt_mul, BitVec.toInt_signExtend_of_le (by omega)]
  rfl

/-! ### The bit fields of R307 -/

/-- The field of `ext`, sign-extended where its top bit is set. -/
theorem extField_eq (a : Word) (sg : Bool) (len1 pos : Fin 64) :
    let f := a.toNat / 2 ^ pos.val % 2 ^ (len1.val + 1)
    extField a sg len1 pos
      = if sg && decide (2 ^ len1.val ≤ f) then BitVec.ofInt 64 (f - 2 ^ (len1.val + 1)) else BitVec.ofNat 64 f := by
  intro f
  have hf : f < 2 ^ (len1.val + 1) := Nat.mod_lt _ (by positivity)
  have hbits : bits a.toNat (pos.val + len1.val) pos.val = f := by simp [bits, f]
  have hz : zext f (len1.val + 1) = f := by
    rw [zext, ← Int.natCast_mod, Int.toNat_natCast, Nat.mod_eq_of_lt hf]
  have htop : (2 ^ (len1.val + 1) ≤ 2 * f) ↔ 2 ^ len1.val ≤ f := by rw [Nat.pow_succ]; omega
  cases sg with
  | false => simp [extField, hbits]
  | true =>
    by_cases h : 2 ^ len1.val ≤ f <;> simp [extField, hbits, sext, hz, htop, h]

/-- Bit `k` of a number written as a high part, a field of `n` bits at `p`, and a low part. -/
theorem testBit_of_fields (x f n p k : Nat) (hf : f < 2 ^ n) :
    (x / 2 ^ (p + n) * 2 ^ (p + n) + f * 2 ^ p + x % 2 ^ p).testBit k
      = if p ≤ k ∧ k < p + n then f.testBit (k - p) else x.testBit k := by
  have hsum : x / 2 ^ (p + n) * 2 ^ (p + n) + f * 2 ^ p + x % 2 ^ p
      = 2 ^ p * (2 ^ n * (x / 2 ^ (p + n)) + f) + x % 2 ^ p := by ring
  rw [hsum, Nat.testBit_two_pow_mul_add _ (Nat.mod_lt _ (by positivity))]
  by_cases hlo : k < p
  · simp [hlo, Nat.not_le.2 hlo]
  · rw [if_neg hlo, Nat.testBit_two_pow_mul_add _ hf]
    by_cases hhi : k < p + n
    · rw [if_pos (by omega), if_pos ⟨not_lt.1 hlo, hhi⟩]
    · rw [if_neg (by omega), if_neg (by omega), Nat.testBit_div_two_pow]
      congr 1
      omega

/-- A bit that `setBits` gives is one of the value inside the field, and one of the word outside it. -/
theorem getLsbD_setBits (w : Word) (p n v k : Nat) (hk : k < 64) :
    (setBits w p n v).getLsbD k = if p ≤ k ∧ k < p + n then v.testBit (k - p) else w.getLsbD k := by
  simp only [setBits, BitVec.getLsbD_or, BitVec.getLsbD_and, BitVec.getLsbD_not, BitVec.getLsbD_ofNat, Nat.testBit_mul_two_pow,
    Nat.testBit_two_pow_sub_one, Nat.testBit_mod_two_pow, hk]
  by_cases hlo : p ≤ k
  · have hin : k - p < n ↔ k < p + n := by omega
    by_cases hhi : k < p + n <;> simp [hlo, hhi, hin]
  · simp [hlo]

/-- The field of `ins` stands between the bits of x[xd] above it and below it. -/
theorem insField_eq (d a : Word) (len1 pos : Fin 64) :
    let top := 2 ^ (pos.val + len1.val + 1)
    insField d a len1 pos
      = BitVec.ofNat 64 (d.toNat / top * top + a.toNat % 2 ^ (len1.val + 1) * 2 ^ pos.val + d.toNat % 2 ^ pos.val) := by
  intro top
  apply BitVec.eq_of_getLsbD_eq
  intro k hk
  rw [insField, getLsbD_setBits _ _ _ _ _ hk, BitVec.getLsbD_ofNat, show top = 2 ^ (pos.val + (len1.val + 1)) from rfl,
    testBit_of_fields _ _ _ _ _ (Nat.mod_lt _ (by positivity)), decide_eq_true hk, Bool.true_and]
  by_cases h : pos.val ≤ k ∧ k < pos.val + (len1.val + 1)
  · rw [if_pos h, if_pos h, Nat.testBit_mod_two_pow, decide_eq_true (by omega), Bool.true_and]
  · rw [if_neg h, if_neg h]
    rfl

/-! ### An instruction with a scalar result -/

/-- The result a meaning computes is the one the spec gives. -/
theorem State.scalar_of_result (s : State) {d d' : XReg} {w w' v : Word} (h : some (d', w') = some (d, w)) (e : v = w') :
    s.scalar d' v = s.scalar d w := by
  obtain ⟨rfl, rfl⟩ := h
  rw [e]

/-- `nop` writes `x0` (R336). -/
theorem State.scalar_zero (s : State) (w : Word) : s.scalar 0 w = .next s.retire := by
  rw [State.scalar, State.setX_eq]
  rfl

/-- An instruction with a scalar result writes it and completes, in the exec sections or out of them. -/
theorem exec_eq_scalar (i : Instr) (s : State) (d : XReg) (w : Word) (h : s.scalarResult i = some (d, w)) :
    exec i s = s.scalar d w := by
  cases i with
  | nop => exact (s.scalar_zero 0).symm.trans (s.scalar_of_result h rfl)
  | add | sub | and | or | xor | addi | andi | ori | xori | mulh => exact s.scalar_of_result h rfl
  | sll | slli => exact s.scalar_of_result h (shiftLeft_eq_ofNat_mul _ _)
  | srl | srli => exact s.scalar_of_result h (ushiftRight_eq_ofNat_div _ _)
  | sra | srai => exact s.scalar_of_result h (sshiftRight_eq_ofInt_div _ _)
  | slt => exact s.scalar_of_result h (ite_aluLt _ _ _)
  | min => exact s.scalar_of_result h (min_of_aluLt _ _ _)
  | max => exact s.scalar_of_result h (max_of_aluLt _ _ _)
  | mul => exact s.scalar_of_result h (mul_eq_ofInt_mul _ _)
  | div => exact s.scalar_of_result h (aluDiv_eq _ _ _)
  | rem => exact s.scalar_of_result h (aluRem_eq _ _ _)
  | clz => exact s.scalar_of_result h (congrArg _ (leadZeros_eq 64 _ (BitVec.isLt _)))
  | popc => exact s.scalar_of_result h (congrArg _ (ones_eq_countP 64 _))
  | sel => exact s.scalar_of_result h (ite_not ..)
  | slti => exact s.scalar_of_result h (by rw [slt_imm16]; simp [flag])
  | ext => exact s.scalar_of_result h (extField_eq _ _ _ _)
  | ins => exact s.scalar_of_result h (insField_eq _ _ _ _)
  | lui => exact s.scalar_of_result h (imm21_eq _)
  | auipc => exact s.scalar_of_result h (congrArg _ (imm21_eq _))
  | _ => nomatch h

/-! ### The obligation -/

theorem registerWriteReadsBack : Says.RegisterWriteReadsBack := by
  intro s d r w
  rw [← State.setX_eq]
  exact ⟨Hart.getX_setX s.hart d r w, rfl⟩

theorem scalarResultsAndFrame : Says.ScalarResultsAndFrame := by
  intro i s d w _ hres hfall
  rw [exec_eq_scalar i s d w hres, State.scalar_eq s d w hfall]

/-- Settles O27: a register read after a write by `Hart.getX_setX`; the results instruction by instruction (`exec_eq_scalar`), and
the frame by what a scalar write and a fall through leave (`State.scalar_eq`). -/
theorem scalarResultsAndRegisterFile : Obligations.ScalarResultsAndRegisterFile :=
  ⟨registerWriteReadsBack, scalarResultsAndFrame⟩

end Sys2Proof.Machine
end

section
/-! PROOFS of the turns of the agenda. A step is `turnStep` of the first turn, on the state without it; where no page is marked
busy nothing waits. -/

namespace Sys2Proof.Machine

/-! ### A turn, and the busy pages it meets (R171) -/

theorem step_of_agenda (s : State) (t : Turn) (r : List Turn) (h : s.agenda = t :: r) :
    step s = unlessBusy s { s with agenda := r ++ t.comesAgain } (turnStep t { s with agenda := r }) := by
  rw [step, h]

/-- The turn of a hart, which does not come again where it waits. -/
theorem step_of_agenda_once (s : State) (t : Turn) (r : List Turn) (h : s.agenda = t :: r) (once : t.comesAgain = []) :
    step s = unlessBusy s { s with agenda := r } (turnStep t { s with agenda := r }) := by
  rw [step_of_agenda s t r h, once, List.append_nil]

/-- Where no page is marked busy, a turn meets none. -/
theorem State.metBusy_of_noBusy (s t : State) (h : ∀ l ∈ s.leaves, l.busy = false) : s.metBusy t = false := by
  rw [State.metBusy, List.any_eq_false]
  intro l hl
  simp [h l hl]

theorem unlessBusy_of_noBusy (s w t : State) (h : ∀ l ∈ s.leaves, l.busy = false) : unlessBusy s w (.next t) = .next t := by
  simp [unlessBusy, s.metBusy_of_noBusy t h]

/-- Where no page is marked busy, a turn that answers a state goes there. -/
theorem step_of_agenda_noBusy (s u : State) (t : Turn) (r : List Turn) (h : s.agenda = t :: r)
    (busy : ∀ l ∈ s.leaves, l.busy = false) (hu : turnStep t { s with agenda := r } = .next u) : step s = .next u := by
  rw [step_of_agenda s t r h, hu, unlessBusy_of_noBusy s _ u busy]

/-! ### The hart of a turn (R11, R12) -/

theorem State.turnAt_of_exists (s : State) (n : HartName) (h : hartExists n = true) : s.turnAt n = some (s.focus n) := if_pos h

theorem State.turnAt_of_missing (s : State) (n : HartName) (h : hartExists n = false) : s.turnAt n = none := by
  simp [State.turnAt, h]

/-- A turn of a hart the package does not have. -/
theorem step_of_missing (s : State) (t : Turn) (r : List Turn) (h : s.agenda = t :: r)
    (ht : turnStep t { s with agenda := r } = .fault .noSuchHart) : step s = .fault .noSuchHart := by
  rw [step_of_agenda s t r h, ht]
  rfl

/-- A turn spent in a way of its own leaves the next turns whole. -/
theorem stepAs_of_hartStep (how : How) (s t : State) (h : hartStep { s with how := how } = .next t) :
    stepAs how s = .next { t with how := .whole } := by
  rw [stepAs, h]

/-! ### What happens by itself -/

/-- A step of the device without a word, that is no request by one, happens by itself. -/
theorem State.mayHappen_of_noWord (s : State) (i : Instr) (hword : encodeNat i = none) (hill : ∀ w, i ≠ .illegal w)
    (hreq : i ∉ [Instr.kVersion, .kYield, .kRequestUnknown, .dlnRisk]) : s.mayHappen i = true := by
  cases i with
  | illegal w => exact absurd rfl (hill w)
  | kVersion | kYield | kRequestUnknown | dlnRisk => simp at hreq
  | _ => exact Option.isNone_iff_eq_none.2 hword

/-- What an instruction word stands for does not happen by itself. -/
theorem State.mayHappen_of_word (s : State) (i : Instr) (hword : (encodeNat i).isSome = true) : s.mayHappen i = false := by
  cases i with
  | illegal | kVersion | kYield | kRequestUnknown => rfl
  | dlnRisk => nomatch hword
  | _ => exact Option.isNone_eq_false_iff.2 hword

/-- A soft error leaves no leaf that maps its address. -/
theorem State.turnSoftError_leafAt (s : State) (asid va : Nat) : (s.turnSoftError asid va).leafAt asid va = none := by
  rw [State.leafAt, List.find?_eq_none]
  intro l hl
  simpa using (List.mem_filter.1 hl).2

/-- A port in service reaches a peer, which is then not absent. -/
theorem State.turnReached_of_port (s : State) (f : Nat) (h : ∃ p ∈ s.ports.toList, p ≠ 0) :
    s.turnReached f = { s with absent := s.absent.filter fun k => k ≠ f } := by
  obtain ⟨p, hp, hlanes⟩ := h
  have hport : s.ports.toList.any (· != 0) = true := List.any_eq_true.2 ⟨p, hp, bne_iff_ne.2 hlanes⟩
  have hne : (fun k : Nat => k != f) = fun k => decide (k ≠ f) := funext fun k => by rw [decide_not]; rfl
  rw [State.turnReached, if_pos hport, State.hear, hne]

/-- Settles O2, turn by turn: each is `turnStep` of the first turn of the agenda (`step_of_agenda`), with the hart it names in front
(`State.turnAt_of_exists`). -/
theorem agendaTurnsHappenInOrder : Obligations.AgendaTurnsHappenInOrder := by
  intro s r s1 again
  refine ⟨fun n i hn ha => ⟨fun hword hill hreq => ?_, fun hword => ?_⟩, fun n bs ps ch i hn ha hcmd => ?_, fun n hn ha => ?_,
    fun n k t hn ha ht => ?_, fun n t hn ha ht => ?_, fun n es hn ha => ?_, fun w t => ?_, fun n hn i k ha => ?_,
    fun k busy ha => ?_, fun f busy ha hport => ?_, fun asid va busy ha => ?_⟩
  · rw [step_of_agenda s _ r ha, turnStep, State.turnAt_of_exists _ n hn]
    exact congrArg _ (if_pos (State.mayHappen_of_noWord _ i hword hill hreq))
  · rw [step_of_agenda s _ r ha, turnStep, State.turnAt_of_exists _ n hn]
    exact congrArg _ (if_neg (by simp [State.mayHappen_of_word _ i hword]))
  · rw [step_of_agenda s _ r ha, turnStep, State.turnAt_of_exists _ n hn, hcmd]
    rfl
  · rw [step_of_agenda_once s _ r ha rfl, turnStep, State.turnAt_of_exists _ n hn]
  · rw [step_of_agenda_once s _ r ha rfl, turnStep, State.turnAt_of_exists _ n hn]
    exact congrArg _ (stepAs_of_hartStep _ _ t ht)
  · rw [step_of_agenda_once s _ r ha rfl, turnStep, State.turnAt_of_exists _ n hn]
    exact congrArg _ (stepAs_of_hartStep _ _ t ht)
  · rw [step_of_agenda_once s _ r ha rfl, turnStep, State.turnAt_of_exists _ n hn]
  · cases h : s.metBusy t <;> simp [unlessBusy, h]
  · rcases ha with ha | ha | ha | ha <;>
      exact step_of_missing s _ r ha (by rw [turnStep, State.turnAt_of_missing _ n hn])
  · exact step_of_agenda_noBusy s _ _ r ha busy (congrArg Host.Outcome.next (if_pos rfl))
  · exact step_of_agenda_noBusy s _ _ r ha busy (congrArg Host.Outcome.next (State.turnReached_of_port _ f hport))
  · exact ⟨_, step_of_agenda_noBusy s _ _ r ha busy rfl, State.turnSoftError_leafAt _ asid va, rfl, rfl⟩

end Sys2Proof.Machine
end

section
/-! PROOFS of what a target does: requests of windows, tile sends and UALink accesses. Each arrival is one equation of the model's
step per outcome; what the outcome leaves unchanged are laws of the updates it is made of. -/

namespace Sys2Proof.Machine

/-! ### Requests (R230, R232, R240 to R242) -/

theorem execRemoteRequestServed_refused (r : RemoteReq) (s0 : State) (e : Nat) (hpeer : r.peer = s0.fid)
    (hchecks : (s0.hear r.src.fid).targetChecks r.tenant r.job r.win r.off (reqBytes r.kind) = .error e) :
    execRemoteRequestServed r s0 = .next ((s0.hear r.src.fid).send (.reply r.src (.error e))) := by
  simp only [execRemoteRequestServed, hpeer, hchecks, ne_eq, not_true_eq_false, if_false]

theorem execRemoteRequestServed_unmapped (r : RemoteReq) (s0 : State) (l : Launch) (w : Window) (a : Nat) (hpeer : r.peer = s0.fid)
    (hchecks : (s0.hear r.src.fid).targetChecks r.tenant r.job r.win r.off (reqBytes r.kind) = .ok (l, w))
    (hruns : (s0.hear r.src.fid).runs l.asid (w.base + r.off) (reqBytes r.kind) = .error a) :
    execRemoteRequestServed r s0 = .next (((s0.hear r.src.fid).send (.reply r.src (.error 2))).walkFault
      ((s0.hear r.src.fid).requester r.src) l.asid a) := by
  simp only [execRemoteRequestServed, hpeer, hchecks, hruns, ne_eq, not_true_eq_false, if_false]

/-- The task that asked ends with `XLATE` where no leaf maps the address (R167). -/
theorem State.walkFault_eq (s : State) (owner : Option Nat) (asid va : Nat) :
    s.walkFault owner asid va = match owner with
      | some k => if s.leafAt asid va = none then s.endOwner k va else s
      | none => s := by
  cases owner <;> simp [State.walkFault]

/-- Memory after a request: an atomic writes its new value. -/
def memServed (k : ReqKind) (m : Bytes) (rs : List (Nat × Nat)) : Bytes :=
  match k with
  | .atomic op w64 v => atomicAt m rs op w64 v
  | _ => m

theorem execRemoteRequestServed_served (r : RemoteReq) (s0 : State) (l : Launch) (w : Window) (rs : List (Nat × Nat))
    (hpeer : r.peer = s0.fid)
    (hchecks : (s0.hear r.src.fid).targetChecks r.tenant r.job r.win r.off (reqBytes r.kind) = .ok (l, w))
    (hruns : (s0.hear r.src.fid).runs l.asid (w.base + r.off) (reqBytes r.kind) = .ok rs) :
    ∃ t, execRemoteRequestServed r s0 = .next t ∧ t.egress = s0.egress ++ [.reply r.src (.bytes (s0.mem.getRuns rs))]
      ∧ t.hart = s0.hart ∧ t.mem = memServed r.kind s0.mem rs := by
  simp only [execRemoteRequestServed, hpeer, hchecks, hruns, ne_eq, not_true_eq_false, if_false]
  cases r.kind <;> exact ⟨_, rfl, rfl, rfl, rfl⟩

/-! ### Tile sends (R232, R244) -/

theorem execMsendReceived_refused (m : TileMsg) (s0 : State) (e : Nat) (hpeer : m.peer = s0.fid) (hlen : m.data.length = tileSize)
    (hchecks : (s0.hear m.src.fid).tileChecks m = .error e) :
    execMsendReceived m s0 = .next ((s0.hear m.src.fid).send (.tileDone m.src m.win e)) := by
  simp [execMsendReceived, hpeer, hlen, hchecks]

theorem execMsendReceived_arrives (m : TileMsg) (s0 : State) (l : Launch) (w : Window) (h : Hart) (hpeer : m.peer = s0.fid)
    (hlen : m.data.length = tileSize) (hchecks : (s0.hear m.src.fid).tileChecks m = .ok (l, w, h)) :
    execMsendReceived m s0 = .next ((((s0.hear m.src.fid).tileArrives h (w.base + m.index) m.data).onWindow l.id w.id
      fun w => { w with inn := w.inn + 1 }).send (.tileDone m.src m.win 0)) := by
  simp [execMsendReceived, hpeer, hlen, hchecks]

/-- The hart in front may take a slot: what `State.slotFree` decides of it (R11, R114). -/
theorem State.slotFree_front (s : State) : s.slotFree s.hart true = true ↔ s.slotsFor 1 := by
  simp only [State.slotFree, Bool.and_eq_true, Bool.or_eq_true, Bool.true_and, decide_eq_true_eq]
  exact Iff.rfl

/-- The tile store is that of the hart in front, whichever cluster stands there. -/
theorem State.slotFree_focus_front (s : State) (b : Bool) : (s.focus s.hart.name).slotFree s.hart b = s.slotFree s.hart b := by
  simp only [State.focus, if_true]
  split <;> rfl

theorem State.hartAt_front (s : State) : s.hartAt s.hart.name = s.hart := if_pos rfl

/-- A tile of the task bound in front is set there. -/
theorem State.onTask_setTileIn_hart (s : State) (base : Word) (x : TReg) (v : Tile) (h : s.hart.bound = true) :
    (s.onTask s.hart.task.serial fun k => k.setTileIn base x v).hart = s.hart.setTileIn base x v := by
  simp [State.onTask, h]

/-- A tile that has a slot, or for which one is free, arrives there. -/
theorem State.tileArrives_slot (s : State) (t : Nat) (data : List Byte) (old : Tile)
    (hold : s.hart.tileIn s.hart.task.mapbase (Fin.ofNat 256 t) = some old) (hslot : old.held = true ∨ s.slotsFor 1) :
    s.tileArrives s.hart t data = s.onTask s.hart.task.serial fun k =>
      k.setTileIn s.hart.task.mapbase (Fin.ofNat 256 t) (.dirty (Bytes.put [] 0 data)) := by
  have hfree : (old.held || s.slotFree s.hart true) = true := by
    rw [Bool.or_eq_true, s.slotFree_front]
    exact hslot
  simp only [State.tileArrives, State.hartAt_front, hold, State.slotFree_focus_front, beq_self_eq_true, hfree, if_true]

/-- A tile without a slot goes to its backing, and is Absent (log entry 41). -/
theorem State.tileArrives_backing (s : State) (t : Nat) (data : List Byte) (old : Tile)
    (hold : s.hart.tileIn s.hart.task.mapbase (Fin.ofNat 256 t) = some old) (hheld : old.held = false) (hfull : ¬s.slotsFor 1) :
    s.tileArrives s.hart t data =
      (s.onTask s.hart.task.serial fun k => k.setTileIn s.hart.task.mapbase (Fin.ofNat 256 t) .absent).spillTile s.hart
        s.hart.task.mapbase t (Bytes.put [] 0 data) := by
  have hfree : (old.held || s.slotFree s.hart true) = false := by
    rw [hheld, Bool.false_or, ← Bool.not_eq_true, s.slotFree_front]
    exact hfull
  simp only [State.tileArrives, State.hartAt_front, hold, State.slotFree_focus_front, beq_self_eq_true, hfree, Bool.false_eq_true,
    if_false]

/-- A write whose bytes translate changes memory, and what else stands by address: cached lines, access counters, touched pages. -/
theorem State.writeAt_of_runs (s : State) (asid va : Nat) (bs : List Byte) (rs : List (Nat × Nat))
    (hruns : s.runs asid va bs.length = .ok rs) :
    ∃ ls ks bl, s.writeAt asid va bs
      = .ok { s with mem := s.mem.putRuns rs bs, lines := ls, leaves := ks, baselines := bl } := by
  rw [State.writeAt, hruns]
  exact ⟨_, _, _, rfl⟩

/-- A spill whose backing translates writes it. -/
theorem State.spillTile_of_runs (s : State) (h : Hart) (base : Word) (t : Nat) (b : Bytes) (rs : List (Nat × Nat))
    (hruns : s.runs h.task.asid (backing base t) tileSize = .ok rs) :
    ∃ ls ks bl, s.spillTile h base t b
      = { s with mem := s.mem.putRuns rs (b.getN 0 tileSize), lines := ls, leaves := ks, baselines := bl } := by
  rw [← Bytes.length_getN b 0 tileSize] at hruns
  obtain ⟨ls, ks, bl, hwrite⟩ := s.writeAt_of_runs _ _ _ rs hruns
  refine ⟨ls, ks, bl, ?_⟩
  unfold State.spillTile
  rw [hwrite]

/-- A tile send whose tile has a slot, or for which one is free, makes the tile Dirty there. -/
theorem execMsendReceived_slot (m : TileMsg) (s0 : State) (l : Launch) (w : Window) (old : Tile) :
    let s := s0.hear m.src.fid
    let base := s.hart.task.mapbase
    let x : TReg := Fin.ofNat 256 (w.base + m.index)
    m.peer = s0.fid → m.data.length = tileSize → s.tileChecks m = .ok (l, w, s.hart) → s.hart.bound = true →
    s.hart.tileIn base x = some old → old.held = true ∨ s.slotsFor 1 →
    ∃ t, execMsendReceived m s0 = .next t ∧ t.egress = s.egress ++ [.tileDone m.src m.win 0]
      ∧ t.hart = s.hart.setTileIn base x (.dirty (Bytes.put [] 0 m.data)) ∧ t.mem = s.mem := by
  intro s base x hpeer hlen hchecks hbound hold hslot
  have harrives := execMsendReceived_arrives m s0 l w _ hpeer hlen hchecks
  rw [State.tileArrives_slot s _ _ old hold hslot] at harrives
  exact ⟨_, harrives, rfl, s.onTask_setTileIn_hart base x _ hbound, rfl⟩

/-- A tile send whose tile has no slot is written at its backing, where that translates, and leaves the tile Absent. -/
theorem execMsendReceived_backing (m : TileMsg) (s0 : State) (l : Launch) (w : Window) (old : Tile) :
    let s := s0.hear m.src.fid
    let base := s.hart.task.mapbase
    let x : TReg := Fin.ofNat 256 (w.base + m.index)
    m.peer = s0.fid → m.data.length = tileSize → s.tileChecks m = .ok (l, w, s.hart) → s.hart.bound = true →
    s.hart.tileIn base x = some old → old.held = false → ¬s.slotsFor 1 → w.base + m.index < 256 →
    s.translates (backing base x.val) tileSize →
    ∃ t, execMsendReceived m s0 = .next t ∧ t.egress = s.egress ++ [.tileDone m.src m.win 0]
      ∧ t.hart = s.hart.setTileIn base x .absent ∧ t.mem = s.mem.putRuns (s.keys (backing base x.val) tileSize) m.data := by
  intro s base x hpeer hlen hchecks hbound hold hheld hfull hsmall hmaps
  have harrives := execMsendReceived_arrives m s0 l w _ hpeer hlen hchecks
  rw [State.tileArrives_backing s _ _ old hold hheld hfull] at harrives
  have hx : x.val = w.base + m.index := Nat.mod_eq_of_lt hsmall
  have hdata : (Bytes.put [] 0 m.data).getN 0 tileSize = m.data := by rw [← hlen, Bytes.getN_put_same]
  rw [hx] at hmaps ⊢
  obtain ⟨ls, ks, bl, hspill⟩ := State.spillTile_of_runs (s.onTask s.hart.task.serial fun k => k.setTileIn base x .absent) s.hart
    base (w.base + m.index) (Bytes.put [] 0 m.data) _ (s.runs_ok _ _ hmaps)
  rw [hspill, hdata] at harrives
  exact ⟨_, harrives, rfl, s.onTask_setTileIn_hart base x _ hbound, rfl⟩

/-! ### UALink accesses (R228, R282) -/

/-- A walk over leaves each of which changes the baselines alone, whatever memory holds, changes them so. -/
theorem foldl_withMem (f : State → Leaf → State)
    (hf : ∀ (t : State) (l : Leaf) (m : Bytes), f { t with mem := m } l = { t with mem := m, baselines := (f t l).baselines })
    (ls : List Leaf) (s : State) (m : Bytes) :
    ls.foldl f { s with mem := m } = { s with mem := m, baselines := (ls.foldl f s).baselines } := by
  induction ls generalizing s with
  | nil => rfl
  | cons l ls ih =>
    obtain ⟨bl, hs⟩ : ∃ bl, f s l = { s with baselines := bl } := ⟨_, hf s l s.mem⟩
    rw [List.foldl_cons, List.foldl_cons, hf s l m, hs]
    exact ih { s with baselines := bl }

/-- The pages of written frames change the baselines alone, and these whatever memory holds. -/
theorem State.touchFrames_withMem (s : State) (m : Bytes) (addr n : Nat) :
    ({ s with mem := m } : State).touchFrames addr n = { s with mem := m, baselines := (s.touchFrames addr n).baselines } := by
  refine foldl_withMem _ (fun t l m => ?_) s.leaves s m
  dsimp only
  split <;> rfl

/-- An access that ends inside HBM4 is served: the bytes it reads, or what it writes. -/
theorem execUalinkRequest_of_inside (src : Party) (addr : Nat) (k : AccessKind) (s0 : State)
    (h : addr + (accessSpan k).1 ≤ 768 * 10 ^ 9) :
    let s := s0.hear src.fid
    let rs := [(s.fid * 2 ^ 40 + addr, (accessSpan k).1)]
    let old := s.mem.getRuns rs
    execUalinkRequest src addr k s0 = .next (match k with
      | .read _ => s.send (.ualinkReply src old)
      | .write bs => (State.touchFrames { s with mem := s.mem.putRuns rs bs } addr bs.length).send (.ualinkReply src [])
      | .atomic op w64 v => (State.touchFrames { s with mem := atomicAt s.mem rs op w64 v } addr (atomBytes w64)).send
        (.ualinkReply src old)) := by
  have hin : ¬localBytes < addr + (accessSpan k).1 := not_lt.2 h
  cases k <;> exact if_neg hin

/-! ### The obligation -/

/-- Settles O25, outcome by outcome of a request, a tile send and a UALink access. -/
theorem targetsServeRequests : Obligations.TargetsServeRequests := by
  intro r m src addr n bs op w64 v s0 heard amo
  refine ⟨fun hpeer => ⟨fun e hchecks => ?_, fun l w hchecks => ⟨fun a hruns => ?_, fun rs hruns => ?_⟩⟩,
    fun hpeer hlen => ⟨fun e hchecks => ?_, fun l w hchecks hbound => ?_⟩,
    fun hin => ?_, fun hin => ?_, fun hin => ?_⟩
  · exact execRemoteRequestServed_refused r s0 e hpeer hchecks
  · exact (execRemoteRequestServed_unmapped r s0 l w a hpeer hchecks hruns).trans (congrArg _ (State.walkFault_eq ..))
  · obtain ⟨t, ht, hegress, hhart, hmem⟩ := execRemoteRequestServed_served r s0 l w rs hpeer hchecks hruns
    exact ⟨t, ht, hegress, hhart, hmem⟩
  · exact execMsendReceived_refused m s0 e hpeer hlen hchecks
  · exact fun old hold => ⟨execMsendReceived_slot m s0 l w old hpeer hlen hchecks hbound hold,
      execMsendReceived_backing m s0 l w old hpeer hlen hchecks hbound hold⟩
  · exact execUalinkRequest_of_inside src addr (.read n) s0 hin
  · refine (execUalinkRequest_of_inside src addr (.write bs) s0 hin).trans ?_
    simp only [State.touchFrames_withMem]
    rfl
  · refine (execUalinkRequest_of_inside src addr (.atomic op w64 v) s0 hin).trans ?_
    simp only [State.touchFrames_withMem]
    rfl

end Sys2Proof.Machine
end

section
/-! PROOFS of power-up and of the ports. A power-up is `State.powered` and at most two reports; a bound that is lost ends the open
claims one after another, each of them writing `CLSTAT` of its own task alone. -/

namespace Sys2Proof.Machine

/-! ### A claim ends (R255, R257) -/

/-- The contexts the package holds: of its harts, and pre-empted ones. -/
def State.contexts (s : State) : List Hart := s.hart :: s.others ++ s.parked

/-- The state field of a word of `CLSTAT` (R255). -/
theorem clstatWord_mod_eight (st seq : Nat) (by1 : Option Party) (h : st < 8) : (clstatWord st seq by1).toNat % 8 = st := by
  cases by1 <;> simp only [clstatWord, BitVec.toNat_ofNat] <;> omega

theorem State.onTask_contexts (s : State) (serial : Nat) (f : Hart → Hart) :
    (s.onTask serial f).contexts = s.contexts.map fun h => if h.bound && h.task.serial == serial then f h else h := by
  simp [State.contexts, State.onTask]

/-- The end of a claim writes `CLSTAT` of its task, wherever that stands. -/
theorem State.endClaim_contexts (s : State) (k : OpenClaim) (st : Nat) (by1 : Option Party) :
    (s.endClaim k st by1).contexts = s.contexts.map fun h =>
      if h.bound && h.task.serial == k.serial then { h with clstat := clstatWord st k.prop.seq.toNat by1 } else h :=
  s.onTask_contexts k.serial fun h => { h with clstat := clstatWord st k.prop.seq.toNat by1 }

@[simp] theorem State.endClaim_mem (s : State) (k : OpenClaim) (st : Nat) (by1 : Option Party) :
    (s.endClaim k st by1).mem = s.mem := rfl

@[simp] theorem State.endClaim_claims (s : State) (k : OpenClaim) (st : Nat) (by1 : Option Party) :
    (s.endClaim k st by1).claims = s.claims.filter fun c => c.owner != k.owner := rfl

@[simp] theorem State.endClaim_hart_x (s : State) (k : OpenClaim) (st : Nat) (by1 : Option Party) :
    (s.endClaim k st by1).hart.x = s.hart.x := by
  simp only [State.endClaim, State.onTask]
  split <;> rfl

/-! ### The bound is lost (R229, R253, R262) -/

/-- Some claims end ABORTED, one after another. -/
def State.endClaims (s : State) (ks : List OpenClaim) : State := ks.foldl (fun s k => s.endClaim k 5 none) s

theorem State.endClaims_concat (s : State) (ks : List OpenClaim) (k : OpenClaim) :
    s.endClaims (ks ++ [k]) = (s.endClaims ks).endClaim k 5 none := by
  simp [State.endClaims]

theorem State.endClaims_mem (s : State) (ks : List OpenClaim) : (s.endClaims ks).mem = s.mem := by
  induction ks using List.reverseRecOn with
  | nil => rfl
  | append_singleton ks k ih => rw [State.endClaims_concat, State.endClaim_mem, ih]

theorem State.endClaims_hart_x (s : State) (ks : List OpenClaim) : (s.endClaims ks).hart.x = s.hart.x := by
  induction ks using List.reverseRecOn with
  | nil => rfl
  | append_singleton ks k ih => rw [State.endClaims_concat, State.endClaim_hart_x, ih]

/-- A claim that is still open is of no hart whose claim was ended. -/
theorem State.mem_endClaims_claims (s : State) (ks : List OpenClaim) (c : OpenClaim) :
    c ∈ (s.endClaims ks).claims ↔ c ∈ s.claims ∧ ∀ k ∈ ks, c.owner ≠ k.owner := by
  induction ks using List.reverseRecOn with
  | nil => simp [State.endClaims]
  | append_singleton ks k ih =>
    rw [State.endClaims_concat, State.endClaim_claims, List.mem_filter, ih]
    simp only [bne_iff_ne, List.forall_mem_append, List.forall_mem_singleton, and_assoc]

/-- No claim is open once every open one was ended. -/
theorem State.endClaims_claims (s : State) : (s.endClaims s.claims).claims = [] := by
  rw [List.eq_nil_iff_forall_not_mem]
  intro c hc
  obtain ⟨hmem, hne⟩ := (s.mem_endClaims_claims s.claims c).1 hc
  exact hne c hmem rfl

/-- `CLSTAT` of a task whose claim was ended says ABORTED: its last claim wrote it, and no claim of another task does. -/
theorem State.endClaims_clstat (s : State) (ks : List OpenClaim) :
    ∀ h ∈ (s.endClaims ks).contexts, h.bound = true → (∃ k ∈ ks, k.serial = h.task.serial) → h.clstat.toNat % 8 = 5 := by
  induction ks using List.reverseRecOn with
  | nil => simp
  | append_singleton ks k ih =>
    intro h hh hbound hk
    rw [State.endClaims_concat, State.endClaim_contexts, List.mem_map] at hh
    obtain ⟨h0, hmem, rfl⟩ := hh
    by_cases hown : (h0.bound && h0.task.serial == k.serial) = true
    · rw [if_pos hown]
      exact clstatWord_mod_eight 5 _ none (by decide)
    · rw [if_neg hown] at hbound hk ⊢
      have hother : k.serial ≠ h0.task.serial := fun e => hown (by simp [hbound, e])
      obtain ⟨c, hc, hserial⟩ := hk
      rcases List.mem_append.1 hc with hc | hc
      · exact ih h0 hmem hbound ⟨c, hc, hserial⟩
      · rw [List.mem_singleton.1 hc] at hserial
        exact absurd hserial hother

/-- `t` follows `s` with the bound lost: every open claim has ended, ABORTED; memory and registers are as they were. -/
def State.BoundEnds (s t : State) : Prop :=
  t.flintHeld = false ∧ t.mem = s.mem ∧ t.hart.x = s.hart.x
    ∧ (s.flintHeld = true → t.claims = [] ∧ ∀ h ∈ t.contexts, h.bound = true →
      (∃ k ∈ s.claims, k.serial = h.task.serial) → h.clstat.toNat % 8 = 5)

theorem State.boundLost_eq (s : State) (h : s.flintHeld = true) :
    ∃ e, s.boundLost = { s.endClaims s.claims with flintHeld := false, egress := e } :=
  ⟨_, if_pos h⟩

theorem State.boundLost_boundEnds (s : State) : s.BoundEnds s.boundLost := by
  by_cases h : s.flintHeld = true
  · obtain ⟨e, he⟩ := s.boundLost_eq h
    rw [he]
    exact ⟨rfl, s.endClaims_mem _, s.endClaims_hart_x _, fun _ => ⟨s.endClaims_claims, s.endClaims_clstat s.claims⟩⟩
  · have hlost : s.boundLost = s := if_neg h
    rw [hlost]
    exact ⟨eq_false_of_ne_true h, rfl, rfl, fun held => absurd held h⟩

/-- Another number of lanes of a port leaves the loss of the bound as it is. -/
theorem State.setPort_boundEnds (s : State) (p : Fin 18) (n : Nat) :
    let t : State := { s.boundLost with ports := s.boundLost.ports.set p.val n }
    t.ports.get p = n ∧ s.BoundEnds t :=
  ⟨Vector.getElem_set_self p.isLt, s.boundLost_boundEnds⟩

theorem execFlintBoundHeld_of_full (s : State) (h : ∀ q : Fin 18, q.val ∉ s.withheldPorts → s.ports.get q = 4) :
    execFlintBoundHeld s = .next { s with flintHeld := true } := by
  have hfull : ((List.finRange 18).all fun p => s.withheldPorts.contains p.val || s.ports.get p == 4) = true := by
    simpa [or_iff_not_imp_left] using h
  rw [execFlintBoundHeld, if_pos hfull]

theorem portsAndTheFlintBound : Says.PortsAndTheFlintBound := by
  intro p lanes s
  refine ⟨⟨_, rfl, s.setPort_boundEnds p 0⟩, fun hlanes hless => ?_, fun hfull => execFlintBoundHeld_of_full s hfull⟩
  have hshed : ((lanes = 1 || lanes = 2) && decide (lanes.val < s.ports.get p)) = true := by simp [hlanes, hless]
  exact ⟨_, if_pos hshed, s.setPort_boundEnds p lanes.val⟩

/-! ### Power-up (R17, R19 to R21, R101) -/

/-- A power-up, and the reports it posts: its defect map where it is not usable, then the refusal of its image. -/
theorem execPowerUp_eq (st : SelfTest) (g : ConfigImage) (signature : List Byte) (s : State) :
    ∃ c, execPowerUp st g signature s = .next { s.powered st g (configAccepted g signature) with
      compSeq := c
      completions := (if packageUsable st then [] else [{ seq := 1, cmd := 0, body := .defects st }])
        ++ (if configAccepted g signature then []
          else [{ seq := if packageUsable st then 1 else 2, cmd := 0, body := .configRefused st }]) } := by
  cases hu : packageUsable st <;> cases hc : configAccepted g signature <;>
    exact ⟨_, by simp only [execPowerUp, State.powered, hu, hc, State.post]; rfl⟩

/-- A power-up takes the bytes of the package's own HBM4, and no other package's. -/
theorem State.powered_mem_get (s : State) (st : SelfTest) (g : ConfigImage) (ok : Bool) (k : Nat) :
    (s.powered st g ok).mem.get k = if k / 2 ^ 40 = s.fid then 0 else s.mem.get k := by
  rw [State.powered, Bytes.get_filter s.mem fun a => a / 2 ^ 40 != s.fid]
  simp

theorem powerUpResetsThePackage : Says.PowerUpResetsThePackage := by
  intro st g signature s good signed n
  obtain ⟨c, h⟩ := execPowerUp_eq st g signature s
  exact ⟨_, h, rfl, rfl, rfl, rfl, rfl, rfl, rfl, rfl, rfl, rfl, rfl, rfl, rfl, rfl, rfl, rfl, rfl, rfl,
    s.powered_mem_get st g (configAccepted g signature)⟩

/-- Settles O56: power-up by the state and the reports it is (`execPowerUp_eq`), and the ports by what the loss of the bound ends
(`State.boundLost_boundEnds`). -/
theorem powerUpAndPorts : Obligations.PowerUpAndPorts := ⟨powerUpResetsThePackage, portsAndTheFlintBound⟩

end Sys2Proof.Machine
end

section
/-! PROOFS of binding. A bind is one equation per case of R199 to R201; a fresh task then enters on the hart `State.enterFresh_hart`
gives, with its backing area at the frame obsidian chose (`State.mapBacking_translate`). -/

namespace Sys2Proof.Machine

/-! ### The cases of a bind (R199 to R201) -/

section
variable (c : BindChoice) (s : State) (hbound : s.hart.bound = false) (husable : s.usable = true)
include hbound husable

theorem execBind_of_noTask (hnext : s.nextTask = none) : execBind c s = .next s := by
  simp [execBind, hbound, husable, hnext]

variable (hused : s.usedClusters.contains s.hart.name.cluster = true)
include hused

/-- The cluster's next task cannot go to the hart in front. -/
theorem execBind_of_elsewhere (w : Waiting) (hnext : s.nextTask = some w) (hwaits : s.waiting.contains w = false) :
    execBind c s = .next s := by
  simp only [execBind, hbound, husable, hused, hnext, hwaits]
  rfl

theorem execBind_of_ignored (w : Waiting) (hnext : s.nextTask = some w) (hwaits : s.waiting.contains w = true)
    (hignored : choiceIgnored c (w.code s.hart.name) = true) : execBind c s = .next { s with slotErr := true } := by
  simp only [execBind, hbound, husable, hused, hnext, hwaits, hignored]
  rfl

theorem execBind_of_fresh (r : TaskRec) (l : Launch) (hnext : s.nextTask = some (.fresh r))
    (hwaits : s.waiting.contains (.fresh r) = true)
    (hheeded : choiceIgnored c ((Waiting.fresh r).code s.hart.name) = false) (hl : s.launch? r.launch = some l) :
    execBind c s = .next (if s.freshOk l r c then s.enterFresh l r c else s) := by
  simp only [execBind, hbound, husable, hused, hnext, hwaits, hheeded, hl]
  exact (apply_ite Host.Outcome.next _ _ _).symm

theorem execBind_of_again (h : Hart) (hnext : s.nextTask = some (.again h)) (hwaits : s.waiting.contains (.again h) = true)
    (hheeded : choiceIgnored c ((Waiting.again h).code s.hart.name) = false) :
    execBind c s = .next (if s.poolHolds (s.again h c.eqMin c.eqCap) then s.enterAgain h c.eqMin c.eqCap else s) := by
  simp only [execBind, hbound, husable, hused, hnext, hwaits, hheeded]
  exact (apply_ite Host.Outcome.next _ _ _).symm
end

/-! ### The backing area of a fresh task (R108, R251, R287) -/

/-- A local entry of a frame number that fits its field names that frame, in mode 0 (R168). -/
theorem ptePfn_localEntry (pfn : Nat) (h : pfn < 2 ^ 24) : ptePfn (localEntry pfn 0 false) = pfn := by
  simp only [ptePfn, localEntry, bits, BitVec.toNat_ofNat, Bool.toNat_false]
  omega

theorem pteMode_localEntry (pfn : Nat) (h : pfn < 2 ^ 24) : pteMode (localEntry pfn 0 false) = 0 := by
  simp only [pteMode, localEntry, bits, BitVec.toNat_ofNat, Bool.toNat_false]
  omega

/-- An address of the lower half is of the space of its context (R164). -/
theorem spaceOf_of_lower (asid va : Nat) (h : va < 2 ^ 56) : spaceOf asid va = asid := by
  have : bitOf va 56 = false := by rw [bitOf, Nat.div_eq_of_lt h]; rfl
  simp [spaceOf, this]

/-- A leaf that maps an address touches every range the address lies in. -/
theorem Leaf.touches_of_maps (l : Leaf) {asid va b n : Nat} (h : l.maps asid va = true) (hlo : b ≤ va) (hhi : va < b + n) :
    l.touches asid b n = true := by
  simp only [Leaf.maps, Bool.and_eq_true, decide_eq_true_eq] at h
  obtain ⟨⟨hasid, hfrom⟩, hto⟩ := h
  simp only [Leaf.touches, hasid, meets, Bool.true_and, Bool.and_eq_true, decide_eq_true_eq]
  omega

/-- Page `k` of a backing area, in its frame. -/
def backingLeaf (asid tenant b frame k : Nat) : Leaf :=
  { asid := asid, level := 3, va := b + k * 65536, pte := localEntry (frame + k) 0 false, tenants := [tenant], accesses := 0 }

section
variable (s : State) (asid tenant b frame : Nat)

/-- A backing area that is not mapped gets its sixteen leaves. -/
theorem State.mapBacking_leaves (hleaf : s.leafAt asid b = none) :
    (s.mapBacking asid tenant b frame).leaves = s.leaves ++ (List.range 16).map (backingLeaf asid tenant b frame) := by
  simp only [State.mapBacking, hleaf]
  rfl

/-- Its bytes become 0, and no other byte of memory changes. -/
theorem State.mapBacking_mem_get (j : Nat) :
    (s.mapBacking asid tenant b frame).mem.get j
      = if s.leafAt asid b = none ∧ s.fid * 2 ^ 40 + frame * 2 ^ 16 ≤ j
          ∧ j < s.fid * 2 ^ 40 + frame * 2 ^ 16 + 2 ^ 20 then 0
        else s.mem.get j := by
  cases hleaf : s.leafAt asid b with
  | some l => simp [State.mapBacking, hleaf]
  | none =>
    have hmem : (s.mapBacking asid tenant b frame).mem = s.mem.place (s.fid * 2 ^ 40 + frame * 2 ^ 16) (2 ^ 20) [] := by
      simp only [State.mapBacking, hleaf]
      rfl
    rw [hmem, Bytes.get_place]
    simp [Bytes.get]

theorem backingLeaf_maps (k j : Nat) : (backingLeaf asid tenant b frame k).maps asid (b + j) = true ↔ k = j / 65536 := by
  simp [backingLeaf, Leaf.maps, levelSize]
  omega

/-- Of the leaves of a backing area, the one of its page maps an address. -/
theorem find?_backingLeaf (j : Nat) (hj : j < 2 ^ 20) :
    ((List.range 16).map (backingLeaf asid tenant b frame)).find? (fun l => l.maps asid (b + j))
      = some (backingLeaf asid tenant b frame (j / 65536)) := by
  have hpage : (List.range 16).find? ((fun l : Leaf => l.maps asid (b + j)) ∘ backingLeaf asid tenant b frame)
      = some (j / 65536) := by
    have hmaps := backingLeaf_maps asid tenant b frame
    simp only [List.find?_range_eq_some, Function.comp_apply, hmaps, List.mem_range, Bool.not_eq_true', Bool.eq_false_iff,
      ne_eq, true_and]
    exact ⟨by omega, fun k hk => by omega⟩
  rw [List.find?_map, hpage]
  rfl

/-- An address of a backing area that was not mapped, and that no leaf touches, translates to its byte of the frame. -/
theorem State.mapBacking_translate (hleaf : s.leafAt asid b = none) (hlower : b + 2 ^ 20 ≤ 2 ^ 56)
    (hclear : ∀ l ∈ s.leaves, l.touches asid b (2 ^ 20) = false) (hframe : frame + 16 ≤ localFrames)
    (j : Nat) (hj : j < 2 ^ 20) :
    (s.mapBacking asid tenant b frame).translate asid (b + j) = some (s.fid * 2 ^ 40 + frame * 2 ^ 16 + j) := by
  have hold : s.leaves.find? (fun l => l.maps asid (b + j)) = none := by
    rw [List.find?_eq_none]
    exact fun l hl hmaps => Bool.eq_false_iff.1 (hclear l hl) (l.touches_of_maps hmaps (by omega) (by omega))
  have hfits : frame + j / 65536 < 2 ^ 24 := by
    have : localFrames = 11718750 := rfl
    omega
  have hfound : (s.mapBacking asid tenant b frame).leafAt asid (b + j)
      = some (backingLeaf asid tenant b frame (j / 65536)) := by
    rw [State.leafAt, spaceOf_of_lower _ _ (by omega), s.mapBacking_leaves asid tenant b frame hleaf, List.find?_append,
      hold, find?_backingLeaf asid tenant b frame j hj]
    rfl
  have hmode : pteMode (backingLeaf asid tenant b frame (j / 65536)).pte = 0 := pteMode_localEntry _ hfits
  have hpfn : ptePfn (backingLeaf asid tenant b frame (j / 65536)).pte = frame + j / 65536 := ptePfn_localEntry _ hfits
  have hfid : (s.mapBacking asid tenant b frame).fid = s.fid := by
    simp only [State.mapBacking, hleaf]
    rfl
  simp only [State.translate, hfound, hmode, State.frameKey, State.leafFid, hpfn, hfid]
  simp [backingLeaf]
  omega
end

/-! ### The hart at task entry (R40, R85, R209) -/

/-- A vector is entered at a multiple of 4. -/
theorem and_not_three (a : Word) : a &&& ~~~(3 : Word) = BitVec.ofNat 64 (a.toNat / 4 * 4) := by
  refine BitVec.eq_of_getLsbD_eq fun i hi => ?_
  have hlow : (3 : Word).getLsbD i = decide (i < 2) := Nat.testBit_two_pow_sub_one 2 i
  rw [BitVec.getLsbD_and, BitVec.getLsbD_not, hlow, BitVec.getLsbD_ofNat, show 4 = 2 ^ 2 from rfl, Nat.testBit_mul_two_pow,
    Nat.testBit_div_two_pow]
  by_cases h : 2 ≤ i
  · simp [h, hi, Nat.not_le.2 h, BitVec.getElem_eq_testBit_toNat]
  · simp [h, Nat.not_le.1 h]

section
variable (s : State) (l : Launch) (r : TaskRec) (c : BindChoice)

/-- The hart of a fresh task: what is not at its reset value. -/
theorem State.enterFresh_hart :
    (s.enterFresh l r c).hart = { Hart.reset s.hart.name with
      part := c.part, bound := true, task := s.newTask l r c, retired := s.hart.retired
      pc := if s.hart.name.ah then r.entry &&& ~~~1 else r.entry
      x := ((Vector.replicate 32 (0 : Word)).set 1 (taskArgs r)).set 2 (BitVec.ofNat 64 r.next)
      classmap := r.classmap.setWidth 64, tvec := BitVec.ofNat 64 (l.record.kvec.toNat / 4 * 4)
      tokens := s.hart.tokens.map TokSlot.atBind, tokOrder := s.hart.tokOrder
      mapbase := if s.hart.name.ah then 0 else BitVec.ofNat 64 c.backing
      ctxs := if s.hart.name.ah then [] else [TileCtx.all (BitVec.ofNat 64 c.backing) .undefined] } := by
  rw [← and_not_three]
  cases hah : s.hart.name.ah <;> simp only [State.enterFresh, entryHart, State.newTask, hah] <;> rfl

/-- A compute hart's task has its backing area mapped; an access hart's has none. -/
theorem State.enterFresh_mem : (s.enterFresh l r c).mem
    = (if s.hart.name.ah then s else s.mapBacking l.asid l.tenant c.backing c.frame).mem := rfl

theorem State.enterFresh_translate (asid va : Nat) : (s.enterFresh l r c).translate asid va
    = (if s.hart.name.ah then s else s.mapBacking l.asid l.tenant c.backing c.frame).translate asid va := rfl

theorem State.enterFresh_mem_get (j : Nat) :
    (s.enterFresh l r c).mem.get j
      = if s.hart.name.ah = false ∧ s.leafAt l.asid c.backing = none ∧ s.fid * 2 ^ 40 + c.frame * 2 ^ 16 ≤ j
          ∧ j < s.fid * 2 ^ 40 + c.frame * 2 ^ 16 + 2 ^ 20 then 0
        else s.mem.get j := by
  rw [State.enterFresh_mem]
  cases s.hart.name.ah
  · simp [s.mapBacking_mem_get]
  · simp

/-- Backing pages that are not resident are not mapped, and sixteen frames are free for them. -/
theorem State.backingPages_unmapped (asid tenant b frame : Nat) (hb : b % 2 ^ 20 = 0)
    (h : s.backingPages asid tenant b frame = true) (hleaf : s.leafAt asid b = none) :
    (∀ l ∈ s.leaves, l.touches asid b (2 ^ 20) = false) ∧ frame + 16 ≤ localFrames := by
  have haligned : (b / 65536 + 0) * 65536 = b := by omega
  have hfirst : s.resident asid tenant (b / 65536 + 0) = false := by
    simp only [State.resident, haligned, hleaf]
  have habsent : ((List.range 16).all fun k => s.resident asid tenant (b / 65536 + k)) = false :=
    List.all_eq_false.2 ⟨0, by simp, Bool.eq_false_iff.1 hfirst⟩
  rw [State.backingPages, habsent, Bool.false_or, Bool.and_eq_true, Bool.not_eq_true', List.any_eq_false] at h
  obtain ⟨hclear, hfree⟩ := h
  simp only [State.framesFree, Bool.and_eq_true, decide_eq_true_eq] at hfree
  exact ⟨fun l hl => Bool.eq_false_iff.2 (hclear l hl), hfree.1.1⟩

/-- Where a fresh task may enter a compute hart, its backing area translates to its frame once it was not mapped before. -/
theorem State.enterFresh_backing (hok : s.freshOk l r c = true) (hah : s.hart.name.ah = false)
    (hleaf : s.leafAt l.asid c.backing = none) (j : Nat) (hj : j < 2 ^ 20) :
    (s.enterFresh l r c).translate l.asid (c.backing + j) = some (s.fid * 2 ^ 40 + c.frame * 2 ^ 16 + j) := by
  simp only [State.freshOk, hah, Bool.false_or, Bool.and_eq_true] at hok
  obtain ⟨-, ⟨hbacking, hpages⟩, -⟩ := hok
  simp only [State.backingOk, Bool.and_eq_true, decide_eq_true_eq] at hbacking
  obtain ⟨⟨⟨haligned, hlower⟩, -⟩, -⟩ := hbacking
  obtain ⟨hclear, hframe⟩ := s.backingPages_unmapped l.asid l.tenant c.backing c.frame haligned hpages hleaf
  rw [State.enterFresh_translate, hah]
  exact s.mapBacking_translate l.asid l.tenant c.backing c.frame hleaf hlower hclear hframe j hj
end

/-- A free token slot starts again at a bind; a busy one stays (R236). -/
theorem get_tokens_atBind (v : Vector TokSlot 64) (k : Fin 64) :
    (v.map TokSlot.atBind).get k = if (v.get k).st = .free then TokSlot.empty else v.get k :=
  Vector.get_map v _ k

/-- The registers at task entry: `x1` and `x2` hold the argument and the index, every other one 0 (R40). -/
theorem getX_entry (h : Hart) (a i : Word) (hx : h.x = ((Vector.replicate 32 (0 : Word)).set 1 a).set 2 i) (q : XReg) :
    h.getX q = if q = 1 then a else if q = 2 then i else 0 := by
  unfold Hart.getX
  rw [hx, Vector.get_eq_getElem, Vector.getElem_set, Vector.getElem_set, Vector.getElem_replicate]
  by_cases h1 : q = 1
  · simp [h1]
  · by_cases h2 : q = 2
    · simp [h2]
    · have h1' : ¬1 = q.val := fun e => h1 (Fin.ext e.symm)
      have h2' : ¬2 = q.val := fun e => h2 (Fin.ext e.symm)
      simp [h1, h2, h1', h2']

/-- Settles O24: the cases of a bind by `execBind_of_noTask` to `execBind_of_again`; a fresh task by its hart
(`State.enterFresh_hart`), its memory and its translation, a context that resumes by `State.again`. -/
theorem bindingEntersOrResumes : Obligations.BindingEntersOrResumes := by
  intro c s hbound husable hused
  refine ⟨execBind_of_noTask c s hbound husable, fun w hnext => ⟨execBind_of_elsewhere c s hbound husable hused w hnext,
    fun hwaits => ⟨execBind_of_ignored c s hbound husable hused w hnext hwaits, fun hheeded => ⟨?_, ?_⟩⟩⟩⟩
  · rintro r l rfl hl
    have hexec := execBind_of_fresh c s hbound husable hused r l hnext hwaits hheeded hl
    refine ⟨fun hok => ?_, fun hok => ?_⟩
    · rw [hok] at hexec
      exact hexec
    · rw [hok] at hexec
      intro args index ah frame
      have hx := getX_entry (s.enterFresh l r c).hart args index (by rw [State.enterFresh_hart]; rfl)
      -- The control registers and the fields of the task are those of that hart.
      refine ⟨s.enterFresh l r c, hexec, s.enterFresh_hart l r c, rfl, hx 1, hx 2, fun q h1 h2 => ?_,
        Vector.get_replicate 32 [], Vector.get_replicate 8 [], rfl, rfl, rfl, rfl, rfl, rfl, rfl, rfl, rfl, rfl, rfl, rfl, rfl,
        rfl, rfl, rfl, rfl, rfl, rfl, get_tokens_atBind s.hart.tokens, rfl, rfl, rfl, rfl, rfl, rfl,
        fun hah hleaf j hj => ?_, fun j => ?_⟩
      · exact (hx q).trans (by rw [if_neg h1, if_neg h2])
      · exact s.enterFresh_backing l r c hok hah hleaf j hj
      · rw [s.enterFresh_mem_get l r c]
  · rintro h rfl
    have hexec := execBind_of_again c s hbound husable hused h hnext hwaits hheeded
    refine ⟨fun hholds => ?_, fun hholds => ?_⟩
    · rw [hholds] at hexec
      exact hexec
    · rw [hholds] at hexec
      refine ⟨s.enterAgain h c.eqMin c.eqCap, hexec, rfl, rfl, rfl, rfl, rfl, rfl, rfl, rfl, rfl, rfl, rfl, rfl, rfl, rfl, rfl, rfl,
        rfl, rfl, rfl, fun k hk => ?_⟩
      simpa using (List.mem_filter.1 hk).2

end Sys2Proof.Machine
end

section
/-! PROOFS of `LAUNCH`, `PAGEANS` and `MBOXW`. A launch that no check of R89 answers enters the live launches as the one of its
identifier and is sought: it asks for the pages it misses, or it starts, which loads its image and enqueues its tasks. Each of
these changes a few fields of the state alone, said once for each. -/

namespace Sys2Proof.Machine

/-! ### Commands (R245, R379) -/

/-- A command in sequence, its reserved bytes zero, takes effect. -/
theorem State.laidOut_accepted (s : State) (c : Cmd) (f : State → State) (hseq : c.seq = s.cmdSeq + 1)
    (hres : c.badReserved = false) : s.laidOut c f = .next (f { s with cmdSeq := c.seq }) := by
  rw [State.laidOut, State.command, if_pos hseq, hres]
  rfl

/-- A refusal takes one free value for its status, which is none of 0, 0xFFFE and 0xFFFF. -/
theorem State.refuse_eq (s : State) (cmd : BitVec 32) : ∃ code, 1 ≤ code ∧ code < 65534
    ∧ s.refuse cmd = ({ s with freeCount := s.freeCount + 1 } : State).post cmd (.status code 0 0 0) :=
  ⟨Config.openStatus s.freeCount % 65533 + 1, by omega, by omega, rfl⟩

/-! ### The launch of an identifier -/

/-- A launch that is last, under an identifier no other has, is the one of that identifier. -/
theorem State.launch?_of_last (s : State) (ls : List Launch) (l : Launch) (hs : s.launches = ls ++ [l])
    (hfree : ∀ k ∈ ls, k.id ≠ l.id) : s.launch? l.id = some l := by
  have hnone : ls.find? (fun k => k.id == l.id) = none := by simpa using hfree
  rw [State.launch?, hs, List.find?_append, hnone]
  simp

/-- A change of the last launch leaves those before it, of other identifiers, as they were. -/
theorem map_launch_concat (ls : List Launch) (l : Launch) (id : Nat) (f : Launch → Launch) (hid : l.id = id)
    (hfree : ∀ k ∈ ls, k.id ≠ id) : ((ls ++ [l]).map fun k => if k.id = id then f k else k) = ls ++ [f l] := by
  have hsame : (ls.map fun k => if k.id = id then f k else k) = ls :=
    (List.map_congr_left fun k hk => if_neg (hfree k hk)).trans (List.map_id' ls)
  simp [hsame, hid]

theorem filter_launch_concat (ls : List Launch) (l : Launch) (id : Nat) (hid : l.id = id) (hfree : ∀ k ∈ ls, k.id ≠ id) :
    ((ls ++ [l]).filter fun k => k.id != id) = ls := by
  have hsame : (ls.filter fun k => k.id != id) = ls := List.filter_eq_self.2 fun k hk => bne_iff_ne.2 (hfree k hk)
  simp [hsame, hid]

/-! ### Page requests (R175) -/

/-- The pages of a launch that are not resident for its tenant. -/
def State.missing (s : State) (l : Launch) : List Nat :=
  l.pages.filter fun p => !s.resident ((s.asidOf l.record.ctxId).getD 0) l.tenant p

/-- The next request, for a page of a launch. -/
def State.pageReq (s : State) (l : Launch) (p : Nat) : PageReq :=
  { seq := s.pageSeq + 1, va := p * 65536, write := needsWrite l.record p }

/-- A page asked for is the launch's last request. -/
theorem State.requestPage_launches (s : State) (l k : Launch) (p : Nat) (ls : List Launch) (hk : k.id = l.id)
    (hs : s.launches = ls ++ [k]) (hfree : ∀ k ∈ ls, k.id ≠ l.id) :
    (s.requestPage l p).launches = ls ++ [{ k with requests := k.requests ++ [s.pageReq l p] }] := by
  rw [← map_launch_concat ls k l.id (fun k => { k with requests := k.requests ++ [s.pageReq l p] }) hk hfree, ← hs]
  rfl

/-- Ask for some pages of a launch, one after another. -/
def State.requestPages (s : State) (l : Launch) (ps : List Nat) : State := ps.foldl (fun s p => s.requestPage l p) s

/-- Each page asked for is one request of the launch and one completion; nothing else of the launches, no task and no byte of
memory changes. -/
theorem State.requestPages_asks (l : Launch) (ls : List Launch) (ps : List Nat) (hfree : ∀ k ∈ ls, k.id ≠ l.id)
    (s : State) (k : Launch) (hk : k.id = l.id) (hs : s.launches = ls ++ [k]) :
    ∃ qs, (s.requestPages l ps).launches = ls ++ [{ k with requests := k.requests ++ qs }]
      ∧ qs.map (·.va) = ps.map (· * 65536) ∧ (s.requestPages l ps).completions.length = s.completions.length + ps.length
      ∧ (s.requestPages l ps).queue = s.queue ∧ (s.requestPages l ps).mem = s.mem := by
  induction ps generalizing s k with
  | nil => exact ⟨[], by simpa [State.requestPages] using hs, rfl, rfl, rfl, rfl⟩
  | cons p ps ih =>
    obtain ⟨qs, hlaunches, hva, hlen, hqueue, hmem⟩ := ih (s.requestPage l p)
      { k with requests := k.requests ++ [s.pageReq l p] } hk (s.requestPage_launches l k p ls hk hs hfree)
    refine ⟨s.pageReq l p :: qs, hlaunches.trans (by simp), by simp [hva, State.pageReq], hlen.trans ?_, hqueue, hmem⟩
    simp only [State.requestPage, State.onLaunch_completions, State.post, List.length_append, List.length_cons, List.length_nil]
    omega

/-! ### The start of a launch (R38, R90, R91, R198, R264) -/

/-- Section bytes change memory, and what the next incremental image tells. -/
theorem State.loadBytes_eq (s : State) (asid va : Nat) (bs : List Byte) :
    ∃ m b, s.loadBytes asid va bs = { s with mem := m, baselines := b } := by
  rw [State.loadBytes]
  generalize pagesOf va bs.length = ps
  induction ps generalizing s with
  | nil => exact ⟨s.mem, s.baselines, rfl⟩
  | cons p ps ih =>
    rw [List.foldl_cons]
    split
    · split
      · exact ih _
      · exact ih s
    · exact ih s

theorem State.loadSections_eq (s : State) (asid : Nat) (xs : List Section) :
    ∃ m b, xs.foldl (fun s x => s.loadSection asid x) s = { s with mem := m, baselines := b } := by
  induction xs generalizing s with
  | nil => exact ⟨s.mem, s.baselines, rfl⟩
  | cons x xs ih =>
    obtain ⟨m, b, h⟩ := s.loadBytes_eq asid x.addr (x.bytes.take x.len ++ List.replicate (x.len - x.bytes.length) 0)
    rw [List.foldl_cons, State.loadSection, h]
    exact ih _

/-- Records that enter change the task queue, and take names. -/
theorem State.enqueueEach_eq {α : Type} (s : State) (xs : List α) (r : α → Nat → TaskRec) :
    ∃ q n, xs.foldl (fun s x => s.takeName.2.enqueueTask (r x s.takeName.1)) s = { s with queue := q, nextName := n } := by
  induction xs generalizing s with
  | nil => exact ⟨s.queue, s.nextName, rfl⟩
  | cons x xs ih => exact ih _

theorem State.enqueueInitial_eq (s : State) (l : Launch) :
    ∃ q n, s.enqueueInitial l = { s with queue := q, nextName := n } := by
  simp only [State.enqueueInitial]
  split
  · exact ⟨s.queue, s.nextName, rfl⟩
  · split
    · exact ⟨_, _, rfl⟩
    · exact s.enqueueEach_eq _ fun (x : HartName × Nat) id => l.initial id x.1.cluster x.2 (x.2 + 1) [x.1]

/-- A launch without a task enqueues none. -/
theorem State.enqueueInitial_of_zero (s : State) (l : Launch) (h : l.record.desc.count = 0) : s.enqueueInitial l = s := by
  simp [State.enqueueInitial, h]

/-- A launch as it starts, in an address space. -/
def Launch.started (l : Launch) (asid : Nat) : Launch :=
  { l with asid := asid, owed := none, windows := windowsOf l.record.windows, live := l.record.desc.count.toNat }

/-- What a start changes before the launch could end: its image and its tasks enter, the launch is live, status 0 is posted; a
launch of no task loads nothing and enqueues nothing. -/
theorem State.startLaunch_eq (s : State) (l : Launch) (asid : Nat) (cmd : BitVec 32) (ls : List Launch)
    (hs : s.launches = ls ++ [l]) (hfree : ∀ k ∈ ls, k.id ≠ l.id) :
    ∃ t : State, s.startLaunch { l with asid := asid } cmd = t.launchEnds l.id ∧ t.launches = ls ++ [l.started asid]
      ∧ t.completions = s.completions ++ [{ seq := s.compSeq + 1, cmd := cmd, body := .status 0 l.id 0 0 }]
      ∧ t.compSeq = s.compSeq + 1 ∧ (l.record.desc.count = 0 → t.queue = s.queue ∧ t.mem = s.mem) := by
  have hstarted := map_launch_concat ls l l.id (·.started asid) rfl hfree
  rw [← hs] at hstarted
  by_cases hcount : l.record.desc.count = 0
  · refine ⟨_, congrArg (State.launchEnds · l.id) (State.enqueueInitial_of_zero _ _ hcount), ?_⟩
    simp only [hcount, if_true]
    exact ⟨hstarted, rfl, rfl, fun _ => ⟨rfl, rfl⟩⟩
  · obtain ⟨m, b, hload⟩ := s.loadSections_eq asid l.record.sections
    simp only [State.startLaunch, if_neg hcount, hload]
    obtain ⟨q, n, htasks⟩ := State.enqueueInitial_eq (State.post (State.onLaunch _ _ _) _ _) { l with asid := asid }
    rw [htasks]
    exact ⟨_, rfl, hstarted, rfl, rfl, fun h => absurd h hcount⟩

/-- A launch with a live task goes on. -/
theorem State.launchEnds_of_live (s : State) (l : Launch) (h : s.launch? l.id = some l) (hlive : l.live ≠ 0) :
    s.launchEnds l.id = s := by
  simp [State.launchEnds, h, hlive]

/-- A launch without a live task ends: its completion record is posted, and it is no longer live. -/
theorem State.launchEnds_of_done (s : State) (l : Launch) (h : s.launch? l.id = some l) (hlive : l.live = 0) :
    ∃ t : State, s.launchEnds l.id = t ∧ t.launches = s.launches.filter (fun k => k.id != l.id)
      ∧ t.completions = s.completions
        ++ [{ seq := s.compSeq + 1, cmd := 0, body := .launchDone l.id l.record.ctxId l.exited l.terminated }]
      ∧ t.queue = s.queue ∧ t.mem = s.mem := by
  simp only [State.launchEnds, h, hlive, if_true]
  exact ⟨_, rfl, rfl, rfl, rfl, rfl⟩

/-! ### A launch whose answer is owed (R175) -/

theorem State.seek_of_missing (s : State) (l : Launch) (cmd : BitVec 32) (h : s.launch? l.id = some l)
    (howed : l.owed = some cmd) (hmissing : s.missing l ≠ []) :
    s.seek l.id = s.requestPages l ((s.missing l).filter fun p => !l.requests.any fun q => q.va == p * 65536) := by
  rw [State.seek, h]
  simp only [howed]
  exact if_neg hmissing

theorem State.seek_of_resident (s : State) (l : Launch) (cmd : BitVec 32) (a : Nat × State) (h : s.launch? l.id = some l)
    (howed : l.owed = some cmd) (hmissing : s.missing l = []) (hspace : s.spaceFor l.record.ctxId 0 = some a) :
    s.seek l.id = a.2.startLaunch { l with asid := a.1 } cmd := by
  rw [State.seek, h]
  simp only [howed]
  refine (if_pos hmissing).trans ?_
  rw [hspace]

/-- A context has an address space, or one is left for it. -/
theorem State.isSome_spaceFor (s : State) (ctx : BitVec 32) (va : Nat) :
    (s.spaceFor ctx va).isSome = (bitOf va 56 || (s.asidOf ctx).isSome || s.freeAsid.isSome) := by
  rw [State.spaceFor]
  cases bitOf va 56
  · cases s.asidOf ctx <;> simp
  · rfl

/-- Giving a context its address space changes the spaces alone. -/
theorem State.spaceFor_eq (s : State) (ctx : BitVec 32) (va : Nat) (a : Nat × State) (h : s.spaceFor ctx va = some a) :
    ∃ sp, a.2 = { s with spaces := sp } := by
  rw [State.spaceFor] at h
  split at h
  · cases h
    exact ⟨s.spaces, rfl⟩
  · split at h
    · cases h
      exact ⟨s.spaces, rfl⟩
    · obtain ⟨n, -, rfl⟩ := Option.map_eq_some_iff.1 h
      exact ⟨_, rfl⟩

/-! ### `LAUNCH` (R17, R19, R42, R43, R51, R89) -/

/-- What an accepted `LAUNCH` does. -/
def State.launched (s : State) (c : Cmd) (r : LaunchReq) (ids : LaunchIds) : State :=
  if !s.usable || !s.configured then s.refuse c.seq
  else if s.quiet c.tenant then s.answer c 6
  else
    match s.readOutside r.imageFid r.imageAddr r.imageLen with
    | some x => x.2.launchWith c r ids x.1
    | none => s.refuse c.seq

/-- `LAUNCH` in sequence, under identifiers obsidian may choose. -/
theorem execLaunch_eq (c : Cmd) (r : LaunchReq) (ids : LaunchIds) (s : State) (hids : s.idsFree ids = true)
    (hseq : c.seq = s.cmdSeq + 1) (hres : c.badReserved = false) :
    execLaunch c r ids s = .next (({ s with cmdSeq := c.seq } : State).launched c r ids) := by
  rw [execLaunch, if_neg (by simp [hids]), State.laidOut_accepted s c _ hseq hres]
  rfl

/-- The bytes of an endpoint that answers are read, by way of the fabric where it is another package. -/
theorem State.readOutside_of_reached (s : State) (fid addr len : Nat) (h : fid = s.fid ∨ s.isAbsent fid = false) :
    s.readOutside fid addr len
      = some (s.outsideN fid addr len, if fid = s.fid then s else s.send (.ualinkRead fid addr len)) :=
  if_neg (by rcases h with h | h <;> simp [h])

theorem State.readOutside_of_absent (s : State) (fid addr len : Nat) (hne : fid ≠ s.fid) (h : s.isAbsent fid = true) :
    s.readOutside fid addr len = none :=
  if_pos (by simp [hne, h])

/-- A package that accepts no launch refuses it. -/
theorem State.launched_of_off (s : State) (c : Cmd) (r : LaunchReq) (ids : LaunchIds)
    (hoff : s.usable = false ∨ s.configured = false) : s.launched c r ids = s.refuse c.seq :=
  if_pos (by rcases hoff with h | h <;> simp [h])

section
variable (s : State) (c : Cmd) (r : LaunchReq) (ids : LaunchIds) (husable : s.usable = true) (hconfigured : s.configured = true)
include husable hconfigured

theorem State.launched_of_quiet (hquiet : s.quiet c.tenant = true) : s.launched c r ids = s.answer c 6 := by
  simp [State.launched, husable, hconfigured, hquiet]

theorem State.launched_of_absent (hquiet : s.quiet c.tenant = false) (hne : r.imageFid ≠ s.fid)
    (habsent : s.isAbsent r.imageFid = true) : s.launched c r ids = s.refuse c.seq := by
  simp [State.launched, husable, hconfigured, hquiet, s.readOutside_of_absent _ _ _ hne habsent]

theorem State.launched_of_reached (hquiet : s.quiet c.tenant = false)
    (hreached : r.imageFid = s.fid ∨ s.isAbsent r.imageFid = false) :
    s.launched c r ids
      = (if r.imageFid = s.fid then s else s.send (.ualinkRead r.imageFid r.imageAddr r.imageLen)).launchWith c r ids
          (s.outsideN r.imageFid r.imageAddr r.imageLen) := by
  simp [State.launched, husable, hconfigured, hquiet, s.readOutside_of_reached _ _ _ hreached]
end

/-- A command was accepted and its image read, which leaves a read on the fabric or none. -/
def State.imageRead (s : State) (c : Cmd) (e : List Msg) : State := { s with cmdSeq := c.seq, egress := e }

/-- An identifier that may be chosen is of no launch. -/
theorem State.idsFree_launches (s : State) (ids : LaunchIds) (h : s.idsFree ids = true) :
    ∀ l ∈ s.launches, l.id ≠ ids.launch := by
  simp only [State.idsFree, Bool.and_eq_true, List.all_eq_true] at h
  obtain ⟨⟨-, hfree⟩, -⟩ := h
  exact fun l hl => bne_iff_ne.1 (hfree l hl).1

/-- The state with one more launch. -/
def State.entered (s : State) (l : Launch) : State := { s with launches := s.launches ++ [l] }

/-- A file that is signed and that R42 or R43 refuses is refused. -/
theorem State.launchWith_of_badFile (s : State) (c : Cmd) (r : LaunchReq) (ids : LaunchIds) (img : List Byte)
    (hsigned : sofAccepted s.registered c.tenant img = true) (hbad : sofHeaderOk img = false ∨ sofTypesOk img = false) :
    s.launchWith c r ids img = s.refuse c.seq :=
  if_pos (by rcases hbad with h | h <;> simp [hsigned, h])

theorem State.launchWith_of_unsigned (s : State) (c : Cmd) (r : LaunchReq) (ids : LaunchIds) (img : List Byte)
    (hquiet : s.quiet c.tenant = false) (hsigned : sofAccepted s.registered c.tenant img = false) :
    s.launchWith c r ids img = s.answer c 4 := by
  simp [State.launchWith, State.launchStatus, hquiet, hsigned]

section
variable (s : State) (c : Cmd) (r : LaunchReq) (ids : LaunchIds) (img : List Byte)
  (hsigned : sofAccepted s.registered c.tenant img = true) (hheader : sofHeaderOk img = true) (htypes : sofTypesOk img = true)
include hsigned hheader htypes

theorem State.launchWith_of_status (hst : s.launchStatus c true (launchRecord r img) ≠ 0) :
    s.launchWith c r ids img = s.answer c (s.launchStatus c true (launchRecord r img)) := by
  simp [State.launchWith, hsigned, hheader, htypes, hst]

/-- A launch that no check answers enters, its answer owed, and is sought. -/
theorem State.launchWith_of_accepted (hst : s.launchStatus c true (launchRecord r img) = 0) :
    s.launchWith c r ids img = (s.entered (launchOf c (launchRecord r img) ids)).seek ids.launch := by
  simp [State.launchWith, State.entered, hsigned, hheader, htypes, hst]
end

/-- The pages a launch of the record needs and does not find resident. -/
def State.missingFor (s : State) (c : Cmd) (p : LaunchRecord) : List Nat :=
  (neededPages p).filter fun a => !s.resident ((s.asidOf p.ctxId).getD 0) c.tenant a

section
variable (s : State) (c : Cmd) (p : LaunchRecord) (ids : LaunchIds) (hfree : ∀ l ∈ s.launches, l.id ≠ ids.launch)

theorem State.missing_entered (hcount : p.desc.count ≠ 0) :
    (s.entered (launchOf c p ids)).missing (launchOf c p ids) = s.missingFor c p :=
  congrArg (List.filter _) (if_neg hcount)

/-- A launch of no task misses no page. -/
theorem State.missing_entered_of_zero (hcount : p.desc.count = 0) :
    (s.entered (launchOf c p ids)).missing (launchOf c p ids) = [] :=
  congrArg (List.filter _) (if_pos hcount)

include hfree

theorem State.launch?_entered : (s.entered (launchOf c p ids)).launch? ids.launch = some (launchOf c p ids) :=
  State.launch?_of_last _ s.launches (launchOf c p ids) rfl hfree

/-- A launch that misses pages asks for each of them, and waits. -/
theorem State.seek_entered_asks (hcount : p.desc.count ≠ 0) (hmissing : s.missingFor c p ≠ []) :
    ∃ t l, (s.entered (launchOf c p ids)).seek ids.launch = t ∧ t.launches = s.launches ++ [l] ∧ l.id = ids.launch
      ∧ l.owed = some c.seq ∧ l.record = p ∧ l.requests.map (·.va) = (s.missingFor c p).map (· * 65536)
      ∧ t.completions.length = s.completions.length + (s.missingFor c p).length ∧ t.queue = s.queue ∧ t.mem = s.mem := by
  have hnew : ((s.missingFor c p).filter fun a => !(launchOf c p ids).requests.any fun q => q.va == a * 65536)
      = s.missingFor c p := List.filter_eq_self.2 fun _ _ => rfl
  have hseek := State.seek_of_missing _ (launchOf c p ids) c.seq (s.launch?_entered c p ids hfree) rfl
    (by rwa [s.missing_entered c p ids hcount])
  rw [s.missing_entered c p ids hcount, hnew] at hseek
  obtain ⟨qs, hl, hva, hlen, hqueue, hmem⟩ := State.requestPages_asks (launchOf c p ids) s.launches (s.missingFor c p) hfree
    (s.entered (launchOf c p ids)) (launchOf c p ids) rfl rfl
  exact ⟨_, _, hseek, hl, rfl, rfl, rfl, hva, hlen, hqueue, hmem⟩

/-- A launch that misses no page starts in the address space of its context: what it then is, before it could end. -/
theorem State.seek_entered_starts (hmissing : (s.entered (launchOf c p ids)).missing (launchOf c p ids) = [])
    (hspace : (s.spaceFor p.ctxId 0).isSome = true) :
    ∃ (t : State) (asid : Nat), (s.entered (launchOf c p ids)).seek ids.launch = t.launchEnds ids.launch
      ∧ t.launches = s.launches ++ [(launchOf c p ids).started asid]
      ∧ t.completions = s.completions ++ [{ seq := s.compSeq + 1, cmd := c.seq, body := .status 0 ids.launch 0 0 }]
      ∧ t.compSeq = s.compSeq + 1 ∧ (p.desc.count = 0 → t.queue = s.queue ∧ t.mem = s.mem) := by
  have hspace' : ((s.entered (launchOf c p ids)).spaceFor p.ctxId 0).isSome = true := by
    rw [State.isSome_spaceFor] at hspace ⊢
    exact hspace
  obtain ⟨a, ha⟩ := Option.isSome_iff_exists.1 hspace'
  obtain ⟨sp, hsp⟩ := State.spaceFor_eq _ _ _ a ha
  have hseek := State.seek_of_resident _ (launchOf c p ids) c.seq a (s.launch?_entered c p ids hfree) rfl hmissing ha
  obtain ⟨t, hstart, hfacts⟩ := State.startLaunch_eq a.2 (launchOf c p ids) a.1 c.seq s.launches (by rw [hsp]; rfl) hfree
  rw [hsp] at hfacts
  exact ⟨t, a.1, hseek.trans hstart, hfacts⟩

/-- A launch with a task and no missing page is live, and its status 0 is posted. -/
theorem State.seek_entered_lives (hcount : p.desc.count ≠ 0) (hmissing : s.missingFor c p = [])
    (hspace : (s.spaceFor p.ctxId 0).isSome = true) :
    ∃ (t : State) (asid : Nat), (s.entered (launchOf c p ids)).seek ids.launch = t
      ∧ t.completions = s.completions ++ [{ seq := s.compSeq + 1, cmd := c.seq, body := .status 0 ids.launch 0 0 }]
      ∧ (launchOf c p ids).started asid ∈ t.launches := by
  obtain ⟨t, asid, hseek, hlaunches, hposted, -⟩ :=
    s.seek_entered_starts c p ids hfree ((s.missing_entered c p ids hcount).trans hmissing) hspace
  have hfound := t.launch?_of_last s.launches ((launchOf c p ids).started asid) hlaunches hfree
  have hlive := State.launchEnds_of_live t ((launchOf c p ids).started asid) hfound fun h => hcount (BitVec.eq_of_toNat_eq h)
  exact ⟨t, asid, hseek.trans hlive, hposted, by simp [hlaunches]⟩

/-- A launch of no task starts and ends at once. -/
theorem State.seek_entered_completes (hcount : p.desc.count = 0) (hspace : (s.spaceFor p.ctxId 0).isSome = true) :
    ∃ t, (s.entered (launchOf c p ids)).seek ids.launch = t
      ∧ t.completions = s.completions ++
        [{ seq := s.compSeq + 1, cmd := c.seq, body := .status 0 ids.launch 0 0 },
          { seq := s.compSeq + 2, cmd := 0, body := .launchDone ids.launch p.ctxId 0 0 }]
      ∧ t.launches = s.launches ∧ t.queue = s.queue ∧ t.mem = s.mem := by
  obtain ⟨t, asid, hseek, hlaunches, hposted, hseq, hkept⟩ :=
    s.seek_entered_starts c p ids hfree (s.missing_entered_of_zero c p ids hcount) hspace
  obtain ⟨hqueue, hmem⟩ := hkept hcount
  have hfound := t.launch?_of_last s.launches ((launchOf c p ids).started asid) hlaunches hfree
  obtain ⟨u, hends, hl, hc, hq, hm⟩ := State.launchEnds_of_done t ((launchOf c p ids).started asid) hfound
    (congrArg BitVec.toNat hcount)
  refine ⟨u, hseek.trans hends, ?_, ?_, hq.trans hqueue, hm.trans hmem⟩
  · rw [hc, hposted, hseq, List.append_assoc, BitVec.add_assoc]
    rfl
  · rw [hl, hlaunches]
    exact filter_launch_concat s.launches ((launchOf c p ids).started asid) ids.launch rfl hfree
end

theorem launchAnswersOrStarts : Says.LaunchAnswersOrStarts := by
  intro c r ids s hids hseq hres s1 refused img s2 signed p st
  have hexec : exec (.launch c r ids) s = .next (s1.launched c r ids) := execLaunch_eq c r ids s hids hseq hres
  have hrefuse : ∀ t : State, t.freeCount = s.freeCount → exec (.launch c r ids) s = .next (t.refuse c.seq) →
      refused t := by
    intro t ht h
    obtain ⟨code, hlo, hhi, hcode⟩ := t.refuse_eq c.seq
    exact ⟨code, hlo, hhi, by rw [h, hcode, ht]⟩
  refine ⟨fun hoff => ?_, fun husable hconfigured =>
    ⟨fun hquiet => ?_, fun hquiet hne habsent => ?_, fun hquiet hreached => ?_⟩⟩
  · exact hrefuse s1 rfl (hexec.trans (congrArg _ (s1.launched_of_off c r ids hoff)))
  · exact hexec.trans (congrArg _ (s1.launched_of_quiet c r ids husable hconfigured hquiet))
  · exact hrefuse s1 rfl (hexec.trans (congrArg _ (s1.launched_of_absent c r ids husable hconfigured hquiet hne habsent)))
  · have hwith : exec (.launch c r ids) s = .next (s2.launchWith c r ids img) :=
      hexec.trans (congrArg _ (s1.launched_of_reached c r ids husable hconfigured hquiet hreached))
    obtain ⟨e, he⟩ : ∃ e, s2 = s.imageRead c e := by
      by_cases h : r.imageFid = s.fid
      · exact ⟨s.egress, if_pos h⟩
      · exact ⟨_, if_neg h⟩
    have hst : ∀ b, signed = b → st = (s.imageRead c e).launchStatus c b p := fun b hb => by rw [← hb, ← he]
    clear_value s2 st
    subst he
    refine ⟨fun hsigned hbad => ?_, fun hsigned => ?_, fun hsigned hheader htypes => ?_⟩
    · exact hrefuse _ rfl (hwith.trans (congrArg _ ((s.imageRead c e).launchWith_of_badFile c r ids img hsigned hbad)))
    · exact hwith.trans (congrArg _ ((s.imageRead c e).launchWith_of_unsigned c r ids img hquiet hsigned))
    · rw [hst true hsigned]
      refine ⟨fun hne => ?_, fun hzero => ?_⟩
      · exact hwith.trans (congrArg _ ((s.imageRead c e).launchWith_of_status c r ids img hsigned hheader htypes hne))
      · intro missing
        rw [(s.imageRead c e).launchWith_of_accepted c r ids img hsigned hheader htypes hzero] at hwith
        have hfree := s.idsFree_launches ids hids
        have hspaces : ((s.imageRead c e).spaceFor p.ctxId 0).isSome = (s.spaceFor r.ctxId 0).isSome := by
          rw [State.isSome_spaceFor, State.isSome_spaceFor]
          rfl
        have hne : 0 < r.desc.count.toNat → p.desc.count ≠ 0 := fun hpos h0 => Nat.ne_of_gt hpos (congrArg BitVec.toNat h0)
        refine ⟨fun hpos hmissing => ?_, fun hpos hmissing hspace => ?_, fun hcount hspace => ?_⟩
        · obtain ⟨t, l, hseek, hasks⟩ := (s.imageRead c e).seek_entered_asks c p ids hfree (hne hpos) hmissing
          exact ⟨t, l, hwith.trans (congrArg _ hseek), hasks⟩
        · obtain ⟨t, asid, hseek, hposted, hlive⟩ :=
            (s.imageRead c e).seek_entered_lives c p ids hfree (hne hpos) hmissing (hspaces.trans hspace)
          exact ⟨t, hwith.trans (congrArg _ hseek), hposted, _, hlive, rfl, rfl, rfl, rfl, rfl, rfl, rfl, rfl, rfl⟩
        · obtain ⟨t, hseek, hdone⟩ := (s.imageRead c e).seek_entered_completes c p ids hfree hcount (hspaces.trans hspace)
          exact ⟨t, hwith.trans (congrArg _ hseek), hdone⟩

/-! ### `PAGEANS` and `MBOXW` (R106, R175, R379) -/

/-- The launch waits for its start, and a page request of it has this number. -/
def Launch.asks (l : Launch) (c : Cmd) (ctx req : BitVec 32) : Bool :=
  l.owed.isSome && l.tenant == c.tenant && l.record.ctxId == ctx && l.requests.any fun q => q.seq == req

section
variable (c : Cmd) (s : State) (hseq : c.seq = s.cmdSeq + 1) (hres : c.badReserved = false)
include hseq hres

section
variable (ctx req : BitVec 32) (maps : List MapCmd)

theorem execPageans_of_unasked (ok : Bool) (h : s.launches.find? (·.asks c ctx req) = none) :
    execPageans c ctx req ok maps s = .next (({ s with cmdSeq := c.seq } : State).answer c 0) := by
  unfold Launch.asks at h
  rw [execPageans, State.laidOut_accepted s c _ hseq hres]
  simp only [h]

theorem execPageans_of_refused (l : Launch) (h : s.launches.find? (·.asks c ctx req) = some l) :
    execPageans c ctx req false maps s = .next ((({ s with cmdSeq := c.seq } : State).answer c 0).failLaunch l) := by
  unfold Launch.asks at h
  rw [execPageans, State.laidOut_accepted s c _ hseq hres]
  simp only [h]
  rfl

/-- The pages of an answer are mapped, the request is answered, and its launch is sought again. -/
theorem execPageans_of_given (l : Launch) (h : s.launches.find? (·.asks c ctx req) = some l) :
    execPageans c ctx req true maps s = .next
      ((((({ s with cmdSeq := c.seq } : State).mapAll c.tenant maps).2.onLaunch l.id fun l =>
        { l with requests := l.requests.filter fun q => q.seq != req }).answer c
          (({ s with cmdSeq := c.seq } : State).mapAll c.tenant maps).1).seek l.id) := by
  unfold Launch.asks at h
  rw [execPageans, State.laidOut_accepted s c _ hseq hres]
  simp only [h]
  rfl
end

section
variable (n k : Nat) (v : Word)

theorem execMboxw_of_index (l : Launch) (h : s.launch? n = some l) (htenant : l.tenant = c.tenant) (howed : l.owed = none)
    (hk : k < 8) :
    execMboxw c n k v s = .next ((({ s with cmdSeq := c.seq } : State).onLaunch l.id fun l =>
      { l with mbox := l.mbox.set k v }).answer c 0) := by
  have h1 : ({ s with cmdSeq := c.seq } : State).launch? n = some l := h
  rw [execMboxw, State.laidOut_accepted s c _ hseq hres]
  simp [h1, htenant, howed, hk]

theorem execMboxw_of_badIndex (l : Launch) (h : s.launch? n = some l) (htenant : l.tenant = c.tenant) (howed : l.owed = none)
    (hk : 8 ≤ k) : execMboxw c n k v s = .next (({ s with cmdSeq := c.seq } : State).answer c 2) := by
  have h1 : ({ s with cmdSeq := c.seq } : State).launch? n = some l := h
  rw [execMboxw, State.laidOut_accepted s c _ hseq hres]
  simp [h1, htenant, howed, Nat.not_lt.2 hk]

theorem execMboxw_of_other (h : ∀ l, s.launch? n = some l → l.tenant ≠ c.tenant ∨ l.owed ≠ none) :
    execMboxw c n k v s = .next (({ s with cmdSeq := c.seq } : State).answer c 1) := by
  have hsame : ({ s with cmdSeq := c.seq } : State).launch? n = s.launch? n := rfl
  rw [execMboxw, State.laidOut_accepted s c _ hseq hres]
  cases hl : s.launch? n with
  | none => simp [hsame, hl]
  | some l =>
    rcases h l hl with htenant | howed
    · simp [hsame, hl, htenant]
    · simp [hsame, hl, Option.isSome_iff_ne_none.2 howed]
end
end

theorem pageAnswersAndMailboxWrites : Says.PageAnswersAndMailboxWrites := by
  intro c ctx req n k v ms s hseq hres s1 asks
  exact ⟨fun hnone ok => execPageans_of_unasked c s hseq hres ctx req ms ok hnone,
    fun l hl => ⟨execPageans_of_refused c s hseq hres ctx req ms l hl, execPageans_of_given c s hseq hres ctx req ms l hl⟩,
    fun l hl htenant howed => ⟨execMboxw_of_index c s hseq hres n k v l hl htenant howed,
      execMboxw_of_badIndex c s hseq hres n k v l hl htenant howed⟩,
    execMboxw_of_other c s hseq hres n k v⟩

/-- Settles O54: a launch by what it is sought for (`State.seek_entered_asks`, `State.seek_entered_lives`,
`State.seek_entered_completes`), page answers and mailbox writes outcome by outcome. -/
theorem launchesAndTheirPages : Obligations.LaunchesAndTheirPages := ⟨launchAnswersOrStarts, pageAnswersAndMailboxWrites⟩

end Sys2Proof.Machine
end

section
/-! PROOFS of the encoding (R52 to R78). A word is its fields side by side (`pack`). Reading a field of what a format puts
together gives the field back, so that the decoder finds the instruction it was made from; and what the decoder reads of a
word, with the fields it requires to be zero, is the whole word. -/

namespace Sys2Proof

/-! ### Fields side by side (R53) -/

/-- Fields of the given widths side by side, the lowest first. -/
def pack : List (Nat × Nat) → Nat
  | [] => 0
  | (n, v) :: r => pack r * 2 ^ n + v

theorem pack_singleton (n v : Nat) : pack [(n, v)] = v := by simp [pack]

/-- A sum of a high and a low part stands for two fields. -/
theorem pack_split (n k x c : Nat) (r : List (Nat × Nat)) (h : k ≤ n) :
    pack ((n, x * 2 ^ k + c) :: r) = pack ((k, c) :: (n - k, x) :: r) := by
  obtain ⟨j, rfl⟩ := Nat.exists_eq_add_of_le h
  rw [Nat.add_sub_cancel_left]
  simp only [pack]
  ring

/-- A field inside the lowest one. -/
@[simp] theorem fld_pack_inside (n v lo k : Nat) (r : List (Nat × Nat)) (hv : v < 2 ^ n) (h : lo + k ≤ n) :
    fld (pack ((n, v) :: r)) lo k = fld v lo k := by
  obtain ⟨j, rfl⟩ := Nat.exists_eq_add_of_le h
  have e : pack ((lo + k + j, v) :: r) = v + 2 ^ lo * (2 ^ k * (pack r * 2 ^ j)) := by
    simp only [pack]
    ring
  rw [e, fld, Nat.add_mul_div_left _ _ (by positivity), Nat.add_mul_mod_self_left, fld]

/-- A field above the lowest one. -/
@[simp] theorem fld_pack_above (n v lo k : Nat) (r : List (Nat × Nat)) (hv : v < 2 ^ n) (h : n ≤ lo) :
    fld (pack ((n, v) :: r)) lo k = fld (pack r) (lo - n) k := by
  obtain ⟨j, rfl⟩ := Nat.exists_eq_add_of_le h
  rw [fld, pack, Nat.pow_add, ← Nat.div_div_eq_div_mul, Nat.add_comm, Nat.add_mul_div_right _ _ (by positivity),
    Nat.div_eq_of_lt hv, Nat.zero_add, Nat.add_sub_cancel_left, fld]

/-- A field that begins in the lowest one, where that is zero from there up. -/
@[simp] theorem fld_pack_across (n v lo k : Nat) (r : List (Nat × Nat)) (hv : v < 2 ^ lo) (h : lo < n) (h' : n < lo + k) :
    fld (pack ((n, v) :: r)) lo k = fld (pack r) 0 (k - (n - lo)) * 2 ^ (n - lo) := by
  obtain ⟨i, rfl⟩ := Nat.exists_eq_add_of_le h.le
  obtain ⟨j, rfl⟩ := Nat.exists_eq_add_of_le (show i ≤ k by omega)
  simp only [fld, pack, Nat.add_sub_cancel_left, pow_zero, Nat.div_one]
  rw [Nat.pow_add, mul_comm (2 ^ lo), ← mul_assoc, Nat.add_comm, Nat.add_mul_div_right _ _ (by positivity),
    Nat.div_eq_of_lt hv, Nat.zero_add, Nat.pow_add, mul_comm (2 ^ i), Nat.mul_mod_mul_right]

@[simp] theorem fld_of_lt (v k : Nat) (h : v < 2 ^ k) : fld v 0 k = v := by
  rw [fld, pow_zero, Nat.div_one, Nat.mod_eq_of_lt h]

@[simp] theorem fld_of_lt_lo (v lo k : Nat) (h : v < 2 ^ lo) : fld v lo k = 0 := by
  rw [fld, Nat.div_eq_of_lt h, Nat.zero_mod]

theorem pack_cons_lt (n v m : Nat) (r : List (Nat × Nat)) (hv : v < 2 ^ n) (h : n ≤ m) :
    pack ((n, v) :: r) < 2 ^ m ↔ pack r < 2 ^ (m - n) := by
  obtain ⟨j, rfl⟩ := Nat.exists_eq_add_of_le h
  rw [Nat.add_sub_cancel_left, pack, Nat.pow_add, Nat.mul_comm (2 ^ n)]
  constructor
  · intro hlt
    exact Nat.lt_of_mul_lt_mul_right (Nat.lt_of_le_of_lt (Nat.le_add_right _ v) hlt)
  · intro hlt
    calc pack r * 2 ^ n + v < pack r * 2 ^ n + 2 ^ n := Nat.add_lt_add_left hv _
      _ = (pack r + 1) * 2 ^ n := (Nat.succ_mul _ _).symm
      _ ≤ 2 ^ j * 2 ^ n := Nat.mul_le_mul_right _ hlt

theorem pack_nil_lt (m : Nat) : pack [] < 2 ^ m := by
  rw [pack]
  positivity

/-- The fields of a doubled bit. -/
@[simp] theorem fld_mul_two_bit0 (b : Nat) : fld (b * 2) 0 1 = 0 := by simp [fld]
@[simp] theorem fld_mul_two_bit1 (b : Nat) : fld (b * 2) 1 1 = fld b 0 1 := by simp [fld]

/-- The fields of a condition above a predicate register. -/
@[simp] theorem fld_cond (c q : Nat) (hq : q < 8) : fld (c * 8 + q) 3 2 = fld c 0 2 := by
  simp only [fld]
  omega

@[simp] theorem fld_below_cond (c q : Nat) : fld (c * 8 + q) 0 3 = fld q 0 3 := by
  simp only [fld]
  omega

/-! ### The fields the decoder reads, as fields -/

@[simp] theorem fReg_eq_fld (w lo : Nat) : fReg w lo = Fin.ofNat 32 (fld w lo 5) := Fin.ext (Nat.mod_mod _ _).symm
@[simp] theorem fPred_eq_fld (w lo : Nat) : fPred w lo = Fin.ofNat 8 (fld w lo 3) := Fin.ext (Nat.mod_mod _ _).symm
@[simp] theorem fTile_eq_fld (w lo : Nat) : fTile w lo = Fin.ofNat 256 (fld w lo 8) := Fin.ext (Nat.mod_mod _ _).symm
@[simp] theorem fSix_eq_fld (w lo : Nat) : fSix w lo = Fin.ofNat 64 (fld w lo 6) := Fin.ext (Nat.mod_mod _ _).symm
@[simp] theorem fTwo_eq_fld (w lo : Nat) : fTwo w lo = Fin.ofNat 4 (fld w lo 2) := Fin.ext (Nat.mod_mod _ _).symm
@[simp] theorem fBit_eq_fld (w lo : Nat) : fBit w lo = (fld w lo 1 == 1) := rfl

theorem ofNat_eq_fld (n w : Nat) : BitVec.ofNat n w = BitVec.ofNat n (fld w 0 n) := by
  apply BitVec.eq_of_toNat_eq
  simp [fld]

@[simp] theorem ofNat_pack (n : Nat) (fs : List (Nat × Nat)) : BitVec.ofNat n (pack fs) = BitVec.ofNat n (fld (pack fs) 0 n) :=
  ofNat_eq_fld n _

@[simp] theorem ofNat_pack_div (fs : List (Nat × Nat)) :
    BitVec.ofNat 8 (pack fs / 8) = BitVec.ofNat 8 (fld (pack fs) 3 8) := by
  apply BitVec.eq_of_toNat_eq
  simp [fld]

/-- The other fields the decoder reads as numbers: a loop's length and count, a delivery queue and a fence's scope. -/
theorem finOfNat_pack (fs : List (Nat × Nat)) : Fin.ofNat 65536 (pack fs) = Fin.ofNat 65536 (fld (pack fs) 0 16) := by
  apply Fin.ext
  simp [fld]

theorem finOfNat_pack_div_10 (fs : List (Nat × Nat)) :
    Fin.ofNat 1024 (pack fs / 65536) = Fin.ofNat 1024 (fld (pack fs) 16 10) := by
  apply Fin.ext
  simp [fld]

theorem finOfNat_pack_div_4 (fs : List (Nat × Nat)) :
    Fin.ofNat 16 (pack fs / 65536) = Fin.ofNat 16 (fld (pack fs) 16 4) := by
  apply Fin.ext
  simp [fld]

@[simp] theorem bitCode_beq_one (b : Bool) : (bitCode b == 1) = b := by cases b <;> rfl
theorem bitCode_lt (b : Bool) : bitCode b < 2 := by cases b <;> decide
theorem satomFn_eq (c : Slot) (op w : Nat) : satomFn c op w = c.val * 2 ^ 7 + (op * 2 ^ 2 + w) := Nat.add_assoc ..
theorem wideCode_lt (b : Bool) : wideCode b < 4 := by cases b <;> decide
@[simp] theorem fld_wideCode_bit0 (b : Bool) : fld (wideCode b) 0 1 = bitCode b := by cases b <;> rfl
@[simp] theorem fld_wideCode_bit1 (b : Bool) : fld (wideCode b) 1 1 = 1 := by cases b <;> rfl
@[simp] theorem fld_wideCode_high (b : Bool) : fld (wideCode b) 1 2 = 1 := by cases b <;> rfl
theorem ET.code_lt (e : ET) : e.code < 8 := by cases e <;> decide
theorem EW.code_lt (w : EW) : w.code < 8 := by cases w <;> decide
@[simp] theorem etOf_code (e : ET) : etOf e.code = e := by cases e <;> rfl
@[simp] theorem ewOf_code (w : EW) : ewOf w.code = some w := by cases w <;> rfl
@[simp] theorem fmtOf_code (f : Fmt) : fmtOf f.code = some f := by cases f <;> rfl
@[simp] theorem ldwOf_code (w : LdW) : ldwOf w.code = some w := by cases w <;> rfl
@[simp] theorem icondOf_code (c : ICond) : icondOf c.code = c := by cases c <;> rfl
@[simp] theorem fcondOf_code (c : FCond) : fcondOf c.code = c := by cases c <;> rfl
@[simp] theorem iredOf_code (r : IRed) : iredOf r.code = some r := by cases r <;> rfl
@[simp] theorem fredOf_code (r : FRed) : fredOf r.code = some r := by cases r <;> rfl
@[simp] theorem phModeOf_code (m : PhMode) : phModeOf m.code = some m := by cases m <;> rfl
theorem LdW.code_lt (w : LdW) : w.code < 8 := by cases w <;> decide
theorem Fmt.code_lt (f : Fmt) : f.code < 8 := by cases f <;> decide
theorem ICond.code_lt (c : ICond) : c.code < 4 := by cases c <;> decide
theorem FCond.code_lt (c : FCond) : c.code < 4 := by cases c <;> decide
theorem IRed.code_lt (r : IRed) : r.code < 8 := by cases r <;> decide
theorem FRed.code_lt (r : FRed) : r.code < 4 := by cases r <;> decide
theorem PhMode.code_lt (m : PhMode) : m.code < 4 := by cases m <;> decide

@[simp] theorem zeros_zero (i : Instr) : zeros 0 i = .ok i := rfl
@[simp] theorem coded_some {α : Type} (a : α) (k : α → Decoded) : coded (some a) k = k a := rfl

/-! ### The formats of R53, as fields -/

theorem pack_encR (m d a b fn : Nat) : pack [(32, encR m d a b fn)] = pack [(11, fn), (5, b), (5, a), (5, d), (6, m)] := by
  simp only [encR, Nat.add_assoc, pack_split, Nat.reduceLeDiff, Nat.reduceSub]

theorem pack_encI (m d a imm : Nat) : pack [(32, encI m d a imm)] = pack [(16, imm), (5, a), (5, d), (6, m)] := by
  simp only [encI, Nat.add_assoc, pack_split, Nat.reduceLeDiff, Nat.reduceSub]

theorem pack_encU (m d imm : Nat) : pack [(32, encU m d imm)] = pack [(21, imm), (5, d), (6, m)] := by
  simp only [encU, Nat.add_assoc, pack_split, Nat.reduceLeDiff, Nat.reduceSub]

theorem pack_encB (a b cond off : Nat) :
    pack [(32, encB a b cond off)] = pack [(13, off), (3, cond), (5, b), (5, a), (6, 0x0B)] := by
  simp only [encB, Nat.add_assoc, pack_split, Nat.reduceLeDiff, Nat.reduceSub]

theorem pack_encV (m d a b pm et fn : Nat) :
    pack [(32, encV m d a b pm et fn)] = pack [(5, fn), (3, et), (3, pm), (5, b), (5, a), (5, d), (6, m)] := by
  simp only [encV, Nat.add_assoc, pack_split, Nat.reduceLeDiff, Nat.reduceSub]

theorem pack_encVM (m d a b pm w cls mode : Nat) :
    pack [(32, encVM m d a b pm w cls mode)]
      = pack [(3, mode), (2, cls), (3, w), (3, pm), (5, b), (5, a), (5, d), (6, m)] := by
  simp only [encVM, Nat.add_assoc, pack_split, Nat.reduceLeDiff, Nat.reduceSub]

theorem pack_encM (m d a b fmt lu : Nat) :
    pack [(32, encM m d a b fmt lu)] = pack [(2, lu), (2, fmt), (8, b), (8, a), (6, d), (6, m)] := by
  simp only [encM, Nat.add_assoc, pack_split, Nat.reduceLeDiff, Nat.reduceSub]

theorem pack_encMS (m d a b c fmt : Nat) :
    pack [(32, encMS m d a b c fmt)] = pack [(2, fmt), (5, c), (5, b), (8, a), (6, d), (6, m)] := by
  simp only [encMS, Nat.add_assoc, pack_split, Nat.reduceLeDiff, Nat.reduceSub]

theorem pack_encMM (t a b op cls h : Nat) :
    pack [(32, encMM t a b op cls h)] = pack [(1, h), (2, cls), (5, op), (5, b), (5, a), (8, t), (6, 0x36)] := by
  have e : encMM t a b op cls h
      = 0x36 * 2 ^ 26 + t * 2 ^ 18 + a * 2 ^ 13 + b * 2 ^ 8 + op * 2 ^ 3 + cls * 2 ^ 1 + h := rfl
  simp only [e, Nat.add_assoc, pack_split, Nat.reduceLeDiff, Nat.reduceSub]

theorem pack_encQ (m q a b c op : Nat) :
    pack [(32, encQ m q a b c op)] = pack [(8, op), (5, c), (5, b), (5, a), (3, q), (6, m)] := by
  simp only [encQ, Nat.add_assoc, pack_split, Nat.reduceLeDiff, Nat.reduceSub]

/-- The number of the instruction is a word, and decoding it gives the instruction back. -/
def Instr.Decodes (i : Instr) : Prop := ∀ n, encodeNat i = some n → n < 2 ^ 32 ∧ decodeFields n = .ok i

theorem Instr.decodes_of_pack {i : Instr} {n : Nat} (h : encodeNat i = some n)
    (hd : pack [(32, n)] < 2 ^ 32 ∧ decodeFields (pack [(32, n)]) = .ok i) : i.Decodes := by
  intro m hm
  obtain rfl := Option.some.inj (h.symm.trans hm)
  rwa [pack_singleton] at hd

/-! ### The decoder, major by major (R65) -/

section
variable {w : Nat}

theorem decodeFields_alu (h : fld w 26 6 = 0x01) : decodeFields w = decodeAlu w := by
  rw [decodeFields, h]
  rfl

theorem decodeFields_shift (h : fld w 26 6 = 0x07) : decodeFields w = decodeShift w := by
  rw [decodeFields, h]
  rfl

theorem decodeFields_extIns (h : fld w 26 6 = 0x08) : decodeFields w = decodeExtIns w := by
  rw [decodeFields, h]
  rfl

theorem decodeFields_branch (h : fld w 26 6 = 0x0B) : decodeFields w = decodeBranch w := by
  rw [decodeFields, h]
  rfl

theorem decodeFields_satom (h : fld w 26 6 = 0x1C) : decodeFields w = decodeSatom w := by
  rw [decodeFields, h]
  rfl

theorem decodeFields_csr (h : fld w 26 6 = 0x1D) : decodeFields w = decodeCsr w := by
  rw [decodeFields, h]
  rfl

theorem decodeFields_sys (h : fld w 26 6 = 0x1E) : decodeFields w = decodeSys w := by
  rw [decodeFields, h]
  rfl

theorem decodeFields_vint (h : fld w 26 6 = 0x22) : decodeFields w = decodeVint w := by
  rw [decodeFields, h]
  rfl

theorem decodeFields_vfp (h : fld w 26 6 = 0x23) : decodeFields w = decodeVfp w := by
  rw [decodeFields, h]
  rfl

theorem decodeFields_vcvt (h : fld w 26 6 = 0x24) : decodeFields w = decodeVcvt w := by
  rw [decodeFields, h]
  rfl

theorem decodeFields_vlns (h : fld w 26 6 = 0x25) : decodeFields w = decodeVlns w := by
  rw [decodeFields, h]
  rfl

theorem decodeFields_vperm (h : fld w 26 6 = 0x26) : decodeFields w = decodeVperm w := by
  rw [decodeFields, h]
  rfl

theorem decodeFields_vpred (h : fld w 26 6 = 0x27) : decodeFields w = decodeVpred w := by
  rw [decodeFields, h]
  rfl

theorem decodeFields_vload (h : fld w 26 6 = 0x28) : decodeFields w = decodeVload w := by
  rw [decodeFields, h]
  rfl

theorem decodeFields_vstore (h : fld w 26 6 = 0x29) : decodeFields w = decodeVstore w := by
  rw [decodeFields, h]
  rfl

theorem decodeFields_vamo (h : fld w 26 6 = 0x2A) : decodeFields w = decodeVamo w := by
  rw [decodeFields, h]
  rfl

theorem decodeFields_strip (h : fld w 26 6 = 0x2B) : decodeFields w = decodeStrip w := by
  rw [decodeFields, h]
  rfl

theorem decodeFields_fencex (h : fld w 26 6 = 0x2D) : decodeFields w = decodeFencex w := by
  rw [decodeFields, h]
  rfl

theorem decodeFields_mtile (h : fld w 26 6 = 0x36) : decodeFields w = decodeMtile w := by
  rw [decodeFields, h]
  rfl

theorem decodeFields_mxform (h : fld w 26 6 = 0x37) : decodeFields w = decodeMxform w := by
  rw [decodeFields, h]
  rfl

theorem decodeFields_copy (h : fld w 26 6 = 0x38) : decodeFields w = decodeCopy w := by
  rw [decodeFields, h]
  rfl

theorem decodeFields_phaser (h : fld w 26 6 = 0x39) : decodeFields w = decodePhaser w := by
  rw [decodeFields, h]
  rfl

theorem decodeFields_task (h : fld w 26 6 = 0x3A) : decodeFields w = decodeTask w := by
  rw [decodeFields, h]
  rfl

theorem decodeFields_remote (h : fld w 26 6 = 0x3B) : decodeFields w = decodeRemote w := by
  rw [decodeFields, h]
  rfl

theorem decodeFields_claimGov (h : fld w 26 6 = 0x3C) : decodeFields w = decodeClaimGov w := by
  rw [decodeFields, h]
  rfl

theorem decodeFields_addi (h : fld w 26 6 = 0x02) :
    decodeFields w = if fReg w 21 = 0 ∧ fReg w 16 = 0 ∧ BitVec.ofNat 16 w = 0 then .ok .nop
      else .ok (.addi (fReg w 21) (fReg w 16) (BitVec.ofNat 16 w)) := by
  rw [decodeFields, h]
  rfl

theorem decodeFields_andi (h : fld w 26 6 = 0x03) :
    decodeFields w = .ok (.andi (fReg w 21) (fReg w 16) (BitVec.ofNat 16 w)) := by
  rw [decodeFields, h]
  rfl

theorem decodeFields_ori (h : fld w 26 6 = 0x04) :
    decodeFields w = .ok (.ori (fReg w 21) (fReg w 16) (BitVec.ofNat 16 w)) := by
  rw [decodeFields, h]
  rfl

theorem decodeFields_xori (h : fld w 26 6 = 0x05) :
    decodeFields w = .ok (.xori (fReg w 21) (fReg w 16) (BitVec.ofNat 16 w)) := by
  rw [decodeFields, h]
  rfl

theorem decodeFields_slti (h : fld w 26 6 = 0x06) :
    decodeFields w = .ok (.slti (fReg w 21) (fReg w 16) (BitVec.ofNat 16 w)) := by
  rw [decodeFields, h]
  rfl

theorem decodeFields_lui (h : fld w 26 6 = 0x09) :
    decodeFields w = .ok (.lui (fReg w 21) (BitVec.ofNat 21 w)) := by
  rw [decodeFields, h]
  rfl

theorem decodeFields_auipc (h : fld w 26 6 = 0x0A) :
    decodeFields w = .ok (.auipc (fReg w 21) (BitVec.ofNat 21 w)) := by
  rw [decodeFields, h]
  rfl

theorem decodeFields_jal (h : fld w 26 6 = 0x0C) :
    decodeFields w = .ok (.jal (fReg w 21) (BitVec.ofNat 21 w)) := by
  rw [decodeFields, h]
  rfl

theorem decodeFields_jalr (h : fld w 26 6 = 0x0D) :
    decodeFields w = .ok (.jalr (fReg w 21) (fReg w 16) (BitVec.ofNat 16 w)) := by
  rw [decodeFields, h]
  rfl

theorem decodeFields_loop (h : fld w 26 6 = 0x0E) :
    decodeFields w = zeros (fld w 21 5) (.loop (fReg w 16) (Fin.ofNat 65536 w)) := by
  rw [decodeFields, h]
  rfl

theorem decodeFields_loopi (h : fld w 26 6 = 0x0F) :
    decodeFields w = .ok (.loopi (Fin.ofNat 1024 (w / 2 ^ 16)) (Fin.ofNat 65536 w)) := by
  rw [decodeFields, h]
  rfl

theorem decodeFields_pfx (h : fld w 26 6 = 0x1F) :
    decodeFields w = .ok (.pfx (BitVec.ofNat 26 w)) := by
  rw [decodeFields, h]
  rfl

theorem decodeFields_vsetvl (h : fld w 26 6 = 0x20) :
    decodeFields w = if fld w 2 1 = 1 then .error .reservedCode
      else zeros (fld w 3 8 + fld w 11 5) (.vsetvl (fReg w 21) (fReg w 16) (fTwo w 0)) := by
  rw [decodeFields, h]
  rfl

theorem decodeFields_vsetvli (h : fld w 26 6 = 0x21) :
    decodeFields w = if fld w 15 1 = 1 then .error .reservedCode
      else zeros (fld w 16 5) (.vsetvli (fReg w 21) (fTwo w 13) (BitVec.ofNat 13 w)) := by
  rw [decodeFields, h]
  rfl

theorem decodeFields_fence (h : fld w 26 6 = 0x2C) :
    decodeFields w = zeros (fld w 21 5) (.fence (fBit w 20) (Fin.ofNat 16 (w / 2 ^ 16)) (BitVec.ofNat 16 w)) := by
  rw [decodeFields, h]
  rfl

theorem decodeFields_hint (h : fld w 26 6 = 0x3E) :
    decodeFields w = .ok (.hint (BitVec.ofNat 26 w)) := by
  rw [decodeFields, h]
  rfl

theorem decodeFields_ld (e : LdW) (h : fld w 26 6 = 0x10 + e.code) :
    decodeFields w = .ok (.ld e (fReg w 21) (fReg w 16) (BitVec.ofNat 16 w)) := by
  cases e <;> rw [decodeFields, h] <;> rfl

theorem decodeFields_st (k : Fin 4) (h : fld w 26 6 = 0x18 + k.val) :
    decodeFields w = .ok (.st k (fReg w 21) (fReg w 16) (BitVec.ofNat 16 w)) := by
  fin_cases k <;> rw [decodeFields, h] <;> rfl

theorem decodeFields_mma (f : Fmt) (h : fld w 26 6 = 0x30 + f.code / 4) (hf : fld w 2 2 = f.code % 4) :
    decodeFields w = .ok (.mma f (fSix w 20) (fTile w 12) (fTile w 4) (BitVec.ofNat 2 w)) := by
  cases f <;> rw [decodeFields, h, hf] <;> rfl

theorem decodeFields_mmasp (f : Fmt) (h : fld w 26 6 = 0x32 + f.code / 4) (hf : fld w 0 2 = f.code % 4) :
    decodeFields w = .ok (.mmasp f (fSix w 20) (fTile w 12) (fReg w 7) (fReg w 2)) := by
  cases f <;> rw [decodeFields, h, hf] <;> rfl

theorem decodeFields_mmats (f : Fmt) (h : fld w 26 6 = 0x34 + f.code / 4) (hf : fld w 0 2 = f.code % 4) :
    decodeFields w = .ok (.mmats f (fSix w 20) (fTile w 12) (fReg w 7) (fReg w 2)) := by
  cases f <;> rw [decodeFields, h, hf] <;> rfl
end

/-! ### Decoding what is encoded -/

/-- The words of the R format but SATOM (R68, R72, R75, R374). -/
theorem rFormat_decodes (d a b c : XReg) (n : Bool) (w : Fin 4) :
    ∀ i ∈ [Instr.add d a b, .sub d a b, .and d a b, .or d a b, .xor d a b, .sll d a b, .srl d a b, .sra d a b, .slt d a b n,
      .min d a b n, .max d a b n, .mul d a b, .mulh d a b n, .div d a b n, .rem d a b n, .clz d a, .popc d a, .sel d a b c,
      .vsetvl d a w, .mapsw a, .sbegin a], i.Decodes := by
  have := bitCode_lt n
  simp only [List.forall_mem_cons]
  and_intros
  on_goal -1 => exact fun _ h => absurd h List.not_mem_nil
  all_goals
    refine Instr.decodes_of_pack rfl ?_
    simp only [pack_encR, pack_split, Nat.reduceLeDiff, Nat.reduceSub]
    refine ⟨by simp (disch := omega) only [pack_cons_lt, pack_nil_lt, Nat.reduceSub], ?_⟩
    simp (disch := simp (disch := omega)) only [decodeFields_alu, decodeFields_sys, decodeFields_strip, decodeFields_vsetvl]
    simp (disch := omega) [decodeAlu, decodeSys, decodeStrip]

/-- The words of SATOM (R71). -/
theorem satom_decodes (d a b : XReg) (c : Slot) (w : Fin 4) (w64 : Bool) :
    ∀ i ∈ [Instr.lda d a c w, .stl a b c w, .cas d a b c w64, .amoAdd d a b c w64, .amoAnd d a b c w64, .amoOr d a b c w64,
      .amoXor d a b c w64, .amoMin d a b c w64, .amoMax d a b c w64, .amoMinN d a b c w64, .amoMaxN d a b c w64,
      .amoSwap d a b c w64], i.Decodes := by
  have := wideCode_lt w64
  have := bitCode_lt w64
  simp only [List.forall_mem_cons]
  and_intros
  on_goal -1 => exact fun _ h => absurd h List.not_mem_nil
  all_goals
    refine Instr.decodes_of_pack rfl ?_
    simp only [pack_encR, satomFn_eq, pack_split, Nat.reduceLeDiff, Nat.reduceSub]
    refine ⟨by simp (disch := omega) only [pack_cons_lt, pack_nil_lt, Nat.reduceSub], ?_⟩
    simp (disch := simp (disch := omega)) only [decodeFields_satom]
    simp (disch := omega) [decodeSatom]

/-- The words of the I format with an immediate, a shift count, a state register, a loop or a length (R66, R69, R70, R72, R374). -/
theorem iFormat_decodes (d a : XReg) (imm : BitVec 16) (s : Fin 64) (r : BitVec 12) (len : Fin 65536)
    (w : Fin 4) (vl : BitVec 13) :
    ∀ i ∈ [Instr.andi d a imm, .ori d a imm, .xori d a imm, .slti d a imm, .slli d a s, .srli d a s, .srai d a s,
      .jalr d a imm, .loop a len, .csrr d r, .csrw d a r, .csrs d a r, .csrc d a r, .vsetvli d w vl], i.Decodes := by
  simp only [List.forall_mem_cons]
  and_intros
  on_goal -1 => exact fun _ h => absurd h List.not_mem_nil
  all_goals
    refine Instr.decodes_of_pack rfl ?_
    simp only [pack_encI, pack_split, Nat.reduceLeDiff, Nat.reduceSub]
    refine ⟨by simp (disch := omega) only [pack_cons_lt, pack_nil_lt, Nat.reduceSub], ?_⟩
    simp (disch := simp (disch := omega)) only [decodeFields_shift, decodeFields_csr, decodeFields_andi, decodeFields_ori,
      decodeFields_xori, decodeFields_slti, decodeFields_jalr, decodeFields_loop, decodeFields_vsetvli]
    simp (disch := omega) [decodeShift, decodeCsr, -Fin.ofNat_eq_cast, finOfNat_pack]

/-- The words of the U and J formats (R66, R70). -/
theorem uFormat_decodes (d : XReg) (imm : BitVec 21) :
    ∀ i ∈ [Instr.lui d imm, .auipc d imm, .jal d imm], i.Decodes := by
  simp only [List.forall_mem_cons]
  and_intros
  on_goal -1 => exact fun _ h => absurd h List.not_mem_nil
  all_goals
    refine Instr.decodes_of_pack rfl ?_
    rw [pack_encU]
    refine ⟨by simp (disch := omega) only [pack_cons_lt, pack_nil_lt, Nat.reduceSub], ?_⟩
    simp (disch := simp (disch := omega)) only [decodeFields_lui, decodeFields_auipc, decodeFields_jal]
    simp (disch := omega)

/-- The branches (R70). -/
theorem bFormat_decodes (a b : XReg) (off : BitVec 13) :
    ∀ i ∈ [Instr.beq a b off, .bne a b off, .blt a b off, .bge a b off, .bltN a b off, .bgeN a b off], i.Decodes := by
  simp only [List.forall_mem_cons]
  and_intros
  on_goal -1 => exact fun _ h => absurd h List.not_mem_nil
  all_goals
    refine Instr.decodes_of_pack rfl ?_
    rw [pack_encB]
    refine ⟨by simp (disch := omega) only [pack_cons_lt, pack_nil_lt, Nat.reduceSub], ?_⟩
    simp (disch := simp (disch := omega)) only [decodeFields_branch]
    simp (disch := omega) [decodeBranch]

/-- The words of VINT (R73). -/
theorem vint_decodes (d a b : VReg) (p q : PReg) (e : ET) (n : Bool) (c : ICond) (r : IRed) :
    ∀ i ∈ [Instr.vadd d a b p e n, .vsub d a b p e n, .vmul d a b p e n, .vmulh d a b p e n, .vand d a b p e n,
      .vor d a b p e n, .vxor d a b p e n, .vsll d a b p e n, .vsrl d a b p e n, .vsra d a b p e n, .vmin d a b p e n,
      .vmax d a b p e n, .vcmp c q a b p e n, .vsel d a b p e n, .vred d a r p e n], i.Decodes := by
  have := bitCode_lt n
  have := e.code_lt
  have := c.code_lt
  have := r.code_lt
  simp only [List.forall_mem_cons]
  and_intros
  on_goal -1 => exact fun _ h => absurd h List.not_mem_nil
  all_goals
    refine Instr.decodes_of_pack rfl ?_
    simp only [encVint, pack_encV, pack_split, Nat.reduceLeDiff, Nat.reduceSub]
    refine ⟨by simp (disch := omega) only [pack_cons_lt, pack_nil_lt, Nat.reduceSub], ?_⟩
    simp (disch := simp (disch := omega)) only [decodeFields_vint]
    simp (disch := omega) [decodeVint]

/-- The words of VFP and VLNS (R73, R138). -/
theorem vfp_decodes (d a b : VReg) (p q : PReg) (e : ET) (t : Fin 4) (c : FCond) (r : FRed) :
    ∀ i ∈ [Instr.vfadd d a b p e, .vfsub d a b p e, .vfmul d a b p e, .vfma d a b p e, .vfnma d a b p e, .vfdiv d a b p e,
      .vfsqrt d a p e, .vfmin d a b p e, .vfmax d a b p e, .vfcmp c q a b p e, .vfclass d a p e, .vfred d a r p e,
      .vtbl d a t p e, .vlnspack d a p, .vlnsunpack d a p, .vlnsmul d a b p, .vlnsadd d a b p, .vscale d a b p], i.Decodes := by
  have := e.code_lt
  have := c.code_lt
  have := r.code_lt
  simp only [List.forall_mem_cons]
  and_intros
  on_goal -1 => exact fun _ h => absurd h List.not_mem_nil
  all_goals
    refine Instr.decodes_of_pack rfl ?_
    rw [pack_encV]
    refine ⟨by simp (disch := omega) only [pack_cons_lt, pack_nil_lt, Nat.reduceSub], ?_⟩
    simp (disch := simp (disch := omega)) only [decodeFields_vfp, decodeFields_vlns]
    simp (disch := omega) [decodeVfp, decodeVlns]

/-- The words of VPERM and VPRED (R73, R338). -/
theorem vperm_decodes (d a b : VReg) (x : XReg) (p q r : PReg) (e : ET) :
    ∀ i ∈ [Instr.vperm d a b p e, .vslideup d a x p e, .vslidedn d a x p e, .vcompress d a p e, .vexpand d a p e,
      .vbcast d x p e, .vmv d a p e, .vidx d p e, .pand p q r, .por p q r, .pxor p q r, .pnot p q, .pcnt x p,
      .pfirst x p], i.Decodes := by
  have := e.code_lt
  simp only [List.forall_mem_cons]
  and_intros
  on_goal -1 => exact fun _ h => absurd h List.not_mem_nil
  all_goals
    refine Instr.decodes_of_pack rfl ?_
    rw [pack_encV]
    refine ⟨by simp (disch := omega) only [pack_cons_lt, pack_nil_lt, Nat.reduceSub], ?_⟩
    simp (disch := simp (disch := omega)) only [decodeFields_vperm, decodeFields_vpred]
    simp (disch := omega) [decodeVperm, decodeVpred]

/-- The words of the VM format (R74). -/
theorem vmFormat_decodes (d v : VReg) (a b : XReg) (p : PReg) (q : Fin 16) (w : EW) (w64 : Bool) (c : Slot) :
    ∀ i ∈ [Instr.vld d a p w c, .vlds d a b p w c, .vldx d a v p w c, .vldff d a p w c, .vldsp d a b p w c, .qld d q p w,
      .vst d a p w c, .vsts d a b p w c, .vstx d a v p w c, .vstsp d a b p w c, .vamoAdd d a v p w64 c, .vamoMin d a v p w64 c,
      .vamoMax d a v p w64 c, .vamoAnd d a v p w64 c, .vamoOr d a v p w64 c, .vamoXor d a v p w64 c,
      .vamoSwap d a v p w64 c], i.Decodes := by
  have := w.code_lt
  have := wideCode_lt w64
  have := bitCode_lt w64
  simp only [List.forall_mem_cons]
  and_intros
  on_goal -1 => exact fun _ h => absurd h List.not_mem_nil
  all_goals
    refine Instr.decodes_of_pack rfl ?_
    rw [pack_encVM]
    refine ⟨by simp (disch := omega) only [pack_cons_lt, pack_nil_lt, Nat.reduceSub], ?_⟩
    simp (disch := simp (disch := omega)) only [decodeFields_vload, decodeFields_vstore, decodeFields_vamo]
    simp (disch := omega) [decodeVload, decodeVstore, decodeVamo, -Fin.ofNat_eq_cast, finOfNat_pack_div_4]

/-- The words of MTILE and MXFORM (R76). -/
theorem tile_decodes (t u : TReg) (a b : XReg) (v : VReg) (c : Slot) (h : Bool) :
    ∀ i ∈ [Instr.mzero t, .mld t a b c h, .mst t a b c h, .mldsp t a b c h, .mstsp t a b c h, .mv2t t v b, .mt2v t v b,
      .mfree t, .mpref t, .mepi t a b c, .msend t a b c, .mattach, .mdetach, .mmov t u h, .mtrans t u c h], i.Decodes := by
  have := bitCode_lt h
  simp only [List.forall_mem_cons]
  and_intros
  on_goal -1 => exact fun _ h => absurd h List.not_mem_nil
  all_goals
    refine Instr.decodes_of_pack rfl ?_
    simp only [pack_encMM, pack_encM]
    refine ⟨by simp (disch := omega) only [pack_cons_lt, pack_nil_lt, Nat.reduceSub], ?_⟩
    simp (disch := simp (disch := omega)) only [decodeFields_mtile, decodeFields_mxform]
    simp (disch := omega) [decodeMtile, decodeMxform]

/-- The words of the Q format (R77). -/
theorem qFormat_decodes (q : Fin 8) (s : Fin 4) (m : PhMode) (a b c : XReg) :
    ∀ i ∈ [Instr.cpy q a b c, .cpy2d q a b c, .cpyg q a b c, .cpyts q a b c, .qfill q a b c, .tblld s a, .phnew a c,
      .phdel a c, .phreg m a c, .phdrop a c, .phsig a c, .phwait a c, .phsw a c, .gmem a b c, .post a, .rput s a b c,
      .rget s a b c, .ramo s a b c, .rldred s a b c, .rwait a b c, .tkstat a c, .claim a b c, .object a b c, .clwait c,
      .dln a b, .dlnend c], i.Decodes := by
  have := m.code_lt
  simp only [List.forall_mem_cons]
  and_intros
  on_goal -1 => exact fun _ h => absurd h List.not_mem_nil
  all_goals
    refine Instr.decodes_of_pack rfl ?_
    rw [pack_encQ]
    refine ⟨by simp (disch := omega) only [pack_cons_lt, pack_nil_lt, Nat.reduceSub], ?_⟩
    simp (disch := simp (disch := omega)) only [decodeFields_copy, decodeFields_phaser, decodeFields_task, decodeFields_remote,
      decodeFields_claimGov]
    simp (disch := omega) [decodeCopy, decodePhaser, decodeTask, decodeRemote, decodeClaimGov]

/-- The words with fields of their own (R70, R72, R75, R79). -/
theorem ownFormat_decodes (n : Fin 1024) (len : Fin 65536) (f : BitVec 26) (ack : Bool) (scope : Fin 16)
    (m : BitVec 16) (qm : BitVec 8) :
    ∀ i ∈ [Instr.loopi n len, .pfx f, .fence ack scope m, .fenceq qm, .hint f], i.Decodes := by
  have := bitCode_lt ack
  simp only [List.forall_mem_cons]
  and_intros
  on_goal -1 => exact fun _ h => absurd h List.not_mem_nil
  all_goals
    refine Instr.decodes_of_pack rfl ?_
    simp only [Nat.add_assoc, pack_split, Nat.reduceLeDiff, Nat.reduceSub]
    refine ⟨by simp (disch := omega) only [pack_cons_lt, pack_nil_lt, Nat.reduceSub], ?_⟩
    simp (disch := simp (disch := omega)) only [decodeFields_fencex, decodeFields_loopi, decodeFields_pfx, decodeFields_fence,
      decodeFields_hint]
    simp (disch := omega) [decodeFencex, -Fin.ofNat_eq_cast, finOfNat_pack, finOfNat_pack_div_4, finOfNat_pack_div_10]

theorem extIns_decodes (d a : XReg) (s : Bool) (l p : Fin 64) : ∀ i ∈ [Instr.ext d a s l p, .ins d a l p], i.Decodes := by
  have := bitCode_lt s
  have hins : encodeNat (.ins d a l p) = some (encI 0x08 d a (1 * 2 ^ 13 + (l * 2 ^ 6 + p))) := by
    rw [Nat.one_mul, ← Nat.add_assoc]
    rfl
  have hext : encodeNat (.ext d a s l p) = some (encI 0x08 d a (bitCode s * 2 ^ 12 + (l * 2 ^ 6 + p))) := by
    rw [← Nat.add_assoc]
    rfl
  simp only [List.forall_mem_cons]
  refine ⟨Instr.decodes_of_pack hext ?_, Instr.decodes_of_pack hins ?_, fun _ h => absurd h List.not_mem_nil⟩
  all_goals
    simp only [pack_encI, pack_split, Nat.reduceLeDiff, Nat.reduceSub]
    refine ⟨by simp (disch := omega) only [pack_cons_lt, pack_nil_lt, Nat.reduceSub], ?_⟩
    rw [decodeFields_extIns (by simp (disch := omega))]
    simp (disch := omega) [decodeExtIns]

theorem vcvt_decodes (d a : VReg) (p : PReg) (src dst : ET) (sat : Bool) (h : src.isInt && dst.isInt) :
    (Instr.vcvt d a p src sat dst).Decodes := by
  have := bitCode_lt sat
  have := src.code_lt
  have := dst.code_lt
  refine Instr.decodes_of_pack rfl ?_
  simp only [pack_encV, pack_split, Nat.reduceLeDiff, Nat.reduceSub]
  refine ⟨by simp (disch := omega) only [pack_cons_lt, pack_nil_lt, Nat.reduceSub], ?_⟩
  rw [decodeFields_vcvt (by simp (disch := omega))]
  simp (disch := omega) [decodeVcvt]
  simp_all

theorem vfcvt_decodes (d a : VReg) (p : PReg) (src dst : ET) (h : (src.isInt && dst.isInt) = false) :
    (Instr.vfcvt d a p src dst).Decodes := by
  have := src.code_lt
  have := dst.code_lt
  refine Instr.decodes_of_pack rfl ?_
  rw [pack_encV]
  refine ⟨by simp (disch := omega) only [pack_cons_lt, pack_nil_lt, Nat.reduceSub], ?_⟩
  rw [decodeFields_vcvt (by simp (disch := omega))]
  simp (disch := omega) [decodeVcvt]
  simp_all

theorem addi_decodes (d a : XReg) (imm : BitVec 16) (h : ¬(d = 0 ∧ a = 0 ∧ imm = 0)) : (Instr.addi d a imm).Decodes := by
  refine Instr.decodes_of_pack rfl ?_
  rw [pack_encI]
  refine ⟨by simp (disch := omega) only [pack_cons_lt, pack_nil_lt, Nat.reduceSub], ?_⟩
  rw [decodeFields_addi (by simp (disch := omega))]
  simp (disch := omega)
  simp_all

theorem ld_decodes (e : LdW) (d a : XReg) (imm : BitVec 16) : (Instr.ld e d a imm).Decodes := by
  have := e.code_lt
  refine Instr.decodes_of_pack rfl ?_
  rw [pack_encI]
  refine ⟨by simp (disch := omega) only [pack_cons_lt, pack_nil_lt, Nat.reduceSub], ?_⟩
  rw [decodeFields_ld e (by simp (disch := omega))]
  simp (disch := omega)

theorem st_decodes (k : Fin 4) (d a : XReg) (imm : BitVec 16) : (Instr.st k d a imm).Decodes := by
  refine Instr.decodes_of_pack rfl ?_
  rw [pack_encI]
  refine ⟨by simp (disch := omega) only [pack_cons_lt, pack_nil_lt, Nat.reduceSub], ?_⟩
  rw [decodeFields_st k (by simp (disch := omega))]
  simp (disch := omega)

theorem mma_decodes (f : Fmt) (td : AReg) (ta tb : TReg) (lu : BitVec 2) : (Instr.mma f td ta tb lu).Decodes := by
  have := f.code_lt
  refine Instr.decodes_of_pack rfl ?_
  rw [pack_encM]
  refine ⟨by simp (disch := omega) only [pack_cons_lt, pack_nil_lt, Nat.reduceSub], ?_⟩
  rw [decodeFields_mma f (by simp (disch := omega)) (by simp (disch := omega))]
  simp (disch := omega)

theorem mmasp_decodes (f : Fmt) (td : AReg) (ta : TReg) (b c : XReg) : (Instr.mmasp f td ta b c).Decodes := by
  have := f.code_lt
  refine Instr.decodes_of_pack rfl ?_
  rw [pack_encMS]
  refine ⟨by simp (disch := omega) only [pack_cons_lt, pack_nil_lt, Nat.reduceSub], ?_⟩
  rw [decodeFields_mmasp f (by simp (disch := omega)) (by simp (disch := omega))]
  simp (disch := omega)

theorem mmats_decodes (f : Fmt) (td : AReg) (ta : TReg) (b c : XReg) : (Instr.mmats f td ta b c).Decodes := by
  have := f.code_lt
  refine Instr.decodes_of_pack rfl ?_
  rw [pack_encMS]
  refine ⟨by simp (disch := omega) only [pack_cons_lt, pack_nil_lt, Nat.reduceSub], ?_⟩
  rw [decodeFields_mmats f (by simp (disch := omega)) (by simp (disch := omega))]
  simp (disch := omega)

/-- The words without an operand are closed numbers. -/
theorem closed_decodes :
    ∀ i ∈ [Instr.nop, .ecall, .eret, .brk, .ckpt, .scommit, .sabort, .fencesvSv, .fencesvVs, .spfence, .texit], i.Decodes := by
  simp only [List.forall_mem_cons]
  and_intros
  on_goal -1 => exact fun _ h => absurd h List.not_mem_nil
  all_goals
    rintro _ ⟨⟩
    exact ⟨by decide, rfl⟩

/-- An instruction that `Instr.wf` admits decodes back: an `addi` that is not the word of `nop`, a conversion spelled as its types
say, and every other word of its format. -/
theorem decodes_of_wf (i : Instr) (hwf : i.wf = true) : i.Decodes := by
  cases i with
  | add d a b | sub d a b | and d a b | or d a b | xor d a b | sll d a b | srl d a b | sra d a b | mul d a b =>
    exact rFormat_decodes d a b 0 false 0 _ (by simp)
  | slt d a b n | min d a b n | max d a b n | mulh d a b n | div d a b n | rem d a b n =>
    exact rFormat_decodes d a b 0 n 0 _ (by simp)
  | clz d a | popc d a => exact rFormat_decodes d a 0 0 false 0 _ (by simp)
  | sel d a b c => exact rFormat_decodes d a b c false 0 _ (by simp)
  | vsetvl d a w => exact rFormat_decodes d a 0 0 false w _ (by simp)
  | mapsw a | sbegin a => exact rFormat_decodes 0 a 0 0 false 0 _ (by simp)
  | lda d a c w => exact satom_decodes d a 0 c w false _ (by simp)
  | stl a b c w => exact satom_decodes 0 a b c w false _ (by simp)
  | cas d a b c w | amoAdd d a b c w | amoAnd d a b c w | amoOr d a b c w | amoXor d a b c w | amoMin d a b c w
  | amoMax d a b c w | amoMinN d a b c w | amoMaxN d a b c w | amoSwap d a b c w =>
    exact satom_decodes d a b c 0 w _ (by simp)
  | addi d a imm => exact addi_decodes d a imm fun hz => by simp [Instr.wf, hz] at hwf
  | andi d a imm | ori d a imm | xori d a imm | slti d a imm | jalr d a imm =>
    exact iFormat_decodes d a imm 0 0 0 0 0 _ (by simp)
  | slli d a s | srli d a s | srai d a s => exact iFormat_decodes d a 0 s 0 0 0 0 _ (by simp)
  | loop a len => exact iFormat_decodes 0 a 0 0 0 len 0 0 _ (by simp)
  | csrr d r => exact iFormat_decodes d 0 0 0 r 0 0 0 _ (by simp)
  | csrw d a r | csrs d a r | csrc d a r => exact iFormat_decodes d a 0 0 r 0 0 0 _ (by simp)
  | vsetvli d w len => exact iFormat_decodes d 0 0 0 0 0 w len _ (by simp)
  | ext d a s l p => exact extIns_decodes d a s l p _ (by simp)
  | ins d a l p => exact extIns_decodes d a false l p _ (by simp)
  | lui d imm | auipc d imm | jal d imm => exact uFormat_decodes d imm _ (by simp)
  | beq a b off | bne a b off | blt a b off | bge a b off | bltN a b off | bgeN a b off =>
    exact bFormat_decodes a b off _ (by simp)
  | ld w d a imm => exact ld_decodes w d a imm
  | st w d a imm => exact st_decodes w d a imm
  | vadd d a b p e n | vsub d a b p e n | vmul d a b p e n | vmulh d a b p e n | vand d a b p e n | vor d a b p e n
  | vxor d a b p e n | vsll d a b p e n | vsrl d a b p e n | vsra d a b p e n | vmin d a b p e n | vmax d a b p e n
  | vsel d a b p e n =>
    exact vint_decodes d a b p 0 e n .eq .add _ (by simp)
  | vcmp c q a b p e n => exact vint_decodes 0 a b p q e n c .add _ (by simp)
  | vred d a r p e n => exact vint_decodes d a 0 p 0 e n .eq r _ (by simp)
  | vfadd d a b p e | vfsub d a b p e | vfmul d a b p e | vfma d a b p e | vfnma d a b p e | vfdiv d a b p e
  | vfmin d a b p e | vfmax d a b p e =>
    exact vfp_decodes d a b p 0 e 0 .eq .sum _ (by simp)
  | vfsqrt d a p e | vfclass d a p e => exact vfp_decodes d a 0 p 0 e 0 .eq .sum _ (by simp)
  | vfcmp c q a b p e => exact vfp_decodes 0 a b p q e 0 c .sum _ (by simp)
  | vfred d a r p e => exact vfp_decodes d a 0 p 0 e 0 .eq r _ (by simp)
  | vtbl d a t p e => exact vfp_decodes d a 0 p 0 e t .eq .sum _ (by simp)
  | vcvt d a p src sat dst => exact vcvt_decodes d a p src dst sat (by simp_all [Instr.wf])
  | vfcvt d a p src dst => exact vfcvt_decodes d a p src dst (by
    rw [Instr.wf, Bool.and_eq_true, Bool.not_eq_true'] at hwf
    exact hwf.2)
  | vlnspack d a p | vlnsunpack d a p => exact vfp_decodes d a 0 p 0 .f32 0 .eq .sum _ (by simp)
  | vlnsmul d a b p | vlnsadd d a b p | vscale d a b p => exact vfp_decodes d a b p 0 .f32 0 .eq .sum _ (by simp)
  | vperm d a b p e => exact vperm_decodes d a b 0 p 0 0 e _ (by simp)
  | vslideup d a x p e | vslidedn d a x p e => exact vperm_decodes d a 0 x p 0 0 e _ (by simp)
  | vcompress d a p e | vexpand d a p e | vmv d a p e => exact vperm_decodes d a 0 0 p 0 0 e _ (by simp)
  | vbcast d x p e => exact vperm_decodes d 0 0 x p 0 0 e _ (by simp)
  | vidx d p e => exact vperm_decodes d 0 0 0 p 0 0 e _ (by simp)
  | pand p q r | por p q r | pxor p q r => exact vperm_decodes 0 0 0 0 p q r .f32 _ (by simp)
  | pnot p q => exact vperm_decodes 0 0 0 0 p q 0 .f32 _ (by simp)
  | pcnt x p | pfirst x p => exact vperm_decodes 0 0 0 x p 0 0 .f32 _ (by simp)
  | vld d a p w c | vldff d a p w c | vst d a p w c => exact vmFormat_decodes d 0 a 0 p 0 w false c _ (by simp)
  | vlds d a b p w c | vldsp d a b p w c | vsts d a b p w c | vstsp d a b p w c =>
    exact vmFormat_decodes d 0 a b p 0 w false c _ (by simp)
  | vldx d a v p w c | vstx d a v p w c => exact vmFormat_decodes d v a 0 p 0 w false c _ (by simp)
  | qld d q p w => exact vmFormat_decodes d 0 0 0 p q w false 0 _ (by simp)
  | vamoAdd d a v p w c | vamoMin d a v p w c | vamoMax d a v p w c | vamoAnd d a v p w c | vamoOr d a v p w c
  | vamoXor d a v p w c | vamoSwap d a v p w c =>
    exact vmFormat_decodes d v a 0 p 0 .b8 w c _ (by simp)
  | nop | ecall | eret | brk | ckpt | scommit | sabort | fencesvSv | fencesvVs | spfence | texit =>
    exact closed_decodes _ (by simp)
  | loopi n len => exact ownFormat_decodes n len 0 false 0 0 0 _ (by simp)
  | pfx f | hint f => exact ownFormat_decodes 0 0 f false 0 0 0 _ (by simp)
  | fence ack scope m => exact ownFormat_decodes 0 0 0 ack scope m 0 _ (by simp)
  | fenceq m => exact ownFormat_decodes 0 0 0 false 0 0 m _ (by simp)
  | mma f td ta tb lu => exact mma_decodes f td ta tb lu
  | mmasp f td ta b c => exact mmasp_decodes f td ta b c
  | mmats f td ta b c => exact mmats_decodes f td ta b c
  | mzero t | mfree t | mpref t => exact tile_decodes t 0 0 0 0 0 false _ (by simp)
  | mld t a b c h | mst t a b c h | mldsp t a b c h | mstsp t a b c h => exact tile_decodes t 0 a b 0 c h _ (by simp)
  | mv2t t v b | mt2v t v b => exact tile_decodes t 0 0 b v 0 false _ (by simp)
  | mepi t a b c | msend t a b c => exact tile_decodes t 0 a b 0 c false _ (by simp)
  | mattach | mdetach => exact tile_decodes 0 0 0 0 0 0 false _ (by simp)
  | mmov t u lu => exact tile_decodes t u 0 0 0 0 lu _ (by simp)
  | mtrans t u f lu => exact tile_decodes t u 0 0 0 f lu _ (by simp)
  | cpy q a b c | cpy2d q a b c | cpyg q a b c | cpyts q a b c | qfill q a b c =>
    exact qFormat_decodes q 0 .signalOnly a b c _ (by simp)
  | phreg m a c => exact qFormat_decodes 0 0 m a 0 c _ (by simp)
  | phnew a c | phdel a c | phdrop a c | phsig a c | phwait a c | phsw a c | tkstat a c =>
    exact qFormat_decodes 0 0 .signalOnly a 0 c _ (by simp)
  | gmem a b c | rwait a b c | claim a b c | object a b c => exact qFormat_decodes 0 0 .signalOnly a b c _ (by simp)
  | post a => exact qFormat_decodes 0 0 .signalOnly a 0 0 _ (by simp)
  | tblld s a => exact qFormat_decodes 0 s .signalOnly a 0 0 _ (by simp)
  | rput s a b c | rget s a b c | ramo s a b c | rldred s a b c => exact qFormat_decodes 0 s .signalOnly a b c _ (by simp)
  | clwait c | dlnend c => exact qFormat_decodes 0 0 .signalOnly 0 0 c _ (by simp)
  | dln a b => exact qFormat_decodes 0 0 .signalOnly a b 0 _ (by simp)
  | _ => exact fun _ hn => nomatch hn

/-! ### A word, as its fields -/

/-- The fields of the given widths of a number, from bit `lo` up. -/
def fieldsFrom (w : Nat) : Nat → List Nat → List (Nat × Nat)
  | _, [] => []
  | lo, n :: r => (n, fld w lo n) :: fieldsFrom w (lo + n) r

theorem fld_split (w lo m n : Nat) : fld w lo (m + n) = fld w (lo + m) n * 2 ^ m + fld w lo m := by
  rw [fld, Nat.pow_add, Nat.mod_mul, Nat.div_div_eq_div_mul, ← Nat.pow_add, ← fld, ← fld, Nat.add_comm, Nat.mul_comm]

theorem pack_fieldsFrom (w : Nat) (ns : List Nat) (lo : Nat) : pack (fieldsFrom w lo ns) = fld w lo ns.sum := by
  induction ns generalizing lo with
  | nil => simp [fieldsFrom, pack, fld, Nat.mod_one]
  | cons n r ih => rw [fieldsFrom, pack, ih, List.sum_cons, fld_split]

/-- A word is its fields side by side. -/
theorem eq_pack_fieldsFrom (w : Nat) (ns : List Nat) (h : w < 2 ^ ns.sum) : w = pack (fieldsFrom w 0 ns) := by
  rw [pack_fieldsFrom, fld_of_lt w _ h]

theorem fld_lt (w lo n : Nat) : fld w lo n < 2 ^ n := Nat.mod_lt _ (by positivity)

section
variable (w lo n : Nat)
theorem val_fReg : (fReg w lo).val = fld w lo 5 := rfl
theorem val_fPred : (fPred w lo).val = fld w lo 3 := rfl
theorem val_fTile : (fTile w lo).val = fld w lo 8 := rfl
theorem val_fSix : (fSix w lo).val = fld w lo 6 := rfl
theorem val_fTwo : (fTwo w lo).val = fld w lo 2 := rfl
theorem toNat_ofNat_fld : (BitVec.ofNat n w).toNat = fld w 0 n := by simp [fld]
theorem toNat_ofNat_div : (BitVec.ofNat n (w / 2 ^ lo)).toNat = fld w lo n := by simp [fld]
theorem val_finOfNat_div : (Fin.ofNat 16 (w / 2 ^ lo)).val = fld w lo 4 := rfl
theorem val_finOfNat : (Fin.ofNat 65536 w).val = fld w 0 16 := by simp [fld]
theorem val_finOfNat_10 : (Fin.ofNat 1024 (w / 2 ^ lo)).val = fld w lo 10 := rfl
theorem bitCode_fBit : bitCode (fBit w lo) = fld w lo 1 := by
  have h : fBit w lo = (fld w lo 1 == 1) := rfl
  have hlt : fld w lo 1 < 2 := fld_lt w lo 1
  rw [h]
  interval_cases fld w lo 1 <;> rfl
theorem code_etOf : (etOf (fld w lo 3)).code = fld w lo 3 := by
  have h : fld w lo 3 < 8 := fld_lt w lo 3
  interval_cases fld w lo 3 <;> rfl
theorem code_icondOf : (icondOf (fld w lo 2)).code = fld w lo 2 := by
  have h : fld w lo 2 < 4 := fld_lt w lo 2
  interval_cases fld w lo 2 <;> rfl
theorem code_fcondOf : (fcondOf (fld w lo 2)).code = fld w lo 2 := by
  have h : fld w lo 2 < 4 := fld_lt w lo 2
  interval_cases fld w lo 2 <;> rfl
end

section
variable {c : Nat}
theorem code_of_ewOf {w : EW} (h : ewOf c = some w) : w.code = c := by
  unfold ewOf at h
  split at h <;> cases h <;> rfl
theorem code_of_fmtOf {f : Fmt} (h : fmtOf c = some f) : f.code = c := by
  unfold fmtOf at h
  split at h <;> cases h <;> rfl
theorem code_of_iredOf {r : IRed} (h : iredOf c = some r) : r.code = c := by
  unfold iredOf at h
  split at h <;> cases h <;> rfl
theorem code_of_fredOf {r : FRed} (h : fredOf c = some r) : r.code = c := by
  unfold fredOf at h
  split at h <;> cases h <;> rfl
theorem code_of_phModeOf {m : PhMode} (h : phModeOf c = some m) : m.code = c := by
  unfold phModeOf at h
  split at h <;> cases h <;> rfl
end

theorem zeros_eq_ok {f : Nat} {i j : Instr} : zeros f i = .ok j ↔ f = 0 ∧ i = j := by
  unfold zeros
  split <;> simp_all

theorem ok_eq_ok {i j : Instr} : (.ok i : Decoded) = .ok j ↔ True ∧ i = j := by simp

theorem coded_eq_ok {α : Type} {o : Option α} {k : α → Decoded} {j : Instr} :
    coded o k = .ok j ↔ ∃ a, o = some a ∧ k a = .ok j := by
  unfold coded
  split <;> simp_all

theorem ite_error_eq_ok {p : Prop} [Decidable p] {e : DecodeError} {x : Decoded} {j : Instr} :
    (if p then .error e else x) = .ok j ↔ ¬p ∧ x = .ok j := by
  split <;> simp_all

theorem ite_ok_eq_ok {p : Prop} [Decidable p] {e : DecodeError} {x : Decoded} {j : Instr} :
    (if p then x else .error e) = .ok j ↔ p ∧ x = .ok j := by
  split <;> simp_all

/-! ### Encoding what is decoded -/

section
variable {w : Nat} {i : Instr} (hw : w < 2 ^ 32)
include hw

theorem alu_encodes (hm : fld w 26 6 = 0x01) (h : decodeAlu w = .ok i) : encodeNat i = some w := by
  have hfs := eq_pack_fieldsFrom w [5, 1, 5, 5, 5, 5, 6] hw
  have hz := fld_split w 5 1 5
  simp only [pack, fieldsFrom, Nat.reduceAdd] at hfs hz
  simp only [decodeAlu] at h
  split at h
  case h_19 => cases h
  all_goals
    obtain ⟨hz, rfl⟩ := zeros_eq_ok.1 h
    refine congrArg some ?_
    simp only [encR, bitCode_fBit, val_fReg]
    omega

theorem shift_encodes (hm : fld w 26 6 = 0x07) (h : decodeShift w = .ok i) : encodeNat i = some w := by
  have hfs := eq_pack_fieldsFrom w [6, 2, 8, 5, 5, 6] hw
  simp only [pack, fieldsFrom, Nat.reduceAdd] at hfs
  simp only [decodeShift] at h
  split at h
  case h_4 => cases h
  all_goals
    obtain ⟨hz, rfl⟩ := zeros_eq_ok.1 h
    refine congrArg some ?_
    simp only [encI, val_fReg, val_fSix]
    omega

theorem extIns_encodes (hm : fld w 26 6 = 0x08) (h : decodeExtIns w = .ok i) : encodeNat i = some w := by
  have hfs := eq_pack_fieldsFrom w [6, 6, 1, 1, 2, 5, 5, 6] hw
  simp only [pack, fieldsFrom, Nat.reduceAdd] at hfs
  have hlt := fld_lt w 13 1
  simp only [decodeExtIns] at h
  split at h
  case h_2 hne =>
    have hone : fld w 13 1 = 1 := by
      have : fld w 13 1 ≠ 0 := hne
      omega
    obtain ⟨hz, rfl⟩ := zeros_eq_ok.1 h
    refine congrArg some ?_
    simp only [encI, val_fReg, val_fSix]
    omega
  all_goals
    obtain ⟨hz, rfl⟩ := zeros_eq_ok.1 h
    refine congrArg some ?_
    simp only [encI, val_fReg, val_fSix, bitCode_fBit]
    omega

theorem branch_encodes (hm : fld w 26 6 = 0x0B) (h : decodeBranch w = .ok i) : encodeNat i = some w := by
  have hfs := eq_pack_fieldsFrom w [13, 3, 5, 5, 6] hw
  simp only [pack, fieldsFrom, Nat.reduceAdd] at hfs
  simp only [decodeBranch] at h
  split at h
  case h_7 => cases h
  all_goals
    obtain rfl := Except.ok.inj h
    refine congrArg some ?_
    simp only [encB, val_fReg, toNat_ofNat_fld]
    omega

theorem satom_encodes (hm : fld w 26 6 = 0x1C) (h : decodeSatom w = .ok i) : encodeNat i = some w := by
  have hfs := eq_pack_fieldsFrom w [1, 1, 5, 2, 2, 5, 5, 5, 6] hw
  have hs0 := fld_split w 0 1 1
  simp only [pack, fieldsFrom, Nat.reduceAdd] at hfs hs0
  simp only [decodeSatom] at h
  split at h
  case h_13 => cases h
  all_goals
    simp only [zeros_eq_ok, ite_ok_eq_ok, ← and_assoc] at h
    obtain ⟨hz, rfl⟩ := h
    refine congrArg some ?_
    simp only [encR, satomFn, wideCode, val_fReg, val_fTwo, bitCode_fBit]
    omega

theorem csr_encodes (hm : fld w 26 6 = 0x1D) (h : decodeCsr w = .ok i) : encodeNat i = some w := by
  have hfs := eq_pack_fieldsFrom w [12, 2, 2, 5, 5, 6] hw
  simp only [pack, fieldsFrom, Nat.reduceAdd] at hfs
  have hlt := fld_lt w 12 2
  simp only [decodeCsr] at h
  split at h
  case h_4 h0 h1 h2 =>
    have hthree : fld w 12 2 = 3 := by
      have : fld w 12 2 ≠ 0 := h0
      have : fld w 12 2 ≠ 1 := h1
      have : fld w 12 2 ≠ 2 := h2
      omega
    obtain ⟨hz, rfl⟩ := zeros_eq_ok.1 h
    refine congrArg some ?_
    simp only [encI, val_fReg, toNat_ofNat_fld]
    omega
  all_goals
    obtain ⟨hz, rfl⟩ := zeros_eq_ok.1 h
    refine congrArg some ?_
    simp only [encI, val_fReg, toNat_ofNat_fld]
    omega

theorem sys_encodes (hm : fld w 26 6 = 0x1E) (h : decodeSys w = .ok i) : encodeNat i = some w := by
  have hfs := eq_pack_fieldsFrom w [11, 5, 5, 5, 6] hw
  simp only [pack, fieldsFrom, Nat.reduceAdd] at hfs
  simp only [decodeSys] at h
  split at h
  case h_6 => cases h
  case h_4 =>
    obtain ⟨hz, rfl⟩ := zeros_eq_ok.1 h
    refine congrArg some ?_
    simp only [encR, val_fReg]
    omega
  all_goals
    obtain ⟨hz, rfl⟩ := zeros_eq_ok.1 h
    refine congrArg some ?_
    omega

theorem vint_encodes (hm : fld w 26 6 = 0x22) (h : decodeVint w = .ok i) : encodeNat i = some w := by
  have hfs := eq_pack_fieldsFrom w [4, 1, 3, 3, 3, 2, 5, 3, 2, 6] hw
  have hs0 := fld_split w 11 3 2
  have hs1 := fld_split w 21 3 2
  simp only [pack, fieldsFrom, Nat.reduceAdd] at hfs hs0 hs1
  simp only [decodeVint] at h
  split at h
  case h_16 => cases h
  case h_15 =>
    obtain ⟨r, hr, hz⟩ := coded_eq_ok.1 h
    obtain ⟨hz, rfl⟩ := zeros_eq_ok.1 hz
    have hcode := code_of_iredOf hr
    refine congrArg some ?_
    simp only [encVint, encV, val_fReg, val_fPred, bitCode_fBit, code_etOf]
    omega
  all_goals
    obtain rfl := Except.ok.inj h
    refine congrArg some ?_
    simp only [encVint, encV, val_fReg, val_fPred, bitCode_fBit, code_etOf, code_icondOf]
    omega

theorem vfp_encodes (hm : fld w 26 6 = 0x23) (h : decodeVfp w = .ok i) : encodeNat i = some w := by
  have hfs := eq_pack_fieldsFrom w [5, 3, 3, 2, 3, 5, 3, 2, 6] hw
  have hs0 := fld_split w 11 2 3
  have hs1 := fld_split w 21 3 2
  simp only [pack, fieldsFrom, Nat.reduceAdd] at hfs hs0 hs1
  simp only [decodeVfp] at h
  split at h
  case h_14 => cases h
  case h_12 =>
    obtain ⟨r, hr, hz⟩ := coded_eq_ok.1 h
    obtain ⟨hz, rfl⟩ := zeros_eq_ok.1 hz
    have hcode := code_of_fredOf hr
    refine congrArg some ?_
    simp only [encV, val_fReg, val_fPred, code_etOf]
    omega
  all_goals
    simp only [zeros_eq_ok, ok_eq_ok] at h
    obtain ⟨hz, rfl⟩ := h
    refine congrArg some ?_
    simp only [encV, val_fReg, val_fPred, val_fTwo, code_etOf, code_fcondOf]
    omega

theorem vperm_encodes (hm : fld w 26 6 = 0x26) (h : decodeVperm w = .ok i) : encodeNat i = some w := by
  have hfs := eq_pack_fieldsFrom w [5, 3, 3, 5, 5, 5, 6] hw
  simp only [pack, fieldsFrom, Nat.reduceAdd] at hfs
  simp only [decodeVperm] at h
  split at h
  case h_9 => cases h
  all_goals
    simp only [zeros_eq_ok, ok_eq_ok] at h
    obtain ⟨hz, rfl⟩ := h
    refine congrArg some ?_
    simp only [encV, val_fReg, val_fPred, code_etOf]
    omega

theorem vpred_encodes (hm : fld w 26 6 = 0x27) (h : decodeVpred w = .ok i) : encodeNat i = some w := by
  have hfs := eq_pack_fieldsFrom w [5, 6, 3, 2, 3, 2, 3, 2, 6] hw
  have hs0 := fld_split w 11 3 2
  have hs1 := fld_split w 16 3 2
  have hs2 := fld_split w 21 3 2
  have hs3 := fld_split w 5 3 3
  simp only [pack, fieldsFrom, Nat.reduceAdd] at hfs hs0 hs1 hs2 hs3
  simp only [decodeVpred] at h
  split at h
  case h_7 => cases h
  all_goals
    obtain ⟨hz, rfl⟩ := zeros_eq_ok.1 h
    refine congrArg some ?_
    simp only [encV, val_fReg, val_fPred]
    omega

theorem mtile_encodes (hm : fld w 26 6 = 0x36) (h : decodeMtile w = .ok i) : encodeNat i = some w := by
  have hfs := eq_pack_fieldsFrom w [1, 2, 5, 5, 5, 8, 6] hw
  simp only [pack, fieldsFrom, Nat.reduceAdd] at hfs
  simp only [decodeMtile] at h
  split at h
  case h_14 => cases h
  all_goals
    simp only [zeros_eq_ok, ok_eq_ok] at h
    obtain ⟨hz, rfl⟩ := h
    refine congrArg some ?_
    simp only [encMM, val_fReg, val_fTile, val_fTwo, bitCode_fBit]
    omega

theorem mxform_encodes (hm : fld w 26 6 = 0x37) (h : decodeMxform w = .ok i) : encodeNat i = some w := by
  have hfs := eq_pack_fieldsFrom w [1, 1, 2, 8, 8, 6, 6] hw
  simp only [pack, fieldsFrom, Nat.reduceAdd] at hfs
  simp only [decodeMxform] at h
  split at h
  case h_3 => cases h
  all_goals
    obtain ⟨hz, rfl⟩ := zeros_eq_ok.1 h
    refine congrArg some ?_
    simp only [encM, val_fTile, val_fTwo, bitCode_fBit]
    omega

theorem copy_encodes (hm : fld w 26 6 = 0x38) (h : decodeCopy w = .ok i) : encodeNat i = some w := by
  have hfs := eq_pack_fieldsFrom w [8, 5, 5, 5, 2, 1, 6] hw
  have hs0 := fld_split w 23 2 1
  simp only [pack, fieldsFrom, Nat.reduceAdd] at hfs hs0
  simp only [decodeCopy] at h
  split at h
  case h_7 => cases h
  case h_6 =>
    obtain ⟨hbit, hz⟩ := ite_error_eq_ok.1 h
    obtain ⟨hz, rfl⟩ := zeros_eq_ok.1 hz
    have hlt := fld_lt w 25 1
    refine congrArg some ?_
    simp only [encQ, val_fReg, val_fTwo]
    omega
  all_goals
    obtain rfl := Except.ok.inj h
    refine congrArg some ?_
    simp only [encQ, val_fReg, val_fPred]
    omega

theorem phaser_encodes (hm : fld w 26 6 = 0x39) (h : decodePhaser w = .ok i) : encodeNat i = some w := by
  have hfs := eq_pack_fieldsFrom w [8, 5, 5, 5, 3, 6] hw
  simp only [pack, fieldsFrom, Nat.reduceAdd] at hfs
  simp only [decodePhaser] at h
  split at h
  case h_8 => cases h
  case h_3 =>
    obtain ⟨m, hmode, hz⟩ := coded_eq_ok.1 h
    obtain ⟨hz, rfl⟩ := zeros_eq_ok.1 hz
    have hcode := code_of_phModeOf hmode
    refine congrArg some ?_
    simp only [encQ, val_fReg]
    omega
  all_goals
    obtain ⟨hz, rfl⟩ := zeros_eq_ok.1 h
    refine congrArg some ?_
    simp only [encQ, val_fReg]
    omega

theorem task_encodes (hm : fld w 26 6 = 0x3A) (h : decodeTask w = .ok i) : encodeNat i = some w := by
  have hfs := eq_pack_fieldsFrom w [8, 5, 5, 5, 3, 6] hw
  have hs0 := fld_split w 8 5 5
  have hs1 := fld_split w 8 5 10
  have hs2 := fld_split w 13 5 5
  simp only [pack, fieldsFrom, Nat.reduceAdd] at hfs hs0 hs1 hs2
  simp only [decodeTask] at h
  split at h
  case h_4 => cases h
  case h_3 =>
    obtain ⟨hz, rfl⟩ := zeros_eq_ok.1 h
    refine congrArg some ?_
    omega
  all_goals
    obtain ⟨hz, rfl⟩ := zeros_eq_ok.1 h
    refine congrArg some ?_
    simp only [encQ, val_fReg]
    omega

theorem remote_encodes (hm : fld w 26 6 = 0x3B) (h : decodeRemote w = .ok i) : encodeNat i = some w := by
  have hfs := eq_pack_fieldsFrom w [8, 5, 5, 5, 2, 1, 6] hw
  have hs0 := fld_split w 23 2 1
  simp only [pack, fieldsFrom, Nat.reduceAdd] at hfs hs0
  simp only [decodeRemote] at h
  split at h
  case h_7 => cases h
  all_goals
    obtain ⟨hz, rfl⟩ := zeros_eq_ok.1 h
    refine congrArg some ?_
    simp only [encQ, val_fReg, val_fTwo]
    omega

theorem claimGov_encodes (hm : fld w 26 6 = 0x3C) (h : decodeClaimGov w = .ok i) : encodeNat i = some w := by
  have hfs := eq_pack_fieldsFrom w [8, 5, 5, 5, 3, 6] hw
  have hs0 := fld_split w 13 5 5
  simp only [pack, fieldsFrom, Nat.reduceAdd] at hfs hs0
  simp only [decodeClaimGov] at h
  split at h
  case h_6 => cases h
  all_goals
    obtain ⟨hz, rfl⟩ := zeros_eq_ok.1 h
    refine congrArg some ?_
    simp only [encQ, val_fReg]
    omega

theorem strip_encodes (hm : fld w 26 6 = 0x2B) (h : decodeStrip w = .ok i) : encodeNat i = some w := by
  have hfs := eq_pack_fieldsFrom w [11, 5, 5, 5, 6] hw
  simp only [pack, fieldsFrom, Nat.reduceAdd] at hfs
  simp only [decodeStrip] at h
  split at h
  case h_4 => cases h
  case h_1 =>
    obtain ⟨hz, rfl⟩ := zeros_eq_ok.1 h
    refine congrArg some ?_
    simp only [encR, val_fReg]
    omega
  all_goals
    obtain ⟨hz, rfl⟩ := zeros_eq_ok.1 h
    refine congrArg some ?_
    omega

theorem vlns_encodes (hm : fld w 26 6 = 0x25) (h : decodeVlns w = .ok i) : encodeNat i = some w := by
  have hfs := eq_pack_fieldsFrom w [5, 3, 3, 5, 5, 5, 6] hw
  simp only [pack, fieldsFrom, Nat.reduceAdd] at hfs
  simp only [decodeVlns] at h
  obtain ⟨hthree, h⟩ := ite_error_eq_ok.1 h
  split at h
  case h_6 => cases h
  all_goals
    simp only [zeros_eq_ok, ok_eq_ok] at h
    obtain ⟨hz, rfl⟩ := h
    refine congrArg some ?_
    simp only [encV, val_fReg, val_fPred]
    omega

theorem vload_encodes (hm : fld w 26 6 = 0x28) (h : decodeVload w = .ok i) : encodeNat i = some w := by
  have hfs := eq_pack_fieldsFrom w [3, 2, 3, 3, 5, 4, 1, 5, 6] hw
  have hs0 := fld_split w 16 4 1
  simp only [pack, fieldsFrom, Nat.reduceAdd] at hfs hs0
  simp only [decodeVload] at h
  obtain ⟨ew, hew, h⟩ := coded_eq_ok.1 h
  have hcode := code_of_ewOf hew
  split at h
  case h_7 => cases h
  case h_6 =>
    obtain ⟨hz, rfl⟩ := zeros_eq_ok.1 h
    refine congrArg some ?_
    simp only [encVM, val_fReg, val_fPred, val_finOfNat_div]
    omega
  all_goals
    simp only [zeros_eq_ok, ok_eq_ok] at h
    obtain ⟨hz, rfl⟩ := h
    refine congrArg some ?_
    simp only [encVM, val_fReg, val_fPred, val_fTwo]
    omega

theorem vstore_encodes (hm : fld w 26 6 = 0x29) (h : decodeVstore w = .ok i) : encodeNat i = some w := by
  have hfs := eq_pack_fieldsFrom w [3, 2, 3, 3, 5, 5, 5, 6] hw
  simp only [pack, fieldsFrom, Nat.reduceAdd] at hfs
  simp only [decodeVstore] at h
  obtain ⟨ew, hew, h⟩ := coded_eq_ok.1 h
  have hcode := code_of_ewOf hew
  split at h
  case h_5 => cases h
  all_goals
    simp only [zeros_eq_ok, ok_eq_ok] at h
    obtain ⟨hz, rfl⟩ := h
    refine congrArg some ?_
    simp only [encVM, val_fReg, val_fPred, val_fTwo]
    omega

theorem vamo_encodes (hm : fld w 26 6 = 0x2A) (h : decodeVamo w = .ok i) : encodeNat i = some w := by
  have hfs := eq_pack_fieldsFrom w [3, 2, 1, 2, 3, 5, 5, 5, 6] hw
  simp only [pack, fieldsFrom, Nat.reduceAdd] at hfs
  simp only [decodeVamo] at h
  obtain ⟨hone, h⟩ := ite_error_eq_ok.1 h
  split at h
  case h_8 => cases h
  all_goals
    obtain rfl := Except.ok.inj h
    refine congrArg some ?_
    simp only [encVM, wideCode, val_fReg, val_fPred, val_fTwo, bitCode_fBit]
    omega

theorem vcvt_encodes (hm : fld w 26 6 = 0x24) (h : decodeVcvt w = .ok i) : encodeNat i = some w := by
  have hfs := eq_pack_fieldsFrom w [3, 1, 1, 3, 3, 5, 5, 5, 6] hw
  simp only [pack, fieldsFrom, Nat.reduceAdd] at hfs
  simp only [decodeVcvt] at h
  split at h
  · obtain ⟨hz, rfl⟩ := zeros_eq_ok.1 h
    refine congrArg some ?_
    simp only [encV, val_fReg, val_fPred, code_etOf, bitCode_fBit]
    omega
  · obtain ⟨hsat, h⟩ := ite_error_eq_ok.1 h
    obtain ⟨hz, rfl⟩ := zeros_eq_ok.1 h
    have hbit : fld w 3 1 ≠ 1 := fun he => hsat (by rw [fBit_eq_fld, he]; rfl)
    have hlt := fld_lt w 3 1
    refine congrArg some ?_
    simp only [encV, val_fReg, val_fPred, code_etOf]
    omega

theorem fencex_encodes (hm : fld w 26 6 = 0x2D) (h : decodeFencex w = .ok i) : encodeNat i = some w := by
  have hfs := eq_pack_fieldsFrom w [3, 1, 7, 15, 6] hw
  have hs0 := fld_split w 3 1 7
  simp only [pack, fieldsFrom, Nat.reduceAdd] at hfs hs0
  have hlt := fld_lt w 3 1
  unfold decodeFencex at h
  split at h
  case h_1 =>
    obtain ⟨hz, rfl⟩ := zeros_eq_ok.1 h
    have hbit : bitCode (fBit w 3) = fld w 3 1 := bitCode_fBit w 3
    cases hb : fBit w 3 with
    | false =>
      rw [hb, bitCode, if_neg Bool.false_ne_true] at hbit
      refine congrArg some (?_ : 0xB4000000 = w)
      omega
    | true =>
      rw [hb, bitCode, if_pos rfl] at hbit
      refine congrArg some (?_ : 0xB4000008 = w)
      omega
  case h_2 =>
    obtain ⟨hz, rfl⟩ := zeros_eq_ok.1 h
    refine congrArg some ?_
    simp only [toNat_ofNat_div]
    omega
  case h_3 =>
    obtain ⟨hz, rfl⟩ := zeros_eq_ok.1 h
    refine congrArg some ?_
    omega
  case h_4 => cases h

theorem encI_of_fields {m : Nat} (hm : fld w 26 6 = m) : encI m (fReg w 21) (fReg w 16) (BitVec.ofNat 16 w).toNat = w := by
  have hfs := eq_pack_fieldsFrom w [16, 5, 5, 6] hw
  simp only [pack, fieldsFrom, Nat.reduceAdd] at hfs
  simp only [encI, val_fReg, toNat_ofNat_fld]
  omega

theorem encU_of_fields {m : Nat} (hm : fld w 26 6 = m) : encU m (fReg w 21) (BitVec.ofNat 21 w).toNat = w := by
  have hfs := eq_pack_fieldsFrom w [21, 5, 6] hw
  simp only [pack, fieldsFrom, Nat.reduceAdd] at hfs
  simp only [encU, val_fReg, toNat_ofNat_fld]
  omega

theorem nop_encodes (hm : fld w 26 6 = 0x02) (h : fReg w 21 = 0 ∧ fReg w 16 = 0 ∧ BitVec.ofNat 16 w = 0) :
    encodeNat .nop = some w := by
  obtain ⟨hd, ha, himm⟩ := h
  have hw := encI_of_fields hw hm
  rw [hd, ha, himm] at hw
  exact congrArg some hw

theorem loop_encodes (hm : fld w 26 6 = 0x0E) (hz : fld w 21 5 = 0) :
    encodeNat (.loop (fReg w 16) (Fin.ofNat 65536 w)) = some w := by
  have hfs := eq_pack_fieldsFrom w [16, 5, 5, 6] hw
  simp only [pack, fieldsFrom, Nat.reduceAdd] at hfs
  refine congrArg some ?_
  simp only [encI, val_fReg, val_finOfNat]
  omega

theorem loopi_encodes (hm : fld w 26 6 = 0x0F) :
    encodeNat (.loopi (Fin.ofNat 1024 (w / 2 ^ 16)) (Fin.ofNat 65536 w)) = some w := by
  have hfs := eq_pack_fieldsFrom w [16, 10, 6] hw
  simp only [pack, fieldsFrom, Nat.reduceAdd] at hfs
  refine congrArg some ?_
  simp only [val_finOfNat, val_finOfNat_10]
  omega

theorem vsetvl_encodes (hm : fld w 26 6 = 0x20) (hbit : fld w 2 1 ≠ 1) (hz : fld w 3 8 + fld w 11 5 = 0) :
    encodeNat (.vsetvl (fReg w 21) (fReg w 16) (fTwo w 0)) = some w := by
  have hfs := eq_pack_fieldsFrom w [2, 1, 8, 5, 5, 5, 6] hw
  have hlt := fld_lt w 2 1
  simp only [pack, fieldsFrom, Nat.reduceAdd] at hfs
  refine congrArg some ?_
  simp only [encR, val_fReg, val_fTwo]
  omega

theorem vsetvli_encodes (hm : fld w 26 6 = 0x21) (hbit : fld w 15 1 ≠ 1) (hz : fld w 16 5 = 0) :
    encodeNat (.vsetvli (fReg w 21) (fTwo w 13) (BitVec.ofNat 13 w)) = some w := by
  have hfs := eq_pack_fieldsFrom w [13, 2, 1, 5, 5, 6] hw
  have hlt := fld_lt w 15 1
  simp only [pack, fieldsFrom, Nat.reduceAdd] at hfs
  refine congrArg some ?_
  simp only [encI, val_fReg, val_fTwo, toNat_ofNat_fld]
  omega

theorem fence_encodes (hm : fld w 26 6 = 0x2C) (hz : fld w 21 5 = 0) :
    encodeNat (.fence (fBit w 20) (Fin.ofNat 16 (w / 2 ^ 16)) (BitVec.ofNat 16 w)) = some w := by
  have hfs := eq_pack_fieldsFrom w [16, 4, 1, 5, 6] hw
  simp only [pack, fieldsFrom, Nat.reduceAdd] at hfs
  refine congrArg some ?_
  simp only [val_finOfNat_div, toNat_ofNat_fld, bitCode_fBit]
  omega

theorem major_only_encodes {m : Nat} (hm : fld w 26 6 = m) : m * 2 ^ 26 + (BitVec.ofNat 26 w).toNat = w := by
  have hfs := eq_pack_fieldsFrom w [26, 6] hw
  simp only [pack, fieldsFrom, Nat.reduceAdd] at hfs
  rw [toNat_ofNat_fld]
  omega

section
variable {k : Nat} {f : Fmt}

theorem mma_encodes (hm : fld w 26 6 = 0x30 + k) (hf : fmtOf (4 * k + fld w 2 2) = some f) :
    encodeNat (.mma f (fSix w 20) (fTile w 12) (fTile w 4) (BitVec.ofNat 2 w)) = some w := by
  have hfs := eq_pack_fieldsFrom w [2, 2, 8, 8, 6, 6] hw
  have hlt := fld_lt w 2 2
  have hcode := code_of_fmtOf hf
  simp only [pack, fieldsFrom, Nat.reduceAdd] at hfs
  refine congrArg some ?_
  simp only [encM, val_fTile, val_fSix, toNat_ofNat_fld]
  omega

theorem encMS_of_fields {m : Nat} (hm : fld w 26 6 = m + k) (hf : fmtOf (4 * k + fld w 0 2) = some f) :
    encMS (m + f.code / 4) (fSix w 20) (fTile w 12) (fReg w 7) (fReg w 2) (f.code % 4) = w := by
  have hfs := eq_pack_fieldsFrom w [2, 5, 5, 8, 6, 6] hw
  have hlt := fld_lt w 0 2
  have hcode := code_of_fmtOf hf
  simp only [pack, fieldsFrom, Nat.reduceAdd] at hfs
  simp only [encMS, val_fReg, val_fTile, val_fSix]
  omega
end
end

/-- A word that decodes, before the checks of `Instr.wf`, is the number of what it decodes to. -/
theorem decodeFields_encodes {w : Nat} {i : Instr} (hw : w < 2 ^ 32) (h : decodeFields w = .ok i) : encodeNat i = some w := by
  simp only [decodeFields] at h
  split at h
  case h_1 hm => exact alu_encodes hw hm h
  case h_2 hm =>
    split at h
    · obtain rfl := Except.ok.inj h
      exact nop_encodes hw hm ‹_›
    · obtain rfl := Except.ok.inj h
      exact congrArg some (encI_of_fields hw hm)
  case h_3 hm | h_4 hm | h_5 hm | h_6 hm | h_13 hm | h_16 hm | h_17 hm | h_18 hm | h_19 hm | h_20 hm | h_21 hm |
    h_22 hm | h_23 hm | h_24 hm | h_25 hm | h_26 hm =>
    obtain rfl := Except.ok.inj h
    exact congrArg some (encI_of_fields hw hm)
  case h_7 hm => exact shift_encodes hw hm h
  case h_8 hm => exact extIns_encodes hw hm h
  case h_9 hm | h_10 hm | h_12 hm =>
    obtain rfl := Except.ok.inj h
    exact congrArg some (encU_of_fields hw hm)
  case h_11 hm => exact branch_encodes hw hm h
  case h_14 hm =>
    obtain ⟨hz, rfl⟩ := zeros_eq_ok.1 h
    exact loop_encodes hw hm hz
  case h_15 hm =>
    obtain rfl := Except.ok.inj h
    exact loopi_encodes hw hm
  case h_27 hm => exact satom_encodes hw hm h
  case h_28 hm => exact csr_encodes hw hm h
  case h_29 hm => exact sys_encodes hw hm h
  case h_30 hm | h_58 hm =>
    obtain rfl := Except.ok.inj h
    exact congrArg some (major_only_encodes hw hm)
  case h_31 hm =>
    obtain ⟨hbit, h⟩ := ite_error_eq_ok.1 h
    obtain ⟨hz, rfl⟩ := zeros_eq_ok.1 h
    exact vsetvl_encodes hw hm hbit hz
  case h_32 hm =>
    obtain ⟨hbit, h⟩ := ite_error_eq_ok.1 h
    obtain ⟨hz, rfl⟩ := zeros_eq_ok.1 h
    exact vsetvli_encodes hw hm hbit hz
  case h_33 hm => exact vint_encodes hw hm h
  case h_34 hm => exact vfp_encodes hw hm h
  case h_35 hm => exact vcvt_encodes hw hm h
  case h_36 hm => exact vlns_encodes hw hm h
  case h_37 hm => exact vperm_encodes hw hm h
  case h_38 hm => exact vpred_encodes hw hm h
  case h_39 hm => exact vload_encodes hw hm h
  case h_40 hm => exact vstore_encodes hw hm h
  case h_41 hm => exact vamo_encodes hw hm h
  case h_42 hm => exact strip_encodes hw hm h
  case h_43 hm =>
    obtain ⟨hz, rfl⟩ := zeros_eq_ok.1 h
    exact fence_encodes hw hm hz
  case h_44 hm => exact fencex_encodes hw hm h
  case h_45 hm =>
    obtain ⟨f, hf, h⟩ := coded_eq_ok.1 h
    obtain rfl := Except.ok.inj h
    exact mma_encodes hw (k := 0) hm ((Nat.zero_add _).symm ▸ hf)
  case h_46 hm =>
    obtain ⟨f, hf, h⟩ := coded_eq_ok.1 h
    obtain rfl := Except.ok.inj h
    exact mma_encodes hw (k := 1) hm hf
  case h_47 hm =>
    obtain ⟨f, hf, h⟩ := coded_eq_ok.1 h
    obtain rfl := Except.ok.inj h
    exact congrArg some (encMS_of_fields hw (k := 0) hm ((Nat.zero_add _).symm ▸ hf))
  case h_48 hm =>
    obtain ⟨f, hf, h⟩ := coded_eq_ok.1 h
    obtain rfl := Except.ok.inj h
    exact congrArg some (encMS_of_fields hw (k := 1) hm hf)
  case h_49 hm =>
    obtain ⟨f, hf, h⟩ := coded_eq_ok.1 h
    obtain rfl := Except.ok.inj h
    exact congrArg some (encMS_of_fields hw (k := 0) hm ((Nat.zero_add _).symm ▸ hf))
  case h_50 hm =>
    obtain ⟨f, hf, h⟩ := coded_eq_ok.1 h
    obtain rfl := Except.ok.inj h
    exact congrArg some (encMS_of_fields hw (k := 1) hm hf)
  case h_51 hm => exact mtile_encodes hw hm h
  case h_52 hm => exact mxform_encodes hw hm h
  case h_53 hm => exact copy_encodes hw hm h
  case h_54 hm => exact phaser_encodes hw hm h
  case h_55 hm => exact task_encodes hw hm h
  case h_56 hm => exact remote_encodes hw hm h
  case h_57 hm => exact claimGov_encodes hw hm h
  case h_59 => cases h

theorem decodeWord_eq_ok {w : IWord} {i : Instr} : decodeWord w = .ok i ↔ decodeFields w.toNat = .ok i ∧ i.wf = true := by
  unfold decodeWord
  cases decodeFields w.toNat with
  | error e => simp
  | ok j =>
    by_cases hj : j.wf = true <;> simp [hj]
    · exact fun h => h ▸ hj
    · exact fun h => h ▸ (by simpa using hj)

/-- Settles O3: each format's words decode back (`decodes_of_wf`), and a well-formed instruction passes the checks of
`Instr.wf`. -/
theorem decodeOfEncodeIsIdentity : Obligations.DecodeOfEncodeIsIdentity := by
  intro i w hwf henc
  obtain ⟨n, hn, rfl⟩ := Option.map_eq_some_iff.1 henc
  obtain ⟨hlt, hdec⟩ := decodes_of_wf i hwf n hn
  refine decodeWord_eq_ok.2 ⟨?_, hwf⟩
  rwa [BitVec.toNat_ofNat, Nat.mod_eq_of_lt hlt]

/-- Settles O4: the fields that the decoder reads of a word, and those it requires to be zero, are all of it
(`decodeFields_encodes`). -/
theorem encodeOfDecodeIsIdentity : Obligations.EncodeOfDecodeIsIdentity := by
  intro w i h
  obtain ⟨hdec, -⟩ := decodeWord_eq_ok.1 h
  rw [encode, decodeFields_encodes w.isLt hdec, Option.map_some, BitVec.ofNat_toNat, BitVec.setWidth_eq]

end Sys2Proof
end

section
/-! PROOFS that every instruction answers (R78). No meaning faults and none is refused: each is a next state, is made of parts, or
branches between next states. -/

namespace Sys2Proof.Machine
/-- The outcome is a next state. -/
def Answers (r : Out) : Prop := ∃ t, r = .next t

theorem answers_next (t : State) : Answers (.next t) := ⟨t, rfl⟩
theorem answers_finish (r : Part State) : Answers (finish r) := finish_next r

theorem answers_ite {c : Prop} [Decidable c] {a b : Out} (ha : Answers a) (hb : Answers b) : Answers (if c then a else b) := by
  split
  · exact ha
  · exact hb

theorem execPfx_answers (fields : BitVec 26) (s : State) : Answers (execPfx fields s) := by
  unfold execPfx
  dsimp only
  repeat' split
  all_goals exact answers_next _

theorem execEcall_answers (s : State) : Answers (execEcall s) := by
  unfold execEcall
  repeat' split
  all_goals exact answers_next _

theorem execBrk_answers (s : State) : Answers (execBrk s) := by
  unfold execBrk
  repeat' split
  all_goals exact answers_next _

theorem enterLoop_answers (s : State) (i : Instr) (count : Word) (len : Nat) : Answers (s.enterLoop i count len) := by
  exact answers_ite (answers_next _) (answers_ite (answers_next _) (answers_next _))

theorem execMapCommandCompletes_answers (s : State) : Answers (execMapCommandCompletes s) := by
  unfold execMapCommandCompletes
  repeat' split
  all_goals exact answers_next _

theorem execMigrate_answers (va pfn : Nat) (s : State) : Answers (execMigrate va pfn s) := by
  unfold execMigrate
  dsimp only
  repeat' split
  all_goals exact answers_next _

theorem execPromotion_answers (asid va level pfn : Nat) (s : State) : Answers (execPromotion asid va level pfn s) := by
  simp only [execPromotion]
  split
  · exact answers_next _
  · split
    · split <;> exact answers_next _
    · exact answers_next _

theorem execLaunch_answers (c : Cmd) (r : LaunchReq) (ids : LaunchIds) (s : State) : Answers (execLaunch c r ids s) := by
  unfold execLaunch
  repeat' split
  all_goals exact answers_next _

theorem execBind_answers (c : BindChoice) (s : State) : Answers (execBind c s) := by
  unfold execBind
  repeat' split
  all_goals exact answers_next _

theorem execPutReceived_answers (m : PutMsg) (s0 : State) : Answers (execPutReceived m s0) := by
  unfold execPutReceived
  dsimp only
  repeat' split
  all_goals exact answers_next _

theorem execTokenAccepted_answers (t : TokName) (s0 : State) : Answers (execTokenAccepted t s0) := by
  unfold execTokenAccepted
  repeat' split
  all_goals exact answers_next _

theorem execPutRefused_answers (m : PutMsg) (s0 : State) : Answers (execPutRefused m s0) := by
  unfold execPutRefused
  repeat' split
  all_goals exact answers_next _

theorem execTokenLanded_answers (t : TokName) (s0 : State) : Answers (execTokenLanded t s0) := by
  unfold execTokenLanded
  repeat' split
  all_goals exact answers_next _

theorem execTokenExpires_answers (t : TokName) (s : State) : Answers (execTokenExpires t s) := by
  unfold execTokenExpires
  repeat' split
  all_goals exact answers_next _

theorem execPutFailed_answers (t : TokName) (code : Nat) (s0 : State) : Answers (execPutFailed t code s0) := by
  unfold execPutFailed
  repeat' split
  all_goals exact answers_next _

theorem execQuiesceTokenSettle_answers (tenant : Nat) (s : State) : Answers (execQuiesceTokenSettle tenant s) := by
  unfold execQuiesceTokenSettle
  repeat' split
  all_goals exact answers_next _

theorem execProposalReceived_answers (p : Proposal) (s0 : State) : Answers (execProposalReceived p s0) := by
  unfold execProposalReceived
  dsimp only
  repeat' split
  all_goals exact answers_next _

theorem execClaimWaitEnds_answers (s : State) : Answers (execClaimWaitEnds s) := by
  unfold execClaimWaitEnds
  dsimp only
  repeat' split
  all_goals exact answers_next _

theorem execClaimStorePerformed_answers (acknowledged written : Bool) (s : State) :
    Answers (execClaimStorePerformed acknowledged written s) := by
  unfold execClaimStorePerformed
  repeat' split
  all_goals exact answers_next _

theorem execLaneShed_answers (p : Fin 18) (lanes : Fin 4) (s : State) : Answers (execLaneShed p lanes s) := by
  unfold execLaneShed
  repeat' split
  all_goals exact answers_next _

theorem execDlnRisk_answers (s : State) : Answers (execDlnRisk s) := by
  unfold execDlnRisk
  repeat' split
  all_goals exact answers_next _

theorem execCopyEntryPerforms_answers (turn : CopyTurn) (s : State) : Answers (execCopyEntryPerforms turn s) := by
  unfold execCopyEntryPerforms
  repeat' split
  · exact answers_finish _
  · exact answers_next _

theorem execTileFillDone_answers (t : TReg) (s : State) : Answers (execTileFillDone t s) := by
  unfold execTileFillDone
  dsimp only
  repeat' split
  all_goals exact answers_next _

theorem execTileSpillStart_answers (t : TReg) (s : State) : Answers (execTileSpillStart t s) := by
  unfold execTileSpillStart
  dsimp only
  repeat' split
  all_goals exact answers_next _

theorem execTileSpillDone_answers (t : TReg) (s : State) : Answers (execTileSpillDone t s) := by
  simp only [execTileSpillDone]
  split
  · exact answers_next _
  · split
    · split <;> exact answers_next _
    · exact answers_next _

theorem execSlotReclaim_answers (t : TReg) (s : State) : Answers (execSlotReclaim t s) := by
  unfold execSlotReclaim
  dsimp only
  repeat' split
  all_goals exact answers_next _

theorem execTransferReplay_answers (s : State) : Answers (execTransferReplay s) := by
  unfold execTransferReplay
  repeat' split
  all_goals exact answers_next _

theorem execCarve_answers (c : Cmd) (die way0 nway : Nat) (s : State) : Answers (execCarve c die way0 nway s) := by
  unfold execCarve
  repeat' split
  all_goals exact answers_next _

theorem execUncarve_answers (c : Cmd) (handle : Word) (s : State) : Answers (execUncarve c handle s) := by
  unfold execUncarve
  repeat' split
  all_goals exact answers_next _

theorem execPool_answers (c : Cmd) (cluster : Nat) (q : Fin 16) (qmin qcap : Nat) (s : State) :
    Answers (execPool c cluster q qmin qcap s) := by
  unfold execPool
  repeat' split
  all_goals exact answers_next _

theorem execCommandUnknown_answers (c : Cmd) (op : CmdOpcode) (s : State) : Answers (execCommandUnknown c op s) := by
  unfold execCommandUnknown
  repeat' split
  all_goals exact answers_next _

theorem execGovernorDecision_answers (share : HeatShare) (s : State) : Answers (execGovernorDecision share s) := by
  unfold execGovernorDecision
  dsimp only
  repeat' split
  all_goals exact answers_next _

theorem execOperatingPointSettles_answers (s : State) : Answers (execOperatingPointSettles s) := by
  unfold execOperatingPointSettles
  repeat' split
  all_goals exact answers_next _

theorem retireTurn_answers (s : State) : Answers s.retireTurn := by
  unfold State.retireTurn
  split
  · exact answers_finish _
  · exact answers_next _

theorem execQueuedInstructionRetires_answers (pc : Word) (ahead : Nat) (s : State) :
    Answers (execQueuedInstructionRetires pc ahead s) := by
  unfold execQueuedInstructionRetires
  split
  · exact retireTurn_answers s
  · exact answers_next _

theorem execPreemptionRequest_answers (s : State) : Answers (execPreemptionRequest s) := by
  unfold execPreemptionRequest
  repeat' split
  all_goals exact answers_next _

theorem execPreemptionComplete_answers (s : State) : Answers (execPreemptionComplete s) := by
  unfold execPreemptionComplete
  repeat' split
  all_goals exact answers_next _

theorem execRestore_answers (c : Cmd) (addr : Word) (fid : Nat) (final : Bool) (r : RestoreChoice) (s : State) :
    Answers (execRestore c addr fid final r s) := by
  unfold execRestore
  repeat' split
  all_goals exact answers_next _

theorem execRetentionExit_answers (lost : Bool) (restored : List HartName) (s : State) :
    Answers (execRetentionExit lost restored s) := by
  unfold execRetentionExit
  repeat' split
  all_goals exact answers_next _

theorem execRemoteRequestServed_answers (r : RemoteReq) (s0 : State) : Answers (execRemoteRequestServed r s0) := by
  unfold execRemoteRequestServed
  dsimp only
  repeat' split
  all_goals exact answers_next _

theorem execMsendReceived_answers (m : TileMsg) (s0 : State) : Answers (execMsendReceived m s0) := by
  unfold execMsendReceived
  dsimp only
  repeat' split
  all_goals exact answers_next _

theorem execUalinkRequest_answers (src : Party) (addr : Nat) (k : AccessKind) (s0 : State) :
    Answers (execUalinkRequest src addr k s0) := by
  unfold execUalinkRequest
  dsimp only
  repeat' split
  all_goals exact answers_next _

theorem execRgetComplete_answers (ticket : Nat) (r : Reply) (s : State) : Answers (execRgetComplete ticket r s) := by
  unfold execRgetComplete
  dsimp only
  repeat' split
  all_goals exact answers_next _

theorem execRamoComplete_answers (r : Reply) (s : State) : Answers (execRamoComplete r s) := by
  unfold execRamoComplete
  repeat' split
  all_goals exact answers_next _

theorem execRldredComplete_answers (rs : List Reply) (s : State) : Answers (execRldredComplete rs s) := by
  unfold execRldredComplete
  dsimp only
  repeat' split
  · exact answers_next _
  · exact answers_finish _
  · exact answers_next _

theorem execMsendCompletes_answers (win ticket code : Nat) (s : State) : Answers (execMsendCompletes win ticket code s) := by
  unfold execMsendCompletes
  repeat' split
  all_goals exact answers_next _

theorem execPeerAbsent_answers (last : LastReached) (s : State) : Answers (execPeerAbsent last s) := by
  unfold execPeerAbsent
  repeat' split
  all_goals exact answers_next _

/-- Settles O9, by cases on the instruction: its meaning is a next state, is made of parts (`finish`), or branches between next
states. -/
theorem everyInstructionAnswersNextState : Obligations.EveryInstructionAnswersNextState := by
  intro i s
  change Answers (exec i s)
  cases i with
  | add | sub | and | or | xor | sll | srl | sra | slt | min | max | mul | mulh | div | rem | clz | popc | sel | addi | nop
  | andi | ori | xori | slti | slli | srli | srai | ext | ins | lui | auipc | beq | bne | blt | bge | bltN | bgeN | jal | jalr
  | kVersion | kYield | kRequestUnknown | hint | illegal | checkpointStream | mboxw | map | unmap | remap | pageans
  | quiesceStop | quiesceSeal | quiesceResume | quiesceDiscard | sync | replay | powerUp | portFail | flintBoundHeld
  | landedNotice | expiryNotice | memberWindowCloses | objectionReceived | commitNoticeReceived | endNoticeReceived
  | throttleAdjust | supplyDroop | attestationRequest => exact ⟨_, rfl⟩
  | ld | st | lda | stl | cas | amoAdd | amoAnd | amoOr | amoXor | amoMin | amoMax | amoMinN | amoMaxN | amoSwap | csrr | csrw
  | csrs | csrc | eret | mapsw | ckpt | vsetvl | vsetvli | vadd | vsub | vmul | vmulh | vand | vor | vxor | vsll | vsrl | vsra
  | vmin | vmax | vcmp | vsel | vred | vfadd | vfsub | vfmul | vfma | vfnma | vfdiv | vfsqrt | vfmin | vfmax | vfcmp | vfclass
  | vfred | vtbl | vcvt | vfcvt | vlnspack | vlnsunpack | vlnsmul | vlnsadd | vscale | vperm | vslideup | vslidedn | vcompress
  | vexpand | vbcast | vmv | vidx | pand | por | pxor | pnot | pcnt | pfirst | vld | vlds | vldx | vldff | vldsp | qld | vst
  | vsts | vstx | vstsp | vamoAdd | vamoMin | vamoMax | vamoAnd | vamoOr | vamoXor | vamoSwap | sbegin | scommit | sabort
  | fence | fencesvSv | fencesvVs | fenceq | spfence | mma | mmasp | mmats | mzero | mld | mst | mldsp | mstsp | mv2t | mt2v
  | mfree | mpref | mepi | msend | mattach | mdetach | mmov | mtrans | cpy | cpy2d | cpyg | cpyts | qfill | tblld | phnew
  | phdel | phreg | phdrop | phsig | phwait | phsw | gmem | post | texit | rput | rget | ramo | rldred | rwait | tkstat
  | claim | object | clwait | dln | dlnend | accessPerforms => exact answers_finish _
  | loop => exact enterLoop_answers s _ _ _
  | loopi => exact enterLoop_answers s _ _ _
  | ecall => exact execEcall_answers s
  | brk => exact execBrk_answers s
  | pfx => exact execPfx_answers _ s
  | dlnRisk => exact execDlnRisk_answers s
  | copyEntryPerforms => exact execCopyEntryPerforms_answers _ s
  | tileFillDone => exact execTileFillDone_answers _ s
  | tileSpillStart => exact execTileSpillStart_answers _ s
  | tileSpillDone => exact execTileSpillDone_answers _ s
  | slotReclaim => exact execSlotReclaim_answers _ s
  | transferReplay => exact execTransferReplay_answers s
  | preemptionRequest => exact execPreemptionRequest_answers s
  | preemptionComplete => exact execPreemptionComplete_answers s
  | bind => exact execBind_answers _ s
  | launch => exact execLaunch_answers _ _ _ s
  | mapCommandCompletes => exact execMapCommandCompletes_answers s
  | carve => exact execCarve_answers _ _ _ _ s
  | uncarve => exact execUncarve_answers _ _ s
  | pool => exact execPool_answers _ _ _ _ _ s
  | quiesceTokenSettle => exact execQuiesceTokenSettle_answers _ s
  | restore => exact execRestore_answers _ _ _ _ _ s
  | commandUnknown => exact execCommandUnknown_answers _ _ s
  | laneShed => exact execLaneShed_answers _ _ s
  | peerAbsent => exact execPeerAbsent_answers _ s
  | putReceived => exact execPutReceived_answers _ s
  | putRefused => exact execPutRefused_answers _ s
  | tokenAccepted => exact execTokenAccepted_answers _ s
  | tokenLanded => exact execTokenLanded_answers _ s
  | tokenExpires => exact execTokenExpires_answers _ s
  | remoteRequestServed => exact execRemoteRequestServed_answers _ s
  | rgetComplete => exact execRgetComplete_answers _ _ s
  | ramoComplete => exact execRamoComplete_answers _ s
  | rldredComplete => exact execRldredComplete_answers _ s
  | msendReceived => exact execMsendReceived_answers _ s
  | ualinkRequest => exact execUalinkRequest_answers _ _ _ s
  | proposalReceived => exact execProposalReceived_answers _ s
  | claimWaitEnds => exact execClaimWaitEnds_answers s
  | claimStorePerformed => exact execClaimStorePerformed_answers _ _ s
  | governorDecision => exact execGovernorDecision_answers _ s
  | operatingPointSettles => exact execOperatingPointSettles_answers s
  | retentionExit => exact execRetentionExit_answers _ _ s
  | migrate => exact execMigrate_answers _ _ s
  | promotion => exact execPromotion_answers _ _ _ _ s
  | queuedInstructionRetires => exact execQueuedInstructionRetires_answers _ _ s
  | putFailed => exact execPutFailed_answers _ _ s
  | msendCompletes => exact execMsendCompletes_answers _ _ _ s

end Sys2Proof.Machine
end

section
/-! PROOFS of the sample words (R52 to R77). -/

namespace Sys2Proof

/-- Settles O5: each word and its two refusals are evaluated. -/
theorem sampleWordsDecode : Obligations.SampleWordsDecode := by
  refine ⟨?_, rfl, rfl⟩
  simp only [List.forall_mem_cons, List.not_mem_nil, false_implies, implies_true, and_true]
  and_intros <;> rfl

end Sys2Proof
end

section
/-! PROOFS of `nop` and the hints (R79, R336). -/

namespace Sys2Proof.Machine

/-- A word of major 0x3E is a hint, whatever its other bits (R79). -/
theorem decodeWord_of_hint (w : IWord) (h : w.toNat / 2 ^ 26 = 0x3E) : decodeWord w = .ok (.hint (w.setWidth 26)) := by
  have hmajor : fld w.toNat 26 6 = 0x3E := congrArg (· % 2 ^ 6) h
  have hbits : BitVec.ofNat 26 w.toNat = w.setWidth 26 := rfl
  rw [decodeWord_eq_ok, decodeFields_hint hmajor, hbits]
  exact ⟨rfl, rfl⟩

/-- The word of `nop` accepts no bits of a `pfx` (R336). -/
theorem acceptsWord_nop (ah : Bool) (f : Nat) : acceptsWord ah 0x08000000 f = false := by
  have hword : decodeWord 0x08000000 = .ok .nop := rfl
  have haccepts : accepts .nop = none := rfl
  simp only [acceptsWord, hword, haccepts, Bool.false_and]

/-- Settles O17: both meanings are a fall-through, by `State.retire_eq`. -/
theorem nopAndHintWordsDoNothing : Obligations.NopAndHintWordsDoNothing := by
  refine ⟨fun s hfall => ⟨?_, fun b => ?_⟩, decodeWord_of_hint, rfl, acceptsWord_nop⟩
  · exact congrArg Host.Outcome.next (s.retire_eq hfall)
  · exact congrArg Host.Outcome.next (s.retire_eq hfall)

end Sys2Proof.Machine
end

section
/-! PROOFS of the writes of the state registers (R103, R104, R210, R211). A mask is a remainder; `STATUS` is read bit by bit. -/

namespace Sys2Proof.Machine

/-! ### Masks of a word -/

/-- A mask of the low bits keeps the remainder. -/
theorem and_lowMask (v : Word) (n : Nat) (hn : n ≤ 64) :
    v &&& BitVec.ofNat 64 (2 ^ n - 1) = BitVec.ofNat 64 (v.toNat % 2 ^ n) := by
  apply BitVec.eq_of_toNat_eq
  have hmask : 2 ^ n - 1 < 2 ^ 64 := (Nat.sub_one_lt (by positivity)).trans_le (Nat.pow_le_pow_right (by norm_num) hn)
  have hlow : v.toNat % 2 ^ n < 2 ^ 64 := (Nat.mod_le _ _).trans_lt v.isLt
  rw [BitVec.toNat_and, BitVec.toNat_ofNat, BitVec.toNat_ofNat, Nat.mod_eq_of_lt hmask, Nat.mod_eq_of_lt hlow,
    Nat.and_two_pow_sub_one_eq_mod]

theorem getLsbD_causeMask : ∀ k < 64, (0x80000000000000FF : Word).getLsbD k = decide (k < 8 ∨ k = 63) := by decide

/-- The fields of `CAUSE`: bit 63 and bits [7:0] (R211). -/
theorem and_causeMask (v : Word) :
    v &&& 0x80000000000000FF = BitVec.ofNat 64 (v.toNat / 2 ^ 63 * 2 ^ 63 + v.toNat % 2 ^ 8) := by
  apply BitVec.eq_of_getLsbD_eq
  intro k hk
  rw [BitVec.getLsbD_and, getLsbD_causeMask k hk, BitVec.getLsbD_ofNat, decide_eq_true hk, Nat.mul_comm,
    Nat.testBit_two_pow_mul_add _ (by omega), Nat.testBit_mod_two_pow, Nat.testBit_div_two_pow]
  by_cases htop : k = 63
  · subst htop
    simp [BitVec.testBit_toNat]
  · have hlow : k < 63 := by omega
    simp [htop, hlow, BitVec.testBit_toNat, Bool.and_comm]

/-! ### What one register takes -/

theorem Hart.writeVl_eq (h : Hart) (v : Word) :
    h.writeVl v = BitVec.ofNat 64 (v.toNat / 2 ^ 14 % 4 * 2 ^ 14
      + min (v.toNat % 2 ^ 14) (h.lanes * 2048 / (8 * 2 ^ (v.toNat / 2 ^ 14 % 4))) % 2 ^ 14) := by
  simp [Hart.writeVl, vlWord, bits, Hart.vlmax, codeBits]

theorem Hart.writeVstart_eq (h : Hart) (v : Word) :
    h.writeVstart v
      = if v.toNat % 2 ^ 14 < h.lanes * 2048 / (8 * 2 ^ h.vw) then BitVec.ofNat 64 (v.toNat % 2 ^ 14) else 0 := by
  simp only [Hart.writeVstart, Hart.vlmax, codeBits, bits, Nat.pow_zero, Nat.div_one]
  split
  · rw [if_neg (by omega)]
  · rw [if_pos (by omega)]

theorem writeRmode_eq (v old : Word) :
    (if bits v.toNat 2 0 ≤ 4 then BitVec.ofNat 64 (bits v.toNat 2 0) else old)
      = if v.toNat % 8 ≤ 4 then BitVec.ofNat 64 (v.toNat % 8) else old := by
  simp [bits]

/-- `TKEXP` is at least 1 (R238). -/
theorem writeTkexp_eq (v : Word) :
    (if bits v.toNat 31 0 = 0 then 1 else v &&& 0xFFFFFFFF) = BitVec.ofNat 64 (max (v.toNat % 2 ^ 32) 1) := by
  have hmask : v &&& 0xFFFFFFFF = BitVec.ofNat 64 (v.toNat % 2 ^ 32) := and_lowMask v 32 (by omega)
  have hbits : bits v.toNat 31 0 = v.toNat % 2 ^ 32 := by simp [bits]
  rw [hmask, hbits]
  by_cases hzero : v.toNat % 2 ^ 32 = 0
  · rw [if_pos hzero, hzero]
    rfl
  · rw [if_neg hzero, Nat.max_eq_left (by omega)]

/-! ### Which writes act -/

theorem csrWritable_both (l : Level) : ∀ a ∈ [0x013, 0x020, 0x021, 0x022, 0x030, 0x060, 0x061], csrWritable l a = true := by
  cases l <;> decide

theorem csrWritable_atK : ∀ a ∈ [0x000, 0x001, 0x012, 0x031, 0x032, 0x033, 0x034, 0x035, 0x036],
    csrWritable .k a = true ∧ csrWritable .t a = false := by
  decide

/-- The registers that no level writes (R103). -/
theorem csrWritable_never (l : Level) (a : Nat) (ha : a ∈ [0x010, 0x011, 0x040, 0x041, 0x042, 0x043, 0x044, 0x050, 0x051, 0x062]
    ∨ (0x070 ≤ a ∧ a ≤ 0x077) ∨ (0x100 ≤ a ∧ a ≤ 0x11F)) : csrWritable l a = false := by
  simp only [List.mem_cons, List.not_mem_nil, or_false] at ha
  cases l <;> simp only [csrWritable, Bool.or_eq_false_iff, Bool.and_eq_false_iff, beq_eq_false_iff_ne, decide_eq_false_iff_not] <;>
    omega

theorem Hart.writeCsr_of_not_writable (h : Hart) (a : Nat) (v w : Word) (hw : csrWritable h.level a = false) :
    h.writeCsr a v w = h := by
  rw [Hart.writeCsr, hw]
  rfl

/-! ### Settling -/

/-- The registers that both levels write. -/
theorem Hart.writeCsr_both (h : Hart) (v w : Word) :
    h.writeCsr 0x013 v w = { h with classmap := BitVec.ofNat 64 (v.toNat % 2 ^ 16) }
      ∧ h.writeCsr 0x020 v w = { h with seed := BitVec.ofNat 64 (v.toNat % 2 ^ 32) }
      ∧ h.writeCsr 0x021 v w = { h with stripbase := v }
      ∧ h.writeCsr 0x022 v w
        = { h with rmode := if v.toNat % 8 ≤ 4 then BitVec.ofNat 64 (v.toNat % 8) else h.rmode }
      ∧ h.writeCsr 0x060 v w = { h with tkexp := BitVec.ofNat 64 (max (v.toNat % 2 ^ 32) 1) }
      ∧ h.writeCsr 0x061 v w = { h with clwin := BitVec.ofNat 64 (max (v.toNat % 2 ^ 16) 1024) } := by
  have hact := csrWritable_both h.level
  and_intros
  · rw [Hart.writeCsr, hact 0x013 (by decide)]
    exact congrArg (fun x => { h with classmap := x }) (and_lowMask v 16 (by omega))
  · rw [Hart.writeCsr, hact 0x020 (by decide)]
    exact congrArg (fun x => { h with seed := x }) (and_lowMask v 32 (by omega))
  · rw [Hart.writeCsr, hact 0x021 (by decide)]
    rfl
  · rw [Hart.writeCsr, hact 0x022 (by decide)]
    exact congrArg (fun x => { h with rmode := x }) (writeRmode_eq v h.rmode)
  · rw [Hart.writeCsr, hact 0x060 (by decide)]
    exact congrArg (fun x => { h with tkexp := x }) (writeTkexp_eq v)
  · have hclwin : BitVec.ofNat 64 (max (bits v.toNat 15 0) 1024) = BitVec.ofNat 64 (max (v.toNat % 2 ^ 16) 1024) := by
      simp [bits]
    rw [Hart.writeCsr, hact 0x061 (by decide)]
    exact congrArg (fun x => { h with clwin := x }) hclwin

/-- The registers that level K alone writes. -/
theorem Hart.writeCsr_atK (h : Hart) (v w : Word) (hk : h.level = .k) :
    let n := v.toNat
    h.writeCsr 0x000 v w = { h with vl := BitVec.ofNat 64 (n / 2 ^ 14 % 4 * 2 ^ 14
        + min (n % 2 ^ 14) (h.lanes * 2048 / (8 * 2 ^ (n / 2 ^ 14 % 4))) % 2 ^ 14) }
      ∧ h.writeCsr 0x001 v w = { h with
        vstart := if n % 2 ^ 14 < h.lanes * 2048 / (8 * 2 ^ h.vw) then BitVec.ofNat 64 (n % 2 ^ 14) else 0 }
      ∧ h.writeCsr 0x012 v w = { h with ur := h.ur && !w.getLsbD 0 }
      ∧ h.writeCsr 0x031 v w = { h with pfxstate := BitVec.ofNat 64 (n % 2 ^ 26) }
      ∧ h.writeCsr 0x032 v w = { h with cause := BitVec.ofNat 64 (n / 2 ^ 63 * 2 ^ 63 + n % 2 ^ 8) }
      ∧ h.writeCsr 0x033 v w = { h with epc := BitVec.ofNat 64 (n / 4 * 4) }
      ∧ h.writeCsr 0x034 v w = { h with tval := v }
      ∧ h.writeCsr 0x035 v w = { h with tvec := BitVec.ofNat 64 (n / 4 * 4) }
      ∧ h.writeCsr 0x036 v w = { h with stripfault := v } := by
  have hact : ∀ a ∈ [0x000, 0x001, 0x012, 0x031, 0x032, 0x033, 0x034, 0x035, 0x036], csrWritable h.level a = true :=
    fun a ha => hk ▸ (csrWritable_atK a ha).1
  and_intros
  · rw [Hart.writeCsr, hact 0x000 (by decide)]
    exact congrArg (fun x => { h with vl := x }) (h.writeVl_eq v)
  · rw [Hart.writeCsr, hact 0x001 (by decide)]
    exact congrArg (fun x => { h with vstart := x }) (h.writeVstart_eq v)
  · rw [Hart.writeCsr, hact 0x012 (by decide)]
    rfl
  · rw [Hart.writeCsr, hact 0x031 (by decide)]
    exact congrArg (fun x => { h with pfxstate := x }) (and_lowMask v 26 (by omega))
  · rw [Hart.writeCsr, hact 0x032 (by decide)]
    exact congrArg (fun x => { h with cause := x }) (and_causeMask v)
  · rw [Hart.writeCsr, hact 0x033 (by decide)]
    exact congrArg (fun x => { h with epc := x }) (and_not_three v)
  · rw [Hart.writeCsr, hact 0x034 (by decide)]
    rfl
  · rw [Hart.writeCsr, hact 0x035 (by decide)]
    exact congrArg (fun x => { h with tvec := x }) (and_not_three v)
  · rw [Hart.writeCsr, hact 0x036 (by decide)]
    rfl

theorem stateRegisterWritesByRegister : Sys2Proof.Says.StateRegisterWritesByRegister := by
  intro h v w n word
  refine ⟨h.writeCsr_both v w, h.writeCsr_atK v w, fun ht a ha => ?_, fun a ha => ?_⟩
  · exact h.writeCsr_of_not_writable a v w (ht ▸ (csrWritable_atK a ha).2)
  · exact h.writeCsr_of_not_writable a v w (csrWritable_never h.level a ha)

/-! ### `STATUS` -/

/-- A write of `STATUS` replaces bit `k` at the level. -/
abbrev statusTakes (l : Level) (k : Nat) : Prop := k < 5 ∨ k = 9 ∨ l = .k ∧ (k = 15 ∨ k = 12 ∨ k = 11 ∨ k = 10)

theorem getLsbD_statusMask (l : Level) : ∀ k < 64, (statusMask l).getLsbD k = decide (statusTakes l k) := by
  cases l <;> decide

/-- The bits of a word where those of a mask are replaced. -/
theorem getLsbD_masked (a v m : Word) (k : Nat) (hk : k < 64) :
    ((a &&& ~~~m) ||| (v &&& m)).getLsbD k = if m.getLsbD k then v.getLsbD k else a.getLsbD k := by
  rw [BitVec.getLsbD_or, BitVec.getLsbD_and, BitVec.getLsbD_and, BitVec.getLsbD_not, decide_eq_true hk]
  cases m.getLsbD k <;> simp

/-- The bits of `STATUS` after a write: the mask's from the value, SFV cleared by a written 1 at level K, the rest kept. -/
theorem Hart.getLsbD_writeStatus (h : Hart) (v w : Word) (k : Nat) (hk : k < 64) :
    (h.writeStatus v w).getLsbD k =
      if (h.level = .k ∧ w.getLsbD 14) ∧ k = 14 then false
      else if statusTakes h.level k then v.getLsbD k
      else h.status.getLsbD k := by
  have hmasked := getLsbD_masked h.status v (statusMask h.level) k hk
  simp only [getLsbD_statusMask h.level k hk, decide_eq_true_eq] at hmasked
  simp only [Hart.writeStatus, Bool.and_eq_true, beq_iff_eq]
  by_cases hclear : h.level = .k ∧ w.getLsbD 14 = true
  · have hfield : (14 ≤ k ∧ k < 14 + 1) ↔ k = 14 := by omega
    rw [if_pos hclear, getLsbD_setBits _ _ _ _ _ hk, hmasked]
    simp only [hfield, hclear, true_and, Nat.zero_testBit]
  · have hkept : ¬((h.level = .k ∧ w.getLsbD 14 = true) ∧ k = 14) := fun hc => hclear hc.1
    rw [if_neg hclear, if_neg hkept, hmasked]

theorem statusWritesByLevel : Sys2Proof.Says.StatusWritesByLevel := by
  intro h v w k
  have hwrite : h.writeCsr 0x030 v w = { h with status := h.writeStatus v w } := by
    rw [Hart.writeCsr, csrWritable_both h.level 0x030 (by decide)]
    rfl
  rw [hwrite]
  refine ⟨rfl, (h.getLsbD_writeStatus v w k k.isLt).trans ?_⟩
  obtain ⟨k, hk⟩ := k
  simp only [Fin.ext_iff, statusTakes, Fin.coe_ofNat_eq_mod, Nat.reduceMod]
  by_cases hlow : k < 5 ∨ k = 9
  · have hne : k ≠ 14 := by omega
    rw [if_neg fun hc => hne hc.2, if_pos hlow, if_pos (by tauto)]
  · by_cases hfield : h.level = .k ∧ (k = 15 ∨ k = 12 ∨ k = 11 ∨ k = 10)
    · have hne : k ≠ 14 := by omega
      rw [if_neg fun hc => hne hc.2, if_neg hlow, if_pos hfield, if_pos (by tauto)]
    · rw [if_neg hlow, if_neg hfield, if_neg (c := _ ∨ _) (by tauto)]
      by_cases hsfv : h.level = .k ∧ k = 14
      · obtain ⟨hlevel, rfl⟩ := hsfv
        cases w.getLsbD 14 <;> simp [hlevel]
      · rw [if_neg hsfv, if_neg (by tauto)]

/-- Settles O31, register by register (`Hart.writeCsr_both`, `Hart.writeCsr_atK`) and bit by bit of `STATUS`
(`Hart.getLsbD_writeStatus`). -/
theorem stateRegisterWrites : Obligations.StateRegisterWrites := ⟨stateRegisterWritesByRegister, statusWritesByLevel⟩

end Sys2Proof.Machine
end

section
/-! PROOFS of the entry to level K (R64, R207, R214, R221). `entered_raiseWith` says it once for every exception taken. -/

namespace Sys2Proof.Machine

/-! ### `STATUS` -/

theorem Hart.getLsbD_setSt_status (h : Hart) (p : Nat) (b : Bool) (k : Nat) (hk : k < 64) :
    (h.setSt p b).status.getLsbD k = if k = p then b else h.status.getLsbD k := by
  have hfield : (p ≤ k ∧ k < p + 1) ↔ k = p := by omega
  simp only [Hart.setSt, getLsbD_setBits _ _ _ _ _ hk, hfield]
  split
  · subst k
    rw [Nat.sub_self]
    cases b <;> rfl
  · rfl

/-- What discarding a strip writes of `STATUS`: SACT 0 and SFV 1 (R221). -/
theorem Hart.discardStrip_status (h : Hart) : h.discardStrip.status = (h.status &&& ~~~0x2000) ||| 0x4000 := by
  have hsact : ∀ k < 64, (0x2000 : Word).getLsbD k = decide (k = 13) := by decide
  have hsfv : ∀ k < 64, (0x4000 : Word).getLsbD k = decide (k = 14) := by decide
  apply BitVec.eq_of_getLsbD_eq
  intro k hk
  change ((h.setSt 13 false).setSt 14 true).status.getLsbD k = _
  rw [getLsbD_setSt_status _ _ _ _ hk, getLsbD_setSt_status _ _ _ _ hk, BitVec.getLsbD_or, BitVec.getLsbD_and, BitVec.getLsbD_not,
    hsact k hk, hsfv k hk]
  by_cases h13 : k = 13
  · simp [h13]
  · by_cases h14 : k = 14 <;> simp [h13, h14, hk]

theorem State.onHart_discardStrip (s : State) : s.onHart Hart.discardStrip = stripDiscarded s := by
  have hhart : s.hart.discardStrip = { s.hart with
      strip := [], stripfault := s.hart.stripbase, status := (s.hart.status &&& ~~~0x2000) ||| 0x4000 } := by
    rw [← Hart.discardStrip_status]
    rfl
  rw [State.onHart, hhart]
  rfl

/-! ### Entry to level K (R207) -/

/-- The bits of `STATUS` at level K. -/
theorem Hart.getLsbD_enterK_status (h : Hart) (cause tval : Word) (pfx : BitVec 26) (pfxv : Bool) (k : Nat) (hk : k < 64) :
    (h.enterK cause tval pfx pfxv).status.getLsbD k =
      if k = 15 then pfxv
      else if k = 12 then h.level == .k
      else if k = 11 then h.status.getLsbD 10
      else if k = 10 then false
      else h.status.getLsbD k := by
  change ((((h.setSt 15 pfxv).setSt 12 (h.level == .k)).setSt 11 (h.st 10)).setSt 10 false).status.getLsbD k = _
  simp only [getLsbD_setSt_status _ _ _ _ hk, Hart.st]
  by_cases h10 : k = 10
  · simp [h10]
  · by_cases h11 : k = 11
    · simp [h11]
    · by_cases h12 : k = 12
      · simp [h12]
      · simp [h10, h11, h12]

theorem entered_enterK (s : State) (cause tval : Word) (pfx : BitVec 26) (pfxv : Bool) :
    entered s (s.onHart fun h => h.enterK cause tval pfx pfxv) cause tval pfx pfxv := by
  refine ⟨?_, fun k => ?_⟩
  · simp only [State.onHart, Hart.enterK, Hart.setSt, and_not_three]
  · simpa [Fin.ext_iff] using s.hart.getLsbD_enterK_status cause tval pfx pfxv k k.isLt

/-- An exception taken enters level K, an open strip discarded first. -/
theorem entered_raiseWith (s : State) (cause : Nat) (tval : Word) (pfx : BitVec 26) (pfxv : Bool) (htvec : s.hart.tvec ≠ 0) :
    entered (if s.hart.inStrip then stripDiscarded s else s) (s.raiseWith cause tval pfx pfxv) (BitVec.ofNat 64 cause) tval
      pfx pfxv := by
  rw [State.raiseWith, if_neg htvec]
  by_cases hstrip : s.hart.inStrip = true
  · have hopen : (s.onHart fun h => (if h.inStrip then h.discardStrip else h).enterK (BitVec.ofNat 64 cause) tval pfx pfxv)
        = (s.onHart Hart.discardStrip).onHart fun h => h.enterK (BitVec.ofNat 64 cause) tval pfx pfxv := by
      simp only [State.onHart, hstrip, if_true]
    rw [hopen, if_pos hstrip, s.onHart_discardStrip]
    exact entered_enterK _ _ _ _ _
  · have hnone : (s.onHart fun h => (if h.inStrip then h.discardStrip else h).enterK (BitVec.ofNat 64 cause) tval pfx pfxv)
        = s.onHart fun h => h.enterK (BitVec.ofNat 64 cause) tval pfx pfxv := by
      simp only [State.onHart, if_neg hstrip]
    rw [hnone, if_neg hstrip]
    exact entered_enterK _ _ _ _ _

theorem State.raiseWith_of_no_tvec (s : State) (cause : Nat) (tval : Word) (pfx : BitVec 26) (pfxv : Bool)
    (htvec : s.hart.tvec = 0) : s.raiseWith cause tval pfx pfxv = s.terminate cause tval 0 0 := if_pos htvec

theorem Hart.lentSave_eq (h : Hart) : h.lentSave = (h.lent.getD 0, h.lent.isSome) := by
  unfold Hart.lentSave
  cases h.lent <;> rfl

/-- Settles O14, by `entered_raiseWith` with the lent bits of the hart. -/
theorem exceptionEntersLevelK : Obligations.ExceptionEntersLevelK := by
  intro s cause tval
  rw [State.raise, Hart.lentSave_eq]
  exact ⟨s.raiseWith_of_no_tvec cause tval _ _, entered_raiseWith s cause tval _ _⟩

end Sys2Proof.Machine
end

section
/-! PROOFS of prefixes and of words that trap (R61, R62, R78, R192). -/

namespace Sys2Proof.Machine

/-! ### Prefixes (R61, R62) -/

theorem prefixLendsItsFields : Sys2Proof.Says.PrefixLendsItsFields := by
  intro f s w hmay hpeek fine
  have hfine : (acceptsWord s.hart.name.ah w f.toNat && !s.hart.loops.any fun l => l.e == s.hart.pc) = true ↔ fine := by
    simp [fine]
  have hexec : exec (.pfx f) s
      = if acceptsWord s.hart.name.ah w f.toNat && !s.hart.loops.any fun l => l.e == s.hart.pc then
          .next (s.onHart fun h => { h with pc := s.hart.pc + 4, lent := some f })
        else .next (s.raiseWith 0x01 (w.setWidth 64) f false) := by
    change execPfx f s = _
    simp only [execPfx, hmay, hpeek, Bool.not_true, Bool.false_eq_true, if_false]
  refine ⟨fun h => ?_, fun h htvec hout => ⟨_, hexec.trans (if_neg fun hc => h (hfine.1 hc)), ?_⟩⟩
  · rw [hexec, if_pos (hfine.2 h)]
    rfl
  · have hentered := entered_raiseWith s 0x01 (w.setWidth 64) f false htvec
    rwa [if_neg (by simp [hout])] at hentered

/-! ### Words of the families access harts lack (R78, R192) -/

theorem State.computeOnly_ah (s : State) (i : Instr) (hah : s.hart.name.ah = true) : s.computeOnly i = .error (s.illegal i) :=
  stopIf_true _ _ hah

theorem State.lnsChecks_ah (s : State) (i : Instr) (hah : s.hart.name.ah = true) : s.lnsChecks i = .error (s.illegal i) := by
  rw [State.lnsChecks, s.computeOnly_ah i hah]
  rfl

theorem State.remoteChecks_ah (s : State) (i : Instr) (hah : s.hart.name.ah = true) : s.remoteChecks i = .error (s.illegal i) := by
  rw [State.remoteChecks, s.computeOnly_ah i hah]
  rfl

/-- A meaning whose first check refuses the instruction traps `ILLEGAL`. -/
theorem exec_of_first_check {i : Instr} {s : State} {check : Part Unit} (hcheck : check = .error (s.illegal i))
    (f : Unit → Part State) (hexec : exec i s = finish (check >>= f)) : exec i s = .next (s.raise 0x01 (i.word.setWidth 64)) := by
  rw [hexec, hcheck]
  rfl

theorem accessHartsTrapComputeWords : Sys2Proof.Says.AccessHartsTrapComputeWords := by
  intro s hah
  have compute := fun i => exec_of_first_check (s.computeOnly_ah i hah)
  have lns := fun i => exec_of_first_check (s.lnsChecks_ah i hah)
  have remote := fun i => exec_of_first_check (s.remoteChecks_ah i hah)
  simp only [List.forall_mem_cons, List.not_mem_nil, false_implies, implies_true, and_true]
  exact ⟨compute _ _ rfl, compute _ _ rfl, compute _ _ rfl, compute _ _ rfl, lns _ _ rfl, compute _ _ rfl, compute _ _ rfl,
    compute _ _ rfl, compute _ _ rfl, compute _ _ rfl, compute _ _ rfl, compute _ _ rfl, compute _ _ rfl, compute _ _ rfl,
    compute _ _ rfl, remote _ _ rfl, compute _ _ rfl, compute _ _ rfl, compute _ _ rfl, compute _ _ rfl⟩

/-- Settles O34: `pfx` by the word after it, a word that is no instruction by its meaning, and one instruction of each family
that an access hart lacks by `exec_of_first_check`. -/
theorem prefixesAndIllegalWords : Obligations.PrefixesAndIllegalWords :=
  ⟨prefixLendsItsFields, fun _ _ => rfl, accessHartsTrapComputeWords⟩

end Sys2Proof.Machine
end

section
/-! PROOFS of the return from level K (R64, R208, R318). `State.returned` is the state `eret` leaves;
`exec_eret_atK` is its one equation. -/

namespace Sys2Proof.Machine

/-! ### What `eret` makes of a hart (R208, R318) -/

/-- The level `eret` returns to: PPL. -/
def Hart.eretLevel (h : Hart) : Level := if h.st 12 then .k else .t

/-- The loop stack of level T at `EPC`, and the body start an end check there continues at. -/
def Hart.eretCheck (h : Hart) : List Loop × Option Word :=
  let st := unwindEret h.epc h.loopT
  match st with
  | l :: _ => if h.epc = l.e + 4 then loopEnd l.e st else (st, none)
  | [] => ([], none)

/-- Where `eret` continues. -/
def Hart.eretPc (h : Hart) : Word := if h.eretLevel = .k then h.epc else h.eretCheck.2.getD h.epc

/-- The loop stack `eret` continues with. -/
def Hart.eretLoops (h : Hart) : List Loop := if h.eretLevel = .k then h.loopK else h.eretCheck.1

theorem Hart.leaveK_eq (h : Hart) :
    h.leaveK = ({ h.setSt 10 (h.st 11) with level := h.eretLevel }, h.eretPc, h.eretLoops) := by
  unfold Hart.leaveK Hart.eretPc Hart.eretLoops
  change (if h.eretLevel = .k then _ else _) = _
  by_cases hk : h.eretLevel = .k
  · simp only [if_pos hk]
    rfl
  · simp only [if_neg hk, Hart.eretCheck]
    cases unwindEret h.epc h.loopT with
    | nil => rfl
    | cons l r =>
      dsimp only
      split <;> rfl

/-- The state after `eret` with no bits to lend. -/
def State.returned (s : State) : State :=
  { s with
    hart := { s.hart with
      level := s.hart.eretLevel, pc := s.hart.eretPc, lent := none
      status := ((s.hart.setSt 10 (s.hart.st 11)).setSt 15 false).status
      loopT := if s.hart.eretLevel = .k then s.hart.loopT else s.hart.eretCheck.1 } }

theorem State.getLsbD_returned_status (s : State) (k : Nat) (hk : k < 64) :
    s.returned.hart.status.getLsbD k
      = if k = 10 then s.hart.st 11 else if k = 15 then false else s.hart.status.getLsbD k := by
  change ((s.hart.setSt 10 (s.hart.st 11)).setSt 15 false).status.getLsbD k = _
  rw [Hart.getLsbD_setSt_status _ _ _ _ hk, Hart.getLsbD_setSt_status _ _ _ _ hk]
  by_cases h15 : k = 15
  · simp [h15]
  · rw [if_neg h15, if_neg h15]

/-- `eret` after it has left level K goes on at `eretPc`. -/
theorem State.continueAt_returned (s : State) (hmay : s.hart.task.mayFetch s.hart.eretPc.toNat = true) :
    ((s.onHart fun _ => s.hart.leaveK.1).onHart fun h => h.setSt 15 false).continueAt s.hart.eretPc s.hart.eretLoops
      = s.returned := by
  rw [Hart.leaveK_eq, State.continueAt_eq]
  · unfold State.goes State.returned State.onHart Hart.eretLoops
    cases s.hart.eretLevel <;> rfl
  · exact hmay

/-! ### Going on after `eret` (R64) -/

theorem State.resumeAt_of_pfxv_clear (s : State) (t : Word) (st : List Loop) (hpfxv : s.hart.st 15 = false) :
    s.resumeAt t st = (s.onHart fun h => h.setSt 15 false).continueAt t st := by
  simp only [State.resumeAt, hpfxv, Bool.false_and, Bool.false_eq_true, if_false]

theorem State.resumeAt_of_pfxv_set (s u : State) (t : Word) (st : List Loop) (w : IWord) (hpfxv : s.hart.st 15 = true)
    (hmay : s.hart.task.mayFetch t.toNat = true) (hu : (s.onHart fun h => h.setSt 15 false).continueAt t st = u)
    (hpeek : u.peek t = some w) :
    s.resumeAt t st
      = if acceptsWord s.hart.name.ah w (s.hart.pfxstate.setWidth 26 : BitVec 26).toNat then
          u.onHart fun h => { h with lent := some (s.hart.pfxstate.setWidth 26) }
        else u.raiseWith 0x01 (w.setWidth 64) (s.hart.pfxstate.setWidth 26) false := by
  simp only [State.resumeAt, hpfxv, hmay, hu, hpeek, Bool.and_self, if_true]

/-- `eret` at level K: with PFXV 0 it has returned, with PFXV 1 the word there runs with the bits of `PFXSTATE` or traps. -/
theorem exec_eret_atK (s : State) (hk : s.hart.level = .k) (hmay : s.hart.task.mayFetch s.hart.eretPc.toNat = true) :
    (s.hart.st 15 = false → exec .eret s = .next s.returned)
      ∧ (s.hart.st 15 = true → ∀ w, s.peek s.hart.eretPc = some w →
        exec .eret s = .next
          (if acceptsWord s.hart.name.ah w (s.hart.pfxstate.setWidth 26 : BitVec 26).toNat then
            s.returned.onHart fun h => { h with lent := some (s.hart.pfxstate.setWidth 26) }
          else s.returned.raiseWith 0x01 (w.setWidth 64) (s.hart.pfxstate.setWidth 26) false)) := by
  have hlevel : s.levelK .eret = .ok () := stopIf_false _ _ (by simp [hk])
  have hexec : exec .eret s = .next ((s.onHart fun _ => s.hart.leaveK.1).resumeAt s.hart.eretPc s.hart.eretLoops) := by
    change finish (s.levelK .eret >>= _) = _
    rw [hlevel, Hart.leaveK_eq]
    rfl
  have hst : (s.onHart fun _ => s.hart.leaveK.1).hart.st 15 = s.hart.st 15 := by
    rw [Hart.leaveK_eq]
    exact Hart.getLsbD_setSt_status _ _ _ _ (by omega)
  have hon := s.continueAt_returned hmay
  refine ⟨fun hpfxv => ?_, fun hpfxv w hpeek => ?_⟩
  · rw [hexec, State.resumeAt_of_pfxv_clear _ _ _ (hst.trans hpfxv), hon]
  · rw [hexec, State.resumeAt_of_pfxv_set _ _ _ _ w (hst.trans hpfxv) _ hon hpeek]
    · rw [Hart.leaveK_eq]
      rfl
    · rw [Hart.leaveK_eq]
      exact hmay

theorem exec_eret_atT (s : State) (ht : s.hart.level = .t) : exec .eret s = .next (s.raise 0x01 0x78000001) := by
  have hlevel : s.levelK .eret = .error (s.illegal .eret) := stopIf_true _ _ (by simp [ht])
  change finish (s.levelK .eret >>= _) = _
  rw [hlevel]
  rfl

/-- Settles O16: `State.returned` is the state after `eret` (`exec_eret_atK`), and a word that rejects the lent bits traps there. -/
theorem exceptionReturnRestores : Obligations.ExceptionReturnRestores := by
  intro s
  refine ⟨exec_eret_atT s, fun hk => ?_⟩
  intro lvl st r pc hmay
  obtain ⟨hret, hpfx⟩ := exec_eret_atK s hk hmay
  refine ⟨s.returned, rfl, fun k => ?_, hret, fun hpfxv w hpeek => ?_⟩
  · simpa [Fin.ext_iff] using s.getLsbD_returned_status k k.isLt
  · intro b
    have hexec := hpfx hpfxv w hpeek
    refine ⟨fun haccept => ?_, fun hreject => ?_⟩
    · rw [hexec, if_pos haccept]
      rfl
    · rw [if_neg (Bool.eq_false_iff.1 hreject)] at hexec
      refine ⟨fun htvec => ?_, fun htvec => ⟨_, hexec, ?_⟩⟩
      · exact hexec.trans (congrArg Host.Outcome.next (s.returned.raiseWith_of_no_tvec _ _ _ _ htvec))
      · exact entered_raiseWith s.returned 0x01 (w.setWidth 64) b false htvec

end Sys2Proof.Machine
end

section
/-! PROOFS of the step of a hart with nothing left for later (R52, R78, R171, R291). -/

namespace Sys2Proof.Machine

/-! ### The fetch and the issue of a turn with nothing left for later (R52, R86, R291) -/

/-- A fetch that the lease admits and that translates gives the word and counts its access. -/
theorem State.fetch_ok (s : State) (hmay : s.hart.task.mayFetch s.hart.pc.toNat = true)
    (htr : s.translates s.hart.pc.toNat 4) :
    s.fetch = .ok (BitVec.ofNat 32 (leVal (s.reads s.hart.pc.toNat 4)), s.counted s.hart.pc.toNat 4) := by
  simp [State.fetch, hmay, s.readAt_ok _ _ htr, State.orXlate, Except.map, State.counted, State.count]

theorem State.nothingLeft_of_prompt (s : State) (h : s.prompt) : s.nothingLeft = true := by
  obtain ⟨-, hqueue, hlate⟩ := h
  simp [State.nothingLeft, hqueue, hlate]

/-- A whole turn with nothing left for later runs its instruction. -/
theorem issue_of_prompt (i : Instr) (s : State) (h : s.prompt) : issue i s = exec i s := by
  have hwhole : s.how = .whole := h.1
  have hissue : s.issueOf i = .run := by simp [State.issueOf, hwhole, s.nothingLeft_of_prompt h]
  simp only [issue, hissue]

/-- A turn of a hart that attends to its instructions, with nothing left for later, runs the instruction of the word at its pc. -/
theorem step_of_prompt (s : State) (hagenda : s.agenda = []) (hprompt : s.prompt) (hattend : s.attend = .instruction)
    (htr : s.translates s.hart.pc.toNat 4) (hmay : s.hart.task.mayFetch s.hart.pc.toNat = true) :
    step s = unlessBusy s s
      (exec (instrOf (BitVec.ofNat 32 (leVal (s.reads s.hart.pc.toNat 4)))) (s.counted s.hart.pc.toNat 4)) := by
  have hcounted : (s.counted s.hart.pc.toNat 4).prompt := hprompt
  simp only [step, hagenda, hartStep, hattend, s.fetch_ok hmay htr, issue_of_prompt _ _ hcounted]

theorem instrOf_of_ok (w : IWord) (i : Instr) (h : decodeWord w = .ok i) : instrOf w = i := by simp only [instrOf, h]
theorem instrOf_of_error (w : IWord) (e : DecodeError) (h : decodeWord w = .error e) : instrOf w = .illegal w := by
  simp only [instrOf, h]

/-! ### Busy pages (R171) -/

theorem unlessBusy_next (s waiting t : State) :
    unlessBusy s waiting (.next t) = .next (if s.metBusy t then waiting else t) := by
  simp only [unlessBusy]
  split <;> rfl

theorem State.metBusy_iff (s t : State) : s.metBusy t = true ↔
    ∃ l ∈ s.leaves, l.busy = true ∧ ∃ k ∈ t.leaves, k.asid = l.asid ∧ k.va = l.va ∧ l.accesses < k.accesses := by
  simp [State.metBusy, and_assoc]

/-- Settles O1: the step is one equation (`step_of_prompt`), read for a word that decodes and for one that does not. -/
theorem stepRunsDecodedInstruction : Obligations.StepRunsDecodedInstruction := by
  intro s hagenda hprompt hattend htr hmay w u
  have hstep := step_of_prompt s hagenda hprompt hattend htr hmay
  refine ⟨fun i hi => ⟨(decodeWord_eq_ok.1 hi).2, ?_⟩, fun e he => ?_, unlessBusy_next s s, s.metBusy_iff⟩
  · rw [hstep, instrOf_of_ok _ _ hi]
  · rw [hstep, instrOf_of_error _ _ he]

end Sys2Proof.Machine
end

section
/-! PROOFS of remote answers and absent peers (R230, R232, R239 to R244). An answer changes little of the state: each meaning
is written as one equation, and the puts of a peer that is lost are followed slot by slot. -/

namespace Sys2Proof.Machine

/-! ### Answers to `rget` (R240) -/

/-- An `rget` is no longer outstanding, and its peer is heard of. -/
def State.getAnswered (s : State) (g : GetRec) : State :=
  { s.hear g.peer with gets := s.gets.filter fun x => x.ticket != g.ticket }

section
variable (s : State) (tk : Nat) (g : GetRec) (hfind : s.gets.find? (fun g => g.ticket == tk) = some g)
include hfind

theorem ticket_of_find : g.ticket = tk := by simpa using List.find?_some hfind

/-- An answer that comes after the operation has failed changes nothing but what is outstanding and who is heard of. -/
theorem exec_rgetComplete_failed (r : Reply) (hfailed : g.failed = true) :
    exec (.rgetComplete tk r) s = .next (s.getAnswered g) := by
  change execRgetComplete tk r s = _
  simp only [execRgetComplete, hfind, hfailed, if_true, State.getAnswered, ticket_of_find s tk g hfind]

theorem exec_rgetComplete_error (code : Nat) (hfailed : g.failed = false) :
    exec (.rgetComplete tk (.error code)) s = .next ((s.getAnswered g).closeOp g.launch g.win tk code) := by
  change execRgetComplete tk (.error code) s = _
  simp only [execRgetComplete, hfind, hfailed, Bool.false_eq_true, if_false, State.getAnswered, ticket_of_find s tk g hfind]

theorem exec_rgetComplete_bytes (bs : List Byte) (u : State) (hfailed : g.failed = false) (hlen : bs.length = g.len)
    (hu : (s.getAnswered g).writeAt g.asid g.dst.toNat bs = .ok u) :
    exec (.rgetComplete tk (.bytes bs)) s = .next (u.closeOp g.launch g.win tk 0) := by
  rw [State.getAnswered, ticket_of_find s tk g hfind] at hu
  change execRgetComplete tk (.bytes bs) s = _
  simp only [execRgetComplete, hfind, hfailed, Bool.false_eq_true, if_false, hlen, ne_eq, not_true_eq_false, hu]

end

/-! ### Who is heard of (R230) -/

/-- Where fewer peers are absent, an address that translates still does. -/
theorem State.translate_of_fewer_absent (s : State) (ab : List Nat) (hsub : ab ⊆ s.absent) (asid va k : Nat)
    (h : s.translate asid va = some k) : ({ s with absent := ab } : State).translate asid va = some k := by
  have habsent : ∀ f, ({ s with absent := ab } : State).isAbsent f = true → s.isAbsent f = true := by
    intro f
    simp only [State.isAbsent, Bool.or_eq_true, List.contains_iff_mem]
    exact Or.imp_right fun hf => hsub hf
  have hleaf : ({ s with absent := ab } : State).leafAt asid va = s.leafAt asid va := rfl
  unfold State.translate at h ⊢
  rw [hleaf]
  cases hl : s.leafAt asid va with
  | none => simp [hl] at h
  | some l =>
    simp only [hl, Bool.and_eq_true] at h ⊢
    split at h
    · cases h
    · next hreached => rw [if_neg fun hc => hreached ⟨hc.1, habsent _ hc.2⟩, ← h]; rfl

/-- Where each step that succeeds under `f` succeeds under `g` with the same value, so does the whole. -/
theorem mapM_ok_of_forall {α β ε : Type} (f g : α → Except ε β) (xs : List α)
    (hfg : ∀ x y, f x = .ok y → g x = .ok y) (ys : List β) (h : xs.mapM f = .ok ys) : xs.mapM g = .ok ys := by
  induction xs generalizing ys with
  | nil => exact h
  | cons x xs ih =>
    rw [List.mapM_cons] at h ⊢
    cases hx : f x with
    | error e => rw [hx] at h; cases h
    | ok y =>
      cases hxs : xs.mapM f with
      | error e => rw [hx, hxs] at h; cases h
      | ok zs =>
        rw [hx, hxs] at h
        rw [hfg x y hx, ih zs hxs]
        exact h

theorem State.runs_of_fewer_absent (s : State) (ab : List Nat) (hsub : ab ⊆ s.absent) (asid va n : Nat) (ks : List (Nat × Nat))
    (h : s.runs asid va n = .ok ks) : ({ s with absent := ab } : State).runs asid va n = .ok ks := by
  refine mapM_ok_of_forall _ _ _ (fun p y hp => ?_) ks h
  cases htr : s.translate asid (pieceLo va p) with
  | none => rw [htr] at hp; cases hp
  | some k =>
    rw [htr] at hp
    rw [s.translate_of_fewer_absent ab hsub _ _ k htr]
    exact hp

/-- An answer changes nothing but who is absent, and makes no peer absent. -/
theorem State.hearReply_frame (s : State) (peer : Nat) (r : Reply) :
    ∃ ab ⊆ s.absent, s.hearReply peer r = { s with absent := ab } := by
  unfold State.hearReply
  split
  · exact ⟨_, List.Subset.refl _, rfl⟩
  · exact ⟨_, List.filter_subset_self _, rfl⟩

theorem State.hearReply_bytes (s : State) (peer : Nat) (bs : List Byte) : s.hearReply peer (.bytes bs) = s.hear peer :=
  if_neg (by simp)

theorem State.hearReplies_frame (s : State) (peers : List Nat) (rs : List Reply) :
    ∃ ab ⊆ s.absent, s.hearReplies peers rs = { s with absent := ab } := by
  unfold State.hearReplies
  induction peers.zip rs generalizing s with
  | nil => exact ⟨_, List.Subset.refl _, rfl⟩
  | cons x xs ih =>
    obtain ⟨ab, hsub, hone⟩ := s.hearReply_frame x.1 x.2
    obtain ⟨ab', hsub', hrest⟩ := ih { s with absent := ab }
    rw [List.foldl_cons, hone, hrest]
    exact ⟨ab', List.Subset.trans hsub' hsub, rfl⟩

/-! ### Answers to `ramo` (R63, R241, R345) -/

/-- What a destination and its copy receive. -/
def State.holdsBoth (s : State) (c : XReg) (dc : Option XReg) (v : Word) : State :=
  match dc with
  | some d => (s.holds c v).holds d v
  | none => s.holds c v

section
variable (s : State) (c : XReg) (dc : Option XReg) (w64 : Bool) (l w k peer : Nat)
  (hawait : s.hart.await = some (.ramo c dc w64 l w k peer)) (hfall : s.mayFall)
include hawait hfall

theorem exec_ramoComplete_error (code : Nat) :
    ∃ ab, exec (.ramoComplete (.error code)) s
      = .next ((({ s.answered with absent := ab } : State).holdsBoth c dc 0).closeOp l w k code).falls := by
  obtain ⟨ab, -, hheard⟩ := s.answered.hearReply_frame peer (.error code)
  refine ⟨ab, ?_⟩
  change execRamoComplete (.error code) s = _
  cases dc with
  | none =>
    simp only [execRamoComplete, hawait, hheard, State.setX_eq]
    exact congrArg Host.Outcome.next (State.retire_eq _ hfall)
  | some d =>
    simp only [execRamoComplete, hawait, hheard, State.setX_eq]
    exact congrArg Host.Outcome.next (State.retire_eq _ hfall)

theorem exec_ramoComplete_bytes (bs : List Byte) (hlen : bs.length = atomBytes w64) :
    exec (.ramoComplete (.bytes bs)) s
      = .next (((s.answered.hear peer).holdsBoth c dc (BitVec.ofNat 64 (leVal bs))).closeOp l w k 0).falls := by
  have hsize : ¬bs.length ≠ atomBytes w64 := not_not.2 hlen
  change execRamoComplete (.bytes bs) s = _
  cases dc with
  | none =>
    simp only [execRamoComplete, hawait, State.hearReply_bytes, if_neg hsize, State.setX_eq]
    exact congrArg Host.Outcome.next (State.retire_eq _ hfall)
  | some d =>
    simp only [execRamoComplete, hawait, State.hearReply_bytes, if_neg hsize, State.setX_eq]
    exact congrArg Host.Outcome.next (State.retire_eq _ hfall)

end

/-! ### Answers to `rldred` (R242) -/

theorem mem_replyData (rs : List Reply) (b : List Byte) : b ∈ replyData rs ↔ Reply.bytes b ∈ rs := by
  unfold replyData
  rw [List.mem_filterMap]
  constructor
  · rintro ⟨r, hr, hb⟩
    cases r with
    | bytes b' => simpa using (Option.some.inj hb) ▸ hr
    | error c => simp at hb
  · exact fun hb => ⟨_, hb, rfl⟩

theorem Hart.wentPast_frame (h : Hart) (va n : Nat) : ∃ st, h.wentPast va n = { h with strip := st } := by
  unfold Hart.wentPast
  split
  · exact ⟨_, rfl⟩
  · exact ⟨_, rfl⟩

/-- A write that translates: memory has the bytes, and of the hart no more changes than its strip. -/
theorem State.writeMem_of_runs (s : State) (va : Nat) (bs : List Byte) (ks : List (Nat × Nat))
    (hruns : s.runs s.hart.task.asid va bs.length = .ok ks) :
    ∃ ls lv bl st, s.writeMem va bs = .ok { s with
      mem := s.mem.putRuns ks bs, lines := ls, leaves := lv, baselines := bl, hart := { s.hart with strip := st } } := by
  obtain ⟨st, hstrip⟩ := s.hart.wentPast_frame va bs.length
  obtain ⟨ls, lv, bl, hwrite⟩ := s.writeAt_of_runs _ va bs ks hruns
  refine ⟨ls, lv, bl, st, ?_⟩
  simp only [State.writeMem, hwrite, Except.map, State.orXlate, State.onHart, hstrip]

/-- The bytes a reduction stores. -/
def ldredBytesOf (et op n : Nat) (datas : List (List Byte)) : List Byte :=
  (List.range n).flatMap fun i => leBytes 4 (ldredReduce et op datas i).1

theorem length_ldredBytesOf (et op n : Nat) (datas : List (List Byte)) : (ldredBytesOf et op n datas).length = 4 * n := by
  simp [ldredBytesOf, List.length_flatMap, Nat.mul_comm]

/-- The flags a reduction adds. -/
def ldredFlagsOf (et op n : Nat) (datas : List (List Byte)) : Flags :=
  orAll ((List.range n).map fun i => (ldredReduce et op datas i).2)

/-- The status word of a reduction (R242). -/
def ldredStatus (peers : List Nat) (rs : List Reply) : Word :=
  BitVec.ofNat 64 (peers.length * 2 ^ 32 + (replyData rs).length * 2 ^ 16 + firstError rs)

theorem exec_rldredComplete (s : State) (rs : List Reply) (c : XReg) (dst : Word) (n et op : Nat) (cls : Fin 16) (peers : List Nat)
    (hawait : s.hart.await = some (.ldred c dst n et op cls peers)) (hfall : s.mayFall) (hcount : rs.length = peers.length)
    (hsize : ∀ b, Reply.bytes b ∈ rs → b.length = n * ldredBytes et) (htr : s.translates dst.toNat (4 * n)) :
    ∃ ab ls ks bl st, exec (.rldredComplete rs) s = .next
      (((({ s with
          mem := s.mem.putRuns (s.keys dst.toNat (4 * n)) (ldredBytesOf et op n (replyData rs)), absent := ab, lines := ls
          leaves := ks, baselines := bl, hart := { s.hart with await := none, strip := st } } : State).holds c
        (ldredStatus peers rs)).onHart fun h => h.orFlags (ldredFlagsOf et op n (replyData rs))).falls) := by
  obtain ⟨ab, hsub, hheard⟩ := s.answered.hearReplies_frame peers rs
  have hruns : ({ s.answered with absent := ab } : State).runs s.hart.task.asid dst.toNat
      (ldredBytesOf et op n (replyData rs)).length = .ok (s.keys dst.toNat (4 * n)) := by
    rw [length_ldredBytesOf]
    exact s.answered.runs_of_fewer_absent ab hsub _ _ _ _ (s.runs_ok dst.toNat (4 * n) htr)
  obtain ⟨ls, lv, bl, st, hwrite⟩ := State.writeMem_of_runs _ _ _ _ hruns
  have hsizes : (replyData rs).any (fun d => d.length != n * ldredBytes et) = false := by
    simpa [List.any_eq_false, mem_replyData] using hsize
  have hbytes : (((List.range n).map fun i => ldredReduce et op (replyData rs) i).flatMap fun x => leBytes 4 x.1)
      = ldredBytesOf et op n (replyData rs) := List.flatMap_map ..
  refine ⟨ab, ls, lv, bl, st, ?_⟩
  change execRldredComplete rs s = _
  simp only [execRldredComplete, hawait, hcount, hsizes, hheard, hbytes, hwrite, ne_eq, not_true_eq_false, decide_false,
    Bool.or_self, Bool.false_eq_true, if_false, State.setX_eq, List.map_map]
  exact congrArg Host.Outcome.next (State.retire_eq _ hfall)

/-! ### The ends of a tile send (R232, R244) -/

/-- A tile send is no longer outstanding, and its peer is heard of. -/
def State.sendAnswered (s : State) (r : SendRec) : State :=
  { s.hear r.peer with sends := s.sends.filter fun x => x.ticket != r.ticket }

theorem ticket_of_find_send (s : State) (tk win : Nat) (r : SendRec)
    (hfind : s.sends.find? (fun r => r.ticket == tk && r.win == win) = some r) : r.ticket = tk := by
  have hboth : r.ticket = tk ∧ r.win = win := by simpa using List.find?_some hfind
  exact hboth.1

theorem exec_msendCompletes (s : State) (tk win code : Nat) (r : SendRec)
    (hfind : s.sends.find? (fun r => r.ticket == tk && r.win == win) = some r) :
    exec (.msendCompletes win tk code) s
      = .next (if r.failed then s.sendAnswered r else (s.sendAnswered r).closeOp r.launch r.win tk code) := by
  change execMsendCompletes win tk code s = _
  simp only [execMsendCompletes, hfind, State.sendAnswered, ticket_of_find_send s tk win r hfind]

/-! ### Every answer -/

/-- What `rldred` leaves where it said its reduction and its status word go. -/
theorem rldredCompletes (s : State) (rs : List Reply) (c : XReg) (dst : Word) (n et op : Nat) (cls : Fin 16) (peers : List Nat)
    (hawait : s.hart.await = some (.ldred c dst n et op cls peers)) (hfall : s.mayFall) (hcount : rs.length = peers.length)
    (hsize : ∀ b, Reply.bytes b ∈ rs → b.length = n * ldredBytes et) (htr : s.translates dst.toNat (4 * n)) :
    ∃ t, exec (.rldredComplete rs) s = .next t
      ∧ t.mem = s.mem.putRuns (s.keys dst.toNat (4 * n)) (ldredBytesOf et op n (replyData rs))
      ∧ t.getX c = (if c = 0 then 0 else ldredStatus peers rs)
      ∧ t.hart.status = s.hart.status ||| (ldredFlagsOf et op n (replyData rs)).setWidth 64
      ∧ t.hart.pc = s.fallPc ∧ t.hart.await = none ∧ (∀ r, r ≠ c → t.getX r = s.getX r) := by
  obtain ⟨ab, ls, lv, bl, st, hexec⟩ := exec_rldredComplete s rs c dst n et op cls peers hawait hfall hcount hsize htr
  have hget : ∀ r, (s.holds c (ldredStatus peers rs)).getX r
      = if r = 0 then 0 else if r = c then ldredStatus peers rs else s.getX r := by
    intro r
    rw [← State.setX_eq]
    exact s.hart.getX_setX c r _
  refine ⟨_, hexec, rfl, (hget c).trans ?_, rfl, rfl, rfl, fun r hr => (hget r).trans ?_⟩
  · rw [if_pos rfl]
  · rw [if_neg hr]
    split
    · next h0 => rw [h0]; rfl
    · rfl

theorem remoteAnswersComplete : Sys2Proof.Says.RemoteAnswersComplete := by
  intro tk win code bs rs s closed
  refine ⟨fun g hfind hfailed => ⟨?_, fun ks hlen hruns => ?_⟩,
    fun c dc w64 l w k peer hawait hfall => ⟨fun hlen => ?_, ?_⟩,
    rldredCompletes s rs, fun r hfind hfailed => ?_⟩
  · have htk := ticket_of_find s tk g hfind
    exact ⟨_, exec_rgetComplete_error s tk g hfind code hfailed, htk ▸ rfl, rfl, rfl, rfl⟩
  · have htk := ticket_of_find s tk g hfind
    obtain ⟨ls, lv, bl, hwrite⟩ := (s.getAnswered g).writeAt_of_runs g.asid g.dst.toNat bs ks
      (hlen ▸ s.runs_of_fewer_absent _ (List.filter_subset_self _) _ _ _ ks hruns)
    exact ⟨_, exec_rgetComplete_bytes s tk g hfind bs _ hfailed hlen hwrite, htk ▸ rfl, rfl, rfl, rfl, rfl⟩
  · refine ⟨_, exec_ramoComplete_bytes s c dc w64 l w k peer hawait hfall bs hlen, ?_⟩
    cases dc with
    | none => exact ⟨⟨rfl, rfl, rfl⟩, rfl⟩
    | some d => exact ⟨⟨rfl, rfl, rfl⟩, rfl⟩
  · obtain ⟨ab, hexec⟩ := exec_ramoComplete_error s c dc w64 l w k peer hawait hfall code
    refine ⟨_, hexec, ?_⟩
    cases dc with
    | none => exact ⟨rfl, rfl, rfl⟩
    | some d => exact ⟨rfl, rfl, rfl⟩
  · have htk := ticket_of_find_send s tk win r hfind
    have hexec := exec_msendCompletes s tk win code r hfind
    rw [hfailed] at hexec
    exact ⟨_, hexec, htk ▸ rfl, rfl, rfl, rfl, rfl⟩

/-! ### The puts of an absent peer (R230, R239) -/

/-- A put's slot when its put is lost: an accepted token is pending. -/
def TokSlot.lost (k : TokSlot) : TokSlot := if k.st = .accepted then { k with st := .pending } else k

theorem TokSlot.lost_lost (k : TokSlot) : k.lost.lost = k.lost := by
  unfold TokSlot.lost
  by_cases h : k.st = .accepted
  · simp [h]
  · simp [h]

/-- The puts of a list are lost, one after the other. -/
def State.losePuts (s : State) (ps : List PutRec) : State := ps.foldl (fun s p => s.losePut p) s

theorem State.losePut_hart (s : State) (p : PutRec) : (s.losePut p).hart =
    if (s.hart.tokens.get (tokSlotOf p.tok.token)).put = p.ticket then s.hart.onToken p.tok.token TokSlot.lost else s.hart := rfl

theorem Hart.onToken_get (h : Hart) (t : BitVec 16) (f : TokSlot → TokSlot) (k : Fin 64) :
    (h.onToken t f).tokens.get k
      = if h.tokBusy t = true ∧ k = tokSlotOf t then f (h.tokens.get k) else h.tokens.get k := by
  unfold Hart.onToken
  by_cases hbusy : h.tokBusy t = true
  · by_cases hk : k = tokSlotOf t
    · subst hk
      simp [hbusy, Vector.get_eq_getElem]
    · have hne : (tokSlotOf t).val ≠ k.val := fun he => hk (Fin.ext he.symm)
      simp [hbusy, hk, Vector.get_eq_getElem, Vector.getElem_set_ne _ _ hne]
  · simp [hbusy]

/-- A slot keeps its state when a put is lost, or is lost itself. -/
theorem State.losePut_slot (s : State) (p : PutRec) (k : Fin 64) :
    (s.losePut p).hart.tokens.get k = s.hart.tokens.get k ∨ (s.losePut p).hart.tokens.get k = (s.hart.tokens.get k).lost := by
  rw [State.losePut_hart]
  split
  · rw [Hart.onToken_get]
    split
    · exact Or.inr rfl
    · exact Or.inl rfl
  · exact Or.inl rfl

/-- The slot of a put that is lost is lost. -/
theorem State.losePut_slot_same (s : State) (p : PutRec) (hbusy : s.hart.tokBusy p.tok.token = true)
    (hput : (s.hart.tokens.get (tokSlotOf p.tok.token)).put = p.ticket) :
    (s.losePut p).hart.tokens.get (tokSlotOf p.tok.token) = (s.hart.tokens.get (tokSlotOf p.tok.token)).lost := by
  rw [State.losePut_hart, if_pos hput, Hart.onToken_get, if_pos ⟨hbusy, rfl⟩]

/-- A slot that is lost stays so. -/
theorem State.losePuts_slot_lost (s : State) (ps : List PutRec) (k : Fin 64) (x : TokSlot) (h : s.hart.tokens.get k = x.lost) :
    (s.losePuts ps).hart.tokens.get k = x.lost := by
  induction ps generalizing s with
  | nil => exact h
  | cons p ps ih =>
    refine ih (s.losePut p) ?_
    rcases s.losePut_slot p k with hkept | hlost
    · rw [hkept, h]
    · rw [hlost, h, x.lost_lost]

/-- The slot of each put of the list is lost. -/
theorem State.losePuts_slot (s : State) (ps : List PutRec) (p : PutRec) (hp : p ∈ ps) (hbusy : s.hart.tokBusy p.tok.token = true)
    (hput : (s.hart.tokens.get (tokSlotOf p.tok.token)).put = p.ticket) :
    (s.losePuts ps).hart.tokens.get (tokSlotOf p.tok.token) = (s.hart.tokens.get (tokSlotOf p.tok.token)).lost := by
  induction ps generalizing s with
  | nil => cases hp
  | cons q ps ih =>
    change ((s.losePut q).losePuts ps).hart.tokens.get _ = _
    rcases List.mem_cons.1 hp with rfl | hp
    · exact (s.losePut p).losePuts_slot_lost ps _ _ (s.losePut_slot_same p hbusy hput)
    · rcases s.losePut_slot q (tokSlotOf p.tok.token) with hkept | hlost
      · rw [← hkept]
        refine ih (s.losePut q) hp ?_ (hkept ▸ hput)
        rwa [Hart.tokBusy, hkept]
      · exact (s.losePut q).losePuts_slot_lost ps _ _ hlost

/-- A put with a ticket of the list has failed. -/
def PutRec.lostOf (ps : List PutRec) (q : PutRec) : PutRec :=
  if ∃ p ∈ ps, q.ticket = p.ticket then { q with failed := true } else q

theorem PutRec.lostOf_nil (q : PutRec) : q.lostOf [] = q := if_neg (by simp)

theorem PutRec.lostOf_cons (q p : PutRec) (ps : List PutRec) : (q.lostOf [p]).lostOf ps = q.lostOf (p :: ps) := by
  have hticket : (q.lostOf [p]).ticket = q.ticket := by unfold PutRec.lostOf; split <;> rfl
  by_cases hone : q.ticket = p.ticket
  · simp [PutRec.lostOf, hone]
  · have hsame : q.lostOf [p] = q := if_neg (by simpa using hone)
    rw [hsame]
    simp [PutRec.lostOf, hone]

theorem State.losePut_frame (s : State) (p : PutRec) : ∃ ls en os pk ts, s.losePut p = { s with
    launches := ls, ended := en, others := os, parked := pk, puts := s.puts.map (PutRec.lostOf [p])
    hart := { s.hart with tokens := ts } } := by
  have hputs : (fun q : PutRec => if q.ticket = p.ticket then { q with failed := true } else q) = PutRec.lostOf [p] := by
    funext q
    simp [PutRec.lostOf]
  have hhart : (s.losePut p).hart = { s.hart with tokens := (s.losePut p).hart.tokens } := by
    rw [State.losePut_hart]
    unfold Hart.onToken
    split
    · split <;> rfl
    · rfl
  refine ⟨(s.losePut p).launches, (s.losePut p).ended, (s.losePut p).others, (s.losePut p).parked,
    (s.losePut p).hart.tokens, ?_⟩
  rw [← hhart, ← hputs]
  rfl

/-- What losing puts changes: the puts that are lost, launches, and the tokens of harts. -/
theorem State.losePuts_frame (s : State) (ps : List PutRec) : ∃ ls en os pk ts, s.losePuts ps = { s with
    launches := ls, ended := en, others := os, parked := pk, puts := s.puts.map (PutRec.lostOf ps)
    hart := { s.hart with tokens := ts } } := by
  induction ps generalizing s with
  | nil =>
    have hputs : s.puts.map (PutRec.lostOf []) = s.puts :=
      (List.map_congr_left fun q _ => q.lostOf_nil).trans (List.map_id _)
    refine ⟨s.launches, s.ended, s.others, s.parked, s.hart.tokens, ?_⟩
    rw [hputs]
    rfl
  | cons p ps ih =>
    obtain ⟨ls, en, os, pk, ts, hone⟩ := s.losePut_frame p
    obtain ⟨ls', en', os', pk', ts', hrest⟩ := ih (s.losePut p)
    have hputs : (s.puts.map (PutRec.lostOf [p])).map (PutRec.lostOf ps) = s.puts.map (PutRec.lostOf (p :: ps)) := by
      rw [List.map_map]
      exact List.map_congr_left fun q _ => q.lostOf_cons p ps
    refine ⟨ls', en', os', pk', ts', ?_⟩
    change (s.losePut p).losePuts ps = _
    rw [hrest, hone, ← hputs]

/-! ### The other operations of an absent peer -/

/-- Closing operations changes launches alone. -/
theorem foldl_closeOp_frame {α : Type} (l w k : α → Nat) (xs : List α) (s : State) :
    ∃ ls en, xs.foldl (fun s x => s.closeOp (l x) (w x) (k x) 2) s = { s with launches := ls, ended := en } := by
  induction xs generalizing s with
  | nil => exact ⟨_, _, rfl⟩
  | cons x xs ih =>
    obtain ⟨ls, en, hrest⟩ := ih (s.closeOp (l x) (w x) (k x) 2)
    exact ⟨ls, en, hrest⟩

/-- The puts that leave with a peer: those that left for it and have not failed. -/
def State.putsTo (s : State) (fid : Nat) : List PutRec := s.puts.filter fun p => p.peer == fid && p.sent && !p.failed

/-- A peer recorded as absent, with its puts lost. -/
def State.putsLost (s : State) (fid : Nat) : State :=
  ({ s with absent := if s.absent.contains fid then s.absent else s.absent ++ [fid] } : State).losePuts (s.putsTo fid)

/-- The gets and tile sends of an absent peer closed. -/
def State.opsClosed (s t : State) (fid : Nat) : State :=
  (s.sends.filter fun r => r.peer == fid && !r.failed).foldl (fun s r => s.closeOp r.launch r.win r.ticket 2)
    ((s.gets.filter fun g => g.peer == fid && !g.failed).foldl (fun s g => s.closeOp g.launch g.win g.ticket 2) t)

theorem exec_peerAbsent (s : State) (fid : Nat) (at1 : Word) (hdue : 100000 ≤ (s.cluster.refTick - at1).toNat) :
    exec (.peerAbsent ⟨fid, at1⟩) s = .next { s.opsClosed (s.putsLost fid) fid with
      gets := s.gets.map fun g => if g.peer = fid then { g with failed := true } else g
      sends := s.sends.map fun r => if r.peer = fid then { r with failed := true } else r } :=
  if_neg (Nat.not_lt.2 hdue)

theorem exec_peerAbsent_early (s : State) (fid : Nat) (at1 : Word) (hdue : (s.cluster.refTick - at1).toNat < 100000) :
    exec (.peerAbsent ⟨fid, at1⟩) s = .next s := if_pos hdue

theorem State.opsClosed_frame (s t : State) (fid : Nat) :
    ∃ ls en, s.opsClosed t fid = { t with launches := ls, ended := en } := by
  obtain ⟨ls, en, hgets⟩ := foldl_closeOp_frame GetRec.launch GetRec.win GetRec.ticket
    (s.gets.filter fun g => g.peer == fid && !g.failed) t
  obtain ⟨ls', en', hsends⟩ := foldl_closeOp_frame SendRec.launch SendRec.win SendRec.ticket
    (s.sends.filter fun r => r.peer == fid && !r.failed) { t with launches := ls, ended := en }
  refine ⟨ls', en', ?_⟩
  rw [State.opsClosed, hgets, hsends]

/-- What the absence of a peer makes of who is absent, the puts, memory and the hart in front. -/
theorem State.opsClosed_putsLost (s : State) (fid : Nat) :
    let t := s.opsClosed (s.putsLost fid) fid
    t.absent = (if s.absent.contains fid then s.absent else s.absent ++ [fid])
      ∧ t.puts = s.puts.map (PutRec.lostOf (s.putsTo fid)) ∧ t.mem = s.mem
      ∧ t.hart = (s.putsLost fid).hart ∧ (s.putsLost fid).hart = { s.hart with tokens := (s.putsLost fid).hart.tokens } := by
  intro t
  obtain ⟨ls, en, hops⟩ := s.opsClosed_frame (s.putsLost fid) fid
  obtain ⟨ls', en', os, pk, ts, hputs⟩ :=
    ({ s with absent := if s.absent.contains fid then s.absent else s.absent ++ [fid] } : State).losePuts_frame (s.putsTo fid)
  have ht : t = { s.putsLost fid with launches := ls, ended := en } := hops
  rw [ht, State.putsLost, hputs]
  exact ⟨rfl, rfl, rfl, rfl, rfl⟩

/-- Every put that left for an absent peer has failed. -/
theorem failed_of_mem_lostOf (s : State) (fid : Nat) (p : PutRec) (hp : p ∈ s.puts.map (PutRec.lostOf (s.putsTo fid)))
    (hpeer : p.peer = fid) (hsent : p.sent = true) : p.failed = true := by
  obtain ⟨q, hq, rfl⟩ := List.mem_map.1 hp
  unfold PutRec.lostOf at hpeer hsent ⊢
  split
  · rfl
  · next hkept =>
    rw [if_neg hkept] at hpeer hsent
    by_contra hout
    exact hkept ⟨q, List.mem_filter.2 ⟨hq, by simp [hpeer, hsent, hout]⟩, rfl⟩

/-- One get alone was out. -/
theorem State.launches_of_one_get (s : State) (fid : Nat) (g : GetRec)
    (hgets : s.gets.filter (fun g => g.peer == fid && !g.failed) = [g])
    (hsends : ∀ r ∈ s.sends, r.peer = fid → r.failed = true)
    (hputs : ∀ p ∈ s.puts, p.peer = fid → p.sent = true → p.failed = true) :
    (s.opsClosed (s.putsLost fid) fid).launches = (s.closeOp g.launch g.win g.ticket 2).launches := by
  have hnoPut : s.putsTo fid = [] := by
    refine List.filter_eq_nil_iff.2 fun p hp => ?_
    simpa using hputs p hp
  have hnoSend : s.sends.filter (fun r => r.peer == fid && !r.failed) = [] := by
    refine List.filter_eq_nil_iff.2 fun r hr => ?_
    simpa using hsends r hr
  rw [State.opsClosed, State.putsLost, hnoPut, hnoSend, hgets]
  rfl

/-- The slot of a put that left for an absent peer is pending. -/
theorem State.pending_of_putsLost (s : State) (p : PutRec) (hp : p ∈ s.puts) (hsent : p.sent = true) (hfailed : p.failed = false)
    (hbusy : s.hart.tokBusy p.tok.token = true) (hput : (s.hart.tokens.get (tokSlotOf p.tok.token)).put = p.ticket)
    (hst : (s.hart.tokens.get (tokSlotOf p.tok.token)).st = .accepted) :
    ((s.putsLost p.peer).hart.tokens.get (tokSlotOf p.tok.token)).st = .pending := by
  have hmem : p ∈ s.putsTo p.peer := List.mem_filter.2 ⟨hp, by simp [hsent, hfailed]⟩
  have hslot : (s.putsLost p.peer).hart.tokens.get (tokSlotOf p.tok.token) = (s.hart.tokens.get (tokSlotOf p.tok.token)).lost :=
    State.losePuts_slot _ _ p hmem hbusy hput
  rw [hslot, TokSlot.lost, if_pos hst]

/-! ### Answers for a put that has failed -/

/-- A failed put is no longer at its peer, which is heard of. -/
def State.putAnswered (s : State) (p : PutRec) : State :=
  { s.hear p.peer with puts := s.puts.map fun q => if q.ticket = p.ticket then { q with sent := false } else q }

section
variable (s : State) (tok : TokName) (p : PutRec) (hput : s.putOf tok = some p) (hsent : p.sent = true)
  (hfailed : p.failed = true) (hexpired : p.expired = false)
include hput hsent hfailed hexpired

theorem exec_tokenLanded_failed : exec (.tokenLanded tok) s = .next (s.putAnswered p) := by
  change execTokenLanded tok s = _
  simp only [execTokenLanded, hput, hsent, hfailed, Bool.not_true, Bool.false_eq_true, if_false, if_true, State.settlePut, hexpired]
  rfl

theorem exec_putFailed_failed (code : Nat) : exec (.putFailed tok code) s = .next (s.putAnswered p) := by
  change execPutFailed tok code s = _
  simp only [execPutFailed, hput, hsent, hfailed, Bool.not_true, Bool.false_eq_true, if_false, if_true, State.settlePut, hexpired]
  rfl

end

theorem absentPeersFailOperations : Sys2Proof.Says.AbsentPeersFailOperations := by
  intro fid at1 s
  refine ⟨exec_peerAbsent_early s fid at1, fun hdue => ?_, fun tk r g hfind hfailed => ?_, fun tk win code r hfind hfailed => ?_,
    fun tok p hput hsent hfailed hexpired => ?_⟩
  · obtain ⟨habsent, hputs, hmem, hhart, htokens⟩ := s.opsClosed_putsLost fid
    refine ⟨_, exec_peerAbsent s fid at1 hdue, ?_, rfl, rfl, fun p hp => ?_, s.launches_of_one_get fid,
      fun p hp hpeer hsent hfailed hbusy => ?_, hmem, ?_⟩
    · rw [habsent]
      split
      · next hin => simpa using hin
      · simp
    · exact failed_of_mem_lostOf s fid p (hputs ▸ hp)
    · subst hpeer
      intro k hput hst
      rw [hhart]
      exact s.pending_of_putsLost p hp hsent hfailed hbusy hput hst
    · rw [hhart]
      exact htokens
  · have htk := ticket_of_find s tk g hfind
    exact htk ▸ exec_rgetComplete_failed s tk g hfind r hfailed
  · have hexec := exec_msendCompletes s tk win code r hfind
    rw [if_pos hfailed, State.sendAnswered, ticket_of_find_send s tk win r hfind] at hexec
    exact hexec
  · exact ⟨exec_tokenLanded_failed s tok p hput hsent hfailed hexpired,
      exec_putFailed_failed s tok p hput hsent hfailed hexpired⟩

/-- Settles O59: answers one kind at a time, and a peer's absence by what losing its puts and closing its operations changes. -/
theorem remoteAnswersAndAbsentPeers : Obligations.RemoteAnswersAndAbsentPeers :=
  ⟨remoteAnswersComplete, absentPeersFailOperations⟩

end Sys2Proof.Machine
end

section
/-! PROOFS of the register values after reset (R85, R104, R122, R210, R238, R254). -/

namespace Sys2Proof.Machine

theorem Hart.getX_reset (n : HartName) (r : XReg) : (Hart.reset n).getX r = 0 := by
  simp [Hart.getX, Hart.reset, Vector.get_eq_getElem]

/-- Settles O6: each register of the bit tables is read off `Hart.reset`, the scalar registers by `Hart.getX_reset`. -/
theorem resetRegisterValues : Obligations.ResetRegisterValues :=
  ⟨rfl, rfl, rfl, rfl, rfl, rfl, rfl, rfl, rfl, rfl, rfl, rfl, rfl, rfl, rfl, Hart.getX_reset _, rfl, rfl⟩

end Sys2Proof.Machine
end

section
/-! PROOFS of the phaser instructions (R97 to R100, R340). Each ends with a status word and a fall through (`State.phDone_eq`), or
leaves the caller at its instruction with its membership changed (`Phaser.onMember`). -/

namespace Sys2Proof.Machine

/-! ### Status words and callers -/

theorem State.phDone_eq (s : State) (c : XReg) (code : Nat) (k : BitVec 32) (h : s.mayFall) :
    s.phDone c code k = (s.holds c (BitVec.ofNat 64 (k.toNat * 2 ^ 32 + code))).falls := by
  rw [State.phDone, State.setX_eq, State.retire_eq _ (by simpa using h), phStatus]

theorem State.phDone_zero (s : State) (c : XReg) (k : BitVec 32) (h : s.mayFall) :
    s.phDone c 0 k = (s.holds c (BitVec.ofNat 64 (k.toNat * 2 ^ 32))).falls := by
  rw [s.phDone_eq c 0 k h, Nat.add_zero]

theorem Phaser.member?_eq_none (p : Phaser) (o : HartName) :
    p.member? o = none ↔ (p.members.any fun k => k.owner == o) = false := by
  simp [Phaser.member?]

theorem Phaser.member?_isSome (p : Phaser) (o : HartName) : (p.member? o).isSome = p.members.any fun k => k.owner == o := by
  rw [Phaser.member?, List.isSome_find?]

/-! ### Creation (R97) -/

/-- What `phnew` makes of a free index of a die. -/
def State.newPhaser (s : State) (die k : Nat) (counter : BitVec 32) : Phaser :=
  { handle := BitVec.ofNat 32 (s.nextGeneration (4096 * die + k) * 2 ^ 14 + (4096 * die + k)), launch := s.hart.task.launch
    counter := counter, members := [] }

theorem State.nextGeneration_bounds (s : State) (key : Nat) : 1 ≤ s.nextGeneration key ∧ s.nextGeneration key < 2 ^ 18 := by
  unfold State.nextGeneration
  split <;> omega

theorem State.nextGeneration_of_find (s : State) (key : Nat) (x : Nat × Nat) (h : s.phGens.find? (fun x => x.1 == key) = some x) :
    s.nextGeneration key = x.2 % (2 ^ 18 - 1) + 1 := by
  rw [State.nextGeneration, h]

theorem State.mem_freeIndexes (s : State) (die k : Nat) : k ∈ s.freeIndexes die ↔
    k < 4096 ∧ ∀ p ∈ s.phasers, ¬(bits p.handle.toNat 13 12 = die ∧ bits p.handle.toNat 11 0 = k) := by
  simp [State.freeIndexes]

section
variable (s : State) (die k : Nat) (counter : BitVec 32) (hdie : die < 4) (hk : k ∈ s.freeIndexes die)
include hdie hk

/-- The handle holds the generation above the 14 bits of die and index. -/
theorem State.newPhaser_handle :
    (s.newPhaser die k counter).handle.toNat = s.nextGeneration (4096 * die + k) * 2 ^ 14 + (4096 * die + k) := by
  have hk := ((s.mem_freeIndexes die k).1 hk).1
  have := s.nextGeneration_bounds (4096 * die + k)
  simp only [State.newPhaser, BitVec.toNat_ofNat]
  omega

/-- No live phaser has the handle, since none has the index. -/
theorem State.newPhaser_fresh : ∀ q ∈ s.phasers, q.handle ≠ (s.newPhaser die k counter).handle := by
  intro q hq he
  have hh := s.newPhaser_handle die k counter hdie hk
  obtain ⟨hlt, hfree⟩ := (s.mem_freeIndexes die k).1 hk
  refine hfree q hq ?_
  rw [he, hh]
  simp only [bits]
  omega

end

theorem exec_phnew_full (a c : XReg) (s : State) (hout : s.outside) (hnone : s.freeIndexes (s.hart.name.cluster / 48 % 4) = []) :
    exec (.phnew a c) s = .next (s.phDone c 2 0) := by
  show execPhnew a c s = _
  simp only [execPhnew, State.noStrip_ok s hout, hnone]
  rfl

theorem exec_phnew (a c : XReg) (s : State) (hout : s.outside) (hfree : s.freeIndexes (s.hart.name.cluster / 48 % 4) ≠ []) :
    ∃ k ∈ s.freeIndexes (s.hart.name.cluster / 48 % 4),
      let die := s.hart.name.cluster / 48 % 4
      let key := 4096 * die + k
      let p := s.newPhaser die k ((s.getX a).setWidth 32)
      exec (.phnew a c) s = .next (({ s with
        freeCount := s.freeCount + 1, phasers := s.phasers ++ [p]
        phGens := (key, s.nextGeneration key) :: s.phGens.filter fun x => x.1 != key } : State).phDone c 0 p.handle) := by
  have hlen := List.length_pos_iff.2 hfree
  let free := s.freeIndexes (s.hart.name.cluster / 48 % 4)
  refine ⟨free.getD (Config.phaserChoice s.freeCount % free.length) 0, ?_, ?_⟩
  case refine_2 =>
    show execPhnew a c s = _
    simp only [execPhnew, State.noStrip_ok s hout, if_neg hfree]
    rfl
  · rw [List.getD_eq_getElem _ _ (Nat.mod_lt _ hlen)]
    exact List.getElem_mem _

/-! ### Deletion and membership (R97, R98) -/

/-- Kept wakes are all that the end of a phaser changes in the hart in front. -/
theorem State.keepWakes_hart (s : State) (p : Phaser) : ∃ w, (s.keepWakes p).hart = { s.hart with phWoke := w } := by
  unfold State.keepWakes
  induction p.members generalizing s with
  | nil => exact ⟨s.hart.phWoke, rfl⟩
  | cons m ms ih =>
    rw [List.foldl_cons]
    cases m.woke with
    | none => exact ih s
    | some k =>
      obtain ⟨w, hw⟩ := ih (s.onBound m.owner fun h => { h with phWoke := some k })
      refine ⟨w, hw.trans ?_⟩
      simp only [State.onBound]
      split <;> rfl

theorem State.keepWakes_mayFall (s : State) (p : Phaser) (h : s.mayFall) : (s.keepWakes p).mayFall := by
  obtain ⟨w, hw⟩ := s.keepWakes_hart p
  simp only [State.mayFall, State.fallPc, hw]
  exact h

section
variable (a c : XReg) (m : PhMode) (s : State) (hout : s.outside)
include hout

theorem exec_ph_unknown (h : s.phaser? (s.getX a) = none) :
    ∀ i ∈ [Instr.phdel a c, .phreg m a c, .phdrop a c], exec i s = .next (s.phDone c 1 0) := by
  simp only [List.forall_mem_cons, List.not_mem_nil, false_implies, implies_true, and_true]
  refine ⟨show execPhdel a c s = _ from ?_, show execPhreg m a c s = _ from ?_, show execPhdrop a c s = _ from ?_⟩
  · simp only [execPhdel, State.noStrip_ok s hout, h]; rfl
  · simp only [execPhreg, State.noStrip_ok s hout, h]; rfl
  · simp only [execPhdrop, State.noStrip_ok s hout, h]; rfl

variable (p : Phaser) (hp : s.phaser? (s.getX a) = some p)
include hp

theorem exec_phdel : exec (.phdel a c) s = .next
    ((({ s with phasers := s.phasers.filter fun q => q.handle != p.handle } : State).keepWakes p).phDone c 0 0) := by
  show execPhdel a c s = _
  simp only [execPhdel, State.noStrip_ok s hout, hp]
  rfl

theorem exec_phreg : exec (.phreg m a c) s = .next
    (if p.members.any fun k => k.owner == s.hart.name then s.phDone c 5 p.counter
    else if 256 ≤ p.members.length then s.phDone c 2 p.counter
    else (s.putPhaser { p with members := p.members ++ [
      { owner := s.hart.name, hartid := s.hart.id, mode := m, sig := p.counter, wt := p.counter, waiting := false
        signalled := false, stall := none, woke := none }] }).phDone c 0 p.counter) := by
  show execPhreg m a c s = _
  simp only [execPhreg, State.noStrip_ok s hout, hp, Phaser.member?_isSome]
  cases p.members.any fun k => k.owner == s.hart.name
  · by_cases hfull : 256 ≤ p.members.length
    · simp only [hfull]; rfl
    · simp only [hfull]; rfl
  · rfl

theorem exec_phdrop : exec (.phdrop a c) s = .next
    (if p.members.any fun k => k.owner == s.hart.name then
      (s.putPhaser (p.drop s.hart.name)).phDone c 0 (p.drop s.hart.name).counter
    else s.phDone c 3 p.counter) := by
  show execPhdrop a c s = _
  simp only [execPhdrop, State.noStrip_ok s hout, hp, ← Option.not_isSome, Phaser.member?_isSome]
  cases p.members.any fun k => k.owner == s.hart.name <;> rfl

end

/-! ### Signals and waits (R98 to R100) -/

section
variable (a c : XReg) (s : State) (hout : s.outside)
include hout

/-- A signal or wait whose caller is answered ends there. -/
theorem exec_ph_ended (t : State) (h : ∀ ok, s.phCaller a c ok = .error t) :
    ∀ i ∈ [Instr.phsig a c, .phwait a c, .phsw a c], exec i s = .next t := by
  simp only [List.forall_mem_cons, List.not_mem_nil, false_implies, implies_true, and_true]
  refine ⟨show execPhsig a c s = _ from ?_, show execPhwait a c s = _ from ?_, show execPhsw a c s = _ from ?_⟩
  · simp only [execPhsig, State.noStrip_ok s hout, h]; rfl
  · simp only [execPhwait, State.noStrip_ok s hout, h]; rfl
  · simp only [execPhsw, State.noStrip_ok s hout, h]; rfl

omit hout in
theorem State.phCaller_of_woken (k : BitVec 32) (h : s.hart.phWoke = some k) (ok : Member → Bool) :
    s.phCaller a c ok = .error (({ s with hart := { s.hart with phWoke := none } } : State).phDone c 0 k) := by
  simp only [State.phCaller, h]
  rfl

variable (hwoke : s.hart.phWoke = none)
include hwoke

omit hout in
theorem State.phCaller_of_unknown (h : s.phaser? (s.getX a) = none) (ok : Member → Bool) :
    s.phCaller a c ok = .error (s.phDone c 1 0) := by
  simp only [State.phCaller, hwoke, h]

omit hout in
theorem State.phCaller_of_stranger (p : Phaser) (hp : s.phaser? (s.getX a) = some p) (h : p.member? s.hart.name = none)
    (ok : Member → Bool) : s.phCaller a c ok = .error (s.phDone c 3 p.counter) := by
  simp only [State.phCaller, hwoke, hp, h]

variable (p : Phaser) (m : Member) (hp : s.phaser? (s.getX a) = some p) (hm : p.member? s.hart.name = some m)
include hp hm

omit hout in
theorem State.phCaller_of_member (ok : Member → Bool) :
    s.phCaller a c ok = if ok m then .ok (p, m) else .error (s.phDone c 4 p.counter) := by
  simp only [State.phCaller, hwoke, hp, hm]

theorem exec_phsig_refused (h : m.signals = false) : exec (.phsig a c) s = .next (s.phDone c 4 p.counter) := by
  show execPhsig a c s = _
  simp only [execPhsig, State.noStrip_ok s hout, s.phCaller_of_member a c hwoke p m hp hm, h]
  rfl

theorem exec_phwait_refused (h : m.waits = false) : exec (.phwait a c) s = .next (s.phDone c 4 p.counter) := by
  show execPhwait a c s = _
  simp only [execPhwait, State.noStrip_ok s hout, s.phCaller_of_member a c hwoke p m hp hm, h]
  rfl

theorem exec_phsw_refused (h : (m.signals && m.waits) = false) : exec (.phsw a c) s = .next (s.phDone c 4 p.counter) := by
  show execPhsw a c s = _
  simp only [execPhsw, State.noStrip_ok s hout, s.phCaller_of_member a c hwoke p m hp hm, h]
  rfl

/-- A signal of a member that no wait has left anything of: it stalls, or is recorded. -/
theorem exec_phsig (h : m.signals = true) (hw : m.woke = none) : exec (.phsig a c) s = .next
    (if phAfter m.sig p.counter then s.putPhaser (p.onMember m.owner fun k => { k with stall := some false })
    else
      let q := (p.onMember m.owner fun k => { k with sig := k.sig + 1 }).advance
      (s.putPhaser q).phDone c 0 q.counter) := by
  show execPhsig a c s = _
  simp only [execPhsig, State.noStrip_ok s hout, s.phCaller_of_member a c hwoke p m hp hm, h, State.phStall]
  by_cases hc : phAfter m.sig p.counter = true <;> simp only [bind, Except.bind, if_true, hw, hc] <;> rfl

theorem exec_phwait (h : m.waits = true) : exec (.phwait a c) s = .next (s.phAwait p c) := by
  show execPhwait a c s = _
  simp only [execPhwait, State.noStrip_ok s hout, s.phCaller_of_member a c hwoke p m hp hm, h]
  rfl

theorem exec_phsw (h : (m.signals && m.waits) = true) (hs : m.signalled = false) : exec (.phsw a c) s = .next
    (if phAfter m.sig p.counter then s.putPhaser (p.onMember m.owner fun k => { k with stall := some true })
    else s.phAwait (p.onMember m.owner fun k => { k with sig := k.sig + 1, signalled := true, waiting := true }).advance c) := by
  show execPhsw a c s = _
  simp only [execPhsw, State.noStrip_ok s hout, s.phCaller_of_member a c hwoke p m hp hm, h, State.phStall]
  by_cases hc : phAfter m.sig p.counter = true <;> simp only [bind, Except.bind, if_true, hs, hc] <;> rfl

end

theorem Phaser.owner_of_member? (p : Phaser) (o : HartName) (m : Member) (hm : p.member? o = some m) : m.owner = o := by
  simpa using List.find?_some hm

/-! A wait that is over, by its waking or by the counter, advances wt; another leaves the caller waiting (R98). -/

section
variable (s : State) (p : Phaser) (c : XReg) (m : Member) (o : HartName) (ho : o = s.hart.name) (hm : p.member? o = some m)
include ho hm

theorem State.phAwait_of_woke (k : BitVec 32) (h : m.woke = some k) : s.phAwait p c =
    (s.putPhaser (p.onMember o fun j =>
      { j with wt := j.wt + 1, waiting := false, signalled := false, woke := none })).phDone c 0 k := by
  subst ho
  simp only [State.phAwait, hm, h]
  rfl

theorem State.phAwait_of_after (h : m.woke = none) (hc : phAfter p.counter m.wt = true) : s.phAwait p c =
    (s.putPhaser (p.onMember o fun j => { j with wt := j.wt + 1, waiting := false, signalled := false, woke := none })).phDone c 0
      p.counter := by
  subst ho
  simp only [State.phAwait, hm, h, hc]
  rfl

theorem State.phAwait_of_not_after (h : m.woke = none) (hc : phAfter p.counter m.wt = false) :
    s.phAwait p c = s.putPhaser (p.onMember o fun j => { j with waiting := true }) := by
  subst ho
  simp only [State.phAwait, hm, h, hc, p.owner_of_member? _ m hm]
  rfl

end

/-! ### The statements -/

theorem phaserCreationAndMembership : Sys2Proof.Says.PhaserCreationAndMembership := by
  intro a c m s hout hfall status o
  refine ⟨fun hnone => ?_, fun hfree => ?_, fun hnone i hi => ?_, fun i hi => ⟨fun k hk => ?_, fun hwoke hnone => ?_, ?_⟩,
    fun p hp => ⟨?_, fun hin => ?_, fun hout1 hfull => ?_, fun hout1 hroom => ?_, fun hout1 => ?_, fun hin => ?_⟩⟩
  · rw [exec_phnew_full a c s hout hnone, s.phDone_eq c 2 0 hfall]
  · obtain ⟨k, hk, hexec⟩ := exec_phnew a c s hout hfree
    have hdie : s.hart.name.cluster / 48 % 4 < 4 := Nat.mod_lt _ (by decide)
    have hlt := ((s.mem_freeIndexes _ k).1 hk).1
    have hh := s.newPhaser_handle _ k ((s.getX a).setWidth 32) hdie hk
    have hkey : (s.newPhaser (s.hart.name.cluster / 48 % 4) k ((s.getX a).setWidth 32)).handle.toNat % 2 ^ 14
        = 4096 * (s.hart.name.cluster / 48 % 4) + k := by omega
    have hgen : (s.newPhaser (s.hart.name.cluster / 48 % 4) k ((s.getX a).setWidth 32)).handle.toNat / 2 ^ 14
        = s.nextGeneration (4096 * (s.hart.name.cluster / 48 % 4) + k) := by omega
    refine ⟨_, _, rfl, rfl, rfl, s.newPhaser_fresh _ k _ hdie hk, ?_, hexec.trans (congrArg _ (State.phDone_eq _ c 0 _ hfall))⟩
    simp only [hkey, hgen]
    refine ⟨by omega, ?_, (s.nextGeneration_bounds _).1, fun x hx => s.nextGeneration_of_find _ x hx, trivial⟩
    rwa [show (4096 * (s.hart.name.cluster / 48 % 4) + k) % 2 ^ 12 = k by omega]
  · rw [exec_ph_unknown a c m s hout hnone i hi, s.phDone_eq c 1 0 hfall]
  · rw [exec_ph_ended a c s hout _ (s.phCaller_of_woken a c k hk) i hi]
    exact congrArg _ (State.phDone_eq _ c 0 k hfall)
  · rw [exec_ph_ended a c s hout _ (s.phCaller_of_unknown a c hwoke hnone) i hi, s.phDone_eq c 1 0 hfall]
  · intro hwoke p hp hin
    rw [exec_ph_ended a c s hout _ (s.phCaller_of_stranger a c hwoke p hp ((p.member?_eq_none o).2 hin)) i hi,
      s.phDone_eq c 3 _ hfall]
  · rw [exec_phdel a c s hout p hp]
    exact congrArg _ (State.phDone_eq _ c 0 0 (State.keepWakes_mayFall _ p hfall))
  · rw [exec_phreg a c m s hout p hp, if_pos hin, s.phDone_eq c 5 _ hfall]
  · rw [exec_phreg a c m s hout p hp, if_neg (ne_true_of_eq_false hout1), if_pos hfull, s.phDone_eq c 2 _ hfall]
  · rw [exec_phreg a c m s hout p hp, if_neg (ne_true_of_eq_false hout1), if_neg (by omega)]
    exact congrArg _ (State.phDone_eq _ c 0 _ hfall)
  · rw [exec_phdrop a c s hout p hp, if_neg (ne_true_of_eq_false hout1), s.phDone_eq c 3 _ hfall]
  · rw [exec_phdrop a c s hout p hp, if_pos hin]
    exact congrArg _ (State.phDone_eq _ c 0 _ hfall)

theorem phaserSignalsAndWaits : Sys2Proof.Says.PhaserSignalsAndWaits := by
  intro a c s p m hout hfall hwoke hp hm hw hsignalled hstall hwaiting status set
  have hsig : m.mode ≠ .waitOnly → m.signals = true := by simp [Member.signals]
  have hwait : m.mode ≠ .signalOnly → m.waits = true := by simp [Member.waits]
  have hboth : m.mode = .signalWait → (m.signals && m.waits) = true := fun h => by simp [Member.signals, Member.waits, h]
  have hnot : m.mode ≠ .signalWait → (m.signals && m.waits) = false := by
    cases hmode : m.mode <;> simp [Member.signals, Member.waits, hmode]
  have hown := p.owner_of_member? _ m hm
  have hstatus : BitVec.ofNat 64 (p.counter.toNat * 2 ^ 32 + 4) = status p.counter + 4 := BitVec.ofNat_add _ _
  refine ⟨fun h => ?_, fun h => ?_, fun h => ?_, fun h hc => ?_, fun h hc => ?_, fun h hc => ?_, fun h hc => ?_, fun h hc => ?_,
    fun h hc k hk => ⟨fun w hkw => ?_, fun hkw hkc => ?_⟩⟩
  · rw [exec_phsig_refused a c s hout hwoke p m hp hm (by simp [Member.signals, h]), s.phDone_eq c 4 _ hfall, hstatus]
  · rw [exec_phwait_refused a c s hout hwoke p m hp hm (by simp [Member.waits, h]), s.phDone_eq c 4 _ hfall, hstatus]
  · rw [exec_phsw_refused a c s hout hwoke p m hp hm (hnot h), s.phDone_eq c 4 _ hfall, hstatus]
  · rw [exec_phsig a c s hout hwoke p m hp hm (hsig h) hw, if_pos hc]
    rfl
  · rw [exec_phsw a c s hout hwoke p m hp hm (hboth h) hsignalled, if_pos hc]
    rfl
  · rw [exec_phsig a c s hout hwoke p m hp hm (hsig h) hw, if_neg (by simp [hc])]
    exact congrArg Host.Outcome.next (State.phDone_zero _ c _ hfall)
  · rw [exec_phwait a c s hout hwoke p m hp hm (hwait h), s.phAwait_of_after p c m m.owner hown (hown ▸ hm) hw hc]
    exact congrArg Host.Outcome.next (State.phDone_zero _ c _ hfall)
  · rw [exec_phwait a c s hout hwoke p m hp hm (hwait h), s.phAwait_of_not_after p c m m.owner hown (hown ▸ hm) hw hc]
    rfl
  · rw [exec_phsw a c s hout hwoke p m hp hm (hboth h) hsignalled, if_neg (by simp [hc])]
    exact congrArg Host.Outcome.next ((s.phAwait_of_woke _ c k m.owner hown hk w hkw).trans (State.phDone_zero _ c w hfall))
  · rw [exec_phsw a c s hout hwoke p m hp hm (hboth h) hsignalled, if_neg (by simp [hc])]
    exact congrArg Host.Outcome.next (s.phAwait_of_not_after _ c k m.owner hown hk hkw hkc)

/-- Settles O48: the waking and the membership of the caller decide the status (`State.phCaller_of_woken` to
`State.phCaller_of_member`), and what a member's signal or wait does is `exec_phsig`, `exec_phwait` and `exec_phsw`. -/
theorem phaserInstructions : Obligations.PhaserInstructions := ⟨phaserCreationAndMembership, phaserSignalsAndWaits⟩

end Sys2Proof.Machine
end

section
/-! PROOFS of the deadline interrupt (R207, R210, R213, R221). -/

namespace Sys2Proof.Machine

/-- An interrupt is attended to where IE stands. -/
theorem State.ie_of_attend_interrupt (s : State) (h : s.attend = .interrupt) : s.hart.st 10 = true := by
  by_contra hie
  revert h
  simp only [State.attend, Bool.eq_false_of_not_eq_true hie, Bool.and_false, Bool.false_and, Bool.false_eq_true, if_false]
  repeat' split
  all_goals simp

theorem exec_dlnRisk (s : State) (h : s.attend = .interrupt) : exec .dlnRisk s = .next (s.abandon.interrupt 0x30) := by
  show execDlnRisk s = _
  simp only [execDlnRisk, h]

/-- The state that an interrupt is taken in: a wait is abandoned, and RIP is clear. -/
def State.ripCleared (s : State) : State := s.abandon.onHart fun h => h.setSt 8 false

/-- An interrupt is an entry to level K (R207). -/
theorem entered_interrupt (s : State) (cause : Nat) :
    entered s.ripCleared (s.abandon.interrupt cause) (BitVec.ofNat 64 (2 ^ 63 + cause)) 0 s.ripCleared.hart.lentSave.1
      s.ripCleared.hart.lentSave.2 :=
  entered_enterK s.ripCleared _ 0 _ _

theorem State.ripCleared_status (s : State) (k : Nat) (hk : k < 64) :
    s.ripCleared.hart.status.getLsbD k = if k = 8 then false else s.hart.st k :=
  s.abandon.hart.getLsbD_setSt_status 8 false k hk

theorem deadlineInterruptIsTaken : Sys2Proof.Says.DeadlineInterruptIsTaken := by
  intro s h
  obtain ⟨ht, hbits⟩ := entered_interrupt s 0x30
  have h8 : (s.abandon.interrupt 0x30).hart.st 8 = false := (hbits 8).trans (s.ripCleared_status 8 (by decide))
  have h10 : (s.abandon.interrupt 0x30).hart.st 10 = false := hbits 10
  have h11 : (s.abandon.interrupt 0x30).hart.st 11 = true :=
    ((hbits 11).trans (s.ripCleared_status 10 (by decide))).trans (s.ie_of_attend_interrupt h)
  rw [exec_dlnRisk s h]
  rw [ht] at h8 h10 h11 ⊢
  exact ⟨_, rfl, rfl, rfl, rfl, rfl, rfl, h8, h10, h11, rfl, rfl, rfl⟩

end Sys2Proof.Machine
end

section
/-! PROOFS of the vertical transfers of the map (R109, R119, R167, R225). -/

namespace Sys2Proof.Machine

/-! ### Slots and transfers -/

theorem State.dropTransfer_slotsFor (s : State) (x : Transfer) (n : Nat) :
    (s.onHart fun h => h.dropTransfer x).slotsFor n ↔ s.slotsFor n := by
  have hclusterHarts : (s.onHart fun h => h.dropTransfer x).clusterHarts
      = s.hart.dropTransfer x :: s.others.filter fun h => h.name.cluster == s.hart.name.cluster := rfl
  have hslots : (s.hart.dropTransfer x).slots = s.hart.slots := rfl
  have hshared : (s.hart.dropTransfer x).sharedSlots = s.hart.sharedSlots := rfl
  have hname : (s.hart.dropTransfer x).name = s.hart.name := rfl
  have hbound : (s.hart.dropTransfer x).bound = s.hart.bound := rfl
  simp only [State.slotsFor, State.storeHarts, State.sharedSlots, hclusterHarts, State.onHart_hart, State.onHart_parked,
    hslots, hname,
    List.cons_append, List.map_cons, List.filter_cons, hbound]
  simp only [State.clusterHarts, List.filter_cons, List.cons_append, List.map_cons]
  split <;> simp only [List.map_cons, hshared, List.length_cons]

theorem State.makeSlot_of_slot (s : State) (h : s.slotsFor 1) : s.makeSlot false = .ok s := by
  have hfree := s.slotFree_front.2 h
  unfold State.makeSlot State.makeSlotIn
  simp [hfree]

theorem exec_tileFillDone (t : TReg) (s : State) (x : Transfer) (hx : s.hart.transfer? t false = some x)
    (habsent : s.hart.tileIn x.base t = some .absent) (hslot : s.slotsFor 1)
    (htr : s.translates (backing x.base t.val) tileSize) :
    let a := backing x.base t.val
    let b := Bytes.put [] 0 (s.reads a tileSize)
    exec (.tileFillDone t) s = .next
      (({ s with hart := (s.hart.dropTransfer x).setTileIn x.base t (.clean b) } : State).counted a tileSize) := by
  show execTileFillDone t s = _
  simp only [execTileFillDone, hx, habsent, s.readAt_ok _ _ htr,
    State.makeSlot_of_slot _ ((s.dropTransfer_slotsFor x 1).2 hslot)]
  rfl

/-- A tile of the context is Dirty, or Clean. -/
def TileCtx.dirtyAt (t : TReg) (c : TileCtx) : Bool := match c.tiles.get t with | .dirty _ => true | _ => false
def TileCtx.cleanAt (t : TReg) (c : TileCtx) : Bool := match c.tiles.get t with | .clean _ => true | _ => false

theorem exec_tileSpillStart (t : TReg) (s : State) (c : TileCtx) (hstop : s.hart.stopping = false)
    (hc : s.hart.ctxs.find? (TileCtx.dirtyAt t) = some c)
    (hx : { base := c.base, tile := t, spill := true, cancelled := false : Transfer } ∉ s.hart.transfers) :
    exec (.tileSpillStart t) s = .next { s with hart := { s.hart with
      transfers := s.hart.transfers ++ [{ base := c.base, tile := t, spill := true, cancelled := false }] } } := by
  show execTileSpillStart t s = _
  have hnew : (s.hart.transfers.contains { base := c.base, tile := t, spill := true, cancelled := false }
      || s.hart.stopping) = false := by simp [hx, hstop]
  simp only [execTileSpillStart]
  split
  · next hnone => exact nomatch hc.symm.trans hnone
  · next c' hsome =>
    obtain rfl := Option.some.inj (hc.symm.trans hsome)
    simp only [hnew]
    rfl

/-- A write whose bytes translate, in full. -/
theorem State.writeAt_ok (s : State) (va : Nat) (bs : List Byte) (h : s.translates va bs.length) :
    s.writeAt s.hart.task.asid va bs = .ok ({ s with
      mem := s.mem.putRuns (s.keys va bs.length) bs
      lines := s.lines.map fun (l : RemLine) => l.written s.hart.task.asid va bs
      baselines := (s.touch s.hart.task.asid va bs.length).baselines }.counted va bs.length) := by
  rw [State.writeAt, s.runs_ok va _ h]
  rfl

theorem State.writeAt_error (s : State) (asid va e : Nat) (bs : List Byte) (h : s.runs asid va bs.length = .error e) :
    s.writeAt asid va bs = .error e := by
  rw [State.writeAt, h]
  rfl

section
variable (t : TReg) (s : State) (x : Transfer) (b : Bytes) (hx : s.hart.transfer? t true = some x)
  (hdirty : s.hart.tileIn x.base t = some (.dirty b))
include hx hdirty

theorem exec_tileSpillDone (htr : s.translates (backing x.base t.val) tileSize) :
    let a := backing x.base t.val
    exec (.tileSpillDone t) s = .next ({ s with
      mem := s.mem.putRuns (s.keys a tileSize) (b.getN 0 tileSize)
      lines := s.lines.map fun (l : RemLine) => l.written s.hart.task.asid a (b.getN 0 tileSize)
      baselines := (s.touch s.hart.task.asid a tileSize).baselines
      hart := (s.hart.dropTransfer x).setTileIn x.base t (.clean b) }.counted a tileSize) := by
  intro a
  show execTileSpillDone t s = _
  have hwrite := (s.onHart fun h => h.dropTransfer x).writeAt_ok a (b.getN 0 tileSize) (by rw [Bytes.length_getN]; exact htr)
  rw [Bytes.length_getN] at hwrite
  simp only [execTileSpillDone, hx, hdirty]
  rw [show (s.onHart fun h => h.dropTransfer x).writeAt s.hart.task.asid (backing x.base t.val) (b.getN 0 tileSize)
    = _ from hwrite]
  rfl

theorem exec_tileSpillDone_lost (e : Nat) (he : s.runs s.hart.task.asid (backing x.base t.val) tileSize = .error e) :
    exec (.tileSpillDone t) s = .next ({ s with hart := s.hart.dropTransfer x }.terminateAtStop 0x21 (BitVec.ofNat 64 e)
      (BitVec.ofNat 64 t.val) (BitVec.ofNat 64 (backing x.base t.val))) := by
  show execTileSpillDone t s = _
  have hwrite := (s.onHart fun h => h.dropTransfer x).writeAt_error s.hart.task.asid (backing x.base t.val) e (b.getN 0 tileSize)
    (by rw [Bytes.length_getN]; exact he)
  simp only [execTileSpillDone, hx, hdirty, hwrite]
  rfl

end

/-! ### Slots the map reclaims (R109, R112; log entry 41) -/

section
variable (t : TReg) (s : State) (c : TileCtx) (b : Bytes)
  (hc : s.hart.ctxs.find? (TileCtx.cleanAt t) = some c)
  (hclean : c.tiles.get t = .clean b) (htr : s.translates (backing c.base t.val) tileSize)

theorem State.sameBacking_eq (base : Word) (b : Bytes) (htr : s.translates (backing base t.val) tileSize) :
    s.sameBacking s.hart base t b = decide (s.reads (backing base t.val) tileSize = b.getN 0 tileSize) := by
  simp only [State.sameBacking, s.readAt_ok _ _ htr, beq_eq_decide]

include hc hclean htr

theorem exec_slotReclaim : exec (.slotReclaim t) s = .next
    (if s.reads (backing c.base t.val) tileSize = b.getN 0 tileSize ∨ s.hart.task.mayWrite (backing c.base t.val) = true
    then s.freeSlot s.hart c.base t else s) := by
  show execSlotReclaim t s = _
  simp only [execSlotReclaim]
  split
  · next hnone => exact nomatch hc.symm.trans hnone
  · next c' hsome =>
    obtain rfl := Option.some.inj (hc.symm.trans hsome)
    simp only [hclean, State.mayLeaveSlot, s.sameBacking_eq t c.base b htr, Bool.or_eq_true, decide_eq_true_eq]

variable (hbound : s.hart.bound = true) (htile : s.hart.tileIn c.base t = some (.clean b))
include hbound htile

omit hc hclean in
theorem State.freeSlot_of_same (hsame : s.reads (backing c.base t.val) tileSize = b.getN 0 tileSize) :
    (s.freeSlot s.hart c.base t).hart = s.hart.setTileIn c.base t .absent ∧ (s.freeSlot s.hart c.base t).cluster = s.cluster
      ∧ (s.freeSlot s.hart c.base t).mem = s.mem := by
  have hfree : s.freeSlot s.hart c.base t = s.onTask s.hart.task.serial fun h => h.setTileIn c.base t .absent := by
    simp only [State.freeSlot, htile, s.sameBacking_eq t c.base b htr, decide_eq_true hsame, if_true]
  rw [hfree]
  exact ⟨s.onTask_setTileIn_hart c.base t .absent hbound, rfl, rfl⟩

omit hc hclean in
theorem State.freeSlot_of_changed (hsame : ¬s.reads (backing c.base t.val) tileSize = b.getN 0 tileSize) :
    (s.freeSlot s.hart c.base t).hart = s.hart.setTileIn c.base t .absent ∧ (s.freeSlot s.hart c.base t).cluster = s.cluster
      ∧ (s.freeSlot s.hart c.base t).mem = s.mem.putRuns (s.keys (backing c.base t.val) tileSize) (b.getN 0 tileSize) := by
  obtain ⟨ls, ks, bl, hspill⟩ := s.spillTile_of_runs s.hart c.base t.val b _ (s.runs_ok _ _ htr)
  have hfree : s.freeSlot s.hart c.base t
      = (s.spillTile s.hart c.base t.val b).onTask s.hart.task.serial fun h => h.setTileIn c.base t .absent := by
    simp only [State.freeSlot, htile, s.sameBacking_eq t c.base b htr, decide_eq_false hsame, Bool.false_eq_true, if_false]
  rw [hfree, hspill]
  exact ⟨State.onTask_setTileIn_hart _ c.base t .absent hbound, rfl, rfl⟩

end

theorem exec_transferReplay (s : State) (hbound : s.hart.bound = true) (hstop : s.hart.stopping = false) :
    exec .transferReplay s = .next { s with hart := { s.hart with transfers := replayFirst s.hart.transfers } } := by
  show execTransferReplay s = _
  exact if_pos (by simp [hbound, hstop])

end Sys2Proof.Machine
end

section
/-! PROOFS of what an instruction leaves for later (R86, R166, R181, R183, R184). -/

namespace Sys2Proof.Machine

/-! ### Fences whose wait is over (R184) -/

/-- Stores wait for nothing that a fence's end would give. -/
theorem State.releaseFrom_of_stores (s : State) (kept ls : List Late)
    (h : ∀ l ∈ ls, ∃ a xs d pc y, l = .store a xs d pc y) :
    s.releaseFrom kept ls = s.onHart fun h => { h with late := kept ++ ls } := by
  induction ls generalizing kept with
  | nil => rw [List.append_nil, State.releaseFrom]
  | cons l r ih =>
    obtain ⟨hl, hr⟩ := List.forall_mem_cons.1 h
    obtain ⟨a, xs, d, pc, y, rfl⟩ := hl
    rw [State.releaseFrom]
    exact (ih (kept ++ [_]) hr).trans (by rw [List.append_assoc, List.singleton_append])

theorem State.releaseFences_of_stores (s : State) (h : ∀ l ∈ s.hart.late, ∃ a xs d pc y, l = .store a xs d pc y) :
    s.releaseFences = s := by
  rw [State.releaseFences, s.releaseFrom_of_stores [] _ h]
  rfl

/-- Every fence of a list has something before it that it waits for. -/
def fencesWait (ls : List Late) : Prop :=
  ∀ k m d pc y, ls[k]? = some (.fence m d pc y) → ∃ l ∈ ls.take k, l.ordered (.fence m d pc y) = true

theorem fencesWait_nil : fencesWait [] := fun k m d pc y h => by simp at h

theorem fencesWait_concat (ls : List Late) (l : Late) (h : fencesWait ls) (hl : l.isOver ls = false) :
    fencesWait (ls ++ [l]) := by
  intro k m d pc y hk
  rcases Nat.lt_trichotomy k ls.length with hlt | rfl | hgt
  · rw [List.getElem?_append_left hlt] at hk
    rw [List.take_append_of_le_length (by omega)]
    exact h k m d pc y hk
  · rw [List.getElem?_concat_length, Option.some.injEq] at hk
    subst hk
    rw [List.take_left]
    simpa [Late.isOver] using hl
  · simp [List.getElem?_eq_none (show (ls ++ [l]).length ≤ k by simp; omega)] at hk

theorem State.releaseFrom_fencesWait (s : State) (kept ls : List Late) (h : fencesWait kept) :
    fencesWait (s.releaseFrom kept ls).hart.late := by
  induction ls generalizing s kept with
  | nil => exact h
  | cons l r ih =>
    rw [State.releaseFrom]
    cases hl : l.isOver kept with
    | true => exact ih _ _ h
    | false => exact ih _ _ (fencesWait_concat kept l h hl)

/-! ### A late store (R86, R166, R181, R183, R213) -/

/-- What of an earlier entry a store is ordered behind (R181, R183, R184). -/
def Late.before (va : Nat) (bs : List Byte) (c : Fin 16) (k : Late) : Prop :=
  match k with
  | .store a xs d _ _ => d = c ∨ d = 15 ∨ c = 15 ∨ (a.toNat < va + bs.length ∧ va < a.toNat + xs.length)
  | .fence m _ _ _ => m.getLsbD c.val = true

theorem Late.ordered_store (k : Late) (v : Word) (bs : List Byte) (c : Fin 16) (pc : Word) (y : Nat) :
    k.ordered (.store v bs c pc y) = true ↔ k.before v.toNat bs c := by
  cases k <;> simp [Late.ordered, Late.before, or_assoc]

section
variable (n : Nat) (s : State) (v : Word) (bs : List Byte) (c : Fin 16) (pc : Word) (y : Nat)
  (hlate : s.hart.late[n]? = some (.store v bs c pc y))

/-- A late store has to wait: something earlier is ordered before it, or an older queued instruction may still fault. -/
def State.lateWaits (s : State) (n : Nat) (v : Word) (bs : List Byte) (c : Fin 16) (y : Nat) : Prop :=
  (∃ k ∈ s.hart.late.take n, k.before v.toNat bs c) ∨ ∃ q ∈ s.hart.vqueue.take y, q.sure = false

theorem State.lateWaits_iff : s.lateWaits n v bs c y ↔
    (((s.hart.late.take n).any fun k => k.ordered (.store v bs c pc y)) || (s.hart.vqueue.take y).any fun q => !q.sure)
      = true := by
  simp [State.lateWaits, Late.ordered_store]

include hlate

/-- The place of the store among those at its address names it. -/
theorem exec_accessPerforms : exec (.accessPerforms v ((s.hart.late.take n).filter fun k => k.isAt v).length) s = finish
    (if ((s.hart.late.take n).any fun k => k.ordered (.store v bs c pc y))
      || (s.hart.vqueue.take y).any fun q => !q.sure then .ok s
    else match (s.onHart fun h => { h with late := h.late.eraseIdx n }).performLate (.store v bs c pc y) with
      | .ok t => .ok t.releaseFences
      | .error a => .error ((s.onHart fun h => { h with late := h.late.eraseIdx n }).lateFault (s.hart.late.take n)
          (.store v bs c pc y) a)) := by
  show execAccessPerforms v _ s = _
  simp only [execAccessPerforms, lateIndex_count s.hart.late v n bs c pc y hlate, Option.getD_some, hlate]
  rfl

theorem exec_accessPerforms_waits (h : s.lateWaits n v bs c y) :
    exec (.accessPerforms v ((s.hart.late.take n).filter fun k => k.isAt v).length) s = .next s := by
  rw [exec_accessPerforms n s v bs c pc y hlate, if_pos ((s.lateWaits_iff n v bs c pc y).1 h)]
  rfl

variable (h : ¬s.lateWaits n v bs c y)
include h

theorem exec_accessPerforms_inStrip (hstrip : s.hart.inStrip = true) :
    exec (.accessPerforms v ((s.hart.late.take n).filter fun k => k.isAt v).length) s
      = .next ({ s with hart := { s.hart with
          late := s.hart.late.eraseIdx n, strip := s.hart.strip ++ [buffered v.toNat bs c] } } : State).releaseFences := by
  have hin : (s.onHart fun h => { h with late := h.late.eraseIdx n }).hart.inStrip = true := hstrip
  rw [exec_accessPerforms n s v bs c pc y hlate, if_neg (mt (s.lateWaits_iff n v bs c pc y).2 h)]
  simp only [State.performLate, hin, if_true]
  rfl

variable (hout : s.outside)
include hout

omit hlate h in
theorem State.performLate_outside : (s.onHart fun h => { h with late := h.late.eraseIdx n }).performLate (.store v bs c pc y)
    = ((s.onHart fun h => { h with late := h.late.eraseIdx n }).writeAt s.hart.task.asid v.toNat bs).map
      fun t => t.onHart fun h => h.wentPast v.toNat bs.length := by
  have hin : (s.onHart fun h => { h with late := h.late.eraseIdx n }).hart.inStrip = false := hout
  simp only [State.performLate, hin, Bool.false_eq_true, if_false]
  rfl

theorem exec_accessPerforms_writes (htr : s.translates v.toNat bs.length) :
    exec (.accessPerforms v ((s.hart.late.take n).filter fun k => k.isAt v).length) s
      = .next ({ s.counted v.toNat bs.length with
        mem := s.mem.putRuns (s.keys v.toNat bs.length) bs
        lines := s.lines.map fun (r : RemLine) => r.written s.hart.task.asid v.toNat bs
        baselines := (s.touch s.hart.task.asid v.toNat bs.length).baselines
        hart := { s.hart with late := s.hart.late.eraseIdx n }.wentPast v.toNat bs.length } : State).releaseFences := by
  rw [exec_accessPerforms n s v bs c pc y hlate, if_neg (mt (s.lateWaits_iff n v bs c pc y).2 h),
    s.performLate_outside n v bs c pc y hout,
    show (s.onHart fun h => { h with late := h.late.eraseIdx n }).writeAt s.hart.task.asid v.toNat bs = _ from
      (s.onHart fun h => { h with late := h.late.eraseIdx n }).writeAt_ok v.toNat bs htr]
  rfl

theorem exec_accessPerforms_lost (e : Nat) (he : s.runs s.hart.task.asid v.toNat bs.length = .error e) :
    exec (.accessPerforms v ((s.hart.late.take n).filter fun k => k.isAt v).length) s
      = .next ({ s with hart := { s.hart with pc := pc, late := s.hart.late.take n } }.terminate 0x21
        (BitVec.ofNat 64 e) 0 0) := by
  rw [exec_accessPerforms n s v bs c pc y hlate, if_neg (mt (s.lateWaits_iff n v bs c pc y).2 h),
    s.performLate_outside n v bs c pc y hout,
    show (s.onHart fun h => { h with late := h.late.eraseIdx n }).writeAt s.hart.task.asid v.toNat bs = _ from
      (s.onHart fun h => { h with late := h.late.eraseIdx n }).writeAt_error s.hart.task.asid v.toNat e bs he]
  rfl

end

end Sys2Proof.Machine
end

section
/-! PROOFS of accesses that count and translate (R164, R167, R171): what a run of accesses leaves of the leaves. -/

namespace Sys2Proof.Machine

/-- The state `t` differs from `s` in what translation reads only by accesses counted in the leaves, at most `k` in each (R171). -/
structure State.Worn (s t : State) (k : Nat) : Prop where
  fid : t.fid = s.fid
  vacant : t.vacant = s.vacant
  absent : t.absent = s.absent
  leaves : ∃ f : Leaf → Nat, (∀ l, f l ≤ l.accesses + k) ∧ t.leaves = s.leaves.map fun l => { l with accesses := f l }

theorem State.Worn.of_leaves {s t : State} (h : t.leaves = s.leaves) (hf : t.fid = s.fid) (hv : t.vacant = s.vacant)
    (ha : t.absent = s.absent) : s.Worn t 0 :=
  ⟨hf, hv, ha, fun l => l.accesses, fun _ => le_rfl, h.trans (List.map_id _).symm⟩

theorem State.Worn.trans {s t u : State} {k n : Nat} (h : s.Worn t k) (h' : t.Worn u n) : s.Worn u (k + n) := by
  obtain ⟨hf, hv, ha, f, hle, hl⟩ := h
  obtain ⟨hf', hv', ha', g, hle', hl'⟩ := h'
  refine ⟨hf'.trans hf, hv'.trans hv, ha'.trans ha, fun l => g { l with accesses := f l }, fun l => ?_, ?_⟩
  · have := hle l
    have := hle' { l with accesses := f l }
    dsimp only at this ⊢
    omega
  · rw [hl', hl, List.map_map]
    rfl

theorem State.count_worn (s : State) (asid va n : Nat) : s.Worn (s.count asid va n) 1 := by
  refine ⟨rfl, rfl, rfl, fun l => if pteMode l.pte = 3 && l.reached asid va n then l.accesses + 1 else l.accesses, fun l => ?_,
    List.map_congr_left fun l _ => ?_⟩ <;> dsimp only <;> split
  · exact le_rfl
  · omega
  · rfl
  · rfl

theorem State.writeAt_worn (s t : State) (asid va : Nat) (bs : List Byte) (h : s.writeAt asid va bs = .ok t) : s.Worn t 1 := by
  rw [State.writeAt] at h
  cases hr : s.runs asid va bs.length with
  | error a => rw [hr] at h; exact nomatch h
  | ok rs =>
    rw [hr] at h
    obtain rfl := Except.ok.inj h
    have hcount := State.count_worn (({ s with
      mem := s.mem.putRuns rs bs
      lines := s.lines.map fun (l : RemLine) => l.written asid va bs } : State).touch asid va bs.length)
      asid va bs.length
    exact ⟨hcount.fid, hcount.vacant, hcount.absent, hcount.leaves⟩

theorem State.Worn.translate {s t : State} {k : Nat} (h : s.Worn t k) (asid va : Nat) :
    t.translate asid va = s.translate asid va := by
  obtain ⟨hf, hv, ha, f, -, hl⟩ := h
  have hleaf : t.leafAt asid va = (s.leafAt asid va).map fun l => { l with accesses := f l } := by
    rw [State.leafAt, hl, List.find?_map]
    rfl
  simp only [State.translate, hleaf]
  cases s.leafAt asid va with
  | none => rfl
  | some l =>
    simp only [Option.map_some, State.isAbsent, State.frameKey, State.leafFid, hf, hv, ha]
    rfl

theorem State.Worn.translates {s t : State} {k : Nat} (h : s.Worn t k) (hh : t.hart = s.hart) (va n : Nat) :
    t.translates va n ↔ s.translates va n := by
  simp only [State.translates, h.translate, hh]

theorem State.Worn.keys {s t : State} {k : Nat} (h : s.Worn t k) (hh : t.hart = s.hart) (va n : Nat) :
    t.keys va n = s.keys va n := by
  simp only [State.keys, h.translate, hh]

theorem State.Worn.aligned {s t : State} {k : Nat} (h : s.Worn t k) (hal : ∀ l ∈ s.leaves, l.aligned) :
    ∀ l ∈ t.leaves, l.aligned := by
  obtain ⟨-, -, -, f, -, hl⟩ := h
  rw [hl]
  exact List.forall_mem_map.2 hal

/-- The accesses that are left before a page is busy. -/
theorem State.Worn.unworn {s t : State} {k n : Nat} (h : s.Worn t k) (hs : s.unworn (k + n)) : t.unworn n := by
  obtain ⟨-, -, -, f, hle, hl⟩ := h
  rw [State.unworn, hl]
  refine List.forall_mem_map.2 fun l hmem hmode => ?_
  have := hs l hmem hmode
  have := hle l
  dsimp only
  omega

theorem State.unworn_mono {s : State} {k n : Nat} (h : s.unworn n) (hkn : k ≤ n) : s.unworn k :=
  fun l hmem hmode => (Nat.add_le_add_left hkn _).trans (h l hmem hmode)

theorem State.atBusy_of_unworn {s : State} {n : Nat} (h : s.unworn n) (hn : 0 < n) (asid va m : Nat) :
    s.atBusy asid va m = false := by
  rw [State.atBusy, List.any_eq_false]
  intro l hmem
  have hidle : l.busy = false := by
    simp only [Leaf.busy, Bool.and_eq_false_iff, beq_eq_false_iff_ne, decide_eq_false_iff_not]
    refine Classical.or_iff_not_imp_left.2 fun hmode => ?_
    have := h l hmem (not_not.1 hmode)
    omega
  simp [hidle]

/-! ### Bytes within a page (R167) -/

theorem mem_pagesOf {va n p : Nat} : p ∈ pagesOf va n ↔ n ≠ 0 ∧ va / 65536 ≤ p ∧ p ≤ (va + n - 1) / 65536 := by
  by_cases hn : n = 0
  · simp [pagesOf, hn]
  · simp only [pagesOf, if_neg hn, List.mem_map, List.mem_range]
    constructor
    · rintro ⟨k, hk, rfl⟩
      omega
    · rintro ⟨-, hlo, hhi⟩
      exact ⟨p - va / 65536, by omega, by omega⟩

/-- The key of a byte for the hart in front. -/
def State.keyAt (s : State) (va : Nat) : Nat := (s.translate s.hart.task.asid va).getD 0

/-- A byte translates for the hart in front. -/
def State.maps (s : State) (va : Nat) : Prop := (s.translate s.hart.task.asid va).isSome = true

/-- Two addresses stand in one 64 KiB page. -/
theorem Leaf.maps_of_page (l : Leaf) (hl : l.aligned) (asid a b : Nat) (hpage : a / 65536 = b / 65536) :
    l.maps (spaceOf asid a) a = l.maps (spaceOf asid b) b := by
  have hspace : spaceOf asid a = spaceOf asid b := by
    have : a / 2 ^ 56 = b / 2 ^ 56 := by omega
    rw [spaceOf, spaceOf, bitOf, bitOf, this]
  have hsize : ∃ c, levelSize l.level = 65536 * c := by
    simp only [levelSize]
    split
    · exact ⟨16384, rfl⟩
    · split
      · exact ⟨32, rfl⟩
      · exact ⟨1, rfl⟩
  obtain ⟨c, hc⟩ := hsize
  have hlo : l.va ≤ a ↔ l.va ≤ b := by omega
  have hhi : a < l.va + levelSize l.level ↔ b < l.va + levelSize l.level := by omega
  simp only [Leaf.maps, hspace, hlo, hhi]

section
variable (s : State) (hal : ∀ l ∈ s.leaves, l.aligned)
include hal

theorem State.leafAt_of_page (asid a b : Nat) (hpage : a / 65536 = b / 65536) : s.leafAt asid a = s.leafAt asid b :=
  List.find?_congr fun l hl => l.maps_of_page (hal l hl) asid a b hpage

/-- A byte further on in the page has a key further on by as much. -/
theorem State.translate_of_page (asid a k : Nat) (hpage : a % 65536 + k < 65536) :
    s.translate asid (a + k) = (s.translate asid a).map (· + k) := by
  have hleaf := s.leafAt_of_page hal asid (a + k) a (by omega)
  simp only [State.translate, hleaf]
  cases hat : s.leafAt asid a with
  | none => rfl
  | some l =>
    have hva : l.va ≤ a := by
      have := List.find?_some hat
      simp only [Leaf.maps, Bool.and_eq_true, decide_eq_true_eq] at this
      omega
    simp only
    split
    · rfl
    · simp only [State.frameKey, Option.map_some, Option.some.injEq]
      omega

theorem State.maps_of_page (a k : Nat) (hpage : a % 65536 + k < 65536) : s.maps (a + k) ↔ s.maps a := by
  simp only [State.maps, s.translate_of_page hal _ a k hpage, Option.isSome_map]

theorem State.keyAt_of_page (a k : Nat) (hpage : a % 65536 + k < 65536) (ha : s.maps a) : s.keyAt (a + k) = s.keyAt a + k := by
  obtain ⟨key, hkey⟩ := Option.isSome_iff_exists.1 ha
  simp only [State.keyAt, s.translate_of_page hal _ a k hpage, hkey, Option.map_some, Option.getD_some]

/-- Bytes translate one by one where their pages do. -/
theorem State.translates_iff (va n : Nat) : s.translates va n ↔ ∀ k < n, s.maps (va + k) := by
  constructor
  · intro h k hk
    have hpage := h ((va + k) / 65536) (mem_pagesOf.2 (by omega))
    have hback : va + k = pieceLo va ((va + k) / 65536) + (va + k - pieceLo va ((va + k) / 65536)) := by
      simp only [pieceLo]
      omega
    rw [hback]
    exact (s.maps_of_page hal _ _ (by simp only [pieceLo]; omega)).2 hpage
  · intro h p hp
    obtain ⟨hn, hlo, hhi⟩ := mem_pagesOf.1 hp
    have := h (pieceLo va p - va) (by simp only [pieceLo]; omega)
    rwa [show va + (pieceLo va p - va) = pieceLo va p by simp only [pieceLo]; omega] at this

end

end Sys2Proof.Machine
end

section
/-! PROOFS of bytes written one by one at their keys (R167): what a write of a run does, page by page. -/

namespace Sys2Proof.Machine

/-- Two byte stores read the same. -/
def Bytes.Same (m n : Bytes) : Prop := ∀ j, m.get j = n.get j

/-- Write bytes from `a` up, each at its own key. -/
def Bytes.putAt (m : Bytes) (key : Nat → Nat) (a : Nat) (xs : List Byte) : Bytes :=
  match xs with
  | [] => m
  | x :: r => Bytes.putAt (m.put (key a) [x]) key (a + 1) r

theorem Bytes.Same.put {m n : Bytes} (h : m.Same n) (k : Nat) (xs : List Byte) : (m.put k xs).Same (n.put k xs) := fun j => by
  rw [Bytes.get_put, Bytes.get_put, h j]

theorem Bytes.Same.putRuns {m n : Bytes} (h : m.Same n) (rs : List (Nat × Nat)) (xs : List Byte) :
    (m.putRuns rs xs).Same (n.putRuns rs xs) := by
  induction rs generalizing m n xs with
  | nil => exact h
  | cons r rs ih => exact ih (h.put _ _) _

theorem Bytes.Same.putAt {m n : Bytes} (h : m.Same n) (key : Nat → Nat) (a : Nat) (xs : List Byte) :
    (m.putAt key a xs).Same (n.putAt key a xs) := by
  induction xs generalizing m n a with
  | nil => exact h
  | cons x r ih => exact ih (h.put _ _) _

theorem Bytes.putAt_append (m : Bytes) (key : Nat → Nat) (a : Nat) (xs ys : List Byte) :
    m.putAt key a (xs ++ ys) = (m.putAt key a xs).putAt key (a + xs.length) ys := by
  induction xs generalizing m a with
  | nil => rfl
  | cons x r ih =>
    rw [List.cons_append, Bytes.putAt, Bytes.putAt, ih, List.length_cons, Nat.add_right_comm, Nat.add_assoc]

theorem Bytes.put_nil_same (m : Bytes) (a : Nat) : (m.put a []).Same m := fun j => by
  rw [Bytes.get_put, if_neg (by simp)]

theorem Bytes.put_cons_same (m : Bytes) (k : Nat) (x : Byte) (r : List Byte) :
    (m.put k (x :: r)).Same ((m.put k [x]).put (k + 1) r) := fun j => by
  rw [Bytes.get_put, Bytes.get_put, Bytes.get_put]
  rcases Nat.lt_trichotomy j k with hlt | rfl | hgt
  · rw [if_neg (by omega), if_neg (by omega), if_neg (by omega)]
  · simp
  · have hoff : j - k = (j - (k + 1)) + 1 := by omega
    rw [if_neg (show ¬(k ≤ j ∧ j < k + [x].length) by simp; omega), hoff, List.getD_cons_succ]
    refine if_congr ?_ rfl rfl
    simp only [List.length_cons]
    omega

/-- A run whose keys ascend one by one. -/
theorem Bytes.put_same_putAt (m : Bytes) (key : Nat → Nat) (a : Nat) (xs : List Byte)
    (h : ∀ i < xs.length, key (a + i) = key a + i) : (m.put (key a) xs).Same (m.putAt key a xs) := by
  induction xs generalizing m a with
  | nil => exact m.put_nil_same (key a)
  | cons x r ih =>
    intro j
    cases r with
    | nil => rfl
    | cons y r =>
      have hnext : key (a + 1) = key a + 1 := h 1 (by simp)
      rw [Bytes.put_cons_same, ← hnext, ih _ (a + 1) (fun i hi => ?_)]
      · rfl
      · have := h (i + 1) (by simpa using hi)
        rw [hnext, Nat.add_assoc, Nat.add_comm 1 i, this]
        omega

/-! ### The runs of an access -/

theorem pagesOf_onePage {a n : Nat} (hn : n ≠ 0) (hpage : a % 65536 + n ≤ 65536) : pagesOf a n = [a / 65536] := by
  rw [pagesOf, if_neg hn, show (a + n - 1) / 65536 + 1 - a / 65536 = 1 by omega]
  rfl

theorem pagesOf_append {a n : Nat} (k : Nat) (hn : n ≠ 0) (hend : (a + n) % 65536 = 0) :
    pagesOf a (n + k) = pagesOf a n ++ pagesOf (a + n) k := by
  by_cases hk : k = 0
  · simp [hk, show pagesOf (a + n) 0 = [] from rfl]
  · have hsplit : (a + (n + k) - 1) / 65536 + 1 - a / 65536
        = ((a + n - 1) / 65536 + 1 - a / 65536) + ((a + n + k - 1) / 65536 + 1 - (a + n) / 65536) := by omega
    rw [pagesOf, pagesOf, pagesOf, if_neg (by omega), if_neg hn, if_neg hk, hsplit, List.range_add, List.map_append, List.map_map]
    congr 1
    refine List.map_congr_left fun p _ => ?_
    simp only [Function.comp]
    omega

theorem State.keys_onePage (s : State) {a n : Nat} (hn : n ≠ 0) (hpage : a % 65536 + n ≤ 65536) :
    s.keys a n = [(s.keyAt a, n)] := by
  have hlo : pieceLo a (a / 65536) = a := by simp only [pieceLo]; omega
  have hlen : pieceLen a n (a / 65536) = n := by simp only [pieceLen, hlo]; omega
  rw [State.keys, pagesOf_onePage hn hpage, List.map_singleton, hlo, hlen]
  rfl

theorem State.keys_append (s : State) {a n : Nat} (k : Nat) (hn : n ≠ 0) (hend : (a + n) % 65536 = 0) :
    s.keys a (n + k) = s.keys a n ++ s.keys (a + n) k := by
  rw [State.keys, State.keys, State.keys, pagesOf_append k hn hend, List.map_append]
  congr 1
  · refine List.map_congr_left fun p hp => ?_
    obtain ⟨-, hlo, hhi⟩ := mem_pagesOf.1 hp
    rw [show pieceLen a (n + k) p = pieceLen a n p by simp only [pieceLen]; omega]
  · refine List.map_congr_left fun p hp => ?_
    obtain ⟨-, hlo, hhi⟩ := mem_pagesOf.1 hp
    have hpiece : pieceLo a p = pieceLo (a + n) p := by simp only [pieceLo]; omega
    rw [hpiece, show pieceLen a (n + k) p = pieceLen (a + n) k p by simp only [pieceLen, hpiece]; omega]

section
variable (s : State) (hal : ∀ l ∈ s.leaves, l.aligned)
include hal

/-- A written run has each byte at its own translation. -/
theorem State.putRuns_keys_same (m : Bytes) (a : Nat) (bs : List Byte) (htr : s.translates a bs.length) :
    (m.putRuns (s.keys a bs.length) bs).Same (m.putAt s.keyAt a bs) := by
  by_cases hbs : bs.length = 0
  · obtain rfl := List.length_eq_zero_iff.1 hbs
    exact fun _ => rfl
  have hmaps := (s.translates_iff hal a bs.length).1 htr
  have hpage (n : Nat) (hn : n ≤ bs.length) (hfit : a % 65536 + n ≤ 65536) :
      (m.put (s.keyAt a) (bs.take n)).Same (m.putAt s.keyAt a (bs.take n)) :=
    m.put_same_putAt s.keyAt a _ fun i hi => by
      rw [List.length_take] at hi
      exact s.keyAt_of_page hal a i (by omega) (hmaps 0 (by omega))
  by_cases hone : a % 65536 + bs.length ≤ 65536
  · rw [s.keys_onePage hbs hone]
    have hall := hpage bs.length le_rfl hone
    rw [List.take_length] at hall
    rw [Bytes.putRuns, Bytes.putRuns, List.take_length]
    exact hall
  · obtain ⟨n, hn⟩ : ∃ n, n = 65536 - a % 65536 := ⟨_, rfl⟩
    have hlen : bs.length = n + (bs.drop n).length := by rw [List.length_drop]; omega
    have htake : (bs.take n).length = n := by rw [List.length_take]; omega
    have hrest : s.translates (a + n) (bs.drop n).length := (s.translates_iff hal _ _).2 fun k hk => by
      rw [Nat.add_assoc]
      exact hmaps (n + k) (by omega)
    have ih := State.putRuns_keys_same (m.put (s.keyAt a) (bs.take n)) (a + n) (bs.drop n) hrest
    have hkeys : s.keys a bs.length = (s.keyAt a, n) :: s.keys (a + n) (bs.drop n).length := by
      rw [hlen, s.keys_append _ (by omega) (by omega), s.keys_onePage (by omega) (by omega)]
      rfl
    intro j
    rw [hkeys, Bytes.putRuns, ih j, (hpage n (by omega) (by omega)).putAt s.keyAt (a + n) (bs.drop n) j]
    conv_rhs => rw [← List.take_append_drop n bs, Bytes.putAt_append, htake]
termination_by bs.length
decreasing_by rw [List.length_drop]; omega

end

/-! ### Writes one after another -/

/-- The state `t` is `s` with bytes written from `a` up, by at most `k` accesses. -/
structure State.Put (s t : State) (k a : Nat) (xs : List Byte) : Prop where
  worn : s.Worn t k
  hart : t.hart = s.hart
  cluster : t.cluster = s.cluster
  mem : t.mem.Same (s.mem.putAt s.keyAt a xs)

theorem State.Put.nil (s : State) (a : Nat) : s.Put s 0 a [] := ⟨.of_leaves rfl rfl rfl rfl, rfl, rfl, fun _ => rfl⟩

theorem State.Worn.keyAt {s t : State} {k : Nat} (h : s.Worn t k) (hh : t.hart = s.hart) : t.keyAt = s.keyAt := by
  funext va
  rw [State.keyAt, State.keyAt, h.translate, hh]

theorem State.Put.append {s t u : State} {k n a : Nat} {xs ys : List Byte} (h : s.Put t k a xs)
    (h' : t.Put u n (a + xs.length) ys) : s.Put u (k + n) a (xs ++ ys) where
  worn := h.worn.trans h'.worn
  hart := h'.hart.trans h.hart
  cluster := h'.cluster.trans h.cluster
  mem j := by
    rw [h'.mem j, h.worn.keyAt h.hart, Bytes.putAt_append]
    exact h.mem.putAt _ _ _ j

theorem State.writeAt_put (s : State) (hal : ∀ l ∈ s.leaves, l.aligned) (a : Nat) (bs : List Byte)
    (htr : s.translates a bs.length) :
    ∃ t, s.writeAt s.hart.task.asid a bs = .ok t ∧ s.Put t 1 a bs := by
  have hwrite := s.writeAt_ok a bs htr
  exact ⟨_, hwrite, ⟨s.writeAt_worn _ _ _ _ hwrite, rfl, rfl, s.putRuns_keys_same hal s.mem a bs htr⟩⟩

end Sys2Proof.Machine
end

section
/-! PROOFS of the granules of a written run (R156, R157). -/

namespace Sys2Proof.Machine

/-- Bytes at the places of a granule from `p` up. -/
def placesFrom (p : Nat) (xs : List Byte) : List (Nat × Byte) :=
  match xs with
  | [] => []
  | x :: r => (p, x) :: placesFrom (p + 1) r

/-- The granule of address `a` with bytes from there up. -/
def granuleAt (a : Nat) (xs : List Byte) : Granule :=
  { base := .mem (BitVec.ofNat 64 (a / 16 * 16)), bytes := placesFrom (a % 16) xs }

/-- The granules of a run of memory from `a` up: each holds what the run has of it. -/
def granulesFrom (a : Nat) (xs : List Byte) : List Granule :=
  match xs with
  | [] => []
  | x :: r =>
    granuleAt a ((x :: r).take (16 - a % 16)) :: granulesFrom (a + (16 - a % 16)) ((x :: r).drop (16 - a % 16))
termination_by xs.length
decreasing_by
  rw [List.length_drop, List.length_cons]
  omega

theorem placesFrom_append (p : Nat) (xs ys : List Byte) :
    placesFrom p (xs ++ ys) = placesFrom p xs ++ placesFrom (p + xs.length) ys := by
  induction xs generalizing p with
  | nil => rfl
  | cons x r ih => rw [List.cons_append, placesFrom, ih, List.length_cons, Nat.add_right_comm, Nat.add_assoc]; rfl

theorem mem_placesFrom {p : Nat} {xs : List Byte} {y : Nat × Byte} (h : y ∈ placesFrom p xs) : y.1 < p + xs.length := by
  induction xs generalizing p with
  | nil => exact nomatch h
  | cons x r ih =>
    rcases List.mem_cons.1 h with rfl | hr
    · simp
    · have := ih hr
      simp only [List.length_cons]
      omega

/-- Contiguous bytes are one run. -/
theorem placeRuns_placesFrom (p : Nat) (x : Byte) (r : List Byte) : placeRuns (placesFrom p (x :: r)) = [(p, x :: r)] := by
  induction r generalizing p x with
  | nil => rfl
  | cons y r ih =>
    rw [placesFrom, placeRuns, ih]
    exact if_pos rfl

theorem granuleAt_base {a : Nat} (xs : List Byte) (ha : a < 2 ^ 64) : (granuleAt a xs).base.byteAt 0 = a / 16 * 16 := by
  show (BitVec.ofNat 64 (a / 16 * 16)).toNat + 0 = _
  rw [BitVec.toNat_ofNat]
  omega

/-! ### Where a written byte goes -/

theorem setPlace_above (k : Nat) (b : Byte) (ps : List (Nat × Byte)) (h : ∀ y ∈ ps, y.1 < k) :
    setPlace k b ps = ps ++ [(k, b)] := by
  induction ps with
  | nil => rfl
  | cons y r ih =>
    rw [setPlace, if_pos (h y List.mem_cons_self), ih fun z hz => h z (List.mem_cons_of_mem _ hz)]
    rfl

/-- A byte past some granules goes behind them. -/
theorem addByte_append (d : Side) (a : Nat) (b : Byte) (gs rest : List Granule) (h : ∀ g ∈ gs, g.base.byteAt 0 < a / 16 * 16) :
    addByte d a b (gs ++ rest) = gs ++ addByte d a b rest := by
  induction gs with
  | nil => rfl
  | cons g r ih =>
    rw [List.cons_append, addByte, if_pos (h g List.mem_cons_self), ih fun z hz => h z (List.mem_cons_of_mem _ hz)]
    rfl

/-- A byte right behind those of the last granule joins it. -/
theorem addByte_granuleAt (v : Word) (a : Nat) (b : Byte) (xs : List Byte) (ha : a < 2 ^ 64) (hfit : a % 16 + xs.length < 16) :
    addByte (.mem v) (a + xs.length) b [granuleAt a xs] = [granuleAt a (xs ++ [b])] := by
  have hbase : (a + xs.length) / 16 * 16 = a / 16 * 16 := by omega
  have hplace : (a + xs.length) % 16 = a % 16 + xs.length := by omega
  rw [addByte, granuleAt_base xs ha, hbase, if_neg (Nat.lt_irrefl _), if_pos rfl, hplace]
  have hset := setPlace_above (a % 16 + xs.length) b (placesFrom (a % 16) xs) fun y hy => mem_placesFrom hy
  have happ := placesFrom_append (a % 16) xs [b]
  exact congrArg (fun ps => [{ (granuleAt a xs) with bytes := ps }]) (hset.trans happ.symm)

/-- The run's bytes from the `i`-th on enter granules. -/
def enterBytes (v : Word) (i : Nat) (xs : List Byte) (gs : List Granule) : List Granule :=
  (xs.zipIdx i).foldl (fun gs x => addByte (.mem v) (v.toNat + x.2) x.1 gs) gs

theorem enterBytes_cons (v : Word) (i : Nat) (x : Byte) (r : List Byte) (gs : List Granule) :
    enterBytes v i (x :: r) gs = enterBytes v (i + 1) r (addByte (.mem v) (v.toNat + i) x gs) := rfl

theorem enterBytes_append (v : Word) (i : Nat) (xs ys : List Byte) (gs : List Granule) :
    enterBytes v i (xs ++ ys) gs = enterBytes v (i + xs.length) ys (enterBytes v i xs gs) := by
  rw [enterBytes, List.zipIdx_append, List.foldl_append]
  rfl

section
variable (v : Word) (gs : List Granule)

/-- Bytes of the last granule join it. -/
theorem enterBytes_granuleAt (a : Nat) (xs ys : List Byte) (i : Nat) (hi : v.toNat + i = a + xs.length) (ha : a < 2 ^ 64)
    (hfit : a % 16 + xs.length + ys.length ≤ 16) (hgs : ∀ g ∈ gs, g.base.byteAt 0 < a / 16 * 16) :
    enterBytes v i ys (gs ++ [granuleAt a xs]) = gs ++ [granuleAt a (xs ++ ys)] := by
  induction ys generalizing xs i with
  | nil => rw [List.append_nil]; rfl
  | cons y r ih =>
    rw [List.length_cons] at hfit
    rw [enterBytes_cons, hi, addByte_append _ _ _ _ _ (fun g hg => ?_), addByte_granuleAt v a y xs ha (by omega),
      ih (xs ++ [y]) (i + 1) (by simp; omega) (by simp; omega), List.append_assoc]
    · rfl
    · rw [show (a + xs.length) / 16 * 16 = a / 16 * 16 by omega]
      exact hgs g hg

theorem enterBytes_eq (i : Nat) (xs : List Byte) (hend : v.toNat + i + xs.length ≤ 2 ^ 64)
    (hgs : ∀ g ∈ gs, g.base.byteAt 0 < (v.toNat + i) / 16 * 16) : enterBytes v i xs gs = gs ++ granulesFrom (v.toNat + i) xs := by
  obtain ⟨a, ha⟩ : ∃ a, a = v.toNat + i := ⟨_, rfl⟩
  rw [← ha] at hend hgs ⊢
  induction a, xs using granulesFrom.induct generalizing gs i with
  | case1 a => rw [granulesFrom, List.append_nil]; rfl
  | case2 a x r ih =>
    subst ha
    obtain ⟨n, hn⟩ : ∃ n, n = 16 - (v.toNat + i) % 16 := ⟨_, rfl⟩
    rw [List.length_cons] at hend
    have hfirst : enterBytes v i ((x :: r).take n) gs = gs ++ [granuleAt (v.toNat + i) ((x :: r).take n)] := by
      obtain ⟨k, rfl⟩ : ∃ k, n = k + 1 := ⟨n - 1, by omega⟩
      rw [List.take_succ_cons, enterBytes_cons]
      have hadd : addByte (.mem v) (v.toNat + i) x gs = gs ++ [granuleAt (v.toNat + i) [x]] := by
        have := addByte_append (.mem v) (v.toNat + i) x gs [] hgs
        rw [List.append_nil] at this
        exact this
      rw [hadd]
      exact enterBytes_granuleAt v gs (v.toNat + i) [x] (r.take k) (i + 1) rfl (by omega) (by simp; omega) hgs
    rw [← List.take_append_drop n (x :: r), enterBytes_append, hfirst, List.take_append_drop]
    by_cases hr : n ≤ r.length
    · have hlen : ((x :: r).take n).length = n := by rw [List.length_take, List.length_cons]; omega
      rw [← hn] at ih
      have hbelow : ∀ g ∈ gs ++ [granuleAt (v.toNat + i) ((x :: r).take n)], g.base.byteAt 0 < (v.toNat + i + n) / 16 * 16 := by
        intro g hg
        rcases List.mem_append.1 hg with hold | hnew
        · have := hgs g hold
          omega
        · obtain rfl := List.mem_singleton.1 hnew
          rw [granuleAt_base _ (by omega)]
          omega
      have := ih _ (i + n) hbelow (by rw [List.length_drop, List.length_cons]; omega) (Nat.add_assoc _ _ _)
      rw [hlen, this, List.append_assoc, granulesFrom, ← hn]
      rfl
    · have hdrop : (x :: r).drop n = [] := List.drop_eq_nil_of_le (by rw [List.length_cons]; omega)
      rw [hdrop, granulesFrom, ← hn, hdrop, granulesFrom]
      rfl

end

theorem granulesOf_mem (v : Word) (xs : List Byte) (hend : v.toNat + xs.length ≤ 2 ^ 64) :
    granulesOf (.mem v) xs = granulesFrom v.toNat xs :=
  enterBytes_eq v [] 0 xs hend fun _ hg => nomatch hg

/-! ### The granules of a run ascend -/

theorem granulesFrom_base_ge {a : Nat} {xs : List Byte} (hend : a + xs.length ≤ 2 ^ 64) {g : Granule}
    (hg : g ∈ granulesFrom a xs) :
    a / 16 * 16 ≤ g.base.byteAt 0 := by
  induction a, xs using granulesFrom.induct with
  | case1 a => rw [granulesFrom] at hg; exact nomatch hg
  | case2 a x r ih =>
    rw [List.length_cons] at hend
    rw [granulesFrom] at hg
    rcases List.mem_cons.1 hg with rfl | hrest
    · rw [granuleAt_base _ (by omega)]
    · by_cases hr : 16 - a % 16 ≤ r.length
      · have := ih (by rw [List.length_drop, List.length_cons]; omega) hrest
        omega
      · rw [List.drop_eq_nil_of_le (by rw [List.length_cons]; omega), granulesFrom] at hrest
        exact nomatch hrest

theorem granulesFrom_ascending (a : Nat) (xs : List Byte) (hend : a + xs.length ≤ 2 ^ 64) :
    (granulesFrom a xs).Pairwise fun g k => g.base.byteAt 0 < k.base.byteAt 0 := by
  induction a, xs using granulesFrom.induct with
  | case1 a => rw [granulesFrom]; exact .nil
  | case2 a x r ih =>
    rw [List.length_cons] at hend
    rw [granulesFrom]
    by_cases hr : 16 - a % 16 ≤ r.length
    · have hrest : a + (16 - a % 16) + ((x :: r).drop (16 - a % 16)).length ≤ 2 ^ 64 := by
        rw [List.length_drop, List.length_cons]; omega
      refine List.pairwise_cons.2 ⟨fun g hg => ?_, ih hrest⟩
      have := granulesFrom_base_ge hrest hg
      rw [granuleAt_base _ (by omega)]
      omega
    · rw [List.drop_eq_nil_of_le (by rw [List.length_cons]; omega), granulesFrom]
      exact List.pairwise_singleton _ _

/-- Granules that ascend join none of one another. -/
theorem joinGranule_append (gs : List Granule) (g : Granule) (h : ∀ k ∈ gs, k.base.byteAt 0 < g.base.byteAt 0) :
    joinGranule gs g = gs ++ [g] := by
  induction gs with
  | nil => rfl
  | cons k r ih =>
    have hne : ¬k.base = g.base := fun he => absurd (h k List.mem_cons_self) (by rw [he]; exact Nat.lt_irrefl _)
    rw [joinGranule, if_neg hne, ih fun z hz => h z (List.mem_cons_of_mem _ hz)]
    rfl

theorem insertGranule_append (gs : List Granule) (g : Granule) (h : ∀ k ∈ gs, k.base.byteAt 0 < g.base.byteAt 0) :
    insertGranule gs g = gs ++ [g] := by
  induction gs with
  | nil => rfl
  | cons k r ih =>
    have := h k List.mem_cons_self
    rw [insertGranule, if_neg (by omega), ih fun z hz => h z (List.mem_cons_of_mem _ hz)]
    rfl

/-- A fold that puts each later granule behind the ones before it changes nothing of a list that ascends. -/
theorem foldl_ascending (f : List Granule → Granule → List Granule)
    (hf : ∀ gs g, (∀ k ∈ gs, k.base.byteAt 0 < g.base.byteAt 0) → f gs g = gs ++ [g]) (ks gs : List Granule)
    (h : (ks ++ gs).Pairwise fun g k => g.base.byteAt 0 < k.base.byteAt 0) : gs.foldl f ks = ks ++ gs := by
  induction gs generalizing ks with
  | nil => exact (List.append_nil ks).symm
  | cons g r ih =>
    have hbelow : ∀ k ∈ ks, k.base.byteAt 0 < g.base.byteAt 0 :=
      fun k hk => (List.pairwise_append.1 h).2.2 k hk g List.mem_cons_self
    rw [List.foldl_cons, hf ks g hbelow, ih (ks ++ [g]) (by rwa [List.append_assoc]), List.append_assoc]
    rfl

/-! ### How many there are -/

theorem length_granulesFrom_le (a : Nat) (xs : List Byte) : (granulesFrom a xs).length ≤ (a % 16 + xs.length + 15) / 16 := by
  induction a, xs using granulesFrom.induct with
  | case1 a => rw [granulesFrom]; exact Nat.zero_le _
  | case2 a x r ih =>
    rw [List.length_drop, List.length_cons] at ih
    rw [granulesFrom, List.length_cons, List.length_cons]
    by_cases hr : 16 - a % 16 ≤ r.length
    · omega
    · rw [List.drop_eq_nil_of_le (by rw [List.length_cons]; omega), granulesFrom]
      simp only [List.length_nil]
      omega

/-- The first granules of a run that starts at one are those of its first bytes. -/
theorem take_granulesFrom (k a : Nat) (xs : List Byte) (ha : a % 16 = 0) :
    (granulesFrom a xs).take k = granulesFrom a (xs.take (16 * k)) := by
  induction k generalizing a xs with
  | zero => rw [Nat.mul_zero, List.take_zero, List.take_zero, granulesFrom]
  | succ k ih =>
    cases xs with
    | nil => rw [List.take_nil, granulesFrom, List.take_nil]
    | cons x r =>
      rw [Nat.mul_succ, List.take_succ_cons]
      rw [granulesFrom, granulesFrom, List.take_succ_cons, ha, Nat.sub_zero, ih (a + 16) _ (by omega)]
      rw [← List.take_succ_cons, List.take_take, List.drop_take, Nat.min_eq_left (by omega)]
      rfl

theorem lt_length_granulesFrom (k a : Nat) (xs : List Byte) (ha : a % 16 = 0) (hk : 16 * k < xs.length) :
    k < (granulesFrom a xs).length := by
  induction k generalizing a xs with
  | zero =>
    cases xs with
    | nil => exact absurd hk (Nat.not_lt_zero _)
    | cons x r => rw [granulesFrom]; exact Nat.succ_pos _
  | succ k ih =>
    cases xs with
    | nil => exact absurd hk (Nat.not_lt_zero _)
    | cons x r =>
      rw [List.length_cons] at hk
      rw [granulesFrom, List.length_cons, ha, Nat.sub_zero]
      exact Nat.succ_lt_succ (ih (a + 16) _ (by omega) (by rw [List.length_drop, List.length_cons]; omega))

/-! ### Granules written -/

/-- A granule that is written is one access (R156). -/
theorem State.writeGranule_granuleAt (s : State) (asid a : Nat) (x : Byte) (r : List Byte) (ha : a < 2 ^ 64) :
    s.writeGranule asid (granuleAt a (x :: r)) = s.writeAt asid a (x :: r) := by
  have hat : ((granuleAt a (x :: r)).base.at ((granuleAt a (x :: r)).base.byteAt 0 + a % 16)) = .mem (BitVec.ofNat 64 a) := by
    rw [granuleAt_base _ ha, Nat.div_add_mod']
    rfl
  have hva : (BitVec.ofNat 64 a).toNat = a := by rw [BitVec.toNat_ofNat]; omega
  rw [State.writeGranule, show (granuleAt a (x :: r)).bytes = placesFrom (a % 16) (x :: r) from rfl, placeRuns_placesFrom,
    List.foldlM_cons, hat]
  show (s.writeAt asid (BitVec.ofNat 64 a).toNat (x :: r)) >>= _ = _
  rw [hva]
  cases s.writeAt asid a (x :: r) <;> rfl

section
variable (s : State) (hal : ∀ l ∈ s.leaves, l.aligned)
include hal

theorem State.writeGranules_granulesFrom (a : Nat) (xs : List Byte) (hend : a + xs.length ≤ 2 ^ 64)
    (htr : s.translates a xs.length)
    (hun : s.unworn (granulesFrom a xs).length) :
    ∃ t, s.writeGranules s.hart.task.asid (granulesFrom a xs) = .ok (t, []) ∧ s.Put t (granulesFrom a xs).length a xs := by
  induction a, xs using granulesFrom.induct generalizing s with
  | case1 a => exact ⟨s, by rw [granulesFrom]; rfl, by rw [granulesFrom]; exact .nil s a⟩
  | case2 a x r ih =>
    obtain ⟨n, hn⟩ : ∃ n, n = 16 - a % 16 := ⟨_, rfl⟩
    obtain ⟨m, rfl⟩ : ∃ m, n = m + 1 := ⟨n - 1, by omega⟩
    have hmaps := (s.translates_iff hal _ _).1 htr
    rw [List.length_cons] at hend hmaps
    have hfirst : s.translates a (x :: r.take m).length := (s.translates_iff hal _ _).2 fun k hk => hmaps k (by
      rw [List.length_cons, List.length_take] at hk; omega)
    obtain ⟨t, hwrite, hput⟩ := s.writeAt_put hal a (x :: r.take m) hfirst
    rw [← hn] at ih
    rw [granulesFrom, ← hn, List.length_cons] at hun ⊢
    rw [List.take_succ_cons]
    have hbusy : s.granuleBusy s.hart.task.asid (granuleAt a (x :: r.take m)) = false :=
      State.atBusy_of_unworn hun (Nat.succ_pos _) _ _ _
    have hsplit : x :: r = (x :: r.take m) ++ (x :: r).drop (m + 1) := (List.take_append_drop (m + 1) (x :: r)).symm
    obtain ⟨u, hrest, hput'⟩ : ∃ u, t.writeGranules t.hart.task.asid (granulesFrom (a + (m + 1)) ((x :: r).drop (m + 1)))
      = .ok (u, [])
        ∧ t.Put u (granulesFrom (a + (m + 1)) ((x :: r).drop (m + 1))).length (a + (x :: r.take m).length)
          ((x :: r).drop (m + 1)) := by
      by_cases hr : m < r.length
      · have hlen : (x :: r.take m).length = m + 1 := by rw [List.length_cons, List.length_take]; omega
        rw [hlen]
        refine ih t (hput.worn.aligned hal) (by rw [List.length_drop, List.length_cons]; omega) ?_
          (hput.worn.unworn (by rwa [Nat.add_comm]))
        rw [hput.worn.translates hput.hart, s.translates_iff hal]
        intro k hk
        rw [List.length_drop, List.length_cons] at hk
        rw [Nat.add_assoc]
        exact hmaps _ (by omega)
      · rw [List.drop_eq_nil_of_le (by rw [List.length_cons]; omega), granulesFrom]
        exact ⟨t, rfl, .nil t _⟩
    rw [hput.hart] at hrest
    refine ⟨u, ?_, ?_⟩
    · rw [State.writeGranules, hbusy, s.writeGranule_granuleAt _ _ _ _ (by omega), hwrite]
      exact hrest
    · rw [Nat.add_comm]
      conv => arg 5; rw [hsplit]
      exact hput.append hput'

end

end Sys2Proof.Machine
end

section
/-! PROOFS of what an engine-queue entry does (R156, R171, R194, R222; log entry 39). -/

namespace Sys2Proof.Machine

/-! ### The source of a copy (R156) -/

theorem length_getRuns_keys (s : State) (m : Bytes) (a n : Nat) : (m.getRuns (s.keys a n)).length = n := by
  by_cases hn : n = 0
  · subst hn
    rfl
  by_cases hone : a % 65536 + n ≤ 65536
  · simp [s.keys_onePage hn hone, Bytes.getRuns]
  · obtain ⟨k, hk⟩ : ∃ k, k = 65536 - a % 65536 := ⟨_, rfl⟩
    have hlen : n = k + (n - k) := by omega
    have ih := length_getRuns_keys s m (a + k) (n - k)
    rw [hlen, s.keys_append _ (by omega) (by omega), s.keys_onePage (by omega) (by omega), Bytes.getRuns, List.flatMap_append,
      List.length_append, ← Bytes.getRuns, ← Bytes.getRuns, ih]
    simp [Bytes.getRuns]
termination_by n
decreasing_by omega

theorem RemLine.length_over (l : RemLine) (asid va : Nat) (bs : List Byte) : (l.over asid va bs).length = bs.length := by
  simp [RemLine.over]

theorem State.length_reads (s : State) (a n : Nat) : (s.reads a n).length = n := by
  have hover : ∀ (ls : List RemLine) (bs : List Byte),
      (ls.foldl (fun bs l => l.over s.hart.task.asid a bs) bs).length = bs.length := by
    intro ls
    induction ls with
    | nil => exact fun _ => rfl
    | cons l r ih => exact fun bs => (ih _).trans (l.length_over _ _ _)
  rw [State.reads, hover, length_getRuns_keys]

theorem Leaf.granules_le (l : Leaf) (asid a n : Nat) : l.granules asid a n ≤ (n + 30) / 16 := by
  rw [Leaf.granules]
  split
  · omega
  · exact Nat.zero_le _

section
variable (s : State) (asid n : Nat) (a : Word)

theorem State.countSide_worn : s.Worn (s.countSide asid (.mem a) n) ((n + 30) / 16) := by
  refine ⟨rfl, rfl, rfl, fun l => if pteMode l.pte = 3 then
      max l.accesses (min (l.accesses + l.granules asid a.toNat n) l.threshold) else l.accesses, fun l => ?_,
    List.map_congr_left fun l _ => ?_⟩ <;> dsimp only <;> split
  · have := l.granules_le asid a.toNat n
    omega
  · omega
  · rfl
  · rfl

theorem State.sideFits_of_unworn (h : s.unworn ((n + 30) / 16)) : s.sideFits asid (.mem a) n = true := by
  refine List.all_eq_true.2 fun l hl => ?_
  have := l.granules_le asid a.toNat n
  by_cases hmode : pteMode l.pte = 3
  · have hroom := h l hl hmode
    rw [Bool.or_eq_true, decide_eq_true_eq]
    exact .inr ((Nat.add_le_add_left this _).trans hroom)
  · simp [hmode]

theorem State.countSides_mem (h : s.unworn ((n + 30) / 16)) :
    s.countSides asid [(.mem a, n)] = (s.countSide asid (.mem a) n, true) := by
  rw [← s.sideFits_of_unworn asid n a h]
  rfl

end

theorem State.readMoves_mem (s : State) (a b : Word) (n : Nat) (htr : s.translates a.toNat n) (hend : b.toNat + n ≤ 2 ^ 64) :
    s.readMoves s.hart.task.asid [{ src := .mem a, dst := .mem b, len := n }]
      = .ok (granulesFrom b.toNat (s.reads a.toNat n)) := by
  have hend' : b.toNat + (s.reads a.toNat n).length ≤ 2 ^ 64 := by rwa [s.length_reads]
  have hread : s.readSide s.hart.task.asid (.mem a) n = .ok (s.reads a.toNat n) := s.readAt_ok _ _ htr
  have hasc := granulesFrom_ascending b.toNat (s.reads a.toNat n) hend'
  rw [State.readMoves, List.mapM_cons, List.mapM_nil, hread]
  show Except.ok (List.foldl insertGranule [] (List.foldl joinGranule []
    ([granulesOf (.mem b) (s.reads a.toNat n)] : List _).flatten)) = _
  rw [List.flatten_cons, List.flatten_nil, List.append_nil, granulesOf_mem b _ hend',
    foldl_ascending joinGranule joinGranule_append [] _ hasc, List.nil_append,
    foldl_ascending insertGranule insertGranule_append [] _ hasc, List.nil_append]

/-! ### The entry's place in its queue -/

theorem replaceEntry_none (pick : CopyEntry → Bool) (es : List CopyEntry) : replaceEntry pick none es = es.eraseP pick := by
  induction es with
  | nil => rfl
  | cons e r ih =>
    rw [replaceEntry, List.eraseP_cons, ih]
    cases pick e <;> rfl

section
variable (pick : CopyEntry → Bool) (es : List CopyEntry) (e : CopyEntry) (he : es.find? pick = some e)
include he

theorem replaceEntry_self : replaceEntry pick (some e) es = es := by
  induction es with
  | nil => rfl
  | cons k r ih =>
    rw [replaceEntry]
    cases hk : pick k with
    | true =>
      rw [List.find?_cons_of_pos hk] at he
      obtain rfl := Option.some.inj he
      rfl
    | false =>
      rw [List.find?_cons_of_neg (by simp [hk])] at he
      rw [ih he]
      rfl

theorem find?_replaceEntry (e' : CopyEntry) (h' : pick e' = true) : (replaceEntry pick (some e') es).find? pick = some e' := by
  induction es with
  | nil => exact nomatch he
  | cons k r ih =>
    rw [replaceEntry]
    cases hk : pick k with
    | true => exact List.find?_cons_of_pos h'
    | false =>
      rw [List.find?_cons_of_neg (by simp [hk])] at he
      exact (List.find?_cons_of_neg (by simp [hk])).trans (ih he)

end

/-! ### The slot a fill is for (R194) -/

def Cluster.filled (c : Cluster) (q : Fin 16) (slot : Nat) (bs : List Byte) : Cluster :=
  { c with queues := c.queues.set q.val ((c.queues.get q).map fun d => if d.id = slot then { d with bytes := some bs } else d) }

theorem Cluster.queues_filled (c : Cluster) (q : Fin 16) (slot : Nat) (bs : List Byte) (p : Fin 16) :
    (c.filled q slot bs).queues.get p = if p = q then
      (c.queues.get p).map fun d => if d.id = slot then { d with bytes := some bs } else d else c.queues.get p := by
  by_cases hp : p = q
  · subst hp
    rw [if_pos rfl]
    exact Vector.getElem_set_self _
  · rw [if_neg hp]
    exact Vector.getElem_set_ne q.isLt p.isLt fun h => hp (Fin.ext h.symm)

/-! ### An entry performs -/

section
variable (s : State) (q : Fin 8) (e : CopyEntry) (hbound : s.hart.bound = true) (hstop : s.hart.stopping = false)
  (he : s.hart.copies.find? (fun e => e.queue == q) = some e)
include hbound hstop he

theorem exec_copyEntryPerforms (k : Option Nat) (u : State) (left : Option CopyEntry)
    (hperform : s.perform s.hart.task.asid e k = .ok (u, left)) : exec (.copyEntryPerforms ⟨q, k⟩) s
      = .next { u with hart := { u.hart with copies := replaceEntry (fun e => e.queue == q) left u.hart.copies } } := by
  show execCopyEntryPerforms ⟨q, k⟩ s = _
  rw [execCopyEntryPerforms, if_pos (by simp [hbound, hstop]), State.performOne]
  simp only [he, hperform]
  rfl

theorem exec_copyEntryPerforms_part (gs r : List Granule) (k : Nat) (u : State) (hwork : e.work = .writing gs)
    (hk : k < gs.length)
    (hwrite : s.writeGranules s.hart.task.asid (gs.take k) = .ok (u, r)) :
    let left := r ++ gs.drop k
    exec (.copyEntryPerforms ⟨q, some k⟩) s = .next { u with hart := { u.hart with
      copies := replaceEntry (fun e => e.queue == q)
        (some { e with work := .writing left, granules := e.granules + (gs.length - left.length) }) u.hart.copies } } := by
  intro left
  refine exec_copyEntryPerforms s q e hbound hstop he (some k) u _ ?_
  have hleft : left ≠ [] := by simp [left]; omega
  simp only [State.perform, hwork, State.advance, Option.getD_some, hwrite]
  exact congrArg (fun o => Except.ok (u, o)) (if_neg hleft)

theorem exec_copyEntryPerforms_waits (g : Granule) (r : List Granule) (hwork : e.work = .writing (g :: r))
    (hbusy : s.granuleBusy s.hart.task.asid g = true) : exec (.copyEntryPerforms ⟨q, none⟩) s = .next s := by
  have hself : { e with work := .writing (g :: r), granules := e.granules + ((g :: r).length - (g :: r).length) } = e := by
    rw [Nat.sub_self, ← hwork]
    rfl
  rw [exec_copyEntryPerforms s q e hbound hstop he none s (some e) ?_, replaceEntry_self _ _ _ he]
  simp only [State.perform, hwork, State.advance, Option.getD_none, List.take_length, List.drop_length, List.append_nil,
    State.writeGranules, hbusy, if_true]
  exact congrArg (fun o => Except.ok (s, o)) ((if_neg (List.cons_ne_nil g r)).trans (congrArg some hself))

theorem exec_copyEntryPerforms_fill (a : Word) (dq : Fin 16) (k : Nat) (hwork : e.work = .fill (.mem a) dq k)
    (htr : s.translates a.toNat 128) (hun : s.unworn 9) :
    ∃ u, exec (.copyEntryPerforms ⟨q, none⟩) s = .next u
      ∧ u.hart = { s.hart with copies := s.hart.copies.eraseP fun e => e.queue == q } ∧ u.mem = s.mem
      ∧ ∀ c : Fin 16, u.cluster.queues.get c = if c = dq then
          (s.cluster.queues.get c).map fun d => if d.id = k then { d with bytes := some (s.reads a.toNat 128) } else d
        else s.cluster.queues.get c := by
  have hread : s.readSide s.hart.task.asid (.mem a) 128 = .ok (s.reads a.toNat 128) := s.readAt_ok _ _ htr
  have hperform : s.perform s.hart.task.asid e none = .ok ((s.countSide s.hart.task.asid (.mem a) 128).onCluster
      fun c => c.filled dq k (s.reads a.toNat 128), none) := by
    simp only [State.perform, hwork, s.countSides_mem _ 128 a hun, hread]
    rfl
  refine ⟨_, exec_copyEntryPerforms s q e hbound hstop he none _ none hperform, ?_, rfl, fun c => ?_⟩
  · rw [replaceEntry_none]
    rfl
  · exact s.cluster.queues_filled dq k (s.reads a.toNat 128) c

/-! ### A copy from memory to memory (R155 to R157) -/

section
variable (a b : Word) (n : Nat) (hwork : e.work = .copy [{ src := .mem a, dst := .mem b, len := n }])
  (hsrc : s.translates a.toNat n) (hdst : s.translates b.toNat n) (hal : ∀ l ∈ s.leaves, l.aligned)
  (hend : b.toNat + n ≤ 2 ^ 64) (hun : s.unworn (n / 8 + 4))
include hdst hal hend hun

omit hbound hstop he in
/-- The first granules of a copy are written once its source is counted. -/
theorem State.copy_put (xs ys : List Byte) (hxs : s.reads a.toNat n = xs ++ ys) :
    ∃ u, (s.countSide s.hart.task.asid (.mem a) n).writeGranules s.hart.task.asid (granulesFrom b.toNat xs) = .ok (u, [])
      ∧ u.hart = s.hart ∧ u.cluster = s.cluster ∧ u.mem.Same (s.mem.putRuns (s.keys b.toNat xs.length) xs) := by
  have hlen : xs.length + ys.length = n := by rw [← List.length_append, ← hxs, s.length_reads]
  have hworn := s.countSide_worn s.hart.task.asid n a
  have hxstr : s.translates b.toNat xs.length := (s.translates_iff hal _ _).2 fun k hk =>
    (s.translates_iff hal _ _).1 hdst k (by omega)
  have hgran := length_granulesFrom_le b.toNat xs
  obtain ⟨u, hwrite, hput⟩ := (s.countSide s.hart.task.asid (.mem a) n).writeGranules_granulesFrom (hworn.aligned hal) b.toNat xs
    (by omega) ((hworn.translates rfl _ _).2 hxstr) (hworn.unworn (State.unworn_mono hun (by omega)))
  refine ⟨u, hwrite, hput.hart, hput.cluster, fun j => ?_⟩
  rw [hput.mem j, s.putRuns_keys_same hal s.mem b.toNat xs hxstr j, hworn.keyAt rfl]
  rfl

include hwork hsrc

omit hbound hstop he hdst hal in
theorem State.perform_copy (k : Option Nat) : s.perform s.hart.task.asid e k
    = (s.countSide s.hart.task.asid (.mem a) n).advance s.hart.task.asid e (granulesFrom b.toNat (s.reads a.toNat n)) k := by
  have hcount := s.countSides_mem s.hart.task.asid n a (State.unworn_mono hun (by omega))
  have hread := s.readMoves_mem a b n hsrc hend
  simp only [State.perform, hwork, List.map_cons, List.map_nil, hcount, hread]
  rfl

theorem exec_copyEntryPerforms_copy : ∃ u, exec (.copyEntryPerforms ⟨q, none⟩) s = .next u
    ∧ u.hart = { s.hart with copies := s.hart.copies.eraseP fun e => e.queue == q } ∧ u.cluster = s.cluster
    ∧ ∀ j, u.mem.get j = (s.mem.putRuns (s.keys b.toNat n) (s.reads a.toNat n)).get j := by
  obtain ⟨u, hwrite, hh, hc, hm⟩ := s.copy_put a b n hdst hal hend hun (s.reads a.toNat n) [] (List.append_nil _).symm
  have hperform : s.perform s.hart.task.asid e none = .ok (u, none) := by
    rw [s.perform_copy e a b n hwork hsrc hend hun none]
    simp only [State.advance, Option.getD_none, List.take_length, hwrite, List.drop_length]
    rfl
  refine ⟨_, exec_copyEntryPerforms s q e hbound hstop he none u none hperform, ?_, hc, ?_⟩
  · rw [replaceEntry_none]
    simp only [hh]
  · rw [s.length_reads] at hm
    exact hm

theorem exec_copyEntryPerforms_copyPart (k : Nat) (hk : 16 * k < n) (hb : b.toNat % 16 = 0) :
    ∃ u, exec (.copyEntryPerforms ⟨q, some k⟩) s = .next u
      ∧ u.hart.copies.find? (fun e => e.queue == q) = some { e with
          work := .writing ((granulesOf (.mem b) (s.reads a.toNat n)).drop k), granules := e.granules + k }
      ∧ ∀ j, u.mem.get j = (s.mem.putRuns (s.keys b.toNat (16 * k)) ((s.reads a.toNat n).take (16 * k))).get j := by
  obtain ⟨u, hwrite, hh, hc, hm⟩ := s.copy_put a b n hdst hal hend hun ((s.reads a.toNat n).take (16 * k))
    ((s.reads a.toNat n).drop (16 * k)) (List.take_append_drop _ _).symm
  have hlen : ((s.reads a.toNat n).take (16 * k)).length = 16 * k := by rw [List.length_take, s.length_reads]; omega
  obtain ⟨gs, hgs⟩ : ∃ gs, gs = granulesFrom b.toNat (s.reads a.toNat n) := ⟨_, rfl⟩
  have hmore : k < gs.length := hgs ▸ lt_length_granulesFrom k b.toNat _ hb (by rwa [s.length_reads])
  have hperform : s.perform s.hart.task.asid e (some k)
      = .ok (u, some { e with work := .writing (gs.drop k), granules := e.granules + k }) := by
    have hleft : gs.drop k ≠ [] := by simp; omega
    have hcount : gs.length - (gs.drop k).length = k := by rw [List.length_drop]; omega
    have htake : gs.take k = granulesFrom b.toNat ((s.reads a.toNat n).take (16 * k)) := hgs ▸ take_granulesFrom k _ _ hb
    rw [s.perform_copy e a b n hwork hsrc hend hun (some k), ← hgs]
    simp only [State.advance, Option.getD_some, htake, hwrite, Except.map, List.nil_append, if_neg hleft, hcount]
  refine ⟨_, exec_copyEntryPerforms s q e hbound hstop he (some k) u _ hperform, ?_, ?_⟩
  · rw [granulesOf_mem b _ (by rwa [s.length_reads]), ← hgs]
    have hcopies : u.hart.copies = s.hart.copies := by rw [hh]
    exact find?_replaceEntry _ _ e (by rw [hcopies, he]) _ (List.find?_some he :)
  · rw [hlen] at hm
    exact hm

end

end

/-- The parts of what the engines of the hart in front do. -/
theorem enginesCopyFillAndSpill : Sys2Proof.Says.EnginesCopyFillAndSpill := by
  intro q t s hbound hstop
  refine ⟨fun e he => ⟨fun a b n hwork hsrc hdst hal hend hun => ⟨?_, fun k hk hb => ?_⟩, fun gs k u r hwork hk hwrite => ?_,
    fun g r hwork hbusy => ?_, fun a dq k hwork htr hun => ?_⟩, fun x hx habsent hslot htr => ?_, fun c b hc _ hx => ?_,
    fun x b hx hdirty => ⟨fun htr => ?_, fun e' he' => ?_⟩, fun c b hc htile hclean htr =>
      ⟨fun hleave => ?_, fun hchanged hro => ?_⟩, ?_⟩
  · exact exec_copyEntryPerforms_copy s q e hbound hstop he a b n hwork hsrc hdst hal hend hun
  · exact exec_copyEntryPerforms_copyPart s q e hbound hstop he a b n hwork hsrc hdst hal hend hun k hk hb
  · exact exec_copyEntryPerforms_part s q e hbound hstop he gs r k u hwork hk hwrite
  · exact exec_copyEntryPerforms_waits s q e hbound hstop he g r hwork hbusy
  · exact exec_copyEntryPerforms_fill s q e hbound hstop he a dq k hwork htr hun
  · exact exec_tileFillDone t s x hx habsent hslot htr
  · exact exec_tileSpillStart t s c hstop hc hx
  · exact exec_tileSpillDone t s x b hx hdirty htr
  · exact exec_tileSpillDone_lost t s x b hx hdirty e' he'
  · refine ⟨_, (exec_slotReclaim t s c b hc hclean htr).trans (congrArg Host.Outcome.next (if_pos hleave)), ?_⟩
    by_cases hsame : s.reads (backing c.base t.val) tileSize = b.getN 0 tileSize
    · obtain ⟨hh, hcl, hm⟩ := s.freeSlot_of_same t c b htr hbound htile hsame
      exact ⟨hh, hcl, fun _ => hm, fun h => absurd hsame h⟩
    · obtain ⟨hh, hcl, hm⟩ := s.freeSlot_of_changed t c b htr hbound htile hsame
      exact ⟨hh, hcl, fun h => absurd h hsame, fun _ => hm⟩
  · refine (exec_slotReclaim t s c b hc hclean htr).trans (congrArg Host.Outcome.next (if_neg ?_))
    exact not_or.2 ⟨hchanged, by simp [hro]⟩
  · exact exec_transferReplay s hbound hstop

end Sys2Proof.Machine
end

section
/-! PROOFS of the oldest queued instruction's turn (R86, R316, R317): it goes on, or stays. -/

namespace Sys2Proof.Machine

/-! ### An instruction that falls through has gone on (R317) -/

theorem loopEnd_length (pc : Word) (st : List Loop) : (loopEnd pc st).1.length ≤ st.length := by
  induction st with
  | nil => exact le_rfl
  | cons l r ih =>
    rw [loopEnd]
    split
    · split
      · exact le_rfl
      · exact ih.trans (Nat.le_succ _)
    · exact le_rfl

/-- Where a body repeats, its entry has a trip less. -/
theorem loopEnd_changes (pc : Word) (st : List Loop) : (loopEnd pc st).2 = none ∨ (loopEnd pc st).1 ≠ st := by
  cases st with
  | nil => exact .inl rfl
  | cons l r =>
    rw [loopEnd]
    split
    · split
      · refine .inr fun h => ?_
        have hcount : l.count - 1 = l.count := congrArg Loop.count (List.cons.inj h).1
        bv_omega
      · refine .inr fun h => ?_
        have := loopEnd_length pc r
        rw [h, List.length_cons] at this
        omega
    · exact .inl rfl

/-- The stack of the hart's level, where that one was replaced. -/
theorem loops_replaced (c : Prop) [Decidable c] (l t k : List Loop) :
    (if c then (if c then l else t) else if c then k else l) = l := by
  split <;> rfl

theorem State.falls_loops (s : State) : s.falls.hart.loops = (loopEnd s.hart.pc s.hart.loops).1 :=
  loops_replaced _ _ _ _

/-- The pc of an instruction that falls through has changed, or its loop stack. -/
theorem State.falls_moves (s : State) : s.falls.hart.pc ≠ s.hart.pc ∨ s.falls.hart.loops ≠ s.hart.loops := by
  rcases loopEnd_changes s.hart.pc s.hart.loops with hnone | hstack
  · refine .inl ?_
    have hpc : s.falls.hart.pc = s.hart.pc + 4 := by
      show s.fallPc = _
      rw [State.fallPc, hnone, Option.getD_none]
    rw [hpc]
    intro h
    bv_omega
  · exact .inr (s.falls_loops ▸ hstack)

theorem Hart.wentFrom_iff (h k : Hart) : h.wentFrom k = true ↔ k.pc ≠ h.pc ∨ k.loops ≠ h.loops := by
  simp [Hart.wentFrom]

/-! ### The state a queued instruction runs on -/

theorem Hart.setLoops_eq (h : Hart) (l : List Loop) : h.setLoops l
    = { h with loopT := if h.level = .t then l else h.loopT, loopK := if h.level = .t then h.loopK else l } := by
  unfold Hart.setLoops
  split <;> rfl

theorem State.atQueued_eq (s : State) (q : Queued) : s.atQueued q =
    { s with
      how := .without q.done q.taken
      hart := { s.hart with
        loaded := [], unitsDone := [], late := s.hart.late.filter fun l => l.young == 0
        pc := q.pc, x := q.x, vl := q.vl, vstart := 0, classmap := q.classmap, seed := q.seed, stripbase := q.stripbase
        rmode := q.rmode, lent := q.lent, vqueue := []
        loopT := if s.hart.level = .t then q.loops else s.hart.loopT
        loopK := if s.hart.level = .t then s.hart.loopK else q.loops } } := by
  simp only [State.atQueued, Hart.asIssued, Hart.setLoops_eq]
  rfl

theorem State.atQueued_loops (s : State) (q : Queued) : (s.atQueued q).hart.loops = q.loops := by
  rw [State.atQueued_eq]
  exact loops_replaced _ _ _ _

theorem State.atQueued_pc (s : State) (q : Queued) : (s.atQueued q).hart.pc = q.pc := by rw [State.atQueued_eq]

theorem State.atQueued_level (s : State) (q : Queued) : (s.atQueued q).hart.level = s.hart.level := by rw [State.atQueued_eq]

/-! ### Its turn -/

section
variable (s : State) (q : Queued) (r : List Queued) (hb : s.hart.bound = true) (hq : s.hart.vqueue = q :: r)
  (t : State) (ht : runQueued q.i (s.atQueued q) = some (.next t)) (hbound : t.hart.bound = true)
  (hlevel : t.hart.level = s.hart.level)
include hb hq ht hbound hlevel

theorem exec_queuedInstructionRetires : exec (.queuedInstructionRetires q.pc 0) s =
    .next (if (s.atQueued q).hart.wentFrom t.hart then
      { t with how := s.how, hart := { (t.hart.asBefore s.hart q).aged with vqueue := r } }
    else { t with how := s.how, hart := { t.hart.asBefore s.hart q with
      vqueue := { q with done := q.done ++ t.hart.unitsDone } :: r } }) := by
  show execQueuedInstructionRetires q.pc 0 s = _
  rw [execQueuedInstructionRetires_oldest s q r hq hb]
  simp only [State.retireOldest, hq, ht, hbound, hlevel, beq_self_eq_true, Bool.and_self, Bool.not_true, Bool.false_eq_true,
    if_false]
  split <;> rfl

theorem exec_queuedInstructionRetires_goes (h : t.hart.pc ≠ q.pc ∨ t.hart.loops ≠ q.loops) :
    exec (.queuedInstructionRetires q.pc 0) s =
      .next { t with how := s.how, hart := { (t.hart.asBefore s.hart q).aged with vqueue := r } } := by
  rw [exec_queuedInstructionRetires s q r hb hq t ht hbound hlevel, if_pos]
  rw [Hart.wentFrom_iff, s.atQueued_pc q, s.atQueued_loops q]
  exact h

theorem exec_queuedInstructionRetires_stays (hpc : t.hart.pc = q.pc) (hloops : t.hart.loops = q.loops) :
    exec (.queuedInstructionRetires q.pc 0) s = .next { t with how := s.how, hart := { t.hart.asBefore s.hart q with
      vqueue := { q with done := q.done ++ t.hart.unitsDone } :: r } } := by
  rw [exec_queuedInstructionRetires s q r hb hq t ht hbound hlevel, if_neg]
  rw [Hart.wentFrom_iff, s.atQueued_pc q, s.atQueued_loops q]
  exact not_or.2 ⟨not_not.2 hpc, not_not.2 hloops⟩

end

/-- An instruction that falls through goes on. -/
theorem exec_queuedInstructionRetires_falls (s : State) (q : Queued) (r : List Queued) (hb : s.hart.bound = true)
    (hq : s.hart.vqueue = q :: r) (u : State) (hu : runQueued q.i (s.atQueued q) = some (.next u.falls))
    (hbound : u.hart.bound = true) (hlevel : u.hart.level = s.hart.level) (hpc : u.hart.pc = q.pc)
    (hloops : u.hart.loops = q.loops) :
    exec (.queuedInstructionRetires q.pc 0) s =
      .next { u with how := s.how, hart := { (u.falls.hart.asBefore s.hart q).aged with vqueue := r } } := by
  have hmoves := u.falls_moves
  rw [hpc, hloops] at hmoves
  exact exec_queuedInstructionRetires_goes s q r hb hq u.falls hu hbound hlevel hmoves

/-! ### Its effects (R86) -/

/-- What a vector instruction changes of the hart and the package: vector registers, the open strip, memory, and what stands by
address. -/
structure Effects where
  v : Vector Bytes 32
  strip : List StripStore
  mem : Bytes
  lines : List RemLine
  leaves : List Leaf
  baselines : List Baseline

/-- The state with these effects. -/
def State.having (s : State) (f : Effects) : State :=
  { s with
    hart := { s.hart with v := f.v, strip := f.strip }
    mem := f.mem, lines := f.lines, leaves := f.leaves, baselines := f.baselines }

/-- No effects. -/
def State.asIs (s : State) : Effects :=
  { v := s.hart.v, strip := s.hart.strip, mem := s.mem, lines := s.lines, leaves := s.leaves, baselines := s.baselines }

/-- A queued instruction writes no scalar register, and not `VL`. -/
def vectorOnly (i : Instr) : Prop := ∀ q : Queued, ({ q with i := i } : Queued).writes = []
    ∧ ({ q with i := i } : Queued).writesVl = false

/-- Of one that writes no scalar register the scalar stream keeps all it has reached. -/
theorem Hart.asBefore_vectorOnly (h k : Hart) (q : Queued) (hq : vectorOnly q.i) : h.asBefore k q =
    { h with
      late := k.late, loaded := k.loaded, unitsDone := k.unitsDone, pc := k.pc, x := k.x, vl := k.vl, vstart := k.vstart
      classmap := k.classmap, seed := k.seed, stripbase := k.stripbase, rmode := k.rmode, lent := k.lent, loopT := k.loopT
      loopK := k.loopK } := by
  obtain ⟨hwrites, hvl⟩ : q.writes = [] ∧ q.writesVl = false := hq q
  rw [Hart.asBefore, hwrites, hvl]
  rfl

theorem exec_queuedInstructionRetires_having (s : State) (q : Queued) (r : List Queued) (hb : s.hart.bound = true)
    (hq : s.hart.vqueue = q :: r) (hvec : vectorOnly q.i) (f : Effects)
    (hrun : runQueued q.i (s.atQueued q) = some (.next ((s.atQueued q).having f).falls)) :
    exec (.queuedInstructionRetires q.pc 0) s = .next { s.having f with
      hart := { (s.having f).hart with vqueue := r, late := s.hart.late.map Late.aged } } := by
  have hbound : ((s.atQueued q).having f).hart.bound = true := by
    rw [State.atQueued_eq]
    exact hb
  rw [exec_queuedInstructionRetires_falls s q r hb hq _ hrun hbound (s.atQueued_level q) (s.atQueued_pc q) (s.atQueued_loops q),
    Hart.asBefore_vectorOnly _ _ _ hvec, State.atQueued_eq]
  rfl

end Sys2Proof.Machine
end

section
/-! PROOFS of the elements that a vector instruction writes (R63, R80, R353). -/

namespace Sys2Proof.Machine

/-! ### Elements of a register -/

theorem elem_setElem (b : Bytes) (i k w v : Nat) (hw : w % 8 = 0) :
    elem (setElem b i w v) k w = if k = i then v % 2 ^ w else elem b k w := by
  have hbytes : 8 * (w / 8) = w := by omega
  rw [elem, setElem, Bytes.val, elem, Bytes.val]
  by_cases hk : k = i
  · subst hk
    have hsame := Bytes.getN_put_same b (k * (w / 8)) (leBytes (w / 8) v)
    rw [length_leBytes] at hsame
    rw [if_pos rfl, hsame, leVal_leBytes, hbytes]
  · rw [if_neg hk, Bytes.getN_put_apart]
    rw [length_leBytes]
    rcases Nat.lt_or_gt_of_ne hk with hlt | hgt
    · exact .inl ((Nat.succ_mul k _).symm.le.trans (Nat.mul_le_mul_right _ hlt))
    · exact .inr ((Nat.succ_mul i _).symm.le.trans (Nat.mul_le_mul_right _ hgt))

/-- Each element of a list of indices gets its own result. -/
theorem elem_putElems (b : Bytes) (w : Nat) (hw : w % 8 = 0) (ks : List Nat) (f : Nat → Nat) (k : Nat) :
    elem (putElems b w (ks.map fun i => (i, f i))) k w = if k ∈ ks then f k % 2 ^ w else elem b k w := by
  induction ks generalizing b with
  | nil => rfl
  | cons i r ih =>
    show elem (putElems (setElem b i w (f i)) w (r.map fun i => (i, f i))) k w = _
    rw [ih, elem_setElem b i k w _ hw]
    by_cases hr : k ∈ r
    · rw [if_pos hr, if_pos (List.mem_cons_of_mem _ hr)]
    · by_cases hk : k = i
      · subst hk
        rw [if_neg hr, if_pos rfl, if_pos List.mem_cons_self]
      · rw [if_neg hr, if_neg hk, if_neg fun h => (List.mem_cons.1 h).elim hk hr]

theorem Hart.getV_setV (h : Hart) (d r : VReg) (b : Bytes) : (h.setV d b).getV r = if r = d then b else h.getV r := by
  by_cases hr : r = d
  · subst hr
    rw [if_pos rfl]
    exact Vector.getElem_set_self _
  · rw [if_neg hr]
    exact Vector.getElem_set_ne d.isLt r.isLt fun he => hr (Fin.ext he.symm)

/-- The registers that receive results change, and no other. -/
theorem Hart.writeElems_eq (h : Hart) (d : VReg) (w : Nat) (rs : List (Nat × Nat)) :
    h.writeElems d w rs = { h with v := (h.writeElems d w rs).v } := by
  unfold Hart.writeElems
  split <;> rfl

theorem elementsWritten_of_writeElems (s t : State) (d : VReg) (w : Nat) (hw : w % 8 = 0) (ks : List Nat) (f : Nat → Nat)
    (on : Nat → Bool)
    (hon : ∀ k, k ∈ ks ↔ on k = true) (hv : t.hart.v = (s.hart.writeElems d w (ks.map fun k => (k, f k))).v) :
    elementsWritten s t d w on f := by
  have hread (r : VReg) : t.hart.getV r = (s.hart.writeElems d w (ks.map fun k => (k, f k))).getV r := by rw [Hart.getV, hv]; rfl
  have hcond (b : Bytes) (k : Nat) : elem (putElems b w (ks.map fun k => (k, f k))) k w
    = if on k then f k % 2 ^ w else elem b k w := by
    rw [elem_putElems b w hw ks f k]
    exact if_congr (hon k) rfl rfl
  unfold Hart.writeElems at hread
  by_cases hdk : s.hart.lentDk = 2
  · simp only [hdk, if_true, Hart.getV_setV] at hread
    refine ⟨fun r hr k => ?_, fun r hd hc => ?_⟩
    · rw [hread]
      by_cases hrc : r = s.hart.lentDc
      · rw [if_pos hrc, hcond]
        by_cases hd : s.hart.lentDc = d
        · rw [if_pos hd, hcond, hrc, hd]
          split <;> rfl
        · rw [if_neg hd, hrc]
      · obtain rfl := hr.resolve_right fun hc => hrc hc.2
        rw [if_neg hrc, if_pos rfl]
        exact hcond _ k
    · rw [hread, if_neg (fun he => hc ⟨hdk, he⟩), if_neg hd]
  · simp only [hdk, if_false, Hart.getV_setV] at hread
    refine ⟨fun r hr k => ?_, fun r hd _ => ?_⟩
    · obtain rfl := hr.resolve_right fun hc => hdk hc.1
      rw [hread, if_pos rfl]
      exact hcond _ k
    · rw [hread, if_neg hd]

end Sys2Proof.Machine
end

section
/-! PROOFS of the integer operations of R354. -/

namespace Sys2Proof.Machine

/-- The exact result of an operation on two elements and their exact values, before it is cut to the width (R354). -/
def exactOf (op : VIntOp) (w u v : Nat) (x y : Int) : Int :=
  match op with
  | .add => x + y
  | .sub => x - y
  | .mul => x * y
  | .mulh => x * y / 2 ^ w
  | .and => (u &&& v : Nat)
  | .or => (u ||| v : Nat)
  | .xor => (u ^^^ v : Nat)
  | .sll => (u * 2 ^ (v % w) : Nat)
  | .srl => (u / 2 ^ (v % w) : Nat)
  | .sra => sext u w / 2 ^ (v % w)
  | .min => min x y
  | .max => max x y

theorem width_spec (e : ET) : e.width % 8 = 0 ∧ 0 < e.width := by cases e <;> decide

theorem State.ve_lt (s : State) (r : VReg) (k : Nat) (e : ET) : s.ve r k e.width < 2 ^ e.width := by
  have h := leVal_lt ((s.hart.getV r).getN (k * (e.width / 8)) (e.width / 8))
  have := width_spec e
  rwa [Bytes.length_getN, show 8 * (e.width / 8) = e.width by omega] at h

theorem zext_of_lt {v n : Nat} (h : v < 2 ^ n) : zext v n = v := by
  rw [zext, ← Int.natCast_mod, Int.toNat_natCast, Nat.mod_eq_of_lt h]

/-- The exact value of an element is what the operations read it as. -/
theorem vintRead_eq (e : ET) (n : Bool) {v : Nat} (h : v < 2 ^ e.width) : vintRead (readsSigned e n) e.width v = asInt e n v := by
  have hpos := (width_spec e).2
  have hhalf : 2 ^ e.width = 2 * 2 ^ (e.width - 1) := by rw [← Nat.pow_succ', Nat.succ_eq_add_one, Nat.sub_add_cancel hpos]
  rw [vintRead, asInt, sext]
  simp only [zext_of_lt h]
  by_cases hu : e = .n32 ∨ n = true
  · have hsg : readsSigned e n = false := by rcases hu with rfl | rfl <;> simp [readsSigned]
    have hplain : e = .n32 ∨ n = true ∨ v < 2 ^ (e.width - 1) := hu.imp_right .inl
    rw [hsg, if_neg Bool.false_ne_true, if_pos hplain]
  · have hsg : readsSigned e n = true := by
      obtain ⟨he, hn⟩ := not_or.1 hu
      simp [readsSigned, he, hn]
    rw [hsg, if_pos rfl]
    by_cases hlow : v < 2 ^ (e.width - 1)
    · rw [if_neg (by omega), if_pos (by tauto)]
    · rw [if_pos (by omega), if_neg (by tauto)]
      push_cast
      rfl

/-- An exact value differs from the element by a multiple of the width's power. -/
theorem asInt_emod (e : ET) (n : Bool) {v : Nat} (h : v < 2 ^ e.width) : (asInt e n v % 2 ^ e.width).toNat = v := by
  have hmod : (v : Int) % 2 ^ e.width = v := Int.emod_eq_of_lt (Int.natCast_nonneg v) (by exact_mod_cast h)
  rw [asInt]
  split
  · rw [hmod, Int.toNat_natCast]
  · rw [Int.sub_emod_right, hmod, Int.toNat_natCast]

theorem vintOp_eq (op : VIntOp) (e : ET) (n : Bool) {u v : Nat} (hu : u < 2 ^ e.width) (hv : v < 2 ^ e.width) :
    vintOp op (readsSigned e n) e.width u v
      = (exactOf op e.width u v (asInt e n u) (asInt e n v) % 2 ^ e.width).toNat := by
  have hcast (m : Nat) : ((m : Int) % 2 ^ e.width).toNat = m % 2 ^ e.width := by
    rw [show (m : Int) % 2 ^ e.width = ((m % 2 ^ e.width : Nat) : Int) by push_cast; rfl, Int.toNat_natCast]
  have hzext (x : Int) : zext x e.width = (x % 2 ^ e.width).toNat := by
    rw [zext]
    push_cast
    rfl
  simp only [vintOp, vintRead_eq e n hu, vintRead_eq e n hv, exactOf]
  cases op with
  | add | sub | mul => exact hzext _
  | mulh => exact (hzext _).trans (by push_cast; rfl)
  | and => exact ((hcast _).trans (Nat.mod_eq_of_lt (Nat.and_lt_two_pow _ hv))).symm
  | or => exact ((hcast _).trans (Nat.mod_eq_of_lt (Nat.or_lt_two_pow hu hv))).symm
  | xor => exact ((hcast _).trans (Nat.mod_eq_of_lt (Nat.xor_lt_two_pow hu hv))).symm
  | sll => exact (hcast _).symm
  | srl => exact ((hcast _).trans (Nat.mod_eq_of_lt ((Nat.div_le_self _ _).trans_lt hu))).symm
  | sra => exact (hzext _).trans (by push_cast; rfl)
  | min =>
    dsimp only
    split
    · rw [min_eq_left ‹_›, asInt_emod e n hu]
    · rw [min_eq_right (le_of_not_ge ‹_›), asInt_emod e n hv]
  | max =>
    dsimp only
    split
    · rw [max_eq_right ‹_›, asInt_emod e n hv]
    · rw [max_eq_left (le_of_not_ge ‹_›), asInt_emod e n hu]

/-! ### What an integer operation does -/

/-- What an integer operation writes. -/
def State.vintWrites (s : State) (op : VIntOp) (d a b : VReg) (p : PReg) (e : ET) (n : Bool) : VecOp where
  d := d
  p := p
  w := e.width
  n := s.hart.count e.width
  unit := some (s.hart.groupOf e.width)
  f k := ((exactOf op e.width (s.ve a k e.width) (s.ve b k e.width) (asInt e n (s.ve a k e.width)) (asInt e n (s.ve b k e.width))
    % 2 ^ e.width).toNat, noFlags)

/-- The integer operations of R354 are one, but for what they do with the two elements. -/
theorem State.intVecOp_spec (s : State) (i : Instr) (o : VecOp) (h : s.intVecOp i = some o) : ∃ op d a b p e n,
    o = s.vintWrites op d a b p e n ∧ runQueued i s = some (s.vint i op d a b p e n) ∧ vectorOnly i := by
  unfold State.intVecOp at h
  split at h
  · exact ⟨.add, _, _, _, _, _, _, (Option.some.inj h).symm, rfl, fun _ => ⟨rfl, rfl⟩⟩
  · exact ⟨.sub, _, _, _, _, _, _, (Option.some.inj h).symm, rfl, fun _ => ⟨rfl, rfl⟩⟩
  · exact ⟨.mul, _, _, _, _, _, _, (Option.some.inj h).symm, rfl, fun _ => ⟨rfl, rfl⟩⟩
  · exact ⟨.mulh, _, _, _, _, _, _, (Option.some.inj h).symm, rfl, fun _ => ⟨rfl, rfl⟩⟩
  · exact ⟨.and, _, _, _, _, _, _, (Option.some.inj h).symm, rfl, fun _ => ⟨rfl, rfl⟩⟩
  · exact ⟨.or, _, _, _, _, _, _, (Option.some.inj h).symm, rfl, fun _ => ⟨rfl, rfl⟩⟩
  · exact ⟨.xor, _, _, _, _, _, _, (Option.some.inj h).symm, rfl, fun _ => ⟨rfl, rfl⟩⟩
  · exact ⟨.sll, _, _, _, _, _, _, (Option.some.inj h).symm, rfl, fun _ => ⟨rfl, rfl⟩⟩
  · exact ⟨.srl, _, _, _, _, _, _, (Option.some.inj h).symm, rfl, fun _ => ⟨rfl, rfl⟩⟩
  · exact ⟨.sra, _, _, _, _, _, _, (Option.some.inj h).symm, rfl, fun _ => ⟨rfl, rfl⟩⟩
  · exact ⟨.min, _, _, _, _, _, _, (Option.some.inj h).symm, rfl, fun _ => ⟨rfl, rfl⟩⟩
  · exact ⟨.max, _, _, _, _, _, _, (Option.some.inj h).symm, rfl, fun _ => ⟨rfl, rfl⟩⟩
  · exact nomatch h

theorem orAll_noFlags (ks : List Nat) : orAll (ks.map fun _ => noFlags) = 0 := by
  induction ks with
  | nil => rfl
  | cons k r ih =>
    rw [List.map_cons, orAll, List.foldl_cons, show (0 : Flags) ||| noFlags = 0 from rfl]
    exact ih

/-- The vector registers after an integer operation. -/
def State.vintV (s : State) (op : VIntOp) (d a b : VReg) (p : PReg) (e : ET) (n : Bool) : Vector Bytes 32 :=
  (s.hart.writeElems d e.width ((s.hart.active p s.hart.start (s.hart.count e.width)).map fun k =>
    (k, ((s.vintWrites op d a b p e n).f k).1))).v

/-- In a turn that does not stop it, an integer operation writes its results and falls through. -/
theorem State.vint_ok (s : State) (i : Instr) (op : VIntOp) (d a b : VReg) (p : PReg) (e : ET) (n : Bool) (hc : s.compute)
    (hf : s.mayFall)
    (done : List Nat) (taken : List Byte) (hhow : s.how = .without done taken) :
    s.vint i op d a b p e n = .next (s.having { s.asIs with v := s.vintV op d a b p e n }).vfalls := by
  have hf' (k : Nat) : vintOp op (readsSigned e n) e.width (s.ve a k e.width) (s.ve b k e.width)
    = ((s.vintWrites op d a b p e n).f k).1 :=
    vintOp_eq op e n (s.ve_lt a k e) (s.ve_lt b k e)
  have hcut (u m k : Nat) : s.cut u m k = k := by rw [State.cut, hhow]
  have hend (t : State) (m : Nat) : t.vend m m = t.vretire := by rw [State.vend, if_neg (Nat.lt_irrefl m)]
  have horf (h : Hart) : h.orFlags 0 = h := by
    rw [Hart.orFlags]
    simp
  have hflags (ks : List Nat) (g : Nat → Nat) : orAll ((ks.map fun k => (k, g k, noFlags)).map fun r => r.2.2) = 0 := by
    rw [List.map_map]
    exact orAll_noFlags ks
  simp only [State.vint, State.elementwise, State.elementsOf, s.computeOnly_ok i hc, hcut, hend, hflags, hf', horf]
  rw [List.map_map]
  have hwrite : (s.onHart fun h => h.writeElems d e.width ((s.hart.active p s.hart.start (s.hart.count e.width)).map fun k =>
      (k, ((s.vintWrites op d a b p e n).f k).1))) = s.having { s.asIs with v := s.vintV op d a b p e n } := by
    rw [State.onHart, Hart.writeElems_eq]
    rfl
  exact congrArg Host.Outcome.next ((congrArg State.vretire hwrite).trans (State.vretire_eq _ hf))

/-- A queued integer operation writes its elements (R86, R353, R354). -/
theorem exec_queuedInstructionRetires_intVecOp (s : State) (q : Queued) (r : List Queued) (hb : s.hart.bound = true)
    (hq : s.hart.vqueue = q :: r) (hc : (s.atQueued q).compute) (hf : (s.atQueued q).mayFall) (o : VecOp)
    (ho : (s.atQueued q).intVecOp q.i = some o) : ∃ t, exec (.queuedInstructionRetires q.pc 0) s = .next t
      ∧ elementsWritten (s.atQueued q) t o.d o.w ((s.atQueued q).on o.p o.n) (fun k => (o.f k).1)
      ∧ t = { s with hart := { s.hart with v := t.hart.v, vqueue := r, late := s.hart.late.map Late.aged } } := by
  obtain ⟨op, d, a, b, p, e, n, rfl, hrun, hvec⟩ := (s.atQueued q).intVecOp_spec q.i o ho
  rw [State.vint_ok _ _ _ _ _ _ _ _ _ hc hf q.done q.taken rfl] at hrun
  have hon (k : Nat) : k ∈ (s.atQueued q).hart.active p (s.atQueued q).hart.start ((s.atQueued q).hart.count e.width)
      ↔ (s.atQueued q).on p ((s.atQueued q).hart.count e.width) k = true := by
    simp only [Hart.active, List.mem_filter, List.mem_range, State.on, Bool.and_eq_true, decide_eq_true_eq]
    tauto
  have heffects : ((s.atQueued q).having { (s.atQueued q).asIs with v := (s.atQueued q).vintV op d a b p e n }).vfalls
      = ((s.atQueued q).having { s.asIs with v := (s.atQueued q).vintV op d a b p e n }).falls := by
    rw [State.atQueued_eq]
    rfl
  rw [heffects] at hrun
  exact ⟨_, exec_queuedInstructionRetires_having s q r hb hq hvec _ hrun,
    elementsWritten_of_writeElems (s.atQueued q) _ d e.width (width_spec e).1 _ _ _ hon rfl, rfl⟩

end Sys2Proof.Machine
end

section
/-! PROOFS of vector stores that memory takes (R86, R171, R183, R308, R366). -/

namespace Sys2Proof.Machine

/-! ### Stores outside a strip -/

/-- The state after some stores, by its effects. -/
theorem State.wrote_having (s : State) (va : Nat) (bs : List Byte) (c : Fin 16) (hout : s.outside) :
    ∃ f, s.wrote va bs c = s.having f ∧ f.v = s.hart.v := by
  have hgone : s.hart.wentPast va bs.length = { s.hart with strip := (s.hart.wentPast va bs.length).strip } := by
    unfold Hart.wentPast
    split <;> rfl
  rw [State.wrote, hout, if_neg Bool.false_ne_true, State.wroteMem, hgone]
  exact ⟨⟨s.hart.v, _, _, _, _, _⟩, rfl, rfl⟩

theorem State.wrote_worn (s : State) (va : Nat) (bs : List Byte) (c : Fin 16) (hout : s.outside) :
    s.Worn (s.wrote va bs c) 1 := by
  rw [State.wrote, hout, if_neg Bool.false_ne_true]
  have hcount := s.count_worn s.hart.task.asid va bs.length
  exact ⟨hcount.fid, hcount.vacant, hcount.absent, hcount.leaves⟩

theorem State.wroteAll_having (s : State) (xs : List (Nat × List Byte)) (c : Fin 16) (hout : s.outside) :
    s.wroteAll xs c = s.having { (s.wroteAll xs c).asIs with v := s.hart.v } := by
  induction xs generalizing s with
  | nil => rfl
  | cons x r ih =>
    obtain ⟨f, hf, hv⟩ := s.wrote_having x.1 x.2 c hout
    have hrest := ih (s.having f) hout
    rw [← hv]
    show (s.wrote x.1 x.2 c).wroteAll r c = s.having { ((s.wrote x.1 x.2 c).wroteAll r c).asIs with v := f.v }
    rw [hf]
    exact hrest

/-- The state in another turn of the hart in front. -/
def State.inTurn (s : State) (w : How) : State := { s with how := w }

theorem State.wroteAll_inTurn (s : State) (xs : List (Nat × List Byte)) (c : Fin 16) (w : How) :
    (s.inTurn w).wroteAll xs c = (s.wroteAll xs c).inTurn w := by
  induction xs generalizing s with
  | nil => rfl
  | cons x r ih =>
    have hwrote : (s.inTurn w).wrote x.1 x.2 c = (s.wrote x.1 x.2 c).inTurn w := by
      unfold State.wrote
      show (if s.hart.inStrip then _ else _) = _
      split <;> rfl
    show ((s.inTurn w).wrote x.1 x.2 c).wroteAll r c = _
    rw [hwrote]
    exact ih _

/-- Units whose bytes translate are stored, one access each, where no page becomes busy meanwhile (R171). -/
theorem State.storeUnits_ok (s : State) (us : List (Nat × Nat × List Byte)) (c : Fin 16) (done : List Nat) (hout : s.outside)
    (htr : ∀ u ∈ us, s.translates u.2.1 u.2.2.length) (hun : s.unworn us.length) :
    s.storeUnits us c done = .ok (s.wroteAll (us.map fun u => u.2) c) := by
  induction us generalizing s done with
  | nil => rfl
  | cons u r ih =>
    obtain ⟨hfirst, hrest⟩ := List.forall_mem_cons.1 htr
    have hbusy := State.atBusy_of_unworn hun (Nat.succ_pos _) s.hart.task.asid u.2.1 u.2.2.length
    have hput := s.putStore_ok u.2.1 u.2.2 c hfirst fun h => absurd h (by rw [hout]; exact Bool.false_ne_true)
    have hworn := s.wrote_worn u.2.1 u.2.2 c hout
    obtain ⟨f, hf, -⟩ := s.wrote_having u.2.1 u.2.2 c hout
    rw [State.storeUnits, hbusy, Bool.and_false, hput]
    rw [hf] at hworn ⊢
    have htranslates (a n : Nat) : (s.having f).translates a n ↔ s.translates a n := by
      simp only [State.translates, hworn.translate]
      exact Iff.rfl
    have hgo := ih (s.having f) (done ++ [u.1]) hout (fun v hv => (htranslates _ _).2 (hrest v hv))
      (hworn.unworn (by rwa [Nat.add_comm]))
    refine Eq.trans hgo ?_
    show _ = Except.ok ((s.wrote u.2.1 u.2.2 c).wroteAll (r.map fun u => u.2) c)
    rw [hf]

/-! ### The units of a store -/

theorem State.checkUnits_ok (s : State) (ok : Nat → Bool) (us : List (Nat × Nat)) (n : Nat)
    (h : ∀ u ∈ us, ∀ k < n, ok (u.2 + k) = true) : s.checkUnits ok us n = .ok () := by
  have hnone : us.findSome? (fun u => (firstBad ok u.2 n).map fun a => (a, u.1)) = none := by
    rw [List.findSome?_eq_none_iff]
    intro u hu
    rw [firstBad_none ok u.2 n (h u hu)]
    rfl
  rw [State.checkUnits, hnone]

/-- The units that take part, of those of the operation. -/
def State.doing (s : State) (p : PReg) (w : EW) : List Nat := (List.range (s.hart.units w)).filter (s.does p (s.hart.units w))

theorem State.does_eq (s : State) (p : PReg) (n k : Nat) : s.does p n k = (s.on p n k && s.takes k) := by
  rw [State.does, State.takes, Bool.and_assoc]
  rfl

theorem State.unitAddrs_eq (s : State) (p : PReg) (w : EW) (addr : Nat → Word) :
    s.unitAddrs p w addr = (s.doing p w).map fun k => (k, (addr k).toNat) := by
  rw [State.unitAddrs, State.allUnits, Hart.active, List.filter_map, List.filter_filter, State.doing]
  refine congrArg _ (List.filter_congr fun k hk => ?_)
  have hlt := List.mem_range.1 hk
  rw [State.does_eq, State.on, Bool.and_comm]
  simp [hlt]

/-- The bytes a store gives a unit. -/
def State.unitStore (s : State) (d : VReg) (w : EW) (addr : Nat → Nat) (k : Nat) : Nat × List Byte :=
  (addr k, (s.hart.getV d).getN (k * ewBytes w) (ewBytes w))

/-- In a turn that does not stop it, a store of units the lease admits writes them and falls through (R366). -/
theorem State.vstore_ok (s : State) (i : Instr) (d : VReg) (p : PReg) (w : EW) (c : Slot) (addr : Nat → Word) (hc : s.compute)
    (hf : s.mayFall) (hout : s.outside) (done : List Nat) (taken : List Byte) (hhow : s.how = .without done taken)
    (hun : s.unworn (s.hart.units w)) (hmay : ∀ k ∈ s.doing p w, s.canWrite (addr k).toNat (ewBytes w)) :
    s.vstore i d p w c addr = .next (s.having
      { (s.wroteAll ((s.doing p w).map (s.unitStore d w fun k => (addr k).toNat)) (s.hart.effClass c)).asIs with
        v := s.hart.v }).unitsOver.vfalls := by
  have hstop : s.unitStop w = s.hart.units w := by rw [State.unitStop, State.cut, hhow]
  have hbelow : (s.unitAddrs p w addr).filter (fun u => decide (u.1 < s.hart.units w)) = s.unitAddrs p w addr := by
    rw [s.unitAddrs_eq, List.filter_eq_self]
    simp only [List.forall_mem_map, State.doing, List.mem_filter, List.mem_range, decide_eq_true_eq]
    exact fun k hk => hk.1
  have hcheck := s.checkUnits_ok s.hart.task.mayWrite (s.unitAddrs p w addr) (ewBytes w) (by
    rw [s.unitAddrs_eq]
    exact List.forall_mem_map.2 fun k hk => (hmay k hk).1)
  have hcount : (s.doing p w).length ≤ s.hart.units w := (List.length_filter_le _ _).trans (List.length_range).le
  have hstore := s.storeUnits_ok ((s.unitAddrs p w addr).map fun u =>
    (u.1, u.2, (s.hart.getV d).getN (u.1 * ewBytes w) (ewBytes w)))
    (s.hart.effClass c) [] hout (by
      rw [s.unitAddrs_eq, List.map_map]
      refine List.forall_mem_map.2 fun k hk => ?_
      simp only [Function.comp, Bytes.length_getN]
      exact (hmay k hk).2) (State.unworn_mono hun (by simpa [s.unitAddrs_eq] using hcount))
  simp only [State.vstore, s.computeOnly_ok i hc, hcheck, hstop, hbelow, hstore]
  rw [s.unitAddrs_eq, List.map_map, List.map_map]
  refine congrArg Host.Outcome.next ?_
  rw [← State.wroteAll_having _ _ _ hout]
  refine (if_neg (Nat.lt_irrefl _)).trans (State.vretire_eq _ ?_)
  show (s.wroteAll _ _).unitsOver.mayFall
  rw [State.wroteAll_having _ _ _ hout]
  exact hf

/-! ### The stores of vector memory (R366) -/

/-- A queued access to memory without an order among its units, which takes nothing before it writes. -/
def leadsAsIs (i : Instr) : Prop := ∀ q : Queued, ({ q with i := i } : Queued).unordered = true
    ∧ ∀ h, ({ q with i := i } : Queued).take h = { q with i := i }

theorem State.vmemOp_store (s : State) (i : Instr) (d : VReg) (p : PReg) (w : EW) (c : Slot) (unit : Option Nat)
    (addr : Nat → Nat)
    (h : s.vmemOp i = some (d, p, w, c, true, unit, addr)) : ∃ o : Nat → Word,
      addr = (fun k => (o k).toNat) ∧ runQueued i s = some (s.vstore i d p w c o) ∧ vectorOnly i ∧ leadsAsIs i := by
  unfold State.vmemOp at h
  split at h
  · cases h
  · cases h
  · cases h
  · cases h
    exact ⟨s.unitStride _ _, rfl, rfl, fun _ => ⟨rfl, rfl⟩, fun _ => ⟨rfl, fun _ => rfl⟩⟩
  · cases h
    exact ⟨s.strided _ _, rfl, rfl, fun _ => ⟨rfl, rfl⟩, fun _ => ⟨rfl, fun _ => rfl⟩⟩
  · cases h
    exact ⟨s.indexed _ _ _, rfl, rfl, fun _ => ⟨rfl, rfl⟩, fun _ => ⟨rfl, fun _ => rfl⟩⟩
  · cases h

/-- What an access is does not depend on the elements done already. -/
theorem State.vmemOp_done (s : State) (i : Instr) (done done' : List Nat) (taken : List Byte) :
    (s.inTurn (.without done taken)).vmemOp i = (s.inTurn (.without done' taken)).vmemOp i := by
  cases taken <;> rfl

/-! ### Some units ahead of the rest (R86, R183) -/

/-- Of the units that the turn leaves, those of a list that have not performed take part. -/
theorem State.doing_inTurn (s : State) (q : Queued) (p : PReg) (w : EW) (es : List Nat)
    (hn : (s.atQueued q).hart.units w ≤ 8192) :
    ((s.atQueued q).inTurn (.without ((List.range 8192).filter fun i => !es.contains i || q.done.contains i) q.taken)).doing p w
      = ((s.atQueued q).doing p w).filter fun k => es.contains k := by
  rw [State.doing, State.doing, List.filter_filter]
  refine List.filter_congr fun k hk => ?_
  have hlt : k < 8192 := (List.mem_range.1 hk).trans_le hn
  have htakes : How.takes (.without ((List.range 8192).filter fun i => !es.contains i || q.done.contains i) q.taken) k
      = (es.contains k && How.takes (.without q.done q.taken) k) := by
    simp [How.takes, hlt]
  generalize (List.range 8192).filter _ = stay at htakes ⊢
  rw [State.does_eq, State.does_eq, State.takes, State.takes]
  show (_ && (How.takes (.without _ q.taken) k && _)) = (es.contains k && (_ && (How.takes (.without q.done q.taken) k && _)))
  rw [htakes, Bool.and_assoc, Bool.and_left_comm]
  rfl

theorem State.turnElems_goes (s : State) (q : Queued) (r : List Queued) (hb : s.hart.bound = true) (hq : s.hart.vqueue = q :: r)
    (es : List Nat) (hmay : q.unordered = true ∧ ∀ h, q.take h = q) (hlead : (s.atQueued q).mayLead q.i es = true) {t : State}
    (ht : runQueued q.i ((s.atQueued q).inTurn
      (.without ((List.range 8192).filter fun i => !es.contains i || q.done.contains i) q.taken)) = some (.next t))
    (hbound : t.hart.bound = true) (hlevel : t.hart.level = s.hart.level)
    (h : t.hart.pc ≠ q.pc ∨ t.hart.loops ≠ q.loops) :
    s.turnElems es = { t with how := s.how, hart := { t.hart.asBefore s.hart q with
      vqueue := { q with done := q.done ++ es } :: r } } := by
  have hwent : (s.atQueued q).hart.wentFrom t.hart = true := by
    rw [Hart.wentFrom_iff, s.atQueued_pc q, s.atQueued_loops q]
    exact h
  simp only [State.turnElems, hq, hmay.2, hb, hmay.1, hlead, Bool.and_self, Bool.not_true, Bool.false_eq_true, if_false]
  rw [show runQueued q.i { s.atQueued q with
    how := .without ((List.range 8192).filter fun i => !es.contains i || q.done.contains i) q.taken } = _ from ht]
  simp only [hbound, hlevel, hwent, beq_self_eq_true, Bool.and_self, Bool.not_true, Bool.false_eq_true, if_false, if_true]
  rfl

/-! ### A queued store's turn (R86, R183) -/

section
variable (s : State) (q : Queued) (r : List Queued) (hb : s.hart.bound = true) (hq : s.hart.vqueue = q :: r)
  (hc : (s.atQueued q).compute) (hf : (s.atQueued q).mayFall) (hout : s.outside)
  (d : VReg) (p : PReg) (w : EW) (c : Slot) (unit : Option Nat) (addr : Nat → Nat)
  (hop : (s.atQueued q).vmemOp q.i = some (d, p, w, c, true, unit, addr))
  (hun : (s.atQueued q).unworn ((s.atQueued q).hart.units w))
  (hmay : ∀ k ∈ (s.atQueued q).doing p w, (s.atQueued q).canWrite (addr k) (ewBytes w))

/-- The state after units of the store have performed. -/
def State.unitsWrote (s : State) (q : Queued) (d : VReg) (w : EW) (c : Slot) (addr : Nat → Nat) (ks : List Nat) : State :=
  (s.atQueued q).wroteAll (ks.map (s.unitStore d w addr)) ((s.atQueued q).hart.effClass c)

include hb hq hc hf hout hop hun hmay

theorem exec_queuedInstructionRetires_store : exec (.queuedInstructionRetires q.pc 0) s =
    .next { s.having { (s.unitsWrote q d w c addr ((s.atQueued q).doing p w)).asIs with v := s.hart.v } with
      hart := { s.hart with
        strip := (s.unitsWrote q d w c addr ((s.atQueued q).doing p w)).hart.strip
        vqueue := r, late := s.hart.late.map Late.aged } } := by
  obtain ⟨o, rfl, hrun, hvec, -⟩ := (s.atQueued q).vmemOp_store q.i d p w c unit addr hop
  have hout' : (s.atQueued q).outside := by
    rw [State.atQueued_eq]
    exact hout
  rw [State.vstore_ok _ _ _ _ _ _ _ hc hf hout' q.done q.taken rfl hun hmay] at hrun
  have hv : (s.atQueued q).hart.v = s.hart.v := by rw [State.atQueued_eq]
  have hstore : (s.atQueued q).unitStore d w (fun k => (o k).toNat) = s.unitStore d w fun k => (o k).toNat := by
    funext k
    rw [State.unitStore, Hart.getV, hv]
    rfl
  rw [hv, hstore] at hrun
  have hover (f : Effects) : ((s.atQueued q).having f).unitsOver.vfalls = ((s.atQueued q).having f).falls := by
    rw [State.atQueued_eq]
    rfl
  rw [hover] at hrun
  exact exec_queuedInstructionRetires_having s q r hb hq hvec _ hrun

/-- Some units of the store perform ahead of the rest. -/
theorem State.turnElems_store (es : List Nat) (hn : (s.atQueued q).hart.units w ≤ 8192)
    (hlead : (s.atQueued q).mayLead q.i es = true) :
    s.turnElems es = { s.having { (s.unitsWrote q d w c addr (((s.atQueued q).doing p w).filter fun k => es.contains k)).asIs with
        v := s.hart.v } with
      hart := { s.hart with
        strip := (s.unitsWrote q d w c addr (((s.atQueued q).doing p w).filter fun k => es.contains k)).hart.strip
        vqueue := { q with done := q.done ++ es } :: r } } := by
  obtain ⟨stay, hstay⟩ : ∃ stay, stay = (List.range 8192).filter fun i => !es.contains i || q.done.contains i := ⟨_, rfl⟩
  obtain ⟨s1, hs1⟩ : ∃ s1, s1 = (s.atQueued q).inTurn (.without stay q.taken) := ⟨_, rfl⟩
  have hop' : s1.vmemOp q.i = some (d, p, w, c, true, unit, addr) := by
    rw [hs1]
    exact ((s.atQueued q).vmemOp_done q.i stay q.done q.taken).trans hop
  obtain ⟨o, rfl, hrun, hvec, hlead'⟩ := s1.vmemOp_store q.i d p w c unit addr hop'
  have hout' : (s.atQueued q).outside := by
    rw [State.atQueued_eq]
    exact hout
  have hdoing : s1.doing p w = ((s.atQueued q).doing p w).filter fun k => es.contains k := by
    rw [hs1, hstay]
    exact s.doing_inTurn q p w es hn
  have hstore : s1.unitStore d w (fun k => (o k).toNat) = s.unitStore d w fun k => (o k).toNat := by
    rw [hs1, State.atQueued_eq]
    rfl
  have hv : s1.hart.v = s.hart.v := by rw [hs1, State.atQueued_eq]; rfl
  rw [s1.vstore_ok _ _ _ _ _ _ (hs1 ▸ hc) (hs1 ▸ hf) (hs1 ▸ hout') stay q.taken (by rw [hs1]; rfl) (hs1 ▸ hun)
    (fun k hk => hs1 ▸ hmay k (List.mem_of_mem_filter (hdoing ▸ hk))), hdoing, hstore, hv] at hrun
  have hwrote (ks : List Nat) : s1.wroteAll (ks.map (s.unitStore d w fun k => (o k).toNat)) (s1.hart.effClass c)
      = (s.unitsWrote q d w c (fun k => (o k).toNat) ks).inTurn (.without stay q.taken) := by
    rw [hs1]
    exact State.wroteAll_inTurn _ _ _ _
  rw [hwrote] at hrun
  obtain ⟨f, hf'⟩ : ∃ f : Effects, f = { (s.unitsWrote q d w c (fun k => (o k).toNat) (((s.atQueued q).doing p w).filter
    fun k => es.contains k)).asIs with v := s.hart.v } := ⟨_, rfl⟩
  have hfalls : (s1.having f).unitsOver.vfalls = (s1.having f).falls := by
    rw [hs1, State.atQueued_eq]
    rfl
  have hrun' : runQueued q.i ((s.atQueued q).inTurn (.without stay q.taken)) = some (.next (s1.having f).falls) := by
    rw [← hfalls, ← hs1, hf']
    exact hrun
  have hpc : (s1.having f).hart.pc = q.pc := by rw [hs1]; exact s.atQueued_pc q
  have hloops : (s1.having f).hart.loops = q.loops := by rw [hs1]; exact s.atQueued_loops q
  have hmoves := (s1.having f).falls_moves
  rw [hpc, hloops] at hmoves
  have hgone : s.turnElems es = { s.having f with hart := { (s.having f).hart with
      vqueue := { q with done := q.done ++ es } :: r } } := by
    rw [s.turnElems_goes q r hb hq es (hlead' q) hlead (hstay ▸ hrun') (by rw [hs1, State.atQueued_eq]; exact hb)
      (by rw [hs1, State.atQueued_eq]; rfl) hmoves, Hart.asBefore_vectorOnly _ _ _ hvec, hs1, State.atQueued_eq]
    rfl
  rw [hf'] at hgone
  exact hgone

end

end Sys2Proof.Machine
end

section
/-! PROOFS of what an instruction leaves for later, and of the engines and the deadline interrupt beside it (R86, R184, R308). -/

namespace Sys2Proof.Machine

/-- A queued fence that acknowledges drops the cache-remote lines as it leaves the queue (R184, R308). -/
theorem exec_queuedInstructionRetires_fence (s : State) (q : Queued) (r : List Queued) (hb : s.hart.bound = true)
    (hq : s.hart.vqueue = q :: r) (hf : (s.atQueued q).mayFall) (ack : Bool) (scope : Fin 16) (m : BitVec 16)
    (hi : q.i = .fence ack scope m) : exec (.queuedInstructionRetires q.pc 0) s = .next { s with
      lines := if ack = true ∧ 7 ≤ scope.val then [] else s.lines
      hart := { s.hart with vqueue := r, late := s.hart.late.map Late.aged } } := by
  have hvec : vectorOnly q.i := hi ▸ fun _ => ⟨rfl, rfl⟩
  have hdrops : fenceDrops ack scope = decide (ack = true ∧ 7 ≤ scope.val) := by simp [fenceDrops]
  have hleft : (if fenceDrops ack scope then (s.atQueued q).dropLines else s.atQueued q)
      = (s.atQueued q).having { s.asIs with lines := if ack = true ∧ 7 ≤ scope.val then [] else s.lines } := by
    rw [hdrops, State.atQueued_eq]
    by_cases h : ack = true ∧ 7 ≤ scope.val
    · rw [decide_eq_true h, if_pos rfl, if_pos h]
      rfl
    · rw [decide_eq_false h, if_neg Bool.false_ne_true, if_neg h]
      rfl
  have hrun : runQueued q.i (s.atQueued q)
      = some (.next ((s.atQueued q).having { s.asIs with
        lines := if ack = true ∧ 7 ≤ scope.val then [] else s.lines }).falls) := by
    have hfence : runQueued (.fence ack scope m) (s.atQueued q)
        = some (.next (if fenceDrops ack scope then (s.atQueued q).dropLines else s.atQueued q).retire) := rfl
    rw [hi, hfence, hleft]
    exact congrArg (fun t => some (Host.Outcome.next t)) (State.retire_eq _ hf)
  exact exec_queuedInstructionRetires_having s q r hb hq hvec _ hrun

/-- What an instruction leaves for later. -/
theorem queuedEffectsArrive : Sys2Proof.Says.QueuedEffectsArrive := by
  intro n s hb
  refine ⟨fun v bs c pc y hlate => ⟨fun hw => ?_, fun hw hin => ?_, fun hw hout => ⟨fun htr => ?_, fun e he => ?_⟩⟩,
    s.releaseFences_of_stores, fun k m d pc y hk => ?_, fun pc ahead h => execQueuedInstructionRetires_other s pc ahead h, ?_⟩
  · exact exec_accessPerforms_waits n s v bs c pc y hlate hw
  · exact exec_accessPerforms_inStrip n s v bs c pc y hlate hw hin
  · exact exec_accessPerforms_writes n s v bs c pc y hlate hw hout htr
  · exact exec_accessPerforms_lost n s v bs c pc y hlate hw hout e he
  · exact State.releaseFrom_fencesWait s [] s.hart.late fencesWait_nil k m d pc y hk
  · intro q r hq h retires at1 aged
    have hat1 : at1 = s.atQueued q := (s.atQueued_eq q).symm
    clear_value at1
    subst hat1
    have hname : s.compute → (s.atQueued q).compute := fun hc => by rwa [State.atQueued_eq]
    refine ⟨fun hc hf => ⟨fun o _ ho => ?_, fun d p w c unit addr hop hout => ?_, fun ack scope m hi => ?_⟩,
      fun t ht hbound hlevel => ⟨fun hgoes => ?_, fun hpc hloops => ?_⟩⟩
    · exact exec_queuedInstructionRetires_intVecOp s q r hb hq (hname hc) hf o ho
    · intro k ks wrote hun hmay
      exact ⟨exec_queuedInstructionRetires_store s q r hb hq (hname hc) hf hout d p w c unit addr hop hun hmay,
        fun es hn hlead => s.turnElems_store q r hb hq (hname hc) hf hout d p w c unit addr hop hun hmay es hn hlead⟩
    · exact exec_queuedInstructionRetires_fence s q r hb hq hf ack scope m hi
    · exact exec_queuedInstructionRetires_goes s q r hb hq t ht hbound hlevel hgoes
    · exact exec_queuedInstructionRetires_stays s q r hb hq t ht hbound hlevel hpc hloops

/-- Settles O50, by its three parts: the engines write each granule at its translation, the interrupt is an entry to level K,
and a queued instruction runs on the state of its issue. -/
theorem enginesAndQueuedEffects : Obligations.EnginesAndQueuedEffects :=
  ⟨enginesCopyFillAndSpill, deadlineInterruptIsTaken, queuedEffectsArrive⟩

end Sys2Proof.Machine
end

section
/-! PROOFS of the tiles of the hart in front (R109 to R115, R119): what setting a tile leaves, the slots it takes, and what
reads and writes of a list of tiles do while slots are free. -/

namespace Sys2Proof.Machine

/-! ### A tile that is set -/

theorem Hart.ctx_setTile (h : Hart) (q : TReg) (x : Tile) :
    (h.setTile q x).ctx = { h.ctx with tiles := h.ctx.tiles.set q.val x } :=
  List.getLastD_concat

theorem Hart.tile_setTile (h : Hart) (q r : TReg) (x : Tile) : (h.setTile q x).tile r = if r = q then x else h.tile r := by
  rw [Hart.tile, Hart.ctx_setTile]
  simp only [Hart.tile, Vector.get_eq_getElem, Vector.getElem_set, Fin.val_inj, eq_comm (a := q)]

@[simp] theorem State.tile_withTile (s : State) (q r : TReg) (x : Tile) :
    (s.withTile q x).hart.tile r = if r = q then x else s.hart.tile r :=
  s.hart.tile_setTile q r x

@[simp] theorem Hart.tile_setTile_same (h : Hart) (q : TReg) (x : Tile) : (h.setTile q x).tile q = x := by
  rw [Hart.tile_setTile, if_pos rfl]

theorem State.tile_withTile_of_ne (s : State) {q r : TReg} (x : Tile) (hne : r ≠ q) :
    (s.withTile q x).hart.tile r = s.hart.tile r := by
  rw [State.tile_withTile, if_neg hne]

/-- The tiles of a context that hold a slot. -/
def TileCtx.slots (c : TileCtx) : Nat := c.tiles.countP Tile.held

theorem Hart.slots_eq (h : Hart) : h.slots = (h.ctxs.map TileCtx.slots).sum := by
  exact congrArg List.sum (List.map_congr_left fun c _ => by
    rw [TileCtx.slots, ← Vector.countP_toList, List.countP_eq_length_filter])

/-- The slots of the current context, which may not be listed, are those of the list without the ones before it. -/
theorem Hart.slots_eq_ctx (h : Hart) : h.slots = (h.ctxs.dropLast.map TileCtx.slots).sum + h.ctx.slots := by
  rw [Hart.slots_eq]
  rcases List.eq_nil_or_concat h.ctxs with hnil | ⟨cs, c, hcs⟩
  · simp [Hart.ctx, hnil, TileCtx.slots, TileCtx.all, Vector.countP_replicate, Tile.held]
  · simp [Hart.ctx, hcs]

/-- Setting a tile changes the slots by that tile alone. -/
theorem Hart.slots_setTile (h : Hart) (q : TReg) (x : Tile) :
    (h.setTile q x).slots + (h.tile q).held.toNat = h.slots + x.held.toNat := by
  have hset : ({ h.ctx with tiles := h.ctx.tiles.set q.val x } : TileCtx).slots + (h.tile q).held.toNat
      = h.ctx.slots + x.held.toNat := by
    have hpos : (h.tile q).held = true → 0 < h.ctx.tiles.countP Tile.held := fun hheld =>
      Vector.countP_pos_iff.2 ⟨h.tile q, Vector.getElem_mem q.isLt, hheld⟩
    rw [TileCtx.slots, Vector.countP_set, show h.ctx.tiles[q.val] = h.tile q from rfl, TileCtx.slots]
    cases hheld : (h.tile q).held <;> cases x.held <;> simp only [hheld, forall_const, Bool.false_eq_true, if_false, if_true,
      Bool.toNat_true, Bool.toNat_false] at hpos ⊢ <;> omega
  have hinit : (h.setTile q x).ctxs.dropLast = h.ctxs.dropLast := List.dropLast_concat
  rw [Hart.slots_eq_ctx (h.setTile q x), hinit, Hart.ctx_setTile, h.slots_eq_ctx]
  omega

/-! ### Free slots (R11, R114) -/

theorem State.slotsFor_mono (s : State) {m n : Nat} (hmn : m ≤ n) (h : s.slotsFor n) : s.slotsFor m := by
  obtain ⟨hstore, hown⟩ := h
  exact ⟨by omega, hown.imp (by omega) (by omega)⟩

/-- The hart in front has come to hold `k` more slots, and the others what they held. -/
theorem State.slotsFor_of_slots_le (s t : State) (k n : Nat) (hname : t.hart.name = s.hart.name)
    (hbound : t.hart.bound = s.hart.bound) (hslots : t.hart.slots ≤ s.hart.slots + k) (hothers : t.others = s.others)
    (hparked : t.parked = s.parked) (h : s.slotsFor (n + k)) : t.slotsFor n := by
  have hstore : (t.storeHarts.map Hart.slots).sum ≤ (s.storeHarts.map Hart.slots).sum + k := by
    simp only [State.storeHarts, State.clusterHarts, hname, hothers, hparked, List.cons_append, List.map_cons, List.sum_cons]
    omega
  have hshared : t.sharedSlots.1 = s.sharedSlots.1 ∧ t.sharedSlots.2 ≤ s.sharedSlots.2 + k := by
    simp only [State.sharedSlots, State.clusterHarts, hname, hothers, hparked, List.filter_cons, hbound]
    split
    · simp only [List.length_cons, List.map_cons, List.sum_cons, Hart.sharedSlots, Bool.false_eq_true, if_false, true_and]
      omega
    · exact ⟨rfl, Nat.le_add_right _ _⟩
  obtain ⟨hfree, hown⟩ := h
  obtain ⟨hfirst, hsecond⟩ := hshared
  exact ⟨by omega, hown.imp (by omega) (by omega)⟩

/-- The tiles of a list that hold no slot may each have one. -/
def State.roomFor (s : State) (ts : List TReg) : Prop := s.slotsFor (ts.countP fun q => !(s.hart.tile q).held)

theorem State.roomFor_of_slotsFor (s : State) (ts : List TReg) (h : s.slotsFor ts.length) : s.roomFor ts :=
  s.slotsFor_mono List.countP_le_length h

theorem State.slot_of_roomFor (s : State) {q : TReg} {ts : List TReg} (hq : q ∈ ts) (h : s.roomFor ts) :
    (s.hart.tile q).held = true ∨ s.slotsFor 1 := by
  rw [or_iff_not_imp_left]
  intro hheld
  exact s.slotsFor_mono (List.countP_pos_iff.2 ⟨q, hq, by simpa using hheld⟩) h

/-- A tile of the list that takes its slot leaves room for the rest. -/
theorem State.roomFor_setTile (s t : State) {q : TReg} {ts : List TReg} (hq : q ∈ ts) (x : Tile) (hx : x.held = true)
    (hhart : t.hart = s.hart.setTile q x) (hothers : t.others = s.others) (hparked : t.parked = s.parked) (h : s.roomFor ts) :
    t.roomFor ts := by
  have hslots := s.hart.slots_setTile q x
  rw [← hhart, hx, Bool.toNat_true] at hslots
  have hcount : (ts.countP fun r => !(t.hart.tile r).held) + (1 - (s.hart.tile q).held.toNat)
      ≤ ts.countP fun r => !(s.hart.tile r).held := by
    have hmono (us : List TReg) : (us.countP fun r => !(t.hart.tile r).held) ≤ us.countP fun r => !(s.hart.tile r).held :=
      List.countP_mono_left fun r _ => by
        rw [hhart, Hart.tile_setTile]
        split <;> simp [hx]
    obtain ⟨us, vs, rfl⟩ := List.append_of_mem hq
    have hus := hmono us
    have hvs := hmono vs
    have htq : (t.hart.tile q).held = true := by rw [hhart, Hart.tile_setTile_same, hx]
    rw [List.countP_append, List.countP_append, List.countP_cons, List.countP_cons, htq]
    cases (s.hart.tile q).held <;> simp only [Bool.not_true, Bool.not_false, Bool.false_eq_true, if_false, if_true,
      Bool.toNat_true, Bool.toNat_false] <;> omega
  refine s.slotsFor_of_slots_le t (1 - (s.hart.tile q).held.toNat) _ (by rw [hhart]; rfl) (by rw [hhart]; rfl) ?_ hothers hparked
    (s.slotsFor_mono hcount h)
  omega

/-! ### The checks of tiles that are read and written (R119) -/

theorem State.tileReadOk_ok (s : State) (q : TReg) (h : s.tileReady q) : s.tileReadOk q = .ok () := by
  rw [State.tileReadOk]
  by_cases habsent : s.hart.tile q = .absent
  · obtain ⟨hmay, htr⟩ := h habsent
    simp [habsent, hmay, s.runs_ok _ _ htr]
  · rw [if_pos habsent]

theorem State.tileWriteOk_ok (s : State) (q : TReg) (h : s.tileMay q true = true) : s.tileWriteOk q = .ok () :=
  stopIf_false _ _ (by rw [h]; rfl)

theorem State.tileWriteOk_error (s : State) (q : TReg) (h : s.tileMay q true = false) :
    s.tileWriteOk q = .error (s.tileFault q) :=
  stopIf_true _ _ (by rw [h]; rfl)

/-- A check that passes on every item of a list passes on the list. -/
theorem forM_ok {α : Type} (check : α → Part Unit) (xs : List α) (h : ∀ x ∈ xs, check x = .ok ()) :
    xs.forM check = .ok () := by
  induction xs with
  | nil => rfl
  | cons x r ih =>
    change check x >>= (fun _ => r.forM check) = _
    rw [h x (List.mem_cons_self ..), ih fun y hy => h y (List.mem_cons_of_mem _ hy)]
    rfl

/-! ### Writing a tile (R109) -/

theorem State.writeTile_ok (s : State) (q : TReg) (b : Bytes) (h : (s.hart.tile q).held = true ∨ s.slotsFor 1) :
    s.writeTile q b = .ok (s.withTile q (.dirty b)) := by
  have hslot : s.makeSlot (s.hart.tile q).held = .ok s := by
    cases hheld : (s.hart.tile q).held with
    | true => rfl
    | false =>
      rw [hheld] at h
      exact s.makeSlot_of_slot (h.resolve_left Bool.false_ne_true)
  rw [State.writeTile, hslot]
  rfl

theorem State.roomFor_withTile (s : State) {q : TReg} {ts : List TReg} (hq : q ∈ ts) (x : Tile) (hx : x.held = true)
    (h : s.roomFor ts) : (s.withTile q x).roomFor ts :=
  s.roomFor_setTile _ hq x hx rfl rfl rfl h

/-! ### Reading tiles (R109, R110, R119) -/

/-- `t` is `s` after some of the tiles `ts` were read: an Absent one is Clean with its value, and every tile has the
value it had. -/
structure State.Fetched (s t : State) (ts : List TReg) : Prop where
  only : onlyTiles s t ts
  translate : ∀ asid va, t.translate asid va = s.translate asid va
  value : ∀ q, t.tileValue q = s.tileValue q
  undefined : ∀ q, t.hart.tile q = .undefined ↔ s.hart.tile q = .undefined
  absent : ∀ q, t.hart.tile q = .absent → s.hart.tile q = .absent
  room : s.roomFor ts → t.roomFor ts

theorem State.Fetched.refl (s : State) (ts : List TReg) : s.Fetched s ts :=
  ⟨⟨rfl, fun _ _ => rfl⟩, fun _ _ => rfl, fun _ => rfl, fun _ => Iff.rfl, fun _ h => h, fun h => h⟩

theorem onlyTiles.trans {s t u : State} {ts : List TReg} (h : onlyTiles s t ts) (h' : onlyTiles t u ts) : onlyTiles s u ts := by
  obtain ⟨heq, htiles⟩ := h
  obtain ⟨heq', htiles'⟩ := h'
  refine ⟨?_, fun q hq => (htiles' q hq).trans (htiles q hq)⟩
  rw [heq] at heq'
  exact heq'

theorem State.Fetched.trans {s t u : State} {ts : List TReg} (h : s.Fetched t ts) (h' : t.Fetched u ts) : s.Fetched u ts where
  only := h.only.trans h'.only
  translate asid va := (h'.translate asid va).trans (h.translate asid va)
  value q := (h'.value q).trans (h.value q)
  undefined q := (h'.undefined q).trans (h.undefined q)
  absent q hq := h.absent q (h'.absent q hq)
  room hs := h'.room (h.room hs)

/-- A tile that could be read still can. -/
theorem State.Fetched.tileReady {s t : State} {ts : List TReg} (h : s.Fetched t ts) {q : TReg} (hq : s.tileReady q) :
    t.tileReady q := by
  intro habsent
  obtain ⟨hmay, htr⟩ := hq (h.absent q habsent)
  have hhart := congrArg State.hart h.only.1
  refine ⟨by rw [State.tileMay, hhart]; exact hmay, ?_⟩
  simp only [State.translates, h.translate]
  rw [hhart]
  exact htr

/-- What the package reads depends on memory, the lines and the translation. -/
theorem State.reads_of_translate {s t : State} (htr : ∀ asid va, t.translate asid va = s.translate asid va)
    (hmem : t.mem = s.mem) (hlines : t.lines = s.lines) (hasid : t.hart.task.asid = s.hart.task.asid) (va n : Nat) :
    t.reads va n = s.reads va n := by
  simp only [State.reads, State.keys, htr, hmem, hlines, hasid]

/-- The state after an Absent tile was read. -/
def State.filled (s : State) (q : TReg) : State :=
  (s.withTile q (.clean (s.tileValue q))).count s.hart.task.asid (backing s.hart.mapbase q.val) tileSize

theorem State.tileValue_of_absent (s : State) (q : TReg) (h : s.hart.tile q = .absent) :
    s.tileValue q = Bytes.put [] 0 (s.reads (backing s.hart.mapbase q.val) tileSize) := by
  rw [State.tileValue, h]

theorem State.fetched_filled (s : State) {q : TReg} {ts : List TReg} (hq : q ∈ ts) (habsent : s.hart.tile q = .absent) :
    s.Fetched (s.filled q) ts := by
  have htile (r : TReg) : (s.filled q).hart.tile r = if r = q then .clean (s.tileValue q) else s.hart.tile r :=
    s.tile_withTile q r _
  have htr (asid va : Nat) : (s.filled q).translate asid va = s.translate asid va :=
    ((s.withTile q (.clean (s.tileValue q))).count_worn s.hart.task.asid _ _).translate asid va
  refine ⟨⟨rfl, fun r hr => ?_⟩, htr, fun r => ?_, fun r => ?_, fun r => ?_, ?_⟩
  · rw [htile, if_neg (ne_of_mem_of_not_mem hq hr).symm]
  · rw [State.tileValue, htile]
    by_cases hr : r = q
    · rw [if_pos hr, hr]
    · rw [if_neg hr, State.tileValue, State.reads_of_translate htr rfl rfl rfl]
      rfl
  · rw [htile]
    by_cases hr : r = q
    · rw [if_pos hr, hr, habsent]
      exact ⟨nofun, nofun⟩
    · rw [if_neg hr]
  · rw [htile]
    by_cases hr : r = q
    · rw [if_pos hr]
      exact nofun
    · rw [if_neg hr]
      exact id
  · exact s.roomFor_setTile _ hq _ rfl rfl rfl rfl

/-- A tile that is ready is read, and the value is its value. -/
theorem State.readTile_ok (s : State) {q : TReg} {ts : List TReg} (hq : q ∈ ts) (hready : s.tileReady q)
    (hroom : s.roomFor ts) : ∃ t, s.readTile q = .ok (s.tileValue q, t) ∧ s.Fetched t ts := by
  cases htile : s.hart.tile q with
  | clean b | dirty b => exact ⟨s, by simp only [State.readTile, State.tileValue, htile], .refl s ts⟩
  | undefined =>
    refine ⟨s.onHart fun h => { h with ur := true }, by simp only [State.readTile, State.tileValue, htile], ?_⟩
    exact ⟨⟨rfl, fun _ _ => rfl⟩, fun _ _ => rfl, fun _ => rfl, fun _ => Iff.rfl, fun _ h => h,
      s.slotsFor_of_slots_le _ 0 _ rfl rfl le_rfl rfl rfl⟩
  | absent =>
    obtain ⟨hmay, htr⟩ := hready htile
    have hslot : s.slotsFor 1 := (s.slot_of_roomFor hq hroom).resolve_left (by rw [htile]; exact Bool.false_ne_true)
    refine ⟨s.filled q, ?_, s.fetched_filled hq htile⟩
    simp only [State.readTile, htile, hmay, if_true, s.readAt_ok _ _ htr, s.makeSlot_of_slot hslot]
    rw [State.filled, s.tileValue_of_absent q htile]
    rfl

theorem State.readTiles_ok (s : State) (qs ts : List TReg) (hqs : qs ⊆ ts) (hready : ∀ q ∈ qs, s.tileReady q)
    (hroom : s.roomFor ts) : ∃ t, s.readTiles qs = .ok (qs.map s.tileValue, t) ∧ s.Fetched t ts := by
  induction qs generalizing s with
  | nil => exact ⟨s, rfl, .refl s ts⟩
  | cons q r ih =>
    obtain ⟨hq, hr⟩ := List.cons_subset.1 hqs
    obtain ⟨t, hread, ht⟩ := s.readTile_ok hq (hready q (List.mem_cons_self ..)) hroom
    obtain ⟨u, hrest, hu⟩ := ih t hr (fun p hp => ht.tileReady (hready p (List.mem_cons_of_mem _ hp))) (ht.room hroom)
    refine ⟨u, ?_, ht.trans hu⟩
    rw [State.readTiles, hread]
    change t.readTiles r >>= _ = _
    rw [hrest, funext ht.value]
    rfl

/-- Where the hart may fall through, it may after reads of tiles. -/
theorem onlyTiles.mayFall {s t : State} {ts : List TReg} (h : onlyTiles s t ts) (hs : s.mayFall) : t.mayFall := by
  obtain ⟨heq, -⟩ := h
  rw [heq]
  exact hs

end Sys2Proof.Machine
end

section
/-! PROOFS of attachment, tile states and tile moves (R115, R120, R325, R331, R335). -/

namespace Sys2Proof.Machine

/-! ### Attachment and tile states (R115, R120, R325, R335) -/

/-- An instruction of compute harts that does no more than change the state and fall through. -/
theorem finish_computeOnly_retire (s t : State) (i : Instr) (hc : s.compute) (hf : t.mayFall) :
    finish (s.computeOnly i >>= fun _ => pure t.retire) = .next t.falls := by
  rw [s.computeOnly_ok i hc, ← t.retire_eq hf]
  rfl

theorem exec_mzero (q : TReg) (s : State) (hc : s.compute) (hf : s.mayFall) (hmay : s.tileMay q true = true)
    (hslot : (s.hart.tile q).held = true ∨ s.slotsFor 1) : exec (.mzero q) s = .next (s.withTile q (.dirty [])).falls := by
  change finish (s.computeOnly (.mzero q) >>= fun _ => s.tileWriteOk q >>= fun _ => s.writeTile q [] >>= fun t =>
    pure t.retire) = _
  rw [s.computeOnly_ok _ hc, s.tileWriteOk_ok q hmay, s.writeTile_ok q [] hslot,
    ← State.retire_eq (s.withTile q (.dirty [])) hf]
  rfl

theorem exec_mzero_lease (q : TReg) (s : State) (hc : s.compute) (hmay : s.tileMay q true = false) :
    exec (.mzero q) s = .next (s.tileFault q) := by
  change finish (s.computeOnly (.mzero q) >>= fun _ => s.tileWriteOk q >>= fun _ => s.writeTile q [] >>= fun t =>
    pure t.retire) = _
  rw [s.computeOnly_ok _ hc, s.tileWriteOk_error q hmay]
  rfl

theorem exec_mpref (q : TReg) (s : State) (hc : s.compute) (hf : s.mayFall) :
    let x : Transfer := { base := s.hart.mapbase, tile := q, spill := false, cancelled := false }
    exec (.mpref q) s = .next
      (if s.hart.tile q = .absent ∧ s.tileMay q false = true ∧ x ∉ s.hart.transfers then
        ({ s with hart := { s.hart with transfers := s.hart.transfers ++ [x] } } : State).falls
      else s.falls) := by
  intro x
  change finish (s.computeOnly (.mpref q) >>= fun _ => pure (if (s.hart.tile q == .absent && s.tileMay q false
    && !s.hart.transfers.contains x) = true then s.onHart fun h => { h with transfers := h.transfers ++ [x] } else s).retire) = _
  have hstart : (s.hart.tile q == .absent && s.tileMay q false && !s.hart.transfers.contains x) = true
      ↔ s.hart.tile q = .absent ∧ s.tileMay q false = true ∧ x ∉ s.hart.transfers := by simp [and_assoc]
  simp only [hstart]
  split
  · exact finish_computeOnly_retire s (s.onHart fun h => { h with transfers := h.transfers ++ [x] }) _ hc hf
  · exact finish_computeOnly_retire s s _ hc hf

theorem attachmentAndTileStates : Sys2Proof.Says.AttachmentAndTileStates := by
  intro q s hc hf x
  refine ⟨?_, ?_, fun hmay hslot => exec_mzero q s hc hf hmay hslot, fun hmay => exec_mzero_lease q s hc hmay, ?_,
    exec_mpref q s hc hf, fun y r => s.tile_withTile q r y⟩
  · exact finish_computeOnly_retire s (s.onHart fun h => { h with attached := true }) _ hc hf
  · exact finish_computeOnly_retire s (s.onHart fun h => { h with attached := false }) _ hc hf
  · exact finish_computeOnly_retire s (s.killTile q) _ hc hf

/-! ### Tile moves (R331) -/

theorem onlyTiles_withTile (s : State) {q : TReg} {ts : List TReg} (hq : q ∈ ts) (x : Tile) : onlyTiles s (s.withTile q x) ts :=
  ⟨rfl, fun _ hr => s.tile_withTile_of_ne x (ne_of_mem_of_not_mem hq hr).symm⟩

/-- The tile a move writes. -/
def State.moved (s : State) (ta : TReg) (f : Bytes → Bytes) : Tile :=
  if s.hart.tile ta = .undefined then .undefined else .dirty (f (s.tileValue ta))

/-- A move reads its source, writes its destination, and at a last use leaves another source Undefined. -/
theorem State.moveTile_eq (s : State) (i : Instr) (ta tb : TReg) (lu : Bool) (f : Bytes → Bytes) (hc : s.compute)
    (hf : s.mayFall) (hready : s.tileReady ta) (hmay : s.tileMay tb true = true) (hslots : s.slotsFor 2) :
    ∃ u, s.Fetched u [ta, tb] ∧ s.moveTile i ta tb lu f
      = .next (if lu then (u.withTile tb (s.moved ta f)).killTiles [ta] [tb] else u.withTile tb (s.moved ta f)).falls := by
  have hroom := s.roomFor_of_slotsFor [ta, tb] hslots
  obtain ⟨u, hread, hu⟩ := s.readTile_ok (List.mem_cons_self ..) hready hroom
  have hslot := u.slot_of_roomFor (List.mem_cons_of_mem ta (List.mem_cons_self ..)) (hu.room hroom)
  refine ⟨u, hu, ?_⟩
  have hfalls (x : Tile) : (if lu then (u.withTile tb x).killTiles [ta] [tb] else u.withTile tb x).mayFall := by
    have hmoved := hu.only.mayFall hf
    cases lu
    · exact hmoved
    · simp only [if_true, State.killTiles, List.foldl_cons, List.foldl_nil]
      split <;> exact hmoved
  rw [← State.retire_eq _ (hfalls _), State.moveTile, s.computeOnly_ok i hc, s.tileReadOk_ok ta hready,
    s.tileWriteOk_ok tb hmay, hread]
  change finish (if s.hart.tile ta = .undefined then
      pure (if lu then (u.killTile tb).killTiles [ta] [tb] else u.killTile tb).retire
    else s.orWait (u.writeTile tb (f (s.tileValue ta))) >>= fun t => pure (if lu then t.killTiles [ta] [tb] else t).retire) = _
  rw [u.writeTile_ok tb _ hslot, State.moved]
  by_cases hundefined : s.hart.tile ta = .undefined
  · rw [if_pos hundefined, if_pos hundefined]
    rfl
  · rw [if_neg hundefined, if_neg hundefined]
    rfl

/-- What a move leaves in its destination and in its source. -/
theorem State.moveTile_moves (s : State) (i : Instr) (ta tb : TReg) (lu : Bool) (f : Bytes → Bytes) (hc : s.compute)
    (hf : s.mayFall) (hready : s.tileReady ta) (hmay : s.tileMay tb true = true) (hslots : s.slotsFor 2) :
    ∃ t, s.moveTile i ta tb lu f = .next t ∧ t.hart.tile tb = s.moved ta f
      ∧ (lu = true → ta ≠ tb → t.hart.tile ta = .undefined) ∧ ∃ u, t = u.falls ∧ onlyTiles s u [ta, tb] := by
  obtain ⟨u, hu, hmove⟩ := s.moveTile_eq i ta tb lu f hc hf hready hmay hslots
  have honly := hu.only.trans (onlyTiles_withTile u (List.mem_cons_of_mem ta (List.mem_cons_self ..)) (s.moved ta f))
  rw [hmove]
  by_cases hkill : lu = true ∧ ta ≠ tb
  · obtain ⟨rfl, hne⟩ := hkill
    have hkilled : (u.withTile tb (s.moved ta f)).killTiles [ta] [tb]
        = (u.withTile tb (s.moved ta f)).withTile ta .undefined := by
      simp [State.killTiles, hne]
      rfl
    rw [if_pos rfl, hkilled]
    refine ⟨_, rfl, ?_, fun _ _ => Hart.tile_setTile_same _ ta _, _, rfl,
      honly.trans (onlyTiles_withTile _ (List.mem_cons_self ..) _)⟩
    exact (State.tile_withTile_of_ne _ _ hne.symm).trans (Hart.tile_setTile_same _ tb _)
  · have hkept : (if lu then (u.withTile tb (s.moved ta f)).killTiles [ta] [tb] else u.withTile tb (s.moved ta f))
        = u.withTile tb (s.moved ta f) := by
      cases lu with
      | false => rfl
      | true => simp [State.killTiles, show ta = tb by simpa using hkill]
    rw [hkept]
    exact ⟨_, rfl, Hart.tile_setTile_same _ tb _, fun hlu hne => absurd ⟨hlu, hne⟩ hkill, _, rfl, honly⟩

theorem tileMovesAndTransposes : Sys2Proof.Says.TileMovesAndTransposes := by
  intro ta tb f lu s hc hf hready hmay hslots
  simp only [List.forall_mem_cons, List.not_mem_nil, false_implies, implies_true, and_true]
  exact ⟨s.moveTile_moves (.mmov ta tb lu) ta tb lu id hc hf hready hmay hslots,
    s.moveTile_moves (.mtrans ta tb f lu) ta tb lu (transpose (4 / 2 ^ f.val)) hc hf hready hmay hslots⟩

/-- Settles O40: a tile state is one `withTile`, and a move is a read of its source followed by one. -/
theorem attachmentTileStatesAndMoves : Obligations.AttachmentTileStatesAndMoves :=
  ⟨attachmentAndTileStates, tileMovesAndTransposes⟩

end Sys2Proof.Machine
end

section
/-! PROOFS of `mapsw` and `ckpt` (R78, R111, R113, R124, R226, R227, R299, R321). -/

namespace Sys2Proof.Machine

/-! ### Which harts run them (R78, R299, R321) -/

theorem State.levelK_ok (s : State) (i : Instr) (hk : s.hart.level = .k) : s.levelK i = .ok () := stopIf_false _ _ (by simp [hk])

theorem State.levelK_error (s : State) (i : Instr) (ht : s.hart.level = .t) : s.levelK i = .error (s.illegal i) :=
  stopIf_true _ _ (by simp [ht])

/-- At level T, and on an access hart, the first two checks of an instruction of level K on compute harts refuse it. -/
theorem State.levelK_computeOnly_error (s : State) (i : Instr) (h : s.hart.level = .t ∨ s.hart.name.ah = true) :
    (s.levelK i >>= fun _ => s.computeOnly i) = .error (s.illegal i) := by
  cases hlevel : s.hart.level with
  | t =>
    rw [s.levelK_error i hlevel]
    rfl
  | k =>
    rw [s.levelK_ok i hlevel, ← s.computeOnly_ah i (h.resolve_left (by simp [hlevel]))]
    rfl

theorem mapSwitchAndCheckpointNeedLevelK : Sys2Proof.Says.MapSwitchAndCheckpointNeedLevelK := by
  intro a s h
  have hmapsw := s.levelK_computeOnly_error (.mapsw a) h
  have hckpt := s.levelK_computeOnly_error .ckpt h
  exact ⟨exec_of_first_check hmapsw _ (congrArg finish (bind_assoc _ _ _).symm),
    exec_of_first_check hckpt _ (congrArg finish (bind_assoc _ _ _).symm)⟩

/-! ### Map switches (R111, R113, R124, R321) -/

theorem State.writeAt_hart {s t : State} {asid va : Nat} {bs : List Byte} (h : s.writeAt asid va bs = .ok t) :
    t.hart = s.hart := by
  rw [State.writeAt] at h
  cases hr : s.runs asid va bs.length with
  | error a => rw [hr] at h; exact nomatch h
  | ok rs =>
    rw [hr] at h
    obtain rfl := Except.ok.inj h
    rfl

/-- A fold of parts that each keep the hart keeps it. -/
theorem foldlM_hart {α : Type} (f : State → α → Part State) (hf : ∀ s x t, f s x = .ok t → t.hart = s.hart)
    (xs : List α) {s t : State} (h : xs.foldlM f s = .ok t) : t.hart = s.hart := by
  induction xs generalizing s with
  | nil =>
    obtain rfl := Except.ok.inj h
    rfl
  | cons x r ih =>
    rw [List.foldlM_cons] at h
    cases hx : f s x with
    | error e => rw [hx] at h; exact nomatch h
    | ok u =>
      rw [hx] at h
      exact (ih h).trans (hf s x u hx)

/-- The eviction of a context writes memory and leaves the hart as it is. -/
theorem State.evict_hart {s t : State} {c : TileCtx} (h : s.evict c = .ok t) : t.hart = s.hart := by
  refine foldlM_hart _ (fun u x v hstep => ?_) _ h
  split at hstep
  · split at hstep
    · next hwrite =>
      obtain rfl := Except.ok.inj hstep
      exact State.writeAt_hart hwrite
    · exact nomatch hstep
  · obtain rfl := Except.ok.inj hstep
    rfl

section
variable (a : XReg) (s : State) (hk : s.hart.level = .k) (hc : s.compute)
include hk hc

theorem exec_mapsw_current (hv : s.getX a = s.hart.mapbase) (hf : s.mayFall) : exec (.mapsw a) s = .next s.falls := by
  change execMapsw a s = _
  rw [execMapsw, s.levelK_ok _ hk, s.computeOnly_ok _ hc, ← s.retire_eq hf, if_pos hv]
  rfl

variable (hv : s.getX a ≠ s.hart.mapbase)
include hv

/-- A base that is not current: the check of its bits, that of the other harts, and the installation. -/
theorem exec_mapsw_other : exec (.mapsw a) s = finish (do
    stopIf (decide ((s.getX a).toNat % 2 ^ 20 ≠ 0 ∨ 2 ^ 57 ≤ (s.getX a).toNat)) (s.raise 0x06 (s.getX a))
    stopIf (s.mapBusy (s.getX a)) (s.raise 0x07 (s.getX a))
    let t ← s.install (s.getX a)
    return t.retire) := by
  have hbits : (decide (bits (s.getX a).toNat 19 0 ≠ 0) || decide (bits (s.getX a).toNat 63 57 ≠ 0))
      = decide ((s.getX a).toNat % 2 ^ 20 ≠ 0 ∨ 2 ^ 57 ≤ (s.getX a).toNat) := by
    rw [← Bool.decide_or, decide_eq_decide]
    simp only [bits]
    omega
  change execMapsw a s = _
  rw [execMapsw, s.levelK_ok _ hk, s.computeOnly_ok _ hc, ← hbits]
  exact congrArg finish (if_neg hv)

theorem exec_mapsw_misaligned (hbad : (s.getX a).toNat % 2 ^ 20 ≠ 0 ∨ 2 ^ 57 ≤ (s.getX a).toNat) :
    exec (.mapsw a) s = .next (s.raise 0x06 (s.getX a)) := by
  rw [exec_mapsw_other a s hk hc hv, stopIf_true _ _ (decide_eq_true hbad)]
  rfl

variable (halign : (s.getX a).toNat % 2 ^ 20 = 0) (hlow : (s.getX a).toNat < 2 ^ 57)
include halign hlow

theorem exec_mapsw_aligned : exec (.mapsw a) s = finish (do
    stopIf (s.mapBusy (s.getX a)) (s.raise 0x07 (s.getX a))
    let t ← s.install (s.getX a)
    return t.retire) := by
  rw [exec_mapsw_other a s hk hc hv, stopIf_false _ _ (decide_eq_false (by omega))]
  rfl

theorem exec_mapsw_busy (hbusy : s.mapBusy (s.getX a) = true) : exec (.mapsw a) s = .next (s.raise 0x07 (s.getX a)) := by
  rw [exec_mapsw_aligned a s hk hc hv halign hlow, stopIf_true _ _ hbusy]
  rfl

theorem exec_mapsw_installs (hbusy : s.mapBusy (s.getX a) = false) {t : State} (hinstall : s.install (s.getX a) = .ok t)
    (hf : t.mayFall) : exec (.mapsw a) s = .next t.falls := by
  rw [exec_mapsw_aligned a s hk hc hv halign hlow, stopIf_false _ _ hbusy, hinstall, ← t.retire_eq hf]
  rfl

end

theorem State.install_held (s : State) (v : Word) (c : TileCtx) (hfind : s.hart.ctxs.find? (fun c => c.base == v) = some c) :
    s.install v = .ok { s with hart := { s.hart with
      mapbase := v, ctxs := s.hart.ctxs.filter (fun c => c.base != v) ++ [c] } } := by
  rw [State.install, hfind]
  rfl

theorem State.install_free (s : State) (v : Word) (hfind : s.hart.ctxs.find? (fun c => c.base == v) = none)
    (hfree : s.hart.ctxs.length < 4) :
    s.install v = .ok { s with hart := { s.hart with mapbase := v, ctxs := s.hart.ctxs ++ [TileCtx.all v .absent] } } := by
  rw [State.install, hfind]
  exact if_pos hfree

theorem State.install_evicts (s t : State) (v : Word) (c : TileCtx) (r : List TileCtx)
    (hfind : s.hart.ctxs.find? (fun c => c.base == v) = none) (hctxs : s.hart.ctxs = c :: r) (hfull : 4 ≤ s.hart.ctxs.length)
    (hevict : s.evict c = .ok t) :
    s.install v = .ok { t with hart := { t.hart with
      mapbase := v, ctxs := r ++ [TileCtx.all v .absent], transfers := t.hart.transfers.filter fun x => x.base != c.base } } := by
  rw [State.install, hfind]
  refine (if_neg (Nat.not_lt.2 hfull)).trans ?_
  rw [hctxs]
  change s.evict c >>= _ = _
  rw [hevict]
  rfl

theorem mapSwitchesContexts : Sys2Proof.Says.MapSwitchesContexts := by
  intro a s hk hc v cs put
  refine ⟨fun hv hf => exec_mapsw_current a s hk hc hv hf, fun hv hbad => exec_mapsw_misaligned a s hk hc hv hbad,
    fun hv halign hlow => ⟨exec_mapsw_busy a s hk hc hv halign hlow, fun hbusy hf => ?_⟩⟩
  have installs {t : State} := exec_mapsw_installs a s hk hc hv halign hlow hbusy (t := t)
  refine ⟨fun c hfind => installs (s.install_held v c hfind) hf, fun hfind =>
    ⟨fun hfree => installs (s.install_free v hfind hfree) hf, fun c r t hctxs hfull hevict =>
      installs (s.install_evicts t v c r hfind hctxs hfull hevict) ?_⟩⟩
  have hhart := State.evict_hart hevict
  rw [State.mayFall, State.fallPc]
  dsimp only
  rw [hhart]
  exact hf

/-! ### The checkpoint area (R226, R227, R299) -/

/-- A store whose keys lie from `n` up. -/
def Bytes.KeysFrom (b : Bytes) (n : Nat) : Prop := ∀ c ∈ b, n ≤ c.1

theorem Bytes.keysFrom_append {a b : Bytes} {n : Nat} (ha : a.KeysFrom n) (hb : b.KeysFrom n) : (a ++ b : Bytes).KeysFrom n :=
  List.forall_mem_append.2 ⟨ha, hb⟩

theorem cells_keysFrom (a n : Nat) (xs : List Byte) (h : n ≤ a) : (cells a xs).KeysFrom n :=
  fun c hc => h.trans (cells_keys a xs c hc).1

theorem fileAt_keysFrom (rs : List Bytes) (off pitch m n : Nat) (h : n ≤ off) : (fileAt rs off pitch m).KeysFrom n := by
  intro c hc
  obtain ⟨r, -, hr⟩ := List.mem_flatMap.1 hc
  obtain ⟨e, -, rfl⟩ := List.mem_map.1 hr
  dsimp only
  omega

/-- A byte below all keys of the second part. -/
theorem Bytes.get_append_of_keysFrom (a : Bytes) {b : Bytes} {n j : Nat} (hb : b.KeysFrom n) (hj : j < n) :
    Bytes.get (a ++ b) j = a.get j := by
  have hmem : j ∉ b.map (·.1) := fun h => by
    obtain ⟨c, hc, rfl⟩ := List.mem_map.1 h
    exact Nat.not_lt.2 (hb c hc) hj
  rw [Bytes.get_append]
  split
  · rfl
  · next ha => rw [Bytes.get_not_mem b j hmem, Bytes.get_not_mem a j ha]

/-- A byte past all cells of the first part. -/
theorem Bytes.get_cells_append_of_le {a j : Nat} (xs : List Byte) (b : Bytes) (hj : a + xs.length ≤ j) :
    Bytes.get (cells a xs ++ b) j = b.get j := by
  have hmem : j ∉ (cells a xs).map (·.1) := fun h => by
    obtain ⟨c, hc, rfl⟩ := List.mem_map.1 h
    exact Nat.not_lt.2 hj (cells_keys a xs c hc).2
  rw [Bytes.get_append, if_neg hmem]

theorem Hart.length_areaHead (h : Hart) (seq : Nat) : (h.areaHead seq).length = 28 := by simp [Hart.areaHead, word8]

/-- The first part of an area is its header and the scalar registers. -/
theorem Hart.get_area (h : Hart) (seq : Nat) (grant : Word) {j : Nat} (hj : j < 0x140) :
    (h.area seq grant).get j = Bytes.get (cells 0 (h.areaHead seq) ++ cells 0x40 (h.x.toList.flatMap word8)) j := by
  have hpreds : (if h.name.ah then [] else fileAt h.areaPreds 0x400 1024 (h.lanes * 32) : Bytes).KeysFrom 0x140 := by
    split
    · exact fun c hc => nomatch hc
    · exact fileAt_keysFrom _ _ _ _ _ (by omega)
  have hlast : (if h.name.ah then [] else fileAt h.v.toList 0xC000 (h.lanes * 256) (h.lanes * 256)
      ++ cells (0xC000 + h.lanes * 8192) (h.shareBytes.take (h.lanes * 8192)) : Bytes).KeysFrom 0x140 := by
    split
    · exact fun c hc => nomatch hc
    · exact Bytes.keysFrom_append (fileAt_keysFrom _ _ _ _ _ (by omega)) (cells_keysFrom _ _ _ (by omega))
  have hcells (a : Bytes) (o : Nat) (xs : List Byte) (ho : 0x140 ≤ o) : Bytes.get (a ++ cells o xs) j = a.get j :=
    Bytes.get_append_of_keysFrom a (cells_keysFrom o _ xs ho) hj
  rw [Hart.area, Bytes.get_append_of_keysFrom _ hlast hj, hcells _ _ _ (by omega), Bytes.get_append_of_keysFrom _ hpreds hj,
    hcells _ _ _ (by omega), hcells _ _ _ (by omega), hcells _ _ _ (by omega)]

theorem Hart.get_area_head (h : Hart) (seq : Nat) (grant : Word) {j : Nat} (hj : j < 28) :
    (h.area seq grant).get j = (h.areaHead seq).getD j 0 := by
  rw [h.get_area seq grant (by omega), Bytes.get_append_of_keysFrom _ (cells_keysFrom _ _ _ le_rfl) (by omega), get_cells,
    if_pos (Nat.zero_le j), Nat.sub_zero]

theorem Hart.get_area_x (h : Hart) (seq : Nat) (grant : Word) {j : Nat} (hj : j < 256) :
    (h.area seq grant).get (0x40 + j) = (h.x.toList.flatMap word8).getD j 0 := by
  rw [h.get_area seq grant (by omega), Bytes.get_cells_append_of_le _ _ (by rw [Hart.length_areaHead]; omega), get_cells,
    if_pos (Nat.le_add_right _ j), Nat.add_sub_cancel_left]

/-- A run of a store is the part of a list that its bytes are. -/
theorem Bytes.getN_of_getD (b : Bytes) (a off n : Nat) (xs : List Byte) (hlen : off + n ≤ xs.length)
    (h : ∀ i < n, b.get (a + i) = xs.getD (off + i) 0) : b.getN a n = (xs.drop off).take n := by
  rw [Bytes.getN_eq]
  refine List.ext_getElem (by simp; omega) fun i h1 h2 => ?_
  have hi : i < n := by simpa using h1
  simp [h i hi, show off + i < xs.length by omega]

/-- The part of a concatenation that one of its items is. -/
theorem take_drop_flatMap {α β : Type} (f : α → List β) (n : Nat) (hf : ∀ x, (f x).length = n) (xs : List α) (i : Nat)
    (hi : i < xs.length) : ((xs.flatMap f).drop (n * i)).take n = f xs[i] := by
  induction xs generalizing i with
  | nil => exact absurd hi (Nat.not_lt_zero i)
  | cons x r ih =>
    cases i with
    | zero => simp [← hf x]
    | succ i =>
      rw [List.flatMap_cons, Nat.mul_succ, Nat.add_comm, ← hf x, ← List.drop_drop, List.drop_left, hf x]
      exact ih i (Nat.lt_of_succ_lt_succ hi)

theorem length_flatMap_word8 (x : Vector Word 32) : (x.toList.flatMap word8).length = 256 := by
  simp [List.length_flatMap, word8]

section
variable (m : Bytes) (h : Hart) (k seq size : Nat) (grant : Word) (hsize : 0x140 ≤ size)
include hsize

/-- A word of the header of an area that was written. -/
theorem Bytes.val_place_area_head (off : Nat) (hoff : off + 8 ≤ 28) :
    (m.place k size (h.area seq grant)).val (k + off) 8 = leVal (((h.areaHead seq).drop off).take 8) := by
  rw [Bytes.val, Bytes.getN_of_getD _ _ off 8 (h.areaHead seq) (by rw [Hart.length_areaHead]; omega)]
  intro i hi
  rw [Bytes.get_place, if_pos (by omega), Nat.add_assoc, Nat.add_sub_cancel_left, h.get_area_head seq grant (by omega)]

/-- A scalar register in an area that was written. -/
theorem Bytes.val_place_area_x (r : XReg) :
    (m.place k size (h.area seq grant)).val (k + 0x40 + 8 * r.val) 8 = (h.x.get r).toNat := by
  have hr := r.isLt
  rw [Bytes.val, Bytes.getN_of_getD _ _ (8 * r.val) 8 (h.x.toList.flatMap word8) (by rw [length_flatMap_word8]; omega),
    take_drop_flatMap word8 8 (fun w => length_leBytes 8 _) _ _ (by simp)]
  · rw [word8, leVal_leBytes, Nat.mod_eq_of_lt (BitVec.isLt _), Vector.getElem_toList, Vector.get_eq_getElem]
  · intro i hi
    rw [Bytes.get_place, if_pos (by omega), show k + 0x40 + 8 * r.val + i - k = 0x40 + (8 * r.val + i) by omega,
      h.get_area_x seq grant (by omega)]

end

theorem exec_ckpt (s : State) (hk : s.hart.level = .k) (hc : s.compute) (hf : s.mayFall) (hb : s.hart.bound = true) :
    exec .ckpt s = .next (s.falls.checkpoint s.falls.hart) := by
  change execCkpt s = _
  rw [execCkpt, s.levelK_ok _ hk, s.computeOnly_ok _ hc, s.retire_eq hf]
  exact congrArg Host.Outcome.next (if_pos hb)

theorem checkpointHoldsContext : Sys2Proof.Says.CheckpointHoldsContext := by
  intro s hk hc hf hb t a k n
  have hcompute : t.hart.name.ah = false := hc
  have hsize : t.hart.areaSize = 0xC000 + t.hart.lanes * 16384 := if_neg (by simp [hcompute])
  have hmin : 0x140 ≤ t.hart.areaSize := by omega
  refine ⟨_, exec_ckpt s hk hc hf hb, rfl, ?_, ?_, fun r hr => ?_, fun j hj => ?_⟩
  · exact (Bytes.val_place_area_head s.mem t.hart k (n + 1) _ t.grant hmin 8 (by omega)).trans (leVal_leBytes 8 (n + 1))
  · exact (Bytes.val_place_area_head s.mem t.hart k (n + 1) _ t.grant hmin 16 (by omega)).trans
      ((leVal_leBytes 8 _).trans (Nat.mod_eq_of_lt (BitVec.isLt _)))
  · rw [State.getX, Hart.getX, if_neg hr]
    exact Bytes.val_place_area_x s.mem t.hart k (n + 1) _ t.grant hmin r
  · have hsame : t.hart.areaSize = s.hart.areaSize := rfl
    exact (Bytes.get_place s.mem _ k t.hart.areaSize j).trans (if_neg (by omega))

/-- Settles O33: a map switch by the four cases of `State.install`, and a checkpoint by reading the written area back. -/
theorem mapSwitchAndCheckpoint : Obligations.MapSwitchAndCheckpoint :=
  ⟨mapSwitchesContexts, mapSwitchAndCheckpointNeedLevelK, checkpointHoldsContext⟩

end Sys2Proof.Machine
end

section
/-! PROOFS of the K walk (R117, R140 to R144, R328): the elements of an accumulator after some K-steps, as words of its tiles. -/

namespace Sys2Proof.Machine

/-! ### One element -/

/-- One K-step of element [i][j]. -/
def elemStep (f : Fmt) (comp : Bool) (len : Nat) (a b : List (List (List Byte))) (i j : Nat)
    (p : Nat × Nat × Flags) (st : Nat) : Nat × Nat × Flags :=
  let ks := stepIndices f len st
  let r := accumulate f comp p.1 p.2.1 (stepSum (walkElems f a ks i) (walkElems f b ks j))
  (r.1, r.2.1, p.2.2 ||| r.2.2)

theorem mmaElem_eq (f : Fmt) (comp : Bool) (len : Nat) (a b : List (List (List Byte))) (steps : List Nat) (i j v c : Nat) :
    mmaElem f comp len a b steps i j v c = steps.foldl (elemStep f comp len a b i j) (v, c, noFlags) := rfl

section
variable (f : Fmt) (comp : Bool) (len : Nat) (a b : List (List (List Byte)))

/-- One K-step of the accumulator is that of each of its elements. -/
theorem kStep_range (st : Nat) (g : Nat → Nat × Nat × Flags) :
    kStep f comp ((List.range 32).map (walkElems f a (stepIndices f len st)))
      ((List.range 32).map (walkElems f b (stepIndices f len st))) ((List.range 1024).map g)
      = (List.range 1024).map fun x => elemStep f comp len a b (x / 32) (x % 32) (g x) st := by
  refine List.ext_getElem (by simp [kStep]) fun x _ h2 => ?_
  have hx : x < 1024 := by simpa using h2
  have hrow (t : List (List (List Byte))) (y : Nat) (hy : y < 32) :
      ((List.range 32).map (walkElems f t (stepIndices f len st))).getD y [] = walkElems f t (stepIndices f len st) y := by
    simp [hy]
  simp only [kStep, List.getElem_map, List.getElem_zipIdx, List.getElem_range, Nat.zero_add, hrow a (x / 32) (by omega),
    hrow b (x % 32) (by omega)]
  rfl

theorem kWalk_range (steps : List Nat) (g : Nat → Nat × Nat × Flags) :
    kWalk f comp len a b steps ((List.range 1024).map g)
      = (List.range 1024).map fun x => steps.foldl (elemStep f comp len a b (x / 32) (x % 32)) (g x) := by
  induction steps generalizing g with
  | nil => rfl
  | cons st r ih =>
    rw [kWalk, List.foldl_cons, kStep_range f comp len a b st g]
    exact ih _

end

/-! ### Words of a tile -/

theorem words32_eq (n : Nat) (bs : List Byte) : words32 n bs = (List.range n).map fun x => leVal ((bs.drop (4 * x)).take 4) := by
  induction n generalizing bs with
  | zero => rfl
  | succ n ih =>
    rw [words32, ih, List.range_succ_eq_map, List.map_cons, List.map_map]
    refine congrArg₂ List.cons rfl (List.map_congr_left fun x _ => ?_)
    rw [List.drop_drop, Function.comp_apply, Nat.mul_succ, Nat.add_comm]

theorem tileWords_eq (b : Bytes) : tileWords b = (List.range 1024).map (tileWord b) := by
  rw [tileWords, words32_eq]
  refine List.map_congr_left fun x hx => ?_
  have hx := List.mem_range.1 hx
  rw [tileWord, Bytes.val,
    Bytes.getN_of_getD b (4 * x) (4 * x) 4 (b.getN 0 tileSize) (by rw [Bytes.length_getN, tileSize]; omega)]
  intro i hi
  simp [Bytes.getN_eq, show 4 * x + i < tileSize by rw [tileSize]; omega]

/-- The words of an accumulator tile that was written. -/
theorem tileWord_ofWords (ws : List Nat) (x : Nat) (hx : x < ws.length) : tileWord (ofWords ws) x = ws[x] % 2 ^ 32 := by
  have hlen : (ws.flatMap (leBytes 4)).length = 4 * ws.length := by simp [List.length_flatMap, Nat.mul_comm]
  have hget := Bytes.getN_put_inside [] 0 (4 * x) 4 (ws.flatMap (leBytes 4)) (by omega)
  rw [Nat.zero_add] at hget
  rw [tileWord, Bytes.val, ofWords, hget, take_drop_flatMap (leBytes 4) 4 (length_leBytes 4) ws x hx, leVal_leBytes]

/-- The elements of the accumulator `d`, and of the one after it under `comp`, after some K-steps over the rows `a` and `b`. -/
def State.summed (s : State) (f : Fmt) (d : TReg) (a b : List (List (List Byte))) (steps : List Nat) :
    List (Nat × Nat × Flags) :=
  (List.range 1024).map fun x =>
    mmaElem f s.hart.lentE0 s.hart.len a b steps (x / 32) (x % 32) (tileWord (s.tileValue d) x)
      (if s.hart.lentE0 then tileWord (s.tileValue (tileAfter d 1)) x else 0)

/-- The K walk from the values of the accumulator tiles. -/
theorem State.summed_eq_kWalk (s : State) (f : Fmt) (d : TReg) (a b : List (List (List Byte))) (steps : List Nat) (c : Bytes)
    (hc : ∀ x, tileWord c x = if s.hart.lentE0 then tileWord (s.tileValue (tileAfter d 1)) x else 0) :
    kWalk f s.hart.lentE0 s.hart.len a b steps
      (((tileWords (s.tileValue d)).zip (tileWords c)).map fun p => (p.1, p.2, noFlags)) = s.summed f d a b steps := by
  rw [tileWords_eq, tileWords_eq, List.zip_map', List.map_map]
  refine (kWalk_range f _ _ a b steps _).trans (List.map_congr_left fun x _ => ?_)
  rw [mmaElem_eq, ← hc]
  rfl

end Sys2Proof.Machine
end

section
/-! PROOFS of `mma`, `mmasp` and `mmats` (R117, R120, R140 to R144, R162, R163, R222, R223, R328 to R330): their shared body on
operands that are ready, in a turn that goes to the end and in one that stops inside. -/

namespace Sys2Proof.Machine

/-! ### The shared body -/

/-- A part that went on goes on with the rest. -/
theorem part_ok_bind {α β : Type} (x : α) (k : α → Part β) : ((Except.ok x : Part α) >>= k) = k x := rfl

/-- The accumulator tiles of an instruction (R144). -/
abbrev State.accTiles (s : State) (d : TReg) : List TReg := if s.hart.lentE0 then [d, tileAfter d 1] else [d]

/-- The tiles of a walk of the length of `VL` (R117). -/
abbrev State.walks (s : State) (f : Fmt) (t : TReg) : List TReg := walkTiles t ((s.hart.len + fmtCap f - 1) / fmtCap f)

/-- The rows of some tiles. -/
def State.rowsOf (s : State) (ts : List TReg) : List (List (List Byte)) := ts.map fun q => tileRows (s.tileValue q)

/-- The tiles of a matrix multiply of the walk `ta` and the tiles `bs` into `d` are ready, and there are slots for them. -/
structure State.Fits (s : State) (f : Fmt) (d ta : TReg) (bs : List TReg) : Prop where
  attached : s.hart.attached = true
  len : 0 < s.hart.len
  last : ta.val + (s.hart.len + fmtCap f - 1) / fmtCap f - 1 ≤ 255
  readyA : ∀ q ∈ s.walks f ta, s.tileReady q
  readyB : ∀ q ∈ bs, s.tileReady q
  acc : ∀ q ∈ s.accTiles d, s.tileReady q ∧ s.tileMay q true = true
  slots : s.slotsFor ((s.walks f ta).length + bs.length + 2)

/-- The accumulator tiles have been written with some elements. -/
def State.accWritten (s : State) (d : TReg) (acc : List (Nat × Nat × Flags)) : State :=
  let t := s.withTile d (.dirty (ofWords (acc.map (·.1))))
  if s.hart.lentE0 then t.withTile (tileAfter d 1) (.dirty (ofWords (acc.map (·.2.1)))) else t

/-- So have the flags, and `n` K-steps are counted. -/
def State.accumulated (s : State) (d : TReg) (acc : List (Nat × Nat × Flags)) (n : Nat) : State :=
  (s.accWritten d acc).onHart fun h => (h.orFlags (orAll (acc.map (·.2.2)))).addUnits n

/-- The K-steps of this turn are done, `rest` are left: the operands of last use are Undefined, or `VSTART` names the
first index not summed (R223, R328). -/
def State.sumEnds (s : State) (f : Fmt) (dead ds : List TReg) (rest : List Nat) : State :=
  match rest with
  | [] => (s.killTiles dead ds).vretire
  | st :: _ => s.onHart fun h => { h with vstart := BitVec.ofNat 64 (fmtDepth f * st) }

theorem State.mem_accTiles (s : State) {d : TReg} : d ∈ s.accTiles d := by
  rw [State.accTiles]
  split <;> exact List.mem_cons_self ..

/-- The values of the accumulator tiles, in their order. -/
theorem State.accTiles_first (s : State) (d : TReg) : ((s.accTiles d).map s.tileValue).getD 0 [] = s.tileValue d := by
  rw [State.accTiles]
  split <;> rfl

theorem State.tileWord_accTiles_next (s : State) {d : TReg} (x : Nat) :
    tileWord (((s.accTiles d).map s.tileValue).getD 1 []) x
      = if s.hart.lentE0 then tileWord (s.tileValue (tileAfter d 1)) x else 0 := by
  rw [State.accTiles]
  split <;> rfl

theorem tileAfter_one_ne (d : TReg) : tileAfter d 1 ≠ d := by
  intro h
  have hval := congrArg Fin.val h
  have := d.isLt
  simp only [tileAfter, Fin.val_ofNat] at hval
  omega

section
variable {s : State} {f : Fmt} {d ta : TReg} {bs : List TReg} (h : s.Fits f d ta bs)
include h

theorem State.Fits.room : s.roomFor (s.walks f ta ++ bs ++ s.accTiles d) := by
  have hds : (s.accTiles d).length ≤ 2 := by
    rw [State.accTiles]
    split <;> simp
  refine s.roomFor_of_slotsFor _ (s.slotsFor_mono ?_ h.slots)
  rw [List.length_append, List.length_append]
  omega

theorem State.Fits.reads : (s.walks f ta ++ bs).forM s.tileReadOk = .ok () :=
  forM_ok _ _ fun q hq => s.tileReadOk_ok q ((List.mem_append.1 hq).elim (h.readyA q) (h.readyB q))

theorem State.Fits.sums : (s.accTiles d).forM s.tileSumOk = .ok () :=
  forM_ok _ _ fun q hq => by
    obtain ⟨hready, hmay⟩ := h.acc q hq
    rw [State.tileSumOk, s.tileWriteOk_ok q hmay, s.tileReadOk_ok q hready]
    rfl

/-- The tiles are read in their order, each with its value. -/
theorem State.Fits.values : ∃ u v w, s.readTiles (s.walks f ta) = .ok ((s.walks f ta).map s.tileValue, u)
    ∧ u.readTiles bs = .ok (bs.map s.tileValue, v)
    ∧ v.readTiles (s.accTiles d) = .ok ((s.accTiles d).map s.tileValue, w)
    ∧ s.Fetched w (s.walks f ta ++ bs ++ s.accTiles d) := by
  have hroom := h.room
  obtain ⟨u, hreadA, hu⟩ := s.readTiles_ok (s.walks f ta) _
    (List.subset_append_of_subset_left _ (List.subset_append_left _ bs)) h.readyA hroom
  obtain ⟨v, hreadB, hv⟩ := u.readTiles_ok bs _
    (List.subset_append_of_subset_left _ (List.subset_append_right (s.walks f ta) bs))
    (fun q hq => hu.tileReady (h.readyB q hq)) (hu.room hroom)
  have hsv := hu.trans hv
  obtain ⟨w, hreadD, hw⟩ := v.readTiles_ok (s.accTiles d) _ (List.subset_append_right (s.walks f ta ++ bs) _)
    (fun q hq => hsv.tileReady (h.acc q hq).1) (hsv.room hroom)
  rw [funext hu.value] at hreadB
  rw [funext hsv.value] at hreadD
  exact ⟨u, v, w, hreadA, hreadB, hreadD, hsv.trans hw⟩

end

section
variable {s : State} {f : Fmt} {ta : TReg} {td : AReg} {d : TReg} (hd : Fin.ofNat 256 td.val = d) {tb : Option TReg}
  {bs : List TReg} (hbs : (tb.map fun t => s.walks f t).getD [] = bs)
  (hlast : ∀ t, tb = some t → t.val + (s.hart.len + fmtCap f - 1) / fmtCap f - 1 ≤ 255)
  {given : List (List (List Byte))} {bRows : Nat → Part (List (List (List Byte)))}
  (hgiven : bRows ((s.hart.len + fmtCap f - 1) / fmtCap f) = .ok given)
  (hc : s.compute) (h : s.Fits f d ta bs) (i : Instr) (lu : BitVec 2)
include hd hbs hlast hgiven hc h

/-- The body sums over the values of the tiles in their order. -/
theorem State.matmul_eq :
    let steps := kSteps f s.hart.len s.hart.start
    let now := s.stepsNow steps (s.walks f ta ++ bs) d
    let acc := s.summed f d (s.rowsOf (s.walks f ta)) (if tb.isSome then s.rowsOf bs else given) now
    let dead := (if lu.getLsbD 1 then s.walks f ta else []) ++ if lu.getLsbD 0 then bs else []
    ∃ u, s.Fetched u (s.walks f ta ++ bs ++ s.accTiles d) ∧ s.matmul i f td ta tb lu bRows
      = .next ((u.accumulated d acc now.length).sumEnds f dead (s.accTiles d) (steps.drop now.length)) := by
  intro steps now acc dead
  obtain ⟨u, v, w, hreadA, hreadB, hreadD, hw⟩ := h.values
  have hreads := h.reads
  have hsums := h.sums
  have hpast : (decide (255 < ta.val + (s.hart.len + fmtCap f - 1) / fmtCap f - 1)
      || (tb.map fun t => decide (255 < t.val + (s.hart.len + fmtCap f - 1) / fmtCap f - 1)).getD false) = false := by
    rw [decide_eq_false (Nat.not_lt.2 h.last)]
    cases tb with
    | none => rfl
    | some t => exact decide_eq_false (Nat.not_lt.2 (hlast t rfl))
  have hlent : w.hart.lentE0 = s.hart.lentE0 := by
    rw [hw.only.1]
    rfl
  have hrows (ts : List TReg) : (ts.map s.tileValue).map tileRows = s.rowsOf ts := List.map_map
  have hwriteD (b : Bytes) := w.writeTile_ok d b (w.slot_of_roomFor (List.mem_append_right _ s.mem_accTiles) (hw.room h.room))
  refine ⟨w, hw, ?_⟩
  have hwalk (a b : List (List (List Byte))) (steps : List Nat) := s.summed_eq_kWalk f d a b steps _ s.tileWord_accTiles_next
  simp only [State.matmul, s.computeOnly_ok i hc, State.needAttach, h.attached, Bool.not_true, stopIf_false _ _ rfl,
    if_neg h.len.ne', hpast, hgiven, part_ok_bind, hreads, hsums, hreadA, hreadB, hreadD, hd, hbs, hrows, s.accTiles_first, hwalk,
    hwriteD, State.orWait]
  rw [State.accumulated, State.accWritten, hlent]
  by_cases hcomp : s.hart.lentE0 = true
  · have hnext : tileAfter d 1 ∈ s.accTiles d := by simp [State.accTiles, hcomp]
    have hwriteNext (x : Tile) (b : Bytes) (hx : x.held = true) := (w.withTile d x).writeTile_ok (tileAfter d 1) b
      ((w.withTile d x).slot_of_roomFor (List.mem_append_right _ hnext)
        (w.roomFor_withTile (List.mem_append_right _ s.mem_accTiles) x hx (hw.room h.room)))
    simp only [if_pos hcomp, hwriteNext (.dirty _) _ rfl, part_ok_bind]
    cases steps.drop now.length <;> rfl
  · simp only [if_neg hcomp]
    cases steps.drop now.length <;> rfl

end

end Sys2Proof.Machine
end

section
/-! PROOFS that the matrix multiplies accumulate (R117, R120, R140 to R144, R162, R163, R222, R223, R328 to R330): what the tiles
and the rest of the state are after the shared body, and the checks of the operands of each instruction. -/

namespace Sys2Proof.Machine

/-! ### Tiles after the accumulators were written -/

theorem State.tileValue_of_dirty {s : State} {q : TReg} {b : Bytes} (h : s.hart.tile q = .dirty b) : s.tileValue q = b := by
  rw [State.tileValue, h]

section
variable (s : State) (d : TReg) (acc : List (Nat × Nat × Flags))

theorem State.accWritten_first : (s.accWritten d acc).hart.tile d = .dirty (ofWords (acc.map (·.1))) := by
  have hfirst := (s.tile_withTile d d (.dirty (ofWords (acc.map (·.1))))).trans (if_pos rfl)
  rw [State.accWritten]
  split
  · rw [State.tile_withTile_of_ne _ _ (tileAfter_one_ne d).symm, hfirst]
  · exact hfirst

theorem State.accWritten_next (hcomp : s.hart.lentE0 = true) :
    (s.accWritten d acc).hart.tile (tileAfter d 1) = .dirty (ofWords (acc.map (·.2.1))) := by
  rw [State.accWritten, if_pos hcomp, State.tile_withTile, if_pos rfl]

theorem State.accWritten_only {ts : List TReg} (hts : s.accTiles d ⊆ ts) : onlyTiles s (s.accWritten d acc) ts := by
  have hfirst := onlyTiles_withTile s (hts s.mem_accTiles) (.dirty (ofWords (acc.map (·.1))))
  rw [State.accWritten]
  split
  · next hcomp => exact hfirst.trans (onlyTiles_withTile _ (hts (by simp [State.accTiles, hcomp])) _)
  · exact hfirst

end

/-! ### Flags and counted K-steps -/

theorem Hart.addUnits_eq (h : Hart) (n : Nat) :
    ∃ done retired, h.addUnits n = { h with dlnDone := done, retired := retired } := by
  rw [Hart.addUnits]
  split <;> exact ⟨_, _, rfl⟩

theorem Hart.tile_addUnits (h : Hart) (n : Nat) (q : TReg) : (h.addUnits n).tile q = h.tile q := by
  obtain ⟨done, retired, heq⟩ := h.addUnits_eq n
  rw [heq]
  rfl

theorem Hart.addUnits_with (h : Hart) (n : Nat) (cs : List TileCtx) (ur : Bool) (st : Word) :
    ({ h with ctxs := cs, ur := ur, status := st } : Hart).addUnits n
      = { h.addUnits n with ctxs := cs, ur := ur, status := st } := by
  cases hstep : h.step <;> simp only [Hart.addUnits, hstep]

theorem State.tile_accumulated (s : State) (d : TReg) (acc : List (Nat × Nat × Flags)) (n : Nat) (q : TReg) :
    (s.accumulated d acc n).hart.tile q = (s.accWritten d acc).hart.tile q :=
  Hart.tile_addUnits _ n q

/-- The state after the accumulators were written, but for the tiles. -/
theorem State.accumulated_eq {s u : State} {ts : List TReg} (d : TReg) (acc : List (Nat × Nat × Flags)) (n : Nat)
    (h : onlyTiles s (u.accWritten d acc) ts) :
    u.accumulated d acc n = { s with
      leaves := (u.accumulated d acc n).leaves
      hart := { s.hart.addUnits n with
        ctxs := (u.accWritten d acc).hart.ctxs, ur := (u.accWritten d acc).hart.ur
        status := s.hart.status ||| (orAll (acc.map (·.2.2))).setWidth 64 } } := by
  obtain ⟨heq, -⟩ := h
  rw [State.accumulated, heq]
  exact congrArg (fun k : Hart => ({ s with leaves := (u.accWritten d acc).leaves, hart := k } : State))
    (s.hart.addUnits_with n _ _ _)

/-! ### Last uses (R115, R223) -/

theorem State.tile_killTiles (s : State) (ts written : List TReg) (q : TReg) :
    (s.killTiles ts written).hart.tile q = if q ∈ ts ∧ q ∉ written then .undefined else s.hart.tile q := by
  induction ts generalizing s with
  | nil => simp [State.killTiles]
  | cons t r ih =>
    rw [State.killTiles, List.foldl_cons]
    by_cases ht : t ∈ written
    · rw [if_pos (by simpa using ht)]
      refine (ih s).trans ?_
      by_cases hq : q = t <;> simp [ht, hq]
    · rw [if_neg (by simpa using ht)]
      refine (ih (s.withTile t .undefined)).trans ?_
      rw [State.tile_withTile]
      by_cases hq : q = t <;> simp [hq, ht]

theorem State.killTiles_only (s : State) {ts us : List TReg} (written : List TReg) (hts : ts ⊆ us) :
    onlyTiles s (s.killTiles ts written) us := by
  refine ⟨?_, fun q hq => by rw [s.tile_killTiles, if_neg fun h => hq (hts h.1)]⟩
  clear hts
  induction ts generalizing s with
  | nil => rfl
  | cons t r ih =>
    rw [State.killTiles, List.foldl_cons]
    refine (ih _).trans ?_
    split <;> rfl

/-! ### A turn that goes to the end, and one that stops inside -/

/-- The words of the accumulator after the K-steps summed. -/
theorem State.tileWord_summed (s : State) (f : Fmt) (d : TReg) (a b : List (List (List Byte))) (steps : List Nat)
    (get : Nat × Nat × Flags → Nat) (x : Nat) (hx : x < 1024) :
    tileWord (ofWords ((s.summed f d a b steps).map get)) x
      = get (mmaElem f s.hart.lentE0 s.hart.len a b steps (x / 32) (x % 32) (tileWord (s.tileValue d) x)
        (if s.hart.lentE0 then tileWord (s.tileValue (tileAfter d 1)) x else 0)) % 2 ^ 32 := by
  rw [tileWord_ofWords _ x (by simpa [State.summed] using hx)]
  simp [State.summed]

theorem State.Fetched.lentE0 {s u : State} {ts : List TReg} (h : s.Fetched u ts) : u.hart.lentE0 = s.hart.lentE0 := by
  rw [h.only.1]
  rfl

theorem State.Fetched.accTiles {s u : State} {ts : List TReg} (h : s.Fetched u ts) (d : TReg) : u.accTiles d = s.accTiles d := by
  rw [State.accTiles, h.lentE0]

section
variable {s u : State} {f : Fmt} {d ta : TReg} {bs : List TReg} (hu : s.Fetched u (s.walks f ta ++ bs ++ s.accTiles d))
include hu

theorem State.Fetched.accWritten_only (acc : List (Nat × Nat × Flags)) :
    onlyTiles s (u.accWritten d acc) (s.walks f ta ++ bs ++ s.accTiles d) :=
  hu.only.trans (u.accWritten_only d acc (by
    rw [hu.accTiles]
    exact List.subset_append_right _ _))

/-- A turn that goes to the end accumulates all K-steps, marks last uses and falls through. -/
theorem State.Fetched.multiplied_vretire (hf : s.mayFall) {td : AReg} (hd : Fin.ofNat 256 td.val = d) {dead : List TReg}
    (hdead : dead ⊆ s.walks f ta ++ bs) (b : List (List (List Byte))) :
    let steps := kSteps f s.hart.len s.hart.start
    let acc := s.summed f d (s.rowsOf (s.walks f ta)) b steps
    multiplied s ((u.accumulated d acc steps.length).killTiles dead (s.accTiles d)).vretire f td (s.walks f ta) bs dead b := by
  intro steps acc
  have honly := hu.accWritten_only acc
  have hacc := State.accumulated_eq d acc steps.length honly
  have hkill := (u.accumulated d acc steps.length).killTiles_only (s.accTiles d)
    (List.subset_append_of_subset_left (s.accTiles d) hdead)
  have htile (q : TReg) := (u.accumulated d acc steps.length).tile_killTiles dead (s.accTiles d) q
  simp only [State.tile_accumulated] at htile
  set v := (u.accumulated d acc steps.length).killTiles dead (s.accTiles d)
  have hv := hkill.1
  rw [hacc] at hv
  have hfall : v.mayFall := by
    obtain ⟨done, retired, hunits⟩ := s.hart.addUnits_eq steps.length
    rw [hv, hunits]
    exact hf
  rw [v.vretire_eq hfall]
  have hfirst : v.hart.tile d = .dirty (ofWords (acc.map (·.1))) := by
    rw [htile, if_neg fun h => h.2 s.mem_accTiles, u.accWritten_first]
  have hnext (hcomp : s.hart.lentE0 = true) : v.hart.tile (tileAfter d 1) = .dirty (ofWords (acc.map (·.2.1))) := by
    have hmem : tileAfter d 1 ∈ s.accTiles d := by simp [State.accTiles, hcomp]
    rw [htile, if_neg fun h => h.2 hmem, u.accWritten_next d acc (hu.lentE0.trans hcomp)]
  simp only [Machine.multiplied, hd]
  refine ⟨fun x hx => ⟨?_, fun hcomp => ?_⟩, fun q hq hqd => ?_, fun q ha hb hqd => ?_, ?_⟩
  · rw [show v.vfalls.tileValue d = _ from State.tileValue_of_dirty hfirst]
    exact s.tileWord_summed f d _ b steps (·.1) x hx
  · rw [show v.vfalls.tileValue (tileAfter d 1) = _ from State.tileValue_of_dirty (hnext hcomp)]
    exact s.tileWord_summed f d _ b steps (·.2.1) x hx
  · exact (htile q).trans (if_pos ⟨hq, hqd⟩)
  · have hout : q ∉ s.walks f ta ++ bs ++ s.accTiles d := fun h =>
      (List.mem_append.1 h).elim (fun h => (List.mem_append.1 h).elim ha hb) hqd
    exact (hkill.2 q hout).trans ((u.tile_accumulated d acc steps.length q).trans (honly.2 q hout))
  · rw [show acc.map (·.2.2) = _ from List.map_map] at hv
    exact congrArg State.vfalls hv

/-- A turn that stops after some K-steps accumulates those, at its pc, and leaves the operands as they are. -/
theorem State.Fetched.summed_part (acc : List (Nat × Nat × Flags)) (n : Nat) (vstart : Word)
    (hacc : ∀ q ∈ s.walks f ta ++ bs, q ∉ s.accTiles d) :
    let t := (u.accumulated d acc n).onHart fun h => { h with vstart := vstart }
    t.hart.pc = s.hart.pc ∧ t.mem = s.mem ∧ t.tileValue d = ofWords (acc.map (·.1))
      ∧ ∀ q ∈ s.walks f ta ++ bs, t.hart.tile q = .undefined → s.hart.tile q = .undefined := by
  intro t
  have heq := State.accumulated_eq d acc n (hu.accWritten_only acc)
  have htile (q : TReg) : t.hart.tile q = (u.accWritten d acc).hart.tile q := u.tile_accumulated d acc n q
  have hmem := congrArg State.mem heq
  refine ⟨?_, hmem, State.tileValue_of_dirty ((htile d).trans (u.accWritten_first d acc)), fun q hq h => ?_⟩
  · obtain ⟨done, retired, hunits⟩ := s.hart.addUnits_eq n
    rw [hunits] at heq
    have hpc := congrArg (fun v : State => v.hart.pc) heq
    exact hpc
  · have hout : q ∉ u.accTiles d := by
      rw [hu.accTiles]
      exact hacc q hq
    rw [htile, (u.accWritten_only d acc (List.Subset.refl _)).2 q hout] at h
    exact (hu.undefined q).1 h

end

/-! ### The operands of each instruction (R152, R162, R328, R330) -/

theorem rowsOver_none (starts : List Nat) (h : ∀ o ∈ starts, o + 128 ≤ 2 ^ 21) : rowsOver starts = none := by
  have hnone : starts.filter (fun o => spSize < o + 128) = [] :=
    List.filter_eq_nil_iff.2 fun o ho => by
      have := h o ho
      rw [decide_eq_true_eq, spSize]
      omega
  rw [rowsOver, hnone]
  rfl

theorem State.pitchedChecks_ok (s : State) (o : Nat) (cw : Word) (n : Nat) (hdir : cw.toNat % 4 = 0) (hhigh : cw.toNat < 2 ^ 36)
    (hpitch : pitchOk cw.toNat o = true) (hrows : ∀ m < n, ∀ j < 32, pitchedRow cw.toNat o m j + 128 ≤ 2 ^ 21) :
    s.pitchedChecks o cw n = .ok () := by
  have hctl : (decide (bits cw.toNat 63 36 ≠ 0) || decide (cwDir cw.toNat ≠ 0) || !pitchOk cw.toNat o) = false := by
    have hbits : bits cw.toNat 63 36 = 0 := by simp only [bits]; omega
    have hcw : cwDir cw.toNat = 0 := by simp only [cwDir, bits]; omega
    simp [hbits, hcw, hpitch]
  have hover := rowsOver_none ((List.range n).flatMap fun m => (List.range 32).map (pitchedRow cw.toNat o m)) fun x hx => by
    simp only [List.mem_flatMap, List.mem_map, List.mem_range] at hx
    obtain ⟨m, hm, j, hj, rfl⟩ := hx
    exact hrows m hm j hj
  rw [State.pitchedChecks, State.spCtl, stopIf_false _ _ hctl, hover]
  rfl

/-- The bytes of a row of a carve-out as operand fetches see them (R163). -/
theorem State.carveRow_eq (s : State) (k : Carve) (r : Nat) :
    ((k.bytes.getN (128 * r) 128).zipIdx.map fun p => s.opByte k.handle (128 * r + p.2) p.1)
      = (List.range 128).map fun x => s.opByte k.handle (128 * r + x) (k.bytes.get (128 * r + x)) := by
  refine List.ext_getElem (by simp) fun x _ h2 => ?_
  simp [Bytes.getN_eq]

end Sys2Proof.Machine
end

section
/-! PROOF of the obligation on matrix multiplies (R117, R120, R140 to R144, R162, R163, R222, R223, R328 to R330). -/

namespace Sys2Proof.Machine

/-! ### Checks before the operands (R120, R328) -/

section
variable (s : State) (i : Instr) (f : Fmt) (td : AReg) (ta : TReg) (tb : Option TReg) (lu : BitVec 2)
  (bRows : Nat → Part (List (List (List Byte)))) (hc : s.compute)
include hc

theorem State.matmul_unattached (h : s.hart.attached = false) : s.matmul i f td ta tb lu bRows = .next (s.raise 0x05 0) := by
  rw [State.matmul, s.computeOnly_ok i hc, State.needAttach, stopIf_true _ _ (by rw [h]; rfl)]
  rfl

theorem State.matmul_empty (h : s.hart.attached = true) (hlen : s.hart.len = 0) (hf : s.mayFall) :
    s.matmul i f td ta tb lu bRows = .next s.vfalls := by
  rw [State.matmul, s.computeOnly_ok i hc, State.needAttach, stopIf_false _ _ (by rw [h]; rfl), ← s.vretire_eq hf]
  exact congrArg finish (if_pos hlen)

end

/-- The three instructions are one body. -/
theorem exec_eq_matmul (f : Fmt) (td : AReg) (ta tb : TReg) (lu : BitVec 2) (b c : XReg) (s : State) :
    ∀ i ∈ [Instr.mma f td ta tb lu, .mmasp f td ta b c, .mmats f td ta b c],
      ∃ x y bRows, exec i s = s.matmul i f td ta x y bRows := by
  simp only [List.forall_mem_cons, List.not_mem_nil, false_implies, implies_true, and_true]
  exact ⟨⟨_, _, _, execMma.eq_1 f td ta tb lu s⟩, ⟨_, _, _, execMmasp.eq_1 f td ta b c s⟩,
    ⟨_, _, _, execMmats.eq_1 f td ta b c s⟩⟩

/-! ### Whole turns -/

section
variable {s : State} {f : Fmt} {ta : TReg} {td : AReg} (hc : s.compute) (hhow : s.how = .whole) (hf : s.mayFall)
include hc hhow hf

theorem exec_mma (tb : TReg) (lu : BitVec 2) (h : s.Fits f (Fin.ofNat 256 td.val) ta (s.walks f tb))
    (hlast : tb.val + (s.hart.len + fmtCap f - 1) / fmtCap f - 1 ≤ 255) :
    ∃ t, exec (.mma f td ta tb lu) s = .next t ∧ multiplied s t f td (s.walks f ta) (s.walks f tb)
      ((if lu.getLsbD 1 then s.walks f ta else []) ++ if lu.getLsbD 0 then s.walks f tb else []) (s.rowsOf (s.walks f tb)) := by
  obtain ⟨u, hu, hmatmul⟩ := State.matmul_eq rfl (tb := some tb) (bs := s.walks f tb) rfl
    (fun t ht => Option.some.inj ht ▸ hlast) (bRows := fun _ => .ok []) rfl hc h (.mma f td ta tb lu) lu
  have hnow (steps : List Nat) (ts : List TReg) (d : TReg) : s.stepsNow steps ts d = steps := by rw [State.stepsNow, hhow]
  rw [hnow, List.drop_length] at hmatmul
  refine ⟨_, hmatmul, hu.multiplied_vretire hf rfl ?_ _⟩
  refine List.append_subset.2 ⟨?_, ?_⟩ <;> split
  · exact List.subset_append_left _ _
  · exact List.nil_subset _
  · exact List.subset_append_right _ _
  · exact List.nil_subset _

/-- `mmasp` and `mmats` read B from rows that their own checks give. -/
theorem State.matmul_given (i : Instr) {bRows : Nat → Part (List (List (List Byte)))} {given : List (List (List Byte))}
    (hgiven : bRows ((s.hart.len + fmtCap f - 1) / fmtCap f) = .ok given) (h : s.Fits f (Fin.ofNat 256 td.val) ta []) :
    ∃ t, s.matmul i f td ta none 0 bRows = .next t ∧ multiplied s t f td (s.walks f ta) [] [] given := by
  obtain ⟨u, hu, hmatmul⟩ := State.matmul_eq rfl (tb := none) rfl nofun hgiven hc h i 0
  have hnow (steps : List Nat) (ts : List TReg) (d : TReg) : s.stepsNow steps ts d = steps := by rw [State.stepsNow, hhow]
  rw [hnow, List.drop_length] at hmatmul
  exact ⟨_, hmatmul, hu.multiplied_vretire hf rfl (List.nil_subset _) _⟩

theorem exec_mmasp (b c : XReg) (h : s.Fits f (Fin.ofNat 256 td.val) ta []) (hdir : (s.getX c).toNat % 4 = 0)
    (hhigh : (s.getX c).toNat < 2 ^ 36) (hpitch : pitchOk (s.getX c).toNat (s.getX b).toNat = true)
    (hrows : ∀ m < (s.hart.len + fmtCap f - 1) / fmtCap f, ∀ j < 32,
      pitchedRow (s.getX c).toNat (s.getX b).toNat m j + 128 ≤ 2 ^ 21) :
    ∃ t, exec (.mmasp f td ta b c) s = .next t
      ∧ multiplied s t f td (s.walks f ta) [] [] ((List.range ((s.hart.len + fmtCap f - 1) / fmtCap f)).map fun m =>
        (List.range 32).map fun j => (pitchedBytes (s.getX c).toNat (s.getX b).toNat m j).map s.opSp) := by
  change ∃ t, execMmasp f td ta b c s = _ ∧ _
  rw [execMmasp]
  refine State.matmul_given hc hhow hf (.mmasp f td ta b c) ?_ h
  simp only [s.pitchedChecks_ok _ _ _ hdir hhigh hpitch hrows]
  rfl

theorem exec_mmats (b c : XReg) (h : s.Fits f (Fin.ofNat 256 td.val) ta []) (k : Carve) (hk : s.carve? (s.getX b) = some k) :
    let n := (s.hart.len + fmtCap f - 1) / fmtCap f
    let w := (s.getX c).toNat
    w < 2 ^ 48 → w % 2 ^ 24 + w / 2 ^ 24 * (n - 1) + 31 < k.rows →
      ∃ t, exec (.mmats f td ta b c) s = .next t
        ∧ multiplied s t f td (s.walks f ta) [] [] ((List.range n).map fun m => (List.range 32).map fun j =>
          (List.range 128).map fun x =>
            let at1 := 128 * (w % 2 ^ 24 + w / 2 ^ 24 * m + j) + x
            s.opByte k.handle at1 (k.bytes.get at1)) := by
  intro n w hhigh hrows
  have hctl : bits w 63 48 = 0 := by simp only [bits]; omega
  have hfirst : bits w 23 0 = w % 2 ^ 24 := by simp [bits]
  have hpitch : bits w 47 24 = w / 2 ^ 24 := by simp only [bits]; omega
  change ∃ t, execMmats f td ta b c s = _ ∧ _
  rw [execMmats]
  refine State.matmul_given hc hhow hf (.mmats f td ta b c) ?_ h
  rw [hk]
  change (s.spCtl (decide (bits w 63 48 ≠ 0)) (s.getX c) >>= fun _ =>
    stopIf (decide (k.rows ≤ bits w 23 0 + bits w 47 24 * (n - 1) + 31)) (s.raiseOpen 0x0E) >>= fun _ =>
      pure ((List.range n).map fun m => (List.range 32).map fun j =>
        (k.bytes.getN (128 * (bits w 23 0 + bits w 47 24 * m + j)) 128).zipIdx.map fun p =>
          s.opByte k.handle (128 * (bits w 23 0 + bits w 47 24 * m + j) + p.2) p.1)) = _
  rw [hctl, hfirst, hpitch, State.spCtl, stopIf_false _ _ (decide_eq_false (not_not.2 rfl)),
    stopIf_false _ _ (decide_eq_false (Nat.not_le.2 hrows))]
  simp only [s.carveRow_eq]
  rfl

end

/-! ### A turn that stops inside (R222, R223) -/

/-- An `mma` that does not walk its accumulator, nor the tile after it, stops after the first K-steps. -/
theorem State.stepsNow_part (s : State) {steps : List Nat} {walked : List TReg} {d : TReg} {j : Nat} (hhow : s.how = .part j)
    (hapart : ∀ q ∈ [d, tileAfter d 1], q ∉ walked) : s.stepsNow steps walked d = steps.take (j + 1) := by
  have hd := hapart d (List.mem_cons_self ..)
  have hnext := hapart (tileAfter d 1) (List.mem_cons_of_mem _ (List.mem_cons_self ..))
  simp only [State.stepsNow, hhow]
  exact if_neg (by simp [hd, hnext])

theorem exec_mma_part {s : State} {f : Fmt} {ta tb : TReg} {td : AReg} {d : TReg} (hd : Fin.ofNat 256 td.val = d) (lu : BitVec 2)
    (hc : s.compute) (h : s.Fits f d ta (s.walks f tb))
    (hlast : tb.val + (s.hart.len + fmtCap f - 1) / fmtCap f - 1 ≤ 255) {j st : Nat} (hhow : s.how = .part j)
    (hapart : ∀ q ∈ [d, tileAfter d 1], q ∉ s.walks f ta ++ s.walks f tb)
    (hst : (kSteps f s.hart.len s.hart.start)[j + 1]? = some st) :
    ∃ t, exec (.mma f td ta tb lu) s = .next t ∧ t.hart.pc = s.hart.pc ∧ t.mem = s.mem
      ∧ t.hart.vstart = BitVec.ofNat 64 (fmtDepth f * st)
      ∧ (∀ q ∈ s.walks f ta ++ s.walks f tb, t.hart.tile q = .undefined → s.hart.tile q = .undefined)
      ∧ t.tileValue d = ofWords ((s.summed f d (s.rowsOf (s.walks f ta)) (s.rowsOf (s.walks f tb))
        ((kSteps f s.hart.len s.hart.start).take (j + 1))).map (·.1)) := by
  obtain ⟨u, hu, hmatmul⟩ := State.matmul_eq hd (tb := some tb) (bs := s.walks f tb) rfl
    (fun t ht => Option.some.inj ht ▸ hlast) (bRows := fun _ => .ok []) rfl hc h (.mma f td ta tb lu) lu
  obtain ⟨hlt, hget⟩ := List.getElem?_eq_some_iff.1 hst
  have htake : ((kSteps f s.hart.len s.hart.start).take (j + 1)).length = j + 1 := List.length_take_of_le hlt.le
  have hdrop := List.drop_eq_getElem_cons hlt
  rw [s.stepsNow_part hhow hapart, htake, hdrop, hget] at hmatmul
  have hacc : ∀ q ∈ s.walks f ta ++ s.walks f tb, q ∉ s.accTiles d := fun q hq hqd => by
    refine hapart q ?_ hq
    rw [State.accTiles] at hqd
    split at hqd
    · exact hqd
    · exact List.mem_cons.2 (.inl (List.mem_singleton.1 hqd))
  obtain ⟨hpc, hmem, hvalue, hundefined⟩ := hu.summed_part _ (j + 1) (BitVec.ofNat 64 (fmtDepth f * st)) hacc
  exact ⟨_, hmatmul, hpc, hmem, rfl, hundefined, hvalue⟩

/-- Settles O23: the three instructions are one body (`State.matmul_eq`), whose K walk is that of each element (`kWalk_range`). -/
theorem matrixMultiplies : Obligations.MatrixMultiplies := by
  intro f td ta tb lu b c s hc n as bs d ds rowsA rowsB fits fine fineB three
  have hfits (hfit : fits) (ts : List TReg) (hready : ∀ q ∈ ts, s.tileReady q) (hlen : ts.length ≤ bs.length) :
      s.Fits f d ta ts := by
    obtain ⟨hattached, hpos, hlast, hreadyA, hacc, hslots⟩ := hfit
    exact ⟨hattached, hpos, hlast, hreadyA, hready, hacc,
      s.slotsFor_mono (Nat.add_le_add_right (Nat.add_le_add_left hlen _) 2) hslots⟩
  have hgiven (hfit : fits) : s.Fits f d ta [] := hfits hfit [] (fun _ h => nomatch h) (Nat.zero_le _)
  refine ⟨fun h i hi => ?_, fun h hlen hf i hi => ?_, fun ⟨hfit, hhow, hf⟩ ⟨hlast, hready⟩ => ?_,
    fun ⟨hfit, hhow, hf⟩ => ?_, fun ⟨hfit, hhow, hf⟩ k hk => ?_, fun j st hfit ⟨hlast, hready⟩ hhow hapart hst => ?_⟩
  · obtain ⟨x, y, bRows, hexec⟩ := exec_eq_matmul f td ta tb lu b c s i hi
    rw [hexec, s.matmul_unattached i f td ta x y bRows hc h]
  · obtain ⟨x, y, bRows, hexec⟩ := exec_eq_matmul f td ta tb lu b c s i hi
    rw [hexec, s.matmul_empty i f td ta x y bRows hc h hlen hf]
  · exact exec_mma hc hhow hf tb lu (hfits hfit bs hready le_rfl) hlast
  · exact exec_mmasp hc hhow hf b c (hgiven hfit)
  · exact exec_mmats hc hhow hf b c (hgiven hfit) k hk
  · obtain ⟨t, hexec, hpc, hmem, hvstart, hundefined, hvalue⟩ := exec_mma_part rfl lu hc
      (hfits hfit bs hready le_rfl) hlast hhow (fun q hq hwalk => (List.mem_append.1 hwalk).elim (hapart q hq).1 (hapart q hq).2) hst
    refine ⟨t, hexec, hpc, hmem, hvstart, hundefined, fun x hx => ?_⟩
    rw [hvalue]
    exact s.tileWord_summed f d _ _ _ (·.1) x hx

end Sys2Proof.Machine
end

section
/-! PROOFS of where a vector turn ends (R222), and of element results written with their flags (R126, R353). -/

namespace Sys2Proof.Machine

/-! ### Where a turn ends (R222) -/

/-- Where an instruction of `n` elements ends in this turn: at `n`, if it cannot stop inside. -/
def State.stopOf (s : State) (unit : Option Nat) (n : Nat) : Nat :=
  match unit with
  | some u => s.cut u s.hart.start n
  | none => n

theorem State.cut_of_not_part (s : State) (unit start n : Nat) (h : ∀ j, s.how ≠ .part j) : s.cut unit start n = n := by
  unfold State.cut
  split
  · exact absurd ‹_› (h _)
  · rfl

theorem State.cut_of_part (s : State) (unit start n : Nat) {j : Nat} (h : s.how = .part j) :
    s.cut unit start n = min n ((start / unit + j + 1) * unit) := by rw [State.cut, h]

section
variable {s : State} {unit : Option Nat} {n stop : Nat} {done : State → State} (h : s.endsAt unit n stop done)
include h

theorem State.endsAt.stopOf_eq : s.stopOf unit n = stop := by
  rcases h with ⟨rfl, -, -, hlast⟩ | ⟨u, j, rfl, hhow, rfl, hlt, -⟩
  · cases unit with
    | none => rfl
    | some u =>
      by_cases hpart : ∃ j, s.how = .part j
      · obtain ⟨j, hhow⟩ := hpart
        exact (s.cut_of_part u _ _ hhow).trans (min_eq_left (hlast u j rfl hhow))
      · exact s.cut_of_not_part u _ _ (not_exists.1 hpart)
  · exact (s.cut_of_part u _ _ hhow).trans (min_eq_right hlt.le)

theorem State.endsAt.min_stop : min stop n = stop := by
  rcases h with ⟨rfl, -⟩ | ⟨_, _, -, -, -, hlt, -⟩
  · exact min_self _
  · exact min_eq_left hlt.le

/-- What is left of a hart that wrote vector registers and flags is `done`; `m` may lie past the last element, as the end of a
block of which `VL`.LEN reaches a part does. -/
theorem State.endsAt.vend_eq (v : Vector Bytes 32) (status : Word) {m : Nat} (hm : min m n = stop) :
    ({ s with hart := { s.hart with v := v, status := status } } : State).vend m n
      = done { s with hart := { s.hart with v := v, status := status } } := by
  unfold State.vend
  rcases h with ⟨rfl, hfall, rfl, -⟩ | ⟨u, j, -, -, -, hlt, rfl⟩
  · rw [if_neg (by omega)]
    exact State.vretire_eq _ hfall
  · obtain rfl : m = stop := by omega
    rw [if_pos hlt]
    rfl

/-- Completing or stopping leaves the vector registers. -/
theorem State.endsAt.done_v (t : State) : (done t).hart.v = t.hart.v := by
  rcases h with ⟨-, -, rfl, -⟩ | ⟨_, _, -, -, -, -, rfl⟩ <;> rfl

end

/-! ### Results with their flags (R126, R353) -/

theorem Hart.mem_active (h : Hart) (p : PReg) (start n k : Nat) :
    k ∈ h.active p start n ↔ (decide (start ≤ k ∧ k < n) && h.pred p k) = true := by
  simp only [Hart.active, List.mem_filter, List.mem_range, Bool.and_eq_true, decide_eq_true_eq]
  tauto

theorem Hart.active_eq_filter (h : Hart) (p : PReg) (start n : Nat) :
    h.active p start n = (List.range n).filter fun k => decide (start ≤ k ∧ k < n) && h.pred p k :=
  List.filter_congr fun k hk => by simp [List.mem_range.1 hk]

/-- The results of the elements `ks`, written to `d` and its copy, with their flags. -/
def State.withResults (s : State) (d : VReg) (w : Nat) (ks : List Nat) (f : Nat → Nat × Flags) : State :=
  let rs := ks.map fun k => (k, f k)
  s.onHart fun h => (h.writeElems d w (rs.map fun r => (r.1, r.2.1))).orFlags (orAll (rs.map fun r => r.2.2))

theorem State.withResults_eq (s : State) (d : VReg) (w : Nat) (ks : List Nat) (f : Nat → Nat × Flags) :
    s.withResults d w ks f = { s with
      hart := { s.hart with
        v := (s.hart.writeElems d w (ks.map fun k => (k, (f k).1))).v
        status := s.hart.status ||| (orAll (ks.map fun k => (f k).2)).setWidth 64 } } := by
  unfold State.withResults
  simp only [List.map_map]
  rw [State.onHart, Hart.writeElems_eq]
  rfl

/-- An instruction whose results are those of the elements `on` writes them with their flags, and nothing else. -/
theorem State.endsAt.withResults_vend {s : State} {unit : Option Nat} {n stop : Nat} {done : State → State}
    (h : s.endsAt unit n stop done) (d : VReg) {w : Nat} (hw : w % 8 = 0) (f : Nat → Nat × Flags) {ks : List Nat}
    {on : Nat → Bool} (hon : ∀ k, k ∈ ks ↔ on k = true) {m : Nat} (hm : min m n = stop) :
    ∃ t, (.next ((s.withResults d w ks f).vend m n) : Out) = .next t ∧ elementsWritten s t d w on (fun k => (f k).1)
      ∧ t = done { s with
          hart := { s.hart with
            v := t.hart.v, status := s.hart.status ||| (orAll (ks.map fun k => (f k).2)).setWidth 64 } } := by
  rw [State.withResults_eq, h.vend_eq _ _ hm]
  refine ⟨_, rfl, elementsWritten_of_writeElems s _ d w hw ks _ on hon (h.done_v _), ?_⟩
  rw [h.done_v]

end Sys2Proof.Machine
end

section
/-! PROOFS of the floating-point operations, conversions, table look-ups, broadcasts, moves and `vidx` (R126, R146, R222, R353,
R356, R359 to R361, R364, R370). -/

namespace Sys2Proof.Machine

/-- The meaning they share. -/
def State.doesElements (s : State) (i : Instr) (o : VecOp) : Out := finish do
  s.computeOnly i
  let stop := s.stopOf o.unit o.n
  return (s.withResults o.d o.w (s.hart.active o.p s.hart.start stop) o.f).vend stop o.n

theorem State.elementsOf_eq (s : State) (i : Instr) (d : VReg) (p : PReg) (w wm n : Nat) (f : Nat → Nat × Flags) :
    s.elementsOf i d p w wm n f
      = s.doesElements i { d := d, p := p, w := w, n := n, unit := some (s.hart.groupOf wm), f := f } := rfl

/-- One that completes does what one that has reached its last element does. -/
theorem State.vend_last (t : State) (n : Nat) : t.vend n n = t.vretire := if_neg (Nat.lt_irrefl n)

theorem State.exec_vtbl_eq (s : State) (d a : VReg) (t : Fin 4) (p : PReg) (e : ET) (o : VecOp)
    (ho : s.fpVecOp (.vtbl d a t p e) = some o) : exec (.vtbl d a t p e) s = s.doesElements (.vtbl d a t p e) o := by
  obtain rfl := Option.some.inj ho
  unfold State.doesElements
  simp only [State.stopOf, State.vend_last]
  rfl

theorem State.fpVecOp_spec (s : State) (i : Instr) (o : VecOp) (h : s.fpVecOp i = some o) :
    exec i s = s.doesElements i o ∧ o.w % 8 = 0 := by
  cases i with
  | vfadd _ _ _ _ e | vfsub _ _ _ _ e | vfmul _ _ _ _ e | vfma _ _ _ _ e | vfnma _ _ _ _ e | vfdiv _ _ _ _ e | vfsqrt _ _ _ e
  | vfmin _ _ _ _ e | vfmax _ _ _ _ e | vfclass _ _ _ e | vbcast _ _ _ e | vmv _ _ _ e | vidx _ _ e =>
    obtain rfl := Option.some.inj h
    exact ⟨State.elementsOf_eq .., (width_spec e).1⟩
  | vcvt _ _ _ _ _ dst | vfcvt _ _ _ _ dst =>
    obtain rfl := Option.some.inj h
    exact ⟨State.elementsOf_eq .., (width_spec dst).1⟩
  | vtbl d a t p e =>
    refine ⟨s.exec_vtbl_eq d a t p e o h, ?_⟩
    obtain rfl := Option.some.inj h
    exact (width_spec e).1
  | _ => exact nomatch h

/-- Settles O19: all of them write the results of the elements up to the turn's stop (`State.fpVecOp_spec`). -/
theorem vectorFloatElementsAndFlags : Obligations.VectorFloatElementsAndFlags := by
  intro i s o stop done _ ho hc hends
  obtain ⟨hexec, hw⟩ := s.fpVecOp_spec i o ho
  have hwrites : exec i s
      = .next ((s.withResults o.d o.w (s.hart.active o.p s.hart.start stop) o.f).vend stop o.n) := by
    rw [hexec, State.doesElements, s.computeOnly_ok i hc, hends.stopOf_eq]
    rfl
  have hflags : s.flagsOf o.p stop (fun k => (o.f k).2) = orAll ((s.hart.active o.p s.hart.start stop).map fun k => (o.f k).2) := by
    rw [Hart.active_eq_filter]
    rfl
  rw [hwrites, hflags]
  exact hends.withResults_vend o.d hw o.f (s.hart.mem_active o.p s.hart.start stop) hends.min_stop

end Sys2Proof.Machine
end

section
/-! PROOFS of the LNS6 block operations (R136, R138, R139, R222). -/

namespace Sys2Proof.Machine

/-! ### The checks (R138) -/

theorem State.lnsChecks_ok (s : State) (i : Instr) (hc : s.compute) (hlen : s.hart.len ≤ s.hart.lanes * 64) :
    s.lnsChecks i = .ok () := by
  have hmax : decide (s.hart.vlmax 32 < s.hart.len) = false := decide_eq_false (by unfold Hart.vlmax; omega)
  rw [State.lnsChecks, s.computeOnly_ok i hc, part_ok_bind, stopIf_false _ _ hmax]

theorem State.lnsChecks_long (s : State) (i : Instr) (hc : s.compute) (hlen : s.hart.lanes * 64 < s.hart.len) :
    s.lnsChecks i = .error (s.raise 0x08 (BitVec.ofNat 64 s.hart.len)) := by
  have hmax : decide (s.hart.vlmax 32 < s.hart.len) = true := decide_eq_true (by unfold Hart.vlmax; omega)
  rw [State.lnsChecks, s.computeOnly_ok i hc, part_ok_bind, stopIf_true _ _ hmax]

/-! ### Blocks -/

section
variable {s : State} {n stop : Nat} {done : State → State} (h : s.endsAt (some 20) n stop done)
include h

/-- The elements done in a turn are those of its blocks, of which the last may lie past `VL`.LEN. -/
theorem State.endsAt.min_blocks : min ((stop + 19) / 20 * 20) n = stop := by
  rcases h with ⟨rfl, -⟩ | ⟨u, j, hu, -, hstop, hlt, -⟩
  · omega
  · obtain rfl := Option.some.inj hu
    omega

/-- A turn ends with the last of its blocks. -/
theorem State.endsAt.cut_blocks : s.cut 20 s.hart.start ((n + 19) / 20 * 20) = (stop + 19) / 20 * 20 := by
  rcases h with ⟨rfl, -, -, hlast⟩ | ⟨u, j, hu, hhow, hstop, hlt, -⟩
  · by_cases hpart : ∃ j, s.how = .part j
    · obtain ⟨j, hhow⟩ := hpart
      have hreach := hlast 20 j rfl hhow
      rw [s.cut_of_part _ _ _ hhow]
      omega
    · exact s.cut_of_not_part _ _ _ (not_exists.1 hpart)
  · obtain rfl := Option.some.inj hu
    rw [s.cut_of_part _ _ _ hhow]
    omega

end

theorem State.lnsOp_spec (s : State) (i : Instr) (d : VReg) (p : PReg) (f : Nat → Lns × Flags) (h : s.lnsOp i = some (d, p, f)) :
    exec i s = s.lnsBlocks i d p f := by
  cases i with
  | vlnspack | vlnsmul | vlnsadd | vscale =>
    obtain ⟨rfl, rfl, rfl⟩ := h
    rfl
  | _ => exact nomatch h

/-- The block loop writes the results of the blocks up to the turn's stop. -/
theorem State.lnsBlocks_eq (s : State) (i : Instr) (d : VReg) (p : PReg) (f : Nat → Lns × Flags) (hc : s.compute)
    (hlen : s.hart.len ≤ s.hart.lanes * 64) {stop : Nat} {done : State → State} (h : s.endsAt (some 20) s.hart.len stop done) :
    s.lnsBlocks i d p f = .next ((s.withResults d 128 (s.hart.active p (s.hart.start / 20) ((stop + 19) / 20)) (s.lnsBlock f)).vend
      ((stop + 19) / 20 * 20) s.hart.len) := by
  unfold State.lnsBlocks
  rw [s.lnsChecks_ok i hc hlen, part_ok_bind]
  simp only [h.cut_blocks, Nat.mul_div_cancel _ (show 0 < 20 by decide)]
  rfl

/-! ### Elements of blocks (R138) -/

/-- The result of `vlnsunpack` for element `k`. -/
def State.lnsUnpacked (s : State) (a : VReg) (k : Nat) : Nat × Flags :=
  fmt32.convert s.hart.effRmode (s.lnsAt a k).value (s.hart.sr k)

/-- A `vlnsunpack` over its own source stops nowhere (log entry 10). -/
theorem State.stopOf_overwrites (s : State) (d a : VReg) (n : Nat) :
    s.stopOf (if d = a ∨ s.copyV a then none else some 20) n
      = if s.hart.overwrites d a then n else s.cut 20 s.hart.start n := by
  have hiff : s.hart.overwrites d a = true ↔ d = a ∨ s.copyV a := by
    rw [Hart.overwrites, Bool.or_eq_true, Bool.and_eq_true, beq_iff_eq, decide_eq_true_eq, beq_iff_eq]
    exact or_congr Iff.rfl (and_congr Iff.rfl eq_comm)
  by_cases h : d = a ∨ s.copyV a
  · rw [if_pos h, if_pos (hiff.2 h)]
    rfl
  · rw [if_neg h, if_neg (mt hiff.1 h)]
    rfl

theorem exec_vlnsunpack (s : State) (d a : VReg) (p : PReg) (hc : s.compute) (hlen : s.hart.len ≤ s.hart.lanes * 64) {stop : Nat}
    {done : State → State} (h : s.endsAt (if d = a ∨ s.copyV a then none else some 20) s.hart.len stop done) :
    exec (.vlnsunpack d a p) s = .next ((s.withResults d 32 (s.hart.active p (s.hart.start / 20 * 20) stop) (s.lnsUnpacked a)).vend
      stop s.hart.len) := by
  show execVlnsunpack d a p s = _
  unfold execVlnsunpack
  rw [s.lnsChecks_ok _ hc hlen, part_ok_bind, ← s.stopOf_overwrites, h.stopOf_eq]
  rfl

/-- Settles O20: a block operation writes the results of whole blocks (`State.lnsBlocks_eq`), `vlnsunpack` those of elements. -/
theorem logarithmicBlocks : Obligations.LogarithmicBlocks := by
  intro s stop done hc
  refine ⟨fun hlen => ⟨fun hends i d p f hop => ?_, fun d a p hends => ?_⟩,
    fun hlen => ⟨fun i d p f hop => ?_, fun d a p => ?_⟩⟩
  · have hwrites := hends.withResults_vend (w := 128) d (by decide) (s.lnsBlock f)
      (s.hart.mem_active p (s.hart.start / 20) ((stop + 19) / 20)) hends.min_blocks
    rwa [← s.lnsBlocks_eq i d p f hc hlen hends, ← s.lnsOp_spec i d p f hop, Hart.active_eq_filter] at hwrites
  · have hwrites := hends.withResults_vend (w := 32) d (by decide) (s.lnsUnpacked a)
      (s.hart.mem_active p (s.hart.start / 20 * 20) stop) hends.min_stop
    rwa [← exec_vlnsunpack s d a p hc hlen hends, Hart.active_eq_filter] at hwrites
  · rw [s.lnsOp_spec i d p f hop, State.lnsBlocks, s.lnsChecks_long i hc hlen]
    rfl
  · show execVlnsunpack d a p s = _
    rw [execVlnsunpack, s.lnsChecks_long _ hc hlen]
    rfl

end Sys2Proof.Machine
end

section
/-! PROOFS of the permutations (R63, R134, R358, R371, R375): units of a register, written one by one. -/

namespace Sys2Proof.Machine

/-! ### Units of a register -/

/-- A unit reads as `x` after units were written, where every write of it writes `x`, and there is one or it read so before. -/
theorem getN_putUnits_of (b : Bytes) (n k : Nat) (x : List Byte) (rs : List (Nat × List Byte))
    (hlen : ∀ r ∈ rs, r.2.length = n) (hx : ∀ r ∈ rs, r.1 = k → r.2 = x) (hb : (∃ r ∈ rs, r.1 = k) ∨ b.getN (k * n) n = x) :
    (putUnits b n rs).getN (k * n) n = x := by
  induction rs generalizing b with
  | nil => exact hb.resolve_left fun ⟨_, hr, _⟩ => nomatch hr
  | cons r rs ih =>
    have hr : r.2.length = n := hlen r List.mem_cons_self
    refine ih (b.put (r.1 * n) r.2) (fun q hq => hlen q (List.mem_cons_of_mem _ hq))
      (fun q hq => hx q (List.mem_cons_of_mem _ hq)) ?_
    by_cases hk : r.1 = k
    · have hsame := b.getN_put_same (r.1 * n) r.2
      rw [hr, hk, hx r List.mem_cons_self hk] at hsame
      rw [hk, hx r List.mem_cons_self hk]
      exact .inr hsame
    · have hapart : k * n + n ≤ r.1 * n ∨ r.1 * n + r.2.length ≤ k * n := by
        rw [hr, ← Nat.succ_mul, ← Nat.succ_mul]
        exact (Nat.lt_or_gt_of_ne hk).symm.imp (Nat.mul_le_mul_right n) (Nat.mul_le_mul_right n)
      rw [b.getN_put_apart _ _ _ _ hapart]
      refine hb.imp_left fun ⟨q, hq, hqk⟩ => ⟨q, (List.mem_cons.1 hq).resolve_left fun he => hk (he ▸ hqk), hqk⟩

/-- The results `rs` are `f`: for each unit that `f` has, its bytes, and nothing else. -/
def listsUnits (n : Nat) (rs : List (Nat × List Byte)) (f : Nat → Option (List Byte)) : Prop :=
  (∀ k x, (k, x) ∈ rs ↔ f k = some x) ∧ ∀ k x, f k = some x → x.length = n

theorem getN_putUnits (b : Bytes) {n : Nat} {rs : List (Nat × List Byte)} {f : Nat → Option (List Byte)} (h : listsUnits n rs f)
    (k : Nat) : (putUnits b n rs).getN (k * n) n = if (f k).isSome then (f k).getD [] else b.getN (k * n) n := by
  obtain ⟨hmem, hlen⟩ := h
  have hlens : ∀ r ∈ rs, r.2.length = n := fun r hr => hlen r.1 r.2 ((hmem r.1 r.2).1 hr)
  have hread : ∀ r ∈ rs, r.1 = k → f k = some r.2 := by
    rintro r hr rfl
    exact (hmem r.1 r.2).1 hr
  cases hf : f k with
  | none => exact getN_putUnits_of b n k _ rs hlens (fun r hr hk => nomatch hf.symm.trans (hread r hr hk)) (.inr rfl)
  | some x =>
    exact getN_putUnits_of b n k x rs hlens (fun r hr hk => (Option.some.inj (hf.symm.trans (hread r hr hk))).symm)
      (.inl ⟨(k, x), (hmem k x).2 hf, rfl⟩)

/-! ### Results to the destination and its copy (R63) -/

/-- The registers that receive units change, and no other. -/
theorem Hart.writeUnits_eq (h : Hart) (d : VReg) (n : Nat) (rs : List (Nat × List Byte)) :
    h.writeUnits d n rs = { h with v := (h.writeUnits d n rs).v } := by
  unfold Hart.writeUnits
  split <;> rfl

/-- A register that receives units has them written to it, twice where it is the destination and the copy. -/
theorem Hart.getV_writeUnits (h : Hart) (d r : VReg) (n : Nat) (rs : List (Nat × List Byte)) :
    (h.writeUnits d n rs).getV r =
      if h.lentDk = 2 ∧ r = h.lentDc then
        if r = d then putUnits (putUnits (h.getV r) n rs) n rs else putUnits (h.getV r) n rs
      else if r = d then putUnits (h.getV r) n rs else h.getV r := by
  unfold Hart.writeUnits
  by_cases hdk : h.lentDk = 2
  · simp only [hdk, if_true, true_and, Hart.getV_setV]
    by_cases hc : r = h.lentDc
    · rw [if_pos hc, if_pos hc, ← hc]
      by_cases hd : r = d
      · rw [if_pos hd, if_pos hd, hd]
      · rw [if_neg hd, if_neg hd]
    · rw [if_neg hc, if_neg hc]
      by_cases hd : r = d
      · rw [if_pos hd, if_pos hd, hd]
      · rw [if_neg hd, if_neg hd]
  · simp only [hdk, if_false, false_and, Hart.getV_setV]
    by_cases hd : r = d
    · rw [if_pos hd, if_pos hd, hd]
    · rw [if_neg hd, if_neg hd]

theorem unitsWritten_of_writeUnits (s t : State) (d : VReg) {n : Nat} {rs : List (Nat × List Byte)}
    {f : Nat → Option (List Byte)} (h : listsUnits n rs f) (hv : t.hart.v = (s.hart.writeUnits d n rs).v) :
    unitsWritten s t d n (fun k => (f k).isSome) (fun k => (f k).getD []) := by
  have hread (r : VReg) : t.hart.getV r = (s.hart.writeUnits d n rs).getV r := by rw [Hart.getV, hv]; rfl
  refine ⟨fun r hr k => ?_, fun r hd hcopy => ?_⟩
  · rw [hread, Hart.getV_writeUnits]
    by_cases hcopy : s.hart.lentDk = 2 ∧ r = s.hart.lentDc
    · rw [if_pos hcopy]
      by_cases hd : r = d
      · rw [if_pos hd, getN_putUnits _ h, getN_putUnits _ h]
        split <;> rfl
      · rw [if_neg hd, getN_putUnits _ h]
    · rw [if_neg hcopy, if_pos (hr.resolve_right hcopy), getN_putUnits _ h]
  · rw [hread, Hart.getV_writeUnits, if_neg hcopy, if_neg hd]

/-- A whole instruction writes its units, and nothing else but `VSTART` and the pc. -/
theorem State.wholeUnits_writes (s : State) (i : Instr) (d : VReg) {n : Nat} {rs : List (Nat × List Byte)}
    {f : Nat → Option (List Byte)} (h : listsUnits n rs f) (hc : s.compute) (hf : s.mayFall) :
    ∃ t, s.wholeUnits i d n rs = .next t ∧ unitsWritten s t d n (fun k => (f k).isSome) (fun k => (f k).getD [])
      ∧ t = { s with hart := { s.hart with v := t.hart.v } }.vfalls := by
  have hwrite : (s.onHart fun h => h.writeUnits d n rs) = { s with hart := { s.hart with v := (s.hart.writeUnits d n rs).v } } := by
    rw [State.onHart, Hart.writeUnits_eq]
  refine ⟨({ s with hart := { s.hart with v := (s.hart.writeUnits d n rs).v } } : State).vfalls, ?_,
    unitsWritten_of_writeUnits s _ d h rfl, rfl⟩
  rw [State.wholeUnits, s.computeOnly_ok i hc, part_ok_bind, hwrite]
  exact congrArg Host.Outcome.next (State.vretire_eq _ hf)

/-! ### The units of each permutation (R134, R358, R371, R375) -/

theorem State.length_unit (s : State) (r : VReg) (e : ET) (k : Nat) : (s.unit r e k).length = permBytes e :=
  Bytes.length_getN ..

theorem length_permZero (e : ET) : (permZero e).length = permBytes e := by
  unfold permZero
  split
  · subst e
    exact length_leBytes 16 _
  · exact List.length_replicate

theorem State.length_unitOrZero (s : State) (c : Prop) [Decidable c] (r : VReg) (e : ET) (k : Nat) :
    (if c then s.unit r e k else permZero e).length = permBytes e := by
  split
  · exact s.length_unit r e k
  · exact length_permZero e

/-- A unit for each active index from `sh` on. -/
theorem listsUnits_active (h : Hart) (p : PReg) (sh m : Nat) {n : Nat} (g : Nat → List Byte) (hlen : ∀ k, (g k).length = n)
    (on : Nat → Bool) (hon : ∀ k, k ∈ h.active p sh m ↔ on k = true) :
    listsUnits n ((h.active p sh m).map fun k => (k, g k)) (fun k => if on k then some (g k) else none) := by
  have hsome (k : Nat) (x : List Byte) : (if on k then some (g k) else none) = some x ↔ on k = true ∧ g k = x := by
    split <;> simp_all
  refine ⟨fun k x => ?_, fun k x hx => ?_⟩
  · rw [hsome, ← hon, List.mem_map]
    constructor
    · rintro ⟨q, hq, hkx⟩
      obtain ⟨rfl, rfl⟩ := Prod.mk.inj hkx
      exact ⟨hq, rfl⟩
    · rintro ⟨hk, rfl⟩
      exact ⟨k, hk, rfl⟩
  · rw [← ((hsome k x).1 hx).2]
    exact hlen k

theorem Hart.active_zero_eq_filter (h : Hart) (p : PReg) (m : Nat) : h.active p 0 m = (List.range m).filter (h.pred p) :=
  List.filter_congr fun k _ => by simp

theorem State.mem_active_from (s : State) (p : PReg) (sh m k : Nat) :
    k ∈ s.hart.active p sh m ↔ (s.onAll p m k && decide (sh ≤ k)) = true := by
  rw [Hart.mem_active, State.onAll]
  simp only [Bool.and_eq_true, decide_eq_true_eq]
  tauto

theorem State.mem_active_zero (s : State) (p : PReg) (m k : Nat) : k ∈ s.hart.active p 0 m ↔ s.onAll p m k = true := by
  rw [s.mem_active_from, decide_eq_true (Nat.zero_le k), Bool.and_true]

/-- Unit `j` of a packed result is that of the `j`th index of `ks` (R358). -/
theorem listsUnits_compress (ks : List Nat) {n : Nat} (g : Nat → List Byte) (hlen : ∀ k, (g k).length = n) :
    listsUnits n (ks.zipIdx.map fun (k, j) => (j, g k)) (fun j => ks[j]?.map g) := by
  refine ⟨fun j x => ?_, fun j x hx => ?_⟩
  · simp [List.mk_mem_zipIdx_iff_getElem?]
  · obtain ⟨k, -, rfl⟩ := Option.map_eq_some_iff.1 hx
    exact hlen k

/-- The `j`th index of `ks` gets unit `j` (R358). -/
theorem listsUnits_expand (ks : List Nat) (hks : ks.Nodup) {n : Nat} (g : Nat → List Byte) (hlen : ∀ k, (g k).length = n)
    (on : Nat → Bool) (hon : ∀ k, k ∈ ks ↔ on k = true) :
    listsUnits n (ks.zipIdx.map fun (k, j) => (k, g j)) (fun k => if on k then some (g (ks.idxOf k)) else none) := by
  have hplace (k j : Nat) : ks[j]? = some k ↔ k ∈ ks ∧ ks.idxOf k = j := by
    constructor
    · intro h
      obtain ⟨hj, rfl⟩ := List.getElem?_eq_some_iff.1 h
      exact ⟨List.getElem_mem hj, hks.idxOf_getElem j hj⟩
    · rintro ⟨hk, rfl⟩
      exact List.getElem?_idxOf hk
  refine ⟨fun k x => ?_, fun k x hx => ?_⟩
  · simp [List.mk_mem_zipIdx_iff_getElem?, hplace, hon, ← and_assoc]
  · obtain ⟨-, rfl⟩ : on k = true ∧ g (ks.idxOf k) = x := by simpa using hx
    exact hlen _

theorem State.permOp_spec (s : State) (i : Instr) (d : VReg) (e : ET) (f : Nat → Option (List Byte))
    (h : s.permOp i = some (d, e, f)) : ∃ rs, exec i s = s.wholeUnits i d (permBytes e) rs ∧ listsUnits (permBytes e) rs f := by
  cases i with
  | vperm d a b p e =>
    obtain ⟨rfl, rfl, rfl⟩ := h
    exact ⟨_, rfl, listsUnits_active _ _ _ _ _ (fun k => s.length_unitOrZero _ a e _) _ (s.mem_active_zero p _)⟩
  | vslideup d a b p e =>
    obtain ⟨rfl, rfl, rfl⟩ := h
    exact ⟨_, rfl, listsUnits_active _ _ _ _ _ (fun k => s.length_unit a e _) _ (s.mem_active_from p _ _)⟩
  | vslidedn d a b p e =>
    obtain ⟨rfl, rfl, rfl⟩ := h
    exact ⟨_, rfl, listsUnits_active _ _ _ _ _ (fun k => s.length_unitOrZero _ a e _) _ (s.mem_active_zero p _)⟩
  | vcompress d a p e =>
    obtain ⟨rfl, rfl, rfl⟩ := h
    refine ⟨_, rfl, ?_⟩
    dsimp only
    rw [← Hart.active_zero_eq_filter]
    exact listsUnits_compress _ _ (s.length_unit a e)
  | vexpand d a p e =>
    obtain ⟨rfl, rfl, rfl⟩ := h
    refine ⟨_, rfl, ?_⟩
    dsimp only
    rw [← Hart.active_zero_eq_filter]
    exact listsUnits_expand _ (List.nodup_range.filter _) _ (s.length_unit a e) _ (s.mem_active_zero p _)
  | _ => exact nomatch h

/-- Settles O21: a permutation is one write of units (`State.permOp_spec`). -/
theorem permutationsMoveUnits : Obligations.PermutationsMoveUnits := by
  intro i s d e f hop hc hf
  obtain ⟨rs, hexec, hlists⟩ := s.permOp_spec i d e f hop
  rw [hexec]
  exact s.wholeUnits_writes i d hlists hc hf

end Sys2Proof.Machine
end

section
/-! PROOFS of vector accesses to the scratchpad and of pops of delivery queues (R88, R150 to R153, R157, R195, R222, R344, R368). -/

namespace Sys2Proof.Machine

/-! ### Units that some indices receive -/

theorem listsUnits_map (ks : List Nat) {n : Nat} (g : Nat → List Byte) (hlen : ∀ k ∈ ks, (g k).length = n)
    (on : Nat → Bool) (hon : ∀ k, k ∈ ks ↔ on k = true) :
    listsUnits n (ks.map fun k => (k, g k)) (fun k => if on k then some (g k) else none) := by
  have hsome (k : Nat) (x : List Byte) : (if on k then some (g k) else none) = some x ↔ k ∈ ks ∧ g k = x := by
    rw [hon]
    split <;> simp_all
  refine ⟨fun k x => ?_, fun k x hx => ?_⟩
  · rw [hsome, List.mem_map]
    exact ⟨fun ⟨q, hq, he⟩ => by cases he; exact ⟨hq, rfl⟩, fun ⟨hk, he⟩ => ⟨k, hk, by rw [he]⟩⟩
  · obtain ⟨hk, rfl⟩ := (hsome k x).1 hx
    exact hlen k hk

theorem unitsWritten_map (s t : State) (d : VReg) {n : Nat} (ks : List Nat) (g : Nat → List Byte)
    (hlen : ∀ k ∈ ks, (g k).length = n) (on : Nat → Bool) (hon : ∀ k, k ∈ ks ↔ on k = true)
    (hv : t.hart.v = (s.hart.writeUnits d n (ks.map fun k => (k, g k))).v) : unitsWritten s t d n on g := by
  obtain ⟨hunits, hothers⟩ := unitsWritten_of_writeUnits s t d (listsUnits_map ks g hlen on hon) hv
  refine ⟨fun r hr k => ?_, hothers⟩
  rw [hunits r hr k]
  by_cases hk : on k = true <;> simp [hk]

/-- What a state with the place of `s` is left as, when its turn ends where that of `s` does. -/
theorem State.endsAt.vend_done {s : State} {unit : Option Nat} {n stop : Nat} {done : State → State}
    (h : s.endsAt unit n stop done) (t : State) (hfall : s.mayFall → t.mayFall) : t.vend stop n = done t := by
  unfold State.vend
  rcases h with ⟨rfl, hmay, rfl, -⟩ | ⟨_, _, -, -, -, hlt, rfl⟩
  · rw [if_neg (Nat.lt_irrefl _)]
    exact t.vretire_eq (hfall hmay)
  · rw [if_pos hlt]
    rfl

/-! ### The control word and the range (R150 to R152, R368) -/

theorem getLsbD_rotMask : ∀ k < 64, (~~~(0xC : Word)).getLsbD k = decide (k < 2 ∨ 4 ≤ k) := by decide

/-- The bits of a control word that are not ROT. -/
theorem and_rotMask (v : Word) : v &&& ~~~(0xC : Word) = BitVec.ofNat 64 (2 ^ 4 * (v.toNat / 2 ^ 4) + v.toNat % 2 ^ 2) := by
  apply BitVec.eq_of_getLsbD_eq
  intro k hk
  rw [BitVec.getLsbD_and, getLsbD_rotMask k hk, BitVec.getLsbD_ofNat, decide_eq_true hk,
    Nat.testBit_two_pow_mul_add _ (by omega), Nat.testBit_mod_two_pow, Nat.testBit_div_two_pow]
  by_cases hlow : k < 4
  · simp [hlow, BitVec.testBit_toNat, Bool.and_comm, show ¬4 ≤ k by omega]
  · simp [hlow, BitVec.testBit_toNat, show 4 ≤ k by omega, show k - 4 + 4 = k by omega]

theorem and_rotMask_ne_zero (v : Word) : v &&& ~~~(0xC : Word) ≠ 0 ↔ v.toNat % 4 ≠ 0 ∨ 16 ≤ v.toNat := by
  have := v.isLt
  have hzero : (0 : Word).toNat = 0 := rfl
  rw [and_rotMask, ne_eq, ← BitVec.toNat_inj, BitVec.toNat_ofNat, hzero]
  omega

section
variable (s : State) (o : Nat) (cw : Word) (w : EW)

theorem State.vspChecks_spctl (h : cw.toNat % 4 ≠ 0 ∨ 16 ≤ cw.toNat ∨ rotOk (cw.toNat / 4 % 4) o (ewBytes w) = false) :
    s.vspChecks o cw w = .error (s.raise 0x0B cw) := by
  have hbad : (decide (cw &&& ~~~(0xC : Word) ≠ 0) || !rotOk (cwRot cw.toNat) o (ewBytes w)) = true := by
    rw [Bool.or_eq_true, decide_eq_true_eq, and_rotMask_ne_zero, Bool.not_eq_true']
    exact or_assoc.2 h
  rw [State.vspChecks, State.spCtl, stopIf_true _ _ hbad]
  rfl

variable (hgood : ¬(cw.toNat % 4 ≠ 0 ∨ 16 ≤ cw.toNat ∨ rotOk (cw.toNat / 4 % 4) o (ewBytes w) = false))
include hgood

theorem State.vspChecks_eq : s.vspChecks o cw w
    = stopIf (decide (spSize < o + s.hart.units w * ewBytes w)) (s.raise 0x0A (BitVec.ofNat 64 (max o spSize))) := by
  have hfine : (decide (cw &&& ~~~(0xC : Word) ≠ 0) || !rotOk (cwRot cw.toNat) o (ewBytes w)) = false := by
    rw [← Bool.not_eq_true, Bool.or_eq_true, decide_eq_true_eq, and_rotMask_ne_zero, Bool.not_eq_true']
    exact fun h => hgood (or_assoc.1 h)
  rw [State.vspChecks, State.spCtl, stopIf_false _ _ hfine]
  rfl

theorem State.vspChecks_sprange (h : 2 ^ 21 < o + s.hart.units w * ewBytes w) :
    s.vspChecks o cw w = .error (s.raise 0x0A (BitVec.ofNat 64 (max o (2 ^ 21)))) := by
  rw [s.vspChecks_eq o cw w hgood]
  exact stopIf_true _ _ (decide_eq_true h)

theorem State.vspChecks_ok (h : o + s.hart.units w * ewBytes w ≤ 2 ^ 21) : s.vspChecks o cw w = .ok () := by
  rw [s.vspChecks_eq o cw w hgood]
  exact stopIf_false _ _ (decide_eq_false (Nat.not_lt.2 h))

end

/-! ### `vldsp` and `vstsp` (R153, R157, R222, R368) -/

section
variable (s : State) (began : Nat) (offs : List Nat)

theorem State.chain_of_none (h : s.copyPending began offs = false) : s.chain began offs = .ok s := by
  rw [State.chain, h]
  rfl

variable (h : s.copyPending began offs = true) (u : State) (hu : s.drainCluster = .ok u)
include h hu

theorem State.chain_of_pending (hstill : u.copyPending began offs = true) : s.chain began offs = .error u := by
  rw [State.chain, if_pos h, hu]
  exact if_pos hstill

theorem State.chain_of_drained (hover : u.copyPending began offs = false) : s.chain began offs = .ok u := by
  rw [State.chain, if_pos h, hu]
  exact if_neg (by rw [hover]; exact Bool.false_ne_true)

end

/-- The bytes of the scratchpad that unit `k` moves. -/
def State.spUnits (s : State) (a b : XReg) (w : EW) (k : Nat) : List Nat := spUnit (cwRot (s.getX b).toNat) (s.getX a).toNat w k

/-- The number of the first entry a chained load does not wait for. -/
def State.loadBegan (s : State) : Nat := if s.hart.start = 0 then s.nextName else s.hart.began.getD s.nextName

/-- The units below `stop` have been read from the scratchpad, by a load that stays begun at `part`. -/
def State.spRead (s : State) (d : VReg) (p : PReg) (w : EW) (stop : Nat) (f : Nat → List Nat) (part : Option Nat) : State :=
  s.onHart fun h => { h.writeUnits d (ewBytes w)
    ((h.active p h.start stop).map fun k => (k, (f k).map s.cluster.sp.get)) with began := part }

section
variable {d : VReg} {a b : XReg} {p : PReg} {w : EW} {c : Slot} {s : State} (hc : s.compute)
include hc

theorem exec_vldsp_of_error {t : State} (h : s.vspChecks (s.getX a).toNat (s.getX b) w = .error t) :
    exec (.vldsp d a b p w c) s = .next t := by
  change execVldsp d a b p w c s = _
  rw [execVldsp, s.computeOnly_ok _ hc, part_ok_bind]
  dsimp only
  rw [h]
  rfl

theorem exec_vstsp_of_error (hout : s.outside) {t : State} (h : s.vspChecks (s.getX a).toNat (s.getX b) w = .error t) :
    exec (.vstsp d a b p w c) s = .next t := by
  change execVstsp d a b p w c s = _
  rw [execVstsp, s.computeOnly_ok _ hc, part_ok_bind, s.noStrip_ok hout, part_ok_bind]
  dsimp only
  rw [h]
  rfl

variable (hchecks : s.vspChecks (s.getX a).toNat (s.getX b) w = .ok ()) {stop : Nat} {done : State → State}
  (hends : s.endsAt (some (s.hart.groupOf (8 * ewBytes w))) (s.hart.units w) stop done)
include hchecks hends

theorem exec_vldsp_eq : exec (.vldsp d a b p w c) s = finish
    ((s.chain s.loadBegan ((s.hart.active p s.hart.start stop).flatMap (s.spUnits a b w))).map fun t =>
      (t.spRead d p w stop (s.spUnits a b w) (if stop < s.hart.units w then some s.loadBegan else none)).vend stop
        (s.hart.units w)) := by
  have hstop : s.unitStop w = stop := hends.stopOf_eq
  change execVldsp d a b p w c s = _
  rw [execVldsp, s.computeOnly_ok _ hc, part_ok_bind]
  dsimp only
  rw [hchecks, part_ok_bind, hstop]
  change finish (s.chain s.loadBegan ((s.hart.active p s.hart.start stop).flatMap (s.spUnits a b w)) >>= _) = _
  cases s.chain s.loadBegan ((s.hart.active p s.hart.start stop).flatMap (s.spUnits a b w)) <;> rfl

theorem exec_vstsp_eq (hout : s.outside) : exec (.vstsp d a b p w c) s = .next (done (s.spPut
    ((s.hart.active p s.hart.start stop).flatMap fun k =>
      (s.spUnits a b w k).zip ((s.hart.getV d).getN (k * ewBytes w) (ewBytes w))))) := by
  have hstop : s.unitStop w = stop := hends.stopOf_eq
  change execVstsp d a b p w c s = _
  rw [execVstsp, s.computeOnly_ok _ hc, part_ok_bind, s.noStrip_ok hout, part_ok_bind]
  dsimp only
  rw [hchecks, part_ok_bind, hstop]
  exact congrArg Host.Outcome.next (hends.vend_done _ fun hmay => hmay)

end

/-- A read of the scratchpad writes its units, and leaves the rest of the state. -/
theorem State.spRead_eq (s : State) (d : VReg) (p : PReg) (w : EW) (stop : Nat) (f : Nat → List Nat) (part : Option Nat) :
    s.spRead d p w stop f part = { s with
      hart := { s.hart with v := (s.spRead d p w stop f part).hart.v, began := part } } := by
  rw [State.spRead, State.onHart, Hart.writeUnits_eq]

theorem State.spRead_units (s t : State) (d : VReg) (p : PReg) (w : EW) (stop : Nat) (f : Nat → List Nat) (part : Option Nat)
    (hf : ∀ k, (f k).length = ewBytes w) (ht : t.hart.v = (s.spRead d p w stop f part).hart.v) :
    unitsWritten s t d (ewBytes w) (fun k => decide (k ∈ s.hart.active p s.hart.start stop))
      (fun k => (f k).map s.cluster.sp.get) :=
  unitsWritten_map s t d _ _ (fun k _ => by rw [List.length_map, hf]) _ (fun _ => decide_eq_true_iff.symm) ht

theorem State.length_spUnits (s : State) (a b : XReg) (w : EW) (k : Nat) : (s.spUnits a b w k).length = ewBytes w := by
  rw [State.spUnits, spUnit, List.length_map, List.length_range]

theorem scratchpadVectorAccesses : Sys2Proof.Says.ScratchpadVectorAccesses := by
  intro d a b p w c s stop done hc o cw rot n bad ks offs began after
  refine ⟨fun hbad => ?_, fun hgood hover => ?_, fun hgood hfits hends => ?_⟩
  · have hchecks := s.vspChecks_spctl o cw w hbad
    exact ⟨exec_vldsp_of_error hc hchecks, fun hout => exec_vstsp_of_error hc hout hchecks⟩
  · have hchecks := s.vspChecks_sprange o cw w hgood hover
    exact ⟨exec_vldsp_of_error hc hchecks, fun hout => exec_vstsp_of_error hc hout hchecks⟩
  have hchecks := s.vspChecks_ok o cw w hgood hfits
  have hks : s.hart.active p s.hart.start stop = ks := s.hart.active_eq_filter p s.hart.start stop
  have hload : exec (.vldsp d a b p w c) s = finish ((s.chain began (ks.flatMap offs)).map fun t =>
      (t.spRead d p w stop offs after).vend stop (s.hart.units w)) := by
    rw [← hks]
    exact exec_vldsp_eq hc hchecks hends
  have hlen : ∀ k, (offs k).length = n := s.length_spUnits a b w
  refine ⟨fun hnone => ?_, fun hpending u hu => ⟨fun hstill => ?_, fun hover hhart => ?_⟩, fun hout => ?_⟩
  · rw [s.chain_of_none began (ks.flatMap offs) hnone] at hload
    have hend := hends.vend_done (s.spRead d p w stop offs after) (by rw [State.spRead_eq]; exact fun hmay => hmay)
    have hv := hends.done_v (s.spRead d p w stop offs after)
    refine ⟨_, hload.trans (congrArg Host.Outcome.next hend), ?_, ?_⟩
    · rw [← hks]
      exact s.spRead_units _ d p w stop offs after hlen hv
    · rw [hv]
      exact congrArg done (s.spRead_eq d p w stop offs after)
  · rw [s.chain_of_pending began (ks.flatMap offs) hpending u hu hstill] at hload
    exact hload
  · rw [s.chain_of_drained began (ks.flatMap offs) hpending u hu hover] at hload
    have hend := hends.vend_done (u.spRead d p w stop offs after)
      (by rw [State.spRead_eq, hhart]; exact fun hmay => hmay)
    have hv := hends.done_v (u.spRead d p w stop offs after)
    have hactive : u.hart.active p u.hart.start stop = ks := by rw [← hks, hhart]; rfl
    refine ⟨_, hload.trans (congrArg Host.Outcome.next hend), fun k hk => ?_⟩
    obtain ⟨hunits, -⟩ := u.spRead_units _ d p w stop offs after hlen hv
    exact (hunits d (.inl rfl) k).trans (if_pos (decide_eq_true (hactive ▸ hk)))
  · rw [← hks]
    exact exec_vstsp_eq hc hchecks hends hout

/-! ### `qld` (R88, R195, R344) -/

/-- Where no hart of the cluster has a copy, none performs. -/
theorem State.drainCluster_idle (s : State) (hown : s.hart.copies = []) (hothers : ∀ h ∈ s.others, h.copies = [])
    (hcluster : s.hart.name.cluster = s.cluster.num) : s.drainCluster = .ok s := by
  have hnear : (s.others.filter fun h => h.bound && !h.stopping && h.copies != [] && h.name.cluster == s.hart.name.cluster) = [] :=
    List.filter_eq_nil_iff.2 fun h hh => by simp [hothers h hh]
  have hfocus : s.focus s.hart.name = s := by
    rw [State.focus, if_pos rfl, if_pos hcluster.symm]
  rw [State.drainCluster, State.drainAll, hown]
  change Except.ok s.drainOthers = _
  rw [State.drainOthers, hnear]
  exact congrArg Except.ok hfocus

theorem slotsReady_iff (qs : List DSlot) (n : Nat) :
    slotsReady qs n = true ↔ n ≤ qs.length ∧ ∀ e ∈ qs.take n, e.bytes.isSome = true := by
  rw [slotsReady, Bool.and_eq_true, decide_eq_true_eq, List.all_eq_true]

theorem State.firstPopper_iff (s : State) (q : Fin 16) :
    s.firstPopper q = true ↔ ∀ k, (s.cluster.poppers.get q).head? = some k → k.name = s.hart.name := by
  rw [State.firstPopper]
  cases s.cluster.poppers.get q <;> simp

/-- The entries that units of a length fill hold enough bytes for each unit. -/
theorem length_unit_of_entries (es : List DSlot) (u sz k : Nat) (hes : es.length = (u * sz + 127) / 128)
    (hfull : ∀ e ∈ es, (e.bytes.getD []).length = 128) (hk : k < u) :
    (((es.flatMap fun e => e.bytes.getD []).drop (k * sz)).take sz).length = sz := by
  have hlen : (es.flatMap fun e => e.bytes.getD []).length = 128 * es.length := by
    rw [List.length_flatMap, List.map_congr_left hfull, List.map_const', List.sum_replicate, smul_eq_mul, Nat.mul_comm]
  have hunit : (k + 1) * sz ≤ u * sz := Nat.mul_le_mul_right sz hk
  rw [Nat.succ_mul] at hunit
  rw [List.length_take, List.length_drop, hlen]
  omega

/-- A pop that has its entries. -/
def State.popped (s : State) (d : VReg) (q : Fin 16) (p : PReg) (w : EW) (n : Nat) : State :=
  let slots := s.cluster.queues.get q
  (s.onCluster fun c => { c.unqueue s.hart.name with queues := c.queues.set q.val (slots.drop n) }).onHart fun h =>
    h.writeUnits d (ewBytes w) ((h.active p 0 (h.units w)).map fun k =>
      (k, (((slots.take n).flatMap fun e => e.bytes.getD []).drop (k * ewBytes w)).take (ewBytes w)))

section
variable {d : VReg} {q : Fin 16} {p : PReg} {w : EW} {s : State} (hc : s.compute) {n : Nat}
  (hn : (s.hart.units w * ewBytes w + 127) / 128 = n)
include hc hn

theorem exec_qld_empty (hf : s.mayFall) (hzero : n = 0) : exec (.qld d q p w) s = .next s.vfalls := by
  change execQld d q p w s = _
  rw [execQld, s.computeOnly_ok _ hc, part_ok_bind, ← s.vretire_eq hf]
  dsimp only
  rw [hn, if_pos hzero]
  rfl

variable (hpos : 0 < n)
include hpos

theorem exec_qld_qrange (hcap : s.cluster.qcap.get q < n) :
    exec (.qld d q p w) s = .next (s.raise 0x0C (BitVec.ofNat 64 n)) := by
  change execQld d q p w s = _
  rw [execQld, s.computeOnly_ok _ hc, part_ok_bind]
  dsimp only
  rw [hn, if_neg hpos.ne', stopIf_true _ _ (decide_eq_true hcap)]
  rfl

variable (hcap : n ≤ s.cluster.qcap.get q)
include hcap

theorem exec_qld_pops (hready : slotsReady (s.cluster.queues.get q) n = true) (hfirst : s.firstPopper q = true) :
    exec (.qld d q p w) s = .next (s.popped d q p w n).vretire := by
  change execQld d q p w s = _
  rw [execQld, s.computeOnly_ok _ hc, part_ok_bind]
  dsimp only
  rw [hn, if_neg hpos.ne', stopIf_false _ _ (decide_eq_false (Nat.not_lt.2 hcap)), part_ok_bind, if_pos hready, part_ok_bind,
    stopIf_false _ _ (by rw [hready, hfirst]; rfl)]
  rfl

/-- A pop that cannot be yet, also after the engine queues have performed, which had nothing to do. -/
theorem exec_qld_waits (hidle : s.drainCluster = .ok s)
    (hwait : slotsReady (s.cluster.queues.get q) n = false ∨ s.firstPopper q = false) :
    exec (.qld d q p w) s = .next (s.reachQueue q n) := by
  have hstop : (!slotsReady (s.cluster.queues.get q) n || !s.firstPopper q) = true := by
    rcases hwait with h | h <;> rw [h] <;> simp
  change execQld d q p w s = _
  rw [execQld, s.computeOnly_ok _ hc, part_ok_bind]
  dsimp only
  rw [hn, if_neg hpos.ne', stopIf_false _ _ (decide_eq_false (Nat.not_lt.2 hcap)), part_ok_bind, hidle,
    part_ok_bind, ite_self, stopIf_true _ _ hstop]
  rfl

end

theorem State.popped_eq (s : State) (d : VReg) (q : Fin 16) (p : PReg) (w : EW) (n : Nat) :
    s.popped d q p w n = { s with
      hart := { s.hart with v := (s.popped d q p w n).hart.v }
      cluster := { s.cluster.unqueue s.hart.name with
        queues := s.cluster.queues.set q.val ((s.cluster.queues.get q).drop n) } } := by
  unfold State.popped
  dsimp only
  rw [State.onHart, Hart.writeUnits_eq]
  rfl

/-- The hart stands in the queue's order behind those that reached it before. -/
theorem State.poppers_reachQueue (s : State) (q : Fin 16) (n : Nat) : (s.reachQueue q n).cluster.poppers.get q =
    if (s.cluster.poppers.get q).any fun k => k.name == s.hart.name then s.cluster.poppers.get q
    else s.cluster.poppers.get q ++ [{ name := s.hart.name, need := n }] := by
  rw [State.reachQueue, State.onCluster_cluster]
  dsimp only
  split
  · rfl
  · exact Vector.getElem_set_self _

theorem State.reachQueue_frame (s : State) (q : Fin 16) (n : Nat) : (s.reachQueue q n).hart = s.hart
    ∧ (s.reachQueue q n).mem = s.mem ∧ (s.reachQueue q n).cluster.queues = s.cluster.queues := by
  refine ⟨rfl, rfl, ?_⟩
  rw [State.reachQueue, State.onCluster_cluster]
  dsimp only
  split <;> rfl

theorem deliveryQueuePops : Sys2Proof.Says.DeliveryQueuePops := by
  intro d q p w s hc u sz n qs ps data ready first
  have hready (h : ready) : slotsReady qs n = true := by
    obtain ⟨hle, hbytes⟩ := h
    refine (slotsReady_iff qs n).2 ⟨hle, fun e he => ?_⟩
    obtain ⟨b, hb, -⟩ := hbytes e he
    rw [hb]
    rfl
  refine ⟨fun hpos hcap => exec_qld_qrange hc rfl hpos hcap, fun hf hzero => exec_qld_empty hc rfl hf hzero,
    fun hf hpos hcap h hfirst => ?_, fun hpos hcap hown hothers hcluster hwait => ?_⟩
  · have hfalls : (s.popped d q p w n).mayFall := by
      rw [State.popped_eq]
      exact hf
    refine ⟨_, exec_qld_pops hc rfl hpos hcap (hready h) ((s.firstPopper_iff q).2 hfirst), ?_, ?_⟩
    · rw [State.vretire_eq _ hfalls]
      refine unitsWritten_map s _ d (s.hart.active p 0 u) _ (fun k hk => ?_) _ (s.mem_active_zero p u) rfl
      obtain ⟨hle, hbytes⟩ := h
      refine length_unit_of_entries (qs.take n) u sz k (by rw [List.length_take, min_eq_left hle]) (fun e he => ?_) ?_
      · obtain ⟨b, hb, hlen⟩ := hbytes e he
        rw [hb]
        exact hlen
      · exact List.mem_range.1 (List.mem_filter.1 hk).1
    · rw [State.vretire_eq _ hfalls]
      exact congrArg State.vfalls (s.popped_eq d q p w n)
  · have hidle := s.drainCluster_idle hown hothers hcluster
    have hnot : slotsReady qs n = false ∨ s.firstPopper q = false := by
      rw [← Bool.not_eq_true, ← Bool.not_eq_true, slotsReady_iff, s.firstPopper_iff]
      rcases hwait with ⟨e, he, hnone⟩ | hshort | ⟨-, hlater⟩
      · exact .inl fun h => by have := h.2 e he; rw [hnone] at this; exact Bool.false_ne_true this
      · exact .inl fun h => Nat.not_le.2 hshort h.1
      · exact .inr hlater
    obtain ⟨hhart, hmem, hqueues⟩ := s.reachQueue_frame q n
    exact ⟨_, exec_qld_waits hc rfl hpos hcap hidle hnot, hhart, hmem, hqueues, s.poppers_reachQueue q n⟩

/-- Settles O38: the checks (`State.vspChecks_eq`), then one read or write of the scratchpad; a pop or a wait. -/
theorem scratchpadAndDeliveryQueueReads : Obligations.ScratchpadAndDeliveryQueueReads :=
  ⟨scratchpadVectorAccesses, deliveryQueuePops⟩

end Sys2Proof.Machine
end

section
/-! PROOFS of tile transfers: rows of a tile from and to memory, the scratchpad and vector registers (R150 to R152, R171, R219, R326,
R327, R333, R334). -/

namespace Sys2Proof.Machine

/-! ### Rows of a tile -/

/-- A row of a tile that was put together from its rows. -/
theorem tileRow_put_rows (f : Nat → List Byte) (hf : ∀ r, (f r).length = 128) {r : Nat} (hr : r < 32) :
    tileRow (Bytes.put [] 0 ((List.range 32).flatMap f)) r = f r := by
  have hlen : ((List.range 32).flatMap f).length = 4096 := by
    rw [List.length_flatMap, List.map_congr_left fun x _ => hf x]
    rfl
  have hinside := Bytes.getN_put_inside [] 0 (128 * r) 128 ((List.range 32).flatMap f) (by omega)
  rw [Nat.zero_add] at hinside
  rw [tileRow, hinside, take_drop_flatMap f 128 hf _ r (by simpa using hr), List.getElem_range]

/-- A row of a tile over which rows were written. -/
theorem tileRow_put (b : Bytes) (v : Bytes) (t0 v0 n r : Nat) :
    tileRow (b.put (128 * t0) (v.getN (128 * v0) (128 * n))) r =
      if t0 ≤ r ∧ r < t0 + n then v.getN (128 * (v0 + (r - t0))) 128 else tileRow b r := by
  unfold tileRow
  split
  · rw [Bytes.getN_eq, Bytes.getN_eq v (128 * (v0 + (r - t0)))]
    refine List.map_congr_left fun i hi => ?_
    have hlt := List.mem_range.1 hi
    have hplace : 128 * t0 ≤ 128 * r + i ∧ 128 * r + i < 128 * t0 + 128 * n := by omega
    rw [Bytes.get_put, Bytes.length_getN, if_pos hplace, Bytes.getN_eq, List.getD_eq_getElem _ _ (by simp; omega),
      List.getElem_map, List.getElem_range]
    congr 1
    omega
  · rw [Bytes.getN_put_apart]
    rw [Bytes.length_getN]
    omega

/-! ### Rows of memory (R171, R219, R326) -/

theorem State.checkRows_ok (s : State) (ok : Nat → Bool) (as : List Nat) (n : Nat) (h : ∀ a ∈ as, ∀ k < n, ok (a + k) = true) :
    s.checkRows ok as n = .ok () := by
  have hnone : as.filterMap (fun a => firstBad ok a n) = [] :=
    List.filterMap_eq_nil_iff.2 fun a ha => firstBad_none ok a n (h a ha)
  rw [State.checkRows, hnone]
  rfl

theorem State.length_sees (s : State) (a n : Nat) : (s.sees a n).length = n := by
  rw [State.sees, overlay, List.length_map, List.length_zipIdx, s.length_reads]

/-- Counted accesses change nothing that is seen. -/
theorem State.Worn.sees {s t : State} {k : Nat} (h : s.Worn t k) (hh : t.hart = s.hart) (hmem : t.mem = s.mem)
    (hlines : t.lines = s.lines) (a n : Nat) : t.sees a n = s.sees a n := by
  rw [State.sees, State.sees, State.reads_of_translate h.translate hmem hlines (by rw [hh]), hh]

/-- Units whose bytes translate are read, one access each, where no page becomes busy meanwhile (R171). -/
theorem State.readUnits_ok (s : State) (us : List (Nat × Nat)) (n : Nat) (htr : ∀ u ∈ us, s.translates u.2 n)
    (hun : s.unworn us.length) :
    ∃ t, s.readUnits us n = .ok (us.map fun u => (u.1, s.sees u.2 n), t) ∧ t = { s with leaves := t.leaves } := by
  induction us generalizing s with
  | nil => exact ⟨s, rfl, rfl⟩
  | cons u r ih =>
    obtain ⟨hfirst, hrest⟩ := List.forall_mem_cons.1 htr
    have hworn := s.count_worn s.hart.task.asid u.2 n
    obtain ⟨t, hgo, ht⟩ := ih (s.count s.hart.task.asid u.2 n) (fun v hv => (hworn.translates rfl v.2 n).2 (hrest v hv))
      (hworn.unworn (by rwa [Nat.add_comm]))
    refine ⟨t, ?_, ht⟩
    rw [State.readUnits, State.atBusy_of_unworn hun (Nat.succ_pos _), stopIf_false _ _ rfl, part_ok_bind, s.readMem_ok _ _ hfirst,
      part_ok_bind, hgo, part_ok_bind]
    simp only [hworn.sees rfl rfl rfl]
    rfl

/-- A store into the open strip leaves the hart its strip, with room as it was counted. -/
theorem State.storeUnits_inStrip (s : State) (us : List (Nat × Nat × List Byte)) (c : Fin 16) (done : List Nat)
    (hin : s.hart.inStrip = true) (hroom : s.roomForAll (us.map fun u => u.2) c) :
    s.storeUnits us c done = .ok (s.wroteAll (us.map fun u => u.2) c) := by
  induction us generalizing s done with
  | nil => rfl
  | cons u r ih =>
    have hlen := hroom hin
    have hwrote : s.wrote u.2.1 u.2.2 c = { s with hart := { s.hart with strip := s.hart.strip ++ [buffered u.2.1 u.2.2 c] } } := by
      rw [State.wrote, if_pos hin]
    rw [List.map_cons, List.map_cons, List.append_cons] at hlen
    have hput : s.putStore u.2.1 u.2.2 c = .ok (s.wrote u.2.1 u.2.2 c) := by
      rw [State.putStore, if_pos hin, State.buffer, hwrote]
      exact if_pos ((granules_append_le _ _).trans hlen)
    have hrest := ih (s.wrote u.2.1 u.2.2 c) (done ++ [u.1]) (by rw [hwrote]; exact hin) (by rw [hwrote]; exact fun _ => hlen)
    rw [State.storeUnits, hin, Bool.not_true, Bool.false_and, stopIf_false _ _ rfl, part_ok_bind, hput, part_ok_bind]
    exact hrest

theorem State.wrote_hart (s : State) (va : Nat) (bs : List Byte) (c : Fin 16) :
    ∃ st, (s.wrote va bs c).hart = { s.hart with strip := st } := by
  unfold State.wrote
  split
  · exact ⟨_, rfl⟩
  · exact s.hart.wentPast_frame va bs.length

theorem State.wroteAll_hart (s : State) (xs : List (Nat × List Byte)) (c : Fin 16) :
    ∃ st, (s.wroteAll xs c).hart = { s.hart with strip := st } := by
  induction xs generalizing s with
  | nil => exact ⟨s.hart.strip, rfl⟩
  | cons x r ih =>
    obtain ⟨st, hst⟩ := s.wrote_hart x.1 x.2 c
    obtain ⟨st', hst'⟩ := ih (s.wrote x.1 x.2 c)
    exact ⟨st', hst'.trans (by rw [hst])⟩

theorem State.unitsOver_of_none (s : State) (h : s.hart.unitsDone = []) : s.unitsOver = s := by
  rw [State.unitsOver, State.onHart, ← h]

/-- Rows of which none has performed are all stored, in memory or in the open strip. -/
theorem State.storeRows_ok (s : State) (as : List Nat) (rows : List (List Byte)) (c : Fin 16) (hbegun : s.unbegun)
    (htr : ∀ x ∈ as.zip rows, s.translates x.1 x.2.length) (hun : s.unworn (as.zip rows).length)
    (hroom : s.roomForAll (as.zip rows) c) : s.storeRows as rows c = .ok (s.wroteAll (as.zip rows) c) := by
  obtain ⟨hnone, hhow⟩ := hbegun
  have htakes (k : Nat) : s.takes k = true := by
    unfold State.takes How.takes
    rw [hnone]
    cases hw : s.how with
    | without done taken => exact absurd hw (hhow done taken)
    | _ => rfl
  obtain ⟨us, hus⟩ : ∃ us, us = (as.zip rows).zipIdx.map fun x => (x.2, x.1) := ⟨_, rfl⟩
  have hmap : us.map (fun u => u.2) = as.zip rows := by
    rw [hus, List.map_map]
    exact List.zipIdx_map_fst 0 _
  have hall : us.filter (fun u => s.takes u.1) = us := List.filter_eq_self.2 fun u _ => htakes u.1
  have hstore : s.storeUnits us c [] = .ok (s.wroteAll (us.map fun u => u.2) c) := by
    by_cases hin : s.hart.inStrip = true
    · exact s.storeUnits_inStrip us c [] hin (hmap ▸ hroom)
    · refine s.storeUnits_ok us c [] ((Bool.not_eq_true _).mp hin) (fun u hu => htr u.2 ?_) ?_
      · rw [← hmap]
        exact List.mem_map_of_mem hu
      · rwa [← List.length_map (as := us) (fun u => u.2), hmap]
  obtain ⟨st, hst⟩ := s.wroteAll_hart (as.zip rows) c
  rw [State.storeRows, ← hus, hall, hstore, hmap]
  exact congrArg Except.ok (State.unitsOver_of_none _ (by rw [hst]; exact hnone))

/-- A tile is read in at most one access. -/
theorem State.readTile_worn {s t : State} {q : TReg} {b : Bytes} (hread : s.readTile q = .ok (b, t)) (hready : s.tileReady q)
    (hslot : s.slotsFor 1) : s.Worn t 1 := by
  have hsame : s.Worn s 1 := by
    obtain ⟨hf, hv, ha, f, hle, hl⟩ := State.Worn.of_leaves (s := s) (t := s) rfl rfl rfl rfl
    exact ⟨hf, hv, ha, f, fun l => (hle l).trans (Nat.le_succ _), hl⟩
  cases htile : s.hart.tile q with
  | clean b | dirty b =>
    simp only [State.readTile, htile] at hread
    cases hread
    exact hsame
  | undefined =>
    simp only [State.readTile, htile] at hread
    cases hread
    exact ⟨hsame.fid, hsame.vacant, hsame.absent, hsame.leaves⟩
  | absent =>
    obtain ⟨hmay, htr⟩ := hready htile
    simp only [State.readTile, htile, hmay, if_true, s.readAt_ok _ _ htr, s.makeSlot_of_slot hslot] at hread
    cases hread
    have hcount := s.count_worn s.hart.task.asid (backing s.hart.mapbase q.val) tileSize
    exact ⟨hcount.fid, hcount.vacant, hcount.absent, hcount.leaves⟩

section
variable {q : TReg} {s : State} (hready : s.tileReady q) (hslots : s.slotsFor 1)
include hready hslots

/-- One tile that is ready is read. -/
theorem State.readTile_one : ∃ u, s.readTile q = .ok (s.tileValue q, u) ∧ s.Fetched u [q] ∧ s.Worn u 1 := by
  obtain ⟨u, hread, hu⟩ := s.readTile_ok (List.mem_cons_self (a := q) (l := [])) hready (s.roomFor_of_slotsFor [q] hslots)
  exact ⟨u, hread, hu, State.readTile_worn hread hready hslots⟩

end

section
variable {q : TReg} {a b : XReg} {c : Slot} {h : Bool} {s : State} (hc : s.compute) (hf : s.mayFall)
include hc hf

theorem exec_mld (hun : s.unworn 32) (hread : ∀ x ∈ rowAddrs (s.getX a) (s.getX b) 32, s.canRead x 128)
    (hmay : s.tileMay q true = true) (hslots : s.slotsFor 1) :
    ∃ t : State, t = { s with leaves := t.leaves } ∧ exec (.mld q a b c h) s = .next (t.withTile q
      (.dirty (Bytes.put [] 0 ((rowAddrs (s.getX a) (s.getX b) 32).flatMap fun x => s.sees x 128)))).falls := by
  obtain ⟨as, has⟩ : ∃ as, as = rowAddrs (s.getX a) (s.getX b) 32 := ⟨_, rfl⟩
  rw [← has] at hread ⊢
  have hlen : as.length = 32 := by rw [has, rowAddrs, List.length_map, List.length_range]
  obtain ⟨t, hunits, ht⟩ := s.readUnits_ok (as.zipIdx.map fun x => (x.2, x.1)) 128
    (List.forall_mem_map.2 fun x hx => (hread x.1 (List.fst_mem_of_mem_zipIdx hx)).2) (by
      rwa [List.length_map, List.length_zipIdx, hlen])
  have hbytes : ((as.zipIdx.map fun x => (x.2, x.1)).map fun u => (u.1, s.sees u.2 128)).flatMap (fun x => x.2)
      = as.flatMap fun x => s.sees x 128 := by
    conv_rhs => rw [← List.zipIdx_map_fst 0 as]
    simp only [List.flatMap_map]
  refine ⟨t, ht, ?_⟩
  change execMld q a b c h s = _
  rw [execMld, s.computeOnly_ok _ hc, part_ok_bind]
  dsimp only
  rw [← has, s.checkRows_ok _ as 128 fun x hx => (hread x hx).1, part_ok_bind, s.tileWriteOk_ok q hmay, part_ok_bind, hunits,
    part_ok_bind, hbytes]
  dsimp only
  rw [t.writeTile_ok q _ (.inr (by rw [ht]; exact hslots))]
  exact congrArg Host.Outcome.next (State.retire_eq (t.withTile q _) (by rw [ht]; exact hf))

theorem exec_mst (hbegun : s.unbegun) (hun : s.unworn 33) (hwrite : ∀ x ∈ rowAddrs (s.getX a) (s.getX b) 32, s.canWrite x 128)
    (hready : s.tileReady q) (hslots : s.slotsFor 1)
    (hroom : s.roomForAll ((rowAddrs (s.getX a) (s.getX b) 32).zip (tileRows (s.tileValue q))) (s.hart.effClass c)) :
    ∃ u, onlyTiles s u [q] ∧ exec (.mst q a b c h) s = .next (u.wroteAll
      ((rowAddrs (s.getX a) (s.getX b) 32).zip (tileRows (s.tileValue q))) (s.hart.effClass c)).falls := by
  obtain ⟨as, has⟩ : ∃ as, as = rowAddrs (s.getX a) (s.getX b) 32 := ⟨_, rfl⟩
  rw [← has] at hwrite hroom ⊢
  obtain ⟨u, hread, hu, hworn⟩ := State.readTile_one hready hslots
  have hhart := congrArg State.hart hu.only.1
  have hlen : (as.zip (tileRows (s.tileValue q))).length = 32 := by
    rw [has, List.length_zip, rowAddrs, tileRows, List.length_map, List.length_map, List.length_range, min_self]
  have hrows : ∀ x ∈ as.zip (tileRows (s.tileValue q)), u.translates x.1 x.2.length := by
    intro x hx
    obtain ⟨ha, hr⟩ := List.of_mem_zip hx
    obtain ⟨r, -, hr⟩ := List.mem_map.1 hr
    have htr := (hwrite x.1 ha).2
    rw [← hr, tileRow, Bytes.length_getN]
    simp only [State.translates, hworn.translate]
    rw [hhart]
    exact htr
  have hhow : u.how = s.how := by rw [hu.only.1]
  have hstore := u.storeRows_ok as (tileRows (s.tileValue q)) (s.hart.effClass c)
    ⟨by rw [hhart]; exact hbegun.1, fun done taken => hhow ▸ hbegun.2 done taken⟩ hrows
    (by rw [hlen]; exact hworn.unworn hun) (by rw [State.roomForAll, hhart]; exact hroom)
  obtain ⟨st, hst⟩ := u.wroteAll_hart (as.zip (tileRows (s.tileValue q))) (s.hart.effClass c)
  refine ⟨u, hu.only, ?_⟩
  change execMst q a b c h s = _
  rw [execMst, s.computeOnly_ok _ hc, part_ok_bind]
  dsimp only
  rw [← has, s.checkRows_ok _ as 128 fun x hx => (hwrite x hx).1, part_ok_bind, hread, part_ok_bind, hstore]
  refine congrArg Host.Outcome.next (State.retire_eq _ ?_)
  have hfall := hu.only.mayFall hf
  simp only [State.mayFall, State.fallPc, Hart.loops, hst]
  exact hfall

end

/-! ### Rows of the scratchpad (R150 to R152, R327) -/

/-- The lowest offset past the end, among rows of which some pass it. -/
theorem rowsOver_some (starts : List Nat) (o : Nat) (ho : o ∈ starts) (hover : 2 ^ 21 < o + 128)
    (hleast : ∀ x ∈ starts, 2 ^ 21 < x + 128 → max o (2 ^ 21) ≤ max x (2 ^ 21)) : rowsOver starts = some (max o (2 ^ 21)) := by
  rw [rowsOver, List.min?_eq_some_iff]
  refine ⟨List.mem_map.2 ⟨o, List.mem_filter.2 ⟨ho, decide_eq_true hover⟩, rfl⟩, fun y hy => ?_⟩
  obtain ⟨x, hx, rfl⟩ := List.mem_map.1 hy
  obtain ⟨hmem, hpast⟩ := List.mem_filter.1 hx
  exact hleast x hmem (of_decide_eq_true hpast)

section
variable (s : State) (o : Nat) (cw : Word)

theorem State.pitchedChecks_spctl (n : Nat) (h : ¬(cw.toNat % 4 = 0 ∧ cw.toNat < 2 ^ 36 ∧ pitchOk cw.toNat o = true)) :
    s.pitchedChecks o cw n = .error (s.raise 0x0B cw) := by
  have hbad : (decide (bits cw.toNat 63 36 ≠ 0) || decide (cwDir cw.toNat ≠ 0) || !pitchOk cw.toNat o) = true := by
    have := cw.isLt
    have hhigh : bits cw.toNat 63 36 ≠ 0 ↔ 2 ^ 36 ≤ cw.toNat := by simp only [bits]; omega
    have hdir : cwDir cw.toNat ≠ 0 ↔ cw.toNat % 4 ≠ 0 := by simp only [cwDir, bits]; omega
    rw [Bool.or_eq_true, Bool.or_eq_true, decide_eq_true_eq, decide_eq_true_eq, Bool.not_eq_true', hhigh, hdir]
    by_cases hpitch : pitchOk cw.toNat o = true
    · by_cases hlow : cw.toNat % 4 = 0
      · exact .inl (.inl (Nat.not_lt.1 fun hlt => h ⟨hlow, hlt, hpitch⟩))
      · exact .inl (.inr hlow)
    · exact .inr ((Bool.not_eq_true _).mp hpitch)
  rw [State.pitchedChecks, State.spCtl, stopIf_true _ _ hbad]
  rfl

theorem State.pitchedChecks_sprange (hdir : cw.toNat % 4 = 0) (hhigh : cw.toNat < 2 ^ 36) (hpitch : pitchOk cw.toNat o = true)
    {k : Nat} (hk : k < 32) (hover : 2 ^ 21 < pitchedRow cw.toNat o 0 k + 128)
    (hleast : ∀ j < 32, 2 ^ 21 < pitchedRow cw.toNat o 0 j + 128 →
      max (pitchedRow cw.toNat o 0 k) (2 ^ 21) ≤ max (pitchedRow cw.toNat o 0 j) (2 ^ 21)) :
    s.pitchedChecks o cw 1 = .error (s.raise 0x0A (BitVec.ofNat 64 (max (pitchedRow cw.toNat o 0 k) (2 ^ 21)))) := by
  have hctl : (decide (bits cw.toNat 63 36 ≠ 0) || decide (cwDir cw.toNat ≠ 0) || !pitchOk cw.toNat o) = false := by
    have hbits : bits cw.toNat 63 36 = 0 := by simp only [bits]; omega
    have hcw : cwDir cw.toNat = 0 := by simp only [cwDir, bits]; omega
    simp [hbits, hcw, hpitch]
  have hrows : (List.range 1).flatMap (fun m => (List.range 32).map (pitchedRow cw.toNat o m))
      = (List.range 32).map (pitchedRow cw.toNat o 0) := List.append_nil _
  have hpast := rowsOver_some ((List.range 32).map (pitchedRow cw.toNat o 0)) _
    (List.mem_map_of_mem (List.mem_range.2 hk)) hover
    (List.forall_mem_map.2 fun j hj => hleast j (List.mem_range.1 hj))
  rw [State.pitchedChecks, State.spCtl, stopIf_false _ _ hctl, part_ok_bind, hrows, hpast]

end

section
variable {q : TReg} {a b : XReg} {c : Slot} {h : Bool} {s : State} (hc : s.compute)
include hc

theorem exec_mldsp_of_error {t : State} (hchecks : s.pitchedChecks (s.getX a).toNat (s.getX b) 1 = .error t) :
    exec (.mldsp q a b c h) s = .next t := by
  change execMldsp q a b c h s = _
  rw [execMldsp, s.computeOnly_ok _ hc, part_ok_bind]
  dsimp only
  rw [hchecks]
  rfl

theorem exec_mstsp_of_error (hout : s.outside) {t : State} (hchecks : s.pitchedChecks (s.getX a).toNat (s.getX b) 1 = .error t) :
    exec (.mstsp q a b c h) s = .next t := by
  change execMstsp q a b c h s = _
  rw [execMstsp, s.computeOnly_ok _ hc, part_ok_bind, s.noStrip_ok hout, part_ok_bind]
  dsimp only
  rw [hchecks]
  rfl

variable (hf : s.mayFall) (hchecks : s.pitchedChecks (s.getX a).toNat (s.getX b) 1 = .ok ()) (hslots : s.slotsFor 1)
include hf hchecks hslots

theorem exec_mldsp (hmay : s.tileMay q true = true)
    (hnone : s.copyPending s.nextName ((List.range 32).flatMap (pitchedBytes (s.getX b).toNat (s.getX a).toNat 0)) = false) :
    exec (.mldsp q a b c h) s = .next (s.withTile q (.dirty (Bytes.put [] 0
      (((List.range 32).flatMap (pitchedBytes (s.getX b).toNat (s.getX a).toNat 0)).map s.cluster.sp.get)))).falls := by
  change execMldsp q a b c h s = _
  rw [execMldsp, s.computeOnly_ok _ hc, part_ok_bind]
  dsimp only
  rw [hchecks, part_ok_bind, s.tileWriteOk_ok q hmay, part_ok_bind, State.chain_of_none _ _ _ hnone, part_ok_bind,
    s.writeTile_ok q _ (.inr hslots)]
  exact congrArg Host.Outcome.next (State.retire_eq _ hf)

theorem exec_mstsp (hout : s.outside) (hready : s.tileReady q) :
    ∃ u, onlyTiles s u [q] ∧ exec (.mstsp q a b c h) s = .next (u.spPut ((List.range 32).flatMap fun j =>
      (pitchedBytes (s.getX b).toNat (s.getX a).toNat 0 j).zip (tileRow (s.tileValue q) j))).falls := by
  obtain ⟨u, hread, hu, -⟩ := State.readTile_one hready hslots
  have hfall (ws : List (Nat × Byte)) : (u.spPut ws).mayFall := hu.only.mayFall hf
  refine ⟨u, hu.only, ?_⟩
  change execMstsp q a b c h s = _
  rw [execMstsp, s.computeOnly_ok _ hc, part_ok_bind, s.noStrip_ok hout, part_ok_bind]
  dsimp only
  rw [hchecks, part_ok_bind, hread]
  exact congrArg Host.Outcome.next (State.retire_eq _ (hfall _))

end

theorem tileLoadsAndStores : Sys2Proof.Says.TileLoadsAndStores := by
  intro q a b c h s hc hf addr rows o cw fine offs out
  have hrows : (rowAddrs (s.getX a) (s.getX b) 32).zip (tileRows (s.tileValue q)) = rows := List.zip_map'
  refine ⟨fun hun hread hmay hslots => ?_, fun hbegun hun hwrite hready hslots hroom => ?_,
    fun ⟨hdir, hhigh, hpitch, hfits⟩ hmay hslots hnone => ?_, fun ⟨hdir, hhigh, hpitch, hfits⟩ hout hready hslots => ?_,
    fun hbad => ?_, fun hdir hhigh hpitch k hk hover hleast => ?_⟩
  · obtain ⟨t, ht, hexec⟩ := exec_mld (c := c) (h := h) hc hf hun
      (List.forall_mem_map.2 fun r hr => hread r (List.mem_range.1 hr)) hmay hslots
    have honly : onlyTiles s t [q] := by
      rw [ht]
      exact ⟨rfl, fun _ _ => rfl⟩
    refine ⟨_, _, hexec, rfl, honly.trans (onlyTiles_withTile t (List.mem_cons_self ..) _), _, Hart.tile_setTile_same _ q _,
      fun r hr => ?_⟩
    rw [rowAddrs, List.flatMap_map]
    exact tileRow_put_rows (fun r => s.sees (addr r) 128) (fun r => s.length_sees _ _) hr
  · have hstores := exec_mst (c := c) (h := h) hc hf hbegun hun
      (List.forall_mem_map.2 fun r hr => hwrite r (List.mem_range.1 hr)) hready hslots (by rwa [hrows])
    rwa [hrows] at hstores
  · exact exec_mldsp hc hf (s.pitchedChecks_ok o (s.getX b) 1 hdir hhigh hpitch
      fun m hm => by obtain rfl := Nat.lt_one_iff.1 hm; exact hfits) hslots hmay hnone
  · exact exec_mstsp hc hf (s.pitchedChecks_ok o (s.getX b) 1 hdir hhigh hpitch
      fun m hm => by obtain rfl := Nat.lt_one_iff.1 hm; exact hfits) hslots hout hready
  · have hchecks := s.pitchedChecks_spctl o (s.getX b) 1 hbad
    exact ⟨exec_mldsp_of_error hc hchecks, fun hout => exec_mstsp_of_error hc hout hchecks⟩
  · have hchecks := s.pitchedChecks_sprange o (s.getX b) hdir hhigh hpitch hk hover hleast
    exact ⟨exec_mldsp_of_error hc hchecks, fun hout => exec_mstsp_of_error hc hout hchecks⟩

/-! ### Rows of vector registers (R333, R334) -/

section
variable {q : TReg} {v : VReg} {b : XReg} {s : State} (hc : s.compute)
include hc

theorem exec_mt2v_bad (hbad : rowSelOk (s.getX b).toNat s.hart.lanes = false) :
    exec (.mt2v q v b) s = .next (s.raise 0x04 (s.getX b)) := by
  change execMt2v q v b s = _
  rw [execMt2v, s.computeOnly_ok _ hc, part_ok_bind]
  dsimp only
  rw [stopIf_true _ _ (by rw [hbad]; rfl)]
  rfl

theorem exec_mv2t_bad (hbad : rowSelOk (s.getX b).toNat s.hart.lanes = false) :
    exec (.mv2t q v b) s = .next (s.raise 0x04 (s.getX b)) := by
  change execMv2t q v b s = _
  rw [execMv2t, s.computeOnly_ok _ hc, part_ok_bind]
  dsimp only
  rw [stopIf_true _ _ (by rw [hbad]; rfl)]
  rfl

variable (hf : s.mayFall) (hfine : rowSelOk (s.getX b).toNat s.hart.lanes = true) (hready : s.tileReady q) (hslots : s.slotsFor 1)
include hf hfine hready hslots

theorem exec_mt2v : ∃ u, onlyTiles s u [q] ∧ exec (.mt2v q v b) s = .next (u.onHart fun h => h.setV v
    ((s.hart.getV v).put (128 * bits (s.getX b).toNat 13 8)
      ((s.tileValue q).getN (128 * bits (s.getX b).toNat 4 0) (128 * (bits (s.getX b).toNat 20 16 + 1))))).falls := by
  obtain ⟨u, hread, hu, -⟩ := State.readTile_one hready hslots
  have hv : u.hart.getV v = s.hart.getV v := by rw [hu.only.1]; rfl
  refine ⟨u, hu.only, ?_⟩
  change execMt2v q v b s = _
  rw [execMt2v, s.computeOnly_ok _ hc, part_ok_bind]
  dsimp only
  rw [stopIf_false _ _ (by rw [hfine]; rfl), part_ok_bind, hread, part_ok_bind, ← hv]
  exact congrArg Host.Outcome.next (State.retire_eq _ (hu.only.mayFall hf))

/-- A write of all rows needs no value of the tile; another leaves the rows it does not write. -/
theorem exec_mv2t (hmay : s.tileMay q true = true) :
    ∃ u old, onlyTiles s u [q] ∧ (bits (s.getX b).toNat 20 16 ≠ 31 → old = s.tileValue q)
      ∧ exec (.mv2t q v b) s = .next (u.withTile q (.dirty (Bytes.put old (128 * bits (s.getX b).toNat 4 0)
        ((s.hart.getV v).getN (128 * bits (s.getX b).toNat 13 8) (128 * (bits (s.getX b).toNat 20 16 + 1)))))).falls := by
  have hend (u : State) (old : Bytes) (hu : s.Fetched u [q]) (bs : List Byte) :
      finish (s.orWait (u.writeTile q (old.put (128 * bits (s.getX b).toNat 4 0) bs)) >>= fun t => pure t.retire)
        = .next (u.withTile q (.dirty (old.put (128 * bits (s.getX b).toNat 4 0) bs))).falls := by
    rw [u.writeTile_ok q _ (u.slot_of_roomFor (List.mem_cons_self ..) (hu.room (s.roomFor_of_slotsFor [q] hslots)))]
    exact congrArg Host.Outcome.next (State.retire_eq _ (hu.only.mayFall hf))
  change ∃ u old, _ ∧ _ ∧ execMv2t q v b s = _
  rw [execMv2t, s.computeOnly_ok _ hc, part_ok_bind]
  dsimp only
  rw [stopIf_false _ _ (by rw [hfine]; rfl), part_ok_bind, s.tileWriteOk_ok q hmay, part_ok_bind]
  by_cases hall : bits (s.getX b).toNat 20 16 = 31
  · rw [if_pos hall, part_ok_bind]
    exact ⟨s, [], ⟨rfl, fun _ _ => rfl⟩, fun h => absurd hall h, hend s [] (.refl s [q]) _⟩
  · obtain ⟨u, hread, hu, -⟩ := State.readTile_one hready hslots
    rw [if_neg hall, hread, part_ok_bind]
    exact ⟨u, _, hu.only, fun _ => rfl, hend u _ hu _⟩

end

theorem tileRowsAndVectorRegisters : Sys2Proof.Says.TileRowsAndVectorRegisters := by
  intro q v b s hc hf hslots w t0 v0 n fine
  have hone := s.slotsFor_mono (by decide : 1 ≤ 2) hslots
  have ht0 : bits w 4 0 = t0 := congrArg (· % 2 ^ 5) (Nat.div_one w)
  refine ⟨fun hbad => ⟨exec_mt2v_bad hc ((Bool.not_eq_true _).mp hbad), exec_mv2t_bad hc ((Bool.not_eq_true _).mp hbad)⟩,
    fun hfine hready => ?_, fun hfine hready hmay => ?_⟩
  · obtain ⟨u, hu, hexec⟩ := exec_mt2v (v := v) hc hf hfine hready hone
    rw [ht0] at hexec
    exact ⟨u, hu, hexec⟩
  · obtain ⟨u, old, hu, hold, hexec⟩ := exec_mv2t (v := v) hc hf hfine hready hone hmay
    rw [ht0] at hexec
    refine ⟨_, _, _, hexec, rfl, hu.trans (onlyTiles_withTile u (List.mem_cons_self ..) _), Hart.tile_setTile_same _ q _,
      fun r hr => (tileRow_put _ _ t0 v0 n r).trans (if_ctx_congr Iff.rfl (fun _ => rfl) fun hrow => ?_)⟩
    have hsel : t0 + n ≤ 32 := by
      have := hfine
      simp only [fine, rowSelOk, Bool.and_eq_true, decide_eq_true_eq] at this
      obtain ⟨⟨-, hrows⟩, -⟩ := this
      rw [ht0] at hrows
      exact hrows
    rw [hold fun hall => hrow ?_]
    have hn : n = 32 := congrArg (· + 1) hall
    omega

/-- Settles O41: a transfer is a read or a write of its tile around one of its rows. -/
theorem tileTransfers : Obligations.TileTransfers := ⟨tileLoadsAndStores, tileRowsAndVectorRegisters⟩

end Sys2Proof.Machine
end

section
/-! PROOFS of the acceptance of copies and queue fills, and of table loads (R87, R145, R150 to R155, R194, R203, R204, R290, R301 to
R304, R343, R350). -/

namespace Sys2Proof.Machine

/-! ### Words as bytes (R2) -/

theorem leBytes_eq_map (n v : Nat) : leBytes n v = (List.range n).map fun k => BitVec.ofNat 8 (v / 2 ^ (8 * k)) := by
  induction n generalizing v with
  | zero => rfl
  | succ n ih =>
    rw [leBytes, ih, List.range_succ_eq_map, List.map_cons, List.map_map]
    congr 1
    · rw [Nat.mul_zero, Nat.pow_zero, Nat.div_one]
    · refine List.map_congr_left fun k _ => ?_
      rw [Function.comp_apply, Nat.div_div_eq_div_mul, Nat.succ_eq_add_one, Nat.mul_succ, Nat.pow_add, Nat.mul_comm (2 ^ (8 * k))]

theorem leBytes_toNat (n : Nat) (w : Word) : leBytes n w.toNat = lowBytes n w := by
  rw [leBytes_eq_map, lowBytes]
  refine List.map_congr_left fun k _ => ?_
  rw [BitVec.extractLsb', Nat.shiftRight_eq_div_pow]

/-! ### The checks of a copy (R150, R151, R155, R301) -/

section
variable (s : State)

theorem runOver_none {o n : Nat} (h : o + n ≤ 2 ^ 21) : runOver o n = none :=
  if_neg (by rw [Bool.and_eq_true, decide_eq_true_eq, decide_eq_true_eq, spSize]; omega)

theorem State.checkRuns_ok (os : List Word) (n : Nat) (h : ∀ o ∈ os, o.toNat + n ≤ 2 ^ 21) : s.checkRuns os n = .ok () := by
  have hnone : os.findSome? (fun o => runOver o.toNat n) = none :=
    List.findSome?_eq_none_iff.2 fun o ho => runOver_none (h o ho)
  rw [State.checkRuns, hnone]

theorem State.checkSpans_ok (ok : Nat → Bool) (as : List Word) (n : Nat) (h : ∀ a ∈ as, ∀ k < n, ok (a.toNat + k) = true) :
    s.checkSpans ok as n = .ok () := by
  have hnone : as.findSome? (fun a => firstBad ok a.toNat n) = none :=
    List.findSome?_eq_none_iff.2 fun a ha => firstBad_none ok _ n (h a ha)
  rw [State.checkSpans, hnone]

theorem State.copyChecks_ok (dir : Nat) (ds ss : List Word) (n : Nat)
    (hd : ∀ o ∈ ds, copySide s.hart.task.mayWrite (dirDst dir) n o)
    (hs : ∀ o ∈ ss, copySide s.hart.task.mayRead (dirSrc dir) n o) : s.copyChecks dir ds ss n = .ok () := by
  unfold State.copyChecks
  cases hdst : dirDst dir <;> cases hsrc : dirSrc dir <;> rw [hdst] at hd <;> rw [hsrc] at hs
  · change (s.checkSpans s.hart.task.mayRead ss n >>= fun _ => s.checkSpans s.hart.task.mayWrite ds n) = _
    rw [s.checkSpans_ok _ ss n hs, part_ok_bind, s.checkSpans_ok _ ds n hd]
  · change (s.checkRuns ss n >>= fun _ => s.checkSpans s.hart.task.mayWrite ds n) = _
    rw [s.checkRuns_ok ss n hs, part_ok_bind, s.checkSpans_ok _ ds n hd]
  · change (s.checkRuns ds n >>= fun _ => s.checkSpans s.hart.task.mayRead ss n >>= fun _ => pure ()) = _
    rw [s.checkRuns_ok ds n hd, part_ok_bind, s.checkSpans_ok _ ss n hs]
    rfl
  · change (s.checkRuns ds n >>= fun _ => s.checkRuns ss n >>= fun _ => pure ()) = _
    rw [s.checkRuns_ok ds n hd, part_ok_bind, s.checkRuns_ok ss n hs]
    rfl

end

theorem copyCwBad_of_fine (cw : Nat) (h : cw < 16 ∧ cwRot cw ≠ 3) : copyCwBad cw = false := by
  have hhigh : bits cw 63 4 = 0 := by simp only [bits]; omega
  simp [copyCwBad, hhigh, h.2]

/-- A requirement on a side that is the scratchpad is met. -/
theorem and_not_eq_false {b r : Bool} (h : b = true → r = true) : (b && !r) = false := by
  cases b with
  | false => rfl
  | true => rw [h rfl]; rfl

theorem and_any_not_eq_false {b : Bool} {os : List Word} {r : Word → Bool} (h : b = true → ∀ o ∈ os, r o = true) :
    (b && os.any fun o => !r o) = false := by
  cases b with
  | false => rfl
  | true =>
    rw [Bool.true_and, List.any_eq_false]
    intro o ho
    rw [h rfl o ho]
    exact Bool.false_ne_true

/-! ### Acceptance (R154, R203, R204) -/

/-- The hart in front has taken a place in its pool, and an entry has entered its engine queue. -/
def State.accepted (s : State) (q : Fin 8) (cmd : CopyCmd) (w : CopyWork) : State :=
  (s.onCluster fun c => c.serve s.hart.pool s.hart.name (s.hart.queueNum q)).enqueue q cmd w

section
variable (s : State) (q : Fin 8)

theorem State.makeRoom_of_room (h : s.hasRoom q = true) :
    s.makeRoom q = .ok (s.onCluster fun c => c.serve s.hart.pool s.hart.name (s.hart.queueNum q)) := by
  rw [State.makeRoom]
  exact if_pos h

theorem State.makeRoom_waits (h : s.hasRoom q = false) {t : State} (ht : s.drainCluster = .ok t) (hnone : t.hasRoom q = false) :
    s.makeRoom q = .error { t with cluster := t.cluster.stall t.hart.pool t.hart.name (t.hart.queueNum q) } := by
  rw [State.makeRoom]
  dsimp only
  rw [h, if_neg Bool.false_ne_true, ht]
  exact if_neg (by rw [hnone]; exact Bool.false_ne_true)

variable (cmd : CopyCmd) (ms : List Move)

theorem State.acceptCopy_empty (hf : s.mayFall) (h : ∀ m ∈ ms, m.len = 0) : s.acceptCopy q cmd ms = .ok s.falls := by
  rw [State.acceptCopy, if_pos (List.all_eq_true.2 fun m hm => beq_iff_eq.2 (h m hm)), s.retire_eq hf]

theorem State.acceptCopy_makeRoom (h : ∃ m ∈ ms, m.len ≠ 0) :
    s.acceptCopy q cmd ms = (s.makeRoom q).map fun t => (t.enqueue q cmd (.copy ms)).retire := by
  obtain ⟨m, hm, hlen⟩ := h
  exact if_neg fun hall => hlen (beq_iff_eq.1 (List.all_eq_true.1 hall m hm))

theorem State.acceptCopy_room (hf : s.mayFall) (h : ∃ m ∈ ms, m.len ≠ 0) (hroom : s.hasRoom q = true) :
    s.acceptCopy q cmd ms = .ok (s.accepted q cmd (.copy ms)).falls := by
  rw [s.acceptCopy_makeRoom q cmd ms h, s.makeRoom_of_room q hroom]
  exact congrArg Except.ok (State.retire_eq _ hf)

theorem State.acceptCopy_waits (h : ∃ m ∈ ms, m.len ≠ 0) (hroom : s.hasRoom q = false) {t : State}
    (ht : s.drainCluster = .ok t) (hnone : t.hasRoom q = false) : s.acceptCopy q cmd ms
      = .error { t with cluster := t.cluster.stall t.hart.pool t.hart.name (t.hart.queueNum q) } := by
  rw [s.acceptCopy_makeRoom q cmd ms h, s.makeRoom_waits q hroom ht hnone]
  rfl

/-- A copy of `n` moves of `len` bytes each, with a place in the pool. -/
theorem State.acceptCopy_moves (hf : s.mayFall) (hroom : s.hasRoom q = true) (n len : Nat) (f : Nat → Move)
    (hlen : ∀ k, (f k).len = len) : s.acceptCopy q cmd ((List.range n).map f)
      = .ok (if len = 0 ∨ n = 0 then s else s.accepted q cmd (.copy ((List.range n).map f))).falls := by
  by_cases hnone : len = 0 ∨ n = 0
  · rw [if_pos hnone, s.acceptCopy_empty q cmd _ hf]
    refine List.forall_mem_map.2 fun k hk => ?_
    have := List.mem_range.1 hk
    rw [hlen]
    omega
  · rw [if_neg hnone, s.acceptCopy_room q cmd _ hf _ hroom]
    obtain ⟨hl, hn⟩ := not_or.1 hnone
    exact ⟨f 0, List.mem_map_of_mem (List.mem_range.2 (Nat.pos_of_ne_zero hn)), by rwa [hlen]⟩

end

/-! ### The record of a copy (R301) -/

theorem State.copyRecord_ok (s : State) (a : Word) (halign : a.toNat % 32 = 0) (hread : s.canRead a.toNat 32) :
    s.copyRecord a = .ok (s.seesNow a.toNat 32, s.counted a.toNat 32) := by
  have hbits : bits a.toNat 4 0 = 0 := by simp only [bits]; omega
  rw [State.copyRecord, State.spCtl, stopIf_false _ _ (decide_eq_false (not_not.2 hbits)), part_ok_bind, s.load_ok _ _ hread]

theorem State.counted_worn (s : State) (a n : Nat) : s.Worn (s.counted a n) 1 := s.count_worn s.hart.task.asid a n

/-- What was counted before a load does not change what it reads. -/
theorem State.load_counted (s : State) (a n b m : Nat) (h : s.canRead b m) :
    (s.counted a n).load b m = .ok (s.seesNow b m, (s.counted a n).counted b m) := by
  have hworn := s.counted_worn a n
  rw [(s.counted a n).load_ok b m ⟨h.1, (hworn.translates rfl b m).2 h.2⟩, State.seesNow, hworn.sees rfl rfl rfl]
  rfl

/-! ### `cpy` (R155) -/

section
variable {q : Fin 8} {a b c : XReg} {s : State} (hout : s.outside)
include hout

theorem exec_cpy_eq (hcw : (s.getX c).toNat < 16 ∧ cwRot (s.getX c).toNat ≠ 3)
    (hdst : dirDst (cwDir (s.getX c).toNat) = true → rotOk (cwRot (s.getX c).toNat) (s.getX a).toNat s.hart.copyWidth = true)
    (hsrc : dirSrc (cwDir (s.getX c).toNat) = true → rotOk (cwRot (s.getX c).toNat) (s.getX b).toNat s.hart.copyWidth = true)
    (hinto : copySide s.hart.task.mayWrite (dirDst (cwDir (s.getX c).toNat)) s.hart.copyBytes (s.getX a))
    (hfrom : copySide s.hart.task.mayRead (dirSrc (cwDir (s.getX c).toNat)) s.hart.copyBytes (s.getX b)) :
    exec (.cpy q a b c) s = finish (s.acceptCopy q (s.copyCmd 0 a b s.hart.copyBytes (lowBytes 8 (s.getX c)))
      [{ src := sideOf (dirSrc (cwDir (s.getX c).toNat)) (s.getX b) (cwRot (s.getX c).toNat) 0
         dst := sideOf (dirDst (cwDir (s.getX c).toNat)) (s.getX a) (cwRot (s.getX c).toNat) 0, len := s.hart.copyBytes }]) := by
  change execCpy q a b c s = _
  rw [execCpy, s.noStrip_ok hout, part_ok_bind]
  dsimp only
  rw [State.spCtl, stopIf_false _ _ (by rw [copyCwBad_of_fine _ hcw, and_not_eq_false hdst, and_not_eq_false hsrc]; rfl),
    part_ok_bind, s.copyChecks_ok _ _ _ _ (List.forall_mem_singleton.2 hinto) (List.forall_mem_singleton.2 hfrom), part_ok_bind,
    leBytes_toNat]

/-! ### `cpy2d` (R302) -/

/-- The record of a `cpy2d` or `cpyg` that can be read. -/
abbrev State.copyRec (s : State) (c : XReg) : List Byte := s.seesNow (s.getX c).toNat 32

theorem exec_cpy2d (hf : s.mayFall) (hroom : s.hasRoom q = true) (halign : (s.getX c).toNat % 32 = 0)
    (hread : s.canRead (s.getX c).toNat 32) {cw rows n : Nat} (hcw : field (s.copyRec c) 0 8 = cw)
    (hrows : field (s.copyRec c) 8 4 = rows) (hn : s.hart.copyBytes = n) (hfine : cw < 16 ∧ cwRot cw ≠ 3)
    (hzero : field (s.copyRec c) 12 4 = 0) (hmax : rows ≤ 1048576) {dAt sAt : Nat → Word}
    (hd : ∀ k, s.getX a + BitVec.ofNat 64 k * BitVec.ofNat 64 (field (s.copyRec c) 16 8) = dAt k)
    (hs : ∀ k, s.getX b + BitVec.ofNat 64 k * BitVec.ofNat 64 (field (s.copyRec c) 24 8) = sAt k)
    (hdst : ∀ k < rows, dirDst (cwDir cw) = true → rotOk (cwRot cw) (dAt k).toNat s.hart.copyWidth = true)
    (hsrc : ∀ k < rows, dirSrc (cwDir cw) = true → rotOk (cwRot cw) (sAt k).toNat s.hart.copyWidth = true)
    (hinto : ∀ k < rows, copySide s.hart.task.mayWrite (dirDst (cwDir cw)) n (dAt k))
    (hfrom : ∀ k < rows, copySide s.hart.task.mayRead (dirSrc (cwDir cw)) n (sAt k)) :
    exec (.cpy2d q a b c) s = .next (if n = 0 ∨ rows = 0 then s.counted (s.getX c).toNat 32
      else (s.counted (s.getX c).toNat 32).accepted q (s.copyCmd 1 a b n (s.copyRec c)) (.copy ((List.range rows).map fun k =>
        { src := sideOf (dirSrc (cwDir cw)) (sAt k) (cwRot cw) 0
          dst := sideOf (dirDst (cwDir cw)) (dAt k) (cwRot cw) 0, len := n }))).falls := by
  have hrow (P : Word → Prop) (f : Nat → Word) (h : ∀ k < rows, P (f k)) : ∀ o ∈ (List.range rows).map f, P o :=
    List.forall_mem_map.2 fun k hk => h k (List.mem_range.1 hk)
  have hds : rowStarts (s.getX a) (BitVec.ofNat 64 (field (s.copyRec c) 16 8)) rows = (List.range rows).map dAt :=
    List.map_congr_left fun k _ => hd k
  have hss : rowStarts (s.getX b) (BitVec.ofNat 64 (field (s.copyRec c) 24 8)) rows = (List.range rows).map sAt :=
    List.map_congr_left fun k _ => hs k
  have hturned : (copyCwBad cw
      || (dirDst (cwDir cw) && ((List.range rows).map dAt).any fun o => !rotOk (cwRot cw) o.toNat s.hart.copyWidth)
      || (dirSrc (cwDir cw) && ((List.range rows).map sAt).any fun o => !rotOk (cwRot cw) o.toNat s.hart.copyWidth)) = false := by
    rw [copyCwBad_of_fine _ hfine,
      and_any_not_eq_false (r := fun o => rotOk (cwRot cw) o.toNat s.hart.copyWidth) fun hsp => hrow _ dAt fun k hk => hdst k hk hsp,
      and_any_not_eq_false (r := fun o => rotOk (cwRot cw) o.toNat s.hart.copyWidth) fun hsp => hrow _ sAt fun k hk => hsrc k hk hsp]
    rfl
  change execCpy2d q a b c s = _
  rw [execCpy2d, s.noStrip_ok hout, part_ok_bind]
  dsimp only
  rw [s.copyRecord_ok _ halign hread, part_ok_bind]
  dsimp only
  rw [hcw, hrows, hn, State.spCtl, stopIf_false _ _ (by simp [hzero, hmax]), part_ok_bind, hds, hss, State.spCtl,
    stopIf_false _ _ hturned, part_ok_bind, s.copyChecks_ok _ _ _ _ (hrow _ dAt hinto) (hrow _ sAt hfrom), part_ok_bind,
    List.zip_map', List.map_map]
  exact congrArg finish (State.acceptCopy_moves (s.counted _ 32) q _ hf hroom rows n _ fun _ => rfl)

end

/-! ### `cpyg` (R303) -/

/-- No element of a gather is refused where none fails a check. -/
theorem badElem_none {src dst : Word → Bool} {es : List (Word × Word)} (h : ∀ e ∈ es, src e.1 = false ∧ dst e.2 = false) :
    badElem src dst es = none := by
  refine List.findSome?_eq_none_iff.2 fun e he => ?_
  obtain ⟨hsrc, hdst⟩ := h e he
  rw [hsrc, hdst]
  rfl

/-- A run that may be one side of a copy does not pass the scratchpad's end, and the lease refuses none of its bytes. -/
theorem copySide_checks {ok : Nat → Bool} {sp : Bool} {n : Nat} {o : Word} (h : copySide ok sp n o) :
    (sp && (runOver o.toNat n).isSome) = false ∧ (!sp && (firstBad ok o.toNat n).isSome) = false := by
  cases sp with
  | true => exact ⟨by rw [runOver_none h]; rfl, rfl⟩
  | false => exact ⟨rfl, by rw [firstBad_none ok _ n h]; rfl⟩

theorem map_zipIdx_map_range {α β : Type} (f : Nat → α) (g : α × Nat → β) (n : Nat) :
    ((List.range n).map f).zipIdx.map g = (List.range n).map fun i => g (f i, i) :=
  List.ext_getElem (by simp) fun i _ _ => by simp

theorem Hart.copyWidth_ne_zero (h : Hart) : h.copyWidth ≠ 0 := by
  unfold Hart.copyWidth
  split
  · exact one_ne_zero
  · exact pow_ne_zero _ two_ne_zero

section
variable {q : Fin 8} {a b c : XReg} {s : State} (hout : s.outside) (hf : s.mayFall) (hroom : s.hasRoom q = true)
  (halign : (s.getX c).toNat % 32 = 0) (hread : s.canRead (s.getX c).toNat 32)
include hout hf hroom halign hread

theorem exec_cpyg {cw idx m u : Nat} (hcw : field (s.copyRec c) 0 8 = cw) (hidx : field (s.copyRec c) 8 8 = idx)
    (hm : s.hart.copyLen = m) (hu : s.hart.copyWidth = u) (hfine : cw < 16 ∧ cwRot cw ≠ 3) (hrot : cwDir cw = 2 → cwRot cw = 0)
    (hdst : dirDst (cwDir cw) = true → rotOk (cwRot cw) (s.getX a).toNat u = true) (hword : idx % 4 = 0)
    (hpad : field (s.copyRec c) 16 8 = 0 ∧ field (s.copyRec c) 24 8 = 0) (hindex : s.canRead idx (4 * m)) {sAt dAt : Nat → Word}
    (hs : ∀ i, s.getX b + BitVec.ofNat 64 (field (s.seesNow idx (4 * m)) (4 * i) 4) = sAt i)
    (hd : ∀ i, s.getX a + BitVec.ofNat 64 (i * u) = dAt i)
    (hsides : ∀ i < m, copySide s.hart.task.mayRead (dirSrc (cwDir cw)) u (sAt i)
      ∧ copySide s.hart.task.mayWrite (dirDst (cwDir cw)) u (dAt i)) :
    exec (.cpyg q a b c) s = .next (if m = 0 then s.counted (s.getX c).toNat 32
      else ((s.counted (s.getX c).toNat 32).counted idx (4 * m)).accepted q (s.copyCmd 2 a b (m * u) (s.copyRec c))
        (.copy ((List.range m).map fun i =>
          { src := sideOf (dirSrc (cwDir cw)) (sAt i) 0 0
            dst := if dirDst (cwDir cw) then .sp (s.getX a).toNat (cwRot cw) 0 (i * u) else .mem (dAt i), len := u }))).falls := by
  have hctl : (copyCwBad cw || (decide (cwDir cw = 2) && decide (cwRot cw ≠ 0))
      || (dirDst (cwDir cw) && !rotOk (cwRot cw) (s.getX a).toNat u)) = false := by
    rw [copyCwBad_of_fine _ hfine, and_not_eq_false hdst, Bool.or_false, Bool.false_or, Bool.and_eq_false_iff, decide_eq_false_iff_not,
      decide_eq_false_iff_not]
    exact Classical.or_iff_not_imp_left.2 fun h => not_not.2 (hrot (not_not.1 h))
  have hindexed : firstBad s.hart.task.mayRead idx (4 * m) = none := firstBad_none _ _ _ hindex.1
  have hes (P : Word × Word → Prop) (h : ∀ i < m, P (sAt i, dAt i)) : ∀ e ∈ (List.range m).map fun i => (sAt i, dAt i), P e :=
    List.forall_mem_map.2 fun i hi => h i (List.mem_range.1 hi)
  change execCpyg q a b c s = _
  rw [execCpyg, s.noStrip_ok hout, part_ok_bind]
  dsimp only
  rw [s.copyRecord_ok _ halign hread, part_ok_bind]
  dsimp only
  rw [hcw, hidx, hm, hu, State.spCtl, stopIf_false _ _ (by simp [hword, hpad]), part_ok_bind, State.spCtl, stopIf_false _ _ hctl,
    part_ok_bind]
  by_cases hnone : m = 0
  · rw [if_pos hnone, if_pos hnone]
    exact congrArg Host.Outcome.next (State.retire_eq _ hf)
  rw [if_neg hnone, if_neg hnone, hindexed, Option.isSome_none, Bool.and_false]
  simp only [Bool.false_and, List.find?_eq_none.2 fun _ _ => Bool.false_ne_true, s.load_counted _ _ _ _ hindex, part_ok_bind, hs, hd]
  rw [badElem_none (hes _ fun i hi => ⟨(copySide_checks (hsides i hi).1).1, (copySide_checks (hsides i hi).2).1⟩)]
  dsimp only
  rw [badElem_none (hes _ fun i hi => ⟨(copySide_checks (hsides i hi).1).2, (copySide_checks (hsides i hi).2).2⟩)]
  dsimp only
  rw [map_zipIdx_map_range]
  exact congrArg finish (State.acceptCopy_room ((s.counted _ 32).counted idx (4 * m)) q _ _ hf ⟨_, List.mem_map_of_mem
    (List.mem_range.2 (Nat.pos_of_ne_zero hnone)), hu ▸ s.hart.copyWidth_ne_zero⟩ hroom)

/-! ### `cpyts` (R290, R304) -/

theorem exec_cpyts (k : Carve) (hk : s.carve? (s.getX b) = some k) {n : Nat} (hn : s.hart.copyBytes = n)
    (hregion : regionOk (s.copyRec c) n (s.getX a).toNat s.hart.copyWidth = true)
    (hrows : field (s.copyRec c) 0 4 + n / 128 ≤ k.rows) {sp : Bool} (hsp : (field (s.copyRec c) 5 1 == 1) = sp) {at1 : Nat → Word}
    (hat : ∀ j, s.getX a + BitVec.ofNat 64 j * BitVec.ofNat 64 (field (s.copyRec c) 8 8) = at1 j)
    (hside : ∀ j < n / 128, copySide (if field (s.copyRec c) 4 1 = 1 then s.hart.task.mayWrite else s.hart.task.mayRead) sp 128
      (at1 j)) :
    exec (.cpyts q a b c) s = .next (if n / 128 = 0 then s.counted (s.getX c).toNat 32
      else (s.counted (s.getX c).toNat 32).accepted q (s.copyCmd 3 a b n (s.copyRec c)) (.copy ((List.range (n / 128)).map fun j =>
        let side := sideOf sp (at1 j) (field (s.copyRec c) 6 1) j
        let ts := Side.ts (s.getX b) (128 * (field (s.copyRec c) 0 4 + j))
        if field (s.copyRec c) 4 1 = 1 then { src := ts, dst := side, len := 128 } else { src := side, dst := ts, len := 128 }))).falls := by
  have hwhole : n % 128 = 0 := by
    simp only [regionOk, Bool.and_eq_true, decide_eq_true_eq] at hregion
    tauto
  have hos : rowStarts (s.getX a) (BitVec.ofNat 64 (field (s.copyRec c) 8 8)) (n / 128) = (List.range (n / 128)).map at1 :=
    List.map_congr_left fun j _ => hat j
  have hsides (ok : Nat → Bool) (h : ∀ j < n / 128, copySide ok sp 128 (at1 j)) :
      ∀ o ∈ (List.range (n / 128)).map at1, copySide ok sp 128 o := List.forall_mem_map.2 fun j hj => h j (List.mem_range.1 hj)
  change execCpyts q a b c s = _
  rw [execCpyts, s.noStrip_ok hout, part_ok_bind]
  dsimp only
  rw [hn, State.spCtl, stopIf_false _ _ (by rw [hwhole]; rfl), part_ok_bind, hk,
    stopIf_false _ _ (by rw [Option.isNone_some, Bool.and_false]), part_ok_bind, s.copyRecord_ok _ halign hread, part_ok_bind]
  dsimp only
  rw [State.spCtl, stopIf_false _ _ (by rw [hregion]; rfl), part_ok_bind,
    stopIf_false _ _ (by rw [decide_eq_false (Nat.not_lt.2 hrows), Bool.and_false]), part_ok_bind, hsp, hos]
  have hmove (c : Prop) [Decidable c] (x y : Side) : ({ src := if c then x else y, dst := if c then y else x, len := 128 } : Move)
      = if c then { src := x, dst := y, len := 128 } else { src := y, dst := x, len := 128 } := by split <;> rfl
  have haccept (f : Nat → Move) (hf' : ∀ j, (f j).len = 128) := State.acceptCopy_moves (s.counted (s.getX c).toNat 32) q
    (s.copyCmd 3 a b n (s.copyRec c)) hf hroom (n / 128) 128 f hf'
  simp only [beq_iff_eq, hmove, map_zipIdx_map_range]
  cases sp with
  | true =>
    rw [if_pos rfl, s.checkRuns_ok _ 128 (hsides _ hside), part_ok_bind, if_neg (by decide), haccept _ fun j => by split <;> rfl]
    simp
  | false =>
    rw [if_neg (by decide), if_pos (by decide), s.checkSpans_ok _ _ 128 (hsides _ hside), part_ok_bind,
      haccept _ fun j => by split <;> rfl]
    simp

end

theorem exec_cpyts_length (q : Fin 8) (a b c : XReg) (s : State) (hout : s.outside) (hpart : s.hart.copyBytes % 128 ≠ 0) :
    exec (.cpyts q a b c) s = .next (s.raise 0x0B (s.getX c)) := by
  change execCpyts q a b c s = _
  rw [execCpyts, s.noStrip_ok hout, part_ok_bind]
  dsimp only
  rw [State.spCtl, stopIf_true _ _ (decide_eq_true hpart)]
  rfl

theorem copiesAreAccepted : Sys2Proof.Says.CopiesAreAccepted := by
  intro q a b c s hout hf n u dst src queued ra r okCw into from1 turned
  refine ⟨fun hcw hdst hsrc hinto hfrom => ?_, fun hroom halign hread => ⟨?_, ?_, ?_, ?_⟩⟩
  · have hexec := exec_cpy_eq (q := q) hout hcw hdst hsrc hinto hfrom
    refine ⟨fun hzero => ?_, fun hmoves hroom => ?_, fun hmoves hnone t ht hstill => ?_⟩
    · rw [hexec, s.acceptCopy_empty q _ _ hf (List.forall_mem_singleton.2 hzero)]
      rfl
    · rw [hexec, s.acceptCopy_room q _ _ hf ⟨_, List.mem_singleton_self _, hmoves⟩ hroom]
      rfl
    · rw [hexec, s.acceptCopy_waits q _ _ ⟨_, List.mem_singleton_self _, hmoves⟩ hnone ht hstill]
      rfl
  · intro cw rows dAt sAt hcw hzero hmax hsides
    have hexec := exec_cpy2d (q := q) hout hf hroom halign hread rfl rfl rfl hcw hzero hmax (fun _ => rfl) (fun _ => rfl)
      (fun k hk => (hsides k hk).1) (fun k hk => (hsides k hk).2.1) (fun k hk => (hsides k hk).2.2.1)
      (fun k hk => (hsides k hk).2.2.2)
    exact hexec
  · intro cw m idx sAt dAt hcw hrot hdst hword hpad hpad' hindex hsides
    exact exec_cpyg hout hf hroom halign hread rfl rfl rfl rfl hcw hrot hdst hword ⟨hpad, hpad'⟩ hindex (fun _ => rfl)
      (fun _ => rfl) hsides
  · exact exec_cpyts_length q a b c s hout
  · intro k hk hregion rows row sp at1 hrows hside
    exact exec_cpyts hout hf hroom halign hread k hk rfl hregion hrows rfl (fun _ => rfl) hside

/-! ### `qfill` and `tblld` (R87, R145, R194, R343, R350) -/

section
variable {q : Fin 8} {a b c : XReg} {s : State} (hout : s.outside)

include hout

/-- A `qfill` whose operands are good takes its place in the delivery queue, then in the pool. -/
theorem exec_qfill_eq (hcw : (s.getX c).toNat < 16 ∧ cwRot (s.getX c).toNat ≠ 3)
    (hdir : cwDir (s.getX c).toNat = 0 ∨ cwDir (s.getX c).toNat = 3)
    (hturned : (cwDir (s.getX c).toNat == 3) = true → rotOk (cwRot (s.getX c).toNat) (s.getX b).toNat 16 = true)
    (hqueue : (s.getX a).toNat ≤ 15)
    (hside : copySide s.hart.task.mayRead (cwDir (s.getX c).toNat == 3) 128 (s.getX b)) :
    exec (.qfill q a b c) s = finish (do
      stopIf (!s.hasSlot (Fin.ofNat 16 (s.getX a).toNat))
        (s.onCluster fun k => k.stall 5 s.hart.name (Fin.ofNat 16 (s.getX a).toNat).val)
      let t ← s.makeRoom q
      return ((t.takeName.2.onCluster fun k =>
        { k.serve 5 t.hart.name (Fin.ofNat 16 (s.getX a).toNat).val with
          queues := k.queues.set (Fin.ofNat 16 (s.getX a).toNat).val (k.queues.get (Fin.ofNat 16 (s.getX a).toNat)
            ++ [{ id := t.takeName.1, owner := t.hart.task.serial, bytes := none }]) }).enqueue q
        (s.copyCmd 4 a b 128 (lowBytes 8 (s.getX c)))
        (.fill (sideOf (cwDir (s.getX c).toNat == 3) (s.getX b) (cwRot (s.getX c).toNat) 0) (Fin.ofNat 16 (s.getX a).toNat)
          t.takeName.1)).retire) := by
  have hctl : (decide (cwDir (s.getX c).toNat = 1) || decide (cwDir (s.getX c).toNat = 2) || copyCwBad (s.getX c).toNat
      || (cwDir (s.getX c).toNat == 3 && !rotOk (cwRot (s.getX c).toNat) (s.getX b).toNat 16)) = false := by
    rw [copyCwBad_of_fine _ hcw, and_not_eq_false hturned]
    rcases hdir with h | h <;> rw [h] <;> rfl
  change execQfill q a b c s = _
  rw [execQfill, s.noStrip_ok hout, part_ok_bind]
  dsimp only
  rw [State.spCtl, stopIf_false _ _ hctl, part_ok_bind, stopIf_false _ _ (decide_eq_false (Nat.not_lt.2 hqueue)), part_ok_bind,
    leBytes_toNat]
  cases hsp : cwDir (s.getX c).toNat == 3 with
  | true =>
    rw [hsp] at hside
    rw [if_pos rfl, s.checkRuns_ok _ _ (List.forall_mem_singleton.2 hside), part_ok_bind, if_neg (by decide)]
  | false =>
    rw [hsp] at hside
    rw [if_neg (by decide), if_pos (by decide), s.checkSpans_ok _ _ _ (List.forall_mem_singleton.2 hside), part_ok_bind]

theorem exec_tblld (tq : Fin 4) (hf : s.mayFall) (halign : (s.getX a).toNat % 128 = 0) (hread : s.canRead (s.getX a).toNat 1040) :
    exec (.tblld tq a) s = .next ({ s.counted (s.getX a).toNat 1040 with
      cluster := { s.cluster with tables := s.cluster.tables.set tq.val (some (Bytes.put [] 0
        ((s.seesNow (s.getX a).toNat 1040).take 8 ++ List.replicate 8 0 ++ (s.seesNow (s.getX a).toNat 1040).drop 16))) } }
        : State).falls := by
  have hbits : bits (s.getX a).toNat 6 0 = 0 := by simp only [bits]; omega
  change execTblld tq a s = _
  rw [execTblld, s.noStrip_ok hout, part_ok_bind]
  dsimp only
  rw [stopIf_false _ _ (decide_eq_false (not_not.2 hbits)), part_ok_bind, s.load_ok _ _ hread, part_ok_bind]
  exact congrArg Host.Outcome.next (State.retire_eq _ hf)

theorem exec_tblld_misaligned (tq : Fin 4) (halign : (s.getX a).toNat % 128 ≠ 0) :
    exec (.tblld tq a) s = .next (s.raise 0x09 (s.getX a)) := by
  have hbits : bits (s.getX a).toNat 6 0 ≠ 0 := by simp only [bits]; omega
  change execTblld tq a s = _
  rw [execTblld, s.noStrip_ok hout, part_ok_bind]
  dsimp only
  rw [stopIf_true _ _ (decide_eq_true hbits)]
  rfl

end

theorem queueFillsAndTableLoads : Sys2Proof.Says.QueueFillsAndTableLoads := by
  intro q tq a b c s hout hf cw src dq sp slot entry va seen rec1
  refine ⟨fun hlow hrot hdir hturned hqueue hside => ?_, exec_tblld hout tq hf, exec_tblld_misaligned hout tq⟩
  have hexec := exec_qfill_eq (q := q) hout ⟨hlow, hrot⟩ hdir hturned hqueue hside
  refine ⟨fun hslot hroom => ?_, fun hslot => ?_, fun hslot hnone t ht hstill => ?_⟩
  · rw [hexec, stopIf_false _ _ (by rw [hslot]; rfl), part_ok_bind, s.makeRoom_of_room q hroom]
    exact congrArg Host.Outcome.next (State.retire_eq _ hf)
  · rw [hexec, stopIf_true _ _ (by rw [hslot]; rfl)]
    rfl
  · rw [hexec, stopIf_false _ _ (by rw [hslot]; rfl), part_ok_bind, s.makeRoom_waits q hnone ht hstill]
    rfl

/-- Settles O43: the checks of an instruction pass, and its entry is accepted, or waits for a place (`State.acceptCopy`,
`State.makeRoom`). -/
theorem copyEngineAcceptance : Obligations.CopyEngineAcceptance := ⟨copiesAreAccepted, queueFillsAndTableLoads⟩

end Sys2Proof.Machine
end

section
/-! PROOFS: the invariant at reset (O7), and the bytes of an access at their own translations (O13). -/

namespace Sys2Proof.Machine

/-- Settles O7: memory is empty after reset, with no leaf, no image and no turn to come. -/
theorem invariantHoldsAtReset : Obligations.InvariantHoldsAtReset where
  mem := rfl
  leaves := fun _ h => absurd h List.not_mem_nil
  images := fun _ h => absurd h List.not_mem_nil
  baselines := fun _ h => absurd h List.not_mem_nil
  agenda := fun _ h => absurd h List.not_mem_nil

theorem Bytes.getRuns_append (m : Bytes) (rs qs : List (Nat × Nat)) : m.getRuns (rs ++ qs) = m.getRuns rs ++ m.getRuns qs :=
  List.flatMap_append

/-- The bytes of an access are those at their own keys, in order: page by page, where every leaf stands at a page boundary. -/
theorem State.getRuns_keys (s : State) (hal : ∀ l ∈ s.leaves, l.aligned) (m : Bytes) (a n : Nat) (htr : s.translates a n) :
    m.getRuns (s.keys a n) = (List.range n).map fun i => m.get (s.keyAt (a + i)) := by
  by_cases hn : n = 0
  · subst hn
    rfl
  have hmaps := (s.translates_iff hal a n).1 htr
  have hpage (k : Nat) (hk : k ≤ n) (hfit : a % 65536 + k ≤ 65536) :
      m.getRuns [(s.keyAt a, k)] = (List.range k).map fun i => m.get (s.keyAt (a + i)) := by
    rw [Bytes.getRuns, List.flatMap_singleton, Bytes.getN_eq]
    refine List.map_congr_left fun i hi => ?_
    have hik := List.mem_range.1 hi
    rw [s.keyAt_of_page hal a i (by omega) (hmaps 0 (by omega))]
  by_cases hone : a % 65536 + n ≤ 65536
  · rw [s.keys_onePage hn hone, hpage n le_rfl hone]
  · obtain ⟨k, hk⟩ : ∃ k, k = 65536 - a % 65536 := ⟨_, rfl⟩
    have hrest : s.translates (a + k) (n - k) := (s.translates_iff hal _ _).2 fun j hj => by
      rw [Nat.add_assoc]
      exact hmaps (k + j) (by omega)
    have ih := State.getRuns_keys s hal m (a + k) (n - k) hrest
    obtain ⟨r, rfl⟩ : ∃ r, n = k + r := ⟨n - k, by omega⟩
    rw [Nat.add_sub_cancel_left] at ih
    rw [s.keys_append _ (by omega) (by omega), s.keys_onePage (by omega) (by omega), Bytes.getRuns_append,
      hpage k (by omega) (by omega), ih, List.range_add, List.map_append, List.map_map]
    simp only [Function.comp_def, Nat.add_assoc]
termination_by n
decreasing_by omega

/-- Settles O13: the bytes of an access are those at their own keys (`State.getRuns_keys`). -/
theorem runsAreTheBytesInOrder : Obligations.RunsAreTheBytesInOrder := by
  intro s va n k hal htr hk
  obtain ⟨key, hkey⟩ := Option.isSome_iff_exists.1 ((s.translates_iff hal va n).1 htr k hk)
  refine ⟨key, hkey, ?_⟩
  rw [s.getRuns_keys hal s.mem va n htr, List.getElem?_map, List.getElem?_range hk, Option.map_some, State.keyAt, hkey,
    Option.getD_some]

end Sys2Proof.Machine
end

section
/-! PROOFS of the invariant (O8), the terms they are said in: what a computation ends in, what an outcome answers, and the changes
that keep the invariant. For every function of the model that answers a state, a lemma of its name says that it keeps it. -/

namespace Sys2Proof.Machine

/-- What a computation goes on with meets `Q`, and what it ends in meets `E`. -/
def Ends {ε α : Type} (E : ε → Prop) (Q : α → Prop) (r : Except ε α) : Prop :=
  match r with
  | .ok x => Q x
  | .error e => E e

/-- The state that an outcome answers, where it answers one, meets the invariant. -/
def Keeps (r : Out) : Prop := ∀ t, r = .next t → t.Inv

section
variable {ε α β : Type} {E : ε → Prop} {P Q : α → Prop} {R : β → Prop}

theorem Ends.ok {x : α} (h : Q x) : Ends E Q (.ok x) := h

theorem Ends.pure {x : α} (h : Q x) : Ends E Q (Pure.pure x : Except ε α) := h

theorem Ends.ok_snd {Q : β → Prop} {x : α} {y : β} (h : Q y) : Ends E (fun x => Q x.2) (.ok (x, y)) := h

theorem Ends.pure_snd {Q : β → Prop} {x : α} {y : β} (h : Q y) :
    Ends E (fun x => Q x.2) (Pure.pure (x, y) : Except ε (α × β)) := h

theorem Ends.ok_fst {Q : α → Prop} {x : α} {y : β} (h : Q x) : Ends E (fun x => Q x.1) (.ok (x, y)) := h

theorem Ends.error {e : ε} (h : E e) : Ends E Q (.error e) := h

theorem Ends.of_ok {r : Except ε α} {x : α} (h : Ends E Q r) (hr : r = .ok x) : Q x := by
  subst hr
  exact h

theorem Ends.of_error {r : Except ε α} {e : ε} (h : Ends E Q r) (hr : r = .error e) : E e := by
  subst hr
  exact h

theorem Ends.trivial {r : Except ε α} : Ends (fun _ => True) (fun _ => True) r := by
  cases r <;> exact True.intro

theorem Ends.imp {r : Except ε α} (h : Ends E P r) (hpq : ∀ x, P x → Q x) : Ends E Q r := by
  cases r with
  | ok x => exact hpq x h
  | error e => exact h

theorem Ends.bind {r : Except ε α} {f : α → Except ε β} (h : Ends E Q r) (hf : ∀ x, Q x → Ends E R (f x)) :
    Ends E R (r >>= f) := by
  cases r with
  | ok x => exact hf x h
  | error e => exact h

theorem Ends.map {r : Except ε α} {f : α → β} (h : Ends E Q r) (hf : ∀ x, Q x → R (f x)) : Ends E R (r.map f) := by
  cases r with
  | ok x => exact hf x h
  | error e => exact h

theorem Ends.foldlM {γ : Type} {f : α → γ → Except ε α} (hf : ∀ a x, Q a → Ends E Q (f a x)) {xs : List γ} {a : α} (h : Q a) :
    Ends E Q (xs.foldlM f a) := by
  induction xs generalizing a with
  | nil => exact h
  | cons x r ih =>
    rw [List.foldlM_cons]
    exact .bind (hf a x h) fun _ => ih

theorem Ends.forM {γ : Type} {f : γ → Except ε PUnit} {xs : List γ} (hf : ∀ x, Ends E (fun _ => True) (f x)) :
    Ends E (fun _ => True) (xs.forM f) := by
  induction xs with
  | nil => exact True.intro
  | cons x r ih => exact .bind (hf x) fun _ _ => ih

/-- A check that is made in one case alone. -/
theorem Ends.when {c : Prop} [Decidable c] {r : Except ε PUnit} {f : PUnit → Except ε β} (h : Ends E (fun _ => True) r)
    (hf : Ends E R (f ⟨⟩)) : Ends E R (if c then r >>= f else f ⟨⟩) := by
  split
  · exact h.bind fun _ _ => hf
  · exact hf

theorem Ends.ite {c : Prop} [Decidable c] {r r' : Except ε α} (h : Ends E Q r) (h' : Ends E Q r') :
    Ends E Q (if c then r else r') := by
  split
  · exact h
  · exact h'

end

theorem Keeps.finish {r : Part State} (h : Ends State.Inv State.Inv r) : Keeps (Machine.finish r) := by
  cases r <;> rintro t ⟨⟩ <;> exact h

theorem State.Inv.next {t : State} (h : t.Inv) : Keeps (.next t) := by
  rintro u ⟨⟩
  exact h

theorem State.Inv.stopIf {c : Bool} {t : State} (h : t.Inv) : Ends State.Inv (fun _ => True) (Machine.stopIf c t) := by
  unfold Machine.stopIf
  split
  · exact h
  · exact trivial

theorem State.Inv.ite {c : Prop} [Decidable c] {s t : State} (h : s.Inv) (h' : t.Inv) : (if c then s else t).Inv := by
  split
  · exact h
  · exact h'

/-- A change of any fields but the five that the invariant speaks of. -/
theorem State.Inv.update {s : State}
    {hart cluster others clusters lines spaces launches ended queue parked ckpts phasers phGens carves carveGen
    records claims puts gets sends held landed expired egress mapPending pageSeq cmdSeq compSeq completions tenants
    fid vacant absent ports withheldPorts flintHeld usable configured config trusted registered selfTest logical
    engines slotErr heatFloor freeCount nextName how}
    (h : s.Inv) :
    ({ s with
      hart, cluster, others, clusters, lines, spaces, launches, ended, queue, parked, ckpts, phasers, phGens,
      carves, carveGen, records, claims, puts, gets, sends, held, landed, expired, egress, mapPending, pageSeq,
      cmdSeq, compSeq, completions, tenants, fid, vacant, absent, ports, withheldPorts, flintHeld, usable, configured,
      config, trusted, registered, selfTest, logical, engines, slotErr, heatFloor, freeCount, nextName, how } : State).Inv :=
  ⟨h.mem, h.leaves, h.images, h.baselines, h.agenda⟩

theorem State.Inv.foldl {α : Type} {f : State → α → State} (hf : ∀ t x, t.Inv → (f t x).Inv) (xs : List α) {s : State}
    (h : s.Inv) :
    (xs.foldl f s).Inv := List.foldlRecOn xs f h fun t ht x _ => hf t x ht

/-! ### Writes -/

/-- Memory may change to any canonical store. -/
theorem State.Inv.withMem {s : State} {m : Bytes} (h : s.Inv) (hm : Bytes.wf m = true) : ({ s with mem := m } : State).Inv where
  mem := hm
  leaves := h.leaves
  images := h.images
  baselines := h.baselines
  agenda := h.agenda

/-- The leaves may change to any that are aligned. -/
theorem State.Inv.withLeaves {s : State} {ls : List Leaf} (h : s.Inv) (hls : ∀ l ∈ ls, l.aligned) :
    ({ s with leaves := ls } : State).Inv where
  mem := h.mem
  leaves := hls
  images := h.images
  baselines := h.baselines
  agenda := h.agenda

/-- A touched baseline keeps its pages. -/
theorem State.Inv.touch {s : State} {asid va n : Nat} (h : s.Inv) : (s.touch asid va n).Inv where
  mem := h.mem
  leaves := h.leaves
  images := h.images
  baselines := by
    intro b hb
    obtain ⟨b', hb', rfl⟩ := List.mem_map.1 hb
    exact h.baselines b' hb'
  agenda := h.agenda

theorem State.Inv.count {s : State} {asid va n : Nat} (h : s.Inv) : (s.count asid va n).Inv :=
  h.withLeaves fun l hl => by
    obtain ⟨l', hl', rfl⟩ := List.mem_map.1 hl
    split
    · exact h.leaves l' hl'
    · exact h.leaves l' hl'

theorem State.Inv.writeAt {s : State} {asid va : Nat} {bs : List Byte} (h : s.Inv) :
    Ends (fun _ => True) State.Inv (s.writeAt asid va bs) := by
  refine Ends.map (r := s.runs asid va bs.length) .trivial fun rs _ => ?_
  exact (h.withMem (Bytes.wf_putRuns _ _ _ h.mem)).update.touch.count

end Sys2Proof.Machine
end

section
/-! PROOFS of the invariant: the operations of the state. -/

namespace Sys2Proof.Machine

theorem State.Inv.onHart {s : State} {f : Hart → Hart} (h : s.Inv) : (s.onHart f).Inv := h.update

theorem State.Inv.onCluster {s : State} {f : Cluster → Cluster} (h : s.Inv) : (s.onCluster f).Inv := h.update

theorem State.Inv.setX {s : State} {r : XReg} {w : Word} (h : s.Inv) : (s.setX r w).Inv := h.onHart

theorem State.Inv.setXL {s : State} {d : XReg} {w : Word} (h : s.Inv) : (s.setXL d w).Inv := .ite h.setX.setX h.setX

theorem State.Inv.hear {s : State} {fid : Nat} (h : s.Inv) : (s.hear fid).Inv := h.update

theorem State.Inv.post {s : State} {cmd : BitVec 32} {b : Posted} (h : s.Inv) : (s.post cmd b).Inv := h.update

theorem State.Inv.send {s : State} {m : Msg} (h : s.Inv) : (s.send m).Inv := h.update

theorem State.Inv.onLaunch {s : State} {id : Nat} {f : Launch → Launch} (h : s.Inv) : (s.onLaunch id f).Inv := h.update

theorem State.Inv.onWindow {s : State} {launch win : Nat} {f : Window → Window} (h : s.Inv) : (s.onWindow launch win f).Inv :=
  h.onLaunch.update

theorem State.Inv.takeName {s : State} (h : s.Inv) : s.takeName.2.Inv := by
  unfold State.takeName
  dsimp only
  exact h.update

theorem State.Inv.dropMember {s : State} {owner : HartName} (h : s.Inv) : (s.dropMember owner).Inv := h.update

theorem State.Inv.onTask {s : State} {serial : Nat} {f : Hart → Hart} (h : s.Inv) : (s.onTask serial f).Inv := h.update

theorem State.Inv.onBound {s : State} {n : HartName} {f : Hart → Hart} (h : s.Inv) : (s.onBound n f).Inv := h.update

theorem State.Inv.focus {s : State} {n : HartName} (h : s.Inv) : (s.focus n).Inv :=
  .ite (.ite h h.update) ((State.Inv.ite h h.update).update)

theorem State.Inv.atHarts {s : State} {ns : List HartName} {f : State → State} (h : s.Inv) (hf : ∀ t : State, t.Inv → (f t).Inv) :
    (s.atHarts ns f).Inv := (State.Inv.foldl (fun _ _ ht => hf _ ht.focus) ns h).focus

theorem State.Inv.deletePhasers {s : State} {launch : Nat} (h : s.Inv) : (s.deletePhasers launch).Inv := h.update

theorem State.Inv.launchEnds {s : State} {id : Nat} (h : s.Inv) : (s.launchEnds id).Inv := by
  unfold State.launchEnds
  split
  · exact .ite h.deletePhasers.update.post h
  · exact h

theorem State.Inv.abortClaims {s : State} {serial : Nat} (h : s.Inv) : (s.abortClaims serial).Inv := h.onTask.update

theorem State.Inv.endNotices {s : State} {serial : Nat} (h : s.Inv) : (s.endNotices serial).Inv := h.update

theorem State.Inv.stopOver {s : State} {tenant : Nat} (h : s.Inv) : (s.stopOver tenant).Inv := by
  unfold State.stopOver
  split
  · split
    · exact .ite h.update.post h
    · exact h
  · exact h

theorem State.Inv.dropLines {s : State} (h : s.Inv) : s.dropLines.Inv := h.update

theorem State.Inv.keepLines {s : State} (h : s.Inv) : s.keepLines.Inv := h.update

theorem State.Inv.performLate {s : State} {l : Late} (h : s.Inv) : Ends (fun _ => True) State.Inv (s.performLate l) := by
  unfold State.performLate
  split
  · exact .ite (.ok h.onHart) (.map h.writeAt (fun _ hx => hx.onHart))
  · exact .ok (.ite h.dropLines h)

theorem State.Inv.flushLate {s : State} (h : s.Inv) : s.flushLate.Inv := by
  unfold State.flushLate
  refine State.Inv.onHart (State.Inv.foldl (fun t l ht => ?_) s.hart.late h)
  split
  next u e => exact ht.performLate.of_ok e
  · exact ht

theorem State.Inv.leave {s : State} {terminated : Bool} (h : s.Inv) : (s.leave terminated).Inv :=
  h.flushLate.dropMember.endNotices.abortClaims.onCluster.update.onLaunch.onHart.launchEnds.stopOver

theorem State.Inv.terminate {s : State} {cause : Nat} {tval item backing : Word} (h : s.Inv) :
    (s.terminate cause tval item backing).Inv := h.onCluster.post.leave

theorem State.Inv.raiseWith {s : State} {cause : Nat} {tval : Word} {pfx : BitVec 26} {pfxv : Bool} (h : s.Inv) :
    (s.raiseWith cause tval pfx pfxv).Inv := .ite h.terminate h.onHart

theorem State.Inv.raise {s : State} {cause : Nat} {tval : Word} (h : s.Inv) : (s.raise cause tval).Inv := h.raiseWith

theorem State.Inv.illegal {s : State} {i : Instr} (h : s.Inv) : (s.illegal i).Inv := h.raise

theorem State.Inv.interrupt {s : State} {cause : Nat} (h : s.Inv) : (s.interrupt cause).Inv := h.onHart

theorem State.Inv.asyncFault {s : State} {cause : Nat} {tval : Word} (h : s.Inv) : (s.asyncFault cause tval).Inv :=
  .ite h.terminate h.onHart

theorem State.Inv.leaseFault {s : State} {va : Nat} (h : s.Inv) : (s.leaseFault va).Inv := h.terminate

theorem State.Inv.leaseFaultAt {s : State} {va i : Nat} (h : s.Inv) : (s.leaseFaultAt va i).Inv := h.terminate

theorem State.Inv.xlateFault {s : State} {va : Nat} (h : s.Inv) : (s.xlateFault va).Inv := h.terminate

theorem State.Inv.orXlate {α : Type} {Q : α → Prop} {s : State} {r : Except Nat α} (h : s.Inv) (hr : Ends (fun _ => True) Q r) :
    Ends State.Inv Q (s.orXlate r) := by
  cases r with
  | ok x => exact hr
  | error a => exact .error h.xlateFault

theorem State.Inv.releaseFrom {s : State} {kept ls : List Late} (h : s.Inv) : (s.releaseFrom kept ls).Inv := by
  induction ls generalizing s kept with
  | nil => exact h.onHart
  | cons l r ih => exact State.Inv.ite (ih (State.Inv.ite h.dropLines h)) (ih h)

theorem State.Inv.releaseFences {s : State} (h : s.Inv) : s.releaseFences.Inv := h.releaseFrom

theorem State.Inv.lateFault {s : State} {older : List Late} {l : Late} {va : Nat} (h : s.Inv) : (s.lateFault older l va).Inv :=
  h.onHart.xlateFault

theorem State.Inv.drainFrom {s : State} {ls : List Late} (h : s.Inv) : Ends State.Inv State.Inv (s.drainFrom ls) := by
  induction ls generalizing s with
  | nil => exact .ok h.onHart
  | cons l r ih =>
    unfold State.drainFrom
    refine .ite (.error h.onHart) ?_
    dsimp only
    split
    next u e => exact ih (h.onHart.performLate.of_ok e)
    · exact .error h.onHart.lateFault

theorem State.Inv.drainLate {s : State} (h : s.Inv) : Ends State.Inv State.Inv s.drainLate := h.drainFrom

theorem State.Inv.squash {s : State} (h : s.Inv) : s.squash.Inv := by
  unfold State.squash
  split
  · exact h
  · exact h.onHart

theorem State.Inv.terminateAtStop {s : State} {cause : Nat} {tval item backing : Word} (h : s.Inv) :
    (s.terminateAtStop cause tval item backing).Inv := h.squash.terminate

theorem State.Inv.continueAt {s : State} {t : Word} {st : List Loop} (h : s.Inv) : (s.continueAt t st).Inv :=
  .ite h.onHart h.leaseFault

theorem State.Inv.retire {s : State} (h : s.Inv) : s.retire.Inv := h.continueAt

theorem State.Inv.jump {s : State} {t : Word} (h : s.Inv) : (s.jump t).Inv := h.continueAt

theorem State.Inv.checkRead {s : State} {va n : Nat} (h : s.Inv) : Ends State.Inv (fun _ => True) (s.checkRead va n) := by
  unfold State.checkRead
  split
  · exact .error h.leaseFault
  · exact .ok trivial

theorem State.Inv.checkWrite {s : State} {va n : Nat} (h : s.Inv) : Ends State.Inv (fun _ => True) (s.checkWrite va n) := by
  unfold State.checkWrite
  split
  · exact .error h.leaseFault
  · exact .ok trivial

theorem State.Inv.readMem {s : State} {va n : Nat} (h : s.Inv) : Ends State.Inv (fun _ => True) (s.readMem va n) :=
  h.orXlate .trivial

theorem State.Inv.writeMem {s : State} {va : Nat} {bs : List Byte} (h : s.Inv) : Ends State.Inv State.Inv (s.writeMem va bs) :=
  h.orXlate (.map h.writeAt (fun _ hx => hx.onHart))

theorem State.Inv.load {s : State} {va n : Nat} (h : s.Inv) : Ends State.Inv (fun x => x.2.Inv) (s.load va n) := by
  unfold State.load
  split
  next e => exact .error (h.checkRead.of_error e)
  · split
    · exact .ok_snd h.count
    next e1 => exact .error (h.readMem.of_error e1)

theorem State.Inv.buffer {s : State} {va : Nat} {bs : List Byte} {c : Fin 16} (h : s.Inv) :
    Ends State.Inv State.Inv (s.buffer va bs c) := .ite (.ok h.onHart) (.error h.raise)

theorem State.Inv.putStore {s : State} {va : Nat} {bs : List Byte} {c : Fin 16} (h : s.Inv) :
    Ends State.Inv State.Inv (s.putStore va bs c) := .ite h.buffer h.writeMem

theorem State.Inv.store {s : State} {va : Nat} {bs : List Byte} {c : Fin 16} (h : s.Inv) :
    Ends State.Inv State.Inv (s.store va bs c) := by
  unfold State.store
  split
  next e => exact .error (h.checkWrite.of_error e)
  · exact h.putStore

theorem State.Inv.noStrip {s : State} (h : s.Inv) : Ends State.Inv (fun _ => True) s.noStrip := h.raise.stopIf

theorem State.Inv.computeOnly {s : State} {i : Instr} (h : s.Inv) : Ends State.Inv (fun _ => True) (s.computeOnly i) :=
  h.illegal.stopIf

theorem State.Inv.levelK {s : State} {i : Instr} (h : s.Inv) : Ends State.Inv (fun _ => True) (s.levelK i) := h.illegal.stopIf

end Sys2Proof.Machine
end

section
/-! PROOFS of the invariant: accesses, ends of tasks, queues, copies and the scalar instructions. -/

namespace Sys2Proof.Machine

theorem State.Inv.vretire {s : State} (h : s.Inv) : s.vretire.Inv := h.onHart.retire

theorem State.Inv.vend {s : State} {stop n : Nat} (h : s.Inv) : (s.vend stop n).Inv := .ite h.onHart h.vretire

theorem State.Inv.spCtl {s : State} {bad : Bool} {cw : Word} (h : s.Inv) : Ends State.Inv (fun _ => True) (s.spCtl bad cw) :=
  h.raise.stopIf

theorem State.Inv.spPut {s : State} {ws : List (Nat × Byte)} (h : s.Inv) : (s.spPut ws).Inv := h.onCluster

theorem State.Inv.tileFault {s : State} {t : TReg} (h : s.Inv) : (s.tileFault t).Inv := h.terminate

theorem State.Inv.tileXlate {s : State} {t : TReg} {va : Nat} (h : s.Inv) : (s.tileXlate t va).Inv := h.terminate

theorem State.Inv.endTask {s : State} {h : Hart} {cause : Nat} {tval item backing : Word} (hs : s.Inv) :
    (s.endTask h cause tval item backing).Inv := hs.atHarts (fun _ hx => .ite hx.terminateAtStop hx.update.terminate.update)

theorem State.Inv.endOwner {s : State} {serial a : Nat} (h : s.Inv) : (s.endOwner serial a).Inv := by
  unfold State.endOwner
  split
  · exact h.endTask
  · exact h

theorem State.Inv.spillTile {s : State} {h : Hart} {base : Word} {t : Nat} {b : Bytes} (hs : s.Inv) :
    (s.spillTile h base t b).Inv := by
  unfold State.spillTile
  split
  next e => exact hs.writeAt.of_ok e
  · exact hs.endTask

theorem State.Inv.freeSlot {s : State} {h : Hart} {base : Word} {t : TReg} (hs : s.Inv) : (s.freeSlot h base t).Inv := by
  unfold State.freeSlot
  dsimp only
  split
  · exact hs.spillTile.onTask
  · exact (State.Inv.ite hs hs.spillTile).onTask
  · exact hs

theorem State.Inv.makeSlotIn {n : Nat} {s : State} (h : s.Inv) : Ends State.Inv State.Inv (s.makeSlotIn n) := by
  induction n generalizing s with
  | zero =>
    unfold State.makeSlotIn
    split
    · exact .ok h
    · exact .error h
  | succ n ih =>
    unfold State.makeSlotIn
    refine .ite (.ok h) ?_
    cases s.victim with
    | none => exact .error h
    | some v => exact .ite (ih h.freeSlot) (.error h.freeSlot)

theorem State.Inv.makeSlot {s : State} {has : Bool} (h : s.Inv) : Ends State.Inv State.Inv (s.makeSlot has) :=
  .ite (.ok h) h.makeSlotIn

theorem State.Inv.readTile {s : State} {t : TReg} (h : s.Inv) : Ends State.Inv (fun x => x.2.Inv) (s.readTile t) := by
  unfold State.readTile
  split
  · exact .ok_snd h
  · exact .ok_snd h
  · exact .ok_snd h.onHart
  · split
    · dsimp only
      split
      · refine .map h.makeSlot fun t' ht' => ?_
        dsimp only
        exact ht'.onHart.count
      · exact .error h.tileXlate
    · exact .error h.tileFault

theorem State.Inv.tileWriteOk {s : State} {t : TReg} (h : s.Inv) : Ends State.Inv (fun _ => True) (s.tileWriteOk t) :=
  h.tileFault.stopIf

theorem State.Inv.writeTile {s : State} {t : TReg} {b : Bytes} (h : s.Inv) : Ends State.Inv State.Inv (s.writeTile t b) :=
  .map h.makeSlot (fun _ hx => hx.onHart)

theorem State.Inv.killTile {s : State} {t : TReg} (h : s.Inv) : (s.killTile t).Inv := h.onHart

theorem State.Inv.openOp {s : State} {launch win : Nat} (h : s.Inv) : (s.openOp launch win).2.Inv := by
  unfold State.openOp
  dsimp only
  exact h.takeName.onWindow

theorem State.Inv.closeOp {s : State} {launch win ticket code : Nat} (h : s.Inv) : (s.closeOp launch win ticket code).Inv :=
  h.onWindow

theorem State.Inv.failOp {s : State} {launch win code : Nat} (h : s.Inv) : (s.failOp launch win code).Inv := h.openOp.closeOp

theorem State.Inv.sendPut {s : State} {p : PutRec} (h : s.Inv) : (s.sendPut p).Inv := .ite h.update.closeOp h.update.send

theorem State.Inv.loaded {s : State} {w : LdW} {d : XReg} {bs : List Byte} (h : s.Inv) : (s.loaded w d bs).Inv := h.setXL.retire

theorem State.Inv.execLd {w : LdW} {d a : XReg} {imm : BitVec 16} {s : State} (h : s.Inv) : Keeps (execLd w d a imm s) := by
  unfold Machine.execLd
  refine .finish ?_
  dsimp only
  split
  · split
    · exact .bind h.checkRead (fun _ _ => .bind h.load (fun _ hx' => .pure hx'.onHart))
    · exact .bind h.load (fun _ hx => .pure hx.loaded)
  · exact .bind h.load (fun _ hx => .pure hx.onHart.loaded)

theorem State.Inv.storeLate {s : State} {va : Nat} {bs : List Byte} {c : Fin 16} (h : s.Inv) : (s.storeLate va bs c).Inv :=
  h.onHart

theorem State.Inv.execSt {w : Fin 4} {d a : XReg} {imm : BitVec 16} {s : State} (h : s.Inv) : Keeps (execSt w d a imm s) := by
  unfold Machine.execSt
  refine .finish ?_
  dsimp only
  split
  · refine .bind h.checkWrite fun x _ => ?_
    split
    · exact .bind (.bind h.drainLate (fun _ hx' => hx'.buffer)) (fun _ _ => .pure h.storeLate.retire)
    · exact .bind (.ok h) (fun _ _ => .pure h.storeLate.retire)
  · exact .bind h.store (fun _ hx => .pure hx.retire)

theorem State.Inv.satomChecks {s : State} {va n : Nat} (h : s.Inv) : Ends State.Inv (fun _ => True) (s.satomChecks va n) :=
  .bind h.noStrip (fun _ _ => h.raise.stopIf)

theorem State.Inv.execLda {d a : XReg} {_c : Slot} {w : Fin 4} {s : State} (h : s.Inv) : Keeps (execLda d a _c w s) :=
  .finish (.bind h.satomChecks (fun _ _ => .bind h.load (fun _ hx' => .pure hx'.setXL.retire)))

theorem State.Inv.execStl {a b : XReg} {c : Slot} {w : Fin 4} {s : State} (h : s.Inv) : Keeps (execStl a b c w s) :=
  .finish (.bind h.satomChecks (fun _ _ => .bind h.store (fun _ hx' => .pure hx'.retire)))

theorem State.Inv.dropLineAt {s : State} {asid va n : Nat} (h : s.Inv) : (s.dropLineAt asid va n).Inv := h.update

theorem State.Inv.atHome {s : State} {va n : Nat} {f : Nat → Option Nat} (h : s.Inv) :
    Ends State.Inv (fun x => x.2.Inv) (s.atHome va n f) := by
  unfold State.atHome
  split
  · exact .error h.xlateFault
  · dsimp only
    split
    · exact .ok_snd h.dropLineAt.count
    · exact .map h.dropLineAt.writeMem (fun _ hx => hx)

theorem State.Inv.satom {s : State} {d a : XReg} {n : Nat} {f : Nat → Option Nat} (h : s.Inv) : Keeps (s.satom d a n f) := by
  unfold State.satom
  refine .finish ?_
  refine .bind h.satomChecks fun x _ => ?_
  exact .bind h.checkWrite (fun _ _ => .bind h.atHome (fun _ hx2 => .pure hx2.setXL.retire))

theorem State.Inv.execCas {d a b : XReg} {_c : Slot} {w64 : Bool} {s : State} (h : s.Inv) : Keeps (execCas d a b _c w64 s) :=
  h.satom

theorem State.Inv.amo {s : State} {op : AmoOp} {d a b : XReg} {w64 : Bool} (h : s.Inv) : Keeps (s.amo op d a b w64) := h.satom

theorem State.Inv.execAmoAdd {d a b : XReg} {_c : Slot} {w64 : Bool} {s : State} (h : s.Inv) :
    Keeps (execAmoAdd d a b _c w64 s) := h.amo

theorem State.Inv.execAmoAnd {d a b : XReg} {_c : Slot} {w64 : Bool} {s : State} (h : s.Inv) :
    Keeps (execAmoAnd d a b _c w64 s) := h.amo

theorem State.Inv.execAmoOr {d a b : XReg} {_c : Slot} {w64 : Bool} {s : State} (h : s.Inv) :
    Keeps (execAmoOr d a b _c w64 s) := h.amo

theorem State.Inv.execAmoXor {d a b : XReg} {_c : Slot} {w64 : Bool} {s : State} (h : s.Inv) :
    Keeps (execAmoXor d a b _c w64 s) := h.amo

theorem State.Inv.execAmoMin {d a b : XReg} {_c : Slot} {w64 : Bool} {s : State} (h : s.Inv) :
    Keeps (execAmoMin d a b _c w64 s) := h.amo

theorem State.Inv.execAmoMax {d a b : XReg} {_c : Slot} {w64 : Bool} {s : State} (h : s.Inv) :
    Keeps (execAmoMax d a b _c w64 s) := h.amo

theorem State.Inv.execAmoMinN {d a b : XReg} {_c : Slot} {w64 : Bool} {s : State} (h : s.Inv) :
    Keeps (execAmoMinN d a b _c w64 s) := h.amo

theorem State.Inv.execAmoMaxN {d a b : XReg} {_c : Slot} {w64 : Bool} {s : State} (h : s.Inv) :
    Keeps (execAmoMaxN d a b _c w64 s) := h.amo

theorem State.Inv.execAmoSwap {d a b : XReg} {_c : Slot} {w64 : Bool} {s : State} (h : s.Inv) :
    Keeps (execAmoSwap d a b _c w64 s) := h.amo

theorem State.Inv.csrOp {s : State} {i : Instr} {d : XReg} {r : BitVec 12} {write : Option (Word × Word)} (h : s.Inv) :
    Keeps (s.csrOp i d r write) := by
  unfold State.csrOp
  refine .finish ?_
  refine .bind h.illegal.stopIf fun x _ => ?_
  refine .pure ?_
  refine State.Inv.retire ?_
  refine State.Inv.setX ?_
  split
  · exact h.onHart
  · exact h

theorem State.Inv.execCsrr {d : XReg} {r : BitVec 12} {s : State} (h : s.Inv) : Keeps (execCsrr d r s) := h.csrOp

theorem State.Inv.execCsrw {d a : XReg} {r : BitVec 12} {s : State} (h : s.Inv) : Keeps (execCsrw d a r s) := h.csrOp

theorem State.Inv.execCsrs {d a : XReg} {r : BitVec 12} {s : State} (h : s.Inv) : Keeps (execCsrs d a r s) := h.csrOp

theorem State.Inv.execCsrc {d a : XReg} {r : BitVec 12} {s : State} (h : s.Inv) : Keeps (execCsrc d a r s) := h.csrOp

theorem State.Inv.setVl {s : State} {i : Instr} {d : XReg} {w : Fin 4} {req : Nat} (h : s.Inv) : Keeps (s.setVl i d w req) :=
  .finish (.bind h.computeOnly (fun _ _ => .pure h.onHart.setX.retire))

theorem State.Inv.execVsetvl {d a : XReg} {w : Fin 4} {s : State} (h : s.Inv) : Keeps (execVsetvl d a w s) := h.setVl

theorem State.Inv.execVsetvli {d : XReg} {w : Fin 4} {len : BitVec 13} {s : State} (h : s.Inv) :
    Keeps (execVsetvli d w len s) := h.setVl

theorem State.Inv.streamed {s : State} (h : s.Inv) : s.streamed.Inv := by
  unfold State.streamed
  split
  · exact h.withMem (Bytes.wf_place _ _ _ _ h.mem)
  · exact h

theorem State.Inv.checkpoint {s : State} {k : Hart} (h : s.Inv) : (s.checkpoint k).Inv :=
  State.Inv.update (h.withMem (Bytes.wf_place _ _ _ _ h.mem))

theorem State.Inv.abandon {s : State} (h : s.Inv) : s.abandon.Inv := h.update

theorem State.Inv.stopHart {s : State} (h : s.Inv) : s.stopHart.Inv := h.abandon.onHart

theorem State.Inv.deliver {s : State} {t : BitVec 16} (h : s.Inv) : (s.deliver t).Inv := h.abandon.onHart.asyncFault

theorem State.Inv.fetch {s : State} (h : s.Inv) : Ends State.Inv (fun x => x.2.Inv) s.fetch := by
  unfold State.fetch
  dsimp only
  split
  · exact .error h.leaseFault
  · refine .map (Q := fun _ => True) ?_ fun x _ => ?_
    · exact h.orXlate .trivial
    · dsimp only
      exact h.count

theorem State.Inv.turnAt {s t : State} {n : HartName} (h : s.Inv) (hn : s.turnAt n = some t) : t.Inv := by
  unfold State.turnAt at hn
  split at hn
  · cases hn
    exact h.focus
  · cases hn

theorem State.Inv.tick {s : State} {n k : Nat} (h : s.Inv) : (s.tick n k).Inv := .ite h.onCluster h.update

theorem State.Inv.execPfx {fields : BitVec 26} {s : State} (h : s.Inv) : Keeps (execPfx fields s) := by
  unfold Machine.execPfx
  dsimp only
  split
  · exact h.leaseFault.next
  · split
    · exact h.xlateFault.next
    · split
      · exact h.onHart.next
      · exact h.raiseWith.next

theorem State.Inv.resumeAt {s : State} {t : Word} {st : List Loop} (h : s.Inv) : (s.resumeAt t st).Inv := by
  unfold State.resumeAt
  dsimp only
  split
  · split
    · exact h.onHart.continueAt.xlateFault
    · exact .ite h.onHart.continueAt.onHart h.onHart.continueAt.raiseWith
  · exact h.onHart.continueAt

theorem State.Inv.takeTval {s : State} (h : s.Inv) : s.takeTval.2.Inv := by
  unfold State.takeTval
  dsimp only
  exact h.update

theorem State.Inv.countSide {s : State} {asid : Nat} {d : Side} {n : Nat} (h : s.Inv) : (s.countSide asid d n).Inv := by
  unfold State.countSide
  split
  · refine h.withLeaves fun l hl => ?_
    obtain ⟨l', hl', rfl⟩ := List.mem_map.1 hl
    split <;> exact h.leaves l' hl'
  · exact h

theorem State.Inv.countSides {s : State} {asid : Nat} {ds : List (Side × Nat)} (h : s.Inv) : (s.countSides asid ds).1.Inv := by
  refine List.foldlRecOn (motive := fun r : State × Bool => r.1.Inv) ds _ h fun r hr d _ => ?_
  split
  · exact hr.countSide
  · exact hr

theorem State.Inv.writeSide {s : State} {asid : Nat} {d : Side} {bs : List Byte} (h : s.Inv) :
    Ends (fun _ => True) State.Inv (s.writeSide asid d bs) := by
  unfold State.writeSide
  split
  · exact h.writeAt
  · exact .ok h.spPut
  · exact .ok h.update

theorem State.Inv.writeGranule {s : State} {asid : Nat} {g : Granule} (h : s.Inv) :
    Ends (fun _ => True) State.Inv (s.writeGranule asid g) := .foldlM (fun _ _ hx => hx.writeSide) h

theorem State.Inv.writeGranules {s : State} {asid : Nat} {gs : List Granule} (h : s.Inv) :
    Ends (fun _ => True) (fun x => x.1.Inv) (s.writeGranules asid gs) := by
  induction gs generalizing s with
  | nil => exact .ok_fst h
  | cons g r ih =>
    refine .ite (.ok_fst h) ?_
    split
    next e => exact ih (h.writeGranule.of_ok e)
    · exact .error trivial

theorem State.Inv.advance {s : State} {asid : Nat} {e : CopyEntry} {gs : List Granule} {n : Option Nat} (h : s.Inv) :
    Ends (fun _ => True) (fun x => x.1.Inv) (s.advance asid e gs n) := .map h.writeGranules (fun _ hx => hx)

theorem State.Inv.perform {s : State} {asid : Nat} {e : CopyEntry} {n : Option Nat} (h : s.Inv) :
    Ends (fun _ => True) (fun x => x.1.Inv) (s.perform asid e n) := by
  unfold State.perform
  split
  · dsimp only
    split
    · exact .ok_fst h.countSides
    · split
      · exact h.countSides.advance
      · exact .error trivial
  · exact h.advance
  · dsimp only
    split
    · exact .ok_fst h.countSides
    · refine .map (Q := fun _ => True) ?_ fun x' _ => ?_
      · exact .trivial
      · dsimp only
        exact h.countSides.onCluster

theorem State.Inv.performOne {s : State} {pick : Fin 8 → Bool} {n : Option Nat} (h : s.Inv) :
    Ends State.Inv State.Inv (s.performOne pick n) := by
  unfold State.performOne
  split
  · split
    next e1 => exact .ok ((h.perform.of_ok e1).onHart)
    · exact .error h.terminateAtStop
  · exact .ok h

theorem State.Inv.drain {pick : Fin 8 → Bool} {n : Nat} {s : State} (h : s.Inv) :
    Ends State.Inv State.Inv (s.drain pick n) := by
  induction n generalizing s with
  | zero => exact .ok h
  | succ n ih =>
    unfold State.drain
    split
    next t e =>
      have ht := h.performOne.of_ok e
      exact .ite (ih ht) (.ite (.error ht) (.ok ht))
    next t e => exact .error (h.performOne.of_error e)

theorem State.Inv.drainAll {s : State} {pick : Fin 8 → Bool} (h : s.Inv) : Ends State.Inv State.Inv (s.drainAll pick) := h.drain

theorem Ends.leftBy {r : Part State} (h : Ends State.Inv State.Inv r) : (Machine.leftBy r).Inv := by
  cases r <;> exact h

theorem State.Inv.drainOthers {s : State} (h : s.Inv) : s.drainOthers.Inv := h.atHarts (fun _ hx => hx.drainAll.leftBy)

theorem State.Inv.drainCluster {s : State} (h : s.Inv) : Ends State.Inv State.Inv s.drainCluster :=
  .map h.drainAll (fun _ hx => hx.drainOthers)

theorem State.Inv.requestVersion {s : State} (h : s.Inv) : s.requestVersion.Inv := h.setX.retire

theorem State.Inv.requestYield {s : State} (h : s.Inv) : s.requestYield.Inv := .ite h.setX.retire.stopHart h.setX.retire

theorem State.Inv.requestUnknown {s : State} (h : s.Inv) : s.requestUnknown.Inv := h.setX.retire

theorem State.Inv.request {s : State} (h : s.Inv) : s.request.Inv :=
  .ite h.requestVersion (.ite h.requestYield h.requestUnknown)

theorem State.Inv.taskEnd {s : State} (h : s.Inv) : s.taskEnd.Inv := by
  unfold State.taskEnd
  split
  next e => exact .ite (h.drainAll.of_ok e) ((h.drainAll.of_ok e).leave)
  next e => exact h.drainAll.of_error e

theorem State.Inv.execEcall {s : State} (h : s.Inv) : Keeps (execEcall s) := by
  unfold Machine.execEcall
  split
  · exact h.request.next
  · split
    · exact h.taskEnd.next
    · exact h.takeTval.raise.next

theorem State.Inv.execKVersion {s : State} (h : s.Inv) : Keeps (execKVersion s) := h.requestVersion.next

theorem State.Inv.execKYield {s : State} (h : s.Inv) : Keeps (execKYield s) := h.requestYield.next

theorem State.Inv.execKRequestUnknown {s : State} (h : s.Inv) : Keeps (execKRequestUnknown s) := h.requestUnknown.next

theorem State.Inv.execEret {s : State} (h : s.Inv) : Keeps (execEret s) :=
  .finish (.bind h.levelK (fun _ _ => .pure h.onHart.resumeAt))

theorem State.Inv.execBrk {s : State} (h : s.Inv) : Keeps (execBrk s) := by
  unfold Machine.execBrk
  split
  · exact h.raise.next
  · exact h.takeTval.terminate.next

theorem State.Inv.evict {s : State} {c : TileCtx} (h : s.Inv) : Ends State.Inv State.Inv (s.evict c) := by
  refine .foldlM (fun t x ht => ?_) h
  split
  · split
    next e => exact .ok (ht.writeAt.of_ok e)
    · exact .error ht.terminate
  · exact .ok ht

theorem State.Inv.install {s : State} {a : Word} (h : s.Inv) : Ends State.Inv State.Inv (s.install a) := by
  unfold State.install
  dsimp only
  split
  · exact .ok h.onHart
  · split
    · exact .ok h.onHart
    · split
      · exact .ok h
      · exact .bind h.evict (fun _ hx => .pure hx.onHart)

theorem State.Inv.execMapsw {a : XReg} {s : State} (h : s.Inv) : Keeps (execMapsw a s) := by
  unfold Machine.execMapsw
  refine .finish ?_
  refine .bind h.levelK fun x _ => ?_
  refine .bind h.computeOnly fun x' _ => ?_
  dsimp only
  split
  · exact .pure h.retire
  · refine .bind h.raise.stopIf fun x2 _ => ?_
    exact .bind h.raise.stopIf (fun _ _ => .bind h.install (fun _ hx4 => .pure hx4.retire))

theorem State.Inv.execCkpt {s : State} (h : s.Inv) : Keeps (execCkpt s) := by
  unfold Machine.execCkpt
  refine .finish ?_
  exact .bind h.levelK (fun _ _ => .bind h.computeOnly (fun _ _ => .pure (.ite h.retire.checkpoint h.retire)))

theorem State.Inv.execHint {_bits : BitVec 26} {s : State} (h : s.Inv) : Keeps (execHint _bits s) := h.retire.next

theorem State.Inv.execIllegal {w : IWord} {s : State} (h : s.Inv) : Keeps (execIllegal w s) := h.raise.next

end Sys2Proof.Machine
end

section
/-! PROOFS of the invariant: vector memory, blocks, tiles and the access hart. -/

namespace Sys2Proof.Machine

theorem State.Inv.elementsOf {s : State} {i : Instr} {d : VReg} {p : PReg} {w wm n : Nat} {f : Nat → Nat × Flags} (h : s.Inv) :
    Keeps (s.elementsOf i d p w wm n f) := .finish (.bind h.computeOnly (fun _ _ => .pure h.onHart.vend))

theorem State.Inv.elementwise {s : State} {i : Instr} {d : VReg} {p : PReg} {w n : Nat} {f : Nat → Nat × Flags} (h : s.Inv) :
    Keeps (s.elementwise i d p w n f) := h.elementsOf

theorem State.Inv.compareInto {s : State} {i : Instr} {pd p : PReg} {w : Nat} {f : Nat → Bool × Flags} (h : s.Inv) :
    Keeps (s.compareInto i pd p w f) := .finish (.bind h.computeOnly (fun _ _ => .pure h.onHart.vend))

theorem State.Inv.wholeUnits {s : State} {i : Instr} {d : VReg} {bytes : Nat} {rs : List (Nat × List Byte)} (h : s.Inv) :
    Keeps (s.wholeUnits i d bytes rs) := .finish (.bind h.computeOnly (fun _ _ => .pure h.onHart.vretire))

theorem State.Inv.reduceInto {s : State} {i : Instr} {d : VReg} {w : Nat} {r : Option (Nat × Flags)} (h : s.Inv) :
    Keeps (s.reduceInto i d w r) := by
  unfold State.reduceInto
  refine .finish ?_
  refine .bind h.computeOnly fun x _ => ?_
  split
  · exact .pure h.onHart.vretire
  · exact .pure h.onHart.vretire

theorem State.Inv.vint {s : State} {i : Instr} {op : VIntOp} {d a b : VReg} {p : PReg} {e : ET} {n : Bool} (h : s.Inv) :
    Keeps (s.vint i op d a b p e n) := h.elementwise

theorem State.Inv.execVadd {d a b : VReg} {p : PReg} {e : ET} {n : Bool} {s : State} (h : s.Inv) :
    Keeps (execVadd d a b p e n s) := h.vint

theorem State.Inv.execVsub {d a b : VReg} {p : PReg} {e : ET} {n : Bool} {s : State} (h : s.Inv) :
    Keeps (execVsub d a b p e n s) := h.vint

theorem State.Inv.execVmul {d a b : VReg} {p : PReg} {e : ET} {n : Bool} {s : State} (h : s.Inv) :
    Keeps (execVmul d a b p e n s) := h.vint

theorem State.Inv.execVmulh {d a b : VReg} {p : PReg} {e : ET} {n : Bool} {s : State} (h : s.Inv) :
    Keeps (execVmulh d a b p e n s) := h.vint

theorem State.Inv.execVand {d a b : VReg} {p : PReg} {e : ET} {n : Bool} {s : State} (h : s.Inv) :
    Keeps (execVand d a b p e n s) := h.vint

theorem State.Inv.execVor {d a b : VReg} {p : PReg} {e : ET} {n : Bool} {s : State} (h : s.Inv) :
    Keeps (execVor d a b p e n s) := h.vint

theorem State.Inv.execVxor {d a b : VReg} {p : PReg} {e : ET} {n : Bool} {s : State} (h : s.Inv) :
    Keeps (execVxor d a b p e n s) := h.vint

theorem State.Inv.execVsll {d a b : VReg} {p : PReg} {e : ET} {n : Bool} {s : State} (h : s.Inv) :
    Keeps (execVsll d a b p e n s) := h.vint

theorem State.Inv.execVsrl {d a b : VReg} {p : PReg} {e : ET} {n : Bool} {s : State} (h : s.Inv) :
    Keeps (execVsrl d a b p e n s) := h.vint

theorem State.Inv.execVsra {d a b : VReg} {p : PReg} {e : ET} {n : Bool} {s : State} (h : s.Inv) :
    Keeps (execVsra d a b p e n s) := h.vint

theorem State.Inv.execVmin {d a b : VReg} {p : PReg} {e : ET} {n : Bool} {s : State} (h : s.Inv) :
    Keeps (execVmin d a b p e n s) := h.vint

theorem State.Inv.execVmax {d a b : VReg} {p : PReg} {e : ET} {n : Bool} {s : State} (h : s.Inv) :
    Keeps (execVmax d a b p e n s) := h.vint

theorem State.Inv.execVcmp {c : ICond} {pd : PReg} {a b : VReg} {p : PReg} {e : ET} {n : Bool} {s : State} (h : s.Inv) :
    Keeps (execVcmp c pd a b p e n s) := h.compareInto

theorem State.Inv.execVsel {d a b : VReg} {p : PReg} {e : ET} {n : Bool} {s : State} (h : s.Inv) :
    Keeps (execVsel d a b p e n s) := .finish (.bind h.computeOnly (fun _ _ => .pure h.onHart.vend))

theorem State.Inv.execVred {d a : VReg} {r : IRed} {p : PReg} {e : ET} {n : Bool} {s : State} (h : s.Inv) :
    Keeps (execVred d a r p e n s) := h.reduceInto

theorem State.Inv.vfp {s : State} {i : Instr} {d : VReg} {p : PReg} {e : ET} {f : FloatFmt → Nat → Nat → Nat → Nat × Flags}
    (h : s.Inv) :
    Keeps (s.vfp i d p e f) := h.elementwise

theorem State.Inv.execVfadd {d a b : VReg} {p : PReg} {e : ET} {s : State} (h : s.Inv) : Keeps (execVfadd d a b p e s) := h.vfp

theorem State.Inv.execVfsub {d a b : VReg} {p : PReg} {e : ET} {s : State} (h : s.Inv) : Keeps (execVfsub d a b p e s) := h.vfp

theorem State.Inv.execVfmul {d a b : VReg} {p : PReg} {e : ET} {s : State} (h : s.Inv) : Keeps (execVfmul d a b p e s) := h.vfp

theorem State.Inv.execVfma {d a b : VReg} {p : PReg} {e : ET} {s : State} (h : s.Inv) : Keeps (execVfma d a b p e s) := h.vfp

theorem State.Inv.execVfnma {d a b : VReg} {p : PReg} {e : ET} {s : State} (h : s.Inv) : Keeps (execVfnma d a b p e s) := h.vfp

theorem State.Inv.execVfdiv {d a b : VReg} {p : PReg} {e : ET} {s : State} (h : s.Inv) : Keeps (execVfdiv d a b p e s) := h.vfp

theorem State.Inv.execVfsqrt {d a : VReg} {p : PReg} {e : ET} {s : State} (h : s.Inv) : Keeps (execVfsqrt d a p e s) := h.vfp

theorem State.Inv.execVfmin {d a b : VReg} {p : PReg} {e : ET} {s : State} (h : s.Inv) : Keeps (execVfmin d a b p e s) := h.vfp

theorem State.Inv.execVfmax {d a b : VReg} {p : PReg} {e : ET} {s : State} (h : s.Inv) : Keeps (execVfmax d a b p e s) := h.vfp

theorem State.Inv.execVfcmp {c : FCond} {pd : PReg} {a b : VReg} {p : PReg} {e : ET} {s : State} (h : s.Inv) :
    Keeps (execVfcmp c pd a b p e s) := h.compareInto

theorem State.Inv.execVfclass {d a : VReg} {p : PReg} {e : ET} {s : State} (h : s.Inv) : Keeps (execVfclass d a p e s) := h.vfp

theorem State.Inv.execVfred {d a : VReg} {r : FRed} {p : PReg} {e : ET} {s : State} (h : s.Inv) :
    Keeps (execVfred d a r p e s) := h.reduceInto

theorem State.Inv.execVtbl {d a : VReg} {t : Fin 4} {p : PReg} {e : ET} {s : State} (h : s.Inv) :
    Keeps (execVtbl d a t p e s) := .finish (.bind h.computeOnly (fun _ _ => .pure h.onHart.vretire))

theorem State.Inv.vconvert {s : State} {i : Instr} {d a : VReg} {p : PReg} {src : ET} {sat : Bool} {dst : ET} (h : s.Inv) :
    Keeps (s.vconvert i d a p src sat dst) := h.elementsOf

theorem State.Inv.execVcvt {d a : VReg} {p : PReg} {src : ET} {sat : Bool} {dst : ET} {s : State} (h : s.Inv) :
    Keeps (execVcvt d a p src sat dst s) := h.vconvert

theorem State.Inv.execVfcvt {d a : VReg} {p : PReg} {src dst : ET} {s : State} (h : s.Inv) :
    Keeps (execVfcvt d a p src dst s) := h.vconvert

theorem State.Inv.lnsChecks {s : State} {i : Instr} (h : s.Inv) : Ends State.Inv (fun _ => True) (s.lnsChecks i) :=
  .bind h.computeOnly (fun _ _ => h.raise.stopIf)

theorem State.Inv.lnsBlocks {s : State} {i : Instr} {d : VReg} {p : PReg} {f : Nat → Lns × Flags} (h : s.Inv) :
    Keeps (s.lnsBlocks i d p f) := .finish (.bind h.lnsChecks (fun _ _ => .pure h.onHart.vend))

theorem State.Inv.execVlnspack {d a : VReg} {p : PReg} {s : State} (h : s.Inv) : Keeps (execVlnspack d a p s) := h.lnsBlocks

theorem State.Inv.execVlnsunpack {d a : VReg} {p : PReg} {s : State} (h : s.Inv) : Keeps (execVlnsunpack d a p s) :=
  .finish (.bind h.lnsChecks (fun _ _ => .pure h.onHart.vend))

theorem State.Inv.execVlnsmul {d a b : VReg} {p : PReg} {s : State} (h : s.Inv) : Keeps (execVlnsmul d a b p s) := h.lnsBlocks

theorem State.Inv.execVlnsadd {d a b : VReg} {p : PReg} {s : State} (h : s.Inv) : Keeps (execVlnsadd d a b p s) := h.lnsBlocks

theorem State.Inv.execVscale {d a b : VReg} {p : PReg} {s : State} (h : s.Inv) : Keeps (execVscale d a b p s) := h.lnsBlocks

theorem State.Inv.execVperm {d a b : VReg} {p : PReg} {e : ET} {s : State} (h : s.Inv) : Keeps (execVperm d a b p e s) :=
  h.wholeUnits

theorem State.Inv.execVslideup {d a : VReg} {b : XReg} {p : PReg} {e : ET} {s : State} (h : s.Inv) :
    Keeps (execVslideup d a b p e s) := h.wholeUnits

theorem State.Inv.execVslidedn {d a : VReg} {b : XReg} {p : PReg} {e : ET} {s : State} (h : s.Inv) :
    Keeps (execVslidedn d a b p e s) := h.wholeUnits

theorem State.Inv.execVcompress {d a : VReg} {p : PReg} {e : ET} {s : State} (h : s.Inv) : Keeps (execVcompress d a p e s) :=
  h.wholeUnits

theorem State.Inv.execVexpand {d a : VReg} {p : PReg} {e : ET} {s : State} (h : s.Inv) : Keeps (execVexpand d a p e s) :=
  h.wholeUnits

theorem State.Inv.execVbcast {d : VReg} {a : XReg} {p : PReg} {e : ET} {s : State} (h : s.Inv) : Keeps (execVbcast d a p e s) :=
  h.elementwise

theorem State.Inv.execVmv {d a : VReg} {p : PReg} {e : ET} {s : State} (h : s.Inv) : Keeps (execVmv d a p e s) := h.elementwise

theorem State.Inv.execVidx {d : VReg} {p : PReg} {e : ET} {s : State} (h : s.Inv) : Keeps (execVidx d p e s) := h.elementwise

theorem State.Inv.predInto {s : State} {i : Instr} {d : PReg} {f : Nat → Bool} (h : s.Inv) : Keeps (s.predInto i d f) :=
  .finish (.bind h.computeOnly (fun _ _ => .pure h.onHart.vretire))

theorem State.Inv.execPand {d a b : PReg} {s : State} (h : s.Inv) : Keeps (execPand d a b s) := h.predInto

theorem State.Inv.execPor {d a b : PReg} {s : State} (h : s.Inv) : Keeps (execPor d a b s) := h.predInto

theorem State.Inv.execPxor {d a b : PReg} {s : State} (h : s.Inv) : Keeps (execPxor d a b s) := h.predInto

theorem State.Inv.execPnot {d a : PReg} {s : State} (h : s.Inv) : Keeps (execPnot d a s) := h.predInto

theorem State.Inv.execPcnt {d : XReg} {a : PReg} {s : State} (h : s.Inv) : Keeps (execPcnt d a s) :=
  .finish (.bind h.computeOnly (fun _ _ => .pure h.setX.vretire))

theorem State.Inv.execPfirst {d : XReg} {a : PReg} {s : State} (h : s.Inv) : Keeps (execPfirst d a s) :=
  .finish (.bind h.computeOnly (fun _ _ => .pure h.setX.vretire))

theorem State.Inv.checkUnits {s : State} {ok : Nat → Bool} {us : List (Nat × Nat)} {n : Nat} (h : s.Inv) :
    Ends State.Inv (fun _ => True) (s.checkUnits ok us n) := by
  unfold State.checkUnits
  split
  · exact .error h.leaseFaultAt
  · exact .ok trivial

theorem State.Inv.readUnits {s : State} {us : List (Nat × Nat)} {n : Nat} (h : s.Inv) :
    Ends State.Inv (fun x => x.2.Inv) (s.readUnits us n) := by
  induction us generalizing s with
  | nil => exact .ok_snd h
  | cons u r ih => exact .bind h.stopIf fun _ _ => .bind h.readMem fun _ _ => .bind (ih h.count) fun _ hx => .pure_snd hx

theorem State.Inv.storeUnits {s : State} {us : List (Nat × Nat × List Byte)} {c : Fin 16} {done : List Nat} (h : s.Inv) :
    Ends State.Inv State.Inv (s.storeUnits us c done) := by
  induction us generalizing s done with
  | nil => exact .ok h
  | cons u r ih => exact .bind h.onHart.stopIf fun _ _ => .bind h.putStore fun _ ht => ih ht

theorem State.Inv.unitsOver {s : State} (h : s.Inv) : s.unitsOver.Inv := h.onHart

theorem State.Inv.vload {s : State} {i : Instr} {d : VReg} {p : PReg} {w : EW} {stop : Nat} {addr : Nat → Word} (h : s.Inv) :
    Keeps (s.vload i d p w stop addr) := by
  unfold State.vload
  refine .finish ?_
  refine .bind h.computeOnly fun x _ => ?_
  exact .bind h.checkUnits (fun _ _ => .bind h.readUnits (fun _ hx2 => .pure hx2.onHart.vend))

theorem State.Inv.vstore {s : State} {i : Instr} {d : VReg} {p : PReg} {w : EW} {c : Slot} {addr : Nat → Word} (h : s.Inv) :
    Keeps (s.vstore i d p w c addr) := by
  unfold State.vstore
  refine .finish ?_
  refine .bind h.computeOnly fun x _ => ?_
  exact .bind h.checkUnits (fun _ _ => .bind h.storeUnits (fun _ hx2 => .pure hx2.unitsOver.vend))

theorem State.Inv.execVld {d : VReg} {a : XReg} {p : PReg} {w : EW} {c : Slot} {s : State} (h : s.Inv) :
    Keeps (execVld d a p w c s) := h.vload

theorem State.Inv.execVlds {d : VReg} {a b : XReg} {p : PReg} {w : EW} {c : Slot} {s : State} (h : s.Inv) :
    Keeps (execVlds d a b p w c s) := h.vload

theorem State.Inv.execVldx {d : VReg} {a : XReg} {b : VReg} {p : PReg} {w : EW} {c : Slot} {s : State} (h : s.Inv) :
    Keeps (execVldx d a b p w c s) := h.vload

theorem State.Inv.execVst {d : VReg} {a : XReg} {p : PReg} {w : EW} {c : Slot} {s : State} (h : s.Inv) :
    Keeps (execVst d a p w c s) := h.vstore

theorem State.Inv.execVsts {d : VReg} {a b : XReg} {p : PReg} {w : EW} {c : Slot} {s : State} (h : s.Inv) :
    Keeps (execVsts d a b p w c s) := h.vstore

theorem State.Inv.execVstx {d : VReg} {a : XReg} {b : VReg} {p : PReg} {w : EW} {c : Slot} {s : State} (h : s.Inv) :
    Keeps (execVstx d a b p w c s) := h.vstore

theorem State.Inv.execVldff {d : VReg} {a : XReg} {p : PReg} {w : EW} {c : Slot} {s : State} (h : s.Inv) :
    Keeps (execVldff d a p w c s) := by
  unfold Machine.execVldff
  refine .finish ?_
  refine .bind h.computeOnly fun x _ => ?_
  exact .bind h.checkUnits (fun _ _ => .bind h.onHart.readUnits (fun _ hx2 => .pure hx2.onHart.vend))

theorem State.Inv.vspChecks {s : State} {o0 : Nat} {cw : Word} {w : EW} (h : s.Inv) :
    Ends State.Inv (fun _ => True) (s.vspChecks o0 cw w) := .bind h.spCtl (fun _ _ => h.raise.stopIf)

theorem State.Inv.chain {s : State} {began : Nat} {offs : List Nat} (h : s.Inv) :
    Ends State.Inv State.Inv (s.chain began offs) := by
  unfold State.chain
  split
  · split
    next e1 => exact .ite (.error (h.drainCluster.of_ok e1)) (.ok (h.drainCluster.of_ok e1))
    next e1 => exact .error (h.drainCluster.of_error e1)
  · exact .ok h

theorem State.Inv.execVldsp {d : VReg} {a b : XReg} {p : PReg} {w : EW} {c : Slot} {s : State} (h : s.Inv) :
    Keeps (execVldsp d a b p w c s) := by
  unfold Machine.execVldsp
  refine .finish ?_
  refine .bind h.computeOnly fun x _ => ?_
  exact .bind h.vspChecks (fun _ _ => .bind h.chain (fun _ hx2 => .pure hx2.onHart.vend))

theorem State.Inv.execVstsp {d : VReg} {a b : XReg} {p : PReg} {w : EW} {c : Slot} {s : State} (h : s.Inv) :
    Keeps (execVstsp d a b p w c s) := by
  unfold Machine.execVstsp
  refine .finish ?_
  refine .bind h.computeOnly fun x _ => ?_
  exact .bind h.noStrip (fun _ _ => .bind h.vspChecks (fun _ _ => .pure h.spPut.vend))

theorem State.Inv.reachQueue {s : State} {q : Fin 16} {n : Nat} (h : s.Inv) : (s.reachQueue q n).Inv := h.onCluster

theorem State.Inv.execQld {d : VReg} {q : Fin 16} {p : PReg} {w : EW} {s : State} (h : s.Inv) : Keeps (execQld d q p w s) := by
  unfold Machine.execQld
  refine .finish ?_
  refine .bind h.computeOnly fun x _ => ?_
  dsimp only
  split
  · exact .pure h.vretire
  · refine .bind h.raise.stopIf fun x' _ => ?_
    split
    · exact .bind (.ok h) (fun _ hx2 => .bind hx2.reachQueue.stopIf (fun _ _ => .pure hx2.onCluster.onHart.vretire))
    · refine .bind h.drainCluster fun t ht => ?_
      exact .bind ht.reachQueue.stopIf (fun _ _ => .pure ht.onCluster.onHart.vretire)

theorem State.Inv.vamoRun {s : State} {op : AmoOp} {n : Nat} {ord : Bool} {us : List (Nat × Nat × Nat)}
    {done : List (Nat × Nat)} (h : s.Inv) :
    Ends State.Inv (fun x => x.2.2.Inv) (s.vamoRun op n ord us done) := by
  induction us generalizing s done with
  | nil => exact h
  | cons u r ih =>
    unfold State.vamoRun
    split
    · exact h
    · split
      · exact h
      · split
        next e => exact .error (h.atHome.of_error e)
        next e => exact ih (h.atHome.of_ok e)

theorem State.Inv.vamo {s : State} {i : Instr} {op : AmoOp} {d : VReg} {a : XReg} {b : VReg} {p : PReg} {w64 : Bool} (h : s.Inv) :
    Keeps (s.vamo i op d a b p w64) := by
  unfold State.vamo
  refine .finish ?_
  refine .bind h.computeOnly fun x _ => ?_
  refine .bind h.noStrip fun x' _ => ?_
  dsimp only
  split
  · exact .error h.raise
  · refine .bind h.checkUnits fun x2 _ => ?_
    refine .bind h.vamoRun fun x3 hx3 => ?_
    split
    · exact .pure hx3.onHart.onHart.raise
    · exact .pure hx3.onHart.onHart
    · exact .pure hx3.onHart.unitsOver.vend

theorem State.Inv.execVamoAdd {d : VReg} {a : XReg} {b : VReg} {p : PReg} {w64 : Bool} {c : Slot} {s : State} (h : s.Inv) :
    Keeps (execVamoAdd d a b p w64 c s) := h.vamo

theorem State.Inv.execVamoMin {d : VReg} {a : XReg} {b : VReg} {p : PReg} {w64 : Bool} {c : Slot} {s : State} (h : s.Inv) :
    Keeps (execVamoMin d a b p w64 c s) := h.vamo

theorem State.Inv.execVamoMax {d : VReg} {a : XReg} {b : VReg} {p : PReg} {w64 : Bool} {c : Slot} {s : State} (h : s.Inv) :
    Keeps (execVamoMax d a b p w64 c s) := h.vamo

theorem State.Inv.execVamoAnd {d : VReg} {a : XReg} {b : VReg} {p : PReg} {w64 : Bool} {c : Slot} {s : State} (h : s.Inv) :
    Keeps (execVamoAnd d a b p w64 c s) := h.vamo

theorem State.Inv.execVamoOr {d : VReg} {a : XReg} {b : VReg} {p : PReg} {w64 : Bool} {c : Slot} {s : State} (h : s.Inv) :
    Keeps (execVamoOr d a b p w64 c s) := h.vamo

theorem State.Inv.execVamoXor {d : VReg} {a : XReg} {b : VReg} {p : PReg} {w64 : Bool} {c : Slot} {s : State} (h : s.Inv) :
    Keeps (execVamoXor d a b p w64 c s) := h.vamo

theorem State.Inv.execVamoSwap {d : VReg} {a : XReg} {b : VReg} {p : PReg} {w64 : Bool} {c : Slot} {s : State} (h : s.Inv) :
    Keeps (execVamoSwap d a b p w64 c s) := h.vamo

theorem State.Inv.execSbegin {a : XReg} {s : State} (h : s.Inv) : Keeps (execSbegin a s) :=
  .finish (.bind h.computeOnly (fun _ _ => .bind h.raise.stopIf (fun _ _ => .pure h.onHart.retire)))

theorem State.Inv.commitFrom {s : State} {bs : List StripStore} (h : s.Inv) : Ends State.Inv State.Inv (s.commitFrom bs) := by
  induction bs generalizing s with
  | nil => exact .ok h
  | cons b r ih =>
    refine .ite (ih h) (.ite (.error h.onHart) ?_)
    split
    next e => exact ih (h.writeAt.of_ok e)
    · exact .error h.xlateFault

theorem State.Inv.execScommit {s : State} (h : s.Inv) : Keeps (execScommit s) := by
  unfold Machine.execScommit
  refine .finish ?_
  refine .bind h.computeOnly fun x _ => ?_
  exact .bind h.raise.stopIf (fun _ _ => .bind h.commitFrom (fun _ hx2 => .pure hx2.onHart.retire))

theorem State.Inv.execSabort {s : State} (h : s.Inv) : Keeps (execSabort s) :=
  .finish (.bind h.computeOnly (fun _ _ => .bind h.raise.stopIf (fun _ _ => .pure h.onHart.retire)))

theorem State.Inv.pushQueue {s : State} {i : Instr} {taken : List Byte} {sure : Bool} (h : s.Inv) :
    (s.pushQueue i taken sure).Inv := h.onHart

theorem State.Inv.execFence {ack : Bool} {scope : Fin 16} {cmask : BitVec 16} {s : State} (h : s.Inv) :
    Keeps (execFence ack scope cmask s) := by
  unfold Machine.execFence
  refine .finish ?_
  refine .bind h.noStrip fun x _ => ?_
  refine .bind h.stopIf fun x' _ => ?_
  exact .pure ((((State.Inv.ite (.ite h.dropLines h) h.pushQueue).onHart).releaseFences).retire)

theorem State.Inv.execFencesvSv {s : State} (h : s.Inv) : Keeps (execFencesvSv s) :=
  .finish (.bind h.computeOnly (fun _ _ => .pure h.retire))

theorem State.Inv.execFencesvVs {s : State} (h : s.Inv) : Keeps (execFencesvVs s) :=
  .finish (.bind h.computeOnly (fun _ _ => .pure h.retire))

theorem State.Inv.execFenceq {qmask : BitVec 8} {s : State} (h : s.Inv) : Keeps (execFenceq qmask s) :=
  .finish (.bind h.noStrip (fun _ _ => .bind h.drainAll (fun _ hx' => .pure hx'.retire)))

theorem State.Inv.execSpfence {s : State} (h : s.Inv) : Keeps (execSpfence s) :=
  .finish (.bind h.computeOnly (fun _ _ => .bind h.noStrip (fun _ _ => .pure h.onCluster.retire)))

theorem State.Inv.tileReadOk {s : State} {t : TReg} (h : s.Inv) : Ends State.Inv (fun _ => True) (s.tileReadOk t) := by
  unfold State.tileReadOk
  split
  · exact .ok trivial
  · split
    · exact .error h.tileFault
    · split
      · exact .ok trivial
      · exact .error h.tileXlate

theorem State.Inv.tileSumOk {s : State} {t : TReg} (h : s.Inv) : Ends State.Inv (fun _ => True) (s.tileSumOk t) :=
  .bind h.tileWriteOk (fun _ _ => h.tileReadOk)

theorem State.Inv.orWait {s : State} {r : Part State} (h : s.Inv) (hr : Ends State.Inv State.Inv r) :
    Ends State.Inv State.Inv (s.orWait r) := by
  cases r with
  | ok t => exact hr
  | error t => exact .error (.ite h hr)

theorem State.Inv.readTiles {s : State} {ts : List TReg} (h : s.Inv) : Ends State.Inv (fun x => x.2.Inv) (s.readTiles ts) := by
  induction ts generalizing s with
  | nil => exact .ok_snd h
  | cons t r ih => exact .bind h.readTile fun _ hx => .bind (ih hx) fun _ hy => .pure_snd hy

theorem State.Inv.killTiles {s : State} {ts written : List TReg} (h : s.Inv) : (s.killTiles ts written).Inv :=
  State.Inv.foldl (fun _ _ hx => .ite hx hx.killTile) _ h

theorem State.Inv.needAttach {s : State} (h : s.Inv) : Ends State.Inv (fun _ => True) s.needAttach := h.raise.stopIf

theorem State.Inv.matmul {s : State} {i : Instr} {f : Fmt} {td : AReg} {ta : TReg} {tb : Option TReg} {lu : BitVec 2}
    {bRows : Nat → Part (List (List (List Byte)))} (h : s.Inv) (hb : ∀ n, Ends State.Inv (fun _ => True) (bRows n)) :
    Keeps (s.matmul i f td ta tb lu bRows) := by
  refine .finish (.bind h.computeOnly fun _ _ => .bind h.needAttach fun _ _ => .ite (.pure h.vretire) ?_)
  refine .bind h.raise.stopIf fun _ _ => .bind (hb _) fun _ _ => ?_
  refine .bind (.forM fun _ => h.tileReadOk) fun _ _ => .bind (.forM fun _ => h.tileSumOk) fun _ _ => ?_
  refine .bind h.readTiles fun _ ha => .bind ha.readTiles fun _ hb => .bind hb.readTiles fun _ hd => ?_
  refine .bind (h.orWait hd.writeTile) fun t1 h1 => ?_
  refine .ite (.bind (h.orWait h1.writeTile) fun t2 h2 => ?_) (.bind (.ok h1) fun t2 h2 => ?_)
  all_goals
    dsimp only
    split
    · exact .pure h2.onHart.onHart
    · exact .pure h2.onHart.killTiles.vretire

theorem State.Inv.execMma {f : Fmt} {td : AReg} {ta tb : TReg} {lu : BitVec 2} {s : State} (h : s.Inv) :
    Keeps (execMma f td ta tb lu s) := h.matmul (fun _ => .ok trivial)

theorem State.Inv.pitchedChecks {s : State} {o0 : Nat} {cw : Word} {n : Nat} (h : s.Inv) :
    Ends State.Inv (fun _ => True) (s.pitchedChecks o0 cw n) := by
  unfold State.pitchedChecks
  refine .bind h.spCtl fun x _ => ?_
  split
  · exact .error h.raise
  · exact .ok trivial

theorem State.Inv.execMmasp {f : Fmt} {td : AReg} {ta : TReg} {b c : XReg} {s : State} (h : s.Inv) :
    Keeps (execMmasp f td ta b c s) := h.matmul (fun _ => .bind h.pitchedChecks (fun _ _ => .pure trivial))

theorem State.Inv.raiseOpen {s : State} {cause : Nat} (h : s.Inv) : (s.raiseOpen cause).Inv := h.takeTval.raise

theorem State.Inv.execMmats {f : Fmt} {td : AReg} {ta : TReg} {b c : XReg} {s : State} (h : s.Inv) :
    Keeps (execMmats f td ta b c s) := by
  unfold Machine.execMmats
  refine State.Inv.matmul ?_ ?_
  · exact h
  · intro x
    split
    · exact .error h.raiseOpen
    · exact .bind h.spCtl (fun _ _ => .bind h.raiseOpen.stopIf (fun _ _ => .pure trivial))

theorem State.Inv.execMattach {s : State} (h : s.Inv) : Keeps (execMattach s) :=
  .finish (.bind h.computeOnly (fun _ _ => .pure h.onHart.retire))

theorem State.Inv.execMdetach {s : State} (h : s.Inv) : Keeps (execMdetach s) :=
  .finish (.bind h.computeOnly (fun _ _ => .pure h.onHart.retire))

theorem State.Inv.execMzero {t : TReg} {s : State} (h : s.Inv) : Keeps (execMzero t s) := by
  unfold Machine.execMzero
  refine .finish ?_
  refine .bind h.computeOnly fun x _ => ?_
  exact .bind h.tileWriteOk (fun _ _ => .bind h.writeTile (fun _ hx2 => .pure hx2.retire))

theorem State.Inv.execMfree {t : TReg} {s : State} (h : s.Inv) : Keeps (execMfree t s) :=
  .finish (.bind h.computeOnly (fun _ _ => .pure h.killTile.retire))

theorem State.Inv.execMpref {t : TReg} {s : State} (h : s.Inv) : Keeps (execMpref t s) :=
  .finish (.bind h.computeOnly (fun _ _ => .pure ((State.Inv.ite h.onHart h).retire)))

theorem State.Inv.checkRows {s : State} {ok : Nat → Bool} {as : List Nat} {n : Nat} (h : s.Inv) :
    Ends State.Inv (fun _ => True) (s.checkRows ok as n) := by
  unfold State.checkRows
  split
  · exact .error h.leaseFault
  · exact .ok trivial

theorem State.Inv.storeRows {s : State} {as : List Nat} {rows : List (List Byte)} {c : Fin 16} (h : s.Inv) :
    Ends State.Inv State.Inv (s.storeRows as rows c) := .map h.storeUnits (fun _ hx => hx.unitsOver)

theorem State.Inv.execMld {t : TReg} {a b : XReg} {c : Slot} {h : Bool} {s : State} (hs : s.Inv) :
    Keeps (execMld t a b c h s) := by
  unfold Machine.execMld
  refine .finish ?_
  refine .bind hs.computeOnly fun x _ => ?_
  refine .bind hs.checkRows fun x' _ => ?_
  refine .bind hs.tileWriteOk fun x2 _ => ?_
  exact .bind hs.readUnits (fun _ hx3 => .bind (hs.orWait hx3.writeTile) (fun _ hx4 => .pure hx4.retire))

theorem State.Inv.execMst {t : TReg} {a b : XReg} {c : Slot} {h : Bool} {s : State} (hs : s.Inv) :
    Keeps (execMst t a b c h s) := by
  unfold Machine.execMst
  refine .finish ?_
  refine .bind hs.computeOnly fun x _ => ?_
  refine .bind hs.checkRows fun x' _ => ?_
  exact .bind hs.readTile (fun _ hx2 => .bind hx2.storeRows (fun _ hx3 => .pure hx3.retire))

theorem State.Inv.execMldsp {t : TReg} {a b : XReg} {c : Slot} {h : Bool} {s : State} (hs : s.Inv) :
    Keeps (execMldsp t a b c h s) := by
  unfold Machine.execMldsp
  refine .finish ?_
  refine .bind hs.computeOnly fun x _ => ?_
  refine .bind hs.pitchedChecks fun x' _ => ?_
  refine .bind hs.tileWriteOk fun x2 _ => ?_
  exact .bind hs.chain (fun _ hx3 => .bind hx3.writeTile (fun _ hx4 => .pure hx4.retire))

theorem State.Inv.execMstsp {t : TReg} {a b : XReg} {c : Slot} {h : Bool} {s : State} (hs : s.Inv) :
    Keeps (execMstsp t a b c h s) := by
  unfold Machine.execMstsp
  refine .finish ?_
  refine .bind hs.computeOnly fun x _ => ?_
  refine .bind hs.noStrip fun x' _ => ?_
  exact .bind hs.pitchedChecks (fun _ _ => .bind hs.readTile (fun _ hx3 => .pure hx3.spPut.retire))

theorem State.Inv.execMt2v {t : TReg} {a : VReg} {b : XReg} {s : State} (h : s.Inv) : Keeps (execMt2v t a b s) := by
  unfold Machine.execMt2v
  refine .finish ?_
  refine .bind h.computeOnly fun x _ => ?_
  exact .bind h.raise.stopIf (fun _ _ => .bind h.readTile (fun _ hx2 => .pure hx2.onHart.retire))

theorem State.Inv.execMv2t {t : TReg} {a : VReg} {b : XReg} {s : State} (h : s.Inv) : Keeps (execMv2t t a b s) := by
  unfold Machine.execMv2t
  refine .finish ?_
  refine .bind h.computeOnly fun x _ => ?_
  refine .bind h.raise.stopIf fun x' _ => ?_
  refine .bind h.tileWriteOk fun x2 _ => ?_
  dsimp only
  split
  · exact .bind (.ok_snd h) (fun _ hx3 => .bind (h.orWait hx3.writeTile) (fun _ hx4 => .pure hx4.retire))
  · exact .bind h.readTile (fun _ hx3 => .bind (h.orWait hx3.writeTile) (fun _ hx4 => .pure hx4.retire))

theorem State.Inv.moveTile {s : State} {i : Instr} {ta tb : TReg} {lu : Bool} {f : Bytes → Bytes} (h : s.Inv) :
    Keeps (s.moveTile i ta tb lu f) := by
  unfold State.moveTile
  refine .finish ?_
  refine .bind h.computeOnly fun x _ => ?_
  refine .bind h.tileReadOk fun x' _ => ?_
  refine .bind h.tileWriteOk fun x2 _ => ?_
  refine .bind h.readTile fun x3 hx3 => ?_
  dsimp only
  split
  · exact .bind (.ok hx3.killTile) (fun _ hx4 => .pure ((State.Inv.ite hx4.killTiles hx4).retire))
  · exact .bind (h.orWait hx3.writeTile) (fun _ hx4 => .pure ((State.Inv.ite hx4.killTiles hx4).retire))

theorem State.Inv.execMmov {ta tb : TReg} {lu : Bool} {s : State} (h : s.Inv) : Keeps (execMmov ta tb lu s) := h.moveTile

theorem State.Inv.execMtrans {ta tb : TReg} {f : Fin 4} {lu : Bool} {s : State} (h : s.Inv) : Keeps (execMtrans ta tb f lu s) :=
  h.moveTile

theorem State.Inv.epiData {s : State} {da : Word} (h : s.Inv) : Ends State.Inv (fun x => x.2.Inv) (s.epiData da) := by
  unfold State.epiData
  split
  · exact .ok_snd h
  · refine .bind h.spCtl fun x' _ => ?_
    refine .bind h.load fun x2 hx2 => ?_
    refine .bind h.spCtl fun x3 _ => ?_
    exact .ite (.bind (.ok_snd hx2) (fun _ hx => .pure_snd hx)) (.bind hx2.load (fun _ hx => .pure_snd hx))

theorem State.Inv.execMepi {t : TReg} {a b : XReg} {c : Slot} {s : State} (h : s.Inv) : Keeps (execMepi t a b c s) := by
  unfold Machine.execMepi
  refine .finish ?_
  refine .bind h.computeOnly fun x _ => ?_
  refine .bind h.noStrip fun x' _ => ?_
  refine .bind h.needAttach fun x2 _ => ?_
  refine .bind h.epiData fun x3 hx3 => ?_
  refine .bind h.checkRows fun x4 _ => ?_
  exact .bind hx3.readTile (fun _ hx5 => .bind hx5.storeRows (fun _ hx6 => .pure hx6.onHart.retire))

theorem State.Inv.execMsend {t : TReg} {a b : XReg} {c : Slot} {s : State} (h : s.Inv) : Keeps (execMsend t a b c s) := by
  unfold Machine.execMsend
  refine .finish ?_
  refine .bind h.computeOnly fun x _ => ?_
  refine .bind h.noStrip fun x' _ => ?_
  refine .bind h.readTile fun x2 hx2 => ?_
  dsimp only
  split
  · exact .pure hx2.retire
  · exact .ite (.pure hx2.failOp.retire) (.ite (.pure hx2.failOp.retire) (.pure hx2.openOp.update.send.retire))

theorem State.Inv.makeRoom {s : State} {q : Fin 8} (h : s.Inv) : Ends State.Inv State.Inv (s.makeRoom q) := by
  unfold State.makeRoom
  dsimp only
  split
  · exact .ok h.onCluster
  · split
    next e1 => exact .error (h.drainCluster.of_error e1)
    next e1 => exact .ite (.ok ((h.drainCluster.of_ok e1).onCluster)) (.error ((h.drainCluster.of_ok e1).onCluster))

theorem State.Inv.enqueue {s : State} {q : Fin 8} {cmd : CopyCmd} {w : CopyWork} (h : s.Inv) : (s.enqueue q cmd w).Inv :=
  h.takeName.onHart

theorem State.Inv.acceptCopy {s : State} {q : Fin 8} {cmd : CopyCmd} {ms : List Move} (h : s.Inv) :
    Ends State.Inv State.Inv (s.acceptCopy q cmd ms) := .ite (.ok h.retire) (.map h.makeRoom (fun _ hx => hx.enqueue.retire))

theorem State.Inv.checkRuns {s : State} {os : List Word} {n : Nat} (h : s.Inv) :
    Ends State.Inv (fun _ => True) (s.checkRuns os n) := by
  unfold State.checkRuns
  split
  · exact .error h.raise
  · exact .ok trivial

theorem State.Inv.checkSpans {s : State} {ok : Nat → Bool} {as : List Word} {n : Nat} (h : s.Inv) :
    Ends State.Inv (fun _ => True) (s.checkSpans ok as n) := by
  unfold State.checkSpans
  split
  · exact .error h.leaseFault
  · exact .ok trivial

theorem State.Inv.copyChecks {s : State} {dir : Nat} {ds ss : List Word} {n : Nat} (h : s.Inv) :
    Ends State.Inv (fun _ => True) (s.copyChecks dir ds ss n) := by
  unfold State.copyChecks
  exact .when h.checkRuns (.when h.checkRuns (.when h.checkSpans (.ite h.checkSpans (.pure trivial))))

theorem State.Inv.copyRecord {s : State} {a : Word} (h : s.Inv) : Ends State.Inv (fun x => x.2.Inv) (s.copyRecord a) :=
  .bind h.spCtl (fun _ _ => h.load)

theorem State.Inv.execCpy {q : Fin 8} {a b c : XReg} {s : State} (h : s.Inv) : Keeps (execCpy q a b c s) := by
  unfold Machine.execCpy
  refine .finish ?_
  exact .bind h.noStrip (fun _ _ => .bind h.spCtl (fun _ _ => .bind h.copyChecks (fun _ _ => h.acceptCopy)))

theorem State.Inv.execCpy2d {q : Fin 8} {a b c : XReg} {s : State} (h : s.Inv) : Keeps (execCpy2d q a b c s) := by
  unfold Machine.execCpy2d
  refine .finish ?_
  refine .bind h.noStrip fun x _ => ?_
  refine .bind h.copyRecord fun x' hx' => ?_
  exact .bind h.spCtl (fun _ _ => .bind h.spCtl (fun _ _ => .bind h.copyChecks (fun _ _ => hx'.acceptCopy)))

theorem State.Inv.execCpyg {q : Fin 8} {a b c : XReg} {s : State} (h : s.Inv) : Keeps (execCpyg q a b c s) := by
  unfold Machine.execCpyg
  refine .finish ?_
  refine .bind h.noStrip fun x _ => ?_
  refine .bind h.copyRecord fun x' hx' => ?_
  refine .bind h.spCtl fun x2 _ => ?_
  refine .bind h.spCtl fun x3 _ => ?_
  dsimp only
  split
  · exact .pure hx'.retire
  · split
    · exact .error h.raise
    · refine .bind hx'.load fun x4 hx4 => ?_
      split
      · exact .error h.raise
      · split
        · exact .error h.leaseFault
        · exact hx4.acceptCopy

theorem State.Inv.execCpyts {q : Fin 8} {a b c : XReg} {s : State} (h : s.Inv) : Keeps (execCpyts q a b c s) := by
  unfold Machine.execCpyts
  refine .finish ?_
  refine .bind h.noStrip fun x _ => ?_
  refine .bind h.spCtl fun x' _ => ?_
  refine .bind h.raiseOpen.stopIf fun x2 _ => ?_
  refine .bind h.copyRecord fun x3 hx3 => ?_
  refine .bind h.spCtl fun x4 _ => ?_
  split
  · exact .error h.raiseOpen
  · exact .bind h.raiseOpen.stopIf (fun _ _ => .when h.checkRuns (.when h.checkSpans hx3.acceptCopy))

theorem State.Inv.execQfill {q : Fin 8} {a b c : XReg} {s : State} (h : s.Inv) : Keeps (execQfill q a b c s) := by
  unfold Machine.execQfill
  refine .finish ?_
  refine .bind h.noStrip fun x _ => ?_
  refine .bind h.spCtl fun x' _ => ?_
  refine .bind h.raise.stopIf fun x2 _ => ?_
  refine .when h.checkRuns ?_
  refine .when h.checkSpans ?_
  refine .bind h.onCluster.stopIf fun x3 _ => ?_
  exact .bind h.makeRoom (fun _ hx4 => .pure hx4.takeName.onCluster.enqueue.retire)

theorem State.Inv.execTblld {q : Fin 4} {a : XReg} {s : State} (h : s.Inv) : Keeps (execTblld q a s) := by
  unfold Machine.execTblld
  -- As a numeral the length of a table would be counted out.
  generalize 1040 = n
  exact .finish (.bind h.noStrip fun _ _ => .bind h.raise.stopIf fun _ _ => .bind h.load fun _ hr => .pure hr.onCluster.retire)

end Sys2Proof.Machine
end

section
/-! PROOFS of the invariant: mapping, launches, tasks, binds, claims and objections. -/

namespace Sys2Proof.Machine

theorem State.Inv.command {s : State} {c : Cmd} {f : State → State} (h : s.Inv) (hf : ∀ t : State, t.Inv → (f t).Inv) :
    Keeps (s.command c f) := State.Inv.next (.ite (hf _ h.update) h)

theorem State.Inv.answer {s : State} {c : Cmd} {code : Nat} (h : s.Inv) : (s.answer c code).Inv := h.post

theorem State.Inv.laidOut {s : State} {c : Cmd} {f : State → State} (h : s.Inv) (hf : ∀ t : State, t.Inv → (f t).Inv) :
    Keeps (s.laidOut c f) := h.command fun _ ht => .ite ht.answer (hf _ ht)

theorem State.Inv.spaceFor {s : State} {ctx : BitVec 32} {va : Nat} {r : Nat × State} (h : s.Inv)
    (hr : s.spaceFor ctx va = some r) : r.2.Inv := by
  unfold State.spaceFor at hr
  split at hr
  · cases hr
    exact h
  · split at hr
    · cases hr
      exact h
    · obtain ⟨a, -, rfl⟩ := Option.map_eq_some_iff.1 hr
      exact h.update

theorem page_dvd_levelSize (level : Nat) : 65536 ∣ levelSize level := by
  unfold levelSize
  split
  · exact ⟨16384, rfl⟩
  · split
    · exact ⟨32, rfl⟩
    · exact ⟨1, rfl⟩

/-- An address at a boundary of its leaf's size is at a page boundary. -/
theorem page_aligned_of_level {va level : Nat} (h : va % levelSize level = 0) : va % 65536 = 0 :=
  Nat.mod_eq_zero_of_dvd ((page_dvd_levelSize level).trans (Nat.dvd_of_mod_eq_zero h))

/-- An entry that is in order stands at a page boundary (R164, R168). -/
theorem State.entryOk_aligned {s : State} {m : MapCmd} (h : s.entryOk m = true) : m.va % 65536 = 0 := by
  simp only [State.entryOk, fieldsOk, Bool.and_eq_true, decide_eq_true_eq] at h
  exact page_aligned_of_level h.1.1.1.1.1.1.1.1.1.1.2

/-- A leaf more at a page boundary. -/
theorem State.Inv.withLeaf {s : State} {l : Leaf} (h : s.Inv) (hl : l.aligned) : ({ s with leaves := s.leaves ++ [l] } :
    State).Inv :=
  h.withLeaves fun k hk => (List.mem_append.1 hk).elim (h.leaves k) fun hk => List.mem_singleton.1 hk ▸ hl

/-- Leaves that change anything but where they stand. -/
theorem State.Inv.mapLeaves {s : State} {f : Leaf → Leaf} (h : s.Inv) (hf : ∀ l, (f l).va = l.va) :
    ({ s with leaves := s.leaves.map f } : State).Inv :=
  h.withLeaves fun k hk => by
    obtain ⟨l, hl, rfl⟩ := List.mem_map.1 hk
    rw [Leaf.aligned, hf]
    exact h.leaves l hl

theorem State.Inv.filterLeaves {s : State} {p : Leaf → Bool} (h : s.Inv) :
    ({ s with leaves := s.leaves.filter p } : State).Inv := h.withLeaves fun l hl => h.leaves l (List.mem_of_mem_filter hl)

theorem State.Inv.mapOne {s : State} {tenant : Nat} {m : MapCmd} (h : s.Inv) : (s.mapOne tenant m).2.Inv := by
  unfold State.mapOne
  split
  · exact h
  next r hr =>
    split
    · exact h
    next hok =>
      dsimp only
      split
      · split
        · exact h.mapLeaves fun l => by split <;> rfl
        · exact h
      · split
        · exact h
        · have hleaf : m.va % 65536 = 0 := State.entryOk_aligned (by
            simp only [Bool.or_eq_true, Bool.not_eq_true', not_or, Bool.not_eq_false] at hok
            exact hok.1)
          refine ((h.spaceFor hr).withLeaves fun k hk => ?_).touch
          exact (List.mem_append.1 hk).elim (h.leaves k) fun hk => List.mem_singleton.1 hk ▸ hleaf

theorem State.Inv.dropLinesOf {s : State} {l : Leaf} (h : s.Inv) : (s.dropLinesOf l).Inv := h.update

theorem State.Inv.oweMapOk {s : State} {c : Cmd} (h : s.Inv) : (s.oweMapOk c).Inv := h.update

theorem State.Inv.execMap {c : Cmd} {m : MapCmd} {s : State} (h : s.Inv) : Keeps (execMap c m s) :=
  h.laidOut (fun _ hx => hx.mapOne.answer)

theorem State.Inv.execUnmap {c : Cmd} {m : MapCmd} {s : State} (h : s.Inv) : Keeps (execUnmap c m s) := by
  refine h.laidOut fun t ht => ?_
  split
  · exact ht.answer
  · refine .ite ht.answer (.ite ht.answer ?_)
    dsimp only
    split
    · exact (ht.mapLeaves fun l => by split <;> rfl).touch.dropLinesOf.oweMapOk
    · exact ht.filterLeaves.touch.dropLinesOf.oweMapOk

theorem State.Inv.execRemap {c : Cmd} {m : MapCmd} {how : Nat} {s : State} (h : s.Inv) : Keeps (execRemap c m how s) := by
  refine h.laidOut fun t ht => .ite ht.answer ?_
  split
  · exact ht.answer
  next l _ =>
    have hchanged :
      ({ t with leaves := t.leaves.map fun k => if k = l then { k with pte := m.pte, accesses := 0 } else k } : State).Inv :=
      ht.mapLeaves fun k => by split <;> rfl
    exact .ite ht.answer (.ite ht.answer (.ite ht.answer (State.Inv.ite hchanged.dropLinesOf hchanged.keepLines).oweMapOk))

theorem State.Inv.execMapCommandCompletes {s : State} (h : s.Inv) : Keeps (execMapCommandCompletes s) := by
  unfold Machine.execMapCommandCompletes
  split
  · exact h.update.post.next
  · exact h.next

theorem State.Inv.execMigrate {va pfn : Nat} {s : State} (h : s.Inv) : Keeps (execMigrate va pfn s) := by
  unfold Machine.execMigrate
  split
  · exact h.next
  · dsimp only
    split
    · exact h.next
    · exact ((h.withMem (Bytes.wf_copy _ _ _ _ h.mem)).mapLeaves fun k => by split <;> rfl).post.next

theorem State.Inv.execPromotion {asid va level pfn : Nat} {s : State} (h : s.Inv) : Keeps (execPromotion asid va level pfn s) :=
    by
  unfold Machine.execPromotion
  dsimp only
  split
  · exact h.next
  next hok =>
    have hva : va % 65536 = 0 := page_aligned_of_level (level := level) (by
      simp only [Bool.or_eq_true, not_or, decide_eq_true_eq, not_not] at hok
      exact hok.1.1.2)
    split
    next f fs _ =>
      split
      · exact h.next
      · refine State.Inv.next (((h.withMem ?_).filterLeaves).withLeaf hva)
        exact List.foldlRecOn (motive := fun m => Bytes.wf m = true) (f :: fs) _ h.mem fun m hm k _ => Bytes.wf_copy m _ _ _ hm
    · exact h.next

theorem State.Inv.execGmem {a b c : XReg} {s : State} (h : s.Inv) : Keeps (execGmem a b c s) :=
  .finish (.bind h.computeOnly (fun _ _ => .bind h.noStrip (fun _ _ => .pure h.setX.retire)))

theorem State.Inv.enqueueTask {s : State} {r : TaskRec} (h : s.Inv) : (s.enqueueTask r).Inv := h.update

theorem State.Inv.execPost {a : XReg} {s : State} (h : s.Inv) : Keeps (execPost a s) := by
  unfold Machine.execPost
  refine .finish ?_
  refine .bind h.computeOnly fun x _ => ?_
  refine .bind h.raise.stopIf fun x' _ => ?_
  refine .bind h.raise.stopIf fun x2 _ => ?_
  refine .bind h.load fun x3 hx3 => ?_
  refine .bind h.raise.stopIf fun x4 _ => ?_
  exact .ite (.pure hx3.retire) (.pure hx3.takeName.enqueueTask.onLaunch.retire)

theorem State.Inv.execTexit {s : State} (h : s.Inv) : Keeps (execTexit s) :=
  .finish (.bind h.computeOnly (fun _ _ => .bind h.raise.stopIf (fun _ _ => .pure h.taskEnd)))

theorem State.Inv.refuse {s : State} {cmd : BitVec 32} (h : s.Inv) : (s.refuse cmd).Inv := h.update.post

theorem State.Inv.requestPage {s : State} {l : Launch} {p : Nat} (h : s.Inv) : (s.requestPage l p).Inv := h.update.post.onLaunch

theorem State.Inv.loadBytes {s : State} {asid va : Nat} {bs : List Byte} (h : s.Inv) : (s.loadBytes asid va bs).Inv := by
  refine State.Inv.foldl (fun t p ht => ?_) _ h
  split
  · exact .ite (ht.withMem (Bytes.wf_put _ _ _ ht.mem)).touch ht
  · exact ht

theorem State.Inv.loadSection {s : State} {asid : Nat} {x : Section} (h : s.Inv) : (s.loadSection asid x).Inv := h.loadBytes

theorem State.Inv.enqueueInitial {s : State} {l : Launch} (h : s.Inv) : (s.enqueueInitial l).Inv :=
  .ite h (.ite h.takeName.enqueueTask (State.Inv.foldl (fun _ _ ht => ht.takeName.enqueueTask) _ h))

theorem State.Inv.startLaunch {s : State} {l : Launch} {cmd : BitVec 32} (h : s.Inv) : (s.startLaunch l cmd).Inv :=
  (((((State.Inv.ite h (State.Inv.foldl (fun _ _ hx => hx.loadSection) _ h)).update).onLaunch).post).enqueueInitial).launchEnds

theorem State.Inv.dropLaunch {s : State} {l : Launch} (h : s.Inv) : (s.dropLaunch l).Inv := h.update

theorem State.Inv.seek {s : State} {id : Nat} (h : s.Inv) : (s.seek id).Inv := by
  unfold State.seek
  split
  · split
    · dsimp only
      split
      · split
        next e3 => exact (h.spaceFor e3).startLaunch
        · exact h.dropLaunch.refuse
      · exact State.Inv.foldl (fun _ _ hx => hx.requestPage) _ h
    · exact h
  · exact h

theorem State.Inv.writeOutside {s : State} {fid addr : Nat} {bs : List Byte} (h : s.Inv) : (s.writeOutside fid addr bs).Inv :=
  have hm := h.withMem (Bytes.wf_putRuns _ (outsideRuns fid addr bs.length) bs h.mem)
  .ite hm hm.send

theorem State.Inv.readOutside {s : State} {fid addr len : Nat} {r : List Byte × State} (h : s.Inv)
    (hr : s.readOutside fid addr len = some r) : r.2.Inv := by
  unfold State.readOutside at hr
  split at hr
  · cases hr
  · cases hr
    exact .ite h h.send

theorem State.Inv.launchWith {s : State} {c : Cmd} {r : LaunchReq} {ids : LaunchIds} {img : List Byte} (h : s.Inv) :
    (s.launchWith c r ids img).Inv := .ite h.refuse (.ite h.answer h.update.seek)

theorem State.Inv.execLaunch {c : Cmd} {r : LaunchReq} {ids : LaunchIds} {s : State} (h : s.Inv) :
    Keeps (execLaunch c r ids s) := by
  unfold Machine.execLaunch
  split
  · exact h.next
  · refine h.laidOut fun t ht => ?_
    split
    · exact ht.refuse
    · split
      · exact ht.answer
      · split
        next e => exact (ht.readOutside e).launchWith
        · exact ht.refuse

theorem State.Inv.mapAll {s : State} {tenant : Nat} {ms : List MapCmd} (h : s.Inv) : (s.mapAll tenant ms).2.Inv :=
  List.foldlRecOn (motive := fun x : Nat × State => x.2.Inv) ms _ h fun _ hx _ _ => hx.mapOne

theorem State.Inv.failLaunch {s : State} {l : Launch} (h : s.Inv) : (s.failLaunch l).Inv := h.dropLaunch.post

theorem State.Inv.execPageans {c : Cmd} {ctxId req : BitVec 32} {ok : Bool} {maps : List MapCmd} {s : State} (h : s.Inv) :
    Keeps (execPageans c ctxId req ok maps s) := by
  unfold Machine.execPageans
  refine State.Inv.laidOut ?_ ?_
  · exact h
  · intro t hx
    dsimp only
    split
    · exact hx.answer
    · exact .ite hx.answer.failLaunch hx.mapAll.onLaunch.answer.seek

theorem State.Inv.execMboxw {c : Cmd} {launchId index : Nat} {value : Word} {s : State} (h : s.Inv) :
    Keeps (execMboxw c launchId index value s) := by
  unfold Machine.execMboxw
  refine State.Inv.laidOut ?_ ?_
  · exact h
  · intro t hx
    split
    · split
      · exact hx.answer
      · split
        · exact hx.onLaunch.answer
        · exact hx.answer
    · exact hx.answer

theorem State.Inv.zeroFrames {s : State} {a n : Nat} (h : s.Inv) : (s.zeroFrames a n).Inv := h.withMem (Bytes.wf_place _ _ _ _
    h.mem)

theorem State.Inv.mapBacking {s : State} {asid tenant b frame : Nat} (h : s.Inv) (hb : b % 65536 = 0) :
    (s.mapBacking asid tenant b frame).Inv := by
  unfold State.mapBacking
  split
  · exact h
  · refine State.Inv.touch (h.zeroFrames.withLeaves fun l hl => ?_)
    rcases List.mem_append.1 hl with hl | hl
    · exact h.zeroFrames.leaves l hl
    · obtain ⟨k, -, rfl⟩ := List.mem_map.1 hl
      simp only [Leaf.aligned]
      omega

theorem State.Inv.enterFresh {s : State} {l : Launch} {r : TaskRec} {c : BindChoice} (h : s.Inv)
    (hb : s.hart.name.ah = false → c.backing % 65536 = 0) : (s.enterFresh l r c).Inv := by
  have hs : (if s.hart.name.ah then s else s.mapBacking l.asid l.tenant c.backing c.frame : State).Inv := by
    split
    · exact h
    next hah => exact h.mapBacking (hb (Bool.not_eq_true _ ▸ hah))
  exact hs.onCluster.update

theorem State.Inv.enterAgain {s : State} {h : Hart} {eqMin eqCap : Nat} (hs : s.Inv) : (s.enterAgain h eqMin eqCap).Inv :=
  hs.onCluster.update

/-- A fresh task's backing for a hart that has one stands at a boundary of 1 MiB. -/
theorem State.freshOk_backing {s : State} {l : Launch} {r : TaskRec} {c : BindChoice} (hok : s.freshOk l r c = true)
    (hah : s.hart.name.ah = false) : c.backing % 65536 = 0 := by
  simp only [State.freshOk, hah, Bool.false_or, Bool.and_eq_true, State.backingOk, decide_eq_true_eq] at hok
  obtain ⟨-, ⟨⟨h1, -⟩, -⟩, -⟩ := hok
  omega

theorem State.Inv.execBind {c : BindChoice} {s : State} (h : s.Inv) : Keeps (execBind c s) := by
  unfold Machine.execBind
  split
  · exact h.next
  · split
    · exact h.next
    · split
      · exact h.next
      · split
        · exact h.update.next
        · split
          · split
            · exact h.enterAgain.next
            · exact h.next
          · split
            · split
              next hok => exact (h.enterFresh (State.freshOk_backing hok)).next
              · exact h.next
            · exact h.next

theorem State.Inv.claimBad {s : State} {bad : Bool} {a : Word} (h : s.Inv) :
    Ends State.Inv (fun _ => True) (s.claimBad bad a) := h.raise.stopIf

theorem State.Inv.execClaim {a b c : XReg} {s : State} (h : s.Inv) : Keeps (execClaim a b c s) := by
  unfold Machine.execClaim
  refine .finish ?_
  refine .bind h.computeOnly fun x _ => ?_
  refine .bind h.noStrip fun x' _ => ?_
  dsimp only
  split
  · refine .bind h.claimBad fun x2 _ => ?_
    refine .bind h.checkWrite fun x3 _ => ?_
    exact .bind h.onHart.stopIf (fun _ _ => .ite (.pure h.onHart.setX.retire) (.pure h.onHart.setX.update.retire))
  · exact .bind h.onHart.stopIf (fun _ _ => .ite (.pure h.onHart.setX.retire) (.pure h.onHart.setX.update.retire))

theorem State.Inv.execObject {a b c : XReg} {s : State} (h : s.Inv) : Keeps (execObject a b c s) := by
  unfold Machine.execObject
  refine .finish ?_
  refine .bind h.computeOnly fun x _ => ?_
  refine .bind h.noStrip fun x' _ => ?_
  exact .bind h.claimBad (fun _ _ => .bind h.raise.stopIf (fun _ _ => .pure h.update.setX.retire))

theorem State.Inv.execClwait {c : XReg} {s : State} (h : s.Inv) : Keeps (execClwait c s) := by
  unfold Machine.execClwait
  refine .finish ?_
  refine .bind h.computeOnly fun x _ => ?_
  exact .bind h.noStrip (fun _ _ => .bind h.stopIf (fun _ _ => .pure h.setX.retire))

theorem State.Inv.walkFault {s : State} {owner : Option Nat} {asid va : Nat} (h : s.Inv) : (s.walkFault owner asid va).Inv := by
  unfold State.walkFault
  split
  · exact .ite h.endOwner h
  · exact h

theorem State.Inv.putVisible {s : State} {m : PutMsg} {l : Launch} {w : Window} (h : s.Inv) : (s.putVisible m l w).Inv := by
  unfold State.putVisible
  split
  next e => exact ((h.writeAt.of_ok e).onWindow).send
  · exact h.send.walkFault

theorem State.Inv.performPut {s : State} {m : PutMsg} (h : s.Inv) : (s.performPut m).Inv := by
  unfold State.performPut
  split
  · exact h.putVisible
  · exact h.send

theorem State.Inv.discardPut {s : State} {m : PutMsg} (h : s.Inv) : (s.discardPut m).Inv := by
  unfold State.discardPut
  refine State.Inv.send ?_
  split
  · exact .ite h h.onWindow
  · exact h

theorem State.Inv.execPutReceived {m : PutMsg} {s0 : State} (h : s0.Inv) : Keeps (execPutReceived m s0) := by
  unfold Machine.execPutReceived
  split
  · exact h.next
  · dsimp only
    split
    · exact h.hear.send.next
    · split
      · exact h.hear.discardPut.next
      · split
        · exact h.hear.send.putVisible.next
        · split
          · exact h.hear.send.next
          · exact h.hear.update.send.next

theorem State.Inv.execLandedNotice {t : TokName} {s0 : State} (h : s0.Inv) : Keeps (execLandedNotice t s0) :=
  (State.Inv.foldl (fun _ _ hx => hx.performPut) _ h.hear.update).next

theorem State.Inv.execExpiryNotice {t : TokName} {s0 : State} (h : s0.Inv) : Keeps (execExpiryNotice t s0) :=
  (State.Inv.foldl (fun _ _ hx => hx.discardPut) _ h.hear.update).next

theorem State.Inv.onPut {s : State} {ticket : Nat} {f : PutRec → PutRec} (h : s.Inv) : (s.onPut ticket f).Inv := h.update

theorem State.Inv.dropPut {s : State} {ticket : Nat} (h : s.Inv) : (s.dropPut ticket).Inv := h.update

theorem State.Inv.onSlot {s : State} {p : PutRec} {f : TokSlot → TokSlot} (h : s.Inv) : (s.onSlot p f).Inv := h.update

theorem State.Inv.acceptPut {s : State} {p : PutRec} (h : s.Inv) : (s.acceptPut p).Inv :=
  State.Inv.foldl (fun _ _ hx => hx.sendPut) _ h.onPut.onSlot.update

theorem State.Inv.execTokenAccepted {t : TokName} {s0 : State} (h : s0.Inv) : Keeps (execTokenAccepted t s0) := by
  unfold Machine.execTokenAccepted
  split
  · dsimp only
    split
    · exact h.hear.acceptPut.next
    · exact h.hear.next
  · exact h.next

theorem State.Inv.settlePut {s : State} {p : PutRec} (h : s.Inv) : (s.settlePut p).Inv := .ite h.dropPut h.onPut

theorem State.Inv.failPut {s : State} {p : PutRec} (h : s.Inv) : (s.failPut p).Inv := h.onPut.onSlot

theorem State.Inv.execPutRefused {m : PutMsg} {s0 : State} (h : s0.Inv) : Keeps (execPutRefused m s0) := by
  unfold Machine.execPutRefused
  split
  · dsimp only
    split
    · exact h.hear.send.next
    · exact h.hear.next
  · exact h.next

theorem State.Inv.execTokenLanded {t : TokName} {s0 : State} (h : s0.Inv) : Keeps (execTokenLanded t s0) := by
  unfold Machine.execTokenLanded
  split
  · dsimp only
    split
    · exact h.hear.next
    · split
      · exact h.hear.settlePut.next
      · split
        · exact (((State.Inv.ite h.hear h.hear.acceptPut).closeOp).dropPut).next
        · exact ((((((State.Inv.ite h.hear h.hear.acceptPut).closeOp).dropPut).onSlot).update).stopOver).next
  · exact h.next

theorem State.Inv.expirePut {s : State} {p : PutRec} (h : s.Inv) : (s.expirePut p).Inv :=
  .ite h.onSlot.update.onPut ((State.Inv.ite h.onSlot.update h.onSlot.update.closeOp).dropPut)

theorem State.Inv.expireFrom {ps : List PutRec} {n : Nat} {s : State} (h : s.Inv) : (s.expireFrom ps n).Inv := by
  induction n generalizing s ps with
  | zero => exact h
  | succ n ih =>
    have hs : (ps.foldl (fun s p => s.expirePut p) s).Inv := State.Inv.foldl (fun _ _ ht => ht.expirePut) _ h
    exact .ite hs (ih hs)

theorem State.Inv.expireToken {s : State} {p : PutRec} (h : s.Inv) : (s.expireToken p).Inv := h.expireFrom

theorem State.Inv.execTokenExpires {t : TokName} {s : State} (h : s.Inv) : Keeps (execTokenExpires t s) := by
  unfold Machine.execTokenExpires
  split
  · split
    · exact h.next
    · exact h.expireToken.onTask.stopOver.next
  · exact h.next

theorem State.Inv.execPutFailed {t : TokName} {code : Nat} {s0 : State} (h : s0.Inv) : Keeps (execPutFailed t code s0) := by
  unfold Machine.execPutFailed
  split
  · dsimp only
    split
    · exact h.hear.next
    · split
      · exact h.hear.settlePut.next
      · split
        · exact h.hear.closeOp.dropPut.next
        · split
          · exact h.hear.closeOp.failPut.settlePut.expireToken.stopOver.next
          · exact h.hear.closeOp.failPut.settlePut.next
  · exact h.next

theorem State.Inv.execQuiesceTokenSettle {tenant : Nat} {s : State} (h : s.Inv) : Keeps (execQuiesceTokenSettle tenant s) := by
  unfold Machine.execQuiesceTokenSettle
  split
  · split
    · exact h.next
    · exact ((State.Inv.foldl (fun _ _ hx => hx.expirePut) _ (State.Inv.foldl (fun _ _ hx => hx.onSlot) _ h)).stopOver).next
  · exact h.next

theorem State.Inv.openRecord {s : State} {p : Proposal} (h : s.Inv) : (s.openRecord p).Inv := h.update

theorem State.Inv.onWaiting {s : State} {f : OpenClaim → Bool} {g : OpenClaim → OpenClaim} (h : s.Inv) :
    (s.onWaiting f g).Inv := h.update

theorem State.Inv.execProposalReceived {p : Proposal} {s0 : State} (h : s0.Inv) : Keeps (execProposalReceived p s0) := by
  unfold Machine.execProposalReceived
  dsimp only
  split
  · exact h.hear.send.next
  · split
    · exact h.hear.next
    · split
      · exact h.hear.onWaiting.openRecord.next
      · exact h.hear.onWaiting.send.next
      · exact h.hear.onWaiting.send.next

theorem State.Inv.execMemberWindowCloses {addr : Word} {group : Nat} {s : State} (h : s.Inv) :
    Keeps (execMemberWindowCloses addr group s) := h.update.next

theorem State.Inv.execObjectionReceived {src : Party} {p : Proposal} {abort : Bool} {s : State} (h : s.Inv) :
    Keeps (execObjectionReceived src p abort s) := h.hear.onWaiting.next

theorem State.Inv.execCommitNoticeReceived {p : Proposal} {s : State} (h : s.Inv) : Keeps (execCommitNoticeReceived p s) :=
  h.hear.onWaiting.next

theorem State.Inv.execEndNoticeReceived {p : Proposal} {s : State} (h : s.Inv) : Keeps (execEndNoticeReceived p s) :=
  h.hear.next

theorem State.Inv.endClaim {s : State} {k : OpenClaim} {st : Nat} {by1 : Option Party} (h : s.Inv) :
    (s.endClaim k st by1).Inv := h.onTask.update

theorem State.Inv.claimEnds {s : State} {k : OpenClaim} (h : s.Inv) : (s.claimEnds k).Inv := by
  unfold State.claimEnds
  split
  · exact h.endClaim
  · split
    · exact h.endClaim
    · exact h.endClaim
    · split
      · exact h.endClaim
      · exact .ite h.endClaim h.update

theorem State.Inv.execClaimWaitEnds {s : State} (h : s.Inv) : Keeps (execClaimWaitEnds s) := by
  unfold Machine.execClaimWaitEnds
  dsimp only
  split
  · exact h.claimEnds.next
  · exact h.next

theorem State.Inv.claimWrite {s : State} {k : OpenClaim} (h : s.Inv) : (s.claimWrite k).Inv := by
  unfold State.claimWrite
  split
  · exact h
  · exact (h.withMem (Bytes.wf_put _ _ _ h.mem)).update.touch.count

theorem State.Inv.execClaimStorePerformed {acknowledged written : Bool} {s : State} (h : s.Inv) :
    Keeps (execClaimStorePerformed acknowledged written s) := by
  unfold Machine.execClaimStorePerformed
  split
  · split
    · exact h.endOwner.next
    · split
      · exact ((State.Inv.ite h.claimWrite h).endClaim).next
      · split
        · exact h.claimWrite.endClaim.next
        · exact h.next
  · exact h.next

theorem State.Inv.boundLost {s : State} (h : s.Inv) : s.boundLost.Inv :=
  .ite ((State.Inv.foldl (fun _ _ hx => hx.endClaim) _ h).update) h

theorem State.Inv.execPortFail {p : Fin 18} {s : State} (h : s.Inv) : Keeps (execPortFail p s) := h.boundLost.update.next

theorem State.Inv.execLaneShed {p : Fin 18} {lanes : Fin 4} {s : State} (h : s.Inv) : Keeps (execLaneShed p lanes s) := by
  unfold Machine.execLaneShed
  split
  · exact h.boundLost.update.next
  · exact h.next

theorem State.Inv.execFlintBoundHeld {s : State} (h : s.Inv) : Keeps (execFlintBoundHeld s) := (State.Inv.ite h.update h).next

theorem State.Inv.execDlnRisk {s : State} (h : s.Inv) : Keeps (execDlnRisk s) := by
  unfold Machine.execDlnRisk
  split
  · exact h.abandon.interrupt.next
  · exact h.next

theorem State.Inv.execCopyEntryPerforms {turn : CopyTurn} {s : State} (h : s.Inv) : Keeps (execCopyEntryPerforms turn s) := by
  unfold Machine.execCopyEntryPerforms
  split
  · exact .finish h.performOne
  · exact h.next

theorem State.Inv.execTileFillDone {t : TReg} {s : State} (h : s.Inv) : Keeps (execTileFillDone t s) := by
  unfold Machine.execTileFillDone
  split
  · exact h.next
  · dsimp only
    split
    · split
      next e3 => exact (((h.onHart.makeSlot.of_ok e3).onHart).count).next
      · exact h.next
    · exact h.onHart.next

theorem State.Inv.execTileSpillStart {t : TReg} {s : State} (h : s.Inv) : Keeps (execTileSpillStart t s) := by
  unfold Machine.execTileSpillStart
  dsimp only
  split
  · exact h.next
  · split
    · exact h.next
    · exact h.onHart.next

theorem State.Inv.execTileSpillDone {t : TReg} {s : State} (h : s.Inv) : Keeps (execTileSpillDone t s) := by
  unfold Machine.execTileSpillDone
  split
  · exact h.next
  · dsimp only
    split
    · split
      next e2 => exact ((h.onHart.writeAt.of_ok e2).onHart).next
      · exact h.onHart.terminateAtStop.next
    · exact h.onHart.next

theorem State.Inv.execSlotReclaim {t : TReg} {s : State} (h : s.Inv) : Keeps (execSlotReclaim t s) := by
  unfold Machine.execSlotReclaim
  dsimp only
  split
  · exact h.next
  · exact (State.Inv.ite h.freeSlot h).next

theorem State.Inv.execTransferReplay {s : State} (h : s.Inv) : Keeps (execTransferReplay s) := by
  unfold Machine.execTransferReplay
  split
  · exact h.onHart.next
  · exact h.next

theorem State.Inv.spillCtxs {s : State} {k : Hart} (h : s.Inv) : (s.spillCtxs k).Inv := by
  refine State.Inv.foldl (fun t c ht => State.Inv.foldl (fun u x hu => ?_) _ ht) _ h
  split
  · exact .ite hu.spillTile hu
  · exact hu

theorem State.Inv.execAccessPerforms {va : Word} {k : Nat} {s : State} (h : s.Inv) : Keeps (execAccessPerforms va k s) := by
  unfold Machine.execAccessPerforms
  refine .finish ?_
  dsimp only
  split
  · exact .pure h
  · split
    · exact .pure h
    · split
      next e2 => exact .pure ((h.onHart.performLate.of_ok e2).releaseFences)
      · exact .error h.onHart.lateFault

end Sys2Proof.Machine
end

section
/-! PROOFS of the invariant: power up, phasers, the governor and the vector queue. -/

namespace Sys2Proof.Machine

theorem State.Inv.execCarve {c : Cmd} {die way0 nway : Nat} {s : State} (h : s.Inv) : Keeps (execCarve c die way0 nway s) := by
  unfold Machine.execCarve
  split
  · exact h.next
  · exact h.command (fun _ hx => .ite hx.answer hx.update.post)

theorem State.Inv.execUncarve {c : Cmd} {handle : Word} {s : State} (h : s.Inv) : Keeps (execUncarve c handle s) := by
  unfold Machine.execUncarve
  split
  · exact h.next
  · exact h.command (fun _ hx => .ite hx.update.answer hx.refuse)

theorem State.Inv.onClusterAt {s : State} {n : Nat} {f : Cluster → Cluster} (h : s.Inv) : (s.onClusterAt n f).Inv :=
  .ite h.onCluster h.update

theorem State.Inv.execPool {c : Cmd} {cluster : Nat} {q : Fin 16} {qmin qcap : Nat} {s : State} (h : s.Inv) :
    Keeps (execPool c cluster q qmin qcap s) := by
  unfold Machine.execPool
  split
  · exact h.next
  · exact h.command (fun _ hx => .ite hx.refuse (.ite hx.onClusterAt.refuse hx.onClusterAt.answer))

theorem State.Inv.execSync {c : Cmd} {s : State} (h : s.Inv) : Keeps (execSync c s) := h.post.next

theorem State.Inv.execReplay {c : Cmd} {start : BitVec 32} {s : State} (h : s.Inv) : Keeps (execReplay c start s) := by
  unfold Machine.execReplay
  refine State.Inv.command ?_ ?_
  · exact h
  · intro t hx
    dsimp only
    split
    · exact .ite hx.answer hx.update.answer
    · exact hx.answer

theorem State.Inv.execCommandUnknown {c : Cmd} {op : CmdOpcode} {s : State} (h : s.Inv) :
    Keeps (execCommandUnknown c op s) := by
  unfold Machine.execCommandUnknown
  split
  · exact h.command (fun _ hx => hx.answer)
  · split
    · exact h.next
    · exact h.command (fun _ hx => hx.answer)

theorem State.Inv.execAttestationRequest {c : Cmd} {nonce : Word} {s : State} (h : s.Inv) :
    Keeps (execAttestationRequest c nonce s) := h.command (fun _ hx => hx.post)

theorem State.Inv.powered {s : State} {t : SelfTest} {g : ConfigImage} {ok : Bool} (h : s.Inv) : (s.powered t g ok).Inv where
  mem := Bytes.wf_filter _ _ h.mem
  leaves := fun _ hl => absurd hl List.not_mem_nil
  images := h.images
  baselines := fun _ hb => absurd hb List.not_mem_nil
  agenda := h.agenda

theorem State.Inv.execPowerUp {test : SelfTest} {config : ConfigImage} {signature : List Byte} {s : State} (h : s.Inv) :
    Keeps (execPowerUp test config signature s) :=
  (State.Inv.ite (.ite h.powered h.powered.post) ((State.Inv.ite h.powered h.powered.post).post)).next

theorem State.Inv.putPhaser {s : State} {p : Phaser} (h : s.Inv) : (s.putPhaser p).Inv := h.update

theorem State.Inv.phDone {s : State} {c : XReg} {code : Nat} {counter : BitVec 32} (h : s.Inv) :
    (s.phDone c code counter).Inv := h.setX.retire

theorem State.Inv.execPhnew {a c : XReg} {s : State} (h : s.Inv) : Keeps (execPhnew a c s) := by
  unfold Machine.execPhnew
  refine .finish (.bind h.noStrip fun _ _ => ?_)
  dsimp only
  generalize s.freeIndexes _ = free
  generalize BitVec.ofNat 32 _ = w
  split
  · exact .pure h.phDone
  · refine .pure (State.Inv.phDone ?_)
    exact h.update

theorem State.Inv.keepWakes {s : State} {p : Phaser} (h : s.Inv) : (s.keepWakes p).Inv := by
  refine State.Inv.foldl (fun t m ht => ?_) _ h
  split
  · exact ht.onBound
  · exact ht

theorem State.Inv.execPhdel {a c : XReg} {s : State} (h : s.Inv) : Keeps (execPhdel a c s) := by
  unfold Machine.execPhdel
  refine .finish ?_
  refine .bind h.noStrip fun x _ => ?_
  split
  · exact .pure h.phDone
  · exact .pure h.update.keepWakes.phDone

theorem State.Inv.execPhreg {m : PhMode} {a c : XReg} {s : State} (h : s.Inv) : Keeps (execPhreg m a c s) := by
  unfold Machine.execPhreg
  refine .finish ?_
  refine .bind h.noStrip fun x _ => ?_
  split
  · exact .pure h.phDone
  · exact .ite (.pure h.phDone) (.ite (.pure h.phDone) (.pure h.putPhaser.phDone))

theorem State.Inv.execPhdrop {a c : XReg} {s : State} (h : s.Inv) : Keeps (execPhdrop a c s) := by
  unfold Machine.execPhdrop
  refine .finish ?_
  refine .bind h.noStrip fun x _ => ?_
  split
  · exact .pure h.phDone
  · exact .ite (.pure h.phDone) (.pure h.putPhaser.phDone)

theorem State.Inv.phCaller {s : State} {a c : XReg} {ok : Member → Bool} (h : s.Inv) :
    Ends State.Inv (fun _ => True) (s.phCaller a c ok) := by
  unfold State.phCaller
  split
  · exact .error h.onHart.phDone
  · exact .error h.phDone
  · split
    · exact .error h.phDone
    · exact .ite (.ok trivial) (.error h.phDone)

theorem State.Inv.phWoken {s : State} {p : Phaser} {c : XReg} {k : BitVec 32} (h : s.Inv) : (s.phWoken p c k).Inv :=
  h.putPhaser.phDone

theorem State.Inv.phAwait {s : State} {p : Phaser} {c : XReg} (h : s.Inv) : (s.phAwait p c).Inv := by
  unfold State.phAwait
  split
  · exact h
  · split
    · exact h.phWoken
    · exact .ite h.phWoken h.putPhaser

theorem State.Inv.phStall {s : State} {p : Phaser} {m : Member} {sw : Bool} (h : s.Inv) :
    Ends State.Inv (fun _ => True) (s.phStall p m sw) := .ite (.error h.putPhaser) (.ok trivial)

theorem State.Inv.execPhsig {a c : XReg} {s : State} (h : s.Inv) : Keeps (execPhsig a c s) := by
  unfold Machine.execPhsig
  refine .finish ?_
  refine .bind h.noStrip fun x _ => ?_
  refine .bind h.phCaller fun x' _ => ?_
  split
  · exact .pure h.putPhaser.phDone
  · exact .bind h.phStall (fun _ _ => .pure h.putPhaser.phDone)

theorem State.Inv.execPhwait {a c : XReg} {s : State} (h : s.Inv) : Keeps (execPhwait a c s) :=
  .finish (.bind h.noStrip (fun _ _ => .bind h.phCaller (fun _ _ => .pure h.phAwait)))

theorem State.Inv.execPhsw {a c : XReg} {s : State} (h : s.Inv) : Keeps (execPhsw a c s) := by
  unfold Machine.execPhsw
  refine .finish ?_
  refine .bind h.noStrip fun x _ => ?_
  exact .bind h.phCaller (fun _ _ => .ite (.pure h.phAwait) (.bind h.phStall (fun _ _ => .pure h.phAwait)))

theorem State.Inv.takeBack {s : State} {floors : Bool} {need : Nat} {ns : List Nat} (h : s.Inv) :
    (s.takeBack floors need ns).Inv := by
  induction ns generalizing s need with
  | nil => exact h
  | cons n r ih =>
    unfold State.takeBack
    exact .ite h (ih (.ite h h.update))

theorem State.Inv.heatFreed {s : State} (h : s.Inv) : s.heatFreed.Inv := .ite h.takeBack h.takeBack.takeBack

theorem State.Inv.govern {s : State} {granted : Nat} (h : s.Inv) : (s.govern granted).Inv := by
  unfold State.govern
  exact State.Inv.onCluster h.heatFreed.update

theorem State.Inv.execDln {a b : XReg} {s : State} (h : s.Inv) : Keeps (execDln a b s) :=
  .finish (.bind h.computeOnly (fun _ _ => .pure h.onHart.govern.retire))

theorem State.Inv.execDlnend {c : XReg} {s : State} (h : s.Inv) : Keeps (execDlnend c s) :=
  .finish (.bind h.computeOnly (fun _ _ => .pure h.onHart.setX.retire))

theorem State.Inv.setFloor {s : State} {floor : Option Nat} (h : s.Inv) : (s.setFloor floor).Inv := by
  unfold State.setFloor
  split
  · exact h.update
  · exact h

theorem State.Inv.execGovernorDecision {share : HeatShare} {s : State} (h : s.Inv) : Keeps (execGovernorDecision share s) := by
  unfold Machine.execGovernorDecision
  dsimp only
  split
  · exact h.setFloor.govern.onCluster.next
  · exact h.setFloor.next

theorem State.Inv.execOperatingPointSettles {s : State} (h : s.Inv) : Keeps (execOperatingPointSettles s) := by
  unfold Machine.execOperatingPointSettles
  split
  · exact h.onCluster.next
  · exact h.next

theorem State.Inv.execThrottleAdjust {up : Bool} {s : State} (h : s.Inv) : Keeps (execThrottleAdjust up s) := h.onCluster.next

theorem State.Inv.execSupplyDroop {span : DroopSpan} {s : State} (h : s.Inv) : Keeps (execSupplyDroop span s) :=
  h.onCluster.next

theorem State.Inv.runVector {i : Instr} {s : State} (h : s.Inv) : ∀ r, runVector i s = some r → Keeps r := by
  have hk : ∀ {q : Out}, Keeps q → ∀ r, some q = some r → Keeps r := fun hq _ e => Option.some.inj e ▸ hq
  cases i with
  | vadd => exact hk h.execVadd
  | vsub => exact hk h.execVsub
  | vmul => exact hk h.execVmul
  | vmulh => exact hk h.execVmulh
  | vand => exact hk h.execVand
  | vor => exact hk h.execVor
  | vxor => exact hk h.execVxor
  | vsll => exact hk h.execVsll
  | vsrl => exact hk h.execVsrl
  | vsra => exact hk h.execVsra
  | vmin => exact hk h.execVmin
  | vmax => exact hk h.execVmax
  | vcmp => exact hk h.execVcmp
  | vsel => exact hk h.execVsel
  | vred => exact hk h.execVred
  | vfadd => exact hk h.execVfadd
  | vfsub => exact hk h.execVfsub
  | vfmul => exact hk h.execVfmul
  | vfma => exact hk h.execVfma
  | vfnma => exact hk h.execVfnma
  | vfdiv => exact hk h.execVfdiv
  | vfsqrt => exact hk h.execVfsqrt
  | vfmin => exact hk h.execVfmin
  | vfmax => exact hk h.execVfmax
  | vfcmp => exact hk h.execVfcmp
  | vfclass => exact hk h.execVfclass
  | vfred => exact hk h.execVfred
  | vtbl => exact hk h.execVtbl
  | vcvt => exact hk h.execVcvt
  | vfcvt => exact hk h.execVfcvt
  | vlnspack => exact hk h.execVlnspack
  | vlnsunpack => exact hk h.execVlnsunpack
  | vlnsmul => exact hk h.execVlnsmul
  | vlnsadd => exact hk h.execVlnsadd
  | vscale => exact hk h.execVscale
  | vperm => exact hk h.execVperm
  | vslideup => exact hk h.execVslideup
  | vslidedn => exact hk h.execVslidedn
  | vcompress => exact hk h.execVcompress
  | vexpand => exact hk h.execVexpand
  | vbcast => exact hk h.execVbcast
  | vmv => exact hk h.execVmv
  | vidx => exact hk h.execVidx
  | pand => exact hk h.execPand
  | por => exact hk h.execPor
  | pxor => exact hk h.execPxor
  | pnot => exact hk h.execPnot
  | pcnt => exact hk h.execPcnt
  | pfirst => exact hk h.execPfirst
  | vld => exact hk h.execVld
  | vlds => exact hk h.execVlds
  | vldx => exact hk h.execVldx
  | vldff => exact hk h.execVldff
  | vldsp => exact hk h.execVldsp
  | qld => exact hk h.execQld
  | vst => exact hk h.execVst
  | vsts => exact hk h.execVsts
  | vstx => exact hk h.execVstx
  | vstsp => exact hk h.execVstsp
  | vamoAdd => exact hk h.execVamoAdd
  | vamoMin => exact hk h.execVamoMin
  | vamoMax => exact hk h.execVamoMax
  | vamoAnd => exact hk h.execVamoAnd
  | vamoOr => exact hk h.execVamoOr
  | vamoXor => exact hk h.execVamoXor
  | vamoSwap => exact hk h.execVamoSwap
  | mma => exact hk h.execMma
  | mmasp => exact hk h.execMmasp
  | mmats => exact hk h.execMmats
  | mzero => exact hk h.execMzero
  | mld => exact hk h.execMld
  | mst => exact hk h.execMst
  | mldsp => exact hk h.execMldsp
  | mstsp => exact hk h.execMstsp
  | mv2t => exact hk h.execMv2t
  | mt2v => exact hk h.execMt2v
  | mfree => exact hk h.execMfree
  | mpref => exact hk h.execMpref
  | mepi => exact hk h.execMepi
  | msend => exact hk h.execMsend
  | mattach => exact hk h.execMattach
  | mdetach => exact hk h.execMdetach
  | mmov => exact hk h.execMmov
  | mtrans => exact hk h.execMtrans
  | _ => exact fun _ e => nomatch e

theorem State.Inv.runQueued {i : Instr} {s : State} {r : Out} (h : s.Inv) (hr : runQueued i s = some r) : Keeps r := by
  unfold Machine.runQueued at hr
  split at hr
  · cases hr
    exact (State.Inv.ite h.dropLines h).retire.next
  · exact h.runVector r hr

theorem State.Inv.atQueued {s : State} {q : Queued} (h : s.Inv) : (s.atQueued q).Inv := h.onHart.update

theorem State.Inv.retireOldest {s : State} (h : s.Inv) : Ends State.Inv State.Inv s.retireOldest := by
  unfold State.retireOldest
  split
  · exact .ok h
  · dsimp only
    split
    next t e =>
      have ht : ({ t with how := s.how } : State).Inv := (h.atQueued.runQueued e t rfl).update
      split
      · exact .error ht
      · exact .ite (.ok ht.onHart) (.error ht.onHart)
    · exact .ok h.onHart

theorem State.Inv.retireQueue {s : State} {n : Nat} (h : s.Inv) : Ends State.Inv State.Inv (s.retireQueue n) := by
  induction n generalizing s with
  | zero => exact .ok h
  | succ n ih =>
    unfold State.retireQueue
    split
    next e => exact ih (h.retireOldest.of_ok e)
    next e => exact .error (h.retireOldest.of_error e)

theorem State.Inv.settleStop {s : State} (h : s.Inv) : Keeps s.settleStop := by
  unfold State.settleStop
  split
  · exact .finish h.drainLate
  · split
    next e1 => exact (h.retireOldest.of_ok e1).next
    next e1 => exact (State.Inv.ite h.squash (h.retireOldest.of_error e1)).next

theorem State.Inv.settleLeave {s : State} {n : Nat} (h : s.Inv) : Ends State.Inv State.Inv (s.settleLeave n) := by
  induction n generalizing s with
  | zero => exact h.drainLate
  | succ n ih =>
    unfold State.settleLeave
    split
    next e => exact ih (h.retireOldest.of_ok e)
    next e => exact .ite h.squash.drainLate (.error (h.retireOldest.of_error e))

theorem State.Inv.retireTurn {s : State} (h : s.Inv) : Keeps s.retireTurn := by
  unfold State.retireTurn
  split
  · exact .finish h.retireOldest
  · exact h.next

theorem State.Inv.execQueuedInstructionRetires {pc : Word} {ahead : Nat} {s : State} (h : s.Inv) :
    Keeps (execQueuedInstructionRetires pc ahead s) := by
  unfold Machine.execQueuedInstructionRetires
  split
  · exact h.retireTurn
  · exact h.next

theorem State.Inv.turnElems {s : State} {es : List Nat} (h : s.Inv) : (s.turnElems es).Inv := by
  unfold State.turnElems
  split
  · exact h
  · dsimp only
    split
    · exact h
    · split
      next t e =>
        have ht : ({ t with how := s.how } : State).Inv := (h.atQueued.update.runQueued e t rfl).update
        exact .ite ht ht.onHart
      · exact h

theorem State.Inv.takePlace {s : State} {i : Instr} (h : s.Inv) : (s.takePlace i).Inv := by
  unfold State.takePlace
  split
  · exact h.reachQueue
  · exact h

theorem State.Inv.takeAtIssue {s : State} {i : Instr} (h : s.Inv) : (s.takeAtIssue i).2.Inv := by
  unfold State.takeAtIssue
  split
  · split
    next e => exact h.epiData.of_ok e
    · exact h
  · exact h

theorem State.Inv.enterQueue {s t : State} {i : Instr} (h : s.Inv) (ht : s.enterQueue i = some t) : t.Inv := by
  unfold State.enterQueue at ht
  split at ht
  · cases ht
  · split at ht
    · cases ht
    · split at ht
      · split at ht
        · cases ht
          exact h.takeAtIssue.takePlace.pushQueue.retire
        · cases ht
      · cases ht

theorem State.Inv.execCheckpointStream {s : State} (h : s.Inv) : Keeps (execCheckpointStream s) :=
  (State.Inv.ite h.streamed h).next

theorem State.Inv.execPreemptionRequest {s : State} (h : s.Inv) : Keeps (execPreemptionRequest s) := by
  unfold Machine.execPreemptionRequest
  split
  · exact h.stopHart.next
  · exact h.next

theorem State.Inv.preempted {s : State} (h : s.Inv) : s.preempted.Inv := h.update.checkpoint.onHart

theorem State.Inv.leaveHart {s : State} (h : s.Inv) : s.leaveHart.Inv := by
  unfold State.leaveHart
  split
  next e => exact (h.settleLeave.of_ok e).preempted
  next e => exact h.settleLeave.of_error e

theorem State.Inv.settled {s : State} {tenant : Nat} (h : s.Inv) : (s.settled tenant).Inv :=
  .ite (((State.Inv.foldl (fun _ _ hx => hx.spillCtxs) _ h).update).stopOver) h

theorem State.Inv.execPreemptionComplete {s : State} (h : s.Inv) : Keeps (execPreemptionComplete s) := by
  unfold Machine.execPreemptionComplete
  split
  · exact h.leaveHart.settled.next
  · exact h.next

end Sys2Proof.Machine
end

section
/-! PROOFS of the invariant: quiesce, images, restore, retention, and the words of a remote issuer. -/

namespace Sys2Proof.Machine

theorem State.Inv.putTenant {s : State} {t : Tenant} (h : s.Inv) : (s.putTenant t).Inv := h.update

theorem State.Inv.stopOne {s : State} (h : s.Inv) : s.stopOne.Inv := .ite h.stopHart.leaveHart h.stopHart

theorem State.Inv.stopClaims {s : State} {t : Nat} (h : s.Inv) : (s.stopClaims t).Inv :=
  (State.Inv.foldl (fun _ _ hx => hx.endClaim) _ h).update

theorem State.Inv.execQuiesceStop {c : Cmd} {s : State} (h : s.Inv) : Keeps (execQuiesceStop c s) :=
  h.command (fun _ hx => .ite hx.answer (((hx.putTenant.atHarts (fun _ hx' => hx'.stopOne)).stopClaims).settled))

/-- The parts of a leaf at a page boundary stand at page boundaries. -/
theorem Leaf.split_aligned {l k : Leaf} (h : l.aligned) (hk : k ∈ l.split) : k.aligned := by
  obtain ⟨n, -, rfl⟩ := List.mem_map.1 hk
  simp only [Leaf.aligned] at h ⊢
  omega

/-- The bytes of a page are canonical, under keys below a page's size. -/
theorem State.Inv.pageData {s : State} {l : Leaf} (h : s.Inv) :
    Bytes.wf (s.pageData l) = true ∧ ∀ c ∈ s.pageData l, c.1 < 65536 := by
  unfold State.pageData
  split
  · exact Bytes.wf_slice _ _ _ h.mem
  · exact ⟨rfl, fun c hc => absurd hc List.not_mem_nil⟩

/-- A tenant's pages are well formed (R282). -/
theorem State.Inv.pagesOfTenant {s : State} {t : Nat} (h : s.Inv) : ∀ p ∈ s.pagesOfTenant t, p.ok := by
  intro p hp
  obtain ⟨k, hk, rfl⟩ := List.mem_map.1 hp
  obtain ⟨l, hl, hkl⟩ := List.mem_flatMap.1 hk
  have hk : k.aligned := Leaf.split_aligned (h.leaves l (List.mem_of_mem_filter hl)) hkl
  exact ⟨h.pageData.1, h.pageData.2, hk⟩

/-- The pages an incremental image carries are its own or the base's, whose unmapped ones hold no byte (R282). -/
theorem changedPages_ok {base : Baseline} {now : List PageImage} (hb : ∀ p ∈ base.pages, p.ok) (hn : ∀ p ∈ now, p.ok) :
    ∀ p ∈ changedPages base now, p.ok := by
  intro p hp
  rcases List.mem_append.1 hp with hp | hp
  · exact hn p (List.mem_of_mem_filter hp)
  · obtain ⟨b, hb', rfl⟩ := List.mem_map.1 hp
    exact ⟨rfl, fun c hc => absurd hc List.not_mem_nil, (hb b (List.mem_of_mem_filter hb')).2.2⟩

theorem State.Inv.baselineOf {s : State} {t seq : Nat} (h : s.Inv) : ∀ p ∈ (s.baselineOf t seq).pages, p.ok := by
  unfold State.baselineOf
  cases hf : s.baselines.find? fun b => b.tenant == t && b.seq == seq with
  | none => exact fun p hp => absurd hp List.not_mem_nil
  | some b => exact h.baselines b (List.mem_of_find?_eq_some hf)

/-- The pages of an image sealed here are well formed (R281, R282). -/
theorem State.Inv.imageOf {s : State} {t : Tenant} {incremental : Bool} {base : Nat} (h : s.Inv) :
    ∀ p ∈ (s.imageOf t incremental base).pages, p.ok := by
  dsimp only [State.imageOf]
  split
  · exact changedPages_ok h.baselineOf h.pagesOfTenant
  · exact h.pagesOfTenant

/-- An image more, and a baseline more, with pages well formed. -/
theorem State.Inv.withImage {s : State} {i : Image} {b : Baseline} (h : s.Inv) (hi : ∀ p ∈ i.pages, p.ok)
    (hb : ∀ p ∈ b.pages, p.ok) : ({ s with images := i :: s.images, baselines := b :: s.baselines } : State).Inv where
  mem := h.mem
  leaves := h.leaves
  images := List.forall_mem_cons.2 ⟨hi, h.images⟩
  baselines := List.forall_mem_cons.2 ⟨hb, h.baselines⟩
  agenda := h.agenda

theorem State.Inv.closeIngress {s : State} {t : Tenant} (h : s.Inv) : (s.closeIngress t).Inv :=
  (State.Inv.foldl (fun _ _ hx => hx.discardPut) _ h.update).putTenant

theorem State.Inv.writeImage {s : State} {t : Tenant} {i : Image} {fid addr : Nat} (h : s.Inv) (hi : ∀ p ∈ i.pages, p.ok) :
    (s.writeImage t i fid addr).Inv := h.writeOutside.withImage hi h.pagesOfTenant

theorem State.Inv.execQuiesceSeal {c : Cmd} {incremental : Bool} {base : Nat} {addr : Word} {dest : SealDest} {s : State}
    (h : s.Inv) : Keeps (execQuiesceSeal c incremental base addr dest s) :=
  h.command fun _ ht =>
    .ite ht.answer (.ite ht.closeIngress.answer (ht.closeIngress.writeImage ht.closeIngress.imageOf).putTenant.answer)

theorem State.Inv.resumeHere {s : State} {t : Nat} (h : s.Inv) : (s.resumeHere t).Inv := by
  unfold State.resumeHere
  split
  · exact .ite h h.enterAgain
  · exact h

theorem State.Inv.rebindAll {s : State} {t : Nat} (h : s.Inv) : (s.rebindAll t).Inv := h.atHarts (fun _ hx => hx.resumeHere)

theorem State.Inv.execQuiesceResume {c : Cmd} {s : State} (h : s.Inv) : Keeps (execQuiesceResume c s) :=
  h.command (fun _ hx => .ite hx.answer hx.putTenant.rebindAll.answer)

theorem State.Inv.clearTenant {s : State} {t : Nat} (h : s.Inv) : (s.clearTenant t).Inv := h.update

theorem State.Inv.dropLaunches {s : State} {t : Nat} (h : s.Inv) : (s.dropLaunches t).Inv := h.update

theorem State.Inv.postEnds {s : State} {t : Nat} (h : s.Inv) : (s.postEnds t).Inv := by
  refine State.Inv.foldl (fun u l hu => ?_) _ h
  split
  · exact hu.post
  · exact hu.post

theorem State.Inv.execQuiesceDiscard {c : Cmd} {s : State} (h : s.Inv) : Keeps (execQuiesceDiscard c s) :=
  h.command (fun _ hx => .ite hx.answer hx.clearTenant.postEnds.dropLaunches.putTenant.answer)

/-- A leaf without a tenant stands where it stood. -/
theorem Leaf.without_va {l k : Leaf} {t : Nat} (h : l.without t = some k) : k.va = l.va := by
  unfold Leaf.without at h
  dsimp only at h
  split at h
  · cases h
  · cases h
    rfl

theorem State.Inv.dropPages {s : State} {t : Nat} (h : s.Inv) : (s.dropPages t).Inv := by
  have hs : ∀ k ∈ s.leaves.filterMap fun l => if l.tenants.contains t then l.without t else some l, k.aligned := by
    intro k hk
    obtain ⟨l, hl, hlk⟩ := List.mem_filterMap.1 hk
    split at hlk
    · rw [Leaf.aligned, Leaf.without_va hlk]
      exact h.leaves l hl
    · cases hlk
      exact h.leaves k hl
  exact (h.withLeaves hs).update.keepLines

theorem State.Inv.cleared {s : State} {i : Image} (h : s.Inv) : (s.cleared i).Inv :=
  ((State.Inv.ite h h.dropPages).clearTenant).dropLaunches

theorem State.Inv.splitAt {s : State} {asid va : Nat} (h : s.Inv) : (s.splitAt asid va).Inv := by
  unfold State.splitAt
  split
  next l _ =>
    refine .ite h (h.withLeaves fun k hk => ?_)
    obtain ⟨l', hl', hk'⟩ := List.mem_flatMap.1 hk
    split at hk'
    · exact Leaf.split_aligned (h.leaves l' hl') hk'
    · cases List.mem_singleton.1 hk'
      exact h.leaves k hl'
  · exact h

theorem State.Inv.fillPage {s : State} {l : Leaf} {p : PageImage} (h : s.Inv) : (s.fillPage l p).Inv :=
  .ite (h.withMem (Bytes.wf_place _ _ _ _ h.mem)) h

/-- One leaf goes, or changes anything but where it stands. -/
theorem State.Inv.changeLeaf {s : State} {l : Leaf} {k : Option Leaf} (h : s.Inv) (hk : ∀ x, k = some x → x.va = l.va) :
    ({ s with leaves := s.leaves.filterMap fun x => if x = l then k else some x } : State).Inv :=
  h.withLeaves fun y hy => by
    obtain ⟨x, hx, hxy⟩ := List.mem_filterMap.1 hy
    split at hxy
    next e =>
      subst e
      rw [Leaf.aligned, hk y hxy]
      exact h.leaves x hx
    · cases hxy
      exact h.leaves y hx

theorem State.Inv.installPage {s : State} {asid t frame : Nat} {p : PageImage} (h : s.Inv) (hp : p.leaf.aligned) :
    (s.installPage asid t frame p).Inv := by
  unfold State.installPage
  dsimp only
  split
  · split
    · exact (h.splitAt.changeLeaf fun _ => Leaf.without_va).touch
    · split
      · exact (h.splitAt.changeLeaf fun _ e => Option.some.inj e ▸ rfl).touch
      · exact (h.splitAt.changeLeaf fun _ e => Option.some.inj e ▸ rfl).touch.fillPage
  · refine .ite h.splitAt (State.Inv.fillPage (State.Inv.touch (h.splitAt.withLeaf ?_)))
    exact hp

theorem State.Inv.installPages {s : State} {r : Renaming} {i : Image} {areas : List Word} (h : s.Inv)
    (hi : ∀ p ∈ i.pages, p.ok) : (s.installPages r i areas).Inv := by
  unfold State.installPages
  dsimp only
  refine State.Inv.keepLines (List.foldlRecOn i.pages.zipIdx _ h fun t ht x hx => ht.installPage ?_)
  exact (hi x.1 (List.fst_mem_of_mem_zipIdx hx)).2.2

theorem State.Inv.withUnits {s : State} {us : List (HartName × Nat)} (h : s.Inv) : (s.withUnits us).Inv := h.update

theorem State.Inv.remapped {s : State} {m : List Nat} (h : s.Inv) : (s.remapped m).Inv :=
  ((State.Inv.foldl (fun _ _ hx => hx.onClusterAt) _ h).withUnits).update

theorem State.Inv.enqueueAll {s : State} {rs : List TaskRec} (h : s.Inv) : (s.enqueueAll rs).Inv := by
  unfold State.enqueueAll
  exact State.Inv.update (State.Inv.foldl (fun t r ht => .ite ht.update ht.enqueueTask) _ h)

theorem State.Inv.rebuild {s : State} {i : Image} {m : List Nat} {areas : List Word} (h : s.Inv) (hi : ∀ p ∈ i.pages, p.ok) :
    (s.rebuild i m areas).Inv := by
  unfold State.rebuild
  dsimp only
  have hs := State.Inv.enqueueAll (rs := i.queue.map (s.namesFor i).onTask)
    (State.Inv.foldl (f := fun t k => t.onClusterAt k.num ((s.namesFor i).onCluster k)) (fun _ _ ht => ht.onClusterAt) i.clusters
      ((h.cleared (i := i)).installPages (r := s.namesFor i) (areas := areas) hi |>.remapped (m := m)))
  refine (hs.withMem ?_).update
  exact List.foldlRecOn (motive := fun b => Bytes.wf b = true) _ _ hs.mem fun b hb x _ => Bytes.wf_place b _ _ _ hb

theorem State.Inv.askImage {s : State} {fid : Nat} {addr : Word} (h : s.Inv) : (s.askImage fid addr).Inv := .ite h h.send

/-- An image that is found is one that was sealed here or has arrived. -/
theorem State.readImage_mem {s : State} {tenant fid addr : Nat} {i : Image} (h : s.readImage tenant fid addr = .ok i) :
    i ∈ s.images := by
  unfold State.readImage at h
  dsimp only at h
  split at h
  · cases h
  · split at h
    · cases h
    · split at h
      · cases h
      · split at h
        next e =>
          cases h
          exact List.mem_of_find?_eq_some e
        · cases h

theorem State.restoreStatus_mem {s : State} {c : Cmd} {fid addr : Nat} {r : RestoreChoice} {i : Image}
    (h : s.restoreStatus c fid addr r = .ok i) : i ∈ s.images := by
  unfold State.restoreStatus at h
  split at h
  · cases h
  · split at h
    · cases h
    · split at h
      · cases h
      next e =>
        split at h
        · cases h
          exact State.readImage_mem e
        · cases h

theorem State.Inv.execRestore {c : Cmd} {addr : Word} {fid : Nat} {final : Bool} {r : RestoreChoice} {s : State} (h : s.Inv) :
    Keeps (execRestore c addr fid final r s) := by
  unfold Machine.execRestore
  split
  · exact h.command fun _ ht => ht.askImage.answer
  next i e =>
    split
    · exact h.next
    · refine h.command fun t ht => ?_
      have hr := (ht.askImage (fid := fid) (addr := addr)).rebuild (m := r.map) (areas := r.areas)
        (h.images i (State.restoreStatus_mem e))
      exact (State.Inv.ite hr.putTenant.rebindAll hr.putTenant).answer

theorem State.Inv.retained {s : State} {restored : Bool} (h : s.Inv) : (s.retained restored).Inv := by
  unfold State.retained
  split
  · exact .ite (.ite h.abandon.onHart h.abandon.update.onHart) h.takeTval.terminateAtStop
  · exact h.takeTval.terminateAtStop

theorem State.Inv.execRetentionExit {lost : Bool} {restored : List HartName} {s : State} (h : s.Inv) :
    Keeps (execRetentionExit lost restored s) := by
  unfold Machine.execRetentionExit
  split
  · exact (h.atHarts (fun _ hx => hx.retained)).next
  · exact h.next

theorem State.Inv.remoteChecks {s : State} {i : Instr} (h : s.Inv) : Ends State.Inv (fun _ => True) (s.remoteChecks i) :=
  .bind h.computeOnly (fun _ _ => h.noStrip)

theorem State.Inv.issuePut {s : State} {w : Word} {data : List Byte} {carried : List (BitVec 16)} {tok : BitVec 16}
    {slot : Fin 64} (h : s.Inv) :
    (s.issuePut w data carried tok slot).Inv := .ite h.onHart.failOp (.ite h.openOp.update.sendPut h.openOp.update)

theorem State.Inv.execRput {cl : Slot} {a b c : XReg} {s : State} (h : s.Inv) : Keeps (execRput cl a b c s) := by
  unfold Machine.execRput
  refine .finish ?_
  refine .bind h.remoteChecks fun x _ => ?_
  refine .bind h.checkRead fun x' _ => ?_
  split
  · exact .pure h.setX.retire
  · split
    · exact .error h
    · exact .bind h.load (fun _ hx2 => .pure hx2.onHart.issuePut.setX.retire)

theorem State.Inv.execRget {cl : Slot} {a b c : XReg} {s : State} (h : s.Inv) : Keeps (execRget cl a b c s) := by
  unfold Machine.execRget
  refine .finish ?_
  refine .bind h.remoteChecks fun x _ => ?_
  refine .bind h.checkWrite fun x' _ => ?_
  split
  · exact .pure h.setXL.retire
  · split
    · exact .pure h.setXL.retire
    · exact .ite (.pure h.setXL.failOp.retire) (.pure h.setXL.openOp.update.send.retire)

theorem State.Inv.execRamo {cl : Slot} {a b c : XReg} {s : State} (h : s.Inv) : Keeps (execRamo cl a b c s) := by
  unfold Machine.execRamo
  refine .finish ?_
  refine .bind h.remoteChecks fun x _ => ?_
  dsimp only
  split
  · exact .pure h.setXL.retire
  · exact .pure h.setXL.failOp.retire
  · split
    · exact .pure h.setXL.failOp.retire
    · exact .ite (.pure h.setXL.failOp.retire) (.ite (.pure h.setXL.failOp.retire) (.pure h.openOp.onHart.send))

theorem State.Inv.ldredZero {s : State} {dst n : Nat} {c : XReg} {status : Nat} (h : s.Inv) :
    Ends State.Inv State.Inv (s.ldredZero dst n c status) := .map h.writeMem (fun _ hx => hx.setX.retire)

theorem State.Inv.execRldred {cl : Slot} {a b c : XReg} {s : State} (h : s.Inv) : Keeps (execRldred cl a b c s) := by
  unfold Machine.execRldred
  refine .finish ?_
  refine .bind h.remoteChecks fun x _ => ?_
  refine .bind h.checkWrite fun x' _ => ?_
  dsimp only
  split
  · exact h.ldredZero
  · split
    · exact .pure h.setX.retire
    · exact .ite h.ldredZero (.pure ((State.Inv.foldl (fun _ _ hx2 => .ite hx2 hx2.send) _ h.takeName).onHart))

theorem State.Inv.execRwait {a b c : XReg} {s : State} (h : s.Inv) : Keeps (execRwait a b c s) := by
  unfold Machine.execRwait
  refine .finish ?_
  refine .bind h.remoteChecks fun x _ => ?_
  dsimp only
  split
  · exact .pure h.dropLines.setX.retire
  · exact .bind h.stopIf (fun _ _ => .pure ((State.Inv.ite h.setX.dropLines.onWindow h.setX.dropLines).retire))

theorem State.Inv.execTkstat {a c : XReg} {s : State} (h : s.Inv) : Keeps (execTkstat a c s) :=
  .finish (.bind h.remoteChecks (fun _ _ => .pure h.setX.retire))

end Sys2Proof.Machine
end

section
/-! PROOFS of the invariant: the ends of remote operations, every instruction, every turn, and the step. -/

namespace Sys2Proof.Machine

theorem Bytes.wf_atomicAt {m : Bytes} {rs : List (Nat × Nat)} {op : AmoOp} {w64 : Bool} {v : Word} (h : Bytes.wf m = true) :
    Bytes.wf (atomicAt m rs op w64 v) = true := Bytes.wf_putRuns _ _ _ h

theorem State.Inv.execRemoteRequestServed {r : RemoteReq} {s : State} (h : s.Inv) : Keeps (execRemoteRequestServed r s) := by
  unfold Machine.execRemoteRequestServed
  split
  · exact h.next
  · dsimp only
    split
    · exact h.hear.send.next
    · split
      · exact h.hear.send.walkFault.next
      · split
        · exact h.hear.count.send.next
        · exact h.hear.count.send.next
        · have hs := h.hear (fid := r.src.fid)
          refine State.Inv.next (State.Inv.touch ?_)
          exact ⟨Bytes.wf_atomicAt hs.mem, hs.count.leaves, hs.images, hs.baselines, hs.agenda⟩

theorem State.Inv.tileArrives {s : State} {h : Hart} {t : Nat} {data : List Byte} (hs : s.Inv) : (s.tileArrives h t data).Inv :=
  .ite hs.onTask hs.onTask.spillTile

theorem State.Inv.execMsendReceived {m : TileMsg} {s0 : State} (h : s0.Inv) : Keeps (execMsendReceived m s0) := by
  unfold Machine.execMsendReceived
  split
  · exact h.next
  · dsimp only
    split
    · exact h.hear.send.next
    · exact h.hear.tileArrives.onWindow.send.next

theorem State.Inv.touchFrames {s : State} {addr n : Nat} (h : s.Inv) : (s.touchFrames addr n).Inv :=
  State.Inv.foldl (fun _ _ hx => .ite hx.touch hx) _ h

theorem State.Inv.execUalinkRequest {src : Party} {addr : Nat} {k : AccessKind} {s : State} (h : s.Inv) :
    Keeps (execUalinkRequest src addr k s) := by
  unfold Machine.execUalinkRequest
  dsimp only
  split
  · exact h.next
  · split
    · exact h.hear.send.next
    · exact (h.hear.withMem (Bytes.wf_putRuns _ _ _ h.hear.mem)).touchFrames.send.next
    · exact (h.hear.withMem (Bytes.wf_atomicAt h.hear.mem)).touchFrames.send.next

theorem State.Inv.execRgetComplete {ticket : Nat} {r : Reply} {s : State} (h : s.Inv) :
    Keeps (execRgetComplete ticket r s) := by
  unfold Machine.execRgetComplete
  split
  · exact h.next
  · dsimp only
    split
    · exact h.hear.update.next
    · split
      · exact h.hear.update.closeOp.next
      · split
        · exact h.next
        · split
          next e3 => exact ((h.hear.update.writeAt.of_ok e3).closeOp).next
          · exact h.hear.update.closeOp.endOwner.next

theorem State.Inv.answered {s : State} (h : s.Inv) : s.answered.Inv := h.onHart

theorem State.Inv.hearReply {s : State} {peer : Nat} {r : Reply} (h : s.Inv) : (s.hearReply peer r).Inv := .ite h h.hear

theorem State.Inv.hearReplies {s : State} {peers : List Nat} {rs : List Reply} (h : s.Inv) : (s.hearReplies peers rs).Inv :=
  State.Inv.foldl (fun _ _ hx => hx.hearReply) _ h

theorem State.Inv.execRamoComplete {r : Reply} {s : State} (h : s.Inv) : Keeps (execRamoComplete r s) := by
  unfold Machine.execRamoComplete
  split
  · dsimp only
    split
    · refine State.Inv.next ?_
      refine State.Inv.retire ?_
      refine State.Inv.closeOp ?_
      split
      · exact h.answered.hearReply.setX.setX
      · exact h.answered.hearReply.setX
    · split
      · exact h.next
      · refine State.Inv.next ?_
        refine State.Inv.retire ?_
        refine State.Inv.closeOp ?_
        split
        · exact h.answered.hearReply.setX.setX
        · exact h.answered.hearReply.setX
  · exact h.next

theorem State.Inv.execRldredComplete {rs : List Reply} {s : State} (h : s.Inv) : Keeps (execRldredComplete rs s) := by
  unfold Machine.execRldredComplete
  split
  · dsimp only
    split
    · exact h.next
    · exact .finish (.bind h.answered.hearReplies.writeMem (fun _ hx => .pure hx.setX.onHart.retire))
  · exact h.next

theorem State.Inv.execMsendCompletes {win ticket code : Nat} {s : State} (h : s.Inv) :
    Keeps (execMsendCompletes win ticket code s) := by
  unfold Machine.execMsendCompletes
  split
  · exact (State.Inv.ite h.hear.update h.hear.update.closeOp).next
  · exact h.next

theorem State.Inv.losePut {s : State} {p : PutRec} (h : s.Inv) : (s.losePut p).Inv := h.closeOp.failPut

theorem State.Inv.execPeerAbsent {last : LastReached} {s : State} (h : s.Inv) : Keeps (execPeerAbsent last s) := by
  unfold Machine.execPeerAbsent
  dsimp only
  split
  · exact h.next
  · exact ((State.Inv.foldl (fun _ _ hx => hx.closeOp) _
      (State.Inv.foldl (fun _ _ hx => hx.closeOp) _ (State.Inv.foldl (fun _ _ hx => hx.losePut) _ h.update))).update).next

theorem State.Inv.scalar {s : State} {d : XReg} {w : Word} (h : s.Inv) : Keeps (s.scalar d w) := h.setX.retire.next

theorem State.Inv.execAdd {d a b : XReg} {s : State} (h : s.Inv) : Keeps (execAdd d a b s) := h.scalar

theorem State.Inv.execSub {d a b : XReg} {s : State} (h : s.Inv) : Keeps (execSub d a b s) := h.scalar

theorem State.Inv.execAnd {d a b : XReg} {s : State} (h : s.Inv) : Keeps (execAnd d a b s) := h.scalar

theorem State.Inv.execOr {d a b : XReg} {s : State} (h : s.Inv) : Keeps (execOr d a b s) := h.scalar

theorem State.Inv.execXor {d a b : XReg} {s : State} (h : s.Inv) : Keeps (execXor d a b s) := h.scalar

theorem State.Inv.execSll {d a b : XReg} {s : State} (h : s.Inv) : Keeps (execSll d a b s) := h.scalar

theorem State.Inv.execSrl {d a b : XReg} {s : State} (h : s.Inv) : Keeps (execSrl d a b s) := h.scalar

theorem State.Inv.execSra {d a b : XReg} {s : State} (h : s.Inv) : Keeps (execSra d a b s) := h.scalar

theorem State.Inv.execSlt {d a b : XReg} {n : Bool} {s : State} (h : s.Inv) : Keeps (execSlt d a b n s) := h.scalar

theorem State.Inv.execMin {d a b : XReg} {n : Bool} {s : State} (h : s.Inv) : Keeps (execMin d a b n s) := h.scalar

theorem State.Inv.execMax {d a b : XReg} {n : Bool} {s : State} (h : s.Inv) : Keeps (execMax d a b n s) := h.scalar

theorem State.Inv.execMul {d a b : XReg} {s : State} (h : s.Inv) : Keeps (execMul d a b s) := h.scalar

theorem State.Inv.execMulh {d a b : XReg} {n : Bool} {s : State} (h : s.Inv) : Keeps (execMulh d a b n s) := h.scalar

theorem State.Inv.execDiv {d a b : XReg} {n : Bool} {s : State} (h : s.Inv) : Keeps (execDiv d a b n s) := h.scalar

theorem State.Inv.execRem {d a b : XReg} {n : Bool} {s : State} (h : s.Inv) : Keeps (execRem d a b n s) := h.scalar

theorem State.Inv.execClz {d a : XReg} {s : State} (h : s.Inv) : Keeps (execClz d a s) := h.scalar

theorem State.Inv.execPopc {d a : XReg} {s : State} (h : s.Inv) : Keeps (execPopc d a s) := h.scalar

theorem State.Inv.execSel {d a b c : XReg} {s : State} (h : s.Inv) : Keeps (execSel d a b c s) := h.scalar

theorem State.Inv.execAddi {d a : XReg} {imm : BitVec 16} {s : State} (h : s.Inv) : Keeps (execAddi d a imm s) := h.scalar

theorem State.Inv.execNop {s : State} (h : s.Inv) : Keeps (execNop s) := h.retire.next

theorem State.Inv.execAndi {d a : XReg} {imm : BitVec 16} {s : State} (h : s.Inv) : Keeps (execAndi d a imm s) := h.scalar

theorem State.Inv.execOri {d a : XReg} {imm : BitVec 16} {s : State} (h : s.Inv) : Keeps (execOri d a imm s) := h.scalar

theorem State.Inv.execXori {d a : XReg} {imm : BitVec 16} {s : State} (h : s.Inv) : Keeps (execXori d a imm s) := h.scalar

theorem State.Inv.execSlti {d a : XReg} {imm : BitVec 16} {s : State} (h : s.Inv) : Keeps (execSlti d a imm s) := h.scalar

theorem State.Inv.execSlli {d a : XReg} {sh : Fin 64} {s : State} (h : s.Inv) : Keeps (execSlli d a sh s) := h.scalar

theorem State.Inv.execSrli {d a : XReg} {sh : Fin 64} {s : State} (h : s.Inv) : Keeps (execSrli d a sh s) := h.scalar

theorem State.Inv.execSrai {d a : XReg} {sh : Fin 64} {s : State} (h : s.Inv) : Keeps (execSrai d a sh s) := h.scalar

theorem State.Inv.execExt {d a : XReg} {sg : Bool} {len1 pos : Fin 64} {s : State} (h : s.Inv) :
    Keeps (execExt d a sg len1 pos s) := h.scalar

theorem State.Inv.execIns {d a : XReg} {len1 pos : Fin 64} {s : State} (h : s.Inv) : Keeps (execIns d a len1 pos s) := h.scalar

theorem State.Inv.execLui {d : XReg} {imm : BitVec 21} {s : State} (h : s.Inv) : Keeps (execLui d imm s) := h.scalar

theorem State.Inv.execAuipc {d : XReg} {imm : BitVec 21} {s : State} (h : s.Inv) : Keeps (execAuipc d imm s) := h.scalar

theorem State.Inv.branch {s : State} {c : Bool} {off : BitVec 13} (h : s.Inv) : Keeps (s.branch c off) :=
  (State.Inv.ite h.jump h.retire).next

theorem State.Inv.execBeq {a b : XReg} {off : BitVec 13} {s : State} (h : s.Inv) : Keeps (execBeq a b off s) := h.branch

theorem State.Inv.execBne {a b : XReg} {off : BitVec 13} {s : State} (h : s.Inv) : Keeps (execBne a b off s) := h.branch

theorem State.Inv.execBlt {a b : XReg} {off : BitVec 13} {s : State} (h : s.Inv) : Keeps (execBlt a b off s) := h.branch

theorem State.Inv.execBge {a b : XReg} {off : BitVec 13} {s : State} (h : s.Inv) : Keeps (execBge a b off s) := h.branch

theorem State.Inv.execBltN {a b : XReg} {off : BitVec 13} {s : State} (h : s.Inv) : Keeps (execBltN a b off s) := h.branch

theorem State.Inv.execBgeN {a b : XReg} {off : BitVec 13} {s : State} (h : s.Inv) : Keeps (execBgeN a b off s) := h.branch

theorem State.Inv.execJal {d : XReg} {off : BitVec 21} {s : State} (h : s.Inv) : Keeps (execJal d off s) := h.setX.jump.next

theorem State.Inv.execJalr {d a : XReg} {imm : BitVec 16} {s : State} (h : s.Inv) : Keeps (execJalr d a imm s) :=
  h.setX.jump.next

theorem State.Inv.enterLoop {s : State} {i : Instr} {count : Word} {len : Nat} (h : s.Inv) :
    Keeps (s.enterLoop i count len) := by
  unfold State.enterLoop
  dsimp only
  split
  · split
    · exact h.illegal.next
    · split
      · exact h.continueAt.next
      · exact h.continueAt.next
  · split
    · exact h.illegal.next
    · split
      · exact h.continueAt.next
      · exact h.continueAt.next

theorem State.Inv.execLoop {a : XReg} {len : Fin 65536} {s : State} (h : s.Inv) : Keeps (execLoop a len s) := h.enterLoop

theorem State.Inv.execLoopi {count : Fin 1024} {len : Fin 65536} {s : State} (h : s.Inv) : Keeps (execLoopi count len s) :=
  h.enterLoop

theorem State.Inv.exec {i : Instr} {s : State} (h : s.Inv) : Keeps (exec i s) := by
  unfold Machine.exec
  split
  exacts [
    h.execAdd, h.execSub, h.execAnd, h.execOr, h.execXor, h.execSll, h.execSrl, h.execSra, h.execSlt, h.execMin, h.execMax,
    h.execMul, h.execMulh, h.execDiv, h.execRem, h.execClz, h.execPopc, h.execSel, h.execAddi, h.execNop, h.execAndi,
    h.execOri, h.execXori, h.execSlti, h.execSlli, h.execSrli, h.execSrai, h.execExt, h.execIns, h.execLui, h.execAuipc,
    h.execBeq, h.execBne, h.execBlt, h.execBge, h.execBltN, h.execBgeN, h.execJal, h.execJalr, h.execLoop, h.execLoopi,
    h.execLd, h.execSt, h.execLda, h.execStl, h.execCas, h.execAmoAdd, h.execAmoAnd, h.execAmoOr, h.execAmoXor, h.execAmoMin,
    h.execAmoMax, h.execAmoMinN, h.execAmoMaxN, h.execAmoSwap, h.execCsrr, h.execCsrw, h.execCsrs, h.execCsrc, h.execEcall,
    h.execKVersion, h.execKYield, h.execKRequestUnknown, h.execEret, h.execBrk, h.execMapsw, h.execCkpt, h.execPfx,
    h.execVsetvl, h.execVsetvli, h.execVadd, h.execVsub, h.execVmul, h.execVmulh, h.execVand, h.execVor, h.execVxor,
    h.execVsll, h.execVsrl, h.execVsra, h.execVmin, h.execVmax, h.execVcmp, h.execVsel, h.execVred, h.execVfadd, h.execVfsub,
    h.execVfmul, h.execVfma, h.execVfnma, h.execVfdiv, h.execVfsqrt, h.execVfmin, h.execVfmax, h.execVfcmp, h.execVfclass,
    h.execVfred, h.execVtbl, h.execVcvt, h.execVfcvt, h.execVlnspack, h.execVlnsunpack, h.execVlnsmul, h.execVlnsadd,
    h.execVscale, h.execVperm, h.execVslideup, h.execVslidedn, h.execVcompress, h.execVexpand, h.execVbcast, h.execVmv,
    h.execVidx, h.execPand, h.execPor, h.execPxor, h.execPnot, h.execPcnt, h.execPfirst, h.execVld, h.execVlds, h.execVldx,
    h.execVldff, h.execVldsp, h.execQld, h.execVst, h.execVsts, h.execVstx, h.execVstsp, h.execVamoAdd, h.execVamoMin,
    h.execVamoMax, h.execVamoAnd, h.execVamoOr, h.execVamoXor, h.execVamoSwap, h.execSbegin, h.execScommit, h.execSabort,
    h.execFence, h.execFencesvSv, h.execFencesvVs, h.execFenceq, h.execSpfence, h.execMma, h.execMmasp, h.execMmats,
    h.execMzero, h.execMld, h.execMst, h.execMldsp, h.execMstsp, h.execMv2t, h.execMt2v, h.execMfree, h.execMpref,
    h.execMepi, h.execMsend, h.execMattach, h.execMdetach, h.execMmov, h.execMtrans, h.execCpy, h.execCpy2d, h.execCpyg,
    h.execCpyts, h.execQfill, h.execTblld, h.execPhnew, h.execPhdel, h.execPhreg, h.execPhdrop, h.execPhsig, h.execPhwait,
    h.execPhsw, h.execGmem, h.execPost, h.execTexit, h.execRput, h.execRget, h.execRamo, h.execRldred, h.execRwait,
    h.execTkstat, h.execClaim, h.execObject, h.execClwait, h.execDln, h.execDlnend, h.execHint, h.execIllegal, h.execDlnRisk,
    h.execCopyEntryPerforms, h.execTileFillDone, h.execTileSpillStart, h.execTileSpillDone, h.execSlotReclaim,
    h.execTransferReplay, h.execCheckpointStream, h.execPreemptionRequest, h.execPreemptionComplete, h.execBind,
    h.execLaunch, h.execMboxw, h.execMap, h.execUnmap, h.execRemap, h.execMapCommandCompletes, h.execPageans, h.execCarve,
    h.execUncarve, h.execPool, h.execQuiesceStop, h.execQuiesceTokenSettle, h.execQuiesceSeal, h.execQuiesceResume,
    h.execQuiesceDiscard, h.execRestore, h.execSync, h.execReplay, h.execCommandUnknown, h.execPowerUp, h.execPortFail,
    h.execLaneShed, h.execFlintBoundHeld, h.execPeerAbsent, h.execPutReceived, h.execPutRefused, h.execTokenAccepted,
    h.execTokenLanded, h.execLandedNotice, h.execTokenExpires, h.execExpiryNotice, h.execRemoteRequestServed,
    h.execRgetComplete, h.execRamoComplete, h.execRldredComplete, h.execMsendReceived, h.execUalinkRequest,
    h.execProposalReceived, h.execMemberWindowCloses, h.execObjectionReceived, h.execCommitNoticeReceived,
    h.execEndNoticeReceived, h.execClaimWaitEnds, h.execClaimStorePerformed, h.execGovernorDecision,
    h.execOperatingPointSettles, h.execThrottleAdjust, h.execSupplyDroop, h.execRetentionExit, h.execMigrate,
    h.execPromotion, h.execAccessPerforms, h.execQueuedInstructionRetires, h.execPutFailed, h.execMsendCompletes,
    h.execAttestationRequest]

theorem State.Inv.settleTurn {s : State} (h : s.Inv) : Keeps s.settleTurn := by
  unfold State.settleTurn
  split
  · exact .finish h.drainLate
  · exact h.retireTurn

theorem State.Inv.settleFor {s : State} {i : Instr} (h : s.Inv) : Keeps (s.settleFor i) := by
  unfold State.settleFor
  split
  · exact h.retireTurn
  · exact .finish h.drainLate

theorem State.Inv.turnLine {s : State} {asid va : Nat} {fill : Bool} (h : s.Inv) : (s.turnLine asid va fill).Inv := by
  unfold State.turnLine
  dsimp only
  split
  · exact h.update
  · split
    · exact .ite h.update h
    · exact h

theorem State.Inv.turnOperand {s : State} {n : Nat} {handle : Word} {granule : Nat} {fill : Bool} (h : s.Inv) :
    (s.turnOperand n handle granule fill).Inv := h.onClusterAt

theorem State.Inv.turnSoftError {s : State} {asid va : Nat} (h : s.Inv) : (s.turnSoftError asid va).Inv := h.filterLeaves

theorem State.Inv.turnReached {s : State} {fid : Nat} (h : s.Inv) : (s.turnReached fid).Inv := .ite h.hear h

theorem State.Inv.turnOutside {s : State} {fid addr : Nat} {bytes : List Byte} (h : s.Inv) :
    (s.turnOutside fid addr bytes).Inv :=
  .ite h (h.withMem (Bytes.wf_putRuns _ _ _ h.mem))

theorem State.Inv.turnSealed {s : State} {fid addr : Nat} {i : Image} {signature : List Byte} (h : s.Inv)
    (hi : ∀ p ∈ i.pages, p.ok) :
    (s.turnSealed fid addr i signature).Inv := by
  have ht : (s.turnOutside fid addr (i.signedBytes signature)).Inv := h.turnOutside
  exact .ite h ⟨ht.mem, ht.leaves, List.forall_mem_cons.2 ⟨hi, ht.images⟩, ht.baselines, ht.agenda⟩

theorem State.Inv.issueOf {s t : State} {i : Instr} (h : s.Inv) (ht : s.issueOf i = .queue t) : t.Inv := by
  unfold State.issueOf at ht
  split at ht
  next u e =>
    cases ht
    split at e
    · exact h.enterQueue e
    · cases e
  · split at ht
    · cases ht
    · split at ht <;> cases ht

theorem State.Inv.issue {i : Instr} {s : State} (h : s.Inv) : Keeps (issue i s) := by
  unfold Machine.issue
  split
  next e => exact (h.issueOf e).next
  · exact h.settleFor
  · exact h.exec
  · split
    next t e =>
      have ht : t.Inv := h.exec t e
      split
      · exact ht.next
      · exact h.settleTurn
    · exact h.exec

theorem State.Inv.hartStep {s : State} (h : s.Inv) : Keeps (hartStep s) := by
  unfold Machine.hartStep
  split
  · exact h.next
  · split
    · exact h.deliver.next
    · exact h.settleStop
  · split
    · exact h.exec
    · exact h.settleStop
  · split
    next e1 =>
      split
      · exact (h.fetch.of_error e1).next
      · exact h.settleTurn
    next e1 => exact (h.fetch.of_ok e1).issue

theorem State.Inv.stepAs {how : How} {s : State} (h : s.Inv) : Keeps (stepAs how s) := by
  have hs : Keeps (Machine.hartStep { s with how := how }) := State.Inv.hartStep h.update
  unfold Machine.stepAs
  split
  next t e => exact State.Inv.next (hs t e).update
  · exact hs

/-- A turn answers no state where there is no hart of its name. -/
theorem Keeps.fault {f : Fault} : Keeps (.fault f) := by
  intro t h
  cases h

theorem State.Inv.turnStep {t : Turn} {s : State} (h : s.Inv) (ht : t.ok) : Keeps (turnStep t s) := by
  unfold Machine.turnStep
  split
  · split
    next e => exact (h.turnAt e).hartStep
    · exact .fault
  · split
    next e => exact (h.turnAt e).stepAs
    · exact .fault
  · split
    next e => exact (h.turnAt e).stepAs
    · exact .fault
  · split
    next e => exact (h.turnAt e).turnElems.next
    · exact .fault
  · split
    next e =>
      split
      · exact (h.turnAt e).exec
      · exact (h.turnAt e).next
    · exact .fault
  · split
    next e _ => exact (h.turnAt e).exec
    next e _ => exact (h.turnAt e).next
    · exact .fault
  · exact h.tick.next
  · exact h.turnLine.next
  · exact h.turnOperand.next
  · exact h.turnSoftError.next
  · exact h.turnReached.next
  · exact h.turnOutside.next
  · exact (h.turnSealed (ht _ _ _ _ rfl)).next

theorem State.Inv.unlessBusy {s waiting : State} {r : Out} (hw : waiting.Inv) (hr : Keeps r) : Keeps (unlessBusy s waiting r) :=
    by
  unfold Machine.unlessBusy
  split
  next t =>
    split
    · exact hw.next
    · exact hr
  · exact hr

/-- Any turns that bring no image but one of well-formed pages may be to come. -/
theorem State.Inv.withAgenda {s : State} {ts : List Turn} (h : s.Inv) (hts : ∀ t ∈ ts, t.ok) : ({ s with agenda := ts } :
    State).Inv where
  mem := h.mem
  leaves := h.leaves
  images := h.images
  baselines := h.baselines
  agenda := hts

/-- A turn that comes again is the turn itself. -/
theorem Turn.comesAgain_mem {t u : Turn} (h : u ∈ t.comesAgain) : u = t := by
  unfold Turn.comesAgain at h
  split at h
  rotate_right
  · exact List.mem_singleton.1 h
  all_goals exact absurd h List.not_mem_nil

theorem State.Inv.step {s : State} (h : s.Inv) : Keeps (step s) := by
  unfold Machine.step
  split
  · exact h.unlessBusy h.hartStep
  next t r e =>
    have hts : ∀ u ∈ t :: r, u.ok := e ▸ h.agenda
    obtain ⟨ht, hr⟩ := List.forall_mem_cons.1 hts
    refine State.Inv.unlessBusy (h.withAgenda fun u hu => ?_) ((h.withAgenda hr).turnStep ht)
    exact (List.mem_append.1 hu).elim (hr u) fun hu => Turn.comesAgain_mem hu ▸ ht

/-- Settles O8: each turn, and each instruction of a hart, keeps the five parts of the invariant, and so does a turn that waits. -/
theorem stepKeepsInvariant : Obligations.StepKeepsInvariant := by
  intro s t hs ht
  exact hs.step t ht

end Sys2Proof.Machine
end

section
/-! PROOFS of vector loads and stores (O37; R171, R177, R178, R216, R219, R222, R365 to R367). -/

namespace Sys2Proof.Machine

theorem part_bind_ok {α β : Type} (r : Part α) (f : α → β) : (r >>= fun x => .ok (f x)) = r.map f := by cases r <;> rfl

/-! ### The units of an access, and the check of its lease -/

theorem State.mem_doing (s : State) (p : PReg) (w : EW) (k : Nat) : k ∈ s.doing p w ↔ s.does p (s.hart.units w) k = true := by
  rw [State.doing, List.mem_filter, List.mem_range, and_iff_right_iff_imp, State.does_eq, State.on]
  intro h
  simp only [Bool.and_eq_true, decide_eq_true_eq] at h
  exact h.1.1.2

/-- The units that a turn reaches are those of its operation below its stop. -/
theorem State.doing_below (s : State) (p : PReg) (w : EW) {stop : Nat} (hstop : stop ≤ s.hart.units w) :
    (s.doing p w).filter (fun k => decide (k < stop)) = (List.range stop).filter (s.does p stop) := by
  have hrange : List.range (s.hart.units w) = List.range stop ++ (List.range (s.hart.units w - stop)).map (stop + ·) := by
    rw [← List.range_add, Nat.add_sub_cancel' hstop]
  have hlate : ((List.range (s.hart.units w - stop)).map (stop + ·)).filter
      (fun k => decide (k < stop) && s.does p (s.hart.units w) k) = [] := by
    rw [List.filter_eq_nil_iff]
    rintro k hk
    obtain ⟨j, -, rfl⟩ := List.mem_map.1 hk
    simp
  rw [State.doing, List.filter_filter, hrange, List.filter_append, hlate, List.append_nil]
  refine List.filter_congr fun k hk => ?_
  have hlt := List.mem_range.1 hk
  have hlt' : k < s.hart.units w := hlt.trans_le hstop
  simp [State.does_eq, State.on, hlt, hlt']

theorem State.unitAddrs_below (s : State) (p : PReg) (w : EW) (o : Nat → Word) {stop : Nat} (hstop : stop ≤ s.hart.units w) :
    (s.unitAddrs p w o).filter (fun u => decide (u.1 < stop))
      = ((List.range stop).filter (s.does p stop)).map fun k => (k, (o k).toNat) := by
  rw [s.unitAddrs_eq, List.filter_map, ← s.doing_below p w hstop]
  rfl

/-- The first byte of an access that a check refuses. -/
theorem firstBad_some (ok : Nat → Bool) (a n j : Nat) (hj : j < n) (hbefore : ∀ x < j, ok (a + x) = true)
    (hbad : ok (a + j) = false) : firstBad ok a n = some (a + j) := by
  have hsplit : List.range n = List.range j ++ j :: (List.range (n - j - 1)).map (j + 1 + ·) := by
    rw [← List.singleton_append, ← List.append_assoc, ← List.range_succ, ← List.range_add]
    congr 1
    omega
  have hnone : ((List.range j).map (a + ·)).find? (fun x => !ok x) = none := by
    rw [List.find?_eq_none]
    rintro x hx
    obtain ⟨i, hi, rfl⟩ := List.mem_map.1 hx
    simp [hbefore i (List.mem_range.1 hi)]
  rw [firstBad, hsplit, List.map_append, List.find?_append, hnone, List.map_cons, List.find?_cons_of_pos (by simp [hbad])]
  rfl

/-- The lowest of the units a check refuses is the one that ends the task (R178). -/
theorem State.checkUnits_refused (s : State) (ok : Nat → Bool) (p : PReg) (w : EW) (o : Nat → Word) (n k j : Nat)
    (hk : s.does p (s.hart.units w) k = true)
    (hbefore : ∀ q < k, s.does p (s.hart.units w) q = true → ∀ x < n, ok ((o q).toNat + x) = true) (hj : j < n)
    (hbytes : ∀ x < j, ok ((o k).toNat + x) = true) (hbad : ok ((o k).toNat + j) = false) :
    s.checkUnits ok (s.unitAddrs p w o) n = .error (s.leaseFaultAt ((o k).toNat + j) k) := by
  have hlt : k < s.hart.units w := List.mem_range.1 (List.mem_filter.1 ((s.mem_doing p w k).2 hk)).1
  have hsplit : s.doing p w = (List.range k).filter (s.does p (s.hart.units w))
      ++ k :: ((List.range (s.hart.units w - k - 1)).map (k + 1 + ·)).filter (s.does p (s.hart.units w)) := by
    have hrange : List.range (s.hart.units w) = List.range k ++ k :: (List.range (s.hart.units w - k - 1)).map (k + 1 + ·) := by
      rw [← List.singleton_append, ← List.append_assoc, ← List.range_succ, ← List.range_add]
      congr 1
      omega
    rw [State.doing, hrange, List.filter_append, List.filter_cons_of_pos hk]
  have hnone : (((List.range k).filter (s.does p (s.hart.units w))).map fun q => (q, (o q).toNat)).findSome?
      (fun u => (firstBad ok u.2 n).map fun a => (a, u.1)) = none := by
    rw [List.findSome?_eq_none_iff]
    intro u hu
    obtain ⟨q, hq, rfl⟩ := List.mem_map.1 hu
    obtain ⟨hqk, hq⟩ := List.mem_filter.1 hq
    rw [firstBad_none ok _ n (hbefore q (List.mem_range.1 hqk) hq)]
    rfl
  rw [State.checkUnits, s.unitAddrs_eq, hsplit, List.map_append, List.findSome?_append, hnone, List.map_cons,
    List.findSome?_cons, firstBad_some ok _ n j hj hbytes hbad]
  rfl

/-- Every unit that takes part is admitted. -/
theorem State.checkUnits_admitted (s : State) (ok : Nat → Bool) (p : PReg) (w : EW) (o : Nat → Word) (n : Nat)
    (h : ∀ k, s.does p (s.hart.units w) k = true → ∀ j < n, ok ((o k).toNat + j) = true) :
    s.checkUnits ok (s.unitAddrs p w o) n = .ok () :=
  s.checkUnits_ok ok _ n (by
    rw [s.unitAddrs_eq]
    exact List.forall_mem_map.2 fun k hk => h k ((s.mem_doing p w k).1 hk))

/-- A vector access of a block that overwrites its own indices stops nowhere. -/
theorem State.stopOf_blocks (s : State) (d a : VReg) (w : EW) (u n : Nat) :
    s.stopOf (if w = .blk ∧ (d = a ∨ s.copyV a) then none else some u) n
      = if w = .blk && s.hart.overwrites d a then n else s.cut u s.hart.start n := by
  have hiff : (decide (w = .blk) && s.hart.overwrites d a) = true ↔ w = .blk ∧ (d = a ∨ s.copyV a) := by
    rw [Bool.and_eq_true, decide_eq_true_eq, Hart.overwrites, Bool.or_eq_true, Bool.and_eq_true, beq_iff_eq, decide_eq_true_eq,
      beq_iff_eq]
    exact and_congr_right fun _ => or_congr Iff.rfl (and_congr Iff.rfl eq_comm)
  by_cases h : w = .blk ∧ (d = a ∨ s.copyV a)
  · rw [if_pos h, if_pos (hiff.2 h)]
    rfl
  · rw [if_neg h, if_neg (mt hiff.1 h)]
    rfl

theorem State.endsAt.stop_le {s : State} {unit : Option Nat} {n stop : Nat} {done : State → State}
    (h : s.endsAt unit n stop done) : stop ≤ n := min_eq_left_iff.1 h.min_stop

/-- Completing or stopping leaves the leaves. -/
theorem State.endsAt.done_leaves {s : State} {unit : Option Nat} {n stop : Nat} {done : State → State}
    (h : s.endsAt unit n stop done) (t : State) : (done t).leaves = t.leaves := by
  rcases h with ⟨-, -, rfl, -⟩ | ⟨_, _, -, -, -, -, rfl⟩ <;> rfl

/-! ### Loads (R365, R366) -/

/-- A load is `vload` with the addresses of its operands. -/
theorem State.vmemOp_load (s : State) (i : Instr) (d : VReg) (p : PReg) (w : EW) (c : Slot) (unit : Option Nat) (addr : Nat → Nat)
    (h : s.vmemOp i = some (d, p, w, c, false, unit, addr)) : ∃ o : Nat → Word, addr = (fun k => (o k).toNat)
      ∧ exec i s = s.vload i d p w (s.stopOf unit (s.hart.units w)) o := by
  unfold State.vmemOp at h
  split at h
  · cases h
    exact ⟨s.unitStride _ _, rfl, rfl⟩
  · cases h
    exact ⟨s.strided _ _, rfl, rfl⟩
  next d a b p w c =>
    cases h
    refine ⟨s.indexed a b w, rfl, ?_⟩
    rw [s.stopOf_blocks]
    rfl
  · cases h
  · cases h
  · cases h
  · cases h

section
variable {s : State} (i : Instr) (d : VReg) (p : PReg) (w : EW) (o : Nat → Word) (hc : s.compute) {unit : Option Nat} {stop : Nat}
  {done : State → State} (hends : s.endsAt unit (s.hart.units w) stop done)
  (hmay : ∀ k, s.does p (s.hart.units w) k = true → ∀ j < ewBytes w, s.hart.task.mayRead ((o k).toNat + j) = true)
include hc

/-- The lowest unit with a byte the lease refuses ends the task before any is read (R177, R178). -/
theorem State.vload_refused (m k j : Nat) (hk : s.does p (s.hart.units w) k = true)
    (hbefore : ∀ q < k, s.does p (s.hart.units w) q = true → ∀ x < ewBytes w, s.hart.task.mayRead ((o q).toNat + x) = true)
    (hj : j < ewBytes w) (hbytes : ∀ x < j, s.hart.task.mayRead ((o k).toNat + x) = true)
    (hbad : s.hart.task.mayRead ((o k).toNat + j) = false) :
    s.vload i d p w m o = .next (s.leaseFaultAt ((o k).toNat + j) k) := by
  rw [State.vload, s.computeOnly_ok i hc, part_ok_bind]
  dsimp only
  rw [s.checkUnits_refused _ p w o (ewBytes w) k j hk hbefore hj hbytes hbad]
  rfl

include hends hmay

/-- Units that translate are read and written to the destination (R366). -/
theorem State.vload_ok (hun : s.unworn (s.hart.units w))
    (htr : ∀ k, s.does p stop k = true → s.translates (o k).toNat (ewBytes w)) :
    ∃ t, s.vload i d p w stop o = .next t
      ∧ unitsWritten s t d (ewBytes w) (s.does p stop) (fun k => s.sees (o k).toNat (ewBytes w))
      ∧ t = done { s with leaves := t.leaves, hart := { s.hart with v := t.hart.v } } := by
  obtain ⟨ks, hks⟩ : ∃ ks, ks = (List.range stop).filter (s.does p stop) := ⟨_, rfl⟩
  have hon (k : Nat) : k ∈ ks ↔ s.does p stop k = true := by
    rw [hks, List.mem_filter, List.mem_range, and_iff_right_iff_imp, State.does_eq, State.on]
    simp only [Bool.and_eq_true, decide_eq_true_eq]
    exact fun h => h.1.1.2
  have hcount : (ks.map fun k => (k, (o k).toNat)).length ≤ s.hart.units w := by
    rw [List.length_map, hks]
    exact (List.length_filter_le _ _).trans (List.length_range.le.trans hends.stop_le)
  obtain ⟨t, hread, ht⟩ := s.readUnits_ok (ks.map fun k => (k, (o k).toNat)) (ewBytes w)
    (List.forall_mem_map.2 fun k hk => htr k ((hon k).1 hk)) (State.unworn_mono hun hcount)
  obtain ⟨u, hu⟩ : ∃ u, u = t.onHart fun h => h.writeUnits d (ewBytes w) (ks.map fun k => (k, s.sees (o k).toNat (ewBytes w))) :=
    ⟨_, rfl⟩
  have hstate : u = { s with leaves := u.leaves, hart := { s.hart with v := u.hart.v } } := by
    rw [hu, ht, State.onHart, Hart.writeUnits_eq]
  have hvload : s.vload i d p w stop o = .next (done u) := by
    rw [State.vload, s.computeOnly_ok i hc, part_ok_bind]
    dsimp only
    rw [s.checkUnits_admitted _ p w o _ hmay, part_ok_bind, s.unitAddrs_below p w o hends.stop_le, ← hks, hread, part_ok_bind,
      List.map_map]
    refine congrArg Host.Outcome.next ((?_ : _ = u.vend stop (s.hart.units w)).trans (hends.vend_done u fun h => ?_))
    · rw [hu]
      rfl
    · rw [hstate]
      exact h
  refine ⟨done u, hvload, unitsWritten_map s _ d ks _ (fun k _ => s.length_sees _ _) _ hon ?_, ?_⟩
  · rw [hends.done_v, hu, ht]
    rfl
  · rw [hends.done_v, hends.done_leaves, ← hstate]

/-- Where the first unit meets a busy page the instruction waits (R171). -/
theorem State.vload_busy (k : Nat) (hfirst : ((List.range stop).filter (s.does p stop)).head? = some k)
    (hbusy : s.atBusy s.hart.task.asid (o k).toNat (ewBytes w) = true) : s.vload i d p w stop o = .next s := by
  obtain ⟨r, hr⟩ := List.head?_eq_some_iff.1 hfirst
  rw [State.vload, s.computeOnly_ok i hc, part_ok_bind]
  dsimp only
  rw [s.checkUnits_admitted _ p w o _ hmay, part_ok_bind, s.unitAddrs_below p w o hends.stop_le, hr, List.map_cons,
    State.readUnits, hbusy]
  rfl

end

theorem vectorLoadsReadUnits : Sys2Proof.Says.VectorLoadsReadUnits := by
  intro i s d p w c unit addr stop done hop hc n may
  obtain ⟨o, rfl, hexec⟩ := s.vmemOp_load i d p w c unit addr hop
  rw [hexec]
  refine ⟨fun hends hun hmay htr => ?_, fun hends hmay k hfirst hbusy => ?_, fun k j hk hbefore hj hbytes hbad => ?_⟩
  · rw [hends.stopOf_eq]
    exact State.vload_ok i d p w o hc hends hmay hun htr
  · rw [hends.stopOf_eq]
    exact State.vload_busy i d p w o hc hends hmay k hfirst hbusy
  · exact State.vload_refused i d p w o hc _ k j hk hbefore hj hbytes hbad

/-! ### Stores (R219, R366) -/

/-- A store is `vstore` with the addresses of its operands, and may stop at any of its groups. -/
theorem State.vmemOp_storing (s : State) (i : Instr) (d : VReg) (p : PReg) (w : EW) (c : Slot) (unit : Option Nat)
    (addr : Nat → Nat) (h : s.vmemOp i = some (d, p, w, c, true, unit, addr)) : ∃ o : Nat → Word, addr = (fun k => (o k).toNat)
      ∧ unit = some (s.hart.groupOf (8 * ewBytes w)) ∧ exec i s = s.vstore i d p w c o := by
  unfold State.vmemOp at h
  split at h
  · cases h
  · cases h
  · cases h
  · cases h
    exact ⟨s.unitStride _ _, rfl, rfl, rfl⟩
  · cases h
    exact ⟨s.strided _ _, rfl, rfl, rfl⟩
  · cases h
    exact ⟨s.indexed _ _ _, rfl, rfl, rfl⟩
  · cases h

/-- Stores leave the place of the hart. -/
theorem State.wroteAll_mayFall (s : State) (xs : List (Nat × List Byte)) (c : Fin 16) (h : s.mayFall) :
    (s.wroteAll xs c).unitsOver.mayFall := by
  obtain ⟨st, hst⟩ := s.wroteAll_hart xs c
  simp only [State.mayFall, State.fallPc, State.unitsOver, State.onHart, Hart.loops, hst]
  exact h

section
variable {s : State} (i : Instr) (d : VReg) (p : PReg) (w : EW) (c : Slot) (o : Nat → Word) (hc : s.compute)
include hc

/-- The lowest unit with a byte the lease refuses ends the task before any is stored (R177, R178). -/
theorem State.vstore_refused (k j : Nat) (hk : s.does p (s.hart.units w) k = true)
    (hbefore : ∀ q < k, s.does p (s.hart.units w) q = true → ∀ x < ewBytes w, s.hart.task.mayWrite ((o q).toNat + x) = true)
    (hj : j < ewBytes w) (hbytes : ∀ x < j, s.hart.task.mayWrite ((o k).toNat + x) = true)
    (hbad : s.hart.task.mayWrite ((o k).toNat + j) = false) :
    s.vstore i d p w c o = .next (s.leaseFaultAt ((o k).toNat + j) k) := by
  rw [State.vstore, s.computeOnly_ok i hc, part_ok_bind]
  dsimp only
  rw [s.checkUnits_refused _ p w o (ewBytes w) k j hk hbefore hj hbytes hbad]
  rfl

variable {stop : Nat} {done : State → State}
  (hends : s.endsAt (some (s.hart.groupOf (8 * ewBytes w))) (s.hart.units w) stop done)
  (hmay : ∀ k, s.does p (s.hart.units w) k = true → ∀ j < ewBytes w, s.hart.task.mayWrite ((o k).toNat + j) = true)
include hends hmay

/-- A store whose units the lease admits stores those that the turn reaches. -/
theorem State.vstore_eq : s.vstore i d p w c o = finish ((s.storeUnits (((List.range stop).filter (s.does p stop)).map fun k =>
    (k, s.unitStore d w (fun k => (o k).toNat) k)) (s.hart.effClass c) []).map
      fun t => t.unitsOver.vend stop (s.hart.units w)) := by
  have hstop : s.unitStop w = stop := hends.stopOf_eq
  rw [State.vstore, s.computeOnly_ok i hc, part_ok_bind]
  dsimp only
  rw [s.checkUnits_admitted _ p w o _ hmay, part_ok_bind, hstop, s.unitAddrs_below p w o hends.stop_le, List.map_map]
  change finish (s.storeUnits (((List.range stop).filter (s.does p stop)).map fun k =>
    (k, s.unitStore d w (fun k => (o k).toNat) k)) (s.hart.effClass c) [] >>= _) = _
  exact congrArg finish (part_bind_ok _ _)

theorem State.vstore_wrote {xs : List (Nat × List Byte)}
    (hxs : xs = ((List.range stop).filter (s.does p stop)).map (s.unitStore d w fun k => (o k).toNat))
    (hun : s.unworn (s.hart.units w)) (htr : ∀ k ∈ (List.range stop).filter (s.does p stop), s.translates (o k).toNat (ewBytes w))
    (hroom : s.roomForAll xs (s.hart.effClass c)) :
    s.vstore i d p w c o = .next (done (s.wroteAll xs (s.hart.effClass c)).unitsOver) := by
  obtain ⟨ks, hks⟩ : ∃ ks, ks = (List.range stop).filter (s.does p stop) := ⟨_, rfl⟩
  obtain ⟨us, hus⟩ : ∃ us, us = ks.map fun k => (k, s.unitStore d w (fun k => (o k).toNat) k) := ⟨_, rfl⟩
  have hmap : us.map (fun u => u.2) = xs := by rw [hus, hxs, ← hks, List.map_map]; rfl
  have hcount : us.length ≤ s.hart.units w := by
    rw [hus, List.length_map, hks]
    exact (List.length_filter_le _ _).trans (List.length_range.le.trans hends.stop_le)
  have hstore : s.storeUnits us (s.hart.effClass c) [] = .ok (s.wroteAll xs (s.hart.effClass c)) := by
    by_cases hin : s.hart.inStrip = true
    · exact hmap ▸ s.storeUnits_inStrip us _ [] hin (hmap.symm ▸ hroom)
    · refine hmap ▸ s.storeUnits_ok us _ [] ((Bool.not_eq_true _).mp hin) ?_ (State.unworn_mono hun hcount)
      rw [hus]
      refine List.forall_mem_map.2 fun k hk => ?_
      rw [State.unitStore, Bytes.length_getN]
      exact htr k (hks ▸ hk)
  rw [State.vstore_eq i d p w c o hc hends hmay, ← hks, ← hus, hstore]
  exact congrArg Host.Outcome.next (hends.vend_done _ (s.wroteAll_mayFall xs _))

variable (hout : s.outside) {k : Nat} {r : List Nat} (hks : (List.range stop).filter (s.does p stop) = k :: r)
include hout hks

/-- Where the first unit meets a busy page the instruction waits (R171). -/
theorem State.vstore_busy (hbusy : s.atBusy s.hart.task.asid (o k).toNat (ewBytes w) = true) :
    s.vstore i d p w c o = .next s := by
  rw [State.vstore_eq i d p w c o hc hends hmay, hks, List.map_cons, State.storeUnits, State.unitStore, Bytes.length_getN, hbusy,
    show s.hart.inStrip = false from hout]
  simp only [Bool.not_false, Bool.and_self, stopIf_true, State.onHart, List.append_nil]
  rfl

/-- Where the second unit meets one, the first is stored. -/
theorem State.vstore_busy_second (hfree : s.atBusy s.hart.task.asid (o k).toNat (ewBytes w) = false)
    (htr : s.translates (o k).toNat (ewBytes w)) {q : Nat} (hq : r.head? = some q) {t : State}
    (ht : t = s.wrote (o k).toNat ((s.hart.getV d).getN (k * ewBytes w) (ewBytes w)) (s.hart.effClass c))
    (hbusy : t.atBusy s.hart.task.asid (o q).toNat (ewBytes w) = true) :
    s.vstore i d p w c o = .next { t with hart := { t.hart with unitsDone := t.hart.unitsDone ++ [k] } } := by
  obtain ⟨r', rfl⟩ := List.head?_eq_some_iff.1 hq
  have hin : s.hart.inStrip = false := hout
  have hput : s.putStore (o k).toNat ((s.hart.getV d).getN (k * ewBytes w) (ewBytes w)) (s.hart.effClass c) = .ok t := by
    rw [ht]
    refine s.putStore_ok _ _ _ (by rwa [Bytes.length_getN]) fun h => ?_
    rw [hin] at h
    cases h
  obtain ⟨st, hst⟩ := s.wrote_hart (o k).toNat ((s.hart.getV d).getN (k * ewBytes w) (ewBytes w)) (s.hart.effClass c)
  rw [← ht] at hst
  have hasid : t.hart.task.asid = s.hart.task.asid := by rw [hst]
  have hout' : t.hart.inStrip = false := by rw [hst]; exact hin
  rw [State.vstore_eq i d p w c o hc hends hmay, hks, List.map_cons, List.map_cons, State.storeUnits, State.unitStore,
    Bytes.length_getN, hfree, Bool.and_false, stopIf_false _ _ rfl, part_ok_bind, hput, part_ok_bind, State.storeUnits,
    State.unitStore, Bytes.length_getN, hasid, hbusy, hout']
  rfl

end

theorem vectorStoresWriteUnits : Sys2Proof.Says.VectorStoresWriteUnits := by
  intro i s d p w c unit addr stop done hop hc n may ks data xs
  obtain ⟨o, rfl, rfl, hexec⟩ := s.vmemOp_storing i d p w c unit addr hop
  rw [hexec]
  refine ⟨fun hends hun hmay htr hroom => ?_, fun hout hends hmay k r hks => ?_, fun k j hk hbefore hj hbytes hbad => ?_⟩
  · exact State.vstore_wrote i d p w c o hc hends hmay rfl hun htr hroom
  · intro busy t
    refine ⟨fun hbusy => ?_, fun q hq hfree htr hbusy => ?_⟩
    · exact State.vstore_busy i d p w c o hc hends hmay hout hks hbusy
    · exact State.vstore_busy_second i d p w c o hc hends hmay hout hks (Bool.eq_false_iff.2 hfree) htr hq rfl hbusy
  · exact State.vstore_refused i d p w c o hc k j hk hbefore hj hbytes hbad

/-! ### Fault-only-first loads (R216, R367) -/

theorem firstBad_isNone (ok : Nat → Bool) (a n : Nat) : (firstBad ok a n).isNone = (List.range n).all fun j => ok (a + j) := by
  rw [Bool.eq_iff_iff, Option.isNone_iff_eq_none, firstBad, List.find?_eq_none, List.all_eq_true, List.forall_mem_map]
  simp only [Bool.not_eq_true', Bool.not_eq_false]

theorem firstBad_eq_map (ok : Nat → Bool) (a n : Nat) :
    firstBad ok a n = ((List.range n).find? fun j => !ok (a + j)).map fun j => a + j := by
  rw [firstBad, List.find?_map]
  rfl

/-- The active units of an access. -/
def State.onUnits (s : State) (p : PReg) (w : EW) : List Nat := (List.range (s.hart.units w)).filter (s.on p (s.hart.units w))

theorem State.allUnits_eq (s : State) (p : PReg) (w : EW) (o : Nat → Word) :
    s.allUnits p w o = (s.onUnits p w).map fun k => (k, (o k).toNat) := by
  rw [State.allUnits, Hart.active_eq_filter]
  rfl

/-- `VL` of a fault-only-first load whose first refused unit after the first is `past`. -/
def State.ffVl (s : State) (w : EW) (past : Option Nat) : Word :=
  match past with
  | none => s.hart.vl
  | some k => vlWord s.hart.vw (if w = EW.blk then 20 * k else k)

/-- The state with `VL` shortened to the unit `past`. -/
def State.ffShort (s : State) (w : EW) (past : Option Nat) : State := { s with hart := { s.hart with vl := s.ffVl w past } }

theorem Hart.len_vlWord (h : Hart) (v n : Nat) : ({ h with vl := vlWord v n } : Hart).len = n % 2 ^ 14 := by
  show bits (BitVec.ofNat 64 (v % 4 * 2 ^ 14 + n % 2 ^ 14)).toNat 13 0 = n % 2 ^ 14
  rw [BitVec.toNat_ofNat, bits]
  omega

/-- A `VL` shortened to a unit of the access counts the units before it (R367). -/
theorem State.units_ffShort (s : State) (w : EW) (past : Option Nat) (h : ∀ k, past = some k → k < s.hart.units w) :
    (s.ffShort w past).hart.units w = past.getD (s.hart.units w) := by
  cases past with
  | none => rfl
  | some k =>
    have hk := h k rfl
    have hlen : s.hart.len < 2 ^ 14 := by
      rw [Hart.len, bits]
      exact Nat.mod_lt _ (by decide)
    have hshort : (s.ffShort w (some k)).hart.len = (if w = EW.blk then 20 * k else k) % 2 ^ 14 := s.hart.len_vlWord _ _
    have hmax : (s.ffShort w (some k)).hart.vlmax (8 * ewBytes w) = s.hart.vlmax (8 * ewBytes w) := rfl
    rw [Hart.units, lt_min_iff] at hk
    obtain ⟨hkn, hkmax⟩ := hk
    rw [Hart.units, hmax, hshort, Option.getD_some]
    by_cases hw : w = EW.blk
    · simp only [if_pos hw] at hkn ⊢
      omega
    · simp only [if_neg hw] at hkn ⊢
      omega

/-- The same, of the units from the first refused one on. -/
def Hart.ffShorten (w : EW) (rest : List (Nat × Nat)) (h : Hart) : Hart :=
  match rest with
  | [] => h
  | u :: _ => { h with vl := vlWord h.vw (if w = .blk then 20 * u.1 else u.1) }

theorem State.onHart_ffShorten (s : State) (w : EW) (ks : List Nat) (o : Nat → Word) :
    s.onHart (Hart.ffShorten w (ks.map fun k => (k, (o k).toNat))) = s.ffShort w ks.head? := by
  cases ks <;> rfl

/-- Which units are written does not depend on `VL`. -/
theorem Hart.writeUnits_vl (h : Hart) (vl : Word) (d : VReg) (n : Nat) (rs : List (Nat × List Byte)) :
    (({ h with vl := vl } : Hart).writeUnits d n rs).v = (h.writeUnits d n rs).v := by
  unfold Hart.writeUnits
  show (if h.lentDk = 2 then _ else _ : Hart).v = _
  split <;> rfl

section
variable {s : State} (d : VReg) (a : XReg) (p : PReg) (w : EW) (c : Slot) (hc : s.compute)

/-- The active units before the first that the lease refuses. -/
def State.ffGood (s : State) (a : XReg) (p : PReg) (w : EW) : List Nat :=
  (s.onUnits p w).takeWhile fun k => (List.range (ewBytes w)).all fun j => s.hart.task.mayRead ((s.unitStride a w k).toNat + j)

/-- That unit. -/
def State.ffPast (s : State) (a : XReg) (p : PReg) (w : EW) : Option Nat := ((s.onUnits p w).drop (s.ffGood a p w).length).head?

theorem State.ffPast_lt (s : State) (a : XReg) (p : PReg) (w : EW) (k : Nat) (h : s.ffPast a p w = some k) : k < s.hart.units w :=
  have hk : k ∈ s.onUnits p w := List.mem_of_mem_drop (List.mem_of_mem_head? h)
  List.mem_range.1 (List.mem_of_mem_filter hk)

include hc

/-- The first active unit, refused, ends the task (R216). -/
theorem exec_vldff_refused (k j : Nat) (hfirst : (s.onUnits p w).head? = some k)
    (hbad : ((List.range (ewBytes w)).find? fun j => !s.hart.task.mayRead ((s.unitStride a w k).toNat + j)) = some j) :
    exec (.vldff d a p w c) s = .next (s.leaseFaultAt ((s.unitStride a w k).toNat + j) k) := by
  obtain ⟨r, hr⟩ := List.head?_eq_some_iff.1 hfirst
  change execVldff d a p w c s = _
  rw [execVldff, s.computeOnly_ok _ hc, part_ok_bind]
  dsimp only
  rw [s.allUnits_eq, hr, List.map_cons, List.take_succ_cons, List.take_zero, State.checkUnits, List.findSome?_cons,
    firstBad_eq_map, hbad]
  rfl

/-- With the first active unit admitted, `VL` is shortened to the first refused one before any is read (R222, R367). -/
theorem exec_vldff_eq (hfirst : ∀ k, (s.onUnits p w).head? = some k →
      ∀ j < ewBytes w, s.hart.task.mayRead ((s.unitStride a w k).toNat + j) = true) :
    exec (.vldff d a p w c) s = finish (((s.ffShort w (s.ffPast a p w)).readUnits
      (((s.ffGood a p w).filter fun k => s.takes k && decide (k < (s.ffShort w (s.ffPast a p w)).unitStop w)).map fun k =>
        (k, (s.unitStride a w k).toNat)) (ewBytes w)).map fun r =>
          (r.2.onHart fun h => h.writeUnits d (ewBytes w) r.1).vend ((s.ffShort w (s.ffPast a p w)).unitStop w)
            ((s.ffShort w (s.ffPast a p w)).hart.units w)) := by
  have hcheck : s.checkUnits s.hart.task.mayRead ((s.allUnits p w (s.unitStride a w)).take 1) (ewBytes w) = .ok () := by
    refine s.checkUnits_ok _ _ _ fun u hu => ?_
    rw [s.allUnits_eq, ← List.map_take, List.take_one] at hu
    obtain ⟨k, hk, rfl⟩ := List.mem_map.1 hu
    exact hfirst k (Option.mem_toList.1 hk)
  have hgood : (s.allUnits p w (s.unitStride a w)).takeWhile
      (fun u => (firstBad s.hart.task.mayRead u.2 (ewBytes w)).isNone)
      = (s.ffGood a p w).map fun k => (k, (s.unitStride a w k).toNat) := by
    rw [s.allUnits_eq, List.takeWhile_map, State.ffGood]
    simp only [firstBad_isNone]
    rfl
  have hshort := s.onHart_ffShorten w ((s.onUnits p w).drop (s.ffGood a p w).length) (s.unitStride a w)
  change execVldff d a p w c s = _
  rw [execVldff, s.computeOnly_ok _ hc, part_ok_bind]
  dsimp only
  rw [hcheck, part_ok_bind, hgood, List.length_map]
  rw [s.allUnits_eq, ← List.map_drop, List.filter_map]
  change (fun t : State => finish (t.readUnits (((s.ffGood a p w).filter fun k => s.takes k && decide (k < t.unitStop w)).map
    fun k => (k, (s.unitStride a w k).toNat)) (ewBytes w) >>= fun r =>
      .ok ((r.2.onHart fun h => h.writeUnits d (ewBytes w) r.1).vend (t.unitStop w) (t.hart.units w)))) (s.onHart
        (Hart.ffShorten w (((s.onUnits p w).drop (s.ffGood a p w).length).map fun k => (k, (s.unitStride a w k).toNat)))) = _
  rw [hshort]
  exact congrArg finish (part_bind_ok _ _)

/-- A load whose first unit the lease admits loads the units before the first refused one that the turn reaches. -/
theorem exec_vldff_ok {stop : Nat} {done : State → State}
    (hends : s.endsAt (some (s.hart.groupOf (8 * ewBytes w))) ((s.ffPast a p w).getD (s.hart.units w)) stop done)
    (hun : s.unworn (s.hart.units w))
    (htr : ∀ k ∈ s.ffGood a p w, k < stop → s.translates (s.unitStride a w k).toNat (ewBytes w))
    (hfirst : ∀ k, (s.onUnits p w).head? = some k →
      ∀ j < ewBytes w, s.hart.task.mayRead ((s.unitStride a w k).toNat + j) = true) :
    ∃ t, exec (.vldff d a p w c) s = .next t
      ∧ unitsWritten s t d (ewBytes w) (fun k => decide (k ∈ s.ffGood a p w ∧ k < stop) && s.does p (s.hart.units w) k)
        (fun k => s.sees (s.unitStride a w k).toNat (ewBytes w))
      ∧ t = done { s with leaves := t.leaves, hart := { s.hart with v := t.hart.v, vl := s.ffVl w (s.ffPast a p w) } } := by
  have hunits := s.units_ffShort w (s.ffPast a p w) (s.ffPast_lt a p w)
  have hstop : (s.ffShort w (s.ffPast a p w)).unitStop w = stop := by
    rw [State.unitStop, hunits]
    exact hends.stopOf_eq
  obtain ⟨us, hus⟩ : ∃ us, us = (s.ffGood a p w).filter fun k => s.takes k && decide (k < stop) := ⟨_, rfl⟩
  have hon (k : Nat) : k ∈ us ↔ (decide (k ∈ s.ffGood a p w ∧ k < stop) && s.does p (s.hart.units w) k) = true := by
    have hmem : k ∈ s.ffGood a p w → s.on p (s.hart.units w) k = true := fun h =>
      (List.mem_filter.1 ((List.takeWhile_sublist _).subset h)).2
    rw [hus, List.mem_filter, State.does_eq]
    simp only [Bool.and_eq_true, decide_eq_true_eq]
    exact ⟨fun ⟨hg, ht, hlt⟩ => ⟨⟨hg, hlt⟩, hmem hg, ht⟩, fun ⟨⟨hg, hlt⟩, _, ht⟩ => ⟨hg, ht, hlt⟩⟩
  have hcount : (us.map fun k => (k, (s.unitStride a w k).toNat)).length ≤ s.hart.units w := by
    rw [List.length_map, hus]
    exact (List.length_filter_le _ _).trans ((List.takeWhile_sublist _).length_le.trans
      ((List.length_filter_le _ _).trans List.length_range.le))
  obtain ⟨t, hread, ht⟩ := (s.ffShort w (s.ffPast a p w)).readUnits_ok
    (us.map fun k => (k, (s.unitStride a w k).toNat)) (ewBytes w)
    (List.forall_mem_map.2 fun k hk => by
      rw [hus, List.mem_filter, Bool.and_eq_true, decide_eq_true_eq] at hk
      obtain ⟨hg, -, hlt⟩ := hk
      exact htr k hg hlt)
    (State.unworn_mono (s := s.ffShort w (s.ffPast a p w)) hun hcount)
  obtain ⟨u, hu⟩ : ∃ u, u = t.onHart fun h =>
    h.writeUnits d (ewBytes w) (us.map fun k => (k, s.sees (s.unitStride a w k).toNat (ewBytes w))) := ⟨_, rfl⟩
  have hstate : u = { s with leaves := u.leaves, hart := { s.hart with v := u.hart.v, vl := s.ffVl w (s.ffPast a p w) } } := by
    rw [hu, ht, State.onHart, Hart.writeUnits_eq]
    rfl
  have hexec : exec (.vldff d a p w c) s = .next (done u) := by
    rw [exec_vldff_eq d a p w c hc hfirst, hstop, hunits, ← hus, hread, List.map_map]
    refine congrArg Host.Outcome.next ((?_ : _ = u.vend stop _).trans (hends.vend_done u fun h => ?_))
    · rw [hu]
      rfl
    · rw [hstate]
      exact h
  refine ⟨done u, hexec, unitsWritten_map s _ d us _ (fun k _ => s.length_sees _ _) _ hon ?_, ?_⟩
  · rw [hends.done_v, hu, ht]
    exact s.hart.writeUnits_vl _ d _ _
  · rw [hends.done_v, hends.done_leaves]
    exact congrArg done hstate

end

theorem faultOnlyFirstLoads : Sys2Proof.Says.FaultOnlyFirstLoads := by
  intro d a p w c s stop done hc n addr may ks good past
  exact ⟨fun hends hun htr hfirst => exec_vldff_ok d a p w c hc hends hun htr fun k hk j hj =>
      List.all_eq_true.1 (hfirst k hk) j (List.mem_range.2 hj),
    fun k j hfirst hbad => exec_vldff_refused d a p w c hc k j hfirst hbad⟩

/-- Settles O37: loads (`State.vload_ok`), stores (`State.vstore_wrote`) and `vldff`, which shortens `VL` and then loads. -/
theorem vectorMemoryAccesses : Obligations.VectorMemoryAccesses :=
  ⟨vectorLoadsReadUnits, vectorStoresWriteUnits, faultOnlyFirstLoads⟩

end Sys2Proof.Machine
end

section
/-! PROOFS of `rput` and `rget` (O45; R177, R230 to R240, R345). -/

namespace Sys2Proof.Machine

/-! ### Windows and the checks of a remote word -/

theorem State.remoteChecks_ok (s : State) (i : Instr) (hc : s.compute) (hout : s.outside) : s.remoteChecks i = .ok () := by
  rw [State.remoteChecks, s.computeOnly_ok i hc, part_ok_bind, s.noStrip_ok hout]

theorem State.checkRead_refused (s : State) (va n j : Nat) (hj : j < n) (hbefore : ∀ x < j, s.hart.task.mayRead (va + x) = true)
    (hbad : s.hart.task.mayRead (va + j) = false) :
    s.checkRead va n = .error (s.terminate 0x20 (BitVec.ofNat 64 (va + j)) 0 0) := by
  rw [State.checkRead, firstBad_some _ va n j hj hbefore hbad]
  rfl

theorem State.failOp_eq (s : State) (launch win code : Nat) : s.failOp launch win code = s.failedOp launch win code := rfl

/-! ### `rget` (R240) -/

theorem State.failedOp_holds2 (s : State) (launch win code : Nat) (d : XReg) (v : Word) :
    (s.holds2 d v).failedOp launch win code = (s.failedOp launch win code).holds2 d v := by
  unfold State.holds2
  show _ = if s.hart.lentDk = 1 then _ else _
  split <;> rfl

/-- What an `rget` leaves outstanding. -/
def State.getOf (s : State) (a b : XReg) : GetRec :=
  { owner := s.hart.task.serial, ticket := s.nextName, launch := s.hart.task.launch, win := rawWin (s.getX a)
    asid := s.hart.task.asid, tenant := s.hart.task.tenant, peer := rawPeer (s.getX a), dst := s.getX b
    len := s.hart.copyBytes, failed := false }

/-- The state after a request of `rget` is sent. -/
def State.getSent (s : State) (a b : XReg) : State :=
  let w := s.getX a
  { s.inOrder s.hart.task.launch (rawWin w) s.nextName with
    nextName := s.nextName + 1, gets := s.gets ++ [s.getOf a b]
    egress := s.egress ++ [.request s.nextName (s.request1 (rawPeer w) (rawWin w) (rawOff w) (.get s.hart.copyBytes))] }

section
variable {sl : Slot} {a b c : XReg} {s : State} (hc : s.compute) (hout : s.outside) (hf : s.mayFall)
  (hmay : ∀ k < s.hart.copyBytes, s.hart.task.mayWrite ((s.getX b).toNat + k) = true)
include hc hout hf hmay

theorem exec_rget_unregistered (hwin : s.ownWindow (s.getX a) = none) :
    exec (.rget sl a b c) s = .next (s.holds2 c 0).falls := by
  change execRget sl a b c s = _
  rw [execRget, s.remoteChecks_ok _ hc hout, part_ok_bind]
  dsimp only
  rw [s.checkWrite_ok _ _ hmay, part_ok_bind, hwin]
  exact congrArg Host.Outcome.next (by rw [State.setXL_eq, State.retire_eq _ ((s.holds2_mayFall c 0).2 hf)])

variable {v : Window} (hwin : s.ownWindow (s.getX a) = some v)
include hwin

theorem exec_rget_nothing (hn : s.hart.copyBytes = 0) :
    exec (.rget sl a b c) s = .next (s.holds2 c (v.out.setWidth 64)).falls := by
  change execRget sl a b c s = _
  rw [execRget, s.remoteChecks_ok _ hc hout, part_ok_bind]
  dsimp only
  rw [s.checkWrite_ok _ _ hmay, part_ok_bind, hwin]
  dsimp only
  rw [if_pos hn]
  exact congrArg Host.Outcome.next (by rw [State.setXL_eq, State.retire_eq _ ((s.holds2_mayFall c _).2 hf)])

/-- OUT as it will stand when one more operation of the window is passed (R240). -/
def Window.outAfter (v : Window) : Word := (v.out + BitVec.ofNat 32 (v.ops.length + 1)).setWidth 64

theorem exec_rget_absent (hn : 0 < s.hart.copyBytes) (habsent : s.isAbsent (rawPeer (s.getX a)) = true) :
    exec (.rget sl a b c) s
      = .next ((s.failedOp s.hart.task.launch (rawWin (s.getX a)) 2).holds2 c v.outAfter).falls := by
  change execRget sl a b c s = _
  rw [execRget, s.remoteChecks_ok _ hc hout, part_ok_bind]
  dsimp only
  rw [s.checkWrite_ok _ _ hmay, part_ok_bind, hwin]
  dsimp only
  rw [if_neg hn.ne', habsent, if_pos rfl, State.setXL_eq, State.failOp_eq, State.failedOp_holds2]
  exact congrArg Host.Outcome.next (State.retire_eq _ ((State.holds2_mayFall _ c _).2 hf))

theorem exec_rget_sent (hn : 0 < s.hart.copyBytes) (hpresent : s.isAbsent (rawPeer (s.getX a)) = false) :
    exec (.rget sl a b c) s = .next ((s.getSent a b).holds2 c v.outAfter).falls := by
  change execRget sl a b c s = _
  rw [execRget, s.remoteChecks_ok _ hc hout, part_ok_bind]
  dsimp only
  rw [s.checkWrite_ok _ _ hmay, part_ok_bind, hwin]
  dsimp only
  rw [if_neg hn.ne', hpresent, if_neg Bool.false_ne_true, State.setXL_eq]
  have hstate (x : Word) : State.send { ((s.holds2 c x).openOp s.hart.task.launch (rawWin (s.getX a))).2 with
      gets := s.gets ++ [s.getOf a b] } (.request s.nextName (s.request1 (rawPeer (s.getX a)) (rawWin (s.getX a))
        (rawOff (s.getX a)) (.get s.hart.copyBytes))) = (s.getSent a b).holds2 c x := by
    unfold State.holds2
    show _ = if s.hart.lentDk = 1 then _ else _
    split <;> rfl
  rw [← hstate, ← State.retire_eq _ (by rw [hstate]; exact (State.holds2_mayFall _ c _).2 hf)]
  exact congrArg Host.Outcome.next (congrArg State.retire (by unfold State.holds2; split <;> rfl))

end

theorem remoteGetsSendARequest : Sys2Proof.Says.RemoteGetsSendARequest := by
  intro sl a b c s hc hout hf n w win l hmay
  refine ⟨fun hwin => exec_rget_unregistered hc hout hf hmay hwin, fun v hwin => ?_⟩
  exact ⟨fun hn => exec_rget_nothing hc hout hf hmay hwin hn, fun hn hp => exec_rget_sent hc hout hf hmay hwin hn hp,
    fun hn ha => exec_rget_absent hc hout hf hmay hwin hn ha⟩

/-! ### A token's slot is taken (R235, R236) -/

/-- The hart with slot `k` taken in a state for the operation of the next name. -/
def State.slotTaken (s : State) (k : Fin 64) (st : TokSt) : Hart :=
  { s.hart with
    tokens := s.hart.tokens.set k.val {
      gen := (s.hart.tokens.get k).gen % 1023 + 1, st := st, order := s.hart.tokOrder, undelivered := false, put := s.nextName }
    tokPtr := Fin.ofNat 64 (k.val + 1), tokOrder := s.hart.tokOrder + 1 }

/-- The state of an `rput` that has read its source and taken slot `k`. -/
def State.putTaken (s : State) (k : Fin 64) (va n : Nat) (st : TokSt) : State :=
  { s.counted va n with hart := s.slotTaken k st }

/-- The token that names it. -/
def State.newToken (s : State) (k : Fin 64) : BitVec 16 := BitVec.ofNat 16 (((s.hart.tokens.get k).gen % 1023 + 1) * 64 + k.val)

/-- Another slot is as it was. -/
theorem State.slotTaken_other (s : State) (k : Fin 64) (st : TokSt) {t : BitVec 16} (ht : tokSlotOf t ≠ k) :
    (s.slotTaken k st).tokens.get (tokSlotOf t) = s.hart.tokens.get (tokSlotOf t) :=
  Vector.getElem_set_ne k.isLt (tokSlotOf t).isLt fun h => ht (Fin.ext h.symm)

theorem State.slotTaken_tokIs (s : State) (k : Fin 64) (st st' : TokSt) {t : BitVec 16} (ht : tokSlotOf t ≠ k) :
    (s.slotTaken k st).tokIs st' t = s.hart.tokIs st' t := by
  rw [Hart.tokIs, Hart.tokBusy, s.slotTaken_other k st ht]
  rfl

theorem State.putTaken_tokName (s : State) (k : Fin 64) (va n : Nat) (st : TokSt) {t : BitVec 16} (ht : tokSlotOf t ≠ k) :
    (s.putTaken k va n st).tokName t = s.tokName t := by
  show (match s.puts.find? fun p => p.ticket == ((s.slotTaken k st).tokens.get (tokSlotOf t)).put with
    | some p => p.tok
    | none => { party := s.party, token := t, serial := ((s.slotTaken k st).tokens.get (tokSlotOf t)).put }) = _
  rw [s.slotTaken_other k st ht]
  rfl

/-- A taken slot that expires at once is taken expired. -/
theorem State.slotTaken_expired (s : State) (k : Fin 64) : { s.slotTaken k .pending with
    tokens := (s.slotTaken k .pending).tokens.set k.val { (s.slotTaken k .pending).tokens.get k with st := .expired } }
      = s.slotTaken k .expired := by
  have hget : (s.slotTaken k .pending).tokens.get k = _ := Vector.getElem_set_self k.isLt
  rw [hget]
  unfold State.slotTaken
  dsimp only
  rw [Vector.set_set]

/-! ### `rput` (R235 to R238) -/

/-- The tokens an `rput` carries, but for one of the slot it takes. -/
def State.putCarries (s : State) (c : XReg) (k : Fin 64) : List (BitVec 16) :=
  (s.carriedTokens c).filter fun t => t.toNat % 64 != k.val

theorem State.putCarries_eq (s : State) (c : XReg) (k : Fin 64) :
    s.putCarries c k = (s.carriedTokens c).filter fun t => tokSlotOf t != k := by
  refine List.filter_congr fun t _ => ?_
  rw [Bool.eq_iff_iff, bne_iff_ne, bne_iff_ne, ne_eq, ne_eq, Fin.ext_iff]
  rfl

theorem State.putCarries_other (s : State) (c : XReg) (k : Fin 64) : ∀ t ∈ s.putCarries c k, tokSlotOf t ≠ k := by
  intro t ht
  rw [s.putCarries_eq] at ht
  exact bne_iff_ne.1 (List.mem_filter.1 ht).2

/-- The message of an `rput`. -/
def State.putMsg (s : State) (a b c : XReg) (k : Fin 64) : PutMsg :=
  { src := { party := s.party, token := s.newToken k, serial := s.nextName }, peer := rawPeer (s.getX a)
    tenant := s.hart.task.tenant, job := s.hart.task.job, win := rawWin (s.getX a), off := rawOff (s.getX a)
    data := s.seesNow (s.getX b).toNat s.hart.copyBytes, carried := (s.putCarries c k).map s.tokName, waits := [] }

/-- The record of an `rput` at its issuer. -/
def State.putRec (s : State) (a b c : XReg) (k : Fin 64) : PutRec :=
  { tok := (s.putMsg a b c k).src, owner := s.hart.task.serial, launch := s.hart.task.launch, win := rawWin (s.getX a)
    ticket := s.nextName, peer := rawPeer (s.getX a), msg := s.putMsg a b c k, due := s.cluster.refTick + s.hart.tkexp
    cluster := s.hart.name.cluster
    needs := ((s.putCarries c k).filter (s.hart.tokIs .pending)).map fun t => (s.tokName t).serial
    sent := false, accepted := false, failed := false, expired := false, watchers := [] }

/-- The put stands last in its window's order. -/
def State.putOrdered (s : State) (a b : XReg) (k : Fin 64) (st : TokSt) : State :=
  { s.putTaken k (s.getX b).toNat s.hart.copyBytes st with nextName := s.nextName + 1 }.inOrder s.hart.task.launch
    (rawWin (s.getX a)) s.nextName

section
variable (s : State) (a b c : XReg) (k : Fin 64)

theorem State.putCarries_any (st : TokSt) :
    (s.putCarries c k).any ((s.putTaken k (s.getX b).toNat s.hart.copyBytes .pending).hart.tokIs st)
      = (s.putCarries c k).any (s.hart.tokIs st) := by
  rw [Bool.eq_iff_iff, List.any_eq_true, List.any_eq_true]
  refine exists_congr fun t => and_congr_right fun ht => ?_
  rw [← s.slotTaken_tokIs k .pending st (s.putCarries_other c k t ht)]
  rfl

theorem State.putCarries_names : (s.putCarries c k).map (s.putTaken k (s.getX b).toNat s.hart.copyBytes .pending).tokName
    = (s.putCarries c k).map s.tokName :=
  List.map_congr_left fun t ht => s.putTaken_tokName k _ _ _ (s.putCarries_other c k t ht)

theorem State.putCarries_pending : ((s.putCarries c k).filter
    ((s.putTaken k (s.getX b).toNat s.hart.copyBytes .pending).hart.tokIs .pending)).map
      (fun t => ((s.putTaken k (s.getX b).toNat s.hart.copyBytes .pending).tokName t).serial) = (s.putRec a b c k).needs := by
  have hfilter : (s.putCarries c k).filter ((s.putTaken k (s.getX b).toNat s.hart.copyBytes .pending).hart.tokIs .pending)
      = (s.putCarries c k).filter (s.hart.tokIs .pending) :=
    List.filter_congr fun t ht => s.slotTaken_tokIs k .pending .pending (s.putCarries_other c k t ht)
  rw [hfilter]
  refine List.map_congr_left fun t ht => ?_
  rw [s.putTaken_tokName k _ _ _ (s.putCarries_other c k t (List.mem_of_mem_filter ht))]

/-- The state of an `rput` once it is issued. -/
def State.putIssued (s : State) (a b c : XReg) (k : Fin 64) : State :=
  (s.putTaken k (s.getX b).toNat s.hart.copyBytes .pending).issuePut (s.getX a)
    (s.seesNow (s.getX b).toNat s.hart.copyBytes) (s.putCarries c k) (s.newToken k) k

/-- A put that carries an expired token expires at once and never leaves (R238). -/
theorem State.putIssued_expired (h : (s.putCarries c k).any (s.hart.tokIs .expired) = true) :
    s.putIssued a b c k = (s.putOrdered a b k .expired).closeOp s.hart.task.launch (rawWin (s.getX a)) s.nextName 0 := by
  rw [State.putIssued, State.issuePut, s.putCarries_any, h]
  dsimp only
  rw [if_pos rfl]
  have hexp : (s.putTaken k (s.getX b).toNat s.hart.copyBytes .pending).onHart (fun h => { h with
      tokens := h.tokens.set k.val { h.tokens.get k with st := .expired } })
        = s.putTaken k (s.getX b).toNat s.hart.copyBytes .expired :=
    congrArg (fun h => { s.counted (s.getX b).toNat s.hart.copyBytes with hart := h }) (s.slotTaken_expired k)
  rw [hexp]
  rfl

variable (h : (s.putCarries c k).any (s.hart.tokIs .expired) = false)
include h

theorem State.putIssued_eq : s.putIssued a b c k = if (s.putRec a b c k).needs = [] then
    State.sendPut { s.putOrdered a b k .pending with puts := s.puts ++ [s.putRec a b c k] } (s.putRec a b c k)
      else { s.putOrdered a b k .pending with puts := s.puts ++ [s.putRec a b c k] } := by
  rw [State.putIssued, State.issuePut, s.putCarries_any, h]
  dsimp only
  rw [if_neg Bool.false_ne_true, s.putCarries_names, s.putCarries_pending a b c k]
  rfl

end

section
variable {sl : Slot} {a b c : XReg} {s : State} (hc : s.compute) (hout : s.outside) (hf : s.mayFall)
include hc hout

/-- The first byte that the lease refuses ends the task (R177). -/
theorem exec_rput_refused (k : Nat) (hk : k < s.hart.copyBytes)
    (hbefore : ∀ j < k, s.hart.task.mayRead ((s.getX b).toNat + j) = true)
    (hbad : s.hart.task.mayRead ((s.getX b).toNat + k) = false) :
    exec (.rput sl a b c) s = .next (s.terminate 0x20 (BitVec.ofNat 64 ((s.getX b).toNat + k)) 0 0) := by
  change execRput sl a b c s = _
  rw [execRput, s.remoteChecks_ok _ hc hout, part_ok_bind]
  dsimp only
  rw [s.checkRead_refused _ _ k hk hbefore hbad]
  rfl

variable (hmay : ∀ k < s.hart.copyBytes, s.hart.task.mayRead ((s.getX b).toNat + k) = true)
include hmay

include hf in
/-- Of nothing, or through a window not registered, an `rput` writes 0 (R232). -/
theorem exec_rput_nothing (hnone : s.hart.copyBytes = 0 ∨ s.ownWindow (s.getX a) = none) :
    exec (.rput sl a b c) s = .next (s.holds c 0).falls := by
  have hzero : (decide (s.hart.copyBytes = 0) || (s.ownWindow (s.getX a)).isNone) = true := by
    rw [Bool.or_eq_true, decide_eq_true_eq, Option.isNone_iff_eq_none]
    exact hnone
  change execRput sl a b c s = _
  rw [execRput, s.remoteChecks_ok _ hc hout, part_ok_bind]
  dsimp only
  rw [s.checkRead_ok _ _ hmay, part_ok_bind, if_pos hzero, State.setX_eq, State.retire_eq (s.holds c 0) hf]
  rfl

variable (hn : 0 < s.hart.copyBytes) (hwin : (s.ownWindow (s.getX a)).isSome = true)
include hn hwin

/-- With no slot to take it waits (R345). -/
theorem exec_rput_waits (hslot : s.hart.pickSlot = none) : exec (.rput sl a b c) s = .next s := by
  have hsome : (decide (s.hart.copyBytes = 0) || (s.ownWindow (s.getX a)).isNone) = false := by
    rw [decide_eq_false hn.ne', Bool.false_or, Option.isNone_eq_false_iff, hwin]
  change execRput sl a b c s = _
  rw [execRput, s.remoteChecks_ok _ hc hout, part_ok_bind]
  dsimp only
  rw [s.checkRead_ok _ _ hmay, part_ok_bind, hsome, if_neg Bool.false_ne_true, hslot]
  rfl

variable (htr : s.translates (s.getX b).toNat s.hart.copyBytes) {k : Fin 64} (hslot : s.hart.pickSlot = some k)
include htr hslot

/-- With a slot to take the put is issued, and its token written. -/
theorem exec_rput_issues : exec (.rput sl a b c) s = .next
    ((s.putIssued a b c k).setX c ((s.newToken k).setWidth 64)).retire := by
  have hsome : (decide (s.hart.copyBytes = 0) || (s.ownWindow (s.getX a)).isNone) = false := by
    rw [decide_eq_false hn.ne', Bool.false_or, Option.isNone_eq_false_iff, hwin]
  change execRput sl a b c s = _
  rw [execRput, s.remoteChecks_ok _ hc hout, part_ok_bind]
  dsimp only
  rw [s.checkRead_ok _ _ hmay, part_ok_bind, hsome, if_neg Bool.false_ne_true, hslot]
  dsimp only
  rw [s.load_ok _ _ ⟨hmay, htr⟩, State.putIssued, s.putCarries_eq]
  rfl

theorem exec_rput_of {t : State} (ht : s.putIssued a b c k = t) (hfall : t.mayFall) :
    exec (.rput sl a b c) s = .next (t.holds c ((s.newToken k).setWidth 64)).falls := by
  rw [exec_rput_issues hc hout hmay hn hwin htr hslot, ht, State.setX_eq, State.retire_eq (t.holds c _) hfall]

end

/-! ### A put leaves, or fails at its issuer (R230, R232, R237) -/

section
variable (s : State) (p : PutRec)

/-- The names a put waits for at its target: those that have not landed. -/
def State.putWaits (s : State) (p : PutRec) : List TokName := p.msg.carried.filter s.putOut

/-- A put that leaves marks itself sent, and the puts it waits for as watched by its target. -/
def PutRec.watched (p : PutRec) (waits : List TokName) (q : PutRec) : PutRec :=
  let q1 := if waits.contains q.tok && !q.watchers.contains p.peer then { q with watchers := q.watchers ++ [p.peer] } else q
  if q1.ticket = p.ticket then { q1 with sent := true, msg := { p.msg with waits := waits } } else q1

theorem State.sendPut_present (h : s.isAbsent p.peer = false) : s.sendPut p = { s with
    puts := s.puts.map (p.watched (s.putWaits p))
    egress := s.egress ++ [.put { p.msg with waits := s.putWaits p }] } := by
  rw [State.sendPut, h]
  rfl

theorem State.sendPut_absent (h : s.isAbsent p.peer = true) : s.sendPut p = { s.closeOp p.launch p.win p.ticket 2 with
    puts := s.puts.map fun q => if q.ticket = p.ticket then { q with failed := true } else q } := by
  rw [State.sendPut, h]
  rfl

theorem PutRec.watched_tok (waits : List TokName) (q : PutRec) : (p.watched waits q).tok = q.tok := by
  unfold PutRec.watched
  dsimp only
  split <;> split <;> rfl

/-- The put that leaves is marked sent, with what it waits for. -/
theorem PutRec.watched_self (waits : List TokName) : (p.watched waits p).ticket = p.ticket ∧ (p.watched waits p).sent = true
    ∧ (p.watched waits p).msg = { p.msg with waits := waits } := by
  unfold PutRec.watched
  dsimp only
  split
  · rw [if_pos rfl]
    exact ⟨rfl, rfl, rfl⟩
  · rw [if_pos rfl]
    exact ⟨rfl, rfl, rfl⟩

/-- A put waited for records the target as a watcher. -/
theorem PutRec.watched_watchers (waits : List TokName) (q : PutRec) (h : waits.contains q.tok = true) :
    (p.watched waits q).watchers.contains p.peer = true := by
  have hwatched : (p.watched waits q).watchers
      = (if waits.contains q.tok && !q.watchers.contains p.peer then { q with watchers := q.watchers ++ [p.peer] } else q).watchers := by
    unfold PutRec.watched
    dsimp only
    split <;> split <;> rfl
  rw [hwatched, h, Bool.true_and]
  split
  · simp
  next hin => exact Bool.not_not_eq.mp (by simpa using hin)

end

theorem remotePutsTakeATokenAndEnterOrder : Sys2Proof.Says.RemotePutsTakeATokenAndEnterOrder := by
  intro sl a b c s hc hout hf n va w win l may
  refine ⟨fun k hk hbefore hbad => exec_rput_refused hc hout k hk hbefore hbad,
    fun hmay hnone => exec_rput_nothing hc hout hf hmay hnone,
    fun hn hwin hmay hslot => exec_rput_waits hc hout hmay hn hwin hslot, fun hn hwin hmay htr k hslot => ?_⟩
  intro gen tok carried needs m p taken
  have hexec {t : State} := exec_rput_of (t := t) (sl := sl) (c := c) hc hout hmay hn hwin htr hslot
  refine ⟨fun hexp => ?_, fun hexp hneeds => ?_, fun hexp hneeds hpresent => ?_, fun hexp hneeds habsent => ?_⟩
  · exact hexec (s.putIssued_expired a b c k hexp) hf
  · exact hexec ((s.putIssued_eq a b c k hexp).trans (if_neg hneeds)) hf
  · intro waits
    refine ⟨(s.puts ++ [p]).map (p.watched waits), ?_, ?_, ?_, ?_⟩
    · exact hexec (((s.putIssued_eq a b c k hexp).trans (if_pos hneeds)).trans (State.sendPut_present _ p hpresent)) hf
    · rw [List.map_map]
      exact List.map_congr_left fun q _ => p.watched_tok waits q
    · exact ⟨_, List.mem_map_of_mem (List.mem_append_right _ (List.mem_singleton_self p)), p.watched_self waits⟩
    · intro q hq hwait
      obtain ⟨q', -, rfl⟩ := List.mem_map.1 hq
      rw [p.watched_tok] at hwait
      exact p.watched_watchers waits q' hwait
  · exact hexec (((s.putIssued_eq a b c k hexp).trans (if_pos hneeds)).trans (State.sendPut_absent _ p habsent)) hf

/-- Settles O45: an `rput` by the state it is issued in (`State.putIssued_expired`, `State.putIssued_eq`), an `rget` by its cases. -/
theorem remotePutsAndGets : Obligations.RemotePutsAndGets := ⟨remotePutsTakeATokenAndEnterOrder, remoteGetsSendARequest⟩

end Sys2Proof.Machine
end

section
/-! PROOFS of migration and promotion (O53; R168, R171, R172). -/

namespace Sys2Proof.Machine

/-! ### Parts of a range -/

/-- What lies apart from a range lies apart from a part of it. -/
theorem apart_of_within {a n base size off m : Nat} (h : a + n ≤ base ∨ base + size ≤ a) (hpart : off + m ≤ size) :
    a + n ≤ base + off ∨ base + off + m ≤ a := by omega

theorem outside_of_within {j base size off m : Nat} (h : j < base ∨ base + size ≤ j) (hpart : off + m ≤ size) :
    j < base + off ∨ base + off + m ≤ j := by omega

/-! ### Copies of memory -/

theorem Bytes.get_append_of_not_mem_left (a b : Bytes) (k : Nat) (h : k ∉ a.map (·.1)) : Bytes.get (a ++ b) k = Bytes.get b k := by
  rw [Bytes.get_append, if_neg h]

theorem Bytes.get_append_of_not_mem_right (a b : Bytes) (k : Nat) (h : k ∉ b.map (·.1)) :
    Bytes.get (a ++ b) k = Bytes.get a k := by
  rw [Bytes.get_append]
  split
  · rfl
  next ha => rw [Bytes.get_not_mem b k h, Bytes.get_not_mem a k ha]

theorem Bytes.not_mem_keys_filter (m : Bytes) (p : Nat → Bool) (k : Nat) (h : p k = false) :
    k ∉ (m.filter fun c => p c.1).map (·.1) := by
  intro hk
  obtain ⟨c, hc, rfl⟩ := List.mem_map.1 hk
  exact absurd (List.mem_filter.1 hc).2 (by rw [h]; exact Bool.false_ne_true)

/-- The bytes that a copy moves are a slice, shifted. -/
theorem Bytes.copy_eq (m : Bytes) (a b n : Nat) : m.copy a b n
    = (m.filter fun c => decide (c.1 < b)) ++ (m.slice a n).shift b ++ m.filter fun c => decide (b + n ≤ c.1) := by
  have hmoved : (m.filter fun c => decide (a ≤ c.1 ∧ c.1 < a + n)).map (fun c => (c.1 - a + b, c.2)) = (m.slice a n).shift b := by
    rw [Bytes.slice, Bytes.shift, List.map_map]
    refine List.map_congr_left fun c _ => ?_
    rw [Function.comp, Nat.add_comm]
  rw [Bytes.copy, hmoved]

/-- A byte after a copy: one of the source where the copy went, else what it was. -/
theorem Bytes.get_copy (m : Bytes) (a b n j : Nat) :
    (m.copy a b n).get j = if b ≤ j ∧ j < b + n then m.get (a + (j - b)) else m.get j := by
  have hbefore := Bytes.get_filter m (fun x => decide (x < b)) j
  have hafter := Bytes.get_filter m (fun x => decide (b + n ≤ x)) j
  have hmoved : ((m.slice a n).shift b).get j = if b ≤ j then if j - b < n then m.get (a + (j - b)) else 0 else 0 := by
    rw [Bytes.get_shift, Bytes.get_slice]
  have hkeys : j ∈ ((m.slice a n).shift b).map (·.1) → b ≤ j ∧ j < b + n := by
    intro hj
    obtain ⟨c, hc, rfl⟩ := List.mem_map.1 hj
    obtain ⟨e, he, rfl⟩ := List.mem_map.1 hc
    obtain ⟨d, hd, rfl⟩ := List.mem_map.1 he
    have := (List.mem_filter.1 hd).2
    simp only [decide_eq_true_eq] at this
    dsimp only
    omega
  rw [Bytes.copy_eq]
  by_cases hlow : j < b
  · rw [if_neg (by omega), Bytes.get_append_of_not_mem_right _ _ j (m.not_mem_keys_filter (fun x => decide (b + n ≤ x)) j
      (decide_eq_false (by omega))), Bytes.get_append_of_not_mem_right _ _ j (fun h => by have := hkeys h; omega), hbefore]
    simp [hlow]
  · rw [List.append_assoc, Bytes.get_append_of_not_mem_left _ _ j (m.not_mem_keys_filter (fun x => decide (x < b)) j
      (decide_eq_false hlow))]
    by_cases hin : j < b + n
    · rw [if_pos ⟨by omega, hin⟩, Bytes.get_append_of_not_mem_right _ _ j (m.not_mem_keys_filter (fun x => decide (b + n ≤ x)) j
        (decide_eq_false (by omega))), hmoved, if_pos (by omega), if_pos (by omega)]
    · rw [if_neg (by omega), Bytes.get_append_of_not_mem_left _ _ j (fun h => by have := hkeys h; omega), hafter]
      simp [not_lt.1 hin]

/-- Copies one after another, each with its source, its destination and its length. -/
def Bytes.copyAll {α : Type} (src dst len : α → Nat) (ks : List α) (m : Bytes) : Bytes :=
  ks.foldl (fun m k => m.copy (src k) (dst k) (len k)) m

section
variable {α : Type} (src dst len : α → Nat)

theorem Bytes.get_copyAll_outside (ks : List α) (m : Bytes) (j : Nat) (h : ∀ k ∈ ks, j < dst k ∨ dst k + len k ≤ j) :
    (Bytes.copyAll src dst len ks m).get j = m.get j := by
  induction ks generalizing m with
  | nil => rfl
  | cons x r ih =>
    obtain ⟨hx, hr⟩ := List.forall_mem_cons.1 h
    refine (ih _ hr).trans ?_
    rw [Bytes.get_copy, if_neg (by omega)]

/-- Where destinations lie apart from each other and from the sources, each holds its source. -/
theorem Bytes.get_copyAll_inside (ks : List α) (m : Bytes) (hapart : ks.Pairwise fun k l => dst k + len k ≤ dst l)
    (hsrc : ∀ k ∈ ks, ∀ l ∈ ks, src k + len k ≤ dst l ∨ dst l + len l ≤ src k) (k : α) (hk : k ∈ ks) (i : Nat) (hi : i < len k) :
    (Bytes.copyAll src dst len ks m).get (dst k + i) = m.get (src k + i) := by
  induction ks generalizing m with
  | nil => cases hk
  | cons x r ih =>
    obtain ⟨hx, hr⟩ := List.pairwise_cons.1 hapart
    rcases List.mem_cons.1 hk with rfl | hk'
    · refine (Bytes.get_copyAll_outside src dst len r _ _ fun l hl => .inl ?_).trans ?_
      · have := hx l hl
        omega
      · rw [Bytes.get_copy, if_pos (by omega), Nat.add_sub_cancel_left]
    · refine (ih _ hr (fun k hk l hl => hsrc k (.tail _ hk) l (.tail _ hl)) hk').trans ?_
      have := hsrc k hk x (.head _)
      rw [Bytes.get_copy, if_neg (by omega)]

end

/-! ### Entries and frames (R168, R170) -/

theorem localEntry_toNat (pfn skew : Nat) (promo : Bool) (hp : pfn < 2 ^ 24) (hs : skew < 4) :
    (localEntry pfn skew promo).toNat = 2 ^ 63 + 2 ^ 62 + skew * 2 ^ 48 + promo.toNat * 2 ^ 47 + pfn * 2 ^ 16 := by
  rw [localEntry, BitVec.toNat_ofNat, Nat.mod_eq_of_lt]
  have := Bool.toNat_le promo
  omega

/-- The fields of a local entry. -/
theorem localEntry_fields (pfn skew : Nat) (promo : Bool) (hp : pfn < 2 ^ 24) (hs : skew < 4) :
    let e := localEntry pfn skew promo
    pteValid e = true ∧ pteLeaf e = true ∧ pteMode e = 0 ∧ ptePeer e = 0 ∧ pteThr e = 0 ∧ pteSkew e = skew ∧ ptePromo e = promo
      ∧ ptePfn e = pfn ∧ e.toNat % 2 ^ 16 = 0 ∧ e.toNat / 2 ^ 44 % 2 ^ 3 = 0 := by
  intro e
  have he : e.toNat = _ := localEntry_toNat pfn skew promo hp hs
  simp only [pteValid, pteLeaf, pteMode, ptePeer, pteThr, pteSkew, ptePromo, ptePfn, BitVec.getLsbD,
    Nat.testBit_eq_decide_div_mod_eq, bits, he, decide_eq_true_eq]
  have hpromo : decide ((2 ^ 63 + 2 ^ 62 + skew * 2 ^ 48 + promo.toNat * 2 ^ 47 + pfn * 2 ^ 16) / 2 ^ 47 % 2 = 1) = promo := by
    cases promo
    · exact decide_eq_false (by simp only [Bool.toNat_false]; omega)
    · exact decide_eq_true (by simp only [Bool.toNat_true]; omega)
  have hle := Bool.toNat_le promo
  refine ⟨?_, ?_, ?_, ?_, ?_, ?_, hpromo, ?_, ?_, ?_⟩ <;> omega

theorem levelSize_eq_frames (level : Nat) : levelSize level = levelFrames level * 2 ^ 16 := by
  unfold levelFrames levelSize
  split
  · rfl
  · split <;> rfl

theorem pteSkew_lt (e : Word) : pteSkew e < 4 := Nat.mod_lt _ (by decide)

/-- Free frames are below 2^24. -/
theorem State.framesFree_lt (s : State) (pfn level : Nat) (h : s.framesFree pfn (levelFrames level) = true) : pfn < 2 ^ 24 := by
  simp only [State.framesFree, Bool.and_eq_true, decide_eq_true_eq] at h
  obtain ⟨⟨hfit, -⟩, -⟩ := h
  rw [localFrames] at hfit
  have : 0 < levelFrames level := by
    unfold levelFrames levelSize
    split
    · decide
    · split <;> decide
  omega

/-- A local leaf's bytes lie apart from free frames. -/
theorem State.framesFree_apart (s : State) (pfn level : Nat) (h : s.framesFree pfn (levelFrames level) = true) {l : Leaf}
    (hl : l ∈ s.leaves) (hmode : pteMode l.pte = 0) :
    s.frameKey l l.va + levelSize l.level ≤ s.fid * 2 ^ 40 + pfn * 2 ^ 16
      ∨ s.fid * 2 ^ 40 + pfn * 2 ^ 16 + levelSize level ≤ s.frameKey l l.va := by
  simp only [State.framesFree, Bool.and_eq_true, List.all_eq_true] at h
  obtain ⟨⟨-, hfree⟩, -⟩ := h
  have hfid : s.leafFid l = s.fid := if_pos hmode
  have hno := hfree l hl
  rw [State.leafHasFrame, hfid, beq_self_eq_true, Bool.true_and, meets, Bool.not_eq_true', Bool.and_eq_false_iff,
    decide_eq_false_iff_not, decide_eq_false_iff_not] at hno
  rw [State.frameKey, hfid, levelSize_eq_frames, levelSize_eq_frames level]
  omega

/-! ### Which page is busy (R171) -/

/-- The busy leaf of an address of the hart's own space is the one that names it. -/
theorem State.busyAt_of_leafAt (s : State) (va : Nat) (l : Leaf) (hl : s.leafAt s.hart.task.asid va = some l)
    (hbusy : l.busy = true) : s.busyAt va = some l := by
  have hsame : (s.leaves.filter fun k => k.busy && k.maps k.asid va).find? (fun k => k.asid == spaceOf s.hart.task.asid va)
      = some l := by
    rw [List.find?_filter]
    rw [State.leafAt, List.find?_eq_some_iff_append] at hl
    obtain ⟨hmaps, as, bs, hsplit, hbefore⟩ := hl
    have hasid : l.asid = spaceOf s.hart.task.asid va := by
      simp only [Leaf.maps, Bool.and_eq_true, beq_iff_eq] at hmaps
      exact hmaps.1.1
    rw [List.find?_eq_some_iff_append]
    refine ⟨by simp [hbusy, hasid, hmaps], as, bs, hsplit, fun k hk => ?_⟩
    have hnot := hbefore k hk
    rw [Bool.not_eq_true', decide_eq_false_iff_not]
    rintro ⟨h, he⟩
    rw [Bool.and_eq_true] at h
    rw [beq_iff_eq] at he
    rw [← he, h.2] at hnot
    cases hnot
  unfold State.busyAt
  dsimp only
  rw [hsame]

theorem State.busyAt_isSome (s : State) (va : Nat) (l : Leaf) (hl : l ∈ s.leaves) (hbusy : l.busy = true)
    (hmaps : l.maps l.asid va = true) : (s.busyAt va).isSome = true := by
  have hmem : l ∈ s.leaves.filter fun k => k.busy && k.maps k.asid va :=
    List.mem_filter.2 ⟨hl, by rw [hbusy, hmaps]; rfl⟩
  unfold State.busyAt
  dsimp only
  split
  · rfl
  · rw [List.isSome_head?]
    exact List.ne_nil_of_mem hmem

/-! ### The leaves that fill a range (R172) -/

theorem mapM_option_some {α β : Type} {f : α → Option β} {xs : List α} {ys : List β} (h : xs.mapM f = some ys) :
    List.Forall₂ (fun x y => f x = some y) xs ys := by
  induction xs generalizing ys with
  | nil =>
    cases h
    exact .nil
  | cons x r ih =>
    rw [List.mapM_cons, Option.bind_eq_bind, Option.bind_eq_some_iff] at h
    obtain ⟨y, hy, h⟩ := h
    obtain ⟨zs, hzs, h⟩ := Option.bind_eq_some_iff.1 h
    cases h
    exact .cons hy (ih hzs)

/-- Leaves that fill a range: of its space and level, one after another from its start. -/
theorem State.fill_some (s : State) {asid va level count : Nat} {ls : List Leaf} (h : s.fill asid va level count = some ls) :
    (∀ l ∈ ls, l ∈ s.leaves ∧ l.level = level)
      ∧ ls.map (·.va) = (List.range count).map fun k => va + k * levelSize level := by
  have hall := mapM_option_some h
  have hone (k : Nat) (l : Leaf) (hl : (s.leaves.find? fun l => l.asid == asid && l.level == level
      && l.va == va + k * levelSize level) = some l) : l ∈ s.leaves ∧ l.level = level ∧ l.va = va + k * levelSize level := by
    have hp := List.find?_some hl
    simp only [Bool.and_eq_true, beq_iff_eq] at hp
    exact ⟨List.mem_of_find?_eq_some hl, hp.1.2, hp.2⟩
  clear h
  generalize List.range count = xs at hall
  induction hall with
  | nil => exact ⟨fun l hl => absurd hl List.not_mem_nil, rfl⟩
  | cons hx _ ih =>
    obtain ⟨hleaf, hlevel, hva⟩ := hone _ _ hx
    obtain ⟨hrest, hvas⟩ := ih
    exact ⟨List.forall_mem_cons.2 ⟨⟨hleaf, hlevel⟩, hrest⟩, by rw [List.map_cons, List.map_cons, hva, hvas]⟩

/-! ### Migration (R171) -/

theorem exec_migrate (s : State) (va pfn : Nat) (l : Leaf) (hl : s.busyAt va = some l)
    (hpresent : s.isAbsent (ptePeer l.pte) = false) (hskew : pteSkew l.pte ≠ 3) (haligned : pfn % levelFrames l.level = 0)
    (hfree : s.framesFree pfn (levelFrames l.level) = true) :
    exec (.migrate va pfn) s = .next (({ s with
      mem := s.mem.copy (s.frameKey l l.va) (s.fid * 2 ^ 40 + pfn * 2 ^ 16) (levelSize l.level)
      leaves := s.leaves.map fun k =>
        if k = l then { k with pte := localEntry pfn (pteSkew l.pte) (ptePromo l.pte), accesses := 0 } else k } : State).post 0
      (.migrated (s.ctxOf l.asid) l.va (localEntry pfn (pteSkew l.pte) (ptePromo l.pte)))) := by
  change execMigrate va pfn s = _
  simp only [execMigrate, hl, hpresent, haligned, hfree, hskew, ne_eq, not_true_eq_false, decide_false, Bool.not_true, Bool.or_self,
    Bool.false_eq_true, if_false]

/-! ### Promotion (R172) -/

/-- The leaf that takes the place of those that fill its range. -/
def promotedLeaf (asid level va pfn : Nat) (f : Leaf) : Leaf :=
  { asid := asid, level := level, va := va, pte := localEntry pfn (pteSkew f.pte) true, tenants := f.tenants, accesses := 0 }

/-- Memory once the leaves' bytes are at the new frame. -/
def State.promotedMem (s : State) (va pfn : Nat) (ls : List Leaf) : Bytes :=
  Bytes.copyAll (fun k => s.frameKey k k.va) (fun k : Leaf => s.fid * 2 ^ 40 + pfn * 2 ^ 16 + (k.va - va))
    (fun k => levelSize k.level) ls s.mem

section
variable (s : State) (asid va level pfn : Nat) {f : Leaf} {fs : List Leaf} (hlevel : level = 1 ∨ level = 2)
  (hfree : s.framesFree pfn (levelFrames level) = true)
  (hfill : s.fill asid va (level + 1) (if level = 1 then 512 else 32) = some (f :: fs))
  (hall : ∀ l ∈ f :: fs, l.promotes f = true)
include hlevel hfree hfill hall

theorem exec_promotion (hva : va % levelSize level = 0) (hpfn : pfn % levelFrames level = 0) :
    exec (.promotion asid va level pfn) s = .next { s with
      mem := s.promotedMem va pfn (f :: fs)
      leaves := s.leaves.filter (fun k => !(f :: fs).contains k) ++ [promotedLeaf asid level va pfn f] } := by
  have hlv : (decide (level ≠ 1) && decide (level ≠ 2)) = false := by
    rcases hlevel with rfl | rfl <;> rfl
  have hprom : (f :: fs).all (fun l => l.promotes f) = true := List.all_eq_true.2 hall
  change execPromotion asid va level pfn s = _
  rw [execPromotion]
  dsimp only
  simp only [hlv, hva, hpfn, hfree, ne_eq, not_true_eq_false, decide_false, Bool.not_true, Bool.or_self, Bool.false_eq_true, if_false]
  rw [hfill]
  dsimp only
  rw [hprom]
  rfl

omit hall hfree hlevel in
/-- The leaves follow one another. -/
theorem State.fill_pairwise : (f :: fs).Pairwise fun k l => k.va + levelSize (level + 1) ≤ l.va := by
  obtain ⟨-, hvas⟩ := s.fill_some hfill
  refine List.Pairwise.of_map (S := fun a b => a + levelSize (level + 1) ≤ b) (fun l : Leaf => l.va) (fun _ _ h => h) ?_
  rw [hvas, List.pairwise_map]
  refine List.pairwise_lt_range.imp fun {i j} hij => ?_
  have := Nat.mul_le_mul_right (levelSize (level + 1)) (Nat.succ_le_of_lt hij)
  rw [Nat.succ_mul] at this
  omega

omit hall hfree in
/-- Each lies in the range. -/
theorem State.fill_within {k : Leaf} (hk : k ∈ f :: fs) :
    va ≤ k.va ∧ k.va - va + levelSize k.level ≤ levelSize level := by
  obtain ⟨hleaves, hvas⟩ := s.fill_some hfill
  obtain ⟨i, hi, hki⟩ := List.mem_map.1 (hvas ▸ List.mem_map_of_mem (f := fun l : Leaf => l.va) hk)
  have hlt := List.mem_range.1 hi
  rw [(hleaves k hk).2, ← hki]
  rcases hlevel with rfl | rfl <;> simp [levelSize] at hlt ⊢ <;> omega

/-- Every byte of a promoted leaf is at its place in the new frame. -/
theorem State.get_promotedMem (k : Leaf) (hk : k ∈ f :: fs) (j : Nat) (hj : j < levelSize k.level) :
    (s.promotedMem va pfn (f :: fs)).get (s.fid * 2 ^ 40 + pfn * 2 ^ 16 + (k.va - va) + j)
      = s.mem.get (s.frameKey k k.va + j) := by
  obtain ⟨hleaves, -⟩ := s.fill_some hfill
  refine Bytes.get_copyAll_inside _ _ _ (f :: fs) s.mem ?_ ?_ k hk j hj
  · refine (s.fill_pairwise asid va level hfill).imp_of_mem fun {a b} ha hb hab => ?_
    have := (s.fill_within asid va level hlevel hfill ha).1
    rw [(hleaves a ha).2]
    omega
  · intro a ha b hb
    have hmode : pteMode a.pte = 0 := by
      have := hall a ha
      simp only [Leaf.promotes, Bool.and_eq_true, decide_eq_true_eq] at this
      exact this.1.1.1.1
    exact apart_of_within (s.framesFree_apart pfn level hfree (hleaves a ha).1 hmode)
      (s.fill_within asid va level hlevel hfill hb).2

omit hall hfree in
theorem State.get_promotedMem_outside (j : Nat)
    (hj : j < s.fid * 2 ^ 40 + pfn * 2 ^ 16 ∨ s.fid * 2 ^ 40 + pfn * 2 ^ 16 + levelSize level ≤ j) :
    (s.promotedMem va pfn (f :: fs)).get j = s.mem.get j := by
  refine Bytes.get_copyAll_outside _ _ _ (f :: fs) s.mem j fun k hk => ?_
  exact outside_of_within hj (s.fill_within asid va level hlevel hfill hk).2

end

theorem migrationAndPromotion : Sys2Proof.Says.MigrationAndPromotion := by
  intro va pfn asid level s base isLocal
  refine ⟨fun l hl hmode hthr => ?_, fun l hl hbusy hmaps => s.busyAt_isSome va l hl hbusy hmaps,
    fun l hl hpresent hskew haligned hfree => ?_, fun f fs hlevel hva hpfn hfree hfill hall => ?_⟩
  · exact s.busyAt_of_leafAt va l hl (by rw [Leaf.busy, hmode, decide_eq_true hthr]; rfl)
  · exact ⟨_, _, exec_migrate s va pfn l hl hpresent hskew haligned hfree,
      localEntry_fields pfn _ _ (s.framesFree_lt pfn _ hfree) (pteSkew_lt _), rfl, fun j => Bytes.get_copy _ _ _ _ j, rfl⟩
  · exact ⟨_, promotedLeaf asid level va pfn f, exec_promotion s asid va level pfn hlevel hfree hfill hall hva hpfn, rfl, rfl, rfl,
      rfl, rfl, localEntry_fields pfn _ _ (s.framesFree_lt pfn _ hfree) (pteSkew_lt _),
      fun k hk j hj => s.get_promotedMem asid va level pfn hlevel hfree hfill hall k hk j hj,
      fun j hj => s.get_promotedMem_outside asid va level pfn hlevel hfill j hj, rfl⟩

end Sys2Proof.Machine
end

section
/-! PROOFS of the mapping commands (O53; R165, R168, R169, R173, R174, R176, R282, R377, R379). -/

namespace Sys2Proof.Machine

/-! ### Commands that R379 lays out -/

/-- A nonzero reserved byte is answered 0xFFFE, with no effect. -/
theorem State.laidOut_reserved (s : State) (c : Cmd) (f : State → State) (hseq : c.seq = s.cmdSeq + 1)
    (hres : c.badReserved = true) :
    s.laidOut c f = .next (({ s with cmdSeq := c.seq } : State).post c.seq (.status 0xFFFE 0 0 0)) := by
  rw [State.laidOut, State.command, if_pos hseq, hres]
  rfl

section
variable (s : State) (c : Cmd) (m : MapCmd) (hseq : c.seq = s.cmdSeq + 1) (hres : c.badReserved = false)

/-! ### `MAP` -/

/-- The space of a page, by its ASID and the spaces there are once it has one (R164). -/
def State.placed (s : State) (m : MapCmd) (a : Nat) (sp : List (BitVec 32 × Nat)) : Prop :=
  if 2 ^ 56 ≤ m.va then a = 0 ∧ sp = s.spaces
  else (s.asidOf m.ctxId = some a ∧ sp = s.spaces)
    ∨ (s.asidOf m.ctxId = none ∧ s.freeAsid = some a ∧ sp = s.spaces ++ [(m.ctxId, a)])

theorem State.entryOk_va (s : State) (m : MapCmd) (h : s.entryOk m = true) : m.va < 2 ^ 57 := by
  simp only [State.entryOk, fieldsOk, Bool.and_eq_true, decide_eq_true_eq] at h
  exact h.1.1.1.1.1.1.1.1.1.1.1.2

/-- Bit 56 of an address below 2^57 tells the shared half. -/
theorem bitOf_56 (va : Nat) (h : va < 2 ^ 57) : bitOf va 56 = decide (2 ^ 56 ≤ va) := by
  rw [bitOf, Bool.eq_iff_iff, beq_iff_eq, decide_eq_true_eq]
  omega

theorem State.spaceFor_of_placed {a : Nat} {sp : List (BitVec 32 × Nat)} (hva : m.va < 2 ^ 57) (h : s.placed m a sp) :
    s.spaceFor m.ctxId m.va = some (a, { s with spaces := sp }) := by
  rw [State.spaceFor, bitOf_56 _ hva]
  unfold State.placed at h
  split at h
  next hhalf =>
    obtain ⟨rfl, rfl⟩ := h
    rw [decide_eq_true hhalf, if_pos rfl]
  next hhalf =>
    rw [decide_eq_false hhalf, if_neg Bool.false_ne_true]
    rcases h with ⟨hasid, rfl⟩ | ⟨hasid, hfree, rfl⟩
    · rw [hasid]
    · rw [hasid, hfree]
      rfl

theorem State.mapOne_field (tenant : Nat) (hbad : s.entryOk m = false) : s.mapOne tenant m = (3, s) := by
  unfold State.mapOne
  split
  · rfl
  · rw [hbad]
    rfl

section
variable {a : Nat} {sp : List (BitVec 32 × Nat)} (tenant : Nat) (hok : s.entryOk m = true)
  (hctx : m.va < 2 ^ 56 → m.ctxId ≠ 0) (h : s.placed m a sp)
include hok hctx h

/-- A page that has a space and is in order passes to the checks of what stands there. -/
theorem State.mapOne_passes : (!s.entryOk m || (decide (a ≠ 0) && decide (m.ctxId = 0))) = false := by
  rw [hok, Bool.not_true, Bool.false_or, Bool.and_eq_false_iff, decide_eq_false_iff_not, decide_eq_false_iff_not, not_not]
  by_cases hhalf : 2 ^ 56 ≤ m.va
  · rw [State.placed, if_pos hhalf] at h
    exact .inl h.1
  · exact .inr (hctx (not_le.1 hhalf))

/-- One more tenant is admitted to a shared-half leaf of the same entry. -/
theorem State.mapOne_admits {l : Leaf} (hl : (s.leaves.find? fun l => l.touches a m.va (levelSize m.level)) = some l)
    (hsame : a = 0 ∧ l.va = m.va ∧ l.level = m.level ∧ l.pte = m.pte ∧ l.tenants.contains tenant = false) :
    s.mapOne tenant m = (0, { s with leaves := s.leaves.map fun k =>
      if k.asid = 0 ∧ k.va = m.va then { k with tenants := k.tenants ++ [tenant] } else k }) := by
  have hpass := s.mapOne_passes m hok hctx h
  obtain ⟨rfl, hva, hlevel, hpte, hten⟩ := hsame
  unfold State.mapOne
  rw [s.spaceFor_of_placed m (s.entryOk_va m hok) h]
  dsimp only
  rw [hpass, if_neg Bool.false_ne_true, hl]
  simp only [hva, hlevel, hpte, hten, decide_true, Bool.not_false, Bool.and_self, if_true, Bool.and_eq_true, decide_eq_true_eq]

theorem State.mapOne_taken {l : Leaf} (hl : (s.leaves.find? fun l => l.touches a m.va (levelSize m.level)) = some l)
    (hother : ¬(a = 0 ∧ l.va = m.va ∧ l.level = m.level ∧ l.pte = m.pte ∧ l.tenants.contains tenant = false)) :
    s.mapOne tenant m = (4, s) := by
  have hpass := s.mapOne_passes m hok hctx h
  unfold State.mapOne
  rw [s.spaceFor_of_placed m (s.entryOk_va m hok) h]
  dsimp only
  rw [hpass, if_neg Bool.false_ne_true, hl]
  dsimp only
  rw [if_neg]
  simp only [Bool.and_eq_true, decide_eq_true_eq, Bool.not_eq_true', and_assoc]
  exact hother

section
variable (hnone : ∀ l ∈ s.leaves, l.touches a m.va (levelSize m.level) = false)
include hnone

theorem State.mapOne_synonym (hsyn : s.synonym a m.va m.level m.pte = true) : s.mapOne tenant m = (1, s) := by
  have hpass := s.mapOne_passes m hok hctx h
  have hfind : (s.leaves.find? fun l => l.touches a m.va (levelSize m.level)) = none :=
    List.find?_eq_none.2 fun l hl => Bool.eq_false_iff.1 (hnone l hl)
  unfold State.mapOne
  rw [s.spaceFor_of_placed m (s.entryOk_va m hok) h]
  dsimp only
  rw [hpass, if_neg Bool.false_ne_true, hfind]
  dsimp only
  rw [if_pos hsyn]

/-- In a free range the leaf is installed (R377). -/
theorem State.mapOne_installs (hsyn : s.synonym a m.va m.level m.pte = false) :
    s.mapOne tenant m = (0, State.touch { s with
      spaces := sp
      leaves := s.leaves ++
        [{ asid := a, level := m.level, va := m.va, pte := m.pte, tenants := [tenant], accesses := 0 }] } a m.va
          (levelSize m.level)) := by
  have hpass := s.mapOne_passes m hok hctx h
  have hfind : (s.leaves.find? fun l => l.touches a m.va (levelSize m.level)) = none :=
    List.find?_eq_none.2 fun l hl => Bool.eq_false_iff.1 (hnone l hl)
  unfold State.mapOne
  rw [s.spaceFor_of_placed m (s.entryOk_va m hok) h]
  dsimp only
  rw [hpass, if_neg Bool.false_ne_true, hfind]
  dsimp only
  rw [hsyn, if_neg Bool.false_ne_true]

end

end

include hseq hres

theorem exec_map_of {code : Nat} {t : State} (h : ({ s with cmdSeq := c.seq } : State).mapOne c.tenant m = (code, t)) :
    exec (.map c m) s = .next (t.post c.seq (.status code 0 0 0)) := by
  change execMap c m s = _
  rw [execMap, s.laidOut_accepted c _ hseq hres]
  dsimp only
  rw [h]
  rfl

/-! ### `UNMAP` -/

/-- No leaf is there. -/
theorem exec_unmap_none (h : s.exactLeaf m = none) :
    exec (.unmap c m) s = .next (({ s with cmdSeq := c.seq } : State).post c.seq (.status 5 0 0 0)) := by
  have h' : ({ s with cmdSeq := c.seq } : State).exactLeaf m = none := h
  change execUnmap c m s = _
  rw [execUnmap, s.laidOut_accepted c _ hseq hres]
  dsimp only
  rw [h']
  rfl

variable {l : Leaf} (hl : s.exactLeaf m = some l)
include hl

/-- A leaf of the shared half that does not name the tenant is not the tenant's to unmap. -/
theorem exec_unmap_stranger (hasid : l.asid = 0) (hten : l.tenants.contains c.tenant = false) :
    exec (.unmap c m) s = .next (({ s with cmdSeq := c.seq } : State).post c.seq (.status 5 0 0 0)) := by
  have hl' : ({ s with cmdSeq := c.seq } : State).exactLeaf m = some l := hl
  change execUnmap c m s = _
  rw [execUnmap, s.laidOut_accepted c _ hseq hres]
  dsimp only
  rw [hl']
  dsimp only
  rw [hasid, hten]
  rfl

section
variable (hmine : ¬(l.asid = 0 ∧ l.tenants.contains c.tenant = false))
include hmine

theorem exec_unmap_leased (hheld : s.leased l.asid c.tenant l.va (levelSize l.level) = true) :
    exec (.unmap c m) s = .next (({ s with cmdSeq := c.seq } : State).post c.seq (.status 2 0 0 0)) := by
  have hl' : ({ s with cmdSeq := c.seq } : State).exactLeaf m = some l := hl
  have hheld' : ({ s with cmdSeq := c.seq } : State).leased l.asid c.tenant l.va (levelSize l.level) = true := hheld
  change execUnmap c m s = _
  rw [execUnmap, s.laidOut_accepted c _ hseq hres]
  dsimp only
  rw [hl']
  dsimp only
  rw [if_neg (by simpa using hmine), if_pos hheld']
  rfl

/-- The tenant withdraws, or the leaf goes, with its cached lines; the answer is owed (R173, R174). -/
theorem exec_unmap_removes (hheld : s.leased l.asid c.tenant l.va (levelSize l.level) = false) :
    exec (.unmap c m) s = .next { s with
      cmdSeq := c.seq
      lines := s.lines.filter fun x => !l.maps x.asid x.va
      baselines := (s.touch l.asid l.va (levelSize l.level)).baselines
      mapPending := s.mapPending ++ [{ cmd := c.seq }]
      leaves := if l.asid = 0 ∧ l.tenants.filter (· != c.tenant) ≠ [] then
          s.leaves.map fun k => if k = l then { k with tenants := l.tenants.filter (· != c.tenant) } else k
        else s.leaves.filter fun k => k != l } := by
  have hl' : ({ s with cmdSeq := c.seq } : State).exactLeaf m = some l := hl
  have hheld' : ({ s with cmdSeq := c.seq } : State).leased l.asid c.tenant l.va (levelSize l.level) = false := hheld
  change execUnmap c m s = _
  rw [execUnmap, s.laidOut_accepted c _ hseq hres]
  dsimp only
  rw [hl']
  dsimp only
  rw [if_neg (by simpa using hmine), hheld', if_neg Bool.false_ne_true]
  simp only [Bool.and_eq_true, decide_eq_true_eq]
  rfl

end

omit hl

/-! ### `REMAP` -/

variable (how : Nat)

theorem exec_remap_field (h : s.entryOk m = false ∨ 1 < how) :
    exec (.remap c m how) s = .next (({ s with cmdSeq := c.seq } : State).post c.seq (.status 3 0 0 0)) := by
  have h' : (!({ s with cmdSeq := c.seq } : State).entryOk m || decide (1 < how)) = true := by
    rw [Bool.or_eq_true, Bool.not_eq_true', decide_eq_true_eq]
    exact h
  change execRemap c m how s = _
  rw [execRemap, s.laidOut_accepted c _ hseq hres]
  dsimp only
  rw [if_pos h']
  rfl

variable (hok : s.entryOk m = true) (hhow : how ≤ 1)
include hok hhow

theorem exec_remap_none (h : s.exactLeaf m = none) :
    exec (.remap c m how) s = .next (({ s with cmdSeq := c.seq } : State).post c.seq (.status 5 0 0 0)) := by
  have h' : ({ s with cmdSeq := c.seq } : State).exactLeaf m = none := h
  have hpass : (!({ s with cmdSeq := c.seq } : State).entryOk m || decide (1 < how)) = false := by
    rw [show ({ s with cmdSeq := c.seq } : State).entryOk m = true from hok, decide_eq_false (not_lt.2 hhow)]
    rfl
  change execRemap c m how s = _
  rw [execRemap, s.laidOut_accepted c _ hseq hres]
  dsimp only
  rw [hpass, if_neg Bool.false_ne_true, h']
  rfl

include hl

/-- What `REMAP` makes of a leaf it names, once the command is in order. -/
theorem exec_remap_found : exec (.remap c m how) s = .next (
    if s.leased l.asid c.tenant l.va (levelSize l.level) then ({ s with cmdSeq := c.seq } : State).answer c 2
    else if l.asid = 0 && l.tenants.any (· != c.tenant) then ({ s with cmdSeq := c.seq } : State).answer c 6
    else if s.synonym l.asid l.va l.level m.pte then ({ s with cmdSeq := c.seq } : State).answer c 1
    else
      let t := { s with
        cmdSeq := c.seq, leaves := s.leaves.map fun k => if k = l then { k with pte := m.pte, accesses := 0 } else k }
      (if how = 1 then t.dropLinesOf l else t.keepLines).oweMapOk c) := by
  have hl' : ({ s with cmdSeq := c.seq } : State).exactLeaf m = some l := hl
  have hpass : (!({ s with cmdSeq := c.seq } : State).entryOk m || decide (1 < how)) = false := by
    rw [show ({ s with cmdSeq := c.seq } : State).entryOk m = true from hok, decide_eq_false (not_lt.2 hhow)]
    rfl
  change execRemap c m how s = _
  rw [execRemap, s.laidOut_accepted c _ hseq hres]
  dsimp only
  rw [hpass, if_neg Bool.false_ne_true, hl']
  rfl

end

theorem exec_mapCommandCompletes (s : State) {p : MapPending} {r : List MapPending} (h : s.mapPending = p :: r) :
    exec .mapCommandCompletes s = .next (({ s with mapPending := r } : State).post p.cmd (.status 0 0 0 0)) := by
  change execMapCommandCompletes s = _
  rw [execMapCommandCompletes, h]

theorem mappingCommandsInstallAndRemove : Sys2Proof.Says.MappingCommandsInstallAndRemove := by
  intro c m how s hseq s1 answered owed
  refine ⟨fun hres b n k v x y ms r ids hids i hi => ?_, fun hres => ⟨fun h => ?_, fun hbad => ?_, fun a sp hok hctx h => ?_,
    fun hnone => ?_, fun l hl => ?_⟩, fun p r h => exec_mapCommandCompletes s h⟩
  · have hlaid := s.laidOut_reserved c (hseq := hseq) (hres := hres)
    simp only [List.mem_cons, List.not_mem_nil, or_false] at hi
    rcases hi with rfl | rfl | rfl | rfl | rfl | rfl
    · change execMap c m s = _
      exact hlaid _
    · change execUnmap c m s = _
      exact hlaid _
    · change execRemap c m how s = _
      exact hlaid _
    · change execMboxw c n k v s = _
      exact hlaid _
    · change execPageans c x y b ms s = _
      exact hlaid _
    · change execLaunch c r ids s = _
      rw [execLaunch, hids]
      exact hlaid _
  · exact exec_remap_field s c m hseq hres how h
  · exact exec_map_of s c m hseq hres (s1.mapOne_field m c.tenant hbad)
  · have hmap {code : Nat} {t : State} := exec_map_of s c m hseq hres (code := code) (t := t)
    exact ⟨fun l hl => ⟨fun hsame => hmap (s1.mapOne_admits m c.tenant hok hctx h hl hsame),
        fun hother => hmap (s1.mapOne_taken m c.tenant hok hctx h hl hother)⟩,
      fun hfree => ⟨fun hsyn => hmap (s1.mapOne_synonym m c.tenant hok hctx h hfree hsyn),
        fun hsyn => hmap (s1.mapOne_installs m c.tenant hok hctx h hfree hsyn)⟩⟩
  · exact ⟨exec_unmap_none s c m hseq hres hnone, fun hok hhow => exec_remap_none s c m hseq hres how hok hhow hnone⟩
  · refine ⟨fun hasid hten => exec_unmap_stranger s c m hseq hres hl hasid hten,
      fun hmine hheld => exec_unmap_leased s c m hseq hres hl hmine hheld,
      fun hmine hheld => exec_unmap_removes s c m hseq hres hl hmine hheld, fun hok hhow => ?_⟩
    intro others
    have hothers : (decide (l.asid = 0) && l.tenants.any (· != c.tenant)) = true ↔ others := by
      rw [Bool.and_eq_true, decide_eq_true_eq, List.any_eq_true]
      exact and_congr_right fun _ => exists_congr fun t => and_congr_right fun _ => bne_iff_ne
    rw [exec_remap_found s c m hseq hres hl how hok hhow]
    refine ⟨fun hheld => ?_, fun hheld hoth => ?_, fun hheld hoth hsyn => ?_, fun hheld hoth hsyn => ?_⟩
    · rw [if_pos hheld]
      rfl
    · rw [if_neg (Bool.eq_false_iff.1 hheld), if_pos (hothers.2 hoth)]
      rfl
    · rw [if_neg (Bool.eq_false_iff.1 hheld), if_neg (mt hothers.1 hoth), if_pos hsyn]
      rfl
    · rw [if_neg (Bool.eq_false_iff.1 hheld), if_neg (mt hothers.1 hoth), if_neg (Bool.eq_false_iff.1 hsyn)]
      intro new
      by_cases hpurge : how = 1
      · simp only [if_pos hpurge]
        rfl
      · simp only [if_neg hpurge]
        rfl

/-- Settles O53: each command by its answers one after another (`State.mapOne_installs`, `exec_unmap_removes`, `exec_remap_found`);
a migration is one copy (`Bytes.get_copy`), a promotion copies to places apart (`Bytes.get_copyAll_inside`). -/
theorem mappingMigrationAndPromotion : Obligations.MappingMigrationAndPromotion :=
  ⟨mappingCommandsInstallAndRemove, migrationAndPromotion⟩

end Sys2Proof.Machine
end

section
/-! PROOFS about puts at their target (O57; R167, R235, R237): a notice that lets a put become visible can end a task. -/

namespace Sys2Proof.Machine

/-- A launch with one memory window of which no byte is mapped. -/
def unmappedLaunch : Launch :=
  { id := 7, lease := 9, tenant := 3, job := 2, asid := 1, owed := none, requests := []
    record := {
      ctxId := 11
      desc := {
        name := 1, leaseIndex := 0, count := 1, entry := 0, args := 0, argstride := 0, priority := 2, lanes := 16, preempt := 0
        classmap := 0, badReserved := false }
      mbox := Vector.replicate 8 0, leaseName := 1, lease := [], groups := [], windows := [], sections := [], kvec := 0 }
    windows := [{ id := 5, tile := false, base := 0x200000, len := 0x1000, ops := [], out := 0, inn := 0, err := 0 }]
    mbox := Vector.replicate 8 0, live := 1, exited := 0, terminated := 0 }

/-- The token that a held put waits for. -/
def awaitedToken : TokName := ⟨⟨4, 1⟩, 71, 9⟩

/-- A put of this package's own task 5 to that window, which waits for one token. -/
def waitingPut : PutMsg :=
  { src := ⟨⟨0, 0⟩, 64, 77⟩, peer := 0, tenant := 3, job := 2, win := 5, off := 0, data := [1], carried := [], waits := [awaitedToken] }

/-- The put is held; its task is bound on the hart in front, which is its issuer, and no leaf maps its bytes. -/
def holdingUnmapped : State :=
  { State.reset with
    hart := { State.reset.hart with bound := true, task := { State.reset.hart.task with serial := 5, launch := 7, tenant := 3 } }
    launches := [unmappedLaunch]
    puts := [{
      tok := waitingPut.src, owner := 5, launch := 7, win := 5, ticket := 77, peer := 0, msg := waitingPut, due := 50, cluster := 0
      needs := [], sent := true, accepted := true, failed := false, expired := false, watchers := [] }]
    held := [{ station := 0, msg := waitingPut }] }

/-- The notice lets the put perform; its bytes find no leaf, and its task ends with `XLATE` (R167). -/
theorem landedNotice_ends_task (u : State) (hu : exec (.landedNotice awaitedToken) holdingUnmapped = .next u) :
    u.hart.bound = false := by
  have hends : (match exec (.landedNotice awaitedToken) holdingUnmapped with | .next v => v.hart.bound | _ => true) = false := by
    decide +kernel
  rw [hu] at hends
  exact hends

/-- Refutes O57: a landed token need not leave the hart in front. Where the bytes of the put it releases are on a page no leaf maps,
the task that issued the put ends, and that task may be bound on the hart in front (`State.walkFault`). -/
theorem not_putsAtTheTarget : ¬ Obligations.PutsAtTheTarget := by
  rintro ⟨-, hnotices⟩
  obtain ⟨⟨u, hu, -, -, -, -, hhart⟩, -⟩ := hnotices awaitedToken holdingUnmapped
  have hends := landedNotice_ends_task u hu
  rw [hhart] at hends
  cases hends

end Sys2Proof.Machine
end
